-- ==== Sys2Proof/Word.lean ====
section
/-!
DEFINITION. The machine words of the Luathen LN-840 and nothing else (R2, R3): every bit-field helper, sign extension
and byte-order helper stands in Machine/Bits.lean.
-/
namespace Sys2Proof

/-- One byte of memory. -/
abbrev Byte := BitVec 8
/-- A 32-bit register, code offset or `IMM` (R6, R62). -/
abbrev Word := BitVec 32
/-- A 64-bit pair, effect argument or token (R71, R378, R380). -/
abbrev Dword := BitVec 64
/-- The 96-bit instruction word (R62). -/
abbrev IWord := BitVec 96

end Sys2Proof
end

