-- ==== Sys2Proof/Syntax.lean ====
section
/-!
DEFINITION. The syntax of the Ochus instruction set and of the device's other steps: operand specifiers (R66, R67), the
`MOD` codes (R78), the five formats (R73-R77), what each step of the device that no word encodes is told by its
environment, and `Instr`, one constructor for every row of spec/opcode_table.json.
-/
namespace Sys2Proof

/-- The special registers, specifiers 0xE0-0xF7 (R67). -/
inductive Special where
  | lane | pack | role | fibre | teamX | teamY | teamZ | gridX | gridY | gridZ | core | quad | die | pkg
  | shape0 | shape1 | shape2 | shape3 | bucket | hsp | lanemaskLt | active | ctx | launch
  deriving DecidableEq, Repr, Inhabited

/-- An operand specifier (R66). 0x00-0x07 name c0-c7 in a lane in capsule mode: each lane reads `g` under its own mode. -/
inductive Spec where
  | g (i : Fin 128)
  | k (i : Fin 64)
  | p (i : Fin 16)
  | m (i : Fin 12)
  | q (i : Fin 4)
  | sp (r : Special)
  | none
  | imm
  deriving DecidableEq, Repr, Inhabited

/-- `TY` codes 0-11 (R78). -/
inductive Ty where
  | s32 | n32 | s64 | n64 | f32 | bf16 | f16 | mf8 | s8 | n8 | s16 | n16
  deriving DecidableEq, Repr, Inhabited

/-- `RM` codes (R78). -/
inductive Rm where
  | rn | rz | rm | rp
  deriving DecidableEq, Repr, Inhabited

/-- `SZ` codes 0-4 (R78). -/
inductive Sz where
  | b | h | w | d | q
  deriving DecidableEq, Repr, Inhabited

/-- `ORD` codes 0-5 (R78). -/
inductive MOrd where
  | plain | rlx | acq | rel | ar | sc
  deriving DecidableEq, Repr, Inhabited

/-- `SC` codes 0-6 (R78), from narrow to wide (R7). -/
inductive Scope where
  | lane | core | quad | die | pkg | pod | sys
  deriving DecidableEq, Repr, Inhabited

/-- The guard of an instruction: `GP` and `GN` (R64). -/
structure Guard where
  gp : Fin 16
  gn : Bool
  deriving DecidableEq, Repr, Inhabited

/-- What every format shares: the guard, the four specifier fields and `FN` (R62). -/
structure Head where
  guard : Guard
  d : Spec
  a : Spec
  b : Spec
  c : Spec
  fn : BitVec 8
  deriving DecidableEq, Repr, Inhabited

/-- The AL format (R73); `x` is `MOD`[35:32]. -/
structure AL extends Head where
  ty : Ty
  rm : Rm
  sat : Bool
  x : BitVec 4
  imm : Word
  deriving DecidableEq, Repr, Inhabited

/-- The ME format (R74); `ch` is the hint, or the use of `ATOM` and `RED`. -/
structure ME extends Head where
  sz : Sz
  ord : MOrd
  sc : Scope
  ch : BitVec 2
  hnd : BitVec 12
  off : BitVec 20
  deriving DecidableEq, Repr, Inhabited

/-- The BR format (R75): a signed line offset and a slot. -/
structure BR extends Head where
  mod : BitVec 11
  line : BitVec 29
  slot : BitVec 3
  deriving DecidableEq, Repr, Inhabited

/-- The EN format (R76); `x` is `MOD`[37:32], `lo` is `IMM`[7:0]. -/
structure EN extends Head where
  acq : Bool
  rel : Bool
  sc : Scope
  x : BitVec 6
  hx : BitVec 12
  hy : BitVec 12
  lo : BitVec 8
  deriving DecidableEq, Repr, Inhabited

/-- The SY format (R77). -/
structure SY extends Head where
  mod : BitVec 11
  imm : Word
  deriving DecidableEq, Repr, Inhabited

/-! What the environment tells a step of the device that no instruction word encodes. -/

/-- Where a bind record puts a team (R126): the choices of slot and bases that the manual leaves to the bind writer. -/
structure BindRes where
  slot : Nat
  rfBase : Nat
  spBase : Nat
  tdBase : Nat
  accMap : BitVec 8
  wsBase : Nat
  pkBase : Nat
  deriving DecidableEq, Repr, Inhabited

/-- What another package answers to one network segment (R293, R294). -/
inductive NetReply where
  | performed (data : List Byte)
  | remote
  | perm
  | bounds
  | fault
  deriving DecidableEq, Repr, Inhabited

/-- A register of the saved state that a service writes (R395): lane, register number, value. -/
structure RegSet where
  lane : Nat
  reg : Nat
  val : Word
  deriving DecidableEq, Repr, Inhabited

/-- How the control process answers an ISA.MISSING signal (R395, mode 1). -/
inductive MissingAnswer where
  | next (regs : List RegSet) (mem : List (Nat × Byte))
  | again (regs : List RegSet) (mem : List (Nat × Byte))
  | kill
  deriving DecidableEq, Repr, Inhabited

/-- The six relocations (R53). -/
inductive RelocKind where
  | code32 | slot | hidx12 | data64 | fdesc | rgn12
  deriving DecidableEq, Repr, Inhabited

/-- The place a relocation patches: a section (R52), a handle entry or a launch block. -/
inductive RelocPlace where
  | text | rodata | data
  | handle (index : Nat)
  | launch (name : String)
  deriving DecidableEq, Repr, Inhabited

/-- One relocation record (R53); `sym` is the index of its symbol in the object's table. -/
structure Reloc where
  place : RelocPlace
  off : Nat
  kind : RelocKind
  sym : Nat
  addend : Int
  deriving DecidableEq, Repr, Inhabited

/-- What a symbol of an object names (R52). -/
inductive SymAt where
  | text (off : Nat)
  | rodata (off : Nat)
  | data (off : Nat)
  | handle (index : Nat)
  | launch
  | abs (v : Nat)
  | undef (weak : Bool)
  deriving DecidableEq, Repr, Inhabited

/-- A symbol of an object; `out` says that `.global` or `.weak` exports it (R46, R47). -/
structure Sym where
  name : String
  at_ : SymAt
  out : Bool
  deriving DecidableEq, Repr, Inhabited

/-- The contents of a code object (R52), read out of its ELF64 container; `others` names its further sections. -/
structure Obj where
  text : List Byte
  rodata : List Byte
  data : List Byte
  textAlign : Nat
  rodataAlign : Nat
  dataAlign : Nat
  handles : List (Nat × List Byte)
  launches : List (String × List Byte)
  syms : List Sym
  relocs : List Reloc
  entry : Option String
  others : List String
  deriving DecidableEq, Repr, Inhabited

/-- Where Cupola's loader places an object (R105, step 1): the choices the manual leaves to it. -/
structure LoadPlace where
  textOff : Nat
  rodataVa : Nat
  dataVa : Nat
  frames : List (Nat × Nat)
  tables : List Nat
  deriving DecidableEq, Repr, Inhabited

/-- A request message (R429): the ROD flow it came on, its 32-byte header, the bytes of its payload, and whether it arrives now or Cupola takes it up again, having
held it (R431). -/
structure Msg where
  flow : Nat
  head : List Byte
  len : Nat
  again : Bool
  deriving DecidableEq, Repr, Inhabited

/-- CTX.CREATE (R401, R430), with the tenant that asks (0 is Cupola, for a service of its own) and the frame that Cupola picks for the level-0 table. -/
structure CtxCreateReq where
  tenant : Nat
  part : Nat
  keys : List Nat
  missingMode : Nat
  peers : List (Nat × Nat)
  root : Nat
  cwbase : Nat
  deriving DecidableEq, Repr, Inhabited

/-- MAP (R430), with the frames and table frames that Cupola picks. -/
structure MapReq where
  va : Nat
  len : Nat
  r : Bool
  w : Bool
  x : Bool
  at_ : Bool
  key : Nat
  resident : Bool
  frames : List Nat
  tables : List Nat
  deriving DecidableEq, Repr, Inhabited

/-- START (R108); its flags are in the message's header. -/
structure StartReq where
  name : Option String
  shape : List Word
  deriving DecidableEq, Repr, Inhabited

/-- The fields of HALTAT (R410). -/
structure HaltAt where
  ctx : Nat
  allTeams : Bool
  byName : Bool
  lid : Nat
  lname : String
  tx : Nat
  ty : Nat
  tz : Nat
  fib : Nat
  offset : Word
  deriving DecidableEq, Repr, Inhabited

/-- An access that Cupola serves at home, a remote party's (R294, R430) or a control process's own (R431, R341): a read, a write, or the update that an XRED of a peer carries (R295, R428). -/
inductive RmaOp where
  | read (len : Nat)
  | write (data : List Byte)
  | reduce (op ty : Nat) (v : Nat)
  deriving DecidableEq, Repr, Inhabited

/-- Whose access it is: with `own`, the tenant's control process's; with `far`, a peer's network segment through that handle, whose address
is then an offset (R293). -/
structure RmaReq where
  own : Bool
  far : Option Nat
  op : RmaOp
  deriving DecidableEq, Repr, Inhabited

/-- A transfer of the storage port (R432): bytes of a namespace, 0 the boot namespace, others of datasets; `out` says that they leave the
tenant's address space. -/
structure StoreReq where
  ns : Nat
  off : Nat
  len : Nat
  out : Bool
  deriving DecidableEq, Repr, Inhabited

/-- What the boot ROM finds (R433): how many bytes of the boot namespace it can read as the image, if any; what the boot server sends in
its place, if anything; the links; the plan and the table of remapped quads. -/
structure BootInput where
  nvme : Option Nat
  uet : Option (List Byte)
  linksUp : Bool
  planOk : Bool
  plan : Nat
  remap : List (List Nat)
  deriving DecidableEq, Repr, Inhabited

/-- Where an error strikes that ECC cannot correct (R314, R436); in code, a bit of a line of a core's I-cache (R147). -/
inductive EccSite where
  | aByte (core : Nat) (off : Nat)
  | tundishByte (die : Nat) (off : Nat)
  | bSlot (core : Nat) (byte : Nat)
  | decomp (core : Nat) (k j : Nat)
  | cell (core : Nat) (i j : Nat)
  | accWord (core : Nat) (tile word : Nat)
  | code (core index bit : Nat)
  | data (ctx : Nat)
  deriving DecidableEq, Repr, Inhabited

/-- Which unit translates (R258, R262); `control` is the walker of the Crucible cores on which control processes run (R431). -/
inductive XUnit where
  | core (c : Nat)
  | engine (c : Nat)
  | net (die : Nat)
  | port
  | control
  deriving DecidableEq, Repr, Inhabited

/-- The steps of the device: one constructor for every row of spec/opcode_table.json, in the table's order. The rows that an
instruction word encodes carry the word's fields in its format; the other rows carry what identifies the step. -/
inductive Instr where
  | nop
  | iadd (o : AL) | isub (o : AL) | imul (o : AL) | imulh (o : AL) | imad (o : AL) | imadw (o : AL) | idiv (o : AL)
  | irem (o : AL) | imin (o : AL) | imax (o : AL) | iabs (o : AL) | ineg (o : AL) | isad (o : AL) | and (o : AL)
  | or (o : AL) | xor (o : AL) | not (o : AL) | andn (o : AL) | shl (o : AL) | shr (o : AL) | sar (o : AL) | rot (o : AL)
  | fsh (o : AL) | bfx (o : AL) | bfi (o : AL) | brev (o : AL) | popc (o : AL) | clz (o : AL) | ctz (o : AL)
  | prmb (o : AL) | lea (o : AL)
  | mov (o : AL) | sel (o : AL) | ipred (o : AL) | plut (o : AL) | prdw (o : AL) | pwrw (o : AL) | haddr (o : ME)
  | clock (o : AL)
  | bra (o : BR) | brx (o : SY) | call (o : BR) | callx (o : SY) | ret (o : SY) | brdec (o : BR) | join (o : SY)
  | leave (o : SY) | waitm (o : SY) | mset (o : SY) | spawn (o : BR) | exit (o : SY) | demote (o : SY) | yield (o : SY)
  | ballot (o : AL) | agree (o : AL) | shfl (o : AL) | prdx (o : AL) | pscan (o : AL) | matchLanes (o : AL)
  | binit (o : SY) | arrive (o : SY) | bwait (o : SY) | bsync (o : SY) | btest (o : SY) | hbar (o : SY)
  | fadd (o : AL) | fsub (o : AL) | fmul (o : AL) | ffma (o : AL) | fmin (o : AL) | fmax (o : AL) | fpred (o : AL)
  | fclass (o : AL) | frcp (o : AL) | frsq (o : AL) | fsqrt (o : AL) | fex2 (o : AL) | flg2 (o : AL) | ftanh (o : AL)
  | v2add (o : AL) | v2mul (o : AL) | v2fma (o : AL) | fcvt (o : AL) | icvt (o : AL) | scaleq (o : AL) | mfpack (o : AL)
  | mfunpk (o : AL) | fdot4 (o : AL) | idot4 (o : AL) | fstat (o : AL)
  | ld (o : ME) | st (o : ME) | stl (o : ME) | ldq (o : ME)
  | queueEntryArrival (fib : Nat) (q : Fin 4) (index : Nat)
  | qpop (o : SY) | qstat (o : SY) | pref (o : ME) | hres (o : ME) | wbr (o : ME) | invr (o : ME)
  | atom (o : ME) | acas (o : ME) | red (o : ME) | fence (o : ME) | wline (o : ME)
  | watchSlotTrigger (core : Nat) (fib : Nat)
  | capenter (o : ME) | cstep (o : ME) | capexit (o : SY) | capreset (o : ME)
  | cpy (o : EN) | cpyt (o : EN) | gath (o : EN) | scat (o : EN) | xput (o : EN) | xget (o : EN) | xred (o : EN)
  | tktest (o : SY)
  | copySegment (cmd : Nat)
  | fixupService (cmd : Nat) (frame : Nat)
  | networkSegment (cmd : Nat) (reply : NetReply) (frame : Nat)
  | wload (o : EN)
  | wloadCommand (cmd : Nat)
  | mma (o : EN)
  | mmaCommand (cmd : Nat)
  | mmas (o : EN) | mmasClr (o : EN) | accz (o : EN) | accld (o : EN) | accst (o : EN)
  | accstCommand (cmd : Nat)
  | accstat (o : EN)
  | publish (o : SY) | adopt (o : SY) | adoptSpill (o : SY) | retract (o : SY) | fbar (o : SY) | rgnq (o : SY)
  | launch (o : SY)
  | launchAccept (ctx : Nat)
  | handle (o : SY) | unhandle (o : SY) | perform (o : SY) | resume (o : SY) | unwind (o : SY) | effq (o : SY)
  | swriteElogclr (o : SY) | swriteLogmark (o : SY) | swrite (o : SY)
  | errqPop (o : SY) | errqPeek (o : SY) | errqCnt (o : SY) | bkpt (o : SY)
  | isaMissing (w : IWord)
  | lineFetch (fib : Nat)
  | coreIssue (core : Nat)
  | resultArrival (fib : Nat)
  | waitConditionMet (fib : Nat)
  | effectDelivery (fib : Nat)
  | missingEmulation (fib : Nat)
  | missingSignalAnswer (fib : Nat) (answer : MissingAnswer)
  | stuckDeadlock (team : Nat)
  | hbarDeadlock (ctx lid : Nat)
  | bindTeam (part : Nat) (res : List BindRes)
  | dispatch (core slot : Nat)
  | dispatchReady (core slot : Nat)
  | teamRetire (team : Nat)
  | homeAccess (req : Nat)
  | l1Eviction (core sector key : Nat)
  | tableWalk (unit : XUnit) (ctx va : Nat)
  | makeResident (ctx va frame : Nat)
  | pageMigration (ctx va frame : Nat)
  | sliceEnd (ctx : Nat)
  | halt (teams : List Nat)
  | haltComplete (team ns : Nat)
  | haltWatchdog (team : Nat)
  | staleReplyDrop (ctx : Nat)
  | teamResume (team : Nat) (res : List BindRes)
  | haltPointFire (ctx : Nat)
  | makeCold (ctx : Nat) (pages : List Nat)
  | contextRestore (ctx : Nat) (altered : List (Nat × Nat)) (asids : List Nat)
  | attest (m : Msg) (nonce : Nat)
  | ctxCreate (q : Msg × CtxCreateReq)
  | ctxDestroy (m : Msg)
  | map (q : Msg × MapReq)
  | unmap (m : Msg) (va len : Nat)
  | load (m : Msg) (obj : Obj) (place : LoadPlace)
  | start (q : Msg × StartReq)
  | wait (m : Msg) (lid : Nat)
  | query (m : Msg) (lid : Nat) (escalations : Bool)
  | haltatArm (q : Msg × HaltAt)
  | haltatRelease (q : Msg × HaltAt)
  | haltatDisarm (m : Msg)
  | handleEntryWrite (ctx index : Nat) (entry : List Byte)
  | rmaAccess (ctx va : Nat) (op : RmaReq) (frame : Nat)
  | storageTransfer (ctx va : Nat) (op : StoreReq) (frame : Nat)
  | boot (b : BootInput)
  | monitorRead (die : Nat)
  | marginReplan (anew : Bool) (spares : List Nat)
  | uncorrectableError (site : EccSite)
  | acczCommand (cmd : Nat)
  | pageEviction (ctx va : Nat)
  | icacheEviction (core : Nat) (index : Nat)
  | partitionBoundaryMove (giver taker : Nat) (quads : List (Nat × Nat))
  deriving DecidableEq, Repr, Inhabited

end Sys2Proof
end

