-- ==== Sys2Proof/WellFormed.lean ====
section
/-!
DEFINITION. Well-formedness: the checks of steps 2 to 4 of R81 that the instruction word alone decides (R63, R66-R78, R80 and
the operand limits of each instruction's description). What needs the running lane (register budget, capsule mode, helper) is
checked when the instruction issues (Machine/Operands.lean).
-/
namespace Sys2Proof

/-- Why an instruction word is refused; each makes a lane whose guard is true raise ISA.ILLEGAL (R80, R81). -/
inductive Reject where
  | unassignedOp
  | nopBits
  | reservedSpec
  | reservedMod
  | badFn
  | badType
  | badRound
  | badSat
  | badMod
  | badD
  | badA
  | badB
  | badC
  | badImm
  | badSlot
  deriving DecidableEq, Repr, Inhabited

/-- The name of the first check that fails. -/
def firstBad : List (Bool × Reject) → Option Reject
  | [] => none
  | (ok, r) :: cs => if ok then firstBad cs else some r

namespace Ty
/-- A 64-bit type (R71). -/
def wide : Ty → Bool
  | .s64 | .n64 => true
  | _ => false
/-- An integer type (R78). -/
def isInt : Ty → Bool
  | .f32 | .bf16 | .f16 | .mf8 => false
  | _ => true
/-- A signed integer type (R78: the letter n marks an unsigned type). -/
def signed : Ty → Bool
  | .s32 | .s64 | .s8 | .s16 => true
  | _ => false
/-- The width of a type in bits (R71, R78). -/
def width : Ty → Nat
  | .s64 | .n64 => 64
  | .s8 | .n8 | .mf8 => 8
  | .s16 | .n16 | .bf16 | .f16 => 16
  | _ => 32
end Ty

/-- The type of a `TY` or `STY` code; none for 12-15 (R78). -/
def tyOfCode (n : Nat) : Option Ty :=
  match n with
  | 0 => some .s32 | 1 => some .n32 | 2 => some .s64 | 3 => some .n64 | 4 => some .f32 | 5 => some .bf16
  | 6 => some .f16 | 7 => some .mf8 | 8 => some .s8 | 9 => some .n8 | 10 => some .s16 | 11 => some .n16
  | _ => none

/-- Size in bytes of a `SZ` code (R78). -/
def Sz.bytes : Sz → Nat
  | .b => 1 | .h => 2 | .w => 4 | .d => 8 | .q => 16

/-- How many 32-bit registers an access of a size names (R78, R270). -/
def Sz.regs : Sz → Nat
  | .b | .h | .w => 1
  | .d => 2
  | .q => 4

/-- The size of a code 0-4 (R78). -/
def szOfCode (n : Nat) : Option Sz :=
  match n with
  | 0 => some .b | 1 => some .h | 2 => some .w | 3 => some .d | 4 => some .q
  | _ => none

namespace Spec
def isNone : Spec → Bool
  | .none => true
  | _ => false
def isImm : Spec → Bool
  | .imm => true
  | _ => false
def isP : Spec → Bool
  | .p _ => true
  | _ => false
def isM : Spec → Bool
  | .m _ => true
  | _ => false
def isQ : Spec → Bool
  | .q _ => true
  | _ => false
/-- A g register whose index is a multiple of n. -/
def isG (n : Nat) : Spec → Bool
  | .g i => i.val % n == 0
  | _ => false
/-- A g or k register whose index is a multiple of n. -/
def isGK (n : Nat) : Spec → Bool
  | .g i => i.val % n == 0
  | .k i => i.val % n == 0
  | _ => false
/-- A p register other than p0. -/
def isP1 : Spec → Bool
  | .p i => i.val != 0
  | _ => false
/-- A source (R68); a 64-bit g or k source is an even pair (R71). -/
def isSrc (wide : Bool) : Spec → Bool
  | .g i => !wide || i.val % 2 == 0
  | .k i => !wide || i.val % 2 == 0
  | .p _ | .m _ | .sp _ | .imm => true
  | .q _ | .none => false
/-- A destination (R69); a 64-bit g or k destination is an even pair (R71). -/
def isDst (wide : Bool) : Spec → Bool
  | .g i => !wide || i.val % 2 == 0
  | .k i => !wide || i.val % 2 == 0
  | .p _ => true
  | _ => false
/-- The base register of a memory operand: 0xFE, or a g register, even under h0 (R74). -/
def isBase (h0 : Bool) : Spec → Bool
  | .none => true
  | .g i => !h0 || i.val % 2 == 0
  | _ => false
end Spec

/-- `COMB` and its C specifier (R173): MOD[35:34] and MOD[33:32]. -/
def combOk (x : BitVec 4) (c : Spec) : Bool :=
  x.extractLsb' 0 2 == 0 && (if x.extractLsb' 2 2 == 0 then c.isNone else c.isP)

/-- The checks every AL instruction shares (R73): type, rounding, saturation, FN, MOD[35:32] and the four specifiers. `IMM` is not checked
where no field is 0xFF. (DESIGN CHOICE, log 69.) -/
def alCheck (o : AL) (tys : List Ty) (rm sat fn x d a b c : Bool) : Option Reject :=
  firstBad [(tys.contains o.ty, .badType), (rm || o.rm == .rn, .badRound), (sat || !o.sat, .badSat), (fn, .badFn),
    (x, .badMod), (d, .badD), (a, .badA), (b, .badB), (c, .badC)]

/-- Type set I of R166. -/
def tysI : List Ty := [.s32, .n32, .s64, .n64, .s8, .n8, .s16, .n16]
/-- Type set W of R166. -/
def tysW : List Ty := [.n32, .n64]
def tys4 : List Ty := [.s32, .n32, .s64, .n64]
def tysF : List Ty := [.f32, .bf16, .f16]
def tysF8 : List Ty := [.f32, .bf16, .f16, .mf8]

/-- An integer instruction d, a (R167). -/
def intCheck1 (o : AL) (tys : List Ty) (sat : Bool) : Option Reject :=
  alCheck o tys false sat (o.fn == 0) (o.x == 0) (o.d.isDst o.ty.wide) (o.a.isSrc o.ty.wide) o.b.isNone o.c.isNone
/-- An integer instruction d, a, b (R167). -/
def intCheck2 (o : AL) (tys : List Ty) (sat : Bool) : Option Reject :=
  alCheck o tys false sat (o.fn == 0) (o.x == 0) (o.d.isDst o.ty.wide) (o.a.isSrc o.ty.wide) (o.b.isSrc o.ty.wide) o.c.isNone
/-- An integer instruction d, a, b, c (R167). -/
def intCheck3 (o : AL) (tys : List Ty) (sat : Bool) : Option Reject :=
  alCheck o tys false sat (o.fn == 0) (o.x == 0) (o.d.isDst o.ty.wide) (o.a.isSrc o.ty.wide) (o.b.isSrc o.ty.wide)
    (o.c.isSrc o.ty.wide)
/-- An integer instruction d, a, n whose second operand is one 32-bit register (R166, R167). -/
def intCheckN (o : AL) (tys : List Ty) : Option Reject :=
  alCheck o tys false false (o.fn == 0) (o.x == 0) (o.d.isDst o.ty.wide) (o.a.isSrc o.ty.wide) (o.b.isSrc false) o.c.isNone
/-- POPC, CLZ, CTZ: one 32-bit destination (R167). -/
def intCheckCount (o : AL) : Option Reject :=
  alCheck o tysW false false (o.fn == 0) (o.x == 0) (o.d.isDst false) (o.a.isSrc o.ty.wide) o.b.isNone o.c.isNone

/-- A floating-point instruction of one, two or three 32-bit-register sources (R229). -/
def fpCheck (o : AL) (tys : List Ty) (rm : Bool) (fn : Bool) (n : Nat) : Option Reject :=
  alCheck o tys rm false fn (o.x == 0) (o.d.isDst false) (o.a.isSrc false)
    (if n ≥ 2 then o.b.isSrc false else o.b.isNone) (if n ≥ 3 then o.c.isSrc false else o.c.isNone)

/-- PRDX and PSCAN (R196, R197): types by operation, SAT for integer add, RM for .f32 add. -/
def reduceCheck (o : AL) (x : Bool) : Option Reject :=
  let op := o.fn.toNat
  let tys := if op ≤ 2 then tysI ++ [.f32] else tysW
  alCheck o tys (op == 0 && o.ty == .f32) (op == 0 && o.ty != .f32) (decide (op ≤ 5)) x (o.d.isDst o.ty.wide)
    (o.a.isSrc o.ty.wide) o.b.isNone o.c.isNone

/-- The `SC` field must be 0 under a plain order (R74), except for the atomics, FENCE and WLINE. -/
def plainScope (o : ME) : Bool := o.ord != .plain || o.sc == .lane

/-- The checks of an ME instruction (R74, R270). -/
def meCheck (o : ME) (ords : List MOrd) (sc fn sz ch d b c imm : Bool) : Option Reject :=
  firstBad [(fn, .badFn), (sz, .badMod), (ords.contains o.ord, .badMod), (sc, .badMod), (ch, .badMod), (d, .badD),
    (o.a.isBase (o.hnd == 0), .badA), (b, .badB), (c, .badC), (imm, .badImm)]

/-- The sizes FN admits in ATOM and RED (R346). -/
def atomSz (fn : Nat) (sz : Sz) : Bool :=
  if fn ≤ 8 then sz == .w || sz == .d else if fn == 9 then sz == .w else if fn ≤ 11 then sz == .h else false

/-- The uses R351 admits: MOD[33:32] of ATOM and RED. -/
def atomUse (fn : Nat) (ord : MOrd) (use : BitVec 2) : Bool :=
  match use.toNat with
  | 0 => true
  | 1 => (ord == .plain || ord == .rlx) && fn != 8
  | 2 => ord == .plain || ord == .rlx
  | _ => false

/-- Scope under the A and L bits of EN: 0 when both are clear (R76); `zero` says whether it may be 0 otherwise, as it may not in a copy or
network command (R283). -/
def enScope (o : EN) (zero : Bool) : Bool := if o.acq || o.rel then zero || o.sc != .lane else o.sc == .lane

/-- The checks of an EN instruction (R76). -/
def enCheck (o : EN) (zero acq rel x d a b c imm : Bool) (fn : Bool) : Option Reject :=
  firstBad [(fn, .badFn), (acq || !o.acq, .badMod), (rel || !o.rel, .badMod), (enScope o zero, .badMod), (x, .badMod), (d, .badD),
    (a, .badA), (b, .badB), (c, .badC), (imm, .badImm)]

/-- A token register or 0xFE (R76). -/
def isTok (d : Spec) : Bool := d.isNone || d.isG 1

/-- The follow-on field of a copy command (R76, R292): [6:3] zero. -/
def followOk (lo : BitVec 8) : Bool := lo.extractLsb' 3 4 == 0

/-- The checks of an SY instruction (R77). -/
def syCheck (o : SY) (fn mod d a b c imm : Bool) : Option Reject :=
  let _ := o
  firstBad [(fn, .badFn), (mod, .badMod), (d, .badD), (a, .badA), (b, .badB), (c, .badC), (imm, .badImm)]

/-- An SY instruction whose every field is 0xFE or 0 (R192-R194). -/
def syBare (o : SY) : Option Reject :=
  syCheck o (o.fn == 0) (o.mod == 0) o.d.isNone o.a.isNone o.b.isNone o.c.isNone (o.imm == 0)

/-- The handle index in IMM[31:20] (R74). -/
def immHandle (imm : Word) : BitVec 12 := imm.extractLsb' 20 12
/-- The signed byte offset in IMM[19:0] (R74). -/
def immOffset (imm : Word) : BitVec 20 := imm.extractLsb' 0 20

/-- A phase operand (R199). -/
def isPhase (s : Spec) : Bool := s.isGK 1 || s.isP || s.isImm

/-- The fields that PUBLISH, ADOPT, RETRACT and RGNQ share (R136). -/
def codeImm (o : SY) : Bool := if o.a.isNone then immOffset o.imm == 0 else o.imm == 0
/-- A scope code 1-4 in MOD[36:34], the rest of MOD zero (R136). -/
def codeScope (o : SY) : Bool :=
  let s := (o.mod.extractLsb' 2 3).toNat
  decide (1 ≤ s ∧ s ≤ 4) && o.mod.extractLsb' 0 2 == 0 && o.mod.extractLsb' 5 6 == 0
/-- The point and the bits around it in the rendezvous instructions (R199). -/
def pointOk (o : SY) : Bool := decide ((o.mod.extractLsb' 0 5).toNat ≤ 23)

/-- The BR checks (R75, R178). -/
def brCheck (o : BR) (d : Bool) : Option Reject :=
  firstBad [(o.fn == 0, .badFn), (o.mod == 0, .badMod), (d, .badD), (o.a.isNone, .badA), (o.b.isNone, .badB), (o.c.isNone, .badC),
    (decide (o.slot.toNat < 5), .badSlot)]

namespace Instr

/-- The first check of the word that an instruction fails, none when it is well-formed. The steps that no word encodes are
always well-formed. -/
def check : Instr → Option Reject
  | .nop => none
  | .iadd o | .isub o | .imul o => intCheck2 o tysI true
  | .imulh o => intCheck2 o tys4 false
  | .imad o | .isad o => intCheck3 o tysI true
  | .imadw o =>
    alCheck o [.s32, .n32] false false (o.fn == 0) (o.x == 0) (o.d.isGK 2) (o.a.isSrc false) (o.b.isSrc false)
      (o.c.isGK 2 || o.c.isImm)
  | .idiv o | .irem o | .imin o | .imax o => intCheck2 o tysI false
  | .iabs o | .ineg o => intCheck1 o tysI true
  | .and o | .or o | .xor o | .andn o => intCheck2 o tysW false
  | .not o | .brev o => intCheck1 o tysW false
  | .shl o | .shr o | .rot o => intCheckN o tysW
  | .sar o => intCheckN o [.s32, .s64]
  | .fsh o =>
    alCheck o [.n32] false false (decide (o.fn.toNat ≤ 1)) (o.x == 0) (o.d.isDst false) (o.a.isSrc false) (o.b.isSrc false)
      (o.c.isSrc false)
  | .bfx o => intCheckN o tys4
  | .bfi o =>
    alCheck o tysW false false (o.fn == 0) (o.x == 0) (o.d.isDst o.ty.wide) (o.a.isSrc o.ty.wide) (o.b.isSrc false)
      (o.c.isSrc o.ty.wide)
  | .popc o | .clz o | .ctz o => intCheckCount o
  | .prmb o => intCheck3 o [.n32] false
  | .lea o =>
    alCheck o tysW false false (o.fn == 0) true (o.d.isDst o.ty.wide) (o.a.isSrc o.ty.wide) (o.b.isSrc false) o.c.isNone
  | .mov o =>
    alCheck o (tys4 ++ [.f32]) false false (o.fn == 0) (o.x == 0) (o.d.isDst o.ty.wide) (o.a.isSrc o.ty.wide) o.b.isNone
      o.c.isNone
  | .sel o =>
    alCheck o (tys4 ++ [.f32]) false false (o.fn == 0) (o.x == 0) (o.d.isDst o.ty.wide) (o.a.isSrc o.ty.wide)
      (o.b.isSrc o.ty.wide) o.c.isP
  | .ipred o =>
    alCheck o tysI false false (decide (o.fn.toNat ≤ 5)) (combOk o.x o.c) (o.d.isP || o.d.isG 1) (o.a.isSrc o.ty.wide)
      (o.b.isSrc o.ty.wide) true
  | .plut o => alCheck o [.s32] false false true (o.x == 0) o.d.isP o.a.isP o.b.isP o.c.isP
  | .prdw o => alCheck o [.s32] false false (o.fn == 0) (o.x == 0) (o.d.isDst false) o.a.isNone o.b.isNone o.c.isNone
  | .pwrw o =>
    alCheck o [.s32] false false (o.fn == 0) (o.x == 0) o.d.isNone (o.a.isSrc false) (o.b.isSrc false) o.c.isNone
  | .haddr o =>
    meCheck o [.plain] (o.sc == .lane) (o.fn == 0) true (o.ch == 0) (o.d.isGK 2) o.b.isNone o.c.isNone true
  | .clock o =>
    alCheck o (if o.fn == 0 then [.n32] else [.n64]) false false (decide (o.fn.toNat ≤ 2)) (o.x == 0)
      (if o.fn == 0 then o.d.isDst false else o.d.isGK 2) o.a.isNone o.b.isNone o.c.isNone
  | .bra o | .call o => brCheck o o.d.isNone
  | .brdec o => brCheck o (o.d.isG 1)
  | .spawn o => brCheck o (o.d.isNone || o.d.isG 1)
  | .brx o | .ret o => syCheck o (o.fn == 0) (o.mod == 0) o.d.isNone (o.a.isG 1) o.b.isNone o.c.isNone (o.imm == 0)
  | .callx o => syCheck o (o.fn == 0) (o.mod == 0) o.d.isNone (o.a.isBase (immHandle o.imm == 0)) o.b.isNone o.c.isNone true
  | .join o | .leave o | .waitm o =>
    syCheck o (o.fn == 0) (o.mod == 0) o.d.isNone o.a.isM o.b.isNone o.c.isNone (o.imm == 0)
  | .mset o =>
    syCheck o (decide (o.fn.toNat ≤ 3)) (o.mod == 0) o.d.isM (if o.fn == 3 then o.a.isGK 1 || o.a.isImm else o.a.isNone)
      o.b.isNone o.c.isNone ((o.fn == 3 && o.a.isImm) || o.imm == 0)
  | .exit o | .demote o | .yield o | .fbar o => syBare o
  | .ballot o =>
    alCheck o [.s32] false false (o.fn == 0) (o.x == 0) (o.d.isDst false) (o.a.isSrc false) o.b.isNone o.c.isNone
  | .agree o =>
    alCheck o [.s32] false false (decide (o.fn.toNat ≤ 2)) (o.x == 0) (o.d.isP || o.d.isG 1) (o.a.isSrc false) o.b.isNone
      o.c.isNone
  | .shfl o =>
    alCheck o tysW false false (decide (o.fn.toNat ≤ 3)) (o.x == 0) (o.d.isDst o.ty.wide) (o.a.isSrc o.ty.wide)
      (o.b.isSrc false) o.c.isNone
  | .prdx o => reduceCheck o (o.x == 0)
  | .pscan o => reduceCheck o (o.x.extractLsb' 0 3 == 0)
  | .matchLanes o => intCheck1 o tysW false
  | .binit o =>
    syCheck o (o.fn == 0) (o.mod.extractLsb' 10 1 == 0 && pointOk o) (o.d.isG 1) (o.a.isGK 1 || o.a.isImm) o.b.isNone o.c.isNone
      (if o.a.isImm then decide (1 ≤ o.imm.toNat ∧ o.imm.toNat ≤ 1024) else o.imm == 0)
  | .arrive o =>
    syCheck o (o.fn == 0) (o.mod.extractLsb' 6 5 == 0 && pointOk o) (isTok o.d) o.a.isNone o.b.isNone o.c.isNone (o.imm == 0)
  | .bwait o =>
    syCheck o (o.fn == 0) (o.mod.extractLsb' 5 6 == 0 && pointOk o) o.d.isNone (isPhase o.a) o.b.isNone o.c.isNone
      (o.a.isImm || o.imm == 0)
  | .bsync o =>
    syCheck o (o.fn == 0) (o.mod.extractLsb' 5 6 == 0 && pointOk o) (isTok o.d) o.a.isNone o.b.isNone o.c.isNone (o.imm == 0)
  | .btest o =>
    syCheck o (o.fn == 0) (o.mod.extractLsb' 5 6 == 0 && pointOk o) (o.d.isG 1) (isPhase o.a) o.b.isNone o.c.isNone
      (o.a.isImm || o.imm == 0)
  | .hbar o =>
    let s := (o.mod.extractLsb' 2 3).toNat
    syCheck o (o.fn == 0) (decide (2 ≤ s ∧ s ≤ 5) && o.mod.extractLsb' 0 2 == 0 && o.mod.extractLsb' 5 6 == 0)
      o.d.isNone o.a.isNone o.b.isNone o.c.isNone (o.imm == 0)
  | .fadd o | .fsub o | .fmul o => fpCheck o tysF true (o.fn == 0) 2
  | .ffma o => fpCheck o tysF true (o.fn == 0) 3
  | .fmin o | .fmax o => fpCheck o tysF false (decide (o.fn.toNat ≤ 1)) 2
  | .fpred o =>
    alCheck o tysF8 false false (decide (o.fn.toNat ≤ 7)) (combOk o.x o.c) (o.d.isP || o.d.isG 1) (o.a.isSrc false)
      (o.b.isSrc false) true
  | .fclass o =>
    alCheck o tysF8 false false (o.fn == 0) (o.x == 0) (if o.b.isNone then o.d.isGK 1 else o.d.isDst false) (o.a.isSrc false)
      (o.b.isNone || o.b.isSrc false) o.c.isNone
  | .frcp o | .frsq o | .fex2 o | .flg2 o | .ftanh o => fpCheck o tysF false (o.fn == 0) 1
  | .fsqrt o => fpCheck o tysF true (o.fn == 0) 1
  | .v2add o | .v2mul o => fpCheck o [.bf16, .f16] true (o.fn == 0) 2
  | .v2fma o => fpCheck o [.bf16, .f16] true (o.fn == 0) 3
  | .fcvt o =>
    alCheck o tysF8 (o.ty != .mf8) false (o.fn == 0) (decide (4 ≤ o.x.toNat ∧ o.x.toNat ≤ 7)) (o.d.isDst false) (o.a.isSrc false)
      o.b.isNone o.c.isNone
  | .icvt o =>
    match tyOfCode o.x.toNat with
    | none => some .badType
    | some sty =>
      alCheck o (tysI ++ tysF8) ((o.ty.isInt != sty.isInt) && o.ty != .mf8) (o.ty.isInt && sty.isInt) (o.fn == 0)
        (o.ty.isInt || sty.isInt) (o.d.isDst o.ty.wide) (o.a.isSrc sty.wide) o.b.isNone o.c.isNone
  | .scaleq o =>
    alCheck o tysF false false (decide (o.fn.toNat ≤ 1)) (o.x.extractLsb' 0 3 == 0) (o.d.isG 1) (o.a.isSrc false) o.b.isNone
      o.c.isNone
  | .mfpack o =>
    alCheck o tysF false false (o.fn == 0) (o.x.extractLsb' 0 1 == 0 && o.x.extractLsb' 2 1 == 0) (o.d.isG 1) (o.a.isSrc false)
      (o.b.isSrc false) (o.c.isSrc false)
  | .mfunpk o =>
    alCheck o tysF true false (o.fn == 0) (o.x.extractLsb' 0 1 == 0 && (o.ty == .f32 || o.x.extractLsb' 2 1 == 0))
      (o.d.isDst false) (o.a.isSrc false) (o.b.isSrc false) o.c.isNone
  | .fdot4 o =>
    alCheck o [.mf8, .bf16, .f16] true false (o.fn == 0) (o.x == 0) (o.d.isDst false) (o.a.isSrc (o.ty != .mf8))
      (o.b.isSrc (o.ty != .mf8)) (o.c.isSrc false)
  | .idot4 o =>
    alCheck o [.s8, .n8] false true (o.fn == 0) (o.x == 0) (o.d.isDst false) (o.a.isSrc false) (o.b.isSrc false) (o.c.isSrc false)
  | .fstat o =>
    alCheck o [.s32] false false (o.fn == 0) (o.x == 0) (o.d.isNone || o.d.isDst false) (o.a.isGK 1 || o.a.isImm) o.b.isNone
      o.c.isNone
  | .ld o =>
    meCheck o [.plain, .rlx, .acq, .sc] (plainScope o) (o.fn == 0 || (o.fn == 2 && (o.sz == .b || o.sz == .h))) true true
      (o.d.isGK o.sz.regs) o.b.isNone o.c.isNone true
  | .st o =>
    meCheck o [.plain, .rlx, .rel, .sc] (plainScope o) (o.fn == 0) true true o.d.isNone (o.b.isGK o.sz.regs) o.c.isNone true
  | .stl o =>
    meCheck o [.plain, .rlx, .rel] (plainScope o) (o.fn == 0) (o.sz == .b) (o.ch == 0) o.d.isNone (o.b.isG 16) o.c.isNone true
  | .ldq o =>
    meCheck o [.plain, .rlx, .acq, .sc] (plainScope o)
      (o.fn.extractLsb' 2 6 == 0 && (o.fn.extractLsb' 1 1 == 0 || o.sz == .b || o.sz == .h)) true true o.d.isQ o.b.isNone
      (if o.fn.extractLsb' 0 1 == 1 then o.c.isP1 else o.c.isNone) true
  | .qpop o =>
    match szOfCode (o.mod.extractLsb' 8 3).toNat with
    | none => some .badMod
    | some sz =>
      syCheck o (o.fn == 0) (o.mod.extractLsb' 0 8 == 0) (o.d.isGK sz.regs) o.a.isQ o.b.isNone
        o.c.isNone (o.imm == 0)
  | .qstat o => syCheck o (o.fn == 0) (o.mod == 0) (o.d.isG 1) o.a.isQ o.b.isNone o.c.isNone (o.imm == 0)
  | .pref o => meCheck o [.plain] (o.sc == .lane) (o.fn == 0) (o.sz == .b) true o.d.isNone o.b.isNone o.c.isNone true
  | .hres o => meCheck o [.plain] (o.sc == .lane) (o.fn == 0) (o.sz == .b) (o.ch == 0) (o.d.isG 1) o.b.isNone o.c.isNone true
  | .wbr o | .invr o =>
    meCheck o [.plain] (o.sc == .lane) (o.fn == 0) (o.sz == .b) (o.ch == 0) (isTok o.d) (o.b.isGK 1) o.c.isNone true
  | .atom o =>
    meCheck o [.plain, .rlx, .acq, .rel, .ar, .sc] true (decide (o.fn.toNat ≤ 11)) (atomSz o.fn.toNat o.sz)
      (atomUse o.fn.toNat o.ord o.ch) (o.d.isGK o.sz.regs) (o.b.isGK o.sz.regs) o.c.isNone true
  | .acas o =>
    meCheck o [.plain, .rlx, .acq, .rel, .ar, .sc] true (o.fn == 0) (o.sz == .w || o.sz == .d) (o.ch == 0) (o.d.isGK o.sz.regs)
      (o.b.isGK o.sz.regs) (o.c.isGK o.sz.regs) true
  | .red o =>
    meCheck o [.plain, .rlx, .rel] true (decide (o.fn.toNat ≤ 11) && o.fn != 8) (atomSz o.fn.toNat o.sz)
      (atomUse o.fn.toNat o.ord o.ch) o.d.isNone (o.b.isGK o.sz.regs) o.c.isNone true
  | .fence o =>
    meCheck o [.acq, .rel, .ar, .sc] (o.sc != .lane) (o.fn == 0) (o.sz == .b) (o.ch == 0) o.d.isNone o.b.isNone o.c.isNone
      (o.a.isNone && o.hnd == 0 && o.off == 0)
  | .wline o =>
    meCheck o [.plain, .rlx, .acq] true (o.fn == 0) (o.sz == .w || o.sz == .d) (o.ch == 0) (o.d.isG 1) (o.b.isGK o.sz.regs)
      o.c.isNone true
  | .capenter o =>
    meCheck o [.acq] (o.sc != .lane && o.sc != .sys) (o.fn == 0) (o.sz == .b) (o.ch == 0) (o.d.isG 2) (o.b.isGK 2) o.c.isNone true
  | .cstep o =>
    firstBad [(o.fn == 0, .badFn), (o.ord == .plain, .badMod), (o.sc == .lane, .badMod), (o.ch == 0, .badMod), (o.d.isNone, .badD),
      (o.a.isBase false, .badA), (o.b.isG o.sz.regs, .badB), (o.c.isNone, .badC), (o.hnd == 0, .badImm)]
  | .capexit o =>
    syCheck o (o.fn == 0) (o.mod == 0) o.d.isNone (o.a.isG 1 || o.a.isImm) o.b.isNone o.c.isNone (o.a.isImm || o.imm == 0)
  | .capreset o =>
    meCheck o [.plain] (o.sc == .lane) (o.fn == 0) (o.sz == .b) (o.ch == 0) (o.d.isG 1) o.b.isNone o.c.isNone true
  | .cpy o =>
    enCheck o false true true true (isTok o.d) (o.a.isBase (o.hx == 0)) (o.b.isBase (o.hy == 0))
      (o.c.isNone || o.c.isGK 1 || (match o.c with | .sp _ => true | _ => false)) (followOk o.lo) (o.fn == 0)
  | .cpyt o =>
    enCheck o false true true (o.x.extractLsb' 1 4 == 0) (isTok o.d) (o.a.isGK 4) (o.b.isGK 4) (o.c.isGK 4) (followOk o.lo) (o.fn == 0)
  | .gath o =>
    enCheck o false true true (o.x.extractLsb' 3 2 == 0 && (szOfCode (o.x.extractLsb' 0 3).toNat).isSome) (isTok o.d) (o.a.isBase false)
      (o.b.isBase (o.hy == 0)) (o.c.isGK 1) (followOk o.lo) (o.fn == 0)
  | .scat o =>
    enCheck o false true true (o.x.extractLsb' 3 2 == 0 && (szOfCode (o.x.extractLsb' 0 3).toNat).isSome) (isTok o.d) (o.a.isBase false)
      (o.b.isBase (o.hx == 0)) (o.c.isGK 1) (followOk o.lo) (o.fn == 0)
  | .xput o =>
    enCheck o false true true (o.x == 0) (isTok o.d) (o.a.isBase (o.hx == 0)) (o.b.isG 2) (o.c.isGK 1) (o.lo == 0) (o.fn == 0)
  | .xget o =>
    enCheck o false true true (o.x == 0) (isTok o.d) (o.a.isBase (o.hy == 0)) (o.b.isG 2) (o.c.isGK 1) (o.lo == 0) (o.fn == 0)
  | .xred o =>
    let op := (o.x.extractLsb' 3 3).toNat
    let ty := (o.x.extractLsb' 0 3).toNat
    enCheck o false true true (decide (op ≤ 5 ∧ ty ≤ 6) && (decide (op ≤ 2) || ty == 1 || ty == 3)) (isTok o.d)
      (o.a.isBase (o.hx == 0)) (o.b.isG 2) (o.c.isGK 1) (o.lo.extractLsb' 1 7 == 0) (o.fn == 0)
  | .tktest o => syCheck o (o.fn == 0) (o.mod == 0) (o.d.isG 1 || o.d.isP) (o.a.isG 1) o.b.isNone o.c.isNone (o.imm == 0)
  | .wload o =>
    enCheck o true true false (o.x.extractLsb' 0 2 == 0) (isTok o.d) (o.a.isGK (if o.hx == 0 then 2 else 1)) o.b.isNone
      o.c.isNone (o.hy.extractLsb' 6 6 == 0 && o.lo.extractLsb' 6 2 == 0) (o.fn == 0)
  | .mma o =>
    enCheck o true true false (o.x.extractLsb' 5 1 == 0) (isTok o.d) (o.a.isGK 2) (o.b.isNone || o.b.isGK 1) o.c.isNone
      (o.hy.extractLsb' 6 6 == 0 && (o.b.isNone || o.lo == 0)) (o.fn == 0)
  | .mmas o =>
    enCheck o true true false (o.x.extractLsb' 5 1 == 0) o.d.isNone (o.a.isGK 2) (o.b.isNone || o.b.isGK 1) o.c.isNone
      (o.hy.extractLsb' 6 6 == 0 && (o.b.isNone || o.lo == 0)) (o.fn.extractLsb' 3 5 == 0)
  | .mmasClr o =>
    enCheck o true false false (o.x == 0) o.d.isNone o.a.isNone o.b.isNone o.c.isNone (o.hx == 0 && o.hy == 0 && o.lo == 0)
      (o.fn.extractLsb' 3 5 == 1)
  | .accz o =>
    enCheck o true false false (o.x.extractLsb' 3 3 == 0) (isTok o.d) o.a.isNone o.b.isNone o.c.isNone
      (o.hx == 0 && o.hy == 0 && o.lo == 0) (o.fn == 0)
  | .accld o =>
    enCheck o true false false (o.x.extractLsb' 4 2 == 0) (o.d.isG (if o.x.extractLsb' 3 1 == 1 then 4 else 1)) (o.a.isGK 1) (o.b.isGK 1)
      o.c.isNone (o.hx == 0 && o.hy == 0 && o.lo == 0) (o.fn == 0)
  | .accst o =>
    enCheck o true false true (o.x.extractLsb' 5 1 == 0) (isTok o.d) (o.a.isGK 2) o.b.isNone o.c.isNone (o.hx == 0 && o.lo == 0)
      (o.fn == 0)
  | .accstat o =>
    enCheck o true false false (o.x.extractLsb' 3 3 == 0) (o.d.isG 1) o.a.isNone o.b.isNone o.c.isNone
      (o.hx == 0 && o.hy == 0 && o.lo == 0) (o.fn == 0)
  | .publish o | .retract o =>
    syCheck o (o.fn == 0) (codeScope o) (o.d.isG 1) (o.a.isNone || o.a.isGK 1) o.b.isNone o.c.isNone (codeImm o)
  | .adopt o => syCheck o (o.fn == 0) (o.mod == 0) (o.d.isG 1) (o.a.isNone || o.a.isGK 1) o.b.isNone o.c.isNone (codeImm o)
  | .adoptSpill o =>
    syCheck o (o.fn == 1) (o.mod.extractLsb' 10 1 == 0) (o.d.isG 1) (o.a.isBase false) o.b.isNone o.c.isNone (immHandle o.imm == 2)
  | .rgnq o => syCheck o (o.fn == 0) (o.mod == 0) (o.d.isG 2) (o.a.isNone || o.a.isGK 1) o.b.isNone o.c.isNone (codeImm o)
  | .launch o =>
    syCheck o (decide (o.fn.toNat ≤ 3)) (o.mod == 0) (isTok o.d) (o.a.isBase (immHandle o.imm == 0)) (o.b.isNone || o.b.isG 4)
      o.c.isNone true
  | .handle o =>
    syCheck o (o.fn == 0) (o.mod == 0) o.d.isNone o.a.isNone (o.b.isGK 1) o.c.isNone
      (decide ((o.imm.extractLsb' 16 3).toNat < 5 ∧ (o.imm.extractLsb' 0 3).toNat < 5))
  | .unhandle o =>
    syCheck o (o.fn == 0) (o.mod == 0) o.d.isNone (o.a.isNone || o.a.isGK 1 || o.a.isImm) o.b.isNone o.c.isNone
      (o.a.isImm || o.imm == 0)
  | .perform o =>
    syCheck o (decide (o.fn.toNat ≤ 2)) (o.mod.extractLsb' 7 4 == 0 && (o.fn == 1 || o.mod == 0)) (isTok o.d)
      (o.a.isNone || o.a.isG 2) (o.b.isNone || o.b.isGK 1) o.c.isNone
      (o.imm.extractLsb' 12 20 == 0 && (if o.b.isNone then decide (0x100 ≤ o.imm.toNat) else o.imm == 0))
  | .resume o =>
    syCheck o (decide (o.fn.toNat ≤ 1)) (o.mod == 0) (if o.fn == 1 then o.d.isG 1 else o.d.isNone) (o.a.isG 2)
      (o.b.isNone || o.b.isGK 1 || o.b.isImm) o.c.isNone (o.b.isImm || o.imm == 0)
  | .unwind o =>
    syCheck o (o.fn == 0) (o.mod == 0) o.d.isNone (o.a.isG 2) (o.b.isNone || o.b.isGK 1 || o.b.isImm) o.c.isNone
      (o.b.isImm || o.imm == 0)
  | .effq o => syCheck o (o.fn == 0) (o.mod == 0) (o.d.isG 1) (o.a.isG 2) o.b.isNone o.c.isNone (o.imm == 0)
  | .swriteElogclr o =>
    syCheck o (o.fn == 0) (o.mod == 0) (o.d.isG 1) o.a.isNone (o.b.isGK 1 || o.b.isImm) o.c.isNone (o.b.isImm || o.imm == 0)
  | .swriteLogmark o =>
    syCheck o (o.fn == 0) (o.mod == 1) (o.d.isG 1) o.a.isNone (o.b.isGK 1 || o.b.isImm) o.c.isNone (o.b.isImm || o.imm == 0)
  | .swrite o =>
    syCheck o (o.fn == 0) (decide (2 ≤ o.mod.toNat)) (o.d.isG 1) o.a.isNone (o.b.isGK 1 || o.b.isImm) o.c.isNone
      (o.b.isImm || o.imm == 0)
  | .errqPop o => syCheck o (o.fn == 0) (o.mod == 0) (o.d.isG 2) o.a.isNone o.b.isNone o.c.isNone (o.imm == 0)
  | .errqPeek o => syCheck o (o.fn == 1) (o.mod == 0) (o.d.isG 2) o.a.isNone o.b.isNone o.c.isNone (o.imm == 0)
  | .errqCnt o => syCheck o (o.fn == 2) (o.mod == 0) (o.d.isG 1) o.a.isNone o.b.isNone o.c.isNone (o.imm == 0)
  | .bkpt o => syCheck o (o.fn == 0) (o.mod == 0) o.d.isNone o.a.isNone o.b.isNone o.c.isNone (o.imm.extractLsb' 16 16 == 0)
  | .isaMissing w => if w.extractLsb' 92 4 == 0xE then none else some .unassignedOp
  | .queueEntryArrival .. | .watchSlotTrigger .. | .copySegment .. | .fixupService .. | .networkSegment .. | .wloadCommand ..
  | .mmaCommand .. | .accstCommand .. | .launchAccept .. | .lineFetch .. | .coreIssue .. | .resultArrival ..
  | .waitConditionMet .. | .effectDelivery .. | .missingEmulation .. | .missingSignalAnswer .. | .stuckDeadlock ..
  | .hbarDeadlock .. | .bindTeam .. | .dispatch .. | .dispatchReady .. | .teamRetire .. | .homeAccess .. | .l1Eviction ..
  | .tableWalk .. | .makeResident .. | .pageMigration .. | .sliceEnd .. | .halt .. | .haltComplete .. | .haltWatchdog ..
  | .staleReplyDrop .. | .teamResume .. | .haltPointFire .. | .makeCold .. | .contextRestore .. | .attest .. | .ctxCreate ..
  | .ctxDestroy .. | .map .. | .unmap .. | .load .. | .start .. | .wait .. | .query .. | .haltatArm .. | .haltatRelease ..
  | .haltatDisarm .. | .handleEntryWrite .. | .rmaAccess .. | .storageTransfer .. | .boot .. | .monitorRead ..
  | .marginReplan .. | .uncorrectableError .. | .acczCommand .. | .pageEviction .. | .icacheEviction ..
  | .partitionBoundaryMove .. => none

/-- A step is well-formed when every check of its word holds. -/
def wf (i : Instr) : Bool := i.check == none

end Instr

end Sys2Proof
end

