-- ==== Sys2Proof/Machine/Bits.lean ====
section
/-!
DEFINITION. Bit fields, sign extension, byte order and integer narrowing (R3, R84): the helpers that every operand form and
every layout of the device uses.
-/
namespace Sys2Proof.Machine

/-- Bits [hi:lo] of x as an unsigned number (R84). -/
def bits (x hi lo : Nat) : Nat := x / 2 ^ lo % 2 ^ (hi + 1 - lo)

/-- Bit i of x. -/
def bit (x i : Nat) : Bool := x.testBit i

/-- A truth value as a number. -/
def b2n (b : Bool) : Nat := if b then 1 else 0

/-- The low w bits of x read as a two's-complement number (R84). -/
def sext (x w : Nat) : Int :=
  let y := x % 2 ^ w
  if w = 0 then 0 else if y < 2 ^ (w - 1) then (y : Int) else (y : Int) - (2 ^ w : Nat)

/-- An exact integer as an unsigned number of w bits. -/
def unsign (x : Int) (w : Nat) : Nat := (x % (2 ^ w : Nat)).toNat

/-- The little-endian value of a list of bytes (R3). -/
def leNat : List Byte → Nat
  | [] => 0
  | b :: bs => b.toNat + 256 * leNat bs

/-- The n low bytes of a value, least significant first (R3). -/
def leBytes : Nat → Nat → List Byte
  | 0, _ => []
  | n + 1, v => BitVec.ofNat 8 v :: leBytes n (v / 256)

/-- The n bytes of a list from an offset; a byte past its end is 0. -/
def byteSlice (bs : List Byte) (off n : Nat) : List Byte :=
  let t := (bs.drop off).take n
  t ++ List.replicate (n - t.length) 0

/-- The little-endian number in n bytes at an offset. -/
def fieldAt (bs : List Byte) (off n : Nat) : Nat := leNat (byteSlice bs off n)

/-- Replace bytes of a list from an offset; bytes past its end are dropped. -/
def putBytes (bs : List Byte) (off : Nat) (new : List Byte) : List Byte :=
  bs.take off ++ (new.take (bs.length - off)) ++ bs.drop (off + new.length)

/-- Split a list into pieces of n. -/
def chunks {α : Type} (n : Nat) : Nat → List α → List (List α)
  | 0, _ => []
  | fuel + 1, xs => if xs.isEmpty then [] else xs.take n :: chunks n fuel (xs.drop n)

/-- The words of a list of bytes (R3). -/
def wordsOf (bs : List Byte) : List Word := (chunks 4 bs.length bs).map (fun c => BitVec.ofNat 32 (leNat c))

/-- The bytes of a list of words (R3). -/
def bytesOf (ws : List Word) : List Byte := ws.flatMap (fun w => leBytes 4 w.toNat)

/-- The number held by a list of words, the first the least significant (R71, R270). -/
def wordsNat : List Word → Nat
  | [] => 0
  | w :: ws => w.toNat + 2 ^ 32 * wordsNat ws

/-- The n low words of a number. -/
def natWords : Nat → Nat → List Word
  | 0, _ => []
  | n + 1, v => BitVec.ofNat 32 v :: natWords n (v / 2 ^ 32)

/-- How many of the low n bits of x are set. -/
def popcount : Nat → Nat → Nat
  | 0, _ => 0
  | n + 1, x => x % 2 + popcount n (x / 2)

/-- Even parity of the low n bits: 1 when their number of ones is odd (R57). -/
def parity (n x : Nat) : Nat := popcount n x % 2

/-- The low n bits of x in reverse order. -/
def reverseBits : Nat → Nat → Nat
  | 0, _ => 0
  | n + 1, x => (x % 2) * 2 ^ n + reverseBits n (x / 2)

/-- Zero bits below the lowest set bit of the low n bits; n when none is set. -/
def trailingZeros : Nat → Nat → Nat
  | 0, _ => 0
  | n + 1, x => if x % 2 = 1 then 0 else 1 + trailingZeros n (x / 2)

/-- Zero bits above the highest set bit of a w-bit number (R167). -/
def leadingZeros (w x : Nat) : Nat := if x = 0 then w else w - 1 - Nat.log2 x

/-- The least n such that n · b ≥ a. -/
def ceilDiv (a b : Nat) : Nat := (a + b - 1) / b

/-- The mask whose bits are the listed ones. -/
def maskOf (ls : List Nat) : Word := ls.foldl (fun a l => a ||| BitVec.ofNat 32 (2 ^ l)) 0

/-- The listed bits of a mask, ascending. -/
def lanesOf (m : Word) : List Nat := (List.range 32).filter (fun i => m.toNat.testBit i)

/-- The value of an operand of an integer type (R71): the low bits, sign- or zero-extended. -/
def tyVal (t : Ty) (x : Nat) : Int := if t.signed then sext x t.width else ((x % 2 ^ t.width : Nat) : Int)

/-- wrap(v, ty) of R84. -/
def wrapTy (t : Ty) (v : Int) : Int := tyVal t (unsign v t.width)

/-- The least value of an integer type. -/
def tyMin (t : Ty) : Int := if t.signed then -(2 ^ (t.width - 1) : Nat) else 0
/-- The greatest value of an integer type. -/
def tyMax (t : Ty) : Int := if t.signed then ((2 ^ (t.width - 1) : Nat) : Int) - 1 else ((2 ^ t.width : Nat) : Int) - 1
/-- sat(v, ty) of R84. -/
def satTy (t : Ty) (v : Int) : Int := if v < tyMin t then tyMin t else if tyMax t < v then tyMax t else v

/-- An integer result narrowed to its type, wrapped or saturated, then extended into the destination (R71). -/
def narrow (t : Ty) (sat : Bool) (v : Int) : Nat :=
  unsign (if sat then satTy t v else wrapTy t v) (if t.wide then 64 else 32)

/-- next(pc) of R84. -/
def nextPc (pc : Word) : Word :=
  if pc.toNat % 64 < 48 then pc + 12 else (pc &&& ~~~63#32) + 64

/-- The slot address of a line offset and a slot (R75, R384). -/
def slotTarget (pc : Word) (line : Int) (slot : Nat) : Word :=
  BitVec.ofNat 32 (((((pc.toNat / 64 : Nat) : Int) + line) % (2 ^ 26 : Nat)).toNat * 64 + 12 * slot)

/-- Whether a code offset is a slot address (R56). -/
def isSlot (pc : Word) : Bool := pc.toNat % 64 % 12 == 0 && decide (pc.toNat % 64 < 60)

/-- The line of a code offset. -/
def lineOf (pc : Word) : Nat := pc.toNat / 64 * 64
/-- The slot number of a code offset (R56). -/
def slotOf (pc : Word) : Nat := pc.toNat % 64 / 12

end Sys2Proof.Machine
end

