-- ==== Sys2Proof/Machine/Numbers.lean ====
section
/-!
DEFINITION. The floating-point formats, MF8, the S9 scales and their rounding (R208-R228): every value is exact until one
rounding narrows it. Flag words are those of R212: NV 16, DZ 8, OF 4, UF 2, NX 1.
-/
namespace Sys2Proof.Machine

/-- A floating-point value: a NaN, an infinity, or (-1)^neg · m · 2^e. -/
inductive FVal where
  | nan (signalling : Bool)
  | inf (neg : Bool)
  | fin (neg : Bool) (m : Nat) (e : Int)
  deriving DecidableEq, Repr, Inhabited

/-- An IEEE format (R208): exponent bits, fraction bits. -/
structure Fmt where
  eb : Nat
  fb : Nat
  deriving DecidableEq, Repr, Inhabited

def fmtF32 : Fmt := { eb := 8, fb := 23 }
def fmtBF16 : Fmt := { eb := 8, fb := 7 }
def fmtF16 : Fmt := { eb := 5, fb := 10 }

/-- The IEEE format of a type. -/
def fmtOf : Ty → Fmt
  | .bf16 => fmtBF16
  | .f16 => fmtF16
  | _ => fmtF32

namespace Fmt
/-- The exponent bias (R208). -/
def bias (f : Fmt) : Nat := 2 ^ (f.eb - 1) - 1
/-- The exponent of the last place of a subnormal. -/
def eSub (f : Fmt) : Int := 1 - (f.bias : Int) - (f.fb : Int)
/-- The pattern of +∞. -/
def infBits (f : Fmt) : Nat := (2 ^ f.eb - 1) * 2 ^ f.fb
/-- The sign bit. -/
def signBit (f : Fmt) : Nat := 2 ^ (f.eb + f.fb)
/-- The canonical NaN (R208). -/
def nanBits (f : Fmt) : Nat := f.infBits + 2 ^ (f.fb - 1)
/-- The value of a bit pattern (R208). -/
def decode (f : Fmt) (x : Nat) : FVal :=
  let neg := x.testBit (f.eb + f.fb)
  let frac := x % 2 ^ f.fb
  let ex := x / 2 ^ f.fb % 2 ^ f.eb
  if ex = 2 ^ f.eb - 1 then if frac = 0 then .inf neg else .nan (!frac.testBit (f.fb - 1))
  else if ex = 0 then .fin neg frac f.eSub
  else .fin neg (2 ^ f.fb + frac) (f.eSub + (ex : Int) - 1)
/-- The pattern of a signed zero. -/
def zeroBits (f : Fmt) (neg : Bool) : Nat := if neg then f.signBit else 0
/-- The pattern of an infinity. -/
def infOf (f : Fmt) (neg : Bool) : Nat := f.infBits + f.zeroBits neg
end Fmt

/-- Whether a magnitude steps up to the next representable one: the discarded part is r of 2^d, and `more` says that still more
was discarded below it (R211, step 2). -/
def roundUp (rnd : Rm) (neg odd : Bool) (r d : Nat) (more : Bool) : Bool :=
  match rnd with
  | .rn => decide (2 ^ d < 2 * r) || (decide (2 * r = 2 ^ d) && decide (0 < d) && (more || odd))
  | .rz => false
  | .rm => neg && (decide (0 < r) || more)
  | .rp => !neg && (decide (0 < r) || more)

/-- The magnitude m · 2^e narrowed to units of 2^q, and whether something was discarded. -/
def toUnits (rnd : Rm) (neg : Bool) (m : Nat) (e q : Int) (more : Bool) : Nat × Bool :=
  if q ≤ e then (m * 2 ^ (e - q).toNat, more)
  else
    let d := (q - e).toNat
    let u := m / 2 ^ d
    let r := m % 2 ^ d
    (if roundUp rnd neg (u % 2 == 1) r d more then u + 1 else u, decide (0 < r) || more)

/-- round of R211 on the exact value (-1)^neg · m · 2^e, m not zero; with `more` the value is a little larger in magnitude and
irrational. The answer is the pattern and the flags. -/
def roundFin (f : Fmt) (rnd : Rm) (neg : Bool) (m : Nat) (e : Int) (more : Bool) : Nat × Nat :=
  let qn := e + (Nat.log2 m : Int) - (f.fb : Int)
  let q := if qn < f.eSub then f.eSub else qn
  let (u, inexact) := toUnits rnd neg m e q more
  let mag := ((q - f.eSub).toNat) * 2 ^ f.fb + u
  let sgn := f.zeroBits neg
  if f.infBits ≤ mag then
    let toInf := match rnd with
      | .rn => true
      | .rz => false
      | .rm => neg
      | .rp => !neg
    (sgn + (if toInf then f.infBits else f.infBits - 1), 5)
  else
    let tiny := decide (qn < f.eSub) &&
      decide ((toUnits rnd neg m e qn more).1 < 2 ^ (f.fb + (f.eSub - qn).toNat))
    (sgn + mag, (if inexact then 1 else 0) + (if tiny && inexact then 2 else 0))

/-- round(x, fmt, rm) of R84 on any value: a NaN gives the canonical NaN. -/
def roundVal (f : Fmt) (rnd : Rm) : FVal → Nat × Nat
  | .nan _ => (f.nanBits, 0)
  | .inf neg => (f.infOf neg, 0)
  | .fin neg 0 _ => (f.zeroBits neg, 0)
  | .fin neg m e => roundFin f rnd neg m e false

namespace FVal

def isNan : FVal → Bool
  | .nan _ => true
  | _ => false
def isSignalling : FVal → Bool
  | .nan s => s
  | _ => false
def isInf : FVal → Bool
  | .inf _ => true
  | _ => false
def isZero : FVal → Bool
  | .fin _ 0 _ => true
  | _ => false
def neg : FVal → Bool
  | .nan _ => false
  | .inf n => n
  | .fin n _ _ => n
def negate : FVal → FVal
  | .nan s => .nan s
  | .inf n => .inf (!n)
  | .fin n m e => .fin (!n) m e
def abs : FVal → FVal
  | .nan s => .nan s
  | .inf _ => .inf false
  | .fin _ m e => .fin false m e
/-- A value times 2^k. -/
def scale (k : Int) : FVal → FVal
  | .fin n m e => .fin n m (e + k)
  | v => v
/-- The exact integer m with its sign, in units of 2^q, q no greater than the exponent. -/
def units (q : Int) : FVal → Int
  | .fin n m e => let u : Int := (m * 2 ^ (e - q).toNat : Nat); if n then -u else u
  | _ => 0
/-- The exponent of the last place. -/
def expo : FVal → Int
  | .fin _ _ e => e
  | _ => 0

/-- The exact product; none where it is undefined: an infinity times a zero (R231). NaN operands are the caller's. -/
def mul (a b : FVal) : Option FVal :=
  let n := a.neg != b.neg
  match a, b with
  | .fin _ m e, .fin _ m' e' => some (.fin n (m * m') (e + e'))
  | .inf _, x => if x.isZero then none else some (.inf n)
  | x, .inf _ => if x.isZero then none else some (.inf n)
  | _, _ => some (.nan false)

/-- The exact value of u units of 2^q; an exact zero is `zneg` (R211, step 1). -/
def ofUnits (u q : Int) (zneg : Bool) : FVal := if u = 0 then .fin zneg 0 0 else .fin (decide (u < 0)) u.natAbs q

/-- The exact sum of two operands; none where infinities of opposite sign meet (R231). An exact zero sum of operands of opposite
sign is +0, except under .rm (R211, step 1). -/
def add (rnd : Rm) (a b : FVal) : Option FVal :=
  match a, b with
  | .inf n, .inf n' => if n = n' then some (.inf n) else none
  | .inf n, _ => some (.inf n)
  | _, .inf n => some (.inf n)
  | .fin n _ e, .fin n' _ e' =>
    let q := min e e'
    some (ofUnits (a.units q + b.units q) q (if n = n' then n else rnd == .rm))
  | _, _ => some (.nan false)

/-- The exact sum of several terms; none where infinities of opposite sign meet. An exact zero sum is -0 when every term is -0,
and otherwise +0, except under .rm (R211, step 1). -/
def sum (rnd : Rm) (xs : List FVal) : Option FVal :=
  if xs.any isInf then
    if (xs.filter isInf).all neg then some (.inf true)
    else if (xs.filter isInf).all (fun x => !x.neg) then some (.inf false)
    else none
  else
    let q := xs.foldl (fun q x => min q x.expo) 0
    some (ofUnits ((xs.map (units q)).sum) q (if xs.all (fun x => x.isZero && x.neg) then true else rnd == .rm))

/-- Whether a < b for numbers; -0 and +0 are equal. -/
def lt (a b : FVal) : Bool :=
  match a, b with
  | .inf n, .inf n' => n && !n'
  | .inf n, _ => n
  | _, .inf n => !n
  | .fin _ _ e, .fin _ _ e' => let q := min e e'; decide (a.units q < b.units q)
  | _, _ => false

end FVal

/-- The flag of a signalling NaN among operands (R210). -/
def nvOf (xs : List FVal) : Nat := if xs.any FVal.isSignalling then 16 else 0

/-- The end of a body of R231: one rounding of an exact result, NaN and undefined cases apart. -/
def finish (f : Fmt) (rnd : Rm) (xs : List FVal) (x : Option FVal) : Nat × Nat :=
  match x with
  | none => (f.nanBits, 16)
  | some v =>
    if xs.any FVal.isNan then (f.nanBits, nvOf xs)
    else let (r, fl) := roundVal f rnd v; (r, fl ||| nvOf xs)

/-- FADD (R231). -/
def fAdd (f : Fmt) (rnd : Rm) (a b : FVal) : Nat × Nat :=
  finish f rnd [a, b] (if a.isNan || b.isNan then some (.nan false) else a.add rnd b)
/-- FMUL (R231). -/
def fMul (f : Fmt) (rnd : Rm) (a b : FVal) : Nat × Nat :=
  finish f rnd [a, b] (if a.isNan || b.isNan then some (.nan false) else a.mul b)
/-- FFMA (R231): an infinity times a zero is undefined even when c is a quiet NaN. -/
def fFma (f : Fmt) (rnd : Rm) (a b c : FVal) : Nat × Nat :=
  if a.isNan || b.isNan then (f.nanBits, nvOf [a, b, c])
  else
    match a.mul b with
    | none => (f.nanBits, 16)
    | some p => if c.isNan then (f.nanBits, nvOf [c]) else finish f rnd [a, b, c] (p.add rnd c)

/-- FMIN and FMAX (R232); `keepNan` is FN 1. The operands' patterns stand beside their values. -/
def fMinMax (f : Fmt) (isMax keepNan : Bool) (x y : Nat) : Nat × Nat :=
  let a := f.decode x
  let b := f.decode y
  let fl := nvOf [a, b]
  if a.isNan && b.isNan then (f.nanBits, fl)
  else if a.isNan then (if keepNan then f.nanBits else y, fl)
  else if b.isNan then (if keepNan then f.nanBits else x, fl)
  else if a.isZero && b.isZero then
    (if isMax then (if a.neg && b.neg then f.signBit else 0) else (if a.neg || b.neg then f.signBit else 0), fl)
  else if a.lt b then (if isMax then y else x, fl)
  else (if isMax then x else y, fl)

/-! ### MF8 (R215-R217) -/

/-- The bodies of MF8 in ascending order of magnitude (R216). -/
def mf8Bodies : List Nat :=
  [1, 2, 4, 5] ++ List.range' 8 4 ++ List.range' 0x10 8 ++ List.range' 0x20 16 ++ List.range' 0x40 64 ++ List.range' 0x30 16 ++
    List.range' 0x18 8 ++ List.range' 0x0C 4 ++ [6, 7, 3]

/-- The magnitude of a non-zero body in units of 2^-11 (R215). -/
def mf8Mag (b : Nat) : Nat :=
  let c := leadingZeros 7 b
  let n := 6 - c
  let rest := b - 2 ^ n
  let f : Nat := if c = 0 then 6 else if c = 1 then 4 else if c = 2 then 2 else 0
  let e := rest / 2 ^ f
  let fr := rest % 2 ^ f
  let ex : Int :=
    (match c with
    | 0 => 0
    | 1 => if e = 0 then -1 else 1
    | 2 => if e = 0 then -3 else if e = 1 then -2 else if e = 2 then 2 else 3
    | 3 => if e < 4 then (e : Int) - 7 else (e : Int)
    | 4 => if e = 0 then -9 else if e = 1 then -8 else if e = 2 then 8 else 9
    | 5 => if e = 0 then -10 else 10
    | _ => -11 : Int)
  let k : Nat := (11 + ex).toNat
  (2 ^ f + fr) * 2 ^ k / 2 ^ f

/-- Whether a body's fraction is even (R215). -/
def mf8Even (b : Nat) : Bool := decide (3 ≤ leadingZeros 7 b) || b % 2 == 0

/-- The value of an MF8 byte (R215); NaR is a quiet NaN (R214, R233). -/
def mf8Decode (x : Nat) : FVal :=
  let b := x % 128
  let s := x.testBit 7
  if b = 0 then if s then .nan false else .fin false 0 0
  else .fin s (mf8Mag b) (-11)

/-- The greatest body whose magnitude, in units of 2^-k-11, is at most a, and the least whose magnitude is at least a. -/
def mf8Around (a k : Nat) : Nat × Nat :=
  (((mf8Bodies.filter (fun b => mf8Mag b * 2 ^ k ≤ a)).getLast?).getD 0,
   ((mf8Bodies.find? (fun b => a ≤ mf8Mag b * 2 ^ k))).getD 3)

/-- mf8_round of R217: the byte and the flags. -/
def mf8Round : FVal → Nat × Nat
  | .nan s => (0x80, if s then 16 else 0)
  | .inf n => ((if n then 0x83 else 0x03), 5)
  | .fin n m e =>
    if m = 0 then (0, 0)
    else
      let k := (-(e + 11)).toNat
      let a := m * 2 ^ (e + 11).toNat
      let sgn := if n then 128 else 0
      if 1024 * 2 ^ (11 + k) < a then (sgn + 3, 5)
      else
        let (lo, hi) := mf8Around a k
        let lm := if lo = 0 then 0 else mf8Mag lo * 2 ^ k
        let hm := mf8Mag hi * 2 ^ k
        let v :=
          if a - lm < hm - a then lo
          else if hm - a < a - lm then hi
          else if lo = 0 then 0
          else if mf8Even lo && !mf8Even hi then lo
          else hi
        let vm := if v = 0 then 0 else mf8Mag v * 2 ^ k
        (if v = 0 then 0 else sgn + v, (if vm = a then 0 else 1) + (if a < 2 ^ k then 2 else 0))

/-- A value of any floating type (R71, R214). -/
def fDecode (t : Ty) (x : Nat) : FVal :=
  match t with
  | .mf8 => mf8Decode (x % 256)
  | t => (fmtOf t).decode (x % 2 ^ t.width)

/-- Rounding into any floating type (R84, R214, R217). -/
def fRound (t : Ty) (rnd : Rm) (v : FVal) : Nat × Nat :=
  match t with
  | .mf8 => mf8Round v
  | t => roundVal (fmtOf t) rnd v

/-- nan(fmt) of R84. -/
def nanOf (t : Ty) : Nat :=
  match t with
  | .mf8 => 0x80
  | t => (fmtOf t).nanBits

/-! ### Integers (R213) -/

/-- An exact integer as a value. -/
def FVal.ofInt (v : Int) : FVal := .fin (decide (v < 0)) v.natAbs 0

/-- Float to integer (R213): the exact integer in the target's range, and the flags. -/
def toInt (t : Ty) (rnd : Rm) (v : FVal) : Int × Nat :=
  match v with
  | .nan _ => (0, 16)
  | .inf n => (if n then tyMin t else tyMax t, 16)
  | .fin n m e =>
    let (u, inexact) := toUnits rnd n m e 0 false
    let r : Int := if n then -(u : Int) else u
    if r < tyMin t then (tyMin t, 16)
    else if tyMax t < r then (tyMax t, 16)
    else (r, if inexact then 1 else 0)

/-! ### Scales (R218-R221) -/

/-- A value under an S9 scale (R218): NaN under scale 511, and 0 stays 0. -/
def underScale (x : Nat) (v : FVal) : FVal :=
  if x = 511 then .nan false
  else
    match v with
    | .fin _ 0 _ => .fin false 0 0
    | v => v.scale ((x : Int) - 256)

/-- The S9 code of a block from its values (R221). -/
def scaleCode (vs : List FVal) : Nat :=
  if vs.any FVal.isNan then 511
  else if vs.any FVal.isInf then 510
  else
    let logs := vs.filterMap (fun v =>
      match v with
      | .fin _ 0 _ => none
      | .fin _ m e => some (e + (Nat.log2 m : Int))
      | _ => none)
    match logs with
    | [] => 0
    | l :: ls =>
      let x := 246 + ls.foldl max l
      if x < 0 then 0 else if 510 < x then 510 else x.toNat

/-! ### Transcendentals (R226-R228) -/

/-- The integer square root by n rounds of one bit each. -/
def isqrtGo (x : Nat) : Nat → Nat → Nat
  | 0, r => r
  | n + 1, r => let r' := r + 2 ^ n; isqrtGo x n (if r' * r' ≤ x then r' else r)

/-- The greatest r with r · r ≤ x. -/
def isqrt (x : Nat) : Nat := isqrtGo x (Nat.log2 x / 2 + 1) 0

/-- The bits of the fixed-point numbers below. (DEDUCED, log 17.) -/
def fixP : Nat := 256

/-- ln 2 in units of 2^-256, from the series of 1/(k·2^k). -/
def ln2Go : Nat → Nat
  | 0 => 0
  | k + 1 => ln2Go k + 2 ^ fixP / ((k + 1) * 2 ^ (k + 1))

/-- e^t by its series, t in units of 2^-256. -/
def expGo (t : Nat) : Nat → Nat → Nat → Nat
  | 0, _, _ => 0
  | n + 1, k, term => term + expGo t n (k + 1) (term * t / 2 ^ fixP / k)

/-- e^t for 0 ≤ t ≤ 1, in units of 2^-256. -/
def expFix (t : Nat) : Nat := expGo t 80 1 (2 ^ fixP)

/-- The series of atanh. -/
def atanhGo (sq : Nat) : Nat → Nat → Nat → Nat
  | 0, _, _ => 0
  | n + 1, k, p => p / k + atanhGo sq n (k + 2) (p * sq / 2 ^ fixP)

/-- ln(a/b) for b ≤ a ≤ 2b, in units of 2^-256. -/
def lnFix (a b : Nat) : Nat :=
  let r := (a - b) * 2 ^ fixP / (a + b)
  2 * atanhGo (r * r / 2 ^ fixP) 90 1 r

/-- Squared n times, in units of 2^-256. -/
def squareGo : Nat → Nat → Nat
  | 0, x => x
  | n + 1, x => squareGo n (x * x / 2 ^ fixP)

/-- 1/x (R226, R227). -/
def frcp (rnd : Rm) : FVal → Nat × Nat
  | .nan s => (fmtF32.nanBits, if s then 16 else 0)
  | .inf n => (fmtF32.zeroBits n, 0)
  | .fin n 0 _ => (fmtF32.infOf n, 8)
  | .fin n m e => roundFin fmtF32 rnd n (2 ^ 128 / m) (-e - 128) (2 ^ 128 % m != 0)

/-- √x (R226, R227). -/
def fsqrt (rnd : Rm) : FVal → Nat × Nat
  | .nan s => (fmtF32.nanBits, if s then 16 else 0)
  | .inf n => if n then (fmtF32.nanBits, 16) else (fmtF32.infBits, 0)
  | .fin n 0 _ => (fmtF32.zeroBits n, 0)
  | .fin n m e =>
    if n then (fmtF32.nanBits, 16)
    else
      let (m, e) := if e % 2 = 0 then (m, e) else (2 * m, e - 1)
      let x := m * 2 ^ 128
      let r := isqrt x
      roundFin fmtF32 rnd false r (e / 2 - 64) (r * r != x)

/-- 1/√x (R226, R227). -/
def frsq : FVal → Nat × Nat
  | .nan s => (fmtF32.nanBits, if s then 16 else 0)
  | .inf n => if n then (fmtF32.nanBits, 16) else (0, 0)
  | .fin n 0 _ => (fmtF32.infOf n, 8)
  | .fin n m e =>
    if n then (fmtF32.nanBits, 16)
    else
      let (m, e) := if e % 2 = 0 then (m, e) else (2 * m, e - 1)
      let r := isqrt (2 ^ 192 / m)
      roundFin fmtF32 .rn false r (-(e / 2) - 96) (r * r * m != 2 ^ 192)

/-- 2^x (R226, R227). -/
def fex2 : FVal → Nat × Nat
  | .nan s => (fmtF32.nanBits, if s then 16 else 0)
  | .inf n => if n then (0, 0) else (fmtF32.infBits, 0)
  | .fin n m e =>
    if m = 0 then (0x3F800000, 0)
    else
      let big := decide (8 ≤ e + (Nat.log2 m : Int))
      if big then if n then roundFin fmtF32 .rn false 1 (-400) true else roundFin fmtF32 .rn false 1 400 true
      else
        let q : Int := min e 0
        let u := FVal.units q (.fin n m e)
        let d : Nat := 2 ^ (-q).toNat
        let ip := u.fdiv (d : Int)
        let fr := (u - ip * d).toNat
        if fr = 0 then roundFin fmtF32 .rn false 1 ip false
        else roundFin fmtF32 .rn false (expFix (fr * ln2Go fixP / d)) (ip - fixP) true

/-- log2 x (R226, R227). -/
def flg2 : FVal → Nat × Nat
  | .nan s => (fmtF32.nanBits, if s then 16 else 0)
  | .inf n => if n then (fmtF32.nanBits, 16) else (fmtF32.infBits, 0)
  | .fin _ 0 _ => (fmtF32.infOf true, 8)
  | .fin n m e =>
    if n then (fmtF32.nanBits, 16)
    else
      let l := Nat.log2 m
      let ip := e + (l : Int)
      if m = 2 ^ l then roundVal fmtF32 .rn (FVal.ofInt ip)
      else
        let fr := lnFix m (2 ^ l) * 2 ^ fixP / ln2Go fixP
        let u : Int := ip * (2 ^ fixP : Nat) + fr
        roundFin fmtF32 .rn (decide (u < 0)) u.natAbs (-fixP) true

/-- tanh x (R226, R227): exactly x when |x| ≤ 2^-12. -/
def ftanh : FVal → Nat × Nat
  | .nan s => (fmtF32.nanBits, if s then 16 else 0)
  | .inf n => (0x3F800000 + fmtF32.zeroBits n, 0)
  | .fin n m e =>
    if m = 0 then (fmtF32.zeroBits n, 0)
    else
      let l := e + (Nat.log2 m : Int)
      if l < -12 ∨ (l = -12 ∧ m = 2 ^ Nat.log2 m) then roundVal fmtF32 .rn (.fin n m e)
      else if 4 ≤ l then roundFin fmtF32 .rn n (2 ^ 64 - 1) (-64) true
      else
        let t := if 0 ≤ e then m * 2 ^ (e.toNat + fixP) / 32 else m * 2 ^ fixP / (2 ^ (-e).toNat * 32)
        let ex := squareGo 6 (expFix t)
        roundFin fmtF32 .rn n ((ex - 2 ^ fixP) * 2 ^ fixP / (ex + 2 ^ fixP)) (-fixP) true

/-- A transcendental on a type (R228): the FP32 result, then one rounding into the narrow format. -/
def transcend (t : Ty) (rnd : Rm) (g : FVal → Nat × Nat) (x : Nat) : Nat × Nat :=
  let (r, fl) := g (fDecode t x)
  if t = .f32 then (r, fl)
  else let (r', fl') := fRound t rnd (fmtF32.decode r); (r', fl ||| fl')

/-! ### Updates at memory (R225, R346) -/

/-- The new value of an atomic operation on n bytes (R346). -/
def atomNew (fn n old s : Nat) : Nat :=
  let w := 8 * n
  match fn with
  | 0 => (old + s) % 2 ^ w
  | 1 => min old s
  | 2 => if sext old w ≤ sext s w then old else s
  | 3 => max old s
  | 4 => if sext old w ≤ sext s w then s else old
  | 5 => old &&& s
  | 6 => old ||| s
  | 7 => old ^^^ s
  | 8 => s
  | 9 => (fAdd fmtF32 .rn (fmtF32.decode old) (fmtF32.decode s)).1
  | 10 => (fAdd fmtBF16 .rn (fmtBF16.decode old) (fmtBF16.decode s)).1
  | 11 => (fAdd fmtF16 .rn (fmtF16.decode old) (fmtF16.decode s)).1
  | 12 => (fMinMax fmtF32 false false old s).1
  | 13 => (fMinMax fmtF32 true false old s).1
  | 14 => (fMinMax fmtBF16 false false old s).1
  | 15 => (fMinMax fmtBF16 true false old s).1
  | 16 => (fMinMax fmtF16 false false old s).1
  | _ => (fMinMax fmtF16 true false old s).1

end Sys2Proof.Machine
end

