-- ==== Sys2Proof/Config.lean ====
section
/-!
DEFINITION. What an implementation fixes and the manual leaves open. Every constant here without a body is a FREE VALUE: nothing
in Lean can evaluate it or prove a value of it, so a claim about the machine holds whatever it is. The step applies them to the
plain counter State.tick, which it advances, so each use is a fresh choice.
-/
namespace Sys2Proof.Config

/-- A free choice: which of several values that R155, R263, R285, R288 or R225 allows comes about. The arguments are the model's
counter and what tells the choices of one step apart. Log 1. -/
opaque pick : Nat → Nat → Nat

/-- Which agent of the device moves next, and with what its environment tells it, when no move is pending. Log 2. -/
opaque turn : Nat → Instr

/-- What a byte of DRAM decrypts to that was not written under the reader's key: unspecified (R268, R269). Arguments: the version of its
sector, the physical address, the SM4 key. Log 3. -/
opaque junk : Nat → Nat → Nat → Byte

/-- A byte that a copy writes where its own source overlaps it (R288). Arguments: the counter, the storage, the address there. Log 3. -/
opaque torn : Nat → Nat → Nat → Byte

/-- The SM4 key that Cupola loads for a key id of a context (R268, R401). Arguments: the counter, the key id. Log 57. -/
opaque sm4Key : Nat → Nat → Nat

/-- How many ns pass during one step (R176). Log 4. -/
opaque nsStep : Nat → Nat

/-- The number of this package in its pod (R67), taken modulo 16,384. Log 5. -/
opaque pkgNumber : Nat

/-- Whether Cupola declines to make a page resident (R281, status 3). Log 6. -/
opaque hresRefuses : Nat → Bool

/-- The last round of a page's migration after which it begins a further one, instead of freezing its frame (R265). Log 62. -/
opaque migrationRounds : Nat

/-- By how many ns a core's reading of the package time runs ahead, taken modulo 65: readings of different cores differ from their
true order by at most 64 ns (R176). Log 7. -/
opaque nsSkew : Nat → Nat

/-- The SM3 digest of a list of numbers (R433); the manual names the function and does not define it. Log 8. -/
opaque sm3 : List Nat → Nat

/-- The SM2 signature under the device identity key, which nothing outside the boot ROM reads (R433). Log 8. -/
opaque sm2Sign : List Nat → Nat

/-- The certificate of the device identity key (R433). Log 8. -/
opaque identityCert : List (BitVec 8)

/-- The four fuse slots for image keys: the SM3 digest, and whether the revocation fuse is blown (R433). Log 8. -/
opaque keyFuses : List (Nat × Bool)

/-- Whether an SM2 signature over a digest verifies under a public key (R433). Arguments: the key, the digest, the signature. Log 8. -/
opaque sm2Verify : Nat → Nat → Nat → Bool

/-- The public key, the signature and the security version that a Cupola image carries: the manual does not say where (R433). Log 8. -/
opaque imageKey : List (BitVec 8) → Nat
opaque imageSig : List (BitVec 8) → Nat
opaque imageVersion : List (BitVec 8) → Nat

/-- A byte of a storage namespace that the device has not written (R432). Arguments: the namespace, the offset. Log 67. -/
opaque disk : Nat → Nat → BitVec 8

/-- How many ns Cupola's policy gives a slice (R403). Log 66. -/
opaque sliceNs : Nat → Nat

/-- The margin plan that Cupola makes anew (R434). Log 51. -/
opaque marginPlan : Nat → Nat

/-- What a path-delay monitor and a thermal sensor of a die show (R434). Arguments: the counter, the die, the number on it. Log 51. -/
opaque monitor : Nat → Nat → Nat → Nat
opaque sensor : Nat → Nat → Nat → Nat

/-- Whether a physical quad's monitors fail a plan (R434). Arguments: the plan, what the die's monitors showed last, the quad. Log 51. -/
opaque failsPlan : Nat → List Nat → Nat → Bool

/-- How many errors ECC has corrected since Cupola counted last (R436). Log 51. -/
opaque correctedErrors : Nat → Nat

/-- The bytes of a cold context's image before its encryption; the manual does not lay them out (R409). Log 80. -/
opaque coldImage : Nat → List Nat

/-- The key that Cupola holds for a tenant's images (R409). Log 80. -/
opaque tenantKey : Nat → Nat

/-- SM4 in XTS mode under a key, and the SM3 HMAC under it (R409); the manual names the functions and does not define them. Log 80. -/
opaque sm4Xts : Nat → List Nat → List Nat
opaque hmacSm3 : Nat → List Nat → Nat

/-- The SM3 digest of the boot ROM (R433). Log 8. -/
opaque romDigest : Nat

/-- The version fuse (R433). Log 8. -/
opaque versionFuse : Nat

end Sys2Proof.Config
end

