-- ==== Sys2Proof/Decode.lean ====
section
/-!
DEFINITION. The decoder and the encoder of the 96-bit instruction word (R62, R66, R67, R72-R80). Decoding is total: it answers
an instruction or the name of the check that the word fails; every refusal makes a lane whose guard is true raise ISA.ILLEGAL.
-/
namespace Sys2Proof

/-! ### Specifiers (R66, R67) and field codes (R78) -/

/-- The special registers in specifier order, from 0xE0 (R67). -/
def specials : List Special :=
  [.lane, .pack, .role, .fibre, .teamX, .teamY, .teamZ, .gridX, .gridY, .gridZ, .core, .quad, .die, .pkg,
   .shape0, .shape1, .shape2, .shape3, .bucket, .hsp, .lanemaskLt, .active, .ctx, .launch]

/-- The number of a special register above 0xE0 (R67). -/
def specialCode : Special → Nat
  | .lane => 0 | .pack => 1 | .role => 2 | .fibre => 3 | .teamX => 4 | .teamY => 5 | .teamZ => 6 | .gridX => 7 | .gridY => 8
  | .gridZ => 9 | .core => 10 | .quad => 11 | .die => 12 | .pkg => 13 | .shape0 => 14 | .shape1 => 15 | .shape2 => 16
  | .shape3 => 17 | .bucket => 18 | .hsp => 19 | .lanemaskLt => 20 | .active => 21 | .ctx => 22 | .launch => 23

/-- The meaning of a specifier; none for the reserved 0xF8-0xFD (R66). -/
def decodeSpec (x : Nat) : Option Spec :=
  if h : x < 128 then some (.g ⟨x, h⟩)
  else if h : x - 128 < 64 then some (.k ⟨x - 128, h⟩)
  else if h : x - 192 < 16 then some (.p ⟨x - 192, h⟩)
  else if h : x - 208 < 12 then some (.m ⟨x - 208, h⟩)
  else if h : x - 220 < 4 then some (.q ⟨x - 220, h⟩)
  else if x < 0xF8 then (specials[x - 0xE0]?).map .sp
  else if x = 0xFE then some .none
  else if x = 0xFF then some .imm
  else none

/-- The code of a specifier (R66, R67). -/
def encodeSpec : Spec → Nat
  | .g i => i.val
  | .k i => 0x80 + i.val
  | .p i => 0xC0 + i.val
  | .m i => 0xD0 + i.val
  | .q i => 0xDC + i.val
  | .sp r => 0xE0 + specialCode r
  | .none => 0xFE
  | .imm => 0xFF

/-- The `TY` code of a type (R78). -/
def tyCode : Ty → Nat
  | .s32 => 0 | .n32 => 1 | .s64 => 2 | .n64 => 3 | .f32 => 4 | .bf16 => 5 | .f16 => 6 | .mf8 => 7 | .s8 => 8 | .n8 => 9
  | .s16 => 10 | .n16 => 11

/-- The `RM` code of a rounding mode (R78). -/
def rmCode : Rm → Nat
  | .rn => 0 | .rz => 1 | .rm => 2 | .rp => 3
/-- The rounding mode of a code (R78). -/
def rmOfCode (n : Nat) : Rm :=
  match n with
  | 0 => .rn | 1 => .rz | 2 => .rm | _ => .rp

/-- The `SZ` code of a size (R78). -/
def szCode : Sz → Nat
  | .b => 0 | .h => 1 | .w => 2 | .d => 3 | .q => 4

/-- The `ORD` code of an order (R78). -/
def ordCode : MOrd → Nat
  | .plain => 0 | .rlx => 1 | .acq => 2 | .rel => 3 | .ar => 4 | .sc => 5
/-- The order of a code; none for 6 and 7 (R78). -/
def ordOfCode (n : Nat) : Option MOrd :=
  match n with
  | 0 => some .plain | 1 => some .rlx | 2 => some .acq | 3 => some .rel | 4 => some .ar | 5 => some .sc
  | _ => none

/-- The `SC` code of a scope (R78). -/
def scopeCode : Scope → Nat
  | .lane => 0 | .core => 1 | .quad => 2 | .die => 3 | .pkg => 4 | .pod => 5 | .sys => 6
/-- The scope of a code; none for 7 (R78). -/
def scopeOfCode (n : Nat) : Option Scope :=
  match n with
  | 0 => some .lane | 1 => some .core | 2 => some .quad | 3 => some .die | 4 => some .pkg | 5 => some .pod | 6 => some .sys
  | _ => none

/-! ### The word (R62) and its formats (R73-R77) -/

/-- The common fields (R62); a reserved specifier is refused (R80). -/
def headOf (w : IWord) : Except Reject Head :=
  match decodeSpec (w.extractLsb' 75 8).toNat, decodeSpec (w.extractLsb' 67 8).toNat, decodeSpec (w.extractLsb' 59 8).toNat,
    decodeSpec (w.extractLsb' 51 8).toNat with
  | some d, some a, some b, some c =>
    .ok { guard := { gp := (w.extractLsb' 84 4).toFin, gn := w.getLsbD 83 }, d := d, a := a, b := b, c := c,
          fn := w.extractLsb' 43 8 }
  | _, _, _, _ => .error .reservedSpec

/-- The AL format (R73). -/
def alOf (w : IWord) : Except Reject AL :=
  match headOf w, tyOfCode (w.extractLsb' 39 4).toNat with
  | .ok h, some ty =>
    .ok { toHead := h, ty := ty, rm := rmOfCode (w.extractLsb' 37 2).toNat, sat := w.getLsbD 36, x := w.extractLsb' 32 4,
          imm := w.extractLsb' 0 32 }
  | .error r, _ => .error r
  | _, none => .error .reservedMod

/-- The ME format (R74). -/
def meOf (w : IWord) : Except Reject ME :=
  match headOf w, szOfCode (w.extractLsb' 40 3).toNat, ordOfCode (w.extractLsb' 37 3).toNat,
    scopeOfCode (w.extractLsb' 34 3).toNat with
  | .ok h, some sz, some ord, some sc =>
    .ok { toHead := h, sz := sz, ord := ord, sc := sc, ch := w.extractLsb' 32 2, hnd := w.extractLsb' 20 12,
          off := w.extractLsb' 0 20 }
  | .error r, _, _, _ => .error r
  | _, _, _, _ => .error .reservedMod

/-- The BR format (R75). -/
def brOf (w : IWord) : Except Reject BR :=
  match headOf w with
  | .ok h => .ok { toHead := h, mod := w.extractLsb' 32 11, line := w.extractLsb' 3 29, slot := w.extractLsb' 0 3 }
  | .error r => .error r

/-- The EN format (R76). -/
def enOf (w : IWord) : Except Reject EN :=
  match headOf w, scopeOfCode (w.extractLsb' 38 3).toNat with
  | .ok h, some sc =>
    .ok { toHead := h, acq := w.getLsbD 42, rel := w.getLsbD 41, sc := sc, x := w.extractLsb' 32 6, hx := w.extractLsb' 20 12,
          hy := w.extractLsb' 8 12, lo := w.extractLsb' 0 8 }
  | .error r, _ => .error r
  | _, none => .error .reservedMod

/-- The SY format (R77). -/
def syOf (w : IWord) : Except Reject SY :=
  match headOf w with
  | .ok h => .ok { toHead := h, mod := w.extractLsb' 32 11, imm := w.extractLsb' 0 32 }
  | .error r => .error r

/-! ### The opcode map (R79), one table for each format (R72) -/

/-- The AL instructions. -/
def alOps : List (Nat × (AL → Instr)) :=
  [(0x01, .iadd), (0x02, .isub), (0x03, .imul), (0x04, .imulh), (0x05, .imad), (0x06, .imadw), (0x07, .idiv), (0x08, .irem),
   (0x09, .imin), (0x0A, .imax), (0x0B, .iabs), (0x0C, .ineg), (0x0D, .isad), (0x0E, .and), (0x0F, .or)] ++
  [(0x10, .xor), (0x11, .not), (0x12, .andn), (0x13, .shl), (0x14, .shr), (0x15, .sar), (0x16, .rot), (0x17, .fsh),
   (0x18, .bfx), (0x19, .bfi), (0x1A, .brev), (0x1B, .popc), (0x1C, .clz), (0x1D, .ctz), (0x1E, .prmb), (0x1F, .lea)] ++
  [(0x20, .mov), (0x21, .sel), (0x22, .ipred), (0x23, .plut), (0x24, .prdw), (0x25, .pwrw), (0x28, .clock)] ++
  [(0x40, .ballot), (0x41, .agree), (0x42, .shfl), (0x43, .prdx), (0x44, .pscan), (0x45, .matchLanes)] ++
  [(0x50, .fadd), (0x51, .fsub), (0x52, .fmul), (0x53, .ffma), (0x54, .fmin), (0x55, .fmax), (0x56, .fpred), (0x57, .fclass),
   (0x58, .frcp), (0x59, .frsq), (0x5A, .fsqrt), (0x5B, .fex2), (0x5C, .flg2), (0x5D, .ftanh), (0x5E, .v2add), (0x5F, .v2mul)] ++
  [(0x60, .v2fma), (0x61, .fcvt), (0x62, .icvt), (0x63, .scaleq), (0x64, .mfpack), (0x65, .mfunpk), (0x66, .fdot4),
   (0x67, .idot4), (0x68, .fstat)]

/-- The ME instructions. -/
def meOps : List (Nat × (ME → Instr)) :=
  [(0x27, .haddr), (0x70, .ld), (0x71, .st), (0x72, .stl), (0x73, .ldq), (0x76, .pref), (0x77, .hres), (0x78, .wbr), (0x79, .invr)] ++
  [(0x80, .atom), (0x81, .acas), (0x82, .red), (0x83, .fence), (0x84, .wline), (0x85, .capenter), (0x86, .cstep), (0x88, .capreset)]

/-- The BR instructions. -/
def brOps : List (Nat × (BR → Instr)) := [(0x30, .bra), (0x32, .call), (0x35, .brdec), (0x3A, .spawn)]

/-- The EN instructions; MMAS and MMAS.clr share an opcode (R308). -/
def enOps : List (Nat × (EN → Instr)) :=
  [(0x90, .cpy), (0x91, .cpyt), (0x92, .gath), (0x93, .scat), (0x94, .xput), (0x95, .xget), (0x96, .xred)] ++
  [(0xA0, .wload), (0xA1, .mma), (0xA2, fun o => if o.fn.getLsbD 3 then .mmasClr o else .mmas o), (0xA3, .accz),
   (0xA4, .accld), (0xA5, .accst), (0xA6, .accstat)]

/-- The SY instructions; ADOPT (R136), SWRITE (R412) and ERRQ (R413) have more than one row of the table. -/
def syOps : List (Nat × (SY → Instr)) :=
  [(0x31, .brx), (0x33, .callx), (0x34, .ret), (0x36, .join), (0x37, .leave), (0x38, .waitm), (0x39, .mset), (0x3B, .exit),
   (0x3C, .demote), (0x3D, .yield)] ++
  [(0x46, .binit), (0x47, .arrive), (0x48, .bwait), (0x49, .bsync), (0x4A, .btest), (0x4B, .hbar), (0x74, .qpop), (0x75, .qstat),
   (0x87, .capexit), (0x97, .tktest)] ++
  [(0xB0, .publish), (0xB1, fun o => if o.fn = 1 then .adoptSpill o else .adopt o), (0xB2, .retract), (0xB3, .fbar), (0xB4, .rgnq),
   (0xB5, .launch), (0xB8, .handle), (0xB9, .unhandle), (0xBA, .perform), (0xBB, .resume), (0xBC, .unwind), (0xBD, .effq)] ++
  [(0xC0, fun o => if o.mod = 0 then .swriteElogclr o else if o.mod = 1 then .swriteLogmark o else .swrite o),
   (0xC1, fun o => if o.fn = 1 then .errqPeek o else if o.fn = 2 then .errqCnt o else .errqPop o), (0xC2, .bkpt)]

/-- The row of an opcode. -/
def opRow {α : Type} (rows : List (Nat × (α → Instr))) (op : Nat) : Option (α → Instr) :=
  match rows with
  | [] => none
  | (n, f) :: rs => if n = op then some f else opRow rs op

/-- The instruction whose fields a word holds, before the checks of its description. -/
def decodeFields (w : IWord) : Except Reject Instr :=
  let op := (w.extractLsb' 88 8).toNat
  if op = 0 then if w = 0 then .ok .nop else .error .nopBits
  else if 0xE0 ≤ op ∧ op ≤ 0xEF then .ok (.isaMissing w)
  else
    match opRow alOps op, opRow meOps op, opRow brOps op, opRow enOps op, opRow syOps op with
    | some f, _, _, _, _ => (alOf w).map f
    | _, some f, _, _, _ => (meOf w).map f
    | _, _, some f, _, _ => (brOf w).map f
    | _, _, _, some f, _ => (enOf w).map f
    | _, _, _, _, some f => (syOf w).map f
    | _, _, _, _, _ => .error .unassignedOp

/-- Decoding with the checks of the word (steps 2-4 of R81). -/
def decode (w : IWord) : Except Reject Instr :=
  match decodeFields w with
  | .error r => .error r
  | .ok i =>
    match i.check with
    | some r => .error r
    | none => .ok i

/-! ### The encoder -/

/-- The word of its common fields (R62). -/
def wordOf (op : Nat) (h : Head) (mod : BitVec 11) (imm : Word) : IWord :=
  BitVec.ofNat 8 op ++ BitVec.ofFin (w := 4) h.guard.gp ++ BitVec.ofBool h.guard.gn ++ BitVec.ofNat 8 (encodeSpec h.d) ++
    BitVec.ofNat 8 (encodeSpec h.a) ++ BitVec.ofNat 8 (encodeSpec h.b) ++ BitVec.ofNat 8 (encodeSpec h.c) ++ h.fn ++ mod ++ imm

/-- An AL word (R73). -/
def encodeAL (op : Nat) (o : AL) : IWord :=
  wordOf op o.toHead (BitVec.ofNat 4 (tyCode o.ty) ++ BitVec.ofNat 2 (rmCode o.rm) ++ BitVec.ofBool o.sat ++ o.x) o.imm
/-- An ME word (R74). -/
def encodeME (op : Nat) (o : ME) : IWord :=
  wordOf op o.toHead (BitVec.ofNat 3 (szCode o.sz) ++ BitVec.ofNat 3 (ordCode o.ord) ++ BitVec.ofNat 3 (scopeCode o.sc) ++ o.ch)
    (o.hnd ++ o.off)
/-- A BR word (R75). -/
def encodeBR (op : Nat) (o : BR) : IWord := wordOf op o.toHead o.mod (o.line ++ o.slot)
/-- An EN word (R76). -/
def encodeEN (op : Nat) (o : EN) : IWord :=
  wordOf op o.toHead (BitVec.ofBool o.acq ++ BitVec.ofBool o.rel ++ BitVec.ofNat 3 (scopeCode o.sc) ++ o.x) (o.hx ++ o.hy ++ o.lo)
/-- An SY word (R77). -/
def encodeSY (op : Nat) (o : SY) : IWord := wordOf op o.toHead o.mod o.imm

/-- The word of an instruction; none for a step of the device that no word encodes. -/
def encode? : Instr → Option IWord
  | .nop => some 0
  | .iadd o => some (encodeAL 0x01 o) | .isub o => some (encodeAL 0x02 o) | .imul o => some (encodeAL 0x03 o)
  | .imulh o => some (encodeAL 0x04 o) | .imad o => some (encodeAL 0x05 o) | .imadw o => some (encodeAL 0x06 o)
  | .idiv o => some (encodeAL 0x07 o) | .irem o => some (encodeAL 0x08 o) | .imin o => some (encodeAL 0x09 o)
  | .imax o => some (encodeAL 0x0A o) | .iabs o => some (encodeAL 0x0B o) | .ineg o => some (encodeAL 0x0C o)
  | .isad o => some (encodeAL 0x0D o) | .and o => some (encodeAL 0x0E o) | .or o => some (encodeAL 0x0F o)
  | .xor o => some (encodeAL 0x10 o) | .not o => some (encodeAL 0x11 o) | .andn o => some (encodeAL 0x12 o)
  | .shl o => some (encodeAL 0x13 o) | .shr o => some (encodeAL 0x14 o) | .sar o => some (encodeAL 0x15 o)
  | .rot o => some (encodeAL 0x16 o) | .fsh o => some (encodeAL 0x17 o) | .bfx o => some (encodeAL 0x18 o)
  | .bfi o => some (encodeAL 0x19 o) | .brev o => some (encodeAL 0x1A o) | .popc o => some (encodeAL 0x1B o)
  | .clz o => some (encodeAL 0x1C o) | .ctz o => some (encodeAL 0x1D o) | .prmb o => some (encodeAL 0x1E o)
  | .lea o => some (encodeAL 0x1F o) | .mov o => some (encodeAL 0x20 o) | .sel o => some (encodeAL 0x21 o)
  | .ipred o => some (encodeAL 0x22 o) | .plut o => some (encodeAL 0x23 o) | .prdw o => some (encodeAL 0x24 o)
  | .pwrw o => some (encodeAL 0x25 o) | .haddr o => some (encodeME 0x27 o) | .clock o => some (encodeAL 0x28 o)
  | .bra o => some (encodeBR 0x30 o) | .brx o => some (encodeSY 0x31 o) | .call o => some (encodeBR 0x32 o)
  | .callx o => some (encodeSY 0x33 o) | .ret o => some (encodeSY 0x34 o) | .brdec o => some (encodeBR 0x35 o)
  | .join o => some (encodeSY 0x36 o) | .leave o => some (encodeSY 0x37 o) | .waitm o => some (encodeSY 0x38 o)
  | .mset o => some (encodeSY 0x39 o) | .spawn o => some (encodeBR 0x3A o) | .exit o => some (encodeSY 0x3B o)
  | .demote o => some (encodeSY 0x3C o) | .yield o => some (encodeSY 0x3D o)
  | .ballot o => some (encodeAL 0x40 o) | .agree o => some (encodeAL 0x41 o) | .shfl o => some (encodeAL 0x42 o)
  | .prdx o => some (encodeAL 0x43 o) | .pscan o => some (encodeAL 0x44 o) | .matchLanes o => some (encodeAL 0x45 o)
  | .binit o => some (encodeSY 0x46 o) | .arrive o => some (encodeSY 0x47 o) | .bwait o => some (encodeSY 0x48 o)
  | .bsync o => some (encodeSY 0x49 o) | .btest o => some (encodeSY 0x4A o) | .hbar o => some (encodeSY 0x4B o)
  | .fadd o => some (encodeAL 0x50 o) | .fsub o => some (encodeAL 0x51 o) | .fmul o => some (encodeAL 0x52 o)
  | .ffma o => some (encodeAL 0x53 o) | .fmin o => some (encodeAL 0x54 o) | .fmax o => some (encodeAL 0x55 o)
  | .fpred o => some (encodeAL 0x56 o) | .fclass o => some (encodeAL 0x57 o) | .frcp o => some (encodeAL 0x58 o)
  | .frsq o => some (encodeAL 0x59 o) | .fsqrt o => some (encodeAL 0x5A o) | .fex2 o => some (encodeAL 0x5B o)
  | .flg2 o => some (encodeAL 0x5C o) | .ftanh o => some (encodeAL 0x5D o) | .v2add o => some (encodeAL 0x5E o)
  | .v2mul o => some (encodeAL 0x5F o) | .v2fma o => some (encodeAL 0x60 o) | .fcvt o => some (encodeAL 0x61 o)
  | .icvt o => some (encodeAL 0x62 o) | .scaleq o => some (encodeAL 0x63 o) | .mfpack o => some (encodeAL 0x64 o)
  | .mfunpk o => some (encodeAL 0x65 o) | .fdot4 o => some (encodeAL 0x66 o) | .idot4 o => some (encodeAL 0x67 o)
  | .fstat o => some (encodeAL 0x68 o)
  | .ld o => some (encodeME 0x70 o) | .st o => some (encodeME 0x71 o) | .stl o => some (encodeME 0x72 o)
  | .ldq o => some (encodeME 0x73 o) | .qpop o => some (encodeSY 0x74 o) | .qstat o => some (encodeSY 0x75 o)
  | .pref o => some (encodeME 0x76 o) | .hres o => some (encodeME 0x77 o) | .wbr o => some (encodeME 0x78 o)
  | .invr o => some (encodeME 0x79 o) | .atom o => some (encodeME 0x80 o) | .acas o => some (encodeME 0x81 o)
  | .red o => some (encodeME 0x82 o) | .fence o => some (encodeME 0x83 o) | .wline o => some (encodeME 0x84 o)
  | .capenter o => some (encodeME 0x85 o) | .cstep o => some (encodeME 0x86 o) | .capexit o => some (encodeSY 0x87 o)
  | .capreset o => some (encodeME 0x88 o)
  | .cpy o => some (encodeEN 0x90 o) | .cpyt o => some (encodeEN 0x91 o) | .gath o => some (encodeEN 0x92 o)
  | .scat o => some (encodeEN 0x93 o) | .xput o => some (encodeEN 0x94 o) | .xget o => some (encodeEN 0x95 o)
  | .xred o => some (encodeEN 0x96 o) | .tktest o => some (encodeSY 0x97 o)
  | .wload o => some (encodeEN 0xA0 o) | .mma o => some (encodeEN 0xA1 o) | .mmas o => some (encodeEN 0xA2 o)
  | .mmasClr o => some (encodeEN 0xA2 o) | .accz o => some (encodeEN 0xA3 o) | .accld o => some (encodeEN 0xA4 o)
  | .accst o => some (encodeEN 0xA5 o) | .accstat o => some (encodeEN 0xA6 o)
  | .publish o => some (encodeSY 0xB0 o) | .adopt o => some (encodeSY 0xB1 o) | .adoptSpill o => some (encodeSY 0xB1 o)
  | .retract o => some (encodeSY 0xB2 o) | .fbar o => some (encodeSY 0xB3 o) | .rgnq o => some (encodeSY 0xB4 o)
  | .launch o => some (encodeSY 0xB5 o) | .handle o => some (encodeSY 0xB8 o) | .unhandle o => some (encodeSY 0xB9 o)
  | .perform o => some (encodeSY 0xBA o) | .resume o => some (encodeSY 0xBB o) | .unwind o => some (encodeSY 0xBC o)
  | .effq o => some (encodeSY 0xBD o) | .swriteElogclr o => some (encodeSY 0xC0 o) | .swriteLogmark o => some (encodeSY 0xC0 o)
  | .swrite o => some (encodeSY 0xC0 o) | .errqPop o => some (encodeSY 0xC1 o) | .errqPeek o => some (encodeSY 0xC1 o)
  | .errqCnt o => some (encodeSY 0xC1 o) | .bkpt o => some (encodeSY 0xC2 o)
  | .isaMissing w => some w
  | .queueEntryArrival .. | .watchSlotTrigger .. | .copySegment .. | .fixupService .. | .networkSegment .. | .wloadCommand ..
  | .mmaCommand .. | .accstCommand .. | .launchAccept .. | .lineFetch .. | .coreIssue .. | .resultArrival ..
  | .waitConditionMet .. | .effectDelivery .. | .missingEmulation .. | .missingSignalAnswer .. | .stuckDeadlock ..
  | .hbarDeadlock .. | .bindTeam .. | .dispatch .. | .dispatchReady .. | .teamRetire .. | .homeAccess .. | .l1Eviction ..
  | .tableWalk .. | .makeResident .. | .pageMigration .. | .sliceEnd .. | .halt .. | .haltComplete .. | .haltWatchdog ..
  | .staleReplyDrop .. | .teamResume .. | .haltPointFire .. | .makeCold .. | .contextRestore .. | .attest .. | .ctxCreate ..
  | .ctxDestroy .. | .map .. | .unmap .. | .load .. | .start .. | .wait .. | .query .. | .haltatArm .. | .haltatRelease ..
  | .haltatDisarm .. | .handleEntryWrite .. | .rmaAccess .. | .storageTransfer .. | .boot .. | .monitorRead ..
  | .marginReplan .. | .uncorrectableError .. | .acczCommand .. | .pageEviction .. | .icacheEviction ..
  | .partitionBoundaryMove .. => none

/-- The word of an instruction; the all-zero word for a step that no word encodes. -/
def encode (i : Instr) : IWord := (encode? i).getD 0

/-- The twelve bytes of a word as a slot holds them (R55). -/
def encodeBytes (i : Instr) : List Byte := Machine.leBytes 12 (encode i).toNat

/-- The word that twelve bytes of a slot hold (R55). -/
def wordOfBytes (bs : List Byte) : IWord := BitVec.ofNat 96 (Machine.leNat bs)

/-- The instruction the decoder reads from bits numbered from the slot's first byte, every bit above `nbits` zero. -/
def decodeTableWord (nbits w : Nat) : Option Instr :=
  (decode (wordOfBytes (Machine.leBytes 12 (w % 2 ^ nbits)))).toOption

end Sys2Proof
end

