-- ==== Sys2Proof/Machine/Maps.lean ====
section
/-!
DEFINITION. Finite maps from natural keys as sorted association lists: the plain-data form of every table, register file and
cache of the device. A key that is not listed has no entry.
-/
namespace Sys2Proof.Machine

/-- A table: entries with strictly rising keys. -/
abbrev Map (α : Type) := List (Nat × α)

/-- The entry under a key. -/
def mapGet {α : Type} : Map α → Nat → Option α
  | [], _ => none
  | (j, v) :: m, k => if j = k then some v else mapGet m k

/-- Write the entry under a key. -/
def mapSet {α : Type} : Map α → Nat → α → Map α
  | [], k, x => [(k, x)]
  | (j, v) :: m, k, x => if j = k then (k, x) :: m else if k < j then (k, x) :: (j, v) :: m else (j, v) :: mapSet m k x

/-- Remove every entry under a key. -/
def mapDel {α : Type} (m : Map α) (k : Nat) : Map α := m.filter (fun e => e.1 != k)

/-- The entry under a key, or a default. -/
def mapGetD {α : Type} (m : Map α) (k : Nat) (d : α) : α := (mapGet m k).getD d

/-- Change the entry under a key where there is one. -/
def mapMod {α : Type} (m : Map α) (k : Nat) (f : α → α) : Map α :=
  match mapGet m k with
  | none => m
  | some v => mapSet m k (f v)

/-- Change the entry under a key, which is `d` where there is none. -/
def mapModD {α : Type} (m : Map α) (k : Nat) (d : α) (f : α → α) : Map α := mapSet m k (f (mapGetD m k d))

/-- Whether a key has an entry. -/
def mapHas {α : Type} (m : Map α) (k : Nat) : Bool := (mapGet m k).isSome

/-- Keep the entries whose key and value pass a test. -/
def mapFilter {α : Type} (m : Map α) (p : Nat → α → Bool) : Map α := m.filter (fun e => p e.1 e.2)

/-- Change every entry. -/
def mapAll {α : Type} (m : Map α) (f : Nat → α → α) : Map α := m.map (fun e => (e.1, f e.1 e.2))

/-- Change or drop every entry. -/
def mapUpdate {α : Type} (m : Map α) (f : α → Option α) : Map α := m.filterMap (fun e => (f e.2).map (fun v => (e.1, v)))

/-- The least key of `0..n-1` with no entry. -/
def mapFree {α : Type} (m : Map α) (n : Nat) : Option Nat := (List.range n).find? (fun k => !mapHas m k)

/-- A key above every key in use. -/
def mapNext {α : Type} (m : Map α) : Nat := m.foldl (fun a e => max a (e.1 + 1)) 1

end Sys2Proof.Machine
end

