-- ==== Sys2Proof/Machine/State.lean ====
section
/-!
DEFINITION. The state of the whole device as plain data: everything the manual gives the machine, from one fibre's registers to
Cupola's context memory, and State.reset. INVENTORY.md lists each field with its rule and its reset value.
-/
namespace Sys2Proof.Machine

/-! ### Stops -/

/-- Why a step stops the machine. -/
inductive Fault where
  /-- Raised by the step alone, on a module whose boot failed (R433: a failure at any step halts the module). Safe: the manual
  gives such a module no further step. -/
  | moduleHalted (bootStep : Nat)
  deriving DecidableEq, Repr

/-- Why an instruction has no meaning in the model. -/
inductive Refusal where
  /-- Raised by an arm of exec whose instruction has no meaning yet. Safe: nothing can be proved of such an instruction. -/
  | notModelled (mnemonic : String)
  deriving DecidableEq, Repr

/-! ### Memory -/

/-- Bytes by address: addresses strictly rising, no entry equal to 0, which is what an unlisted address reads as. -/
abbrev Memory := List Host.Cell

/-- What a 64-byte DRAM sector holds (R268): the SM4 key it was last encrypted under, which of its bytes were written under that key,
the version of the sector that its other bytes were made from when that key first wrote it, and its version now. -/
structure SectorKey where
  key : Nat
  mask : BitVec 64
  base : Nat
  ver : Nat
  deriving DecidableEq, Repr, Inhabited

/-- The record of a 64 KiB frame: its generation at home (R263); of the first frame of a page that is migrating, the frame the page
moves to and the rounds done (R265); whether its generation is frozen (R265); and the context that Cupola gave it to (R269), as a
page or as a page table. -/
structure Frame where
  gen : BitVec 12
  moving : Option (Nat × Nat)
  frozen : Bool
  owner : Option Nat
  deriving DecidableEq, Repr, Inhabited

/-! ### A fibre (R148) -/

/-- The latency class of a register result (R82). -/
inductive Cls where
  | a | b | v
  deriving DecidableEq, Repr, Inhabited

/-- A register write that a later read need not see yet (R155). Registers are numbered 0-127 g, 128-143 p, 144-151 c,
160-223 k, 224-235 m. `serial` numbers a k write within its team; of an m write `val` is the value it wrote and `old` the one it
replaced. `load` names the LD whose read is not yet performed (R321). -/
structure RegWrite where
  reg : Nat
  val : Word
  pos : Nat
  cls : Cls
  arrived : Bool
  serial : Nat
  old : Word
  load : Option Nat
  deriving DecidableEq, Repr, Inhabited

/-- The place an access names: an offset in one of the five spaces, or a code-window address (R246). -/
inductive Loc where
  | lane (off : Nat)
  | core (off : Nat)
  | quad (off : Nat)
  | die (off : Nat)
  | glob (va : Nat)
  deriving DecidableEq, Repr, Inhabited

/-- When the L1 gives up a line (R252): `.stream` first, `.keep` last. -/
inductive Hint where
  | stream | normal | keep
  deriving DecidableEq, Repr, Inhabited

/-- How an access uses the L1 and the remote copies (R252, R257, R324). -/
structure How where
  ord : MOrd
  sc : Scope
  cv : Bool
  rc : Bool
  hint : Hint
  deriving DecidableEq, Repr, Inhabited

/-- What a queue entry holds (R275); a fault that a QPOP has raised carries that instruction's PC, so that a RESUME there retries
the read (R277). -/
inductive QGot where
  | flight
  | bytes (data : List Byte) (flag : Bool)
  | fault (eff : Nat) (arg : Nat) (at_ : Option Nat)
  deriving DecidableEq, Repr, Inhabited

/-- An entry of a decoupling queue (R275); `seq` is the place of the read in its fibre's program order. -/
structure QEntry where
  sz : Sz
  sx : Bool
  nr : Bool
  pr : Nat
  loc : Loc
  how : How
  hnd : Nat
  at_ : QGot
  seq : Nat
  deriving DecidableEq, Repr, Inhabited

/-- The read of an LD that is not yet performed (R321): where it reads, how many bytes, and whether they are sign-extended. -/
structure LoadRead where
  loc : Loc
  n : Nat
  sx : Bool
  deriving DecidableEq, Repr, Inhabited

/-- An entry of the pending-token table (R148, R285): the pending count and what the epoch has gathered; `wrote` lists the virtual ranges that
its finished copies have written (R137). -/
structure Tok where
  count : Nat
  bytes : Nat
  nrz : Bool
  errs : List Nat
  launches : List Nat
  engine : Bool
  acq : List Scope
  wrote : List (Nat × Nat)
  deriving DecidableEq, Repr, Inhabited

/-- A held capsule (R358). -/
structure Held where
  block : Nat
  owner : Nat
  ogen : Nat
  step : Nat
  rpc : Word
  dreg : Nat
  adopter : Bool
  hmbx : Option Nat
  count : Nat
  deriving DecidableEq, Repr, Inhabited

/-- An effect raised and not yet delivered (R378). -/
structure PendEff where
  eff : Nat
  arg : Nat
  kind : Nat
  dest : Nat
  trap : Bool
  rsv : Nat
  spc : Word
  sxfer : Bool
  simm : Nat
  capm : Bool
  deriving DecidableEq, Repr, Inhabited

/-- What a WAITING fibre waits for (R159). Of a rendezvous, `sync` is the D of a BSYNC and `src` the register that a BWAIT reads its phase
from. -/
inductive Wait where
  | token (regs : List Nat)
  | tokTable
  | queueFree (q : Nat)
  | queueArrive (q : Nat)
  | wline (slot : Nat)
  | join (m : Nat)
  | waitm (m : Nat)
  | rendezvous (b : Nat) (ph : Bool) (sync src : Option Nat)
  | hbar (sc : Scope) (round : Nat)
  | launchRoom (q : Nat)
  | mailbox
  deriving DecidableEq, Repr, Inhabited

/-- The states of R149 but HALTED, which is Fibre.halted: a halted fibre keeps the state it had. -/
inductive FState where
  | ready
  | parked
  | waiting (w : Wait)
  | exited
  deriving DecidableEq, Repr, Inhabited

/-- The line in a fetch buffer (R131): its code offset, its 64 bytes, its region and the `GEN` of its fetch check. A line that RETRACT discards while its fibre
waits serves only the instruction that waits (R140): `last`. -/
structure FLine where
  off : Nat
  data : List Byte
  region : Nat
  gen : Nat
  last : Bool
  deriving DecidableEq, Repr, Inhabited

/-- A fibre (R148). `came` says that a taken transfer reached the instruction in hand (`SXFER`, R379); `late` names the points at which the
ended fibre is still to arrive (R204); `retracting` names the region and the old `GEN` of a RETRACT that has changed the record and waits (R140);
`launching` keeps the block that a waiting LAUNCH has read, and the model's run that read it (R111, R113); `life` tells one fibre of a lane
from the next that SPAWN starts there (R191, R263); `begun` is the word of the instruction that the fibre took up last: what a waiting one has
begun is given up when the line it stands on has another (R145). -/
structure Fibre where
  pc : Word
  st : FState
  halted : Bool
  helper : Bool
  wasAdopt : Bool
  hsp : Word
  flags : BitVec 5
  regs : Map Word
  pend : List RegWrite
  recent : List (Nat × Nat)
  pos : Nat
  mark : Nat
  retry : Bool
  xfer : Bool
  came : Bool
  fbuf : Option FLine
  tok : Map Tok
  tokAcq : Map (List Scope)
  queues : Map (List QEntry)
  loads : Map LoadRead
  qseq : Nat
  held : Option Held
  capMode : Bool
  eff : Option PendEff
  kok : List Nat
  kacq : List Nat
  sfaults : List Nat
  late : List Nat
  missing : Option IWord
  retracting : Option (Nat × Nat)
  launching : Option (Nat × List Byte)
  begun : IWord
  life : Nat
  deriving DecidableEq, Repr, Inhabited

/-! ### A pack, a team, a launch, a context -/

/-- A pack (R150, R151): its masks, its rotating pointer, when it last issued, and the lanes a YIELD passes over (R194). -/
structure Pack where
  masks : Map Word
  ptr : Nat
  lastIssue : Option Nat
  yielded : List Nat
  deriving DecidableEq, Repr, Inhabited

/-- A rendezvous point (R198). -/
structure RvPoint where
  init : Bool
  phase : Bool
  expect : Nat
  arrivedN : Nat
  drop : Bool
  roles : BitVec 4
  pend : Nat
  arrived : List Nat
  dropped : List Nat
  kser : List Nat
  kdone : List Nat
  deriving DecidableEq, Repr, Inhabited

/-- One write of a k register (R155, R162): the fibre of its leading lane, the clk and the pack of its batch (none of a
write by Cupola), and whether the value of another pack's write in that clk prevails over it. -/
structure KWrite where
  reg : Nat
  val : Word
  serial : Nat
  by_ : Nat
  clk : Option Nat
  pack : Nat
  lost : Bool
  deriving DecidableEq, Repr, Inhabited

/-- A bind record (R126). -/
structure BindRec where
  ctx : Nat
  lid : Nat
  tx : Nat
  ty : Nat
  tz : Nat
  slot : Nat
  resume : Bool
  valid : Bool
  rfBase : Nat
  spBase : Nat
  tdBase : Nat
  accMap : BitVec 8
  wsBase : Nat
  pkBase : Nat
  bkt : Nat
  deriving DecidableEq, Repr, Inhabited

/-- How far a bound team has come (R127). -/
inductive Phase where
  | bound
  | claimed (readyAt : Nat)
  | running
  deriving DecidableEq, Repr, Inhabited

/-- What an engine command does (R283, R305). -/
inductive CmdKind where
  | cpy (a b n c : Nat)
  | cpyt (org dst ext : List Nat) (scl : Bool)
  | gath (b a n sz : Nat)
  | scat (b a n sz : Nat)
  | xput (a pkg off n : Nat)
  | xget (a pkg off n : Nat)
  | xred (a pkg off n op ty : Nat) (comm : Bool)
  | wload (off slot fmt n kg : Nat)
  | mma (tile row korg k slot n : Nat) (z int : Bool)
  | accz (tile : Nat)
  | accst (tile row col : Nat) (rnd : Rm)
  deriving DecidableEq, Repr, Inhabited

/-- An outstanding engine command: the entries it read at issue (R106), its segments not yet performed, each as runs of its bytes (first
byte and length), and its fix-up list (R286); for the matrix engine `at_`, the groups or rows done. `got` keeps what it has read ahead: by
byte number for a copy (R288); the scales and elements of a group of an MMA, or the words of a row of an ACCST (R306). -/
structure Cmd where
  kind : CmdKind
  team : Nat
  fib : Nat
  life : Nat
  tok : Option Nat
  acq : Bool
  rel : Bool
  sc : Scope
  nr : Bool
  hx : Nat
  hy : Nat
  ex : List Byte
  ey : List Byte
  ex1 : List Byte
  ey1 : List Byte
  sx : List Byte
  sy : List Byte
  follow : Option Nat
  at_ : Nat
  left : List (List (Nat × Nat))
  fix : List (List (Nat × Nat))
  got : Map Nat
  wrote : List (Nat × Nat)
  nrz : Bool
  errs : List Nat
  bytes : Nat
  begun : Bool
  order : Nat
  deriving DecidableEq, Repr, Inhabited

/-- A matrix command staged in mc0-mc7 (R310), with the fibre that staged it, in whose lane slice a lane-space side lies. -/
structure Staged where
  kind : CmdKind
  fib : Nat
  life : Nat
  acq : Bool
  sc : Scope
  hx : Nat
  ex : List Byte
  ex1 : List Byte
  sx : List Byte
  deriving DecidableEq, Repr, Inhabited

/-- A slot tag (R307). -/
inductive Tag where
  | empty
  | head (fmt n kg slots : Nat)
  | member
  deriving DecidableEq, Repr, Inhabited

/-- What a halt saves of a team beside the fields it keeps (R407). -/
structure Saved where
  scratch : Memory
  tundish : Memory
  tiles : Map Word
  slots : Memory
  tags : Map Tag
  derr : List Bool
  deriving DecidableEq, Repr, Inhabited

/-- A bound or halted team; `debugHeld` is the `SCOPE` of the halt point that holds it (R410), `haltAsked` the time of the halt's request,
and `sliced` says that the end of a slice asked (R406). `again` says that a halt came before it started: it keeps its core and slot (R407). -/
structure Team where
  ctx : Nat
  lid : Nat
  x : Nat
  y : Nat
  z : Nat
  die : Nat
  core : Nat
  brec : BindRec
  phase : Phase
  halted : Bool
  haltAsked : Option Nat
  sliced : Bool
  debugHeld : Option Bool
  failed : Bool
  k : List KWrite
  kser : Nat
  points : Map RvPoint
  mc : Map Staged
  adopted : Map (Nat × Nat)
  spill : Option (Nat × Nat)
  spilled : List (Nat × Nat)
  hbarRound : Map Nat
  saved : Option Saved
  again : Bool
  deriving DecidableEq, Repr, Inhabited

/-- What stands in the registers, masks and points of a team that has retired, until a team is dispatched on its core (R420: step 4 frees
them for binding). -/
structure Ended where
  team : Team
  packs : Map Pack
  fibres : Map Fibre
  deriving DecidableEq, Repr, Inhabited

/-- A role record (R97). -/
structure RoleRec where
  epc : Word
  ergn : Nat
  regs : Nat
  packs : Nat
  lanes : Nat
  deriving DecidableEq, Repr, Inhabited

/-- A bucket record (R98). -/
structure Bucket where
  ranges : List (Nat × Nat)
  bpc : Word
  brole : Nat
  deriving DecidableEq, Repr, Inhabited

/-- A launch block (R95). -/
structure Block where
  zeroLane : Bool
  strictlat : Bool
  qgroup : Nat
  queue : Nat
  prio : Nat
  scope : Nat
  order : Nat
  gx : Nat
  gy : Nat
  gz : Nat
  sbh : Nat
  hpc : Word
  hrgn : Nat
  scratch : Nat
  quadexp : Nat
  tundish : Nat
  lane : Nat
  acc : Nat
  wslots : Nat
  roles : List RoleRec
  deps : List (Int × Int × Int)
  buckets : List Bucket
  deriving DecidableEq, Repr, Inhabited

/-- An entry of the escalation queue (R396), with the clk and the core pack number that order it. -/
structure Escal where
  ctx : Nat
  lid : Nat
  x : Nat
  y : Nat
  z : Nat
  outcome : Nat
  eff : Nat
  fib : Nat
  die : Nat
  core : Nat
  pc : Word
  arg : Nat
  clk : Nat
  pack : Nat
  deriving DecidableEq, Repr, Inhabited

/-- Who holds a launch token: a fibre's register, or Cupola for a START (R108, R424). -/
inductive Holder where
  | none
  | fibre (fib reg : Nat)
  | cupola
  deriving DecidableEq, Repr, Inhabited

/-- An accepted launch (R113, R121, R422). -/
structure Launch where
  ctx : Nat
  lid : Nat
  name : Option Nat
  blk : Block
  shape : List Word
  after : Bool
  whole : Bool
  bucket : Nat
  parent : Option Nat
  holder : Holder
  order : Nat
  score : List Nat
  released : List Nat
  bound : List Nat
  retired : Nat
  failed : Nat
  root : Nat
  coreCnt : Map Nat
  quadCnt : Map Nat
  dieCnt : Map Nat
  home : Option Nat
  started : Bool
  done : Bool
  value : Nat
  escal : List Escal
  deriving DecidableEq, Repr, Inhabited

/-- A launch handed to its queue and not yet accepted (R111, R114); `msg` is the START that asked for it (R108). -/
structure Submit where
  name : Option Nat
  msg : Option Msg
  blk : Block
  shape : List Word
  after : Bool
  whole : Bool
  parent : Option Nat
  holder : Holder
  deriving DecidableEq, Repr, Inhabited

/-- The states of a code region (R92, R135). -/
inductive RState where
  | empty | writable | published | retracted
  deriving DecidableEq, Repr, Inhabited

/-- A record of the region directory (R132); `pinst` is the die and the core or quad that publishing named. -/
structure Region where
  base : Nat
  lines : Nat
  gen : Nat
  state : RState
  pscope : Nat
  pdie : Nat
  punit : Nat
  deriving DecidableEq, Repr, Inhabited

/-- Cupola's records for a context's control process: R100, R263, R294, R363, R366, R395, R406, R410, R412. -/
inductive CtxLog where
  | mark (value core die clk : Nat)
  | scoreboardDropped (lid addr : Nat)
  | storeFault (team arg : Nat)
  | refusedAccess (va : Nat) (perm : Bool)
  | mailboxLost (block : Nat)
  | lockLost (block state : Nat)
  | signal (lid x y z fib pc : Nat) (word : IWord)
  | sliceKilled (part ns : Nat)
  | haltFired (lid x y z fib pc : Nat) (cxgen : Nat)
  deriving DecidableEq, Repr, Inhabited

/-- A launch block that an object names (R105, R108). -/
structure NamedBlock where
  id : Nat
  name : String
  bytes : List Byte
  deriving DecidableEq, Repr, Inhabited

/-- What a symbol stands for after load (R52, R53): a virtual address, a handle index, or a number. -/
inductive SymVal where
  | va (a : Nat)
  | idx (h : Nat)
  | abs (v : Nat)
  | launch
  deriving DecidableEq, Repr, Inhabited

/-- An armed halt point (R410); `attached` is the launch it stands on. -/
structure HaltPoint where
  req : HaltAt
  attached : Option Nat
  deriving DecidableEq, Repr, Inhabited

/-- The image of a cold context in its tenant's Flask namespace (R409): the encrypted bytes, and their HMAC. -/
structure Image where
  data : List Nat
  mac : Nat
  deriving DecidableEq, Repr, Inhabited

/-- A context (R401); `due` counts the halts whose increment of `CXGEN` still waits (R405), and `debt` is in ns (R406). -/
structure Context where
  tenant : Nat
  part : Nat
  asids : List (Nat × Nat)
  root : Nat
  cwbase : Nat
  keys : List (Nat × Nat)
  table : Map (List Byte)
  regions : Map Region
  queues : Map (List Nat)
  submits : List Submit
  lidNext : Nat
  cxgen : BitVec 8
  due : Nat
  priv : Bool
  missingMode : Nat
  peers : List (Nat × Nat)
  cold : Bool
  destroyed : Bool
  point : Option HaltPoint
  log : List CtxLog
  blocks : List NamedBlock
  entry : Option Nat
  syms : List (String × SymVal)
  stored : List Nat
  flask : Memory
  debt : Nat
  measured : List Nat
  image : Option Image
  deriving DecidableEq, Repr, Inhabited

/-! ### A core, a die, a partition -/

/-- A pending `.comm` update (R255). -/
structure Comm where
  off : Nat
  n : Nat
  fn : Nat
  val : Nat
  deriving DecidableEq, Repr, Inhabited

/-- A fibre whose bytes a Dirty sector holds: which they are, and the argument of its latest store there (R250, R325). -/
structure Writer where
  fib : Nat
  life : Nat
  arg : Nat
  mask : BitVec 64
  deriving DecidableEq, Repr, Inhabited

/-- The state of an L1 sector (R251); Invalid is an absent entry. A Dirty sector keeps what its write-back needs: the context,
the virtual address, the generation under which it was translated (R263) and the fibres that wrote its bytes; and whether an acquire
has passed since its bytes outside `BM` were filled (log 11). -/
inductive L1 where
  | clean (data : List Byte)
  | dirty (bm : BitVec 64) (full acq : Bool) (data : List Byte) (ctx va : Nat) (gen : BitVec 12) (ws : List Writer)
  | updateOnly (ops : List Comm)
  deriving DecidableEq, Repr, Inhabited

/-- A line of the I-cache (R130). -/
structure ILine where
  ctx : Nat
  asid : Nat
  key : Nat
  off : Nat
  gen : Nat
  pa : Nat
  data : List Byte
  deriving DecidableEq, Repr, Inhabited

/-- A TLB entry (R260, R262); `size` is the log2 of the bytes it covers. -/
structure Tlb where
  unit : XUnit
  ctx : Nat
  asid : Nat
  va : Nat
  size : Nat
  pa : Nat
  key : Nat
  gen : BitVec 12
  perms : BitVec 8
  deriving DecidableEq, Repr, Inhabited

/-- An armed watch slot (R354). -/
structure Watch where
  fib : Nat
  sector : Nat
  space : Nat
  changed : Bool
  deriving DecidableEq, Repr, Inhabited

/-- A core (R11, R13, R251, R301). A core that has no entry is as at reset. `l1` holds the sectors of the L1, `hints` the lines of it
that R252 gives up first or last. -/
structure Core where
  clk : Nat
  l1 : Map L1
  hints : Map Hint
  icache : List ILine
  look : List (Nat × Nat)
  hcache : List (Nat × Nat)
  scratch : Memory
  sowner : Map Nat
  watch : Map Watch
  tiles : Map Word
  towner : Map Nat
  wbuf : Memory
  wowner : Map Nat
  tags : Map Tag
  derr : List Nat
  dlog : List (Nat × Nat)
  dover : Nat
  deriving DecidableEq, Repr, Inhabited

/-- A remote copy of a sector (R257), and the fibres that have read the sector at home since it came: to them it may be older than what they
have read (R332). -/
structure RCopy where
  data : List Byte
  seen : List Nat
  deriving DecidableEq, Repr, Inhabited

/-- A die (R11, R257): the Tundish, the remote copies its L2 keeps. -/
structure Die where
  tundish : Memory
  owner : Map Nat
  rcopy : Map RCopy
  deriving DecidableEq, Repr, Inhabited

/-- A partition (R118): its logical quads, the base and the size of its Tundish share by die, in 4 KiB units, when its queues were served
(R124), and whose turn it is, since when and for how long (R403, R406). -/
structure Partition where
  quads : List (Nat × Nat)
  tun : Map (Nat × Nat)
  fifo : Bool
  served : Map Nat
  turn : Option Nat
  since : Nat
  slice : Nat
  deriving DecidableEq, Repr, Inhabited

/-- What a request in flight to a home slice does. -/
inductive HomeOp where
  | write (data : List Byte)
  | red (fn n val : Nat)
  deriving DecidableEq, Repr, Inhabited

/-- A write that its core has not yet performed (R263, R321): on its way to its home slice (`through`), or held on the core behind a
read of its own fibre (R404). `seq` is its place in the fibre's program order; `issued` tells which instruction of the model's run
issued it (R271); `unp` marks a `.unp` update (R351), `sc` the scope of an `.sc` write (R328), `replay` a packet that a halt has saved
(R404). -/
structure HomeReq where
  fib : Nat
  life : Nat
  team : Nat
  core : Nat
  ctx : Nat
  cxgen : BitVec 8
  loc : Loc
  pa : Nat
  key : Nat
  gen : BitVec 12
  hnd : Nat
  op : HomeOp
  through : Bool
  unp : Bool
  sc : Option Scope
  hint : Hint
  seq : Nat
  issued : Nat
  replay : Bool
  deriving DecidableEq, Repr, Inhabited

/-- A reply on its way to a core under the context generation of its request (R405). -/
structure Reply where
  ctx : Nat
  cxgen : BitVec 8
  deriving DecidableEq, Repr, Inhabited

/-! ### The module -/

/-- How far the module is (R433). -/
inductive Boot where
  | off
  | running
  | failed (step : Nat)
  deriving DecidableEq, Repr, Inhabited

/-- A reply of Cupola (R429): the flow it goes back on, its 32-byte header and its payload. -/
structure Answer where
  flow : Nat
  head : List Byte
  data : List Byte
  deriving DecidableEq, Repr, Inhabited

/-- What a port answers to an access of a remote party or to a storage transfer (R430, R432): the bytes read, none of a write, or the
error of its transport; `code` is the `ECODE` that a peer's epoch records for its segment (R285, R293), else 0. -/
structure PortReply where
  storage : Bool
  ctx : Nat
  va : Nat
  data : Option (List Byte)
  code : Nat
  deriving DecidableEq, Repr, Inhabited

/-- Cupola's own logs (R426): release events (R129), binds and refusals (R127), retirements and completions, the module's announcement
(R433), monitors (R434), data errors (R413). -/
inductive SysLog where
  | released (ctx lid no : Nat)
  | bound (ctx lid team : Nat)
  | refused (ctx lid team : Nat)
  | retired (ctx lid no : Nat)
  | completed (ctx lid value : Nat)
  | announced
  | monitor (die : Nat)
  | quadRetired (die quad : Nat)
  | dataError (die core entry : Nat)
  deriving DecidableEq, Repr, Inhabited

/-- The module beyond its dies (R433-R436). `fused` lists the physical quads that fuses mark as failed (R118), by die; `inbox` holds the
requests that wait, in the order in which they came (R431); `store` the bytes of the boot and dataset namespaces that the device has
written (R432); `monitors` and `sensors` what Cupola last read of each die's 48 path-delay monitors and 16 thermal sensors, `failing` the
quads that failed the plan and are still to be retired (R434), `corrected` the count of corrected errors (R436). -/
structure Module where
  boot : Boot
  fused : List (Nat × Nat)
  remap : List (List Nat)
  plan : Nat
  measure : List Nat
  nextCtx : Nat
  nextTeam : Nat
  nextCmd : Nat
  nextReq : Nat
  nextOrder : Nat
  nextBlock : Nat
  answers : List Answer
  inbox : List Instr
  waits : List (Msg × Nat)
  log : List SysLog
  bad : List EccSite
  replies : List Reply
  store : Map (Map Byte)
  xport : List PortReply
  monitors : Map (List Nat)
  sensors : Map (List Nat)
  failing : List (Nat × Nat)
  corrected : Nat
  deriving DecidableEq, Repr, Inhabited

/-- Lanes that issue together (R151), the lane that form_batch chose, and whether they are the second half of a co-issued pair
(R153); the clk in which they issue (R152) and, once they do, the word of their slot. -/
structure Batch where
  team : Nat
  pack : Nat
  pc : Word
  lanes : List Nat
  chosen : Nat
  second : Bool
  clk : Nat
  word : IWord
  deriving DecidableEq, Repr, Inhabited

/-- The device. Contexts are keyed by %ctx, launches by %ctx · 2^32 + %launch, teams by a number of the model, packs by
team · 32 + %pack, fibres by team · 1024 + %fibre, cores by %die · 128 + %core, dies by %die. -/
structure State where
  ctxs : Map Context
  launches : Map Launch
  teams : Map Team
  packs : Map Pack
  fibres : Map Fibre
  ended : Map Ended
  cores : Map Core
  dies : Map Die
  parts : Map Partition
  cmds : Map Cmd
  reqs : Map HomeReq
  tlb : List Tlb
  dram : Memory
  skeys : Map SectorKey
  frames : Map Frame
  mod : Module
  ns : Nat
  tick : Nat
  agenda : List Instr
  issue : List Batch
  cur : Option Batch
  deriving DecidableEq, Repr, Inhabited

/-- A core at reset (R176: its clk counter is 0). -/
def Core.reset : Core :=
  { clk := 0, l1 := [], hints := [], icache := [], look := [], hcache := [], scratch := [], sowner := [], watch := [],
    tiles := [], towner := [], wbuf := [], wowner := [], tags := [], derr := [], dlog := [], dover := 0 }

/-- A die at reset. -/
def Die.reset : Die := { tundish := [], owner := [], rcopy := [] }

/-- The module at power-on: nothing has booted (R433). -/
def Module.reset : Module :=
  { boot := .off, fused := [], remap := [], plan := 0, measure := [], nextCtx := 1, nextTeam := 1, nextCmd := 1, nextReq := 1, nextOrder := 1,
    nextBlock := 1, answers := [], inbox := [], waits := [], log := [], bad := [], replies := [], store := [], xport := [],
    monitors := [], sensors := [], failing := [], corrected := 0 }

/-- The machine right after reset: no context, no team, every cache and queue empty, every counter 0. (DESIGN CHOICE, log 15.) -/
def State.reset : State :=
  { ctxs := [], launches := [], teams := [], packs := [], fibres := [], ended := [], cores := [], dies := [], parts := [], cmds := [],
    reqs := [], tlb := [], dram := [], skeys := [], frames := [], mod := Module.reset, ns := 0, tick := 0,
    agenda := [], issue := [], cur := none }

/-- A fibre at its start (R128, R148, R191): %hsp is NONE, its registers are 0 but those named. -/
def Fibre.start (pc : Word) (regs : Map Word) : Fibre :=
  { pc := pc, st := .ready, halted := false, helper := false, wasAdopt := false, hsp := 0xFFFFFFFF#32, flags := 0,
    regs := regs, pend := [], recent := [], pos := 0, mark := 0, retry := false, xfer := true, came := true, fbuf := none, tok := [],
    tokAcq := [], queues := [], loads := [], qseq := 0, held := none, capMode := false, eff := none, kok := [], kacq := [],
    sfaults := [], late := [], missing := none, retracting := none, launching := none, begun := 0, life := 0 }

/-- A pack at dispatch (R151, R184). -/
def Pack.start : Pack := { masks := [], ptr := 0, lastIssue := none, yielded := [] }

/-- A rendezvous point at dispatch (R128, R198). -/
def RvPoint.start : RvPoint :=
  { init := false, phase := false, expect := 0, arrivedN := 0, drop := false, roles := 0, pend := 0, arrived := [], dropped := [],
    kser := [], kdone := [] }

end Sys2Proof.Machine
end

