-- ==== Sys2Proof/Machine/Mem.lean ====
section
/-!
DEFINITION. Bytes by address (R3): the one canonical form of every memory of the device, reading and writing it. An unlisted
address reads as 0 (DESIGN CHOICE, log 9).
-/
namespace Sys2Proof.Machine

/-- What an address that no entry lists reads as (log 9). -/
def unlisted : Byte := 0

/-- The canonical form: addresses strictly rising, no entry equal to what an unlisted address reads as. -/
def Memory.wf : Memory → Bool
  | [] => true
  | [c] => c.2 != unlisted
  | c :: d :: m => decide (c.1 < d.1) && c.2 != unlisted && Memory.wf (d :: m)

/-- The byte at an address. -/
def Memory.read : Memory → Nat → Byte
  | [], _ => unlisted
  | (b, v) :: m, a => if b = a then v else Memory.read m a

/-- Write one byte, keeping the canonical form. -/
def Memory.write : Memory → Nat → Byte → Memory
  | [], a, x => if x = unlisted then [] else [(a, x)]
  | (b, v) :: m, a, x =>
    if b = a then if x = unlisted then m else (a, x) :: m
    else if a < b then if x = unlisted then (b, v) :: m else (a, x) :: (b, v) :: m
    else (b, v) :: Memory.write m a x

/-- The n bytes from an address. -/
def Memory.reads (m : Memory) (a : Nat) : Nat → List Byte
  | 0 => []
  | n + 1 => m.read a :: m.reads (a + 1) n

/-- Write bytes from an address. -/
def Memory.writes (m : Memory) (a : Nat) : List Byte → Memory
  | [] => m
  | x :: xs => Memory.writes (m.write a x) (a + 1) xs

/-- Set n bytes from an address to 0. -/
def Memory.zero (m : Memory) (a n : Nat) : Memory := m.filter (fun c => c.1 < a || a + n ≤ c.1)

/-- The entries of n bytes from an address, numbered from 0. -/
def Memory.cut (m : Memory) (a n : Nat) : Memory :=
  (m.filter (fun c => a ≤ c.1 && decide (c.1 < a + n))).map (fun c => (c.1 - a, c.2))

/-- Put the entries of a cut back from an address, over n bytes. -/
def Memory.paste (m : Memory) (a n : Nat) (c : Memory) : Memory :=
  c.foldl (fun m e => m.write (a + e.1) e.2) (m.zero a n)

/-- The little-endian number in n bytes at an address (R3). -/
def Memory.nat (m : Memory) (a n : Nat) : Nat := leNat (m.reads a n)

end Sys2Proof.Machine
end

