-- ==== Sys2Proof/Machine/Regs.lean ====
section
/-!
DEFINITION. Names of the parts of the state, and the register file with its latency contract (R148, R155-R157, R162): which
writes a read may return, and which it must.
-/
namespace Sys2Proof.Machine

/-! ### Parts of the state -/

/-- The key of a fibre: its team and its %fibre. -/
def fibKey (team fib : Nat) : Nat := team * 1024 + fib
/-- The team of a fibre's key. -/
def fibTeam (f : Nat) : Nat := f / 1024
/-- The %fibre of a fibre's key (R67). -/
def fibNum (f : Nat) : Nat := f % 1024
/-- The lane of a fibre's key. -/
def fibLane (f : Nat) : Nat := f % 32
/-- The key of a fibre's pack. -/
def fibPack (f : Nat) : Nat := f / 32
/-- The key of a launch. -/
def launchKey (ctx lid : Nat) : Nat := ctx * 2 ^ 32 + lid
/-- The key of a core (R67: %die and %core). -/
def coreKey (die core : Nat) : Nat := die * 128 + core
/-- The key of lane L's fibre in a batch. -/
def Batch.fib (b : Batch) (l : Nat) : Nat := fibKey b.team (b.pack * 32 + l)
/-- A batch as the grouping stage forms it. -/
def Batch.formed (team pack : Nat) (pc : Word) (lanes : List Nat) (chosen clk : Nat) : Batch :=
  { team := team, pack := pack, pc := pc, lanes := lanes, chosen := chosen, second := false, clk := clk, word := 0 }

namespace State

/-- A free choice among n (Config.pick). -/
def pick (s : State) (salt n : Nat) : Nat := Config.pick s.tick salt % n

def fibre? (s : State) (f : Nat) : Option Fibre := mapGet s.fibres f
/-- A fibre; the start state of a fibre where the lane is empty. -/
def fibre (s : State) (f : Nat) : Fibre := mapGetD s.fibres f (Fibre.start 0 [])
def setFibre (s : State) (f : Nat) (x : Fibre) : State := { s with fibres := mapSet s.fibres f x }
def modFibre (s : State) (f : Nat) (g : Fibre → Fibre) : State := { s with fibres := mapMod s.fibres f g }

def team? (s : State) (t : Nat) : Option Team := mapGet s.teams t
def team (s : State) (t : Nat) : Team := mapGetD s.teams t default
def modTeam (s : State) (t : Nat) (g : Team → Team) : State := { s with teams := mapMod s.teams t g }

def pack (s : State) (p : Nat) : Pack := mapGetD s.packs p Pack.start
def modPack (s : State) (p : Nat) (g : Pack → Pack) : State := { s with packs := mapModD s.packs p Pack.start g }

def launch? (s : State) (k : Nat) : Option Launch := mapGet s.launches k
def launch (s : State) (k : Nat) : Launch := mapGetD s.launches k default
def modLaunch (s : State) (k : Nat) (g : Launch → Launch) : State := { s with launches := mapMod s.launches k g }

def ctx? (s : State) (c : Nat) : Option Context := mapGet s.ctxs c
def ctx (s : State) (c : Nat) : Context := mapGetD s.ctxs c default
def modCtx (s : State) (c : Nat) (g : Context → Context) : State := { s with ctxs := mapMod s.ctxs c g }

def core (s : State) (c : Nat) : Core := mapGetD s.cores c Core.reset
def modCore (s : State) (c : Nat) (g : Core → Core) : State := { s with cores := mapModD s.cores c Core.reset g }

def die (s : State) (d : Nat) : Die := mapGetD s.dies d Die.reset
def modDie (s : State) (d : Nat) (g : Die → Die) : State := { s with dies := mapModD s.dies d Die.reset g }

def modMod (s : State) (g : Module → Module) : State := { s with mod := g s.mod }

/-- The team of a fibre. -/
def teamOf (s : State) (f : Nat) : Team := s.team (fibTeam f)
/-- The core key of a fibre. -/
def coreOf (s : State) (f : Nat) : Nat := coreKey (s.teamOf f).die (s.teamOf f).core
/-- The launch of a team. -/
def launchOfTeam (s : State) (t : Nat) : Launch := s.launch (launchKey (s.team t).ctx (s.team t).lid)
/-- The launch block of a fibre's team. -/
def blockOf (s : State) (f : Nat) : Block := (s.launchOfTeam (fibTeam f)).blk
/-- The place in a fibre's program order that its next memory access takes (R331). -/
def nextSeq (s : State) (f : Nat) : Nat := (s.fibre f).qseq

/-- The context of a fibre. -/
def ctxOf (s : State) (f : Nat) : Nat := (s.teamOf f).ctx

end State

/-- A log record of a context (R426). -/
def State.logCtx (s : State) (c : Nat) (r : CtxLog) : State := s.modCtx c (fun x => { x with log := x.log ++ [r] })

/-- A team is failed, and its launch counts it once (R421, R427). -/
def State.failTeam (s : State) (t : Nat) : State :=
  if (s.team t).failed then s
  else (s.modTeam t (fun x => { x with failed := true })).modLaunch (launchKey (s.team t).ctx (s.team t).lid) (fun L =>
    { L with failed := L.failed + 1 })

/-! ### Roles (R67, R97) -/

/-- The role of a pack: packs are numbered across roles in the order COPY, MATRIX, EPILOGUE, GENERAL (R67). -/
def roleOfPack : List RoleRec → Nat → Nat → Nat
  | [], _, i => i
  | r :: rs, p, i => if p < r.packs then i else roleOfPack rs (p - r.packs) (i + 1)

/-- The role number of a fibre (R67). -/
def State.roleOf (s : State) (f : Nat) : Nat := roleOfPack (s.blockOf f).roles (fibNum f / 32) 0
/-- The role record of a fibre. -/
def State.roleRec (s : State) (f : Nat) : RoleRec := (s.blockOf f).roles.getD (s.roleOf f) default
/-- The register budget of a fibre (R70). -/
def State.budget (s : State) (f : Nat) : Nat := (s.roleRec f).regs
/-- The packs of a launch block (R97). -/
def Block.packs (b : Block) : Nat := (b.roles.map (·.packs)).sum

/-! ### Register numbers -/

/-- The number of g register i. -/
def rG (i : Nat) : Nat := i
/-- The number of p register i. -/
def rP (i : Nat) : Nat := 128 + i
/-- The number of c register i. -/
def rC (i : Nat) : Nat := 144 + i
/-- The number of k register i. -/
def rK (i : Nat) : Nat := 160 + i
/-- The number of m register i. -/
def rM (i : Nat) : Nat := 224 + i

/-! ### The latency contract (R155) -/

/-- Whether a write is guaranteed to the instruction at position n, when the last switch-marked instruction stood at `mark`
(R154, R155). (DEDUCED, log 12.) -/
def RegWrite.guaranteed (w : RegWrite) (n mark : Nat) : Bool :=
  match w.cls with
  | .a => decide (w.pos + 2 ≤ n) || decide (w.pos < mark)
  | .b => decide (w.pos + 4 ≤ n) || decide (w.pos < mark)
  | .v => decide (w.pos < mark)

namespace Fibre

/-- A guaranteed write becomes the register's value, and no older write to the register can be read again (R155, R156). -/
def absorb (f : Fibre) (w : RegWrite) : Fibre :=
  if 224 ≤ w.reg then f
  else if w.reg < 160 then { f with regs := mapSet f.regs w.reg w.val }
  else { f with kok := if f.kok.contains w.serial then f.kok else w.serial :: f.kok }

/-- Take in the writes of a list that pass a test, in position order; the others stay, but those to a register taken in since. -/
def settleWith (p : RegWrite → Bool) : List RegWrite → List RegWrite → Fibre → Fibre
  | [], kept, f => { f with pend := kept }
  | w :: ws, kept, f =>
    if p w then settleWith p ws (kept.filter (fun x => x.reg != w.reg)) (f.absorb w)
    else settleWith p ws (kept ++ [w]) f

/-- Take in every write guaranteed at position n. -/
def settle (f : Fibre) (n : Nat) : Fibre := settleWith (fun w => w.guaranteed n f.mark) f.pend [] f

/-- Every result arrives, and the next instruction is as if it carried a switch marker (R154, R157). -/
def arriveAll (f : Fibre) : Fibre :=
  let f := settleWith (fun _ => true) f.pend [] f
  { f with kok := f.kacq ++ f.kok, kacq := [], mark := f.pos + 1 }

/-- The writes to register r whose values are fixed: an LD's is once its read is performed (R321). -/
def fixedWrites (f : Fibre) (r : Nat) : List RegWrite := f.pend.filter (fun w => w.reg == r && w.load.isNone)

/-- The values a read of register r may return: the guaranteed one and every later one (R155). p0 reads 1. -/
def cands (f : Fibre) (r : Nat) : List Word := if r = 128 then [1] else mapGetD f.regs r 0 :: (f.fixedWrites r).map (·.val)

/-- The value of the newest write to register r. -/
def latest (f : Fibre) (r : Nat) : Word := (f.cands r).getLastD 0

/-- Whether a read of register r is early (R158): the fibre's latest write to it lies inside its distance, or is of Class V
with no switch-marked instruction since. -/
def early (f : Fibre) (r : Nat) : Bool :=
  f.recent.any (fun e => e.1 == r && decide (f.pos < e.2)) ||
    ((f.pend.filter (fun w => w.reg == r)).getLast?.map (fun w => w.cls == .v && decide (f.mark ≤ w.pos))).getD false

/-- Note for R158 that register r is written at the fibre's position: the first position outside the distance of R155. -/
def note (f : Fibre) (cls : Cls) (r : Nat) : Fibre :=
  let rest := f.recent.filter (fun e => e.1 != r && decide (f.pos < e.2))
  { f with recent := match cls with
      | .a => rest ++ [(r, f.pos + 2)]
      | .b => rest ++ [(r, f.pos + 4)]
      | .v => rest }

/-- Results not yet arrived: Class B and Class V writes (R154). -/
def outstanding (f : Fibre) : Bool := f.pend.any (fun w => w.cls != .a && !w.arrived)

/-- Write register r as the result of the instruction at the fibre's position; a write to p0 is discarded (R69). -/
def put (f : Fibre) (cls : Cls) (r : Nat) (v : Word) : Fibre :=
  if r = 128 then f
  else { f.note cls r with pend := f.pend ++ [{ reg := r, val := v, pos := f.pos, cls := cls, arrived := false, serial := 0,
                                                 old := 0, load := none }] }

/-- Write register r by the device, in place of every older write (R156). -/
def force (f : Fibre) (r : Nat) (v : Word) : Fibre :=
  if r = 128 then f else { f with regs := mapSet f.regs r v, pend := f.pend.filter (fun w => w.reg != r),
                                     recent := f.recent.filter (fun e => e.1 != r) }

/-- The predicate word (R172). -/
def predWord (f : Fibre) : Word :=
  (List.range 16).foldl (fun a i => if f.latest (rP i) != 0 then a ||| BitVec.ofNat 32 (2 ^ i) else a) 0

/-- Set the predicate word (R387). -/
def setPred (f : Fibre) (w : Word) : Fibre :=
  (List.range 16).foldl (fun f i => f.force (rP i) (if w.getLsbD i then 1 else 0)) f

/-- Set g registers from number i on. -/
def forceFrom (f : Fibre) (i : Nat) : List Word → Fibre
  | [] => f
  | w :: ws => (f.force (rG i) w).forceFrom (i + 1) ws

/-- The newest values of n g registers from number i on. -/
def latestFrom (f : Fibre) (i : Nat) : Nat → List Word
  | 0 => []
  | n + 1 => f.latest (rG i) :: f.latestFrom (i + 1) n

/-- Whether the g register's token has a non-zero pending count (R159). -/
def tokPending (f : Fibre) (r : Nat) : Bool := mapHas f.tok r

/-- Whether the fibre holds its lane as a live fibre. -/
def alive (f : Fibre) : Bool := f.st != .exited

end Fibre

/-! ### k registers (R68, R155, R162) -/

/-- Put a write behind the writes of its register; one over which another prevails stands before the last of them (R162). -/
def kInsert (h : List KWrite) (w : KWrite) : List KWrite := if w.lost then h.dropLast ++ w :: h.drop (h.length - 1) else h ++ [w]

/-- The writes of k register i of a team, in the order in which their values stand in it. -/
def State.kHist (s : State) (t i : Nat) : List KWrite := ((s.team t).k.filter (fun w => w.reg == i)).foldl kInsert []

/-- The values fibre f may read of k register i: the latest write guaranteed to it, or the initial 0, and every later write. -/
def State.kCands (s : State) (f : Nat) (i : Nat) : List Word :=
  let hist := s.kHist (fibTeam f) i
  let known := hist.filter (fun w => (s.fibre f).kok.contains w.serial)
  match known.getLast? with
  | none => 0 :: hist.map (·.val)
  | some g => (hist.dropWhile (fun w => w.serial != g.serial)).map (·.val)

/-- The newest value of k register i of a team. -/
def State.kLatest (s : State) (t : Nat) (i : Nat) : Word := ((s.kHist t i).getLast?.map (·.val)).getD 0

/-- The write of k register i that stands newest, where a batch of another pack made it in the batch's clk (R162). -/
def State.kRival (s : State) (b : Batch) (i : Nat) : Option KWrite :=
  (s.kHist b.team i).getLast?.filter (fun w => w.clk == some b.clk && w.pack != b.pack)

/-- A batch writes k register i: the value joins the team's history, with the class of its producer for every fibre of the
batch (R162). Which value prevails over another pack's of the same clk is a free choice, one for all the registers of a write. (DESIGN
CHOICE, log 1.) -/
def State.putK (s : State) (b : Batch) (f : Nat) (cls : Cls) (i : Nat) (v : Word) : State :=
  let ser := (s.team b.team).kser
  let lost := (s.kRival b i).isSome && s.pick (4096 + b.pack) 2 == 1
  let s := s.modTeam b.team (fun t =>
    { t with k := t.k ++ [{ reg := i, val := v, serial := ser, by_ := f, clk := some b.clk, pack := b.pack, lost := lost }], kser := ser + 1 })
  b.lanes.foldl (fun s l => s.modFibre (b.fib l) (fun x =>
    { x.note cls (rK i) with pend := x.pend ++ [{ reg := rK i, val := v, pos := x.pos, cls := cls, arrived := false, serial := ser,
                                                   old := 0, load := none }] })) s

/-- The serial numbers of the k writes that a fibre made (R155: what its arrival at a rendezvous passes on). The writer of a batch's write is
the fibre of the lane whose value is written. (DEDUCED, log 81.) -/
def State.kBy (s : State) (f : Nat) : List Nat := ((s.teamOf f).k.filter (fun w => w.by_ == f)).map (·.serial)

/-- The values fibre f may read of m register i: what its own recent writes replaced, what they wrote, and the mask as it stands
(R155, R185). -/
def State.mCands (s : State) (f i : Nat) : List Word :=
  ((s.fibre f).pend.filter (fun w => w.reg == rM i)).flatMap (fun w => [w.old, w.val]) ++ [mapGetD (s.pack (fibPack f)).masks i 0]

/-- Write m register i of a batch's pack (R184): Class A for every fibre of the batch (R185), those whose guard is false with them; the
pack's other fibres see the new mask at once. (DESIGN CHOICE, log 82.) -/
def State.putM (s : State) (b : Batch) (i : Nat) (v : Word) : State :=
  let p := b.team * 32 + b.pack
  let old := mapGetD (s.pack p).masks i 0
  let s := s.modPack p (fun x => { x with masks := mapSet x.masks i v })
  b.lanes.foldl (fun s l => s.modFibre (b.fib l) (fun x =>
    { x.note .a (rM i) with pend := x.pend ++ [{ reg := rM i, val := v, pos := x.pos, cls := .a, arrived := false, serial := 0,
                                                  old := old, load := none }] })) s

/-- A read of register number r by fibre f: one of the values the contract allows. (DESIGN CHOICE, log 1.) -/
def State.readReg (s : State) (f r salt : Nat) : Word :=
  let cs := if 224 ≤ r then s.mCands f (r - 224) else if 160 ≤ r then s.kCands f (r - 160) else (s.fibre f).cands r
  match cs with
  | [v] => v
  | _ => cs.reverse.getD (s.pick salt cs.length) 0

end Sys2Proof.Machine
end

