-- ==== Sys2Proof/Machine/Access.lean ====
section
/-!
DEFINITION. Reaching memory: handle entries (R85-R92), the checks of an access (R248-R250), translation (R258-R262), home
(R256, R263, R268), the L1 and the remote copies (R251-R257), release and acquire (R325, R326), and the on-chip spaces (R246).
-/
namespace Sys2Proof.Machine

/-! ### Effects (R390) and their arguments -/

namespace Eff
def isaIllegal : Nat := 0x001
def isaMissing : Nat := 0x002
def isaPriv : Nat := 0x003
def codeUnadopted : Nat := 0x010
def codeRetracted : Nat := 0x011
def codeBadtarget : Nat := 0x012
def codeMalformed : Nat := 0x013
def codeParity : Nat := 0x014
def codeEnd : Nat := 0x015
def memBounds : Nat := 0x020
def memScratch : Nat := 0x021
def memPerm : Nat := 0x022
def memNonres : Nat := 0x023
def memStorefault : Nat := 0x024
def memAlign : Nat := 0x025
def memStack : Nat := 0x026
def memHandle : Nat := 0x027
def syncDeadlock : Nat := 0x030
def capLimit : Nat := 0x032
def capIllegal : Nat := 0x033
def tokenDead : Nat := 0x040
def latHazard : Nat := 0x050
def debug : Nat := 0x060
end Eff

/-- An effect and its argument. -/
structure Err where
  eff : Nat
  arg : Nat
  deriving DecidableEq, Repr, Inhabited

/-- The argument of a MEM effect other than MEM.SCRATCH (R250). -/
def marg (h : Nat) (addr : Int) : Nat := h * 2 ^ 52 + unsign addr 52
/-- The argument of MEM.SCRATCH before its lane mask (R250). -/
def sarg (h cause : Nat) : Nat := h * 2 ^ 20 + cause * 2 ^ 16
/-- The argument of a CODE effect (R133). -/
def codeArg (off rgn gen : Nat) : Nat := gen % 2 ^ 16 * 2 ^ 44 + rgn % 2 ^ 12 * 2 ^ 32 + off % 2 ^ 32
/-- The argument of SYNC.DEADLOCK (R205). -/
def dlArg (obj reason : Nat) : Nat := reason * 256 + obj

/-! ### Handle entries (R85-R92) -/

/-- A handle entry (R86); `ext` is the entry after it, which a tensor needs (R89). -/
structure Entry where
  raw : List Byte
  ext : List Byte
  deriving DecidableEq, Repr, Inhabited

namespace Entry
def kind (e : Entry) : Nat := fieldAt e.raw 14 1 % 16
def canRead (e : Entry) : Bool := bit (fieldAt e.raw 14 1) 4
def canWrite (e : Entry) : Bool := bit (fieldAt e.raw 14 1) 5
def canFetch (e : Entry) : Bool := bit (fieldAt e.raw 14 1) 6
def canAtom (e : Entry) : Bool := bit (fieldAt e.raw 14 1) 7
def pol (e : Entry) : Nat := fieldAt e.raw 15 1
/-- The L1 policy of an entry, and `RC` (R86): those of a kind to which `POL` applies (R87). -/
def policy (e : Entry) : Nat := if e.kind = 1 ∨ e.kind = 7 then e.pol % 4 else 0
def remote (e : Entry) : Bool := decide (e.kind = 1 ∨ e.kind = 7) && bit e.pol 2
def base (e : Entry) : Nat := fieldAt e.raw 0 8
def len (e : Entry) : Nat := fieldAt e.raw 8 6
/-- `LINES` of a code entry (R92). -/
def lines (e : Entry) : Nat := fieldAt e.raw 20 4
/-- `FMT` of a tensor (R89). -/
def fmt (e : Entry) : Nat := fieldAt e.raw 16 1
def space (e : Entry) : Nat := fieldAt e.raw 17 1 / 16
def rank (e : Entry) : Nat := fieldAt e.raw 17 1 % 8
def scale (e : Entry) : Nat := fieldAt e.raw 18 2 % 4096
def dim (e : Entry) (i : Nat) : Nat := if i < 3 then fieldAt e.raw (20 + 4 * i) 4 else fieldAt e.ext 0 4
def stride (e : Entry) (i : Nat) : Nat := fieldAt e.ext (16 + 4 * i) 4
/-- The element size of a tensor format (R89). -/
def elem (e : Entry) : Nat :=
  match e.fmt with
  | 0 => 1 | 1 => 1 | 2 => 2 | 3 => 2 | _ => 4
/-- A tensor entry is valid (R89). -/
def tensorOk (e : Entry) : Bool :=
  let dims := List.range e.rank
  decide (e.fmt ≤ 5) && decide (1 ≤ e.space ∧ e.space ≤ 5) && decide (1 ≤ e.rank ∧ e.rank ≤ 4) &&
    dims.all (fun i => decide (1 ≤ e.dim i ∧ e.dim i ≤ 2 ^ 31)) && (List.range 4).all (fun i => e.stride i % e.elem == 0) &&
    fieldAt e.ext 14 1 == 8 && decide (e.pol < 8) && decide ((dims.map (fun i => (e.dim i - 1) * e.stride i)).sum + e.elem ≤ e.len) &&
    (decide (2 ≤ e.fmt) || e.scale != 0) &&
    !bit (fieldAt e.raw 17 1) 3 && fieldAt e.raw 18 2 / 4096 == 0 && fieldAt e.ext 15 1 == 0 && fieldAt e.ext 4 10 == 0
/-- A code entry is valid (R92), its base inside the code window and its lines as many as a region may have. (DEDUCED, log 74.) -/
def codeOk (e : Entry) : Bool :=
  e.base % 64 == 0 && decide (e.base < 2 ^ 32) && e.len == 64 * e.lines && decide (1 ≤ e.lines ∧ e.lines ≤ 65536) && e.canFetch
/-- The space an entry selects (R246): 1 global, 2 lane, 3 core, 4 quad, 5 die, 6 code; none where step 1 of R248 refuses any
use of the entry (R87, R89, R92). -/
def spaceOf (e : Entry) : Option Nat :=
  match e.kind with
  | 1 => if e.pol % 4 = 3 then none else some 1
  | 2 => if e.pol = 0 then some 2 else none
  | 3 => if e.pol = 0 then some 3 else none
  | 4 => if e.pol = 0 then some 4 else none
  | 5 => if e.pol = 0 then some 5 else none
  | 6 => if e.codeOk then some 6 else none
  | 7 => if e.tensorOk && e.pol % 4 != 3 then some e.space else none
  | _ => none
/-- The space whose address `MADDR` is (R250): that of the entry's kind (R246), valid or not. -/
def kindSpace (e : Entry) : Nat := if e.kind = 7 then e.space else e.kind
end Entry

/-- The 32 bytes of an entry (R86). -/
def entryBytes (base len perm pol : Nat) : List Byte :=
  leBytes 8 base ++ leBytes 6 len ++ [BitVec.ofNat 8 perm, BitVec.ofNat 8 pol] ++ List.replicate 16 0

namespace State

/-- The stored bytes of entry h of a context; an entry never written reads as `KIND` 0, and so does 4095 (R85). -/
def rawEntry (s : State) (c h : Nat) : List Byte :=
  if h < 5 ∨ 4094 < h then List.replicate 32 0 else mapGetD (s.ctx c).table h (List.replicate 32 0)

/-- The fixed handles (R88). h0's `LEN` of 2^52 is past the 48-bit field of R86, which holds 0 here; nothing checks it. (DESIGN CHOICE,
log 88.) -/
def fixedEntry (s : State) (f h : Nat) : List Byte :=
  let b := s.blockOf f
  match h with
  | 0 => entryBytes 0 0 0xB1 0
  | 1 => entryBytes 0 b.lane 0xB2 0
  | 2 => entryBytes 0 b.scratch 0xB3 0
  | 3 => entryBytes 0 (4 * 262144) 0xB4 0
  | _ => entryBytes 0 b.tundish 0xB5 0

/-- Entry h of a context's table, with the entry after it, which extends a tensor (R89). -/
def entryIn (s : State) (c h : Nat) : Entry :=
  { raw := s.rawEntry c h, ext := if h < 4094 then s.rawEntry c (h + 1) else [] }

/-- Entry h as fibre f names it. -/
def entry (s : State) (f h : Nat) : Entry :=
  if h < 5 then { raw := s.fixedEntry f h, ext := [] } else s.entryIn (s.ctxOf f) h

/-- An access through entry h brings it into the core's handle cache (R105). The cached copy always equals the table, because
every write of an entry drops it. -/
def touchHandle (s : State) (f h : Nat) : State :=
  if h < 5 then s
  else
    let key := (s.ctxOf f, h)
    if (s.core (s.coreOf f)).hcache.contains key then s
    else s.modCore (s.coreOf f) (fun c => { c with hcache := (key :: c.hcache).take 256 })

/-- The bound team of a quad group that member index m names (R116, R247). -/
def partner (s : State) (t m : Nat) : Option Nat :=
  let T := s.team t
  let n := 2 ^ (s.launchOfTeam t).blk.qgroup
  if n ≤ m then none
  else if m = T.x % n then some t
  else
    (s.teams.find? (fun e => e.2.ctx == T.ctx && e.2.lid == T.lid && e.2.y == T.y && e.2.z == T.z &&
      e.2.x == T.x / n * n + m)).map (·.1)

/-- The team of a quad group that member index m names, when it is present: bound and not halted, or the issuing team (R247, R407). -/
def member (s : State) (t m : Nat) : Option Nat :=
  match s.partner t m with
  | none => none
  | some u => if u = t ∨ ((s.team u).halted = false ∧ (s.team u).saved = none) then some u else none

end State

/-! ### The checks of an access (R248) -/

/-- What an access asks for. -/
structure Want where
  spaces : List Nat
  n : Nat
  align : Nat
  rd : Bool := false
  wr : Bool := false
  at_ : Bool := false
  deriving DecidableEq, Repr, Inhabited

/-- What the checks find: the place, the L1 policy (R252) and `RC` (R257), and the code region a store goes through. -/
structure Acc where
  loc : Loc
  pol : Nat
  rc : Bool
  code : Option Nat
  hnd : Nat
  final : Int
  deriving DecidableEq, Repr, Inhabited

/-- An address as a location of the virtual space. One outside it translates to nothing (R258), and keeps the bits that `MADDR`
shows (R250). -/
def globLoc (a : Int) : Loc := .glob (if 0 ≤ a ∧ a < 2 ^ 52 then a.toNat else 2 ^ 64 + unsign a 52)

namespace State

/-- Whether n bytes of CORE space from an offset meet the team's spill area (R139, R249). -/
def inSpill (s : State) (t : Nat) (off n : Int) : Bool :=
  match (s.team t).spill with
  | none => false
  | some (a, k) => decide (off < ((a + 8 * k : Nat) : Int) ∧ (a : Int) < off + n)

/-- Step 4 of R248 in the on-chip spaces (R249), at offset `off` of the handle and offset `fin` of the space. -/
def onchipBounds (s : State) (f h space : Nat) (e : Entry) (off fin n : Int) : Option Err :=
  let b := s.blockOf f
  let len : Int := e.len
  let scr (cause : Nat) : Option Err := some { eff := Eff.memScratch, arg := sarg h cause }
  match space with
  | 2 =>
    if off < 0 then some { eff := Eff.memStack, arg := marg h fin }
    else if len < off + n then scr 0
    else if (b.lane : Int) < fin + n then scr 1
    else none
  | 3 =>
    if off < 0 ∨ len < off + n then scr 0
    else if (b.scratch : Int) < fin + n then scr 1
    else if s.inSpill (fibTeam f) fin n then scr 2
    else none
  | 4 =>
    if off < 0 ∨ len < off + n then scr 0
    else if (2 ^ 20 : Int) ≤ fin then scr 1
    else
      match s.member (fibTeam f) (fin.toNat / 2 ^ 18) with
      | none => scr 3
      | some m => if (s.launchOfTeam m).blk.quadexp < fin.toNat % 2 ^ 18 + n.toNat then scr 1 else none
  | _ =>
    if off < 0 ∨ len < off + n then scr 0
    else if (b.tundish : Int) < fin + n then scr 1
    else none

/-- The final address or offset of R248. -/
def finalAddr (s : State) (f : Nat) (h : Nat) (e : Entry) (space : Nat) (off : Int) : Int :=
  if h = 0 then off
  else if space = 6 then (s.ctx (s.ctxOf f)).cwbase + e.base + off
  else if 1 ≤ space ∧ space ≤ 5 then e.base + off
  else off

/-- The argument of step 1 of R248: the final address or offset of an entry whose kind or form is refused (R250). -/
def kindArg (s : State) (f h : Nat) (off : Int) : Nat := marg h (s.finalAddr f h (s.entry f h) (s.entry f h).kindSpace off)

/-- Steps 1 to 4 of R248 for an access of fibre f through entry h at effective offset `off`. -/
def check (s : State) (f h : Nat) (off : Int) (w : Want) : Except Err Acc :=
  let e := s.entry f h
  match e.spaceOf with
  | none => .error { eff := Eff.memHandle, arg := s.kindArg f h off }
  | some space =>
    let fin := s.finalAddr f h e space off
    if !w.spaces.contains space then .error { eff := Eff.memHandle, arg := marg h fin }
    else if fin % w.align != 0 then .error { eff := Eff.memAlign, arg := marg h fin }
    else if h != 0 && ((w.rd && !e.canRead) || (w.wr && !e.canWrite) || (w.at_ && !e.canAtom)) then
      .error { eff := Eff.memPerm, arg := marg h fin }
    else
      let acc (loc : Loc) : Acc :=
        { loc := loc, pol := e.policy, rc := e.remote, code := if space = 6 then some h else none, hnd := h, final := fin }
      if space = 1 ∨ space = 6 then
        if h != 0 && (decide (off < 0) || decide ((e.len : Int) < off + w.n)) then
          .error { eff := Eff.memBounds, arg := marg h fin }
        else .ok (acc (globLoc fin))
      else
        match s.onchipBounds f h space e off fin w.n with
        | some err => .error err
        | none =>
          .ok (acc (match space with
            | 2 => .lane fin.toNat
            | 3 => .core fin.toNat
            | 4 => .quad fin.toNat
            | _ => .die fin.toNat))

end State

/-! ### Watch slots (R354) -/

/-- The number of an on-chip store in watch slots: 0 is DRAM. -/
def scratchSpace (core : Nat) : Nat := 1 + core
def tundishSpace (die : Nat) : Nat := 100000 + die

/-- A write to a 64-byte sector marks the watch slots on it. -/
def State.touchWatch (s : State) (space sector : Nat) : State :=
  { s with cores := mapAll s.cores (fun _ c =>
      { c with watch := mapAll c.watch (fun _ w => if w.space = space ∧ w.sector = sector then { w with changed := true } else w) }) }

/-- Mark every sector that n bytes from an offset touch. -/
def State.touchRange (s : State) (space off n : Nat) : State :=
  (List.range' (off / 64) ((off + n + 63) / 64 - off / 64)).foldl (fun s k => s.touchWatch space k) s

/-! ### The on-chip spaces (R246, R247) -/

/-- A storage place on the chip, or in the state that a halt has saved (R407). -/
inductive Place where
  | scratch (core off : Nat)
  | tundish (die off : Nat)
  | saved (team : Nat) (tun : Bool) (off : Nat)
  deriving DecidableEq, Repr, Inhabited

namespace State

/-- A byte of a team's scratchpad allocation, numbered from its start. -/
def ownScratch (s : State) (t off : Nat) : Place :=
  if (s.team t).saved.isSome then .saved t false off
  else .scratch (coreKey (s.team t).die (s.team t).core) ((s.team t).brec.spBase * 256 + off)

/-- A byte of a team's Tundish allocation. -/
def ownTundish (s : State) (t off : Nat) : Place :=
  if (s.team t).saved.isSome then .saved t true off else .tundish (s.team t).die ((s.team t).brec.tdBase * 4096 + off)

/-- Where the lane slice of a fibre begins in its team's scratchpad allocation (R126). -/
def laneOff (s : State) (f : Nat) : Nat := (s.blockOf f).scratch + (s.blockOf f).quadexp + (s.blockOf f).lane * fibNum f

/-- The storage place of an on-chip location that fibre f names, where `who` finds the members of its quad group. -/
def placeBy (s : State) (who : Nat → Option Nat) (f : Nat) : Loc → Option Place
  | .lane off => some (s.ownScratch (fibTeam f) (s.laneOff f + off))
  | .core off => some (s.ownScratch (fibTeam f) off)
  | .quad off => (who (off / 2 ^ 18)).map (fun m => s.ownScratch m ((s.launchOfTeam m).blk.scratch + off % 2 ^ 18))
  | .die off => some (s.ownTundish (fibTeam f) off)
  | .glob _ => none

/-- The storage place of an on-chip location for an access at issue: its quad-group member is present (R247). -/
def place (s : State) (f : Nat) (loc : Loc) : Option Place := s.placeBy (s.member (fibTeam f)) f loc

/-- The storage place of an access that passed its checks at issue: its member may have been halted since (R404). -/
def issuedPlace (s : State) (f : Nat) (loc : Loc) : Option Place := s.placeBy (s.partner (fibTeam f)) f loc

def placeRead (s : State) (n : Nat) : Place → List Byte
  | .scratch c off => (s.core c).scratch.reads off n
  | .tundish d off => (s.die d).tundish.reads off n
  | .saved t tun off =>
    match (s.team t).saved with
    | some v => (if tun then v.tundish else v.scratch).reads off n
    | none => List.replicate n 0

def placeWrite (s : State) (bs : List Byte) : Place → State
  | .scratch c off =>
    (s.modCore c (fun x => { x with scratch := x.scratch.writes off bs })).touchRange (scratchSpace c) off bs.length
  | .tundish d off =>
    (s.modDie d (fun x => { x with tundish := x.tundish.writes off bs })).touchRange (tundishSpace d) off bs.length
  | .saved t tun off =>
    s.modTeam t (fun x => { x with saved := x.saved.map (fun v =>
      if tun then { v with tundish := v.tundish.writes off bs } else { v with scratch := v.scratch.writes off bs }) })

/-- n bytes of fibre f's lane slice (h1). -/
def laneRead (s : State) (f off n : Nat) : List Byte := s.placeRead n (s.ownScratch (fibTeam f) (s.laneOff f + off))
/-- A little-endian field of fibre f's lane slice. -/
def laneNat (s : State) (f off n : Nat) : Nat := leNat (s.laneRead f off n)
/-- Write bytes of fibre f's lane slice. -/
def laneWrite (s : State) (f off : Nat) (bs : List Byte) : State :=
  s.placeWrite bs (s.ownScratch (fibTeam f) (s.laneOff f + off))

end State

/-! ### Translation (R258-R262) -/

/-- A page-table leaf (R259). -/
structure Leaf where
  pte : Nat
  pa : Nat
  size : Nat
  key : Nat
  gen : BitVec 12
  perms : BitVec 8
  deriving DecidableEq, Repr, Inhabited

/-- A table entry is valid (R259). -/
def pteValid (p : Nat) (level : Nat) : Bool :=
  bit p 0 && bits p 15 10 == 0 && bits p 47 40 == 0 && bits p 63 57 == 0 && bits p 95 76 == 0 &&
    !(level == 0 && bit p 1) && !(level == 1 && bit p 1 && bits p 27 16 != 0)

/-- The bits of a PTE that an access is checked against: V L RES R W X A D (R259). -/
def ptePerms (p : Nat) : BitVec 8 := BitVec.ofNat 8 (p % 256)

/-- Walk one level: the virtual address bits that index it, and the levels below (R258). -/
def walkGo (dram : Memory) (va : Nat) : List (Nat × Nat) → Nat → Option Leaf
  | [], _ => none
  | (level, shift) :: rest, table =>
    let pteAddr := table + va / 2 ^ shift % 4096 * 16
    let p := dram.nat pteAddr 16
    if !pteValid p level then none
    else if bit p 1 then
      some { pte := pteAddr, pa := bits p 39 16 * 2 ^ 16 + va % 2 ^ shift, size := shift, key := bits p 56 48,
             gen := BitVec.ofNat 12 (bits p 75 64), perms := ptePerms p }
    else walkGo dram va rest (bits p 39 16 * 2 ^ 16)

/-- The walk of a virtual address of a context, read at home (R258, R262). (DEDUCED, log 42.) -/
def State.walk (s : State) (c va : Nat) : Option Leaf :=
  if 2 ^ 52 ≤ va then none else walkGo s.dram va [(0, 40), (1, 28), (2, 16)] (s.ctx c).root

/-- Why a translated access is not performed: the translation fails (R261), or home refuses again and the retry repeats (R263). -/
inductive XErr where
  | bounds | perm | nonres | held
  deriving DecidableEq, Repr, Inhabited

/-- What a translation is for (R261). -/
inductive XFor where
  | read | write | atomic | fetch
  deriving DecidableEq, Repr, Inhabited

/-- A translated address. -/
structure Xl where
  pa : Nat
  key : Nat
  gen : BitVec 12
  deriving DecidableEq, Repr, Inhabited

/-- The checks of R261 on the bits of a leaf. -/
def leafCheck (perms : BitVec 8) (w : XFor) : Option XErr :=
  let ok := match w with
    | .read => perms.getLsbD 3
    | .write => perms.getLsbD 4
    | .fetch => perms.getLsbD 5
    | .atomic => perms.getLsbD 6
  if !ok then some .perm else if !perms.getLsbD 2 then some .nonres else none

/-- The die of a unit (R258). -/
def unitDie : XUnit → Nat
  | .core c => c / 128
  | .engine c => c / 128
  | .net d => d
  | .port => 0
  | .control => 0

/-- The ASID of a context on a die (R402). -/
def State.asidOf (s : State) (c die : Nat) : Nat := mapGetD (s.ctx c).asids die 0

/-- The TLB entry of a unit that covers an address, under the ASID that its context holds now (R262, R402). -/
def State.tlbFind (s : State) (u : XUnit) (c va : Nat) : Option Tlb :=
  s.tlb.find? (fun t => t.unit == u && t.ctx == c && t.asid == s.asidOf c (unitDie u) && t.va == va / 2 ^ t.size * 2 ^ t.size)

/-- The entry a walk fills (R262). -/
def tlbOf (s : State) (u : XUnit) (c va : Nat) (l : Leaf) : Tlb :=
  { unit := u, ctx := c, asid := s.asidOf c (unitDie u), va := va / 2 ^ l.size * 2 ^ l.size, size := l.size,
    pa := l.pa / 2 ^ l.size * 2 ^ l.size, key := l.key, gen := l.gen, perms := l.perms }

/-- Fill a TLB entry; a unit holds at most 4,096 (R262). -/
def State.tlbFill (s : State) (t : Tlb) : State :=
  let mine := s.tlb.filter (fun x => x.unit == t.unit)
  let rest := s.tlb.filter (fun x => x.unit != t.unit)
  { s with tlb := t :: mine.take 4095 ++ rest }

/-- Drop the TLB entries that cover an address of a context, in every unit (R263, R264). -/
def State.tlbDrop (s : State) (c va : Nat) : State :=
  { s with tlb := s.tlb.filter (fun t => !(t.ctx == c && t.va == va / 2 ^ t.size * 2 ^ t.size)) }

/-- The key of the device's own tables, which is no tenant's. -/
def tableKey : Nat := 2 ^ 129

/-- Write bytes of a page table (R259): inside one sector, which no tenant's key decrypts any more. -/
def State.tableWrite (s : State) (pa : Nat) (bs : List Byte) : State :=
  let ver := ((mapGet s.skeys (pa / 64)).map (·.ver)).getD 0
  { s with dram := s.dram.writes pa bs,
           skeys := mapSet s.skeys (pa / 64) { key := tableKey, mask := BitVec.allOnes 64, base := ver, ver := ver + 1 } }

/-- Set `AC`, and for a write `D`, in the leaf (R261). -/
def State.setAccessed (s : State) (c va : Nat) (wr : Bool) : State :=
  match s.walk c va with
  | none => s
  | some l =>
    let p := s.dram.nat l.pte 16
    s.tableWrite l.pte (leBytes 16 (p ||| 256 ||| (if wr then 128 else 0)))

/-- Step 5 of R248: the leaf from the unit's TLB or from a walk that fills it, checked as R261 states. -/
def State.translate (s : State) (u : XUnit) (c va : Nat) (w : XFor) : Except XErr Xl × State :=
  let found : Option Tlb × State :=
    match s.tlbFind u c va with
    | some t => (some t, s)
    | none =>
      match s.walk c va with
      | none => (none, s)
      | some l => (some (tlbOf s u c va l), s.tlbFill (tlbOf s u c va l))
  match found with
  | (none, s) => (.error .bounds, s)
  | (some t, s) =>
    match leafCheck t.perms w with
    | some e => (.error e, s)
    | none =>
      (.ok { pa := t.pa + va % 2 ^ t.size, key := t.key, gen := t.gen },
        s.setAccessed c va (w == .write || w == .atomic))

/-- A translation that sets no bit and fills nothing (R280). -/
def State.peek (s : State) (c va : Nat) (w : XFor) : Option Xl :=
  match s.walk c va with
  | none => none
  | some l => if (leafCheck l.perms w).isSome then none else some { pa := l.pa, key := l.key, gen := l.gen }

/-- Why an access that passed steps 1 to 4 of R248 is not performed: an effect, or it waits where it is (R160, R263, R265). -/
inductive Stop where
  | err (e : Err)
  | held
  deriving DecidableEq, Repr, Inhabited

/-- What a failed translation of an access through handle h does (R261, R263). -/
def xerrEff (h : Nat) (va : Nat) : XErr → Stop
  | .bounds => .err { eff := Eff.memBounds, arg := marg h va }
  | .perm => .err { eff := Eff.memPerm, arg := marg h va }
  | .nonres => .err { eff := Eff.memNonres, arg := marg h va }
  | .held => .held

/-! ### Home (R256, R263, R268, R269) -/

/-- The key of an L1 sector or a remote copy: its physical sector and its key id (R251). -/
def sectorKey (pa key : Nat) : Nat := pa / 64 * 512 + key

/-- The die whose DRAM holds a byte: `PDIE` (R256). -/
def paDie (pa : Nat) : Nat := pa / 2 ^ 38 % 4

/-- The home slice of a byte within its die (R256): the three five-bit fields of `PA`, exclusive-or. -/
def homeSlice (pa : Nat) : Nat := (bits pa 14 10 ^^^ bits pa 19 15) ^^^ bits pa 24 20

/-- The sector of DRAM that no write has touched since the device's own first one (R269). -/
def SectorKey.fresh : SectorKey := { key := 2 ^ 130, mask := 0, base := 0, ver := 0 }

namespace State

/-- The SM4 key that a key id names (R268, R402): that of the one context that holds the id; no tenant's where none does. -/
def sm4Of (s : State) (key : Nat) : Nat :=
  ((s.ctxs.findSome? (fun e => if e.2.destroyed then none else (e.2.keys.find? (fun k => k.1 == key)).map (·.2)))).getD (2 ^ 128 + key)

/-- The record of the DRAM sector that holds a byte. -/
def sectorRec (s : State) (pa : Nat) : SectorKey := mapGetD s.skeys (pa / 64) SectorKey.fresh

/-- One byte of DRAM under a key id: what was written under its key, and otherwise what the sector decrypts to, which stays one value
until the sector is written again (R268, R269, R322). -/
def homeByte (s : State) (key pa : Nat) : Byte :=
  let r := s.sectorRec pa
  let k := s.sm4Of key
  if r.key = k then if r.mask.getLsbD (pa % 64) then s.dram.read pa else Config.junk r.base pa k
  else Config.junk r.ver pa k

/-- n bytes of DRAM under a key id. -/
def homeBytes (s : State) (key pa : Nat) : Nat → List Byte
  | 0 => []
  | n + 1 => s.homeByte key pa :: s.homeBytes key (pa + 1) n

/-- Record that a byte was written under a key id: the sector is encrypted anew (R268). -/
def markKey (s : State) (key pa : Nat) : State :=
  let r := s.sectorRec pa
  let k := s.sm4Of key
  let bit_ := BitVec.ofNat 64 (2 ^ (pa % 64))
  let r' : SectorKey :=
    if r.key = k then { r with mask := r.mask ||| bit_, ver := r.ver + 1 } else { key := k, mask := bit_, base := r.ver, ver := r.ver + 1 }
  { s with skeys := mapSet s.skeys (pa / 64) r' }

/-- Write bytes of DRAM under a key id, one after another. -/
def dramWrite (s : State) (key pa : Nat) : List Byte → State
  | [] => s
  | b :: bs => State.dramWrite ({ s with dram := s.dram.write pa b }.markKey key pa) key (pa + 1) bs

/-- The pending `.comm` updates of a sector, on every core that holds it Update-only (R255), each with its die. -/
def heldComm (s : State) (k : Nat) : List (Nat × Comm) :=
  s.cores.flatMap (fun (e : Nat × Core) =>
    match mapGet e.2.l1 k with
    | some (L1.updateOnly ops) => ops.map (fun x => (e.1 / 128, x))
    | _ => [])

/-- Put bytes into a remote copy that a die keeps (R257). -/
def copyUpdate (s : State) (die pa key : Nat) (bs : List Byte) : State :=
  match mapGet (s.die die).rcopy (sectorKey pa key) with
  | none => s
  | some old => s.modDie die (fun d => { d with rcopy := mapSet d.rcopy (sectorKey pa key) { old with data := putBytes old.data (pa % 64) bs } })

/-- Take one update of a list by a free choice. -/
def takeOne (s : State) (salt : Nat) (xs : List (Nat × Comm)) : Option ((Nat × Comm) × List (Nat × Comm)) :=
  let i := s.pick salt xs.length
  match xs[i]? with
  | none => none
  | some x => some (x, xs.eraseIdx i)

/-- Combine updates into home bytes in an unspecified order (R225, R255), each a write of its die (R257). -/
def combine (s : State) (key sector : Nat) : Nat → List (Nat × Comm) → State
  | 0, _ => s
  | n + 1, xs =>
    match s.takeOne n xs with
    | none => s
    | some ((die, x), rest) =>
      let pa := sector * 64 + x.off
      let new := leBytes x.n (atomNew x.fn x.n (leNat (s.homeBytes key pa x.n)) x.val)
      State.combine ((s.dramWrite key pa new).copyUpdate die pa key new) key sector n rest

/-- A recall: home collects every Update-only copy of the sector and combines them (R255). -/
def recallSector (s : State) (pa key : Nat) : State :=
  let k := sectorKey pa key
  let ops := s.heldComm k
  if ops.isEmpty then s
  else
    let s := { s with cores := mapAll s.cores (fun _ c =>
      match mapGet c.l1 k with
      | some (.updateOnly _) => { c with l1 := mapDel c.l1 k }
      | _ => c) }
    (s.combine key (pa / 64) ops.length ops).touchWatch 0 (pa / 64)

/-- A read performed at home (R256): n bytes inside one sector. -/
def homeRead (s : State) (pa key n : Nat) : List Byte × State :=
  let s := s.recallSector pa key
  (s.homeBytes key pa n, s)

/-- A write performed at home (R256) by a unit of a die: n bytes inside one sector. -/
def homeWrite (s : State) (die pa key : Nat) (bs : List Byte) : State :=
  (((s.recallSector pa key).dramWrite key pa bs).copyUpdate die pa key bs).touchWatch 0 (pa / 64)

/-- The record of the frame that holds a byte. -/
def frameOf (s : State) (pa : Nat) : Frame := mapGetD s.frames (pa / 2 ^ 16) { gen := 0, moving := none, frozen := false, owner := none }

/-- Home stalls every write to the byte's frame (R265). -/
def frozen (s : State) (pa : Nat) : Bool := (s.frameOf pa).frozen

/-- Home performs a request only under the frame's current generation (R263). -/
def genOk (s : State) (pa : Nat) (gen : BitVec 12) : Bool := (s.frameOf pa).gen == gen

/-- Where a request ends that home compares (R263): performed under the current generation; refused under an old one, when its unit
drops its TLB entry and translates again; while home refuses that too, the request stays and the retry repeats. -/
def resolve (s : State) (u : XUnit) (c va : Nat) (w : XFor) (x : Xl) : Except XErr Xl × State :=
  if s.genOk x.pa x.gen then (.ok x, s)
  else
    match (s.tlbDrop c va).translate u c va w with
    | (.ok y, s) => if s.genOk y.pa y.gen then (.ok y, s) else (.error .held, s)
    | (.error e, s) => (.error e, s)

end State

/-- Whether a read that goes to home may be served from a remote copy (R324): of a byte homed on another die, below pkg scope. -/
def How.copied (how : How) (c pa : Nat) : Bool :=
  how.rc && paDie pa != c / 128 && !how.cv && (how.sc == .quad || how.sc == .die)

/-! ### The L1 (R251-R255) -/

/-- The mask of n bytes from byte i of a sector. -/
def sectorMask (i n : Nat) : BitVec 64 := BitVec.ofNat 64 ((2 ^ n - 1) * 2 ^ i)

/-- Merge bytes of `new` under a mask over `old`. -/
def mergeBytes (m : BitVec 64) (new old : List Byte) : List Byte :=
  (List.range 64).map (fun i => if m.getLsbD i then new.getD i 0 else old.getD i 0)

/-- The tag of a line of four sectors, from the key of one of them (R251): the physical line address and the key id. -/
def lineOfKey (k : Nat) : Nat := k / 2048 * 512 + k % 512

/-- The lines of an L1: 320 KiB of 256 bytes (R251). -/
def l1Lines : Nat := 1280

/-- The tags of the lines that an L1 holds: those with a sector that is not Invalid. -/
def Core.lines (c : Core) : List Nat := (c.l1.map (fun e => lineOfKey e.1)).eraseDups

/-- The keys of the sectors that an L1 holds of a line. -/
def Core.sectorsOf (c : Core) (line : Nat) : List Nat := (c.l1.map (·.1)).filter (fun k => lineOfKey k == line)

/-- When an L1 gives up a line (R252). -/
def Core.hintOf (c : Core) (line : Nat) : Hint := mapGetD c.hints line .normal

/-- The hints of a core without those of lines that it no longer holds. -/
def Core.trim (c : Core) : Core := { c with hints := mapFilter c.hints (fun l _ => c.l1.any (fun e => lineOfKey e.1 == l)) }

namespace State

def l1 (s : State) (c k : Nat) : Option L1 := mapGet (s.core c).l1 k
def setL1 (s : State) (c k : Nat) (x : L1) : State := s.modCore c (fun y => { y with l1 := mapSet y.l1 k x })
def delL1 (s : State) (c k : Nat) : State := s.modCore c (fun y => { y with l1 := mapDel y.l1 k }.trim)

/-- Whether a core's L1 holds bytes of a sector that are not yet at home (R253). -/
def unsent (s : State) (c k : Nat) : Bool :=
  match s.l1 c k with
  | some (.dirty bm ..) => bm != 0
  | _ => false

/-- Whether an access at home must wait while the frame is frozen (R265): a write; or a read that a write-back or a recall precedes
(R253, R255). -/
def homeHeld (s : State) (c pa key : Nat) (wr : Bool) : Bool :=
  s.frozen pa && (wr || s.unsent c (sectorKey pa key) || !(s.heldComm (sectorKey pa key)).isEmpty)

/-- Whether an access through the L1 must wait so: one that the sector does not serve as it is. -/
def l1Held (s : State) (c pa key n : Nat) (wr : Bool) : Bool :=
  let served := match s.l1 c (sectorKey pa key) with
    | some (.clean _) => true
    | some (.dirty bm ..) => wr || (sectorMask (pa % 64) n &&& ~~~bm) == 0
    | some (.updateOnly _) => false
    | none => wr
  !served && s.frozen pa && !(s.heldComm (sectorKey pa key)).isEmpty

/-- Write the masked bytes of a sector home, byte by byte (R253). -/
def writeMasked (s : State) (die pa key : Nat) (m : BitVec 64) (data : List Byte) : State :=
  let s := s.recallSector pa key
  let base := pa / 64 * 64
  let s := (List.range 64).foldl (fun s i =>
    if m.getLsbD i then (s.dramWrite key (base + i) [data.getD i 0]).copyUpdate die (base + i) key [data.getD i 0] else s) s
  if m = 0 then s else s.touchWatch 0 (pa / 64)

/-- A store that home refuses for good is reported at its fibre's next release; of a fibre that is gone, it is logged, and its team is
failed (R263). -/
def storeFault (s : State) (f life ctx : Nat) (arg : Nat) : State :=
  if ((s.fibre? f).map (·.life)) = some life then s.modFibre f (fun x => { x with sfaults := x.sfaults ++ [arg] })
  else (s.logCtx ctx (.storeFault (fibTeam f) arg)).failTeam (fibTeam f)

/-- A sector that a unit of a die takes from home for plain reads: a remote copy that its die keeps becomes as new as it, since no later
plain read of the die may be older (R332). (DEDUCED, log 84.) -/
def copyRenew (s : State) (die pa key : Nat) (bs : List Byte) : State :=
  match mapGet (s.die die).rcopy (sectorKey pa key) with
  | none => s
  | some _ => s.modDie die (fun d => { d with rcopy := mapSet d.rcopy (sectorKey pa key) { data := bs, seen := [] } })

/-- What a Dirty sector becomes once its `BM` bytes are at home (R253): Clean if FULL, else Invalid. After an acquire the bytes
outside `BM` are those of home now, which R327 lets no later read miss. (DEDUCED, log 11.) -/
def cleaned (s : State) (c k pa key : Nat) (bm : BitVec 64) (full acq : Bool) (data : List Byte) : State :=
  let now := s.homeBytes key (pa / 64 * 64) 64
  if full then if acq then (s.copyRenew (c / 128) pa key now).setL1 c k (.clean (mergeBytes bm data now)) else s.setL1 c k (.clean data)
  else s.delL1 c k

/-- A sector's write-back that home refuses for good is a store fault of every fibre whose bytes it carries (R263), and of the fibre
whose release makes it (R325). -/
def sectorFault (s : State) (l : Option Nat) (ctx : Nat) (ws : List Writer) : State :=
  let own (f : Nat) : Bool := ws.any (fun w => w.fib == f && w.life == (s.fibre f).life)
  let s := ws.foldl (fun s w => s.storeFault w.fib w.life ctx w.arg) s
  match l, ws with
  | some f, w :: _ => if own f then s else s.storeFault f (s.fibre f).life ctx w.arg
  | _, _ => s

/-- Write back the `BM` bytes of a sector; `keep` says whether it stays Clean when FULL (R253), and `l` names the fibre whose release
does it. A write-back that home refuses is translated again, and one refused for good is a store fault (R263, R325); one to a frozen
frame waits (R265), so the sector stays as it is. -/
def writeBackBy (s : State) (c k : Nat) (keep : Bool) (l : Option Nat) : State :=
  match s.l1 c k with
  | some (.dirty bm full acq data ctx va gen ws) =>
    let pa := k / 512 * 64
    let key := k % 512
    if bm = 0 then if keep then s.cleaned c k pa key bm full acq data else s.delL1 c k
    else
      match s.resolve (.core c) ctx va .write { pa := pa, key := key, gen := gen } with
      | (.error .held, s) => s
      | (.error _, s) => (s.delL1 c k).sectorFault l ctx ws
      | (.ok x, s) =>
        if s.frozen x.pa then s
        else
          let s := s.writeMasked (c / 128) x.pa x.key bm data
          if keep && x.pa / 64 * 64 == pa then s.cleaned c k pa key bm full acq data else s.delL1 c k
  | _ => s

/-- A write-back that no release makes. -/
def writeBack (s : State) (c k : Nat) (keep : Bool) : State := s.writeBackBy c k keep none

/-- What an access does to a sector before it goes home itself: write back, recall (R253, R254). -/
def flushSector (s : State) (c pa key : Nat) (inval : Bool) : State :=
  let k := sectorKey pa key
  match s.l1 c k with
  | some (.dirty ..) => s.writeBack c k (!inval)
  | some (.updateOnly _) => if s.frozen pa then s else s.recallSector pa key
  | some (.clean _) => if inval then s.delL1 c k else s
  | none => s

/-- Whether a line can leave the L1 now: none of its sectors must first go to a frozen frame (R265). -/
def lineMovable (s : State) (c line : Nat) : Bool :=
  ((s.core c).sectorsOf line).all (fun k =>
    !s.frozen (k / 512 * 64) || (match s.l1 c k with
      | some (.clean _) => true
      | _ => !s.unsent c k && (s.heldComm k).isEmpty))

/-- A line leaves the L1 (R253). -/
def evictLine (s : State) (c line : Nat) : State :=
  ((s.core c).sectorsOf line).foldl (fun s k => s.flushSector c (k / 512 * 64) (k % 512) true) s

/-- The lines among which the next eviction chooses (R252): those of `.stream`, else those with no hint, else those of `.keep`. -/
def evictable (s : State) (c : Nat) : List Nat :=
  let ls := (s.core c).lines.filter (s.lineMovable c)
  let of (h : Hint) := ls.filter (fun l => (s.core c).hintOf l == h)
  if !(of .stream).isEmpty then of .stream else if !(of .normal).isEmpty then of .normal else of .keep

/-- Room in the L1 for a sector (R251): its line is there or may come in, for which another may have to leave. None while every line
waits for a frozen frame: the access then does not allocate. (DESIGN CHOICE, log 58.) -/
def allocate (s : State) (c k : Nat) (h : Hint) : Option State :=
  let line := lineOfKey k
  let put (s : State) : State :=
    s.modCore c (fun y => { y with hints := if h = .normal then mapDel y.hints line else mapSet y.hints line h })
  if (s.core c).lines.contains line then some (put s)
  else if (s.core c).lines.length < l1Lines then some (put s)
  else
    match s.evictable c with
    | [] => none
    | v :: vs => some (put (s.evictLine c ((v :: vs).getD (s.pick 95 (vs.length + 1)) v)))

/-- The remote copies that an L2 holds at most: 96 MiB of sectors (R14, R257). -/
def rcopyMax : Nat := 96 * 2 ^ 20 / 64

/-- A remote copy comes into a die's L2 (R257); of a full one, another leaves. -/
def keepCopy (s : State) (die k : Nat) (bs : List Byte) : State :=
  let out := s.pick 96 rcopyMax
  let x : RCopy := { data := bs, seen := [] }
  s.modDie die (fun d => { d with rcopy := mapSet (if d.rcopy.length < rcopyMax then d.rcopy else d.rcopy.eraseIdx out) k x })

/-- The 64 bytes of a sector as a fill finds them: from a remote copy where the handle allows one (R257), else from home. -/
def fillBytes (s : State) (die pa key : Nat) (rc : Bool) : List Byte × State :=
  let base := pa / 64 * 64
  if rc && paDie pa != die then
    match mapGet (s.die die).rcopy (sectorKey pa key) with
    | some x => (x.data, s)
    | none =>
      let (bs, s) := s.homeRead base key 64
      (bs, s.keepCopy die (sectorKey pa key) bs)
  else
    let (bs, s) := s.homeRead base key 64
    (bs, s.copyRenew die pa key bs)

/-- Whether a fibre has read a sector at home since its die's remote copy of it came (R332). -/
def hasSeen (s : State) (f pa key : Nat) : Bool :=
  (mapGet (s.die (s.coreOf f / 128)).rcopy (sectorKey pa key)).any (fun x => x.seen.contains f)

/-- A fibre reads a sector at home: its die's remote copy may be older for it from now on (R332). -/
def seeHome (s : State) (f pa key : Nat) : State :=
  s.modDie (s.coreOf f / 128) (fun d => { d with rcopy := mapMod d.rcopy (sectorKey pa key) (fun x =>
    if x.seen.contains f then x else { x with seen := f :: x.seen }) })

/-- A read through the L1 (R253): n bytes inside one sector. -/
def l1Read (s : State) (c pa key n : Nat) (rc : Bool) (h : Hint) : List Byte × State :=
  let k := sectorKey pa key
  let s := match s.l1 c k with
    | some (.updateOnly _) => s.recallSector pa key
    | _ => s
  match s.l1 c k with
  | some (.clean data) => (byteSlice data (pa % 64) n, (s.allocate c k h).getD s)
  | some (.dirty bm _ _ data ctx va gen ws) =>
    let s := (s.allocate c k h).getD s
    if (sectorMask (pa % 64) n &&& ~~~bm) == 0 then (byteSlice data (pa % 64) n, s)
    else
      let (bs, s) := s.fillBytes (c / 128) pa key rc
      let data := mergeBytes bm data bs
      (byteSlice data (pa % 64) n, s.setL1 c k (.dirty bm true false data ctx va gen ws))
  | _ =>
    let (bs, s) := s.fillBytes (c / 128) pa key rc
    (byteSlice bs (pa % 64) n, match s.allocate c k h with
      | some s => s.setL1 c k (.clean bs)
      | none => s)

/-- A read at home (R324): the sector's own dirty bytes go first (R253); a byte homed elsewhere may come from a remote copy
below pkg scope. -/
def homeReadBy (s : State) (c pa key n : Nat) (how : How) : List Byte × State :=
  let s := s.flushSector c pa key false
  if how.copied c pa then
    let (bs, s) := s.fillBytes (c / 128) pa key true
    (byteSlice bs (pa % 64) n, s)
  else s.homeRead pa key n

/-- The writers of a sector's bytes, with a fibre's new store among them. -/
def addWriter (ws : List Writer) (f life arg : Nat) (m : BitVec 64) : List Writer :=
  let own (w : Writer) : Bool := w.fib == f && w.life == life
  let mine := (ws.filter own).foldl (fun a w => a ||| w.mask) m
  ws.filter (fun w => !own w) ++ [{ fib := f, life := life, arg := arg, mask := mine }]

/-- The writers once some bytes of the sector are at home. -/
def dropWriters (ws : List Writer) (m : BitVec 64) : List Writer :=
  (ws.map (fun w => { w with mask := w.mask &&& ~~~m })).filter (fun w => w.mask != 0)

/-- A write into the L1 (R253): bytes inside one sector, which has room there (`allocate`). `arg` is the argument of the store (R250). -/
def l1Write (s : State) (f life c ctx va arg : Nat) (x : Xl) (bs : List Byte) : State :=
  let k := sectorKey x.pa x.key
  let i := x.pa % 64
  let m := sectorMask i bs.length
  let s := match s.l1 c k with
    | some (.updateOnly _) => s.recallSector x.pa x.key
    | _ => s
  let new : L1 :=
    match s.l1 c k with
    | some (.clean data) => .dirty m true false (putBytes data i bs) ctx (va - va % 64) x.gen (addWriter [] f life arg m)
    | some (.dirty bm full acq data _ _ _ ws) =>
      .dirty (bm ||| m) full acq (putBytes data i bs) ctx (va - va % 64) x.gen (addWriter ws f life arg m)
    | _ => .dirty m false false (putBytes (List.replicate 64 0) i bs) ctx (va - va % 64) x.gen (addWriter [] f life arg m)
  s.setL1 c k new

/-- A `.cv` write performed at home and in the sector (R253). -/
def cvWrite (s : State) (c : Nat) (x : Xl) (bs : List Byte) : State :=
  let k := sectorKey x.pa x.key
  let i := x.pa % 64
  let m := sectorMask i bs.length
  let s := match s.l1 c k with
    | some (.updateOnly _) => s.recallSector x.pa x.key
    | _ => s
  let s := s.homeWrite (c / 128) x.pa x.key bs
  match s.l1 c k with
  | some (.clean data) => s.setL1 c k (.clean (putBytes data i bs))
  | some (.dirty bm full acq data cx va gen ws) =>
    s.setL1 c k (.dirty (bm &&& ~~~m) full acq (putBytes data i bs) cx va gen (dropWriters ws m))
  | _ => s

/-- An atomic update performed at home (R254, R347): the core's own copy of the sector goes home first. -/
def homeAtom (s : State) (c : Nat) (x : Xl) (n : Nat) (g : Nat → Option Nat) : Nat × State :=
  let s := s.flushSector c x.pa x.key true
  let (bs, s) := s.homeRead x.pa x.key n
  match g (leNat bs) with
  | none => (leNat bs, s)
  | some v => (leNat bs, s.homeWrite (c / 128) x.pa x.key (leBytes n v))

end State

/-! ### Accesses of a fibre, one by one (R321, R324) -/

/-- Quad scope or wider (R324). -/
def beyondCore : Scope → Bool
  | .lane | .core => false
  | _ => true
/-- Pkg scope or wider (R324). -/
def beyondDie : Scope → Bool
  | .pkg | .pod | .sys => true
  | _ => false

/-- The bytes read, extended to registers: sign-extended under `SX`, else zero-extended (R272). -/
def extendBytes (sx : Bool) (bs : List Byte) : Nat :=
  if sx then unsign (sext (leNat bs) (8 * bs.length)) 32 else leNat bs

namespace State

/-- An acquire of a core at a scope: its Clean sectors go, and at pkg or wider its die's remote copies (R326). A Dirty sector is
unchanged (R253) but for the note that its bytes outside `BM` are older than the acquire (log 11). At any scope beyond lane, the remote copies
go that a fibre but `own` has read past at home: the acquire may make what it read precede later reads (R327). (DEDUCED, log 84.) -/
def acquireCore (s : State) (c : Nat) (sc : Scope) (own : Option Nat) : State :=
  let s := if sc = .lane then s
    else s.modDie (c / 128) (fun d => { d with rcopy := mapFilter d.rcopy (fun _ x => x.seen.all (fun f => own == some f)) })
  let s := if beyondCore sc then
      s.modCore c (fun x => { x with l1 := mapUpdate x.l1 (fun v =>
        match v with
        | .clean _ => none
        | .dirty bm full _ data ctx va gen ws => some (.dirty bm full true data ctx va gen ws)
        | .updateOnly u => some (.updateOnly u)) }.trim)
    else s
  if beyondDie sc then s.modDie (c / 128) (fun d => { d with rcopy := [] }) else s

end State

/-- Whether an order and scope take an access to home (R324). -/
def atHome (o : MOrd) (sc : Scope) : Bool :=
  o != .plain && (sc == .quad || sc == .die || sc == .pkg || sc == .pod || sc == .sys)

/-- Whether an access is performed at home (R321, R324). -/
def How.home (h : How) : Bool := h.cv || atHome h.ord h.sc

/-- Split bytes at an address into the pieces that lie in one 64-byte sector each. -/
def sectorPieces : Nat → Nat → List Byte → List (Nat × List Byte)
  | 0, _, _ => []
  | fuel + 1, a, bs =>
    if bs.isEmpty then []
    else let n := 64 - a % 64; (a, bs.take n) :: sectorPieces fuel (a + n) (bs.drop n)

namespace State

/-- A GLOBAL read by fibre f of the bytes of one sector, translated (R324); none while it must wait for a frozen frame (R265). -/
def globRead1 (s : State) (f : Nat) (x : Xl) (n : Nat) (how : How) : Option (List Byte × State) :=
  let c := s.coreOf f
  if how.home then
    if s.homeHeld c x.pa x.key false then none
    else
      let how := { how with rc := how.rc && !s.hasSeen f x.pa x.key }
      let (bs, s) := s.homeReadBy c x.pa x.key n how
      some (bs, if how.copied c x.pa then s else s.seeHome f x.pa x.key)
  else if s.l1Held c x.pa x.key n false then none
  else some (s.l1Read c x.pa x.key n how.rc how.hint)

/-- A GLOBAL read by fibre f: each sector translated and read in turn (R261, R263). -/
def globRead (s : State) (f h : Nat) (how : How) : Nat → Nat → Nat → List Byte → Except Stop (List Byte) × State
  | 0, _, _, acc => (.ok acc, s)
  | fuel + 1, va, n, acc =>
    if n = 0 then (.ok acc, s)
    else
      let k := min n (64 - va % 64)
      match s.translate (.core (s.coreOf f)) (s.ctxOf f) va .read with
      | (.error e, s) => (.error (xerrEff h va e), s)
      | (.ok x, s) =>
        match s.resolve (.core (s.coreOf f)) (s.ctxOf f) va .read x with
        | (.error e, s) => (.error (xerrEff h va e), s)
        | (.ok x, s) =>
          match s.globRead1 f x k how with
          | none => (.error .held, s)
          | some (bs, s) => State.globRead s f h how fuel (va + k) (n - k) (acc ++ bs)

/-- Translate every sector of a GLOBAL range for an access; the first failure (R273, R348). -/
def translateRange (s : State) (u : XUnit) (c h : Nat) (w : XFor) : Nat → Nat → Nat → List (Nat × Xl) →
    Except Stop (List (Nat × Xl)) × State
  | 0, _, _, acc => (.ok acc, s)
  | fuel + 1, va, n, acc =>
    if n = 0 then (.ok acc, s)
    else
      let k := min n (64 - va % 64)
      match s.translate u c va w with
      | (.error e, s) => (.error (xerrEff h va e), s)
      | (.ok x, s) =>
        match s.resolve u c va w x with
        | (.error e, s) => (.error (xerrEff h va e), s)
        | (.ok x, s) => State.translateRange s u c h w fuel (va + k) (n - k) (acc ++ [(va, x)])

/-- A read performed at a checked location: the bytes as they are there now. -/
def readNow (s : State) (f : Nat) (a : Acc) (n : Nat) (how : How) : Except Stop (List Byte) × State :=
  match a.loc with
  | .glob va => s.globRead f a.hnd how (n / 64 + 2) va n []
  | loc =>
    match s.issuedPlace f loc with
    | none => (.error (.err { eff := Eff.memScratch, arg := sarg a.hnd 3 }), s)
    | some p => (.ok (s.placeRead n p), s)

end State

/-! ### Accesses not yet performed (R263, R321, R331-R333, R404) -/

/-- The 64-byte block that a location names: its space, and its number there; global blocks that lie at one place of their pages
count as one, since two pages may map one frame. -/
def locBlock : Loc → Nat × Nat
  | .lane off => (2, off / 64)
  | .core off => (3, off / 64)
  | .quad off => (4, off / 64)
  | .die off => (5, off / 64)
  | .glob va => (1, va % 65536 / 64)

/-- A memory access of a fibre that is not yet performed: an entry of a queue, the read of an LD, or a write. -/
inductive Flight where
  | entry (q i : Nat)
  | load
  | req (id : Nat)
  deriving DecidableEq, Repr, Inhabited

/-- A flight with its place in its fibre's program order and its block. -/
structure Flying where
  seq : Nat
  block : Nat × Nat
  what : Flight
  deriving DecidableEq, Repr, Inhabited

/-- Insert a flight into a list in program order. -/
def insFlying (x : Flying) : List Flying → List Flying
  | [] => [x]
  | y :: ys => if x.seq ≤ y.seq then x :: y :: ys else y :: insFlying x ys

namespace State

/-- The entries of fibre f in flight: queue, index and entry. -/
def flights (s : State) (f : Nat) : List (Nat × Nat × QEntry) :=
  (s.fibre f).queues.flatMap (fun e => (e.2.zipIdx).filterMap (fun x =>
    if x.1.at_ = .flight then some (e.1, x.2, x.1) else none))

/-- The accesses of fibre f that are not yet performed, in program order. A `.unp` update has no place in it (R343, R351). -/
def flying (s : State) (f : Nat) : List Flying :=
  let es := (s.flights f).map (fun x => ({ seq := x.2.2.seq, block := locBlock x.2.2.loc, what := .entry x.1 x.2.1 } : Flying))
  let ls := (s.fibre f).loads.map (fun x => ({ seq := x.1, block := locBlock x.2.loc, what := .load } : Flying))
  let rs := (s.reqs.filter (fun e => e.2.fib == f && !e.2.unp)).map (fun e =>
    ({ seq := e.2.seq, block := locBlock e.2.loc, what := .req e.1 } : Flying))
  (es ++ ls ++ rs).foldr insFlying []

/-- The read of a queue entry is performed (R325, R331): its bytes, zeros with the flag for a `.nr` read of a page that is not resident
(R267), or its fault; with `.acq` or `.sc`, an acquire after it (R275). While it must wait, it stays in flight. -/
def arriveEntry (s : State) (f q i : Nat) : State :=
  match (mapGetD (s.fibre f).queues q [])[i]? with
  | none => s
  | some e =>
    if e.at_ != .flight then s
    else
      let n := e.sz.bytes
      let put (s : State) (g : QGot) : State :=
        s.modFibre f (fun x => { x with queues := mapMod x.queues q (fun l => l.set i { e with at_ := g }) })
      let acq (s : State) : State := if e.how.ord = .acq ∨ e.how.ord = .sc then s.acquireCore (s.coreOf f) e.how.sc (some f) else s
      match s.readNow f { loc := e.loc, pol := 0, rc := e.how.rc, code := none, hnd := e.hnd, final := 0 } n e.how with
      | (.ok bs, s) => acq (put s (.bytes bs false))
      | (.error .held, s) => s
      | (.error (.err err), s) =>
        if err.eff = Eff.memNonres ∧ e.nr then acq (put s (.bytes (List.replicate n 0) true)) else put s (.fault err.eff err.arg none)

/-- The read of an LD is performed (R321): its bytes become the value of the register write that waits for it. A place that is gone
gives the bytes that the LD saw when it issued. -/
def performLoad (s : State) (f seq : Nat) : State :=
  match mapGet (s.fibre f).loads seq with
  | none => s
  | some l =>
    let ws : Option (List Word) := (s.issuedPlace f l.loc).map (fun p =>
      natWords (if l.n ≤ 4 then 1 else l.n / 4) (extendBytes l.sx (s.placeRead l.n p)))
    s.modFibre f (fun x =>
      { x with loads := mapDel x.loads seq,
               pend := x.pend.map (fun w =>
                 if w.load = some seq then { w with load := none, val := (ws.map (fun v => v.getD w.serial w.val)).getD w.val } else w) })

end State

/-- The requests that stand before a request in the coherence order of its block: of its own fibre, or of a lower lane of the same batch
(R271, R331); a `.unp` update is ordered only within its batch (R349, R351). -/
def State.reqsBefore (s : State) (id : Nat) (r : HomeReq) : List Nat :=
  (s.reqs.filter (fun e => decide (e.1 < id) && locBlock e.2.loc == locBlock r.loc &&
    ((e.2.fib == r.fib && !e.2.unp && !r.unp) || (e.2.issued == r.issued && fibPack e.2.fib == fibPack r.fib)))).map (·.1)

namespace State

/-- A write into the L1, where its line finds room; with none it goes on to home (log 58). -/
def coreWrite (s : State) (r : HomeReq) (va : Nat) (x : Xl) (bs : List Byte) : Option State :=
  if s.l1Held r.core x.pa x.key bs.length true then none
  else
    match s.allocate r.core (sectorKey x.pa x.key) r.hint with
    | some s => some (s.l1Write r.fib r.life r.core r.ctx va (marg r.hnd va) x bs)
    | none => if s.homeHeld r.core x.pa x.key true then none else some (s.cvWrite r.core x bs)

/-- A request whose translation stands is performed; none while it must wait for a frozen frame (R265). -/
def perform (s : State) (r : HomeReq) (va : Nat) (x : Xl) : Option State :=
  match r.op with
  | .write bs => if r.through then if s.homeHeld r.core x.pa x.key true then none else some (s.cvWrite r.core x bs) else s.coreWrite r va x bs
  | .red fn n v =>
    if s.homeHeld r.core x.pa x.key true then none
    else some (s.homeAtom r.core x n (fun old => some (atomNew fn n old v))).2

/-- A request is over. -/
def dropReq (s : State) (id : Nat) : State := { s with reqs := mapDel s.reqs id }

/-- An `.sc` write has been performed: its fibre's later accesses see what precedes it in the order of the .sc operations (R328). -/
def afterSc (s : State) (r : HomeReq) : State :=
  match r.sc with
  | none => s
  | some sc => s.acquireCore r.core sc (some r.fib)

/-- A request is performed, or home refuses it and it is translated again, and refused for good it is a store fault (R263); while it
must wait, it stays. -/
def performReq (s : State) (id : Nat) : State :=
  match mapGet s.reqs id with
  | none => s
  | some r =>
    match r.loc with
    | .glob va =>
      match s.resolve (.core r.core) r.ctx va (match r.op with | .write _ => .write | .red .. => .atomic)
          { pa := r.pa, key := r.key, gen := r.gen } with
      | (.error .held, s) => s
      | (.error _, s) => (s.dropReq id).storeFault r.fib r.life r.ctx (marg r.hnd va)
      | (.ok x, s) =>
        match s.perform r va x with
        | none => s
        | some s => (s.dropReq id).afterSc r
    | loc =>
      match r.op, s.issuedPlace r.fib loc with
      | .write bs, some p => (s.placeWrite bs p).dropReq id
      | _, _ => s.dropReq id

/-- Whether a flight is still to be performed. -/
def stillFlying (s : State) (f : Nat) (x : Flying) : Bool :=
  match x.what with
  | .entry q i => ((mapGetD (s.fibre f).queues q [])[i]?.map (fun e => e.at_ == .flight)).getD false
  | .load => mapHas (s.fibre f).loads x.seq
  | .req id => mapHas s.reqs id

/-- The flights of fibre f that pass a test are performed in program order; behind one that must wait, those of its block wait
(R331, R332). `req` performs a request. -/
def performOwn (s : State) (f : Nat) (req : State → Nat → State) : List Flying → List (Nat × Nat) → State
  | [], _ => s
  | x :: xs, stuck =>
    if stuck.contains x.block then State.performOwn s f req xs stuck
    else
      let s := match x.what with
        | .entry q i => s.arriveEntry f q i
        | .load => s.performLoad f x.seq
        | .req id => req s id
      State.performOwn s f req xs (if s.stillFlying f x then x.block :: stuck else stuck)

/-- Whether nothing that must stand before a request is left. -/
def reqFree (s : State) (id : Nat) (r : HomeReq) : Bool :=
  (s.reqsBefore id r).isEmpty && (r.unp || (s.flying r.fib).all (fun x => x.block != locBlock r.loc || decide (r.seq ≤ x.seq)))

/-- A request is performed after all that must stand before it: the accesses of its fibre to its block, and those of the lower lanes
of its batch (R271, R331). -/
def settleReq (s : State) : Nat → Nat → State
  | 0, _ => s
  | n + 1, id =>
    match mapGet s.reqs id with
    | none => s
    | some r =>
      let s := ((s.reqsBefore id r).filterMap (fun k => (mapGet s.reqs k).map (fun q => (k, q)))).foldl
        (fun s e => if e.2.fib = r.fib then s else State.settleReq s n e.1) s
      let s := if r.unp then s
        else s.performOwn r.fib (fun s k => State.settleReq s n k)
          ((s.flying r.fib).filter (fun x => x.block == locBlock r.loc && decide (x.seq < r.seq))) []
      if s.reqFree id r then s.performReq id else s

/-- The bound of the dependences among requests: each is on one with a lower number. -/
def settleId (s : State) (id : Nat) : State := s.settleReq (s.reqs.length + 1) id

/-- The accesses of fibre f not yet performed that pass a test are performed (R325, R331). -/
def arriveBefore (s : State) (f : Nat) (p : Flying → Bool) : State := s.performOwn f settleId ((s.flying f).filter p) []

/-- Before a fibre's access to a location, its earlier ones of that block are performed (R331, R332). -/
def arriveAt (s : State) (f : Nat) (loc : Loc) : State := s.arriveBefore f (fun x => x.block == locBlock loc)

/-- Whether an access of a fibre to a location still waits for an earlier one of its block. -/
def behind (s : State) (f : Nat) (loc : Loc) : Bool := (s.flying f).any (fun x => x.block == locBlock loc)

/-- The requests of a list are performed, each after all that must stand before it. -/
def performReqs (s : State) (ids : List Nat) : State := ids.foldl State.settleId s

/-- The requests of a fibre that its releases cover: not its `.unp` updates (R325). -/
def reqsOf (s : State) (f : Nat) : List Nat := (s.reqs.filter (fun e => e.2.fib == f && !e.2.unp)).map (·.1)

/-- A write of a fibre that its core has not yet performed. -/
def sendReq (s : State) (r : HomeReq) : State :=
  (({ s with reqs := mapSet s.reqs s.mod.nextReq r }).modMod (fun m => { m with nextReq := m.nextReq + 1 })).modFibre r.fib
    (fun x => { x with qseq := x.qseq + 1 })

/-- Whether a write of fibre f is held on its core: behind an access of its own to that block which is not yet performed, or behind a
held write of a lower lane of its batch (R271, R331, R404). -/
def mustHold (s : State) (f : Nat) (loc : Loc) : Bool :=
  s.behind f loc || s.reqs.any (fun e => e.2.issued == s.tick && fibPack e.2.fib == fibPack f && locBlock e.2.loc == locBlock loc)

/-! ### Reads and writes of a fibre -/

/-- load of R84 at a checked location, performed now: after the fibre's earlier accesses of its block, and not while one waits. -/
def readLoc (s : State) (f : Nat) (a : Acc) (n : Nat) (how : How) : Except Stop (List Byte) × State :=
  let s := s.arriveAt f a.loc
  if s.behind f a.loc then (.error .held, s) else s.readNow f a n how

/-- A store through a code entry makes an empty region writable, and the entry mirrors the record (R92, R135). -/
def noteCodeStore (s : State) (c : Nat) (code : Option Nat) : State :=
  match code with
  | none => s
  | some h =>
    match mapGet (s.ctx c).regions h with
    | some r =>
      if r.state = .empty then
        s.modCtx c (fun x => { x with
          regions := mapSet x.regions h { r with state := .writable },
          table := mapMod x.table h (fun raw => putBytes raw 18 [raw.getD 18 0 ||| 1]) })
      else s
    | none => s

/-- The request of a fibre's write at a location. -/
def writeReq (s : State) (f : Nat) (a : Acc) (how : How) (loc : Loc) (x : Xl) (op : HomeOp) : HomeReq :=
  { fib := f, life := (s.fibre f).life, team := fibTeam f, core := s.coreOf f, ctx := s.ctxOf f, cxgen := (s.ctx (s.ctxOf f)).cxgen, loc := loc, pa := x.pa,
    key := x.key, gen := x.gen, hnd := a.hnd, op := op, through := how.home, unp := false,
    sc := if how.ord = .sc then some how.sc else none, hint := how.hint, seq := s.nextSeq f, issued := s.tick,
    replay := false }

/-- A store of bytes that are already translated: into the L1, or on its way (R321, R324). What lies in one 64-byte block is performed
whole, so no fetch sees it mixed, as R145 would allow. (DESIGN CHOICE, log 89.) -/
def storePieces (s : State) (f : Nat) (a : Acc) (how : How) : List (Nat × Xl) → List Byte → State
  | [], _ => s
  | (va, x) :: rest, bs =>
    let b := bs.take (64 - va % 64)
    let r := s.writeReq f a how (.glob va) x (.write b)
    let s :=
      if how.home || s.mustHold f (.glob va) then s.sendReq r
      else
        match s.coreWrite r va x b with
        | some s => s
        | none => s.sendReq r
    State.storePieces s f a how rest (bs.drop (64 - va % 64))

/-- store of R84 at a checked location: the translation fails precisely (R273). -/
def writeLoc (s : State) (f : Nat) (a : Acc) (how : How) (bs : List Byte) : Except Stop Unit × State :=
  match a.loc with
  | .glob va =>
    match s.translateRange (.core (s.coreOf f)) (s.ctxOf f) a.hnd .write (bs.length / 64 + 2) va bs.length [] with
    | (.error e, s) => (.error e, s)
    | (.ok xs, s) => (.ok (), (s.storePieces f a how xs bs).noteCodeStore (s.ctxOf f) a.code)
  | loc =>
    match s.place f loc with
    | none => (.error (.err { eff := Eff.memScratch, arg := sarg a.hnd 3 }), s)
    | some p =>
      if s.mustHold f loc then (.ok (), s.sendReq (s.writeReq f a { how with cv := false, ord := .plain } loc default (.write bs)))
      else (.ok (), s.placeWrite bs p)

end State

/-! ### Release and acquire (R325, R326) -/

namespace State

/-- Write back every Dirty sector of a core (R253), for the release of a fibre where `l` names one (R325). -/
def writeBackFor (s : State) (c : Nat) (l : Option Nat) : State :=
  ((s.core c).l1.map (·.1)).foldl (fun s k => s.writeBackBy c k true l) s

/-- The same, where no fibre's release does it. -/
def writeBackAll (s : State) (c : Nat) : State := s.writeBackFor c none

/-- acquire(L, s) of R326. -/
def acquire (s : State) (f : Nat) (sc : Scope) : State := s.acquireCore (s.coreOf f) sc (some f)

/-- Whether a network command of the fibre is outstanding (R325, step 3). -/
def netBusy (s : State) (f : Nat) : Bool :=
  s.cmds.any (fun e => e.2.fib == f && (match e.2.kind with
    | .xput .. | .xget .. | .xred .. => true
    | _ => false))

/-- Whether some sector of the core holds bytes that cannot go home yet: its frame is frozen (R265). -/
def dirtyLeft (s : State) (c : Nat) : Bool := (s.core c).l1.any (fun e => s.unsent c e.1)

end State

/-- How a release ends (R325): performed, waiting for something, or a store fault that its fibre raises. -/
inductive Released where
  | done
  | wait
  | fault (arg : Nat)
  deriving DecidableEq, Repr, Inhabited

namespace State

/-- Steps 1 and 2 of a release (R325): every earlier read and write of the fibre is performed, and at quad scope or wider every
Dirty sector of its core goes home; a write refused for good is a store fault of the fibre. -/
def releaseActs (s : State) (f : Nat) (sc : Scope) : State :=
  let s := s.arriveBefore f (fun _ => true)
  if beyondCore sc then s.writeBackFor (s.coreOf f) (some f) else s

/-- Whether a release still waits: for a frozen frame (R265), or at pod and sys for a network command (step 3 of R325). -/
def releaseWaits (s : State) (f : Nat) (sc : Scope) : Bool :=
  !(s.flying f).isEmpty || (beyondCore sc && s.dirtyLeft (s.coreOf f)) || ((sc == .pod || sc == .sys) && s.netBusy f)

/-- release(L, s) of R325. -/
def release (s : State) (f : Nat) (sc : Scope) : Released × State :=
  let s := s.releaseActs f sc
  match (s.fibre f).sfaults with
  | a :: rest => (.fault a, s.modFibre f (fun x => { x with sfaults := rest }))
  | [] => if s.releaseWaits f sc then (.wait, s) else (.done, s)

end State

end Sys2Proof.Machine
end

