-- ==== Sys2Proof/Machine/Ops.lean ====
section
/-!
DEFINITION. The named operations that instructions and device steps share: control transfers, tokens (R285), the masks and
rendezvous points (R184-R206), the ending of a fibre (R192), the capsule lock at home (R356-R367), the escalation queue (R396),
and TAKING AN EFFECT and RETURNING from one (R375-R397).
-/
namespace Sys2Proof.Machine

/-! ### Control -/

namespace Fibre
/-- Sequential flow to a code offset (R56); a fetch buffer counts only while it holds the line of the PC (R131). -/
def flow (f : Fibre) (pc : Word) : Fibre := { f with pc := pc, xfer := false }
/-- A taken transfer (R60): the fibre enters the target's line (R131). -/
def jump (f : Fibre) (pc : Word) : Fibre := { f with pc := pc, xfer := true, fbuf := none }
/-- The waiting instruction completes, and the PC moves to the next slot (R149). -/
def complete (f : Fibre) : Fibre := { (f.flow (nextPc f.pc)) with st := .ready, retry := false }
end Fibre

/-! ### Tokens (R285) -/

/-- An empty epoch. -/
def Tok.start : Tok := { count := 0, bytes := 0, nrz := false, errs := [], launches := [], engine := false, acq := [], wrote := [] }

/-- tok_open(F, L) of R84; no register means no token. -/
def State.tokOpen (s : State) (f : Nat) (r : Option Nat) : State :=
  match r with
  | none => s
  | some r => s.modFibre f (fun x => { x with tok := mapModD x.tok r Tok.start (fun t => { t with count := t.count + 1 }) })

/-- The value an epoch of engine commands writes (R285); `err` is the error it reports. -/
def engineValue (t : Tok) (err : Option Nat) : Nat :=
  match err with
  | some e => e
  | none => (if t.nrz then 2 ^ 30 else 0) + t.bytes % 2 ^ 30

/-- The values an epoch may write: one of its errors, or its total (R285), or a launch token's value (R425). -/
def tokValues (t : Tok) : List Nat :=
  t.launches ++ (if t.engine then (if t.errs.isEmpty then [engineValue t none] else t.errs) else [])

/-- tok_close(F, L, v) of R84: fold one command's result into the epoch; at count zero write the value. -/
def State.tokClose (s : State) (f : Nat) (r : Option Nat) (g : Tok → Tok) : State :=
  match r with
  | none => s
  | some r =>
    match mapGet (s.fibre f).tok r with
    | none => s
    | some t =>
      let t := g { t with count := t.count - 1 }
      if t.count ≠ 0 then s.modFibre f (fun x => { x with tok := mapSet x.tok r t })
      else
        let vs := tokValues t
        let v := match vs with
          | [v] => v
          | _ => vs.getD (s.pick 90 vs.length) 0
        s.modFibre f (fun x =>
          let x := { (x.force (rG r) (BitVec.ofNat 32 v)) with tok := mapDel x.tok r }
          if t.acq.isEmpty then x else { x with tokAcq := mapSet x.tokAcq r t.acq })

/-- The pending-token table is full and does not hold the register (R159). -/
def tokFull (x : Fibre) (r : Option Nat) : Bool :=
  match r with
  | none => false
  | some r => !mapHas x.tok r && decide (8 ≤ x.tok.length)

/-! ### The masks (R184-R190) -/

/-- Whether one entry of an escalation queue stands after another: of one core, by clk, core pack number and lane (R396, R426). -/
def Escal.after (a b : Escal) : Bool :=
  a.die == b.die && a.core == b.core &&
    (decide (b.clk < a.clk) || (a.clk == b.clk && (decide (b.pack < a.pack) || (a.pack == b.pack && decide (b.fib % 32 < a.fib % 32)))))

/-- A new entry comes before the first that stands after it. -/
def insEscal (q : List Escal) (e : Escal) : List Escal := q.takeWhile (fun a => !a.after e) ++ e :: q.dropWhile (fun a => !a.after e)

namespace State

/-- The fibres of a pack that still run. -/
def packFibres (s : State) (p : Nat) : List (Nat × Fibre) :=
  (List.range 32).filterMap (fun l => match s.fibre? (p * 32 + l) with
    | some x => if x.st = .exited then none else some (p * 32 + l, x)
    | none => none)

/-- Whether every lane of a mask waits as `p` says, or is EXITED or empty (R184). (DEDUCED, log 36.) -/
def maskMet (s : State) (p : Nat) (m : Word) (q : Fibre → Bool) : Bool :=
  (s.packFibres p).all (fun e => !m.getLsbD (fibLane e.1) || q e.2)

/-- Complete every waiting fibre of a pack that passes a test. -/
def completeWhere (s : State) (p : Nat) (q : Fibre → Bool) : State :=
  (s.packFibres p).foldl (fun s e => if q e.2 then s.modFibre e.1 Fibre.complete else s) s

/-- Evaluate the joins and the WAITM of mask i of a pack (R187, R189). -/
def recheckMask (s : State) (p i : Nat) : State :=
  let m := mapGetD (s.pack p).masks i 0
  let atPc (pc : Word) (x : Fibre) : Bool := x.st == .waiting (.join i) && x.pc == pc
  let pcs := ((s.packFibres p).filter (fun e => e.2.st == .waiting (.join i))).map (fun e => e.2.pc)
  let s := pcs.foldl (fun s pc => if s.maskMet p m (atPc pc) then s.completeWhere p (atPc pc) else s) s
  let w (x : Fibre) : Bool := x.st == .waiting (.waitm i)
  if (s.packFibres p).any (fun e => w e.2) && s.maskMet p m w then s.completeWhere p w else s

/-- Evaluate every mask of a pack (R187: whenever a lane arrives, a mask changes or a lane ends). -/
def recheckMasks (s : State) (p : Nat) : State := (List.range 12).foldl (fun s i => s.recheckMask p i) s

/-! ### Rendezvous points (R198-R205) -/

def point (s : State) (t b : Nat) : RvPoint := mapGetD (s.team t).points b RvPoint.start
def setPoint (s : State) (t b : Nat) (x : RvPoint) : State := s.modTeam t (fun y => { y with points := mapSet y.points b x })

/-- The fibres of a team that still run. -/
def teamFibres (s : State) (t : Nat) : List (Nat × Fibre) :=
  s.fibres.filter (fun e => fibTeam e.1 == t && e.2.st != .exited)

/-- The phase that a waiting fibre tests against (R202): a BWAIT reads its operand again (R155), a BSYNC and an immediate keep theirs. -/
def waitPhase (s : State) (f : Nat) (ph : Bool) (src : Option Nat) : Bool :=
  match src with
  | none => ph
  | some r => (s.readReg f r 97).getLsbD 0

/-- A fibre's BWAIT or BSYNC observes a completed phase: an acquire at core scope (R203), after which the k writes of those that
arrived reach it (R155); a BSYNC's D receives the phase it arrived in. -/
def rvDone (s : State) (f : Nat) (kdone : List Nat) (ph : Bool) (sync : Option Nat) : State :=
  s.modFibre f (fun x =>
    let x := { x with kacq := x.kacq ++ kdone }
    let x := match sync with
      | some r => x.put .v (rG r) (if ph then 1 else 0)
      | none => x
    x.complete)

/-- complete() of R201: the phase flips, drops apply and every fibre that waits on the point tests its condition again. -/
def rvComplete (s : State) (t b : Nat) : State :=
  let x := s.point t b
  let expect := x.expect - x.pend
  let ph := !x.phase
  let s := s.setPoint t b { x with phase := ph, arrivedN := 0, arrived := [], expect := expect, pend := 0,
                                    init := expect != 0, kdone := x.kser, kser := [] }
  (s.teamFibres t).foldl (fun s e =>
    match e.2.st with
    | .waiting (.rendezvous b' w sync src) => if b' = b ∧ s.waitPhase e.1 w src ≠ ph then s.rvDone e.1 x.kser w sync else s
    | _ => s) s

/-- arrive(L, drop) of R201, INIT already checked: the phase arrived in. -/
def rvArrive (s : State) (f b : Nat) (drop : Bool) : Bool × State :=
  let t := fibTeam f
  let x := s.point t b
  let drops := drop && !x.dropped.contains f
  let x' := { x with arrivedN := x.arrivedN + 1, arrived := f :: x.arrived,
                     pend := if drops then x.pend + 1 else x.pend, dropped := if drops then f :: x.dropped else x.dropped,
                     kser := x.kser ++ s.kBy f }
  let s := s.setPoint t b x'
  (x.phase, if x'.arrivedN = x'.expect then s.rvComplete t b else s)

/-- An ended fibre arrives at a point (R204): after the release of arrive (R201), which may still wait for a frozen frame (R265). -/
def lateArrive (s : State) (f b : Nat) : State :=
  let s := s.releaseActs f .core
  if s.releaseWaits f .core then s.modFibre f (fun y => { y with late := y.late ++ [b] }) else (s.rvArrive f b true).2

/-- What an ending fibre does at one point (R204). -/
def rvEnd (s : State) (f b : Nat) : State :=
  let x := s.point (fibTeam f) b
  if !x.init || !x.drop || !x.roles.getLsbD (s.roleOf f) then s
  else if x.dropped.contains f then s
  else if x.arrived.contains f then s.setPoint (fibTeam f) b { x with dropped := f :: x.dropped, pend := x.pend + 1 }
  else s.lateArrive f b

/-! ### Hierarchical barriers (R206) -/

/-- Whether two teams lie in one instance of a scope (R323). -/
def sameInstance (s : State) (t u : Nat) (sc : Scope) : Bool :=
  let T := s.team t
  let U := s.team u
  match sc with
  | .lane | .core => T.die == U.die && T.core == U.core
  | .quad => T.die == U.die && T.core / 4 == U.core / 4
  | .die => T.die == U.die
  | _ => true

/-- The teams of a launch in a team's instance of a scope (R206). -/
def hbarTeams (s : State) (t : Nat) (sc : Scope) : List Nat :=
  (s.teams.filter (fun e => e.2.ctx == (s.team t).ctx && e.2.lid == (s.team t).lid && s.sameInstance t e.1 sc)).map (·.1)

/-- The members of a barrier that still run: the non-helper fibres of those teams (R206). -/
def hbarMembers (s : State) (t : Nat) (sc : Scope) : List (Nat × Fibre) :=
  (s.hbarTeams t sc).flatMap (fun u => (s.teamFibres u).filter (fun e => !e.2.helper))

/-- Whether a fibre waits in an HBAR of a scope. -/
def inHbar (sc : Scope) (x : Fibre) : Bool :=
  match x.st with
  | .waiting (.hbar sc' _) => sc' == sc
  | _ => false

/-- The round of a team's barrier at a scope. -/
def hbarRoundOf (s : State) (t : Nat) (sc : Scope) : Nat := mapGetD (s.team t).hbarRound (scopeCode sc) 0

/-- The round advances once every member has arrived or is EXITED; each waiting member acquires and continues (R206). It
passes on no k writes, being no rendezvous point (R155). (DEDUCED, log 81.) -/
def recheckHbar (s : State) (t : Nat) (sc : Scope) : State :=
  let ms := s.hbarMembers t sc
  if ms.any (fun e => inHbar sc e.2) && ms.all (fun e => inHbar sc e.2) &&
      (s.hbarTeams t sc).all (fun u => (s.team u).phase == .running) then
    let r := s.hbarRoundOf t sc
    let s := (s.hbarTeams t sc).foldl (fun s u =>
      s.modTeam u (fun x => { x with hbarRound := mapSet x.hbarRound (scopeCode sc) (r + 1) })) s
    ms.foldl (fun s e => (s.acquire e.1 sc).modFibre e.1 Fibre.complete) s
  else s

/-! ### The ending of a fibre (R164, R192) -/

/-- The steps of R192 for one fibre; its bit of every mask of its pack is 0 afterwards, where R370 shows m0 as it was. (DEDUCED, log 71.) -/
def endOne (s : State) (f : Nat) : State :=
  let p := fibPack f
  let l := fibLane f
  let s := s.modFibre f (fun x =>
    { x with st := .exited, queues := [], loads := [], eff := none, held := none, capMode := false, missing := none, retracting := none,
             launching := none })
  let s := s.modPack p (fun x => { x with masks := mapAll x.masks (fun _ m => m &&& ~~~BitVec.ofNat 32 (2 ^ l)) })
  let s := s.modCore (s.coreOf f) (fun c => { c with watch := mapFilter c.watch (fun _ w => w.fib != f) })
  (List.range 24).foldl (fun s b => s.rvEnd f b) s

/-- Whether a pack has a non-helper fibre that runs (R164). -/
def hasNonHelper (s : State) (p : Nat) : Bool := (s.packFibres p).any (fun e => !e.2.helper)

/-- End a fibre; when it was its pack's last non-helper, every helper of the pack ends in the same clk (R164). -/
def endFibre (s : State) (f : Nat) : State :=
  let s := s.endOne f
  let s := if s.hasNonHelper (fibPack f) then s
    else (s.packFibres (fibPack f)).foldl (fun s e => s.endOne e.1) s
  let s := s.recheckMasks (fibPack f)
  [Scope.quad, .die, .pkg, .pod].foldl (fun s sc => s.recheckHbar (fibTeam f) sc) s

/-! ### The escalation queue and failures (R396, R421) -/

/-- A record of a fibre joins the escalation queue of its launch (R396). -/
def escalate (s : State) (f outcome eff : Nat) (pc : Word) (arg : Nat) : State :=
  let T := s.teamOf f
  let e : Escal := { ctx := T.ctx, lid := T.lid, x := T.x, y := T.y, z := T.z, outcome := outcome, eff := eff, fib := fibNum f,
                     die := T.die, core := T.core, pc := pc, arg := arg, clk := (s.core (s.coreOf f)).clk,
                     pack := T.brec.pkBase + fibNum f / 32 }
  s.modLaunch (launchKey T.ctx T.lid) (fun x => { x with escal := insEscal x.escal e })

/-- Kill a fibre for an effect (R394). -/
def killFibre (s : State) (f eff : Nat) (pc : Word) (arg : Nat) : State :=
  ((s.escalate f 1 eff pc arg).failTeam (fibTeam f)).endFibre f

/-! ### The capsule lock at home (R356-R367) -/

/-- The translation of a capsule block as an 8-byte atomic that writes (R366): `W` and `A` of its page. -/
def lockXl (s : State) (f va : Nat) : Except XErr Xl × State :=
  let u := XUnit.core (s.coreOf f)
  let c := s.ctxOf f
  match s.translate u c va .write with
  | (.error e, s) => (.error e, s)
  | (.ok _, s) =>
    match s.translate u c va .atomic with
    | (.error e, s) => (.error e, s)
    | (.ok x, s) => s.resolve u c va .atomic x

/-- The translation of a capsule block for an instruction, which also reads it (R361). -/
def capXl (s : State) (f va : Nat) : Except XErr Xl × State :=
  match s.translate (.core (s.coreOf f)) (s.ctxOf f) va .read with
  | (.error e, s) => (.error e, s)
  | (.ok _, s) => s.lockXl f va

/-- Whether an operation on a capsule block at home must wait: for an earlier access of its fibre to that sector (R331), which a halted
fibre keeps for its resumption (R404), or for a frozen frame (R265). -/
def capHeld (s : State) (f va : Nat) (x : Xl) : Bool :=
  (!(s.fibre f).halted && s.behind f (.glob va)) || s.homeHeld (s.coreOf f) x.pa x.key true

/-- Before an operation on a capsule block at home, its fibre's earlier accesses of that sector (R331); a halted fibre's stay what they
are (R404). -/
def capFirst (s : State) (f va : Nat) : State := if (s.fibre f).halted then s else s.arriveAt f (.glob va)

/-- The first 64 bytes of a capsule block at home; this core's copy of the sector goes home first, as for an atomic (R254). -/
def capRead (s : State) (f : Nat) (x : Xl) : List Byte × State :=
  ((s.flushSector (s.coreOf f) x.pa x.key true).seeHome f x.pa x.key).homeRead x.pa x.key 64

/-- Write bytes of a capsule block at home. -/
def capWrite (s : State) (f : Nat) (x : Xl) (off : Nat) (bs : List Byte) : State :=
  let s := s.flushSector (s.coreOf f) (x.pa + off) x.key true
  s.homeWrite (s.coreOf f / 128) (x.pa + off) x.key bs

end State

/-- `LOCK` (R357): bits [63:48] zero. -/
def lockWord (state step owner ogen : Nat) : Nat :=
  state + step % 64 * 4 + owner % 2 ^ 24 * 256 + ogen % 2 ^ 16 * 2 ^ 32
/-- `STATE` of a LOCK (R357). -/
def lockState (w : Nat) : Nat := bits w 1 0
def lockStep (w : Nat) : Nat := bits w 7 2
def lockOwner (w : Nat) : Nat := bits w 31 8
def lockOgen (w : Nat) : Nat := bits w 47 32

/-- The lock is of the tenure, running or parked (R359). -/
def tenureHolds (w : Nat) (h : Held) : Bool :=
  (lockState w == 1 || lockState w == 2) && lockOwner w == h.owner && lockOgen w == h.ogen

namespace State

/-- `OWNER` of a fibre whose tenure begins (R358). -/
def ownerOf (s : State) (f : Nat) : Nat :=
  2 ^ 23 + (s.teamOf f).die * 2 ^ 21 + (s.teamOf f).core * 2 ^ 14 + (s.teamOf f).brec.slot * 2 ^ 10 + fibNum f

/-- Change `STATE` of the fibre's lock when its tenure still matches (R366). The answer is false while the page must first be
made resident, or its frame is frozen (R265); a block that no longer translates keeps its LOCK, and the lost change is logged. -/
def changeLock (s : State) (f : Nat) (h : Held) (st : Nat) : Bool × State :=
  match (s.capFirst f h.block).lockXl f h.block with
  | (.error .nonres, s) | (.error .held, s) => (false, s)
  | (.error _, s) => (true, s.logCtx (s.ctxOf f) (.lockLost h.block st))
  | (.ok x, s) =>
    if s.capHeld f h.block x then (false, s)
    else
      let (bs, s) := s.capRead f x
      let w := fieldAt bs 0 8
      if tenureHolds w h then
        (true, s.capWrite f x 0 (leBytes 8 (lockWord st (lockStep w) (lockOwner w) (lockOgen w))))
      else (true, s)

/-- Write a mailbox: result and status, performed at home (R357, R363, R365). The answer is false while its page must first be
made resident, or its frame is frozen (R265); one that does not translate is lost, and logged. -/
def mailboxWrite (s : State) (f block mb result status : Nat) : Bool × State :=
  match (s.arriveAt f (.glob mb)).translate (.core (s.coreOf f)) (s.ctxOf f) mb .write with
  | (.error .nonres, s) | (.error .held, s) => (false, s)
  | (.error _, s) => (true, s.logCtx (s.ctxOf f) (.mailboxLost block))
  | (.ok x, s) =>
    if s.capHeld f mb x then (false, s)
    else
      (true, (s.flushSector (s.coreOf f) x.pa x.key true).homeWrite (s.coreOf f / 128) x.pa x.key
        (leBytes 8 (result + status * 2 ^ 32)))

/-- Park the lock of a fibre in capsule mode (R366). -/
def parkLock (s : State) (f : Nat) : Bool × State :=
  match (s.fibre f).held with
  | none => (true, s)
  | some h => s.changeLock f h 2

/-- The registers of a tenure's DREG pair whose tokens are pending: a write there must wait for them (R156, R159). -/
def leaveWaits (s : State) (f : Nat) (h : Held) : List Nat :=
  if h.adopter then [] else [h.dreg, h.dreg + 1].filter (s.fibre f).tokPending

/-- A fibre whose tenure is broken leaves capsule mode (R365): its own tenure's DREG pair receives (0, 3). -/
def leaveBroken (s : State) (f : Nat) (h : Held) : State :=
  s.modFibre f (fun y =>
    let y := if h.adopter then y else (y.force (rG h.dreg) 0).force (rG (h.dreg + 1)) 3
    { y with held := none, capMode := false })

/-- Break the tenure of a fibre (R365): the lock becomes broken; an adopter tells the original holder's mailbox, a holder's DREG
pair receives (0, 3); the fibre leaves capsule mode and drops its held capsule. -/
def breakLock (s : State) (f : Nat) : Bool × State :=
  match (s.fibre f).held with
  | none => (true, s)
  | some h =>
    match (s.arriveAt f (.glob h.block)).lockXl f h.block with
    | (.error .nonres, s) | (.error .held, s) => (false, s)
    | (.error _, s) => (true, (s.logCtx (s.ctxOf f) (.lockLost h.block 3)).leaveBroken f h)
    | (.ok x, s) =>
      if s.capHeld f h.block x then (false, s)
      else
        let (bs, s) := s.capRead f x
        let w := fieldAt bs 0 8
        if !tenureHolds w h then (true, s.leaveBroken f h)
        else
          let told := if h.adopter then s.mailboxWrite f h.block (fieldAt bs 0x30 8) 0 3 else (true, s)
          if !told.1 then told
          else
            (true, (told.2.capWrite f x 0 (leBytes 8 (lockWord 3 (lockStep w) (lockOwner w) (lockOgen w)))).leaveBroken f h)

end State

/-! ### A fibre at a halt (R404) -/

/-- Every result of instructions already issued arrives, Class A ones too, but those of an LD whose read is not yet performed, which stays
a replay packet (R404). -/
def Fibre.arriveEvery (f : Fibre) : Fibre :=
  let f := Fibre.settleWith (fun w => w.load.isNone) f.pend [] f
  { f with kok := f.kacq ++ f.kok, kacq := [] }

/-- A fibre at a halt (R149, R404): its results arrive, so that a PARKED one that waits for no LD is READY, and its fetch buffer is
discarded. -/
def Fibre.stop (x : Fibre) : Fibre :=
  if x.st = .exited then x
  else
    let y := x.arriveEvery
    { y with halted := true, fbuf := none, st := if y.st = .parked ∧ !y.outstanding then .ready else y.st }

/-! ### Taking an effect (R378) -/

/-- The special values of %hsp (R375). -/
def hspNone : Nat := 0xFFFFFFFF
def hspTeam : Nat := 0xFFFFFFFE

/-- Whether an effect carries a `.once` token (R390). -/
def resumable (e : Nat) : Bool :=
  [Eff.isaMissing, Eff.codeUnadopted, Eff.codeRetracted, Eff.memNonres, Eff.debug].contains e

/-- A token (R380): record address in [47:0], generation above. -/
def tokenOf (tgen slot fib rec : Nat) : Nat := tgen % 2 ^ 16 * 2 ^ 48 + slot * 2 ^ 26 + fib * 2 ^ 16 + rec

/-- What the search for a handler ends at (R377, R378): a matching record, the end of the chain, a record outside the slice; or
it never ends, on a chain with a cycle. -/
inductive Found where
  | record (r : Nat)
  | bottom (v : Nat)
  | bad (r : Nat)
  | never
  deriving DecidableEq, Repr, Inhabited

namespace State

/-- The search of R378. A lane slice holds at most 512 distinct record offsets, so a longer chain has a cycle. -/
def findHandler (s : State) (f lane eff : Nat) : Nat → Nat → Found
  | 0, _ => .never
  | n + 1, r =>
    if r = hspNone ∨ r = hspTeam then .bottom r
    else if r % 16 ≠ 0 ∨ lane < r + 64 then .bad r
    else if ((eff ^^^ (s.laneNat f (r + 16) 2 % 4096)) &&& (s.laneNat f (r + 18) 2 % 4096)) = 0 then .record r
    else State.findHandler s f lane eff n (s.laneNat f (r + 12) 4)

/-- The bytes of a suspension record (R379): [31:0] of it, then `STRAP` for a trap and zeros in its reserved bytes (R9), then `SNAP` for
`.multi`. -/
def writeSusp (s : State) (f at_ : Nat) (x : Fibre) (e : PendEff) (kind tgen shrec : Nat) : State :=
  let skind := kind + (if e.trap then 4 else 0) + 8 + (if e.capm then 16 else 0) + (if e.sxfer then 32 else 0)
  let head := leBytes 4 e.spc.toNat ++ leBytes 4 x.hsp.toNat ++ leBytes 4 (x.latest (rG 2)).toNat ++ leBytes 4 x.predWord.toNat ++
    leBytes 2 tgen ++ [BitVec.ofNat 8 skind, BitVec.ofNat 8 e.dest] ++ leBytes 4 shrec ++ leBytes 4 (e.eff % 4096) ++ leBytes 4 e.simm
  let s := s.laneWrite f at_ head
  let s := if e.trap then s.laneWrite f (at_ + 32) (bytesOf ([x.latest (rG 1)] ++ x.latestFrom 4 5)) else s
  let s := s.laneWrite f (at_ + 56) (List.replicate 8 0)
  if kind = 2 then s.laneWrite f (at_ + 64) (bytesOf (x.latestFrom 16 16)) else s

/-- The pack of an unhandled ISA.MISSING is halted for its service, as by a halt, and in mode 1 signalled (R395, R404). -/
def haltMissing (s : State) (f : Nat) (e : PendEff) : State :=
  let word : IWord := BitVec.ofNat 96 (e.arg * 2 ^ 32 + e.simm)
  let T := s.teamOf f
  let s := (s.packFibres (fibPack f)).foldl (fun s x => s.modFibre x.1 Fibre.stop) s
  let s := s.modFibre f (fun x => { x with missing := some word, eff := none })
  if (s.ctx T.ctx).missingMode = 1 then
    (s.escalate f 3 e.eff e.spc e.arg).logCtx T.ctx (.signal T.lid T.x T.y T.z (fibNum f) e.spc.toNat word)
  else s

/-- An effect that no handler takes (R394, R395): an ISA.MISSING halts the fibre's pack for its service, once the pack's release at sys
scope is performed; any other kills. -/
def unhandled (s : State) (f : Nat) (e : PendEff) : State :=
  if e.eff = Eff.isaMissing then
    let s := (s.packFibres (fibPack f)).foldl (fun s x => s.releaseActs x.1 .sys) s
    if (s.packFibres (fibPack f)).any (fun x => s.releaseWaits x.1 .sys) then s else s.haltMissing f e
  else s.killFibre f e.eff e.spc e.arg

/-- Deliver an effect to a handler record or to the team handler (R378): the suspension record, then the registers, the handler
stack and the PC of the handler. One that would not fit kills the fibre for MEM.STACK, with the place of the record as its argument
(R250, R394). (DEDUCED, log 18.) -/
def deliverTo (s : State) (f : Nat) (e : PendEff) (team : Bool) (r : Nat) : State :=
  let x := s.fibre f
  let lane := (s.blockOf f).lane
  let g2 := (x.latest (rG 2)).toNat
  let rsv := if e.trap then 0 else e.rsv
  let at_ : Int := (((g2 : Int) - rsv) / 16) * 16 - 128
  if at_ < 0 ∨ (lane : Int) < at_ + 128 then s.killFibre f Eff.memStack e.spc (marg 1 at_)
  else
    let o := at_.toNat
    let kind := if team ∧ e.kind = 2 then 1 else e.kind
    let tgen := if team then (s.laneNat f (o + 16) 2 + 1) % 2 ^ 16 else s.laneNat f (r + 20) 2
    let hpc := if team then (s.blockOf f).hpc else BitVec.ofNat 32 (s.laneNat f r 4)
    let parent := if team then hspTeam else s.laneNat f (r + 12) 4
    let s := s.writeSusp f o x e kind tgen (if team then hspTeam else r)
    let s := if team then s.escalate f 0 e.eff e.spc e.arg else s
    let tok := tokenOf tgen (s.teamOf f).brec.slot (fibNum f) o
    s.modFibre f (fun y =>
      let y := y.force (rG 2) (BitVec.ofNat 32 o)
      let y := y.forceFrom 4 (natWords 2 e.arg ++ natWords 2 tok ++ [BitVec.ofNat 32 e.eff])
      { (y.jump hpc) with hsp := BitVec.ofNat 32 parent, eff := none, capMode := false, st := .ready, retry := false })

/-- Every result of a fibre that is outstanding arrives (R157), the reads of its LDs performed first. -/
def arriveAll (s : State) (f : Nat) : State :=
  let bs := (s.fibre f).loads.map (fun l => locBlock l.2.loc)
  (s.arriveBefore f (fun x => bs.contains x.block)).modFibre f Fibre.arriveAll

/-- A fibre after a halt (R157): every result has arrived before its first instruction, so that a PARKED one is READY. -/
def arriveAfterHalt (s : State) (f : Nat) : State :=
  (s.arriveAll f).modFibre f (fun x => if x.st = .parked then { x with st := .ready } else x)

/-- A fibre's earlier accesses to its lane slice are performed, before the device reads and writes its records there (R331). -/
def laneFirst (s : State) (f : Nat) : State := s.arriveBefore f (fun x => x.block.1 == 2)

/-- deliver of R378, once nothing holds it up: the fibre's results have arrived (R157), and no pending token lies in g4-g8. -/
def deliver (s : State) (f : Nat) (e : PendEff) : State :=
  let s := (s.arriveAll f).laneFirst f
  let x := s.fibre f
  match s.findHandler f (s.blockOf f).lane e.eff 513 x.hsp.toNat with
  | .never => s
  | .bad r => s.killFibre f Eff.memStack e.spc (marg 1 r)
  | .record r => s.deliverTo f e false r
  | .bottom v =>
    if v = hspNone ∧ (s.blockOf f).hrgn ≠ 0 then s.deliverTo f e true v else s.unhandled f e

/-- An effect breaks its fibre's tenure (R365). -/
def breaks (x : Fibre) (eff : Nat) : Bool := x.capMode && (eff == Eff.capLimit || eff == Eff.capIllegal)

/-- Deliver a fibre's pending effect, unless something still holds it up: a pending token in g4-g8, or in the DREG pair that a broken
tenure writes (R156, R378), or a capsule block whose page is not resident (R366). -/
def tryDeliver (s : State) (f : Nat) : State :=
  let x := s.fibre f
  match x.eff with
  | none => s
  | some e =>
    if [4, 5, 6, 7, 8].any x.tokPending || (breaks x e.eff && x.held.any (fun h => !(s.leaveWaits f h).isEmpty)) then s
    else
      let (ready, s) :=
        if !x.capMode then (true, s)
        else if breaks x e.eff then s.breakLock f
        else s.parkLock f
      if ready then s.deliver f e else s

/-- raise(L, e, arg) of R84, for a fibre whose instruction stands at pc: its fetch buffer is discarded (R131), what an
instruction of it that waited had begun is given up (DESIGN CHOICE, log 72), and nothing else of it changes but for the delivery. SPC is
pc, and SXFER says whether a taken transfer led there; a breakpoint's SPC is the next slot, which no transfer led to (R379). A fibre that has ended raises nothing (R149). -/
def raiseAt (s : State) (f : Nat) (err : Err) (pc : Word) (simm : Nat) : State :=
  let x := s.fibre f
  if x.st = .exited then s
  else
  let e : PendEff := { eff := err.eff, arg := err.arg, kind := if resumable err.eff then 1 else 0, dest := 0xFE, trap := true,
                       rsv := 0, spc := if err.eff = Eff.debug then nextPc pc else pc,
                       sxfer := x.xfer && err.eff != Eff.debug, simm := simm,
                       capm := x.capMode && !breaks x err.eff }
  (s.setFibre f { x with
    pc := pc, eff := some e, st := .ready, retry := false, fbuf := none, retracting := none, launching := none }).tryDeliver f

/-! ### Returning from an effect (R387, R388, R392) -/

/-- `RESUME` of a suspension record whose token has passed its checks: the state of the suspended computation (R387, R392). v is
the resumption value. -/
def resumeFrom (s : State) (f rec : Nat) (v : Word) : State :=
  let skind := s.laneNat f (rec + 18) 1
  let kind := skind % 4
  let trap := bit skind 2
  let spc : Word := BitVec.ofNat 32 (s.laneNat f rec 4)
  let sdest := s.laneNat f (rec + 19) 1
  let strap := wordsOf (s.laneRead f (rec + 32) 24)
  let snap := wordsOf (s.laneRead f (rec + 64) 64)
  let hsp := BitVec.ofNat 32 (s.laneNat f (rec + 4) 4)
  let g2 := BitVec.ofNat 32 (s.laneNat f (rec + 8) 4)
  let pred := BitVec.ofNat 32 (s.laneNat f (rec + 12) 4)
  let seid := s.laneNat f (rec + 24) 4 % 4096
  let retryRead (e : QEntry) : QEntry :=
    match e.at_ with
    | .fault _ _ (some pc) => if pc = spc.toNat then { e with at_ := .flight } else e
    | _ => e
  (s.arriveAll f).modFibre f (fun x =>
    let x := if trap && decide (seid = Eff.memNonres) then { x with queues := mapAll x.queues (fun _ q => q.map retryRead) } else x
    let x := ({ x with hsp := hsp }.force (rG 2) g2).setPred pred
    let x := if trap then (x.force (rG 1) (strap.getD 0 0)).forceFrom 4 (strap.drop 1) else x
    let x := if kind = 2 then x.forceFrom 16 snap else x
    let x := if !trap && decide (sdest < 128) then x.force (rG sdest) v else x
    let x := if bit skind 4 then { x with capMode := true } else x
    if !trap then x.jump spc
    else if seid = Eff.isaMissing ∧ v.getLsbD 0 then { (x.jump (nextPc spc)) with xfer := false }
    else { (x.jump spc) with xfer := bit skind 5 })

/-- `UNWIND` of a suspension record of a handler record (R388). (DEDUCED, log 21.) -/
def unwindTo (s : State) (f rec : Nat) (v : Word) : State :=
  let capm := bit (s.laneNat f (rec + 18) 1) 4
  let shrec := s.laneNat f (rec + 20) 4
  let ssp := BitVec.ofNat 32 (s.laneNat f (shrec + 8) 4)
  let parent := BitVec.ofNat 32 (s.laneNat f (shrec + 12) 4)
  let xpc : Word := BitVec.ofNat 32 (s.laneNat f (shrec + 4) 4)
  let s := s.laneWrite f (shrec + 20) (leBytes 2 (s.laneNat f (shrec + 20) 2 + 1))
  let s := s.laneWrite f (shrec + 24) (leBytes 4 hspNone)
  (s.arriveAll f).modFibre f (fun x =>
    let x := ({ x with hsp := parent }.force (rG 2) ssp).force (rG 4) v
    let x := if capm then { x with held := none, capMode := false } else x
    x.jump xpc)

end State

end Sys2Proof.Machine
end

