-- ==== Sys2Proof/Machine/Operands.lean ====
section
/-!
DEFINITION. Every operand form (R66-R71, R74, R76), the checks of R81 that need the running lane, and how an instruction runs
over the lanes of its batch (R64, R65, R83): every operand of every lane is read before any lane writes.
-/
namespace Sys2Proof.Machine

/-! ### What an instruction reads and writes -/

/-- What the checks and the operand reads need to know of an instruction. -/
structure Need where
  head : Head
  imm : Word
  /-- `IMM` is sign-extended into a 64-bit operand (R71). -/
  sgn : Bool := false
  /-- 32-bit registers read through A, B, C and D; 0 where the field is not read as a value. -/
  na : Nat := 0
  nb : Nat := 0
  nc : Nat := 0
  nd : Nat := 0
  /-- 32-bit registers written through D. -/
  wd : Nat := 0
  /-- Allowed in capsule mode (R207, R245, R297, R368). -/
  cap : Bool := false
  /-- Does nothing in a helper lane (R84). -/
  live : Bool := false
  /-- Checks `PRIV` (R412). -/
  priv : Bool := false
  /-- D is a token register, whose pending count does not stall the instruction (R284). -/
  tokD : Bool := false
  /-- A is a token register that is tested, not read (R296). -/
  tokA : Bool := false
  /-- g registers read or written that no specifier names. -/
  also : List Nat := []
  /-- Registers read that no specifier names, by number. -/
  imp : List Nat := []
  deriving DecidableEq, Repr, Inhabited

/-- A lane of a batch that runs an instruction: its fibre, and how many k writes its team had made before the instruction. -/
structure Ln where
  b : Batch
  l : Nat
  f : Nat
  k0 : Nat
  deriving DecidableEq, Repr, Inhabited

/-- Operand values, one list of 32-bit registers each. -/
structure Vals where
  a : List Word
  b : List Word
  c : List Word
  d : List Word
  deriving DecidableEq, Repr, Inhabited

/-! ### Reading (R67, R68) -/

namespace State

/-- The value of a special register in a lane (R67). -/
def special (s : State) (b : Batch) (l : Nat) : Special → Word
  | .lane => BitVec.ofNat 32 l
  | .pack => BitVec.ofNat 32 b.pack
  | .role => BitVec.ofNat 32 (s.roleOf (b.fib l))
  | .fibre => BitVec.ofNat 32 (b.pack * 32 + l)
  | .teamX => BitVec.ofNat 32 (s.team b.team).x
  | .teamY => BitVec.ofNat 32 (s.team b.team).y
  | .teamZ => BitVec.ofNat 32 (s.team b.team).z
  | .gridX => BitVec.ofNat 32 (s.launchOfTeam b.team).blk.gx
  | .gridY => BitVec.ofNat 32 (s.launchOfTeam b.team).blk.gy
  | .gridZ => BitVec.ofNat 32 (s.launchOfTeam b.team).blk.gz
  | .core => BitVec.ofNat 32 (s.team b.team).core
  | .quad => BitVec.ofNat 32 ((s.team b.team).core / 4)
  | .die => BitVec.ofNat 32 (s.team b.team).die
  | .pkg => BitVec.ofNat 32 (Config.pkgNumber % 16384)
  | .shape0 => (s.launchOfTeam b.team).shape.getD 0 0
  | .shape1 => (s.launchOfTeam b.team).shape.getD 1 0
  | .shape2 => (s.launchOfTeam b.team).shape.getD 2 0
  | .shape3 => (s.launchOfTeam b.team).shape.getD 3 0
  | .bucket => BitVec.ofNat 32 (s.launchOfTeam b.team).bucket
  | .hsp => (s.fibre (b.fib l)).hsp
  | .lanemaskLt => BitVec.ofNat 32 (2 ^ l - 1)
  | .active => maskOf b.lanes
  | .ctx => BitVec.ofNat 32 (s.team b.team).ctx
  | .launch => BitVec.ofNat 32 (s.team b.team).lid

/-- The register number of a specifier in a lane: a g specifier below 8 names a c register in capsule mode (R66). -/
def regOf (x : Fibre) : Spec → Option Nat
  | .g i => some (if x.capMode && decide (i.val < 8) then rC i.val else rG i.val)
  | .k i => some (rK i.val)
  | .p i => some (rP i.val)
  | .m i => some (rM i.val)
  | _ => none

/-- Consecutive registers from one number on. -/
def readRegs (s : State) (f r salt : Nat) : Nat → List Word
  | 0 => []
  | n + 1 => s.readReg f r salt :: s.readRegs f (r + 1) (salt + 1) n

/-- The n words a source specifier gives in a lane (R68, R71): registers from the named one on; any other source is one word,
zero-extended, but that `IMM` is sign-extended where the type says so. -/
def readSpec (s : State) (b : Batch) (l : Nat) (imm : Word) (sgn : Bool) (salt : Nat) (n : Nat) (sp : Spec) : List Word :=
  let ext (w : Word) (neg : Bool) : List Word :=
    match n with
    | 0 => []
    | n + 1 => w :: List.replicate n (if neg then 0xFFFFFFFF#32 else 0)
  match sp with
  | .g _ | .k _ =>
    match regOf (s.fibre (b.fib l)) sp with
    | some r => s.readRegs (b.fib l) r salt n
    | none => []
  | .p i => ext (s.readReg (b.fib l) (rP i.val) salt) false
  | .m i => ext (s.readReg (b.fib l) (rM i.val) salt) false
  | .sp r => ext (s.special b l r) false
  | .imm => ext imm (sgn && imm.getLsbD 31)
  | .q _ | .none => []

/-- The operands of a lane; a free choice of the contract differs from field to field. -/
def readVals (s : State) (n : Need) (b : Batch) (l : Nat) : Vals :=
  { a := s.readSpec b l n.imm n.sgn (l * 128 + 0) n.na n.head.a
    b := s.readSpec b l n.imm n.sgn (l * 128 + 16) n.nb n.head.b
    c := s.readSpec b l n.imm n.sgn (l * 128 + 32) n.nc n.head.c
    d := s.readSpec b l n.imm n.sgn (l * 128 + 48) n.nd n.head.d }

/-- The guard of a lane (R64): p[GP] exclusive-or GN, p0 reading 1. -/
def guard (s : State) (b : Batch) (l : Nat) (g : Guard) : Bool :=
  (s.readReg (b.fib l) (rP g.gp.val) (l * 128 + 64) != 0) != g.gn

end State

/-! ### Writing (R69) -/

namespace State

/-- Whether a lower lane of the batch has written k register i in this instruction (R69). -/
def kWritten (s : State) (ln : Ln) (i : Nat) : Bool := ((s.team ln.b.team).k.drop ln.k0).any (fun w => w.reg == i)

/-- Write one register through a specifier: a p register takes whether the value is not zero; a k register takes the value of
the lowest lane that writes it (R69, R162). -/
def put1 (s : State) (ln : Ln) (cls : Cls) (sp : Spec) (v : Word) : State :=
  match sp with
  | .k i => if s.kWritten ln i.val then s else s.putK ln.b ln.f cls i.val v
  | .p i => s.modFibre ln.f (fun x => x.put cls (rP i.val) (if v = 0 then 0 else 1))
  | .g i => s.modFibre ln.f (fun x => x.put cls (if x.capMode && decide (i.val < 8) then rC i.val else rG i.val) v)
  | _ => s

/-- Write consecutive registers from the specifier's on. -/
def putFrom (s : State) (ln : Ln) (cls : Cls) (sp : Spec) : Nat → List Word → State
  | _, [] => s
  | i, w :: ws =>
    let sp' : Spec := match sp with
      | .g j => if h : j.val + i < 128 then .g ⟨j.val + i, h⟩ else .none
      | .k j => if h : j.val + i < 64 then .k ⟨j.val + i, h⟩ else .none
      | x => x
    State.putFrom (s.put1 ln cls sp' w) ln cls sp (i + 1) ws

/-- dst(F, L, ty, v) of R84: a value of n registers. A value written to a p register sets it when any bit is set (R69, R71), that
of -0 too (DESIGN CHOICE, log 78); 0xFE writes nothing. -/
def putD (s : State) (ln : Ln) (cls : Cls) (sp : Spec) (n v : Nat) : State :=
  match sp with
  | .p _ => s.put1 ln cls sp (if v % 2 ^ (32 * n) = 0 then 0 else 1)
  | _ => s.putFrom ln cls sp 0 (natWords n v)

end State

/-! ### The checks of R81 that need the lane -/

/-- What becomes of a lane at steps 2 to 7 of R81, and at the waits of R159. -/
inductive Fate where
  | off
  | nop
  | err (e : Err)
  | wait (w : Wait)
  | go
  deriving DecidableEq, Repr, Inhabited

/-- The four specifier fields with the registers each covers, in the order of R158: A, B, C, D. -/
def Need.fields (n : Need) : List (Spec × Nat × Nat) :=
  [(n.head.a, n.na, 1), (n.head.b, n.nb, 2), (n.head.c, n.nc, 3), (n.head.d, max n.nd n.wd, 4)]

/-- The word of an instruction as an effect's argument (R390). -/
def wordArg (w : IWord) : Nat := w.toNat / 2 ^ 32
/-- The `IMM` of a word (R379). -/
def wordImm (w : IWord) : Nat := w.toNat % 2 ^ 32

/-- ISA.ILLEGAL with the word (R390). -/
def illegal (w : IWord) : Err := { eff := Eff.isaIllegal, arg := wordArg w }

/-- Register limits of R70 and R365 for one specifier that covers n registers. Special registers and `IMM` are no registers of the
fibre, and stay allowed in capsule mode. (DEDUCED, log 70.) -/
def specErr (x : Fibre) (budget : Nat) (sp : Spec) (n : Nat) : Option Nat :=
  match sp with
  | .g i =>
    if x.capMode then if 8 < i.val + max n 1 then some Eff.capIllegal else none
    else if budget < i.val + max n 1 then some Eff.isaIllegal else none
  | .p i => if x.capMode && decide (8 ≤ i.val) then some Eff.capIllegal else none
  | .k _ | .m _ => if x.capMode then some Eff.capIllegal else none
  | _ => none

/-- The virtual address of the held block, the argument of the CAP effects (R390). -/
def heldBlock (x : Fibre) : Nat := (x.held.map (·.block)).getD 0

/-- Step 4 of R81 for the lane (R70). -/
def Need.limits (n : Need) (x : Fibre) (budget : Nat) (w : IWord) : Option Err :=
  match n.fields.findSome? (fun e => specErr x budget e.1 e.2.1) with
  | none => none
  | some eff => some { eff := eff, arg := if eff = Eff.capIllegal then heldBlock x else wordArg w }

/-- The registers that a specifier which gives n words covers in a lane: none where the field is not read. -/
def regsOf (x : Fibre) (sp : Spec) (n : Nat) : List Nat :=
  match State.regOf x sp with
  | none => []
  | some r => match sp with
    | .p _ | .m _ => if n = 0 then [] else [r]
    | _ => List.range' r n

/-- The encoding of the latency effect's field (R158). -/
def hazardArg (fld spec : Nat) : Nat := fld * 256 + spec

/-- The specifier that names a register by its number (R66). -/
def specOfReg (r : Nat) : Nat :=
  if r < 128 then r else if r < 144 then 0xC0 + (r - 128) else if r < 152 then r - 144 else if r < 224 then 0x80 + (r - 160)
  else 0xD0 + (r - 224)

/-- A read of register r is early and checked: a token register stalls its reader instead (R158). -/
def earlyRead (x : Fibre) (r : Nat) : Bool := x.early r && !(decide (r < 128) && x.tokPending r)

/-- The registers that the instruction reads in the lane though no specifier names them: c registers in capsule mode alone (R66). -/
def Need.implied (n : Need) (x : Fibre) : List Nat := n.imp.filter (fun r => x.capMode || !decide (144 ≤ r ∧ r < 152))

/-- Step 7 of R81 (R158): the first early read, of the guard, A, B, C, D, or of a register that no field names. `lfld` is `LFLD` of
the last, for which R158 gives no code. (DESIGN CHOICE, log 59.) -/
def Need.hazard (n : Need) (x : Fibre) (lfld : Nat) : Option Err :=
  if x.early (rP n.head.guard.gp.val) then some { eff := Eff.latHazard, arg := hazardArg 0 (0xC0 + n.head.guard.gp.val) }
  else
    ([(n.head.a, n.na, 1), (n.head.b, n.nb, 2), (n.head.c, n.nc, 3), (n.head.d, n.nd, 4)].findSome? (fun e =>
      if (regsOf x e.1 e.2.1).any (earlyRead x) then
        some { eff := Eff.latHazard, arg := hazardArg e.2.2 (encodeSpec e.1) } else none)).or
    (((n.implied x).find? (earlyRead x)).map (fun r => { eff := Eff.latHazard, arg := hazardArg lfld (specOfReg r) }))

/-- The g registers whose pending tokens the instruction must wait for (R159). -/
def Need.tokens (n : Need) (x : Fibre) : List Nat :=
  let of (sp : Spec) (k : Nat) := (regsOf x sp k).filter (fun r => decide (r < 128) && x.tokPending r)
  (if n.tokA then [] else of n.head.a n.na) ++ of n.head.b n.nb ++ of n.head.c n.nc ++
    (if n.tokD then [] else of n.head.d (max n.nd n.wd)) ++ n.also.filter x.tokPending

/-- The fate of a lane (R64, R81). A helper lane that fails a check of steps 2 to 7 treats the instruction as NOP. The check of the 65th
instruction of a tenure (R365) stands between steps 4 and 5; R81 gives it no place. (DESIGN CHOICE, log 60.) -/
def State.fate (s : State) (n : Need) (b : Batch) (l : Nat) : Fate :=
  let x := s.fibre (b.fib l)
  if !s.guard b l n.head.guard then .off
  else
    let bad (e : Err) : Fate := if x.helper then .nop else .err e
    match n.limits x (s.budget (b.fib l)) b.word with
    | some e => bad e
    | none =>
      if x.capMode && decide (64 < ((x.held.map (·.count)).getD 0)) then bad { eff := Eff.capLimit, arg := heldBlock x }
      else if x.capMode && !n.cap then bad { eff := Eff.capIllegal, arg := heldBlock x }
      else if n.priv && !(s.ctx (s.team b.team).ctx).priv then bad { eff := Eff.isaPriv, arg := wordArg b.word }
      else
        match (if (s.launchOfTeam b.team).blk.strictlat then n.hazard x (s.pick (l * 128 + 98) 8) else none) with
        | some e => bad e
        | none =>
          if x.helper && n.live then .nop
          else
            match n.tokens x with
            | [] => .go
            | r :: rs => .wait (.token (r :: rs))

/-! ### Running over the batch (R83) -/

/-- The IMM that a suspension record keeps (R379): of ISA.ILLEGAL, ISA.MISSING and ISA.PRIV only. -/
def simmOf (e : Err) (w : IWord) : Nat :=
  if e.eff = Eff.isaIllegal ∨ e.eff = Eff.isaMissing ∨ e.eff = Eff.isaPriv then wordImm w else 0

namespace State

/-- raise(L, e, arg) of R84 at the instruction of the batch, which the fibre reached as it did (R379). -/
def raise (s : State) (ln : Ln) (e : Err) : State :=
  (s.modFibre ln.f (fun x => { x with xfer := x.came })).raiseAt ln.f e ln.b.pc (simmOf e ln.b.word)

/-- Whether a fibre has ended (R149: for good); in a batch, a helper that another lane's kill has ended runs nothing more (R164). -/
def hasEnded (s : State) (f : Nat) : Bool := (s.fibre f).st == .exited

/-- The lane waits at the instruction (R159), to which it came as it did (R60). -/
def waitAt (s : State) (ln : Ln) (w : Wait) : State :=
  s.modFibre ln.f (fun x => if x.st = .exited then x else { x with pc := ln.b.pc, st := .waiting w, retry := true, xfer := x.came })

/-- The lane stays at the instruction, which has not executed (R160). -/
def stall (s : State) (ln : Ln) : State :=
  s.modFibre ln.f (fun x => { x with pc := ln.b.pc, retry := true, xfer := x.came })

/-- An access that is not performed ends the instruction with its effect, or leaves the lane at it (R160, R248, R265). -/
def stop (s : State) (ln : Ln) : Stop → State
  | .err e => s.raise ln e
  | .held => s.stall ln

/-- The instruction of a lane is over and its PC moves on (R56); what it does then may transfer. -/
def pass (s : State) (f : Nat) (pc : Word) : State :=
  s.modFibre f (fun x => { (x.flow (nextPc pc)) with retry := false })

/-- The acquires that the first read of a launch token makes (R424). -/
def tokenAcquires (s : State) (n : Need) (f : Nat) : State :=
  let x := s.fibre f
  let rs := ((regsOf x n.head.a n.na) ++ (regsOf x n.head.b n.nb) ++ (regsOf x n.head.c n.nc) ++ (regsOf x n.head.d n.nd) ++ n.implied x).filter
    (fun r => decide (r < 128) && mapHas x.tokAcq r)
  rs.foldl (fun s r =>
    match mapGet (s.fibre f).tokAcq r with
    | none => s
    | some scs => (scs.foldl (fun s sc => s.acquire f sc) s).modFibre f (fun y => { y with tokAcq := mapDel y.tokAcq r })) s

/-- A lane does not run the instruction after all: its PC moves on, and what the instruction had begun before a wait is given up (R111,
R140). -/
def skip (s : State) (f : Nat) (pc : Word) : State :=
  s.modFibre f (fun x => { (x.flow (nextPc pc)) with retry := false, retracting := none, launching := none })

/-- A lane that does not run the instruction's body: guard false, helper, effect, or wait; or one that is to run it. -/
def settleLane (s : State) (ln : Ln) : Fate → State
  | .off | .nop => s.skip ln.f ln.b.pc
  | .go => s.pass ln.f ln.b.pc
  | .err e => s.raise ln e
  | .wait w => s.waitAt ln w

end State

/-- A lane of a batch that runs an instruction in a state. -/
def State.laneOf (s : State) (b : Batch) (l : Nat) : Ln := { b := b, l := l, f := b.fib l, k0 := (s.team b.team).k.length }

/-- Run an instruction over the batch in hand: fates and operands of every lane first, on the state before the instruction
(R65); then the lanes that do not run it; then `body` over the lanes that do, ascending, each with its operands. (DEDUCED, log 55.) -/
def runBatch (n : Need) (body : List (Ln × Vals) → State → State) (s : State) : State :=
  match s.cur with
  | none => s
  | some b =>
    let fates := b.lanes.map (fun l => (l, s.fate n b l))
    let goers := (fates.filter (fun e => e.2 == .go)).map (·.1)
    let lane := s.laneOf b
    let lns := goers.map (fun l => (lane l, s.readVals n b l))
    let s := fates.foldl (fun s e => s.settleLane (lane e.1) e.2) s
    let s := lns.foldl (fun s e => s.tokenAcquires n e.1.f) s
    body lns s

/-- Run an instruction lane by lane (R83). -/
def runLanes (n : Need) (body : Ln → Vals → State → State) (s : State) : State :=
  runBatch n (fun lns s => lns.foldl (fun s e => body e.1 e.2 s) s) s

/-- elect(batch) of R84: the lowest live lane. -/
def State.elect (s : State) (g : Guard) (b : Batch) : Option Nat := b.lanes.find? (fun l => s.guard b l g && !(s.fibre (b.fib l)).helper)

/-- What an instruction's own checks say of a lane (step 8 of R81). -/
inductive Prep (α : Type) where
  | err (e : Err)
  | stall
  | wait (w : Wait)
  | ok (x : α)
  deriving DecidableEq, Repr, Inhabited

/-- `SMASK`: the lanes of the batch that fail step 4 with MEM.SCRATCH (R250). -/
def smaskOf {α : Type} (ps : List (Ln × Prep α)) : Nat :=
  (maskOf (ps.filterMap (fun e => match e.2 with
    | .err err => if err.eff = Eff.memScratch then some e.1.l else none
    | _ => none))).toNat

/-- An effect with the batch's mask in it (R250). -/
def withSmask (m : Nat) (e : Err) : Err := if e.eff = Eff.memScratch then { e with arg := e.arg % 2 ^ 32 + m * 2 ^ 32 } else e

/-- Run an instruction whose lanes make checks of their own first (R248): the checks of every lane, then lane by lane the body
of those that pass. -/
def runChecked {α : Type} (n : Need) (prep : Ln → Vals → State → Prep α) (body : Ln → Vals → α → State → State) (s : State) :
    State :=
  runBatch n (fun lns s =>
    let ps := lns.map (fun e => (e, prep e.1 e.2 s))
    let m := smaskOf (ps.map (fun e => (e.1.1, e.2)))
    ps.foldl (fun s e =>
      match e.2 with
      | .err err => s.raise e.1.1 (withSmask m err)
      | .stall => s.stall e.1.1
      | .wait w => s.waitAt e.1.1 w
      | .ok x => body e.1.1 e.1.2 x s) s) s

/-! ### Memory operands (R74) -/

/-- How many registers the base of a memory operand takes: a pair under h0 (R74). -/
def baseRegs (hnd : BitVec 12) (a : Spec) : Nat := if a.isNone then 0 else if hnd = 0 then 2 else 1

/-- ea(L) of R84: base plus signed offset, exact (R74). -/
def eaOff (off : BitVec 20) (base : List Word) : Int := (wordsNat base : Int) + sext off.toNat 20

/-- The handle index and offset of an ME instruction in a lane (R74). -/
def eaOf (o : ME) (v : Vals) : Nat × Int := (o.hnd.toNat, eaOff o.off v.a)

/-- A memory instruction waits at issue while an acquiring queue read of its fibre has not been performed (R275), or an `.sc` write
(R328). -/
def State.acqHeld (s : State) (f : Nat) : Bool :=
  (s.flights f).any (fun x => x.2.2.how.ord == .acq || x.2.2.how.ord == .sc) || s.reqs.any (fun e => e.2.fib == f && e.2.sc.isSome)

/-- The way of an access through an entry under the instruction's hint (R252, R324). -/
def howOf (o : ME) (a : Acc) : How :=
  let pol := if o.ch = 0 then a.pol else o.ch.toNat
  { ord := o.ord, sc := o.sc, cv := pol == 2, rc := a.rc,
    hint := match pol with
      | 1 => .stream
      | 3 => .keep
      | _ => .normal }

end Sys2Proof.Machine
end

