-- ==== Sys2Proof/Machine/Issue.lean ====
section
/-!
DEFINITION. From a line of code to an issued batch: the line word and its checks (R56-R61, R145), the switch marker and the
positions (R154, R155), pairs (R153), the grouping stage and the choice of packs (R151, R152), and halt points (R410).
-/
namespace Sys2Proof.Machine

/-! ### Lines (R55-R59) -/

/-- The line word, bytes 60-63 (R55). -/
def lineWord (d : List Byte) : Nat := fieldAt d 60 4
/-- The 96 bits of slot i (R55). -/
def slotBits (d : List Byte) (i : Nat) : Nat := fieldAt d (12 * i) 12
/-- The instruction word of slot i. -/
def slotWord (d : List Byte) (i : Nat) : IWord := BitVec.ofNat 96 (slotBits d i)
/-- `PAR5` agrees with the line word (R57). -/
def par5Ok (d : List Byte) : Bool := b2n (bit (lineWord d) 29) == parity 24 (lineWord d)
/-- Bit 24+i agrees with slot i (R57). -/
def parSlotOk (d : List Byte) (i : Nat) : Bool := b2n (bit (lineWord d) (24 + i)) == parity 96 (slotBits d i)
/-- The parity bits that a slot's line check reads agree with the line (R61, step 2). A PC that is no slot address has no bit of its own
to check. (DESIGN CHOICE, log 61.) -/
def parityOk (d : List Byte) (pc : Word) : Bool := par5Ok d && (!isSlot pc || parSlotOk d (slotOf pc))

/-- Every parity bit of a line agrees with it. -/
def parAllOk (d : List Byte) : Bool := par5Ok d && (List.range 5).all (parSlotOk d)
/-- `KIND` (R57). -/
def lineKind (d : List Byte) : Nat := bits (lineWord d) 15 14
/-- `PAIR` bit j (R57). -/
def linePair (d : List Byte) (j : Nat) : Bool := decide (j < 4) && bit (lineWord d) (10 + j)
/-- `SW` bit i (R57). -/
def lineSw (d : List Byte) (i : Nat) : Bool := bit (lineWord d) (5 + i)
/-- `TGT` bit i (R57). -/
def lineTgt (d : List Byte) (i : Nat) : Bool := bit (lineWord d) i
/-- No two adjacent `PAIR` bits are set (R59). -/
def pairsOk (d : List Byte) : Bool := (List.range 3).all (fun j => !(linePair d j && linePair d (j + 1)))
/-- Bits [31:30] and [23:16] are zero (R57). -/
def reservedOk (d : List Byte) : Bool := bits (lineWord d) 31 30 == 0 && bits (lineWord d) 23 16 == 0

/-- An effect of a line check, with the `IMM` that a suspension record keeps. -/
structure LineErr where
  err : Err
  simm : Nat
  deriving DecidableEq, Repr, Inhabited

/-- ISA.ILLEGAL at a slot (R390). -/
def lineIllegal (d : List Byte) (pc : Word) : LineErr :=
  { err := illegal (slotWord d (slotOf pc)), simm := wordImm (slotWord d (slotOf pc)) }

/-- A CODE effect at a slot, which carries the slot's offset and its region (R133). -/
def lineCode (eff rgn : Nat) (pc : Word) : LineErr := { err := { eff := eff, arg := codeArg pc.toNat rgn 0 }, simm := 0 }

/-- Steps 2 to 6 of R61 for a slot of a line that is in the fetch buffer: the line was refetched when its parity failed. -/
def lineCheck (d : List Byte) (rgn : Nat) (pc : Word) (xfer : Bool) : Option LineErr :=
  let i := slotOf pc
  if !parityOk d pc then some (lineCode Eff.codeParity rgn pc)
  else if lineKind d = 1 then some (lineIllegal d pc)
  else if lineKind d = 2 then some (lineCode Eff.codeEnd rgn pc)
  else if lineKind d = 3 || !pairsOk d then some (lineCode Eff.codeMalformed rgn pc)
  else if !reservedOk d then some (lineIllegal d pc)
  else if xfer && !(isSlot pc && lineTgt d i) then some (lineCode Eff.codeBadtarget rgn pc)
  else none

/-! ### Pairs and markers (R153, R154, R244) -/

/-- `OP` of a word (R62). -/
def opOf (w : IWord) : Nat := (w.extractLsb' 88 8).toNat

/-- `OP` of FSTAT, which counts as switch-marked (R244). -/
def opFstat : Nat := 0x68

/-- A slot that waits for outstanding results: its `SW` bit, or FSTAT (R154, R244). -/
def marked (d : List Byte) (i : Nat) : Bool := lineSw d i || opOf (slotWord d i) == opFstat

/-- A Class B producer (R72). -/
def classB (op : Nat) : Bool :=
  decide (0x03 ≤ op ∧ op ≤ 0x06) || decide (0x40 ≤ op ∧ op ≤ 0x45) || decide (0x50 ≤ op ∧ op ≤ 0x57) ||
    decide (0x5E ≤ op ∧ op ≤ 0x68)

/-- An `OP` that never co-issues (R153). -/
def neverPairs (op : Nat) : Bool :=
  decide (0x30 ≤ op ∧ op ≤ 0x3D) || decide (0x46 ≤ op ∧ op ≤ 0x4B) || decide (0x80 ≤ op ∧ op ≤ 0x88) ||
    decide (0xB0 ≤ op ∧ op ≤ 0xC2)

/-- Whether the core issues slots i and i+1 of a line together (R153). -/
def coIssues (d : List Byte) (i : Nat) : Bool :=
  let a := opOf (slotWord d i)
  let b := opOf (slotWord d (i + 1))
  linePair d i && !marked d (i + 1) && !(classB a && classB b) && !neverPairs a && !neverPairs b

/-! ### Issuing (R151-R155) -/

/-- A fibre that the grouping stage considers (R149, R151). -/
def Fibre.issues (x : Fibre) : Bool := x.st == .ready && !x.halted && x.eff.isNone && x.missing.isNone

namespace State

/-- The lanes of a batch that still stand at its PC; for the second half of a pair, by sequential flow (R153). -/
def standing (s : State) (b : Batch) : List Nat :=
  b.lanes.filter (fun l => match s.fibre? (b.fib l) with
    | some x => x.issues && x.pc == b.pc && !(b.second && x.xfer)
    | none => false)

/-- Whether a fibre holds the line of its PC (R131). -/
def holdsLine (s : State) (f : Nat) : Bool :=
  match (s.fibre f).fbuf with
  | some ln => ln.off == lineOf (s.fibre f).pc && (!ln.last || (s.fibre f).retry)
  | none => false

/-- Whether a fibre holds the line of its PC, and its parity agrees; otherwise the core fetches, or fetches again (R61, R131). -/
def lineReady (s : State) (f : Nat) : Bool :=
  s.holdsLine f && (match (s.fibre f).fbuf with
    | some ln => parityOk ln.data (s.fibre f).pc
    | none => false)

/-- The line that a batch executes: that of the chosen lane, or of the first lane where the chosen one has left (R145). -/
def batchLine (s : State) (b : Batch) (lanes : List Nat) : FLine :=
  let l := if lanes.contains b.chosen then b.chosen else lanes.headD 0
  ((s.fibre (b.fib l)).fbuf).getD default

/-- A lane takes up the slot, whose word is w: its position, its tenure's count, its marker, and the results now guaranteed (R155, R365). An
instruction that waits or stalls keeps its one position; one in whose place another word now stands has ended without effect (R145). -/
def enterFibre (s : State) (f : Nat) (mk : Bool) (w : IWord) : State :=
  s.modFibre f (fun x =>
    let x := { x with came := x.xfer }
    let x := if x.retry && x.begun == w then x
      else { x with pos := x.pos + 1, begun := w, retracting := none, launching := none,
                    held := if x.capMode then x.held.map (fun h => { h with count := h.count + 1 }) else x.held }
    let x := if mk then { x with mark := x.pos, kok := x.kacq ++ x.kok, kacq := [] } else x
    x.settle x.pos)

/-- A fibre that holds the line of its next slot is PARKED where that slot carries a switch marker and results are outstanding (R154). -/
def park (s : State) (f : Nat) : State :=
  let x := s.fibre f
  match x.fbuf with
  | none => s
  | some ln =>
    if x.issues && s.lineReady f && (lineCheck ln.data ln.region x.pc x.xfer).isNone && marked ln.data (slotOf x.pc) && x.outstanding then
      s.modFibre f (fun x => { x with st := .parked })
    else s

/-- The lanes of a batch take the line that the chosen lane holds (R145); a lane that fails a line check raises its effect
(R61), one that must wait for outstanding results is PARKED (R154), and the others issue. -/
def issueBatch (s : State) (b : Batch) (lanes : List Nat) (rest : List Batch) : State :=
  let ln := s.batchLine b lanes
  let i := slotOf b.pc
  let mk := marked ln.data i
  let s := lanes.foldl (fun s l => s.modFibre (b.fib l) (fun x => { x with fbuf := some ln })) s
  let bad := lanes.filterMap (fun l => (lineCheck ln.data ln.region b.pc (s.fibre (b.fib l)).xfer).map (fun e => (l, e)))
  let good := lanes.filter (fun l => (lineCheck ln.data ln.region b.pc (s.fibre (b.fib l)).xfer).isNone)
  let parks := good.filter (fun l => mk && (s.fibre (b.fib l)).outstanding)
  let go := good.filter (fun l => !(mk && (s.fibre (b.fib l)).outstanding))
  let s := bad.foldl (fun s e => s.raiseAt (b.fib e.1) e.2.err b.pc e.2.simm) s
  let s := parks.foldl (fun s l => s.modFibre (b.fib l) (fun x => { x with st := .parked })) s
  let s := go.foldl (fun s l => s.enterFibre (b.fib l) mk (slotWord ln.data i)) s
  let next : Batch := { b with pc := nextPc b.pc, lanes := go, second := true }
  { s with issue := if coIssues ln.data i && !b.second then next :: rest else rest,
           cur := some { b with lanes := go, word := slotWord ln.data i } }

/-- A word that is no instruction raises its effect in every lane whose guard is true and that is no helper (R80, R81). -/
def raiseIllegal (s : State) : State :=
  match s.cur with
  | none => s
  | some b =>
    let g : Guard := { gp := (b.word.extractLsb' 84 4).toFin, gn := b.word.getLsbD 83 }
    b.lanes.foldl (fun s l =>
      let ln : Ln := { b := b, l := l, f := b.fib l, k0 := 0 }
      if s.guard b l g && !(s.fibre ln.f).helper then s.raise ln (illegal b.word) else s.pass ln.f b.pc) s

/-- Whether a context's halt point stands at a batch (R410). -/
def pointAt (s : State) (b : Batch) (lanes : List Nat) : Bool :=
  let T := s.team b.team
  match (s.ctx T.ctx).point with
  | none => false
  | some p =>
    p.attached == some T.lid && p.req.tx == T.x && p.req.ty == T.y && p.req.tz == T.z && p.req.fib / 32 == b.pack &&
      lanes.contains (p.req.fib % 32) && p.req.offset == b.pc

/-- What the head of the issue list does next: nothing when no lane is left, a halt point fires (R410), a lane fetches its line
(R131), or the batch issues. -/
def issueNext (s : State) (b : Batch) (rest : List Batch) : Sum Instr State :=
  let lanes := s.standing b
  if lanes.isEmpty then .inr { s with issue := rest }
  else if s.pointAt b lanes then .inl (.haltPointFire (s.team b.team).ctx)
  else
    match lanes.find? (fun l => !s.lineReady (b.fib l)) with
    | some l => .inl (.lineFetch (b.fib l))
    | none => .inr (s.issueBatch b lanes rest)

/-! ### The grouping stage and the choice of packs (R151, R152, R194) -/

/-- The lanes of a pack that are READY; those of a YIELD are passed over while another lane is (R194). -/
def readyLanes (s : State) (p : Nat) : List Nat :=
  let all := (List.range 32).filter (fun l => match s.fibre? (p * 32 + l) with
    | some x => x.issues
    | none => false)
  let fresh := all.filter (fun l => !(s.pack p).yielded.contains l)
  if fresh.isEmpty then all else fresh

/-- The lane that the rotating pointer finds first (R151). -/
def chosenLane (lanes : List Nat) (ptr : Nat) : Option Nat :=
  match lanes.find? (fun l => ptr ≤ l) with
  | some l => some l
  | none => lanes.head?

/-- form_batch of R151 in a pack's turn, in a clk. -/
def formBatch (s : State) (clk p : Nat) : Option Batch × State :=
  let lanes := s.readyLanes p
  match chosenLane lanes (s.pack p).ptr with
  | none => (none, s)
  | some l =>
    let pc := (s.fibre (p * 32 + l)).pc
    let same := lanes.filter (fun j => (s.fibre (p * 32 + j)).pc == pc)
    (some (Batch.formed (p / 32) (p % 32) pc same l clk),
     s.modPack p (fun x => { x with ptr := (l + 1) % 32, yielded := [] }))

/-- The packs that a core may choose: of its running teams, with a READY fibre, by key (R152). -/
def readyPacks (s : State) (core : Nat) : List Nat :=
  (s.teams.filter (fun e => coreKey e.2.die e.2.core == core && e.2.phase == .running && !e.2.halted)).flatMap (fun e =>
    ((List.range 32).map (fun i => e.1 * 32 + i)).filter (fun p => !(s.readyLanes p).isEmpty))

/-- The number of a pack on its core (R150). -/
def packNo (s : State) (p : Nat) : Nat := (s.team (p / 32)).brec.pkBase + p % 32

/-- The order of R152: least recently issued first, then the lower core pack number. -/
def packRank (s : State) (p : Nat) : Nat × Nat :=
  ((match (s.pack p).lastIssue with
    | none => 0
    | some c => c + 1), s.packNo p)

/-- Insert a pack by rank. -/
def insPack (s : State) (p : Nat) : List Nat → List Nat
  | [] => [p]
  | q :: qs =>
    let a := s.packRank p
    let b := s.packRank q
    if a.1 < b.1 ∨ (a.1 = b.1 ∧ a.2 ≤ b.2) then p :: q :: qs else q :: State.insPack s p qs

/-- Insert a pack by its number on the core. -/
def insByNo (s : State) (p : Nat) : List Nat → List Nat
  | [] => [p]
  | q :: qs => if s.packNo p ≤ s.packNo q then p :: q :: qs else q :: State.insByNo s p qs

/-- The fibres of a core that must wait for their results are PARKED before the grouping stage (R154). -/
def parkAll (s : State) (core : Nat) : State :=
  ((s.readyPacks core).flatMap (fun p => (List.range 32).map (fun l => p * 32 + l))).foldl State.park s

/-- One clk of a core (R152, R176): its counter advances, and up to four packs form a batch. The core chooses them by R152; the batches
of one clk take effect in the order of the packs' numbers on the core (R306, R396). (DESIGN CHOICE, log 76.) -/
def coreTurn (s : State) (core : Nat) : State :=
  let s := s.parkAll core
  let packs := (((s.readyPacks core).foldr s.insPack []).take 4).foldr s.insByNo []
  let clk := (s.core core).clk
  let s := s.modCore core (fun c => { c with clk := c.clk + 1 })
  packs.foldl (fun s p =>
    match s.formBatch clk p with
    | (none, s) => s
    | (some b, s) => { (s.modPack p (fun x => { x with lastIssue := some clk })) with issue := s.issue ++ [b] }) s

end State

end Sys2Proof.Machine
end

