-- ==== Sys2Proof/Machine/Flags.lean ====
section
/-!
DEFINITION. Every flag and condition an instruction computes: the sticky flag word (R212), the comparisons (R173, R233) and their
combination (R173), and the class mask (R234).
-/
namespace Sys2Proof.Machine

/-- An outcome of the machine. -/
abbrev Out := Host.Outcome State Fault Refusal

/-- Set sticky flags of a fibre; a flag once set stays set (R212). -/
def State.flag (s : State) (f fl : Nat) : State := s.modFibre f (fun x => { x with flags := x.flags ||| BitVec.ofNat 5 fl })

/-- The comparison FN on exact integers (R173). -/
def cmpInt (fn : Nat) (a b : Int) : Bool :=
  match fn with
  | 0 => decide (a = b)
  | 1 => decide (a ≠ b)
  | 2 => decide (a < b)
  | 3 => decide (a ≤ b)
  | 4 => decide (b < a)
  | _ => decide (b ≤ a)

/-- The comparison FN on floating-point values, and its flags (R233). -/
def cmpFloat (fn : Nat) (a b : FVal) : Bool × Nat :=
  let un := a.isNan || b.isNan
  let inv := a.isSignalling || b.isSignalling || (un && decide (2 ≤ fn ∧ fn ≤ 5))
  let t := match fn with
    | 0 => !un && !(a.lt b) && !(b.lt a)
    | 1 => un || a.lt b || b.lt a
    | 2 => !un && a.lt b
    | 3 => !un && !(b.lt a)
    | 4 => !un && b.lt a
    | 5 => !un && !(a.lt b)
    | 6 => !un
    | _ => un
  (t, if inv then 16 else 0)

/-- `COMB`: the comparison result with the predicate named by C (R173). -/
def comb (x : BitVec 4) (t pc : Bool) : Bool :=
  match (x.extractLsb' 2 2).toNat with
  | 0 => t
  | 1 => t && pc
  | 2 => t || pc
  | _ => t != pc

/-- The class bit of an IEEE value (R234). -/
def classBit (f : Fmt) : FVal → Nat
  | .nan true => 0
  | .nan false => 1
  | .inf true => 2
  | .inf false => 9
  | .fin n 0 _ => if n then 5 else 6
  | .fin n m e => if m < 2 ^ f.fb ∧ e = f.eSub then (if n then 4 else 7) else (if n then 3 else 8)

/-- The class mask of a value of a type (R234). -/
def classMask (t : Ty) (x : Nat) : Nat :=
  match t with
  | .mf8 =>
    match mf8Decode (x % 256) with
    | .nan _ => 2
    | .fin n m _ => if m = 0 then 64 else if n then 8 else 256
    | .inf _ => 0
  | t => 2 ^ classBit (fmtOf t) (fDecode t x)

/-- The results of an instruction's flag word: FSTAT clears the flags that a mask names (R244). -/
def State.clearFlags (s : State) (f m : Nat) : State := s.modFibre f (fun x => { x with flags := x.flags &&& ~~~BitVec.ofNat 5 m })

end Sys2Proof.Machine
end

