-- ==== Sys2Proof/Machine/IntOps.lean ====
section
/-!
DEFINITION. Integer and logic instructions, opcodes 0x00-0x1F (R63, R166-R171).
-/
namespace Sys2Proof.Machine

/-! ### Results -/

/-- trunc(a / b), with the special cases of R169. -/
def divTy (t : Ty) (a b : Int) : Int := if b = 0 then (if t.signed then -1 else tyMax t) else a.tdiv b
/-- a - b · trunc(a / b), with the special cases of R169. -/
def remTy (a b : Int) : Int := if b = 0 then a else a.tmod b
/-- The length of a field operand (R170). -/
def fieldLen (f w : Nat) : Nat := min (bits f 15 8) w
/-- BFX (R170): bits at or above the width are 0, or a's sign. -/
def bfx (t : Ty) (a : Int) (f : Nat) : Int :=
  let n := fieldLen f t.width
  let field := (a / (2 ^ bits f 7 0 : Nat)) % (2 ^ n : Nat)
  if t.signed then sext field.toNat n else field
/-- BFI (R170). -/
def bfi (w a f c : Nat) : Nat :=
  let p := bits f 7 0
  let m := (2 ^ fieldLen f w - 1) * 2 ^ p % 2 ^ w
  (c &&& (2 ^ w - 1 - m)) ||| (a * 2 ^ p &&& m)
/-- PRMB (R171). -/
def prmb (a b c : Nat) : Nat :=
  leNat ((List.range 4).map (fun i =>
    let sel := bits c (4 * i + 3) (4 * i)
    let by_ := (b * 2 ^ 32 + a) / 2 ^ (8 * (sel % 8)) % 256
    BitVec.ofNat 8 (if 8 ≤ sel then (if 128 ≤ by_ then 255 else 0) else by_)))
/-- FSH (R167): the funnel shift of the pair a, b. -/
def fsh (left : Bool) (a b n : Nat) : Nat :=
  if left then (a * 2 ^ 32 + b) * 2 ^ (n % 32) / 2 ^ 32 % 2 ^ 32 else (a * 2 ^ 32 + b) / 2 ^ (n % 32) % 2 ^ 32
/-- ROT (R167): a rotated left within w bits. -/
def rotl (w a n : Nat) : Nat := a * 2 ^ (n % w) % 2 ^ w + a / 2 ^ (w - n % w)

/-! ### The body of R166 -/

/-- The registers of an operand of a type (R71). -/
def tyRegs (t : Ty) : Nat := if t.wide then 2 else 1

/-- What an AL instruction needs: registers read through A, B and C, and written through D. -/
def alNeed (o : AL) (na nb nc wd : Nat) : Need :=
  { head := o.toHead, imm := o.imm, sgn := o.ty.signed, na := na, nb := nb, nc := nc, wd := wd, cap := true }

/-- The body of R166 over type ty in every lane: v on the exact operand values, narrowed into D. -/
def intRun (o : AL) (cls : Cls) (na nb nc : Nat) (v : Int → Int → Int → Int) (s : State) : State :=
  runLanes (alNeed o na nb nc (tyRegs o.ty)) (fun ln x s =>
    s.putD ln cls o.d (tyRegs o.ty)
      (narrow o.ty o.sat (v (tyVal o.ty (wordsNat x.a)) (tyVal o.ty (wordsNat x.b)) (tyVal o.ty (wordsNat x.c))))) s

/-- An instruction whose result is a pattern of wd registers, from the unsigned operands. -/
def patRun (o : AL) (cls : Cls) (na nb nc wd : Nat) (v : Nat → Nat → Nat → Nat) (s : State) : State :=
  runLanes (alNeed o na nb nc wd) (fun ln x s =>
    s.putD ln cls o.d wd (v (wordsNat x.a) (wordsNat x.b) (wordsNat x.c) % 2 ^ (32 * wd))) s

/-- One operand, two and three of the instruction's type. -/
def int1 (o : AL) (cls : Cls) (v : Int → Int) : State → State := intRun o cls (tyRegs o.ty) 0 0 (fun a _ _ => v a)
def int2 (o : AL) (cls : Cls) (v : Int → Int → Int) : State → State := intRun o cls (tyRegs o.ty) (tyRegs o.ty) 0 (fun a b _ => v a b)
def int3 (o : AL) (cls : Cls) (v : Int → Int → Int → Int) : State → State := intRun o cls (tyRegs o.ty) (tyRegs o.ty) (tyRegs o.ty) v

/-- NOP (R63): no effect; the lanes move on. -/
def nopNeed : Need :=
  { head := { guard := { gp := 0, gn := false }, d := .none, a := .none, b := .none, c := .none, fn := 0 }, imm := 0, cap := true }
/-- NOP (R63). -/
def execNop (s : State) : Out := .next (runLanes nopNeed (fun _ _ s => s) s)

/-! ### The instructions of R167 -/

def execIadd (o : AL) (s : State) : Out := .next (int2 o .a (fun a b => a + b) s)
def execIsub (o : AL) (s : State) : Out := .next (int2 o .a (fun a b => a - b) s)
def execImul (o : AL) (s : State) : Out := .next (int2 o .b (fun a b => a * b) s)
def execImulh (o : AL) (s : State) : Out := .next (int2 o .b (fun a b => (a * b) / (2 ^ o.ty.width : Nat)) s)
def execImad (o : AL) (s : State) : Out := .next (int3 o .b (fun a b c => a * b + c) s)

/-- IMADW (R168): 32-bit a and b, 64-bit c and d. -/
def execImadw (o : AL) (s : State) : Out :=
  .next (runLanes (alNeed o 1 1 2 2) (fun ln x s =>
    s.putD ln .b o.d 2 (unsign (tyVal o.ty (wordsNat x.a) * tyVal o.ty (wordsNat x.b) + (wordsNat x.c : Int)) 64)) s)

def execIdiv (o : AL) (s : State) : Out := .next (int2 o .v (divTy o.ty) s)
def execIrem (o : AL) (s : State) : Out := .next (int2 o .v remTy s)
def execImin (o : AL) (s : State) : Out := .next (int2 o .a (fun a b => if a ≤ b then a else b) s)
def execImax (o : AL) (s : State) : Out := .next (int2 o .a (fun a b => if a ≤ b then b else a) s)
def execIabs (o : AL) (s : State) : Out := .next (int1 o .a (fun a => (a.natAbs : Int)) s)
def execIneg (o : AL) (s : State) : Out := .next (int1 o .a (fun a => -a) s)
def execIsad (o : AL) (s : State) : Out := .next (int3 o .a (fun a b c => ((a - b).natAbs : Int) + c) s)
def execAnd (o : AL) (s : State) : Out :=
  .next (patRun o .a (tyRegs o.ty) (tyRegs o.ty) 0 (tyRegs o.ty) (fun a b _ => a &&& b) s)
def execOr (o : AL) (s : State) : Out :=
  .next (patRun o .a (tyRegs o.ty) (tyRegs o.ty) 0 (tyRegs o.ty) (fun a b _ => a ||| b) s)
def execXor (o : AL) (s : State) : Out :=
  .next (patRun o .a (tyRegs o.ty) (tyRegs o.ty) 0 (tyRegs o.ty) (fun a b _ => a ^^^ b) s)
def execNot (o : AL) (s : State) : Out :=
  .next (patRun o .a (tyRegs o.ty) 0 0 (tyRegs o.ty) (fun a _ _ => 2 ^ o.ty.width - 1 - a % 2 ^ o.ty.width) s)
def execAndn (o : AL) (s : State) : Out :=
  .next (patRun o .a (tyRegs o.ty) (tyRegs o.ty) 0 (tyRegs o.ty)
    (fun a b _ => a &&& (2 ^ o.ty.width - 1 - b % 2 ^ o.ty.width)) s)
def execShl (o : AL) (s : State) : Out :=
  .next (patRun o .a (tyRegs o.ty) 1 0 (tyRegs o.ty) (fun a n _ => if o.ty.width ≤ n then 0 else a * 2 ^ n) s)
def execShr (o : AL) (s : State) : Out :=
  .next (patRun o .a (tyRegs o.ty) 1 0 (tyRegs o.ty) (fun a n _ => if o.ty.width ≤ n then 0 else a / 2 ^ n) s)
/-- SAR: the second operand is one register read as an unsigned value (R166). -/
def execSar (o : AL) (s : State) : Out :=
  .next (runLanes (alNeed o (tyRegs o.ty) 1 0 (tyRegs o.ty)) (fun ln x s =>
    let a := tyVal o.ty (wordsNat x.a)
    let n := min (wordsNat x.b) o.ty.width
    s.putD ln .a o.d (tyRegs o.ty) (unsign (a / (2 ^ n : Nat)) (32 * (tyRegs o.ty)))) s)
def execRot (o : AL) (s : State) : Out :=
  .next (patRun o .a (tyRegs o.ty) 1 0 (tyRegs o.ty) (fun a n _ => rotl o.ty.width a n) s)
def execFsh (o : AL) (s : State) : Out := .next (patRun o .a 1 1 1 1 (fun a b n => fsh (o.fn == 1) a b n) s)
/-- BFX: the field operand is one register (R166, R170). -/
def execBfx (o : AL) (s : State) : Out :=
  .next (runLanes (alNeed o (tyRegs o.ty) 1 0 (tyRegs o.ty)) (fun ln x s =>
    s.putD ln .a o.d (tyRegs o.ty) (unsign (bfx o.ty (tyVal o.ty (wordsNat x.a)) (wordsNat x.b)) (32 * (tyRegs o.ty)))) s)
def execBfi (o : AL) (s : State) : Out :=
  .next (patRun o .a (tyRegs o.ty) 1 (tyRegs o.ty) (tyRegs o.ty) (fun a f c => bfi o.ty.width a f c) s)
def execBrev (o : AL) (s : State) : Out :=
  .next (patRun o .a (tyRegs o.ty) 0 0 (tyRegs o.ty) (fun a _ _ => reverseBits o.ty.width a) s)
def execPopc (o : AL) (s : State) : Out := .next (patRun o .a (tyRegs o.ty) 0 0 1 (fun a _ _ => popcount o.ty.width a) s)
def execClz (o : AL) (s : State) : Out := .next (patRun o .a (tyRegs o.ty) 0 0 1 (fun a _ _ => leadingZeros o.ty.width a) s)
def execCtz (o : AL) (s : State) : Out := .next (patRun o .a (tyRegs o.ty) 0 0 1 (fun a _ _ => trailingZeros o.ty.width a) s)
def execPrmb (o : AL) (s : State) : Out := .next (patRun o .a 1 1 1 1 (fun a b c => prmb a b c) s)
/-- LEA (R171): B is one sign-extended register; the shift is `MOD`[35:32]. -/
def execLea (o : AL) (s : State) : Out :=
  .next (patRun o .a (tyRegs o.ty) 1 0 (tyRegs o.ty)
    (fun a b _ => unsign ((a : Int) + sext b 32 * (2 ^ o.x.toNat : Nat)) o.ty.width) s)

end Sys2Proof.Machine
end

