-- ==== Sys2Proof/Machine/Moves.lean ====
section
/-!
DEFINITION. Moves, predicates, addresses and time, opcodes 0x20-0x28 (R172-R177).
-/
namespace Sys2Proof.Machine

/-- MOV (R172): a 32-bit or 64-bit copy. -/
def execMov (o : AL) (s : State) : Out := .next (patRun o .a (tyRegs o.ty) 0 0 (tyRegs o.ty) (fun a _ _ => a) s)

/-- SEL (R172): a when the predicate named by C reads 1, else b. -/
def execSel (o : AL) (s : State) : Out :=
  .next (patRun o .a (tyRegs o.ty) (tyRegs o.ty) 1 (tyRegs o.ty) (fun a b c => if c % 2 ^ 32 != 0 then a else b) s)

/-- IPRED (R173). -/
def execIpred (o : AL) (s : State) : Out :=
  .next (runLanes (alNeed o (tyRegs o.ty) (tyRegs o.ty) (if o.c.isNone then 0 else 1) 1) (fun ln x s =>
    let t := cmpInt o.fn.toNat (tyVal o.ty (wordsNat x.a)) (tyVal o.ty (wordsNat x.b))
    s.putD ln .a o.d 1 (b2n (comb o.x t (wordsNat x.c != 0)))) s)

/-- PLUT (R172): bit 4·pa + 2·pb + pc of the table in FN. -/
def execPlut (o : AL) (s : State) : Out :=
  .next (runLanes (alNeed o 1 1 1 1) (fun ln x s =>
    s.putD ln .a o.d 1 (b2n (bit o.fn.toNat (4 * (wordsNat x.a % 2) + 2 * (wordsNat x.b % 2) + wordsNat x.c % 2)))) s)

/-- The predicate word as a read of the sixteen predicates (R155, R172). -/
def State.readPreds (s : State) (f salt : Nat) : Nat :=
  ((List.range 16).filter (fun i => s.readReg f (rP i) (salt + i) != 0)).foldl (fun a i => a + 2 ^ i) 0

/-- The predicate words of the lanes of a batch, read before any lane writes (R65). -/
def readAllPreds (s : State) (lns : List (Ln × Vals)) : List (Ln × Nat) :=
  lns.map (fun e => (e.1, s.readPreds e.1.f (e.1.l * 128 + 80)))

/-- PRDW (R172); not allowed in capsule mode (R207). -/
def execPrdw (o : AL) (s : State) : Out :=
  .next (runBatch { alNeed o 0 0 0 1 with cap := false, imp := (List.range' 1 15).map rP } (fun lns s =>
    (readAllPreds s lns).foldl (fun s e => s.putD e.1 .a o.d 1 e.2) s) s)

/-- PWRW (R172, R174): only p1-p15 whose mask bits are set; not allowed in capsule mode (R207). -/
def execPwrw (o : AL) (s : State) : Out :=
  .next (runLanes { alNeed o 1 1 0 0 with cap := false } (fun ln x s =>
    (List.range' 1 15).foldl (fun s i =>
      if bit (wordsNat x.b) i then s.modFibre ln.f (fun y => y.put .a (rP i) (if bit (wordsNat x.a) i then 1 else 0)) else s) s) s)

/-- The effective offset's address and checks of HADDR (R177). -/
def haddrPrep (o : ME) (ln : Ln) (x : Vals) (s : State) : Prep Nat :=
  let (h, off) := eaOf o x
  if h = 0 then .ok (unsign off 64)
  else
    let e := s.entry ln.f h
    match e.spaceOf with
    | none => .err { eff := Eff.memHandle, arg := s.kindArg ln.f h off }
    | some sp =>
      let fin := s.finalAddr ln.f h e sp off
      let ok : Prep Nat := .ok (sp * 2 ^ 56 ||| unsign (e.base + off) 64)
      if sp = 1 ∨ sp = 6 then
        if off < 0 ∨ (e.len : Int) < off + o.sz.bytes then .err { eff := Eff.memBounds, arg := marg h fin } else ok
      else
        match s.onchipBounds ln.f h sp e off fin o.sz.bytes with
        | some err => .err err
        | none => ok

/-- HADDR (R177): the address that an access would use; it executes and raises in helper lanes as well. -/
def execHaddr (o : ME) (s : State) : Out :=
  .next (runChecked { head := o.toHead, imm := 0, na := baseRegs o.hnd o.a, wd := 2, cap := true } (haddrPrep o)
    (fun ln _ v s => (s.touchHandle ln.f o.hnd.toNat).putD ln .a o.d 2 v) s)

/-- The package time as a core reads it (R176). -/
def State.packageTime (s : State) (core : Nat) : Nat := s.ns + Config.nsSkew core % 65

/-- CLOCK (R176): the core's clk counter or the package time. -/
def execClock (o : AL) (s : State) : Out :=
  let n := if o.fn == 0 then 1 else 2
  .next (runLanes (alNeed o 0 0 0 n) (fun ln _ s =>
    s.putD ln .a o.d n (if o.fn == 2 then s.packageTime (s.coreOf ln.f) else (s.core (s.coreOf ln.f)).clk)) s)

end Sys2Proof.Machine
end

