-- ==== Sys2Proof/Machine/Control.lean ====
section
/-!
DEFINITION. Branches and calls, masks and reconvergence, and creating and ending fibres, opcodes 0x30-0x3D (R178-R194).
-/
namespace Sys2Proof.Machine

/-- A step that the next part of the instruction depends on: it is done, or the lane stalls, or its release finds a store fault
(R263, R325). -/
def afterRelease (s : State) (ln : Ln) (sc : Scope) (k : State → State) : State :=
  match s.release ln.f sc with
  | (.done, s) => k s
  | (.wait, s) => s.stall ln
  | (.fault a, s) => s.raise ln { eff := Eff.memStorefault, arg := a }

/-! ### Targets (R75, R178-R183) -/

/-- What a BR instruction needs (R178). -/
def brNeed (o : BR) : Need := { head := o.toHead, imm := 0 }

/-- The target of a BR instruction (R75). -/
def brTarget (o : BR) (pc : Word) : Word := slotTarget pc (sext o.line.toNat 29) o.slot.toNat

/-- The record of a context's region directory that holds a code offset (R133). -/
def State.regionAt (s : State) (c off : Nat) : Option (Nat × Region) :=
  (s.ctx c).regions.find? (fun e => decide (e.2.base ≤ off) && decide (off < e.2.base + 64 * e.2.lines))

/-- A call transfers (R157, R179): into another region, every result of the fibre arrives, the link in g1 as well. -/
def State.callTo (s : State) (ln : Ln) (t : Word) (other : Bool) : State :=
  let s := s.modFibre ln.f (fun x => x.put .a (rG 1) (nextPc ln.b.pc))
  (if other then s.arriveAll ln.f else s).modFibre ln.f (fun x => x.jump t)

/-- BRA (R179); in capsule mode only forward (R207). -/
def execBra (o : BR) (s : State) : Out :=
  .next (runLanes { brNeed o with cap := true } (fun ln _ s =>
    let t := brTarget o ln.b.pc
    if (s.fibre ln.f).capMode && decide (t.toNat ≤ ln.b.pc.toNat) then
      s.raise ln { eff := Eff.capLimit, arg := heldBlock (s.fibre ln.f) }
    else s.modFibre ln.f (fun x => x.jump t)) s)

/-- A transfer to the value of A (R182). -/
def jumpA (o : SY) (s : State) : State :=
  runLanes { head := o.toHead, imm := o.imm, na := 1 } (fun ln x s => s.modFibre ln.f (fun y => y.jump (x.a.headD 0))) s

/-- BRX (R182). -/
def execBrx (o : SY) (s : State) : Out := .next (jumpA o s)
/-- RET (R182). -/
def execRet (o : SY) (s : State) : Out := .next (jumpA o s)

/-- CALL (R179). -/
def execCall (o : BR) (s : State) : Out :=
  .next (runLanes { brNeed o with also := [1] } (fun ln _ s =>
    let t := brTarget o ln.b.pc
    let c := s.ctxOf ln.f
    s.callTo ln t ((s.regionAt c t.toNat).map (·.1) != (s.regionAt c ln.b.pc.toNat).map (·.1))) s)

/-- The checks of a function descriptor (R94); one whose region's entry R92 makes invalid names no code entry. (DEDUCED, log 74.) -/
def State.descOk (s : State) (f : Nat) (d : List Byte) : Bool :=
  let off := fieldAt d 0 4
  let rgn := fieldAt d 4 2
  let e := s.entry f rgn
  fieldAt d 6 10 == 0 && decide (rgn < 4096) && e.kind == 6 && e.codeOk && isSlot (BitVec.ofNat 32 off) &&
    decide (e.base ≤ off ∧ off < e.base + 64 * e.lines)

/-- Where the kind of an entry is none of those listed, the effect of step 1 of R248. -/
def State.kindErr (s : State) (f h : Nat) (off : Int) (kinds : List Nat) : Option Err :=
  if kinds.contains (s.entry f h).kind then none else some { eff := Eff.memHandle, arg := s.kindArg f h off }

/-- The checks of a CALLX before its read (R183, R275). -/
def callxPrep (o : SY) (ln : Ln) (x : Vals) (s : State) : Prep Acc :=
  let h := (immHandle o.imm).toNat
  let off := eaOff (immOffset o.imm) x.a
  if s.acqHeld ln.f then .stall
  else
    match s.kindErr ln.f h off [1, 2, 3, 4, 5] with
    | some e => .err e
    | none =>
      match s.check ln.f h off { spaces := [1, 2, 3, 4, 5], n := 16, align := 16, rd := true } with
      | .error e => .err e
      | .ok a => .ok a

/-- A plain read (R324). -/
def plainHow (a : Acc) : How :=
  { ord := .plain, sc := .lane, cv := a.pol == 2, rc := a.rc, hint := if a.pol = 1 then .stream else .normal }

/-- CALLX (R183): one 16-byte read of the descriptor, its checks, the link and the transfer. -/
def execCallx (o : SY) (s : State) : Out :=
  .next (runChecked { head := o.toHead, imm := o.imm, na := baseRegs (immHandle o.imm) o.a, also := [1] } (callxPrep o)
    (fun ln _ a s =>
      match (s.touchHandle ln.f a.hnd).readLoc ln.f a 16 (plainHow a) with
      | (.error e, s) => s.stop ln e
      | (.ok d, s) =>
        let off := fieldAt d 0 4
        let rgn := fieldAt d 4 2 % 4096
        if !s.descOk ln.f d then s.raise ln { eff := Eff.codeBadtarget, arg := codeArg off rgn 0 }
        else
          s.callTo ln (BitVec.ofNat 32 off) ((s.regionAt (s.ctxOf ln.f) ln.b.pc.toNat).map (·.1) != some rgn)) s)

/-- BRDEC (R179). -/
def execBrdec (o : BR) (s : State) : Out :=
  .next (runLanes { brNeed o with nd := 1, wd := 1 } (fun ln x s =>
    let v := x.d.headD 0 - 1
    let s := s.put1 ln .a o.d v
    if v = 0 then s else s.modFibre ln.f (fun y => y.jump (brTarget o ln.b.pc))) s)

/-! ### Masks (R184-R189) -/

/-- What a mask instruction needs. -/
def maskNeed (o : SY) : Need := { head := o.toHead, imm := o.imm }

/-- The mask that a specifier names. -/
def maskIx : Spec → Nat
  | .m i => i.val
  | _ => 0

/-- A mask of a batch's pack. -/
def State.maskOfBatch (s : State) (b : Batch) (i : Nat) : Word := mapGetD (s.pack (b.team * 32 + b.pack)).masks i 0

/-- MSET (R186): once per batch, over the lanes whose guard is true; in MSET.val each of them reads the operand. (DESIGN CHOICE,
log 85.) -/
def execMset (o : SY) (s : State) : Out :=
  .next (runBatch { maskNeed o with na := if o.fn == 3 then 1 else 0, nd := if o.fn == 1 || o.fn == 2 then 1 else 0 } (fun lns s =>
    match lns with
    | [] => s
    | e :: _ =>
      let i := maskIx o.d
      let m := s.maskOfBatch e.1.b i
      let g := maskOf (lns.map (·.1.l))
      let v := match o.fn.toNat with
        | 0 => g
        | 1 => m ||| g
        | 2 => m &&& ~~~g
        | _ => e.2.a.headD 0
      (s.putM e.1.b i v).recheckMask (e.1.b.team * 32 + e.1.b.pack) i) s)

/-- LEAVE (R188). -/
def execLeave (o : SY) (s : State) : Out :=
  .next (runBatch { maskNeed o with na := 1 } (fun lns s =>
    match lns with
    | [] => s
    | e :: _ =>
      let i := maskIx o.a
      (s.putM e.1.b i (s.maskOfBatch e.1.b i &&& ~~~maskOf (lns.map (·.1.l)))).recheckMask (e.1.b.team * 32 + e.1.b.pack) i) s)

/-- JOIN (R187): the lanes of the mask wait until all of them stand at this join. -/
def execJoin (o : SY) (s : State) : Out :=
  .next (runBatch { maskNeed o with na := 1 } (fun lns s =>
    let i := maskIx o.a
    let s := lns.foldl (fun s e =>
      if (s.maskOfBatch e.1.b i).getLsbD e.1.l then s.waitAt e.1 (.join i) else s) s
    match lns with
    | [] => s
    | e :: _ => s.recheckMask (e.1.b.team * 32 + e.1.b.pack) i) s)

/-- WAITM (R189): arrival is a core-scope release; the completion acquires at core scope. -/
def execWaitm (o : SY) (s : State) : Out :=
  .next (runBatch { maskNeed o with na := 1 } (fun lns s =>
    let i := maskIx o.a
    let s := lns.foldl (fun s e =>
      if (s.maskOfBatch e.1.b i).getLsbD e.1.l then afterRelease s e.1 .core (fun s => s.waitAt e.1 (.waitm i)) else s) s
    match lns with
    | [] => s
    | e :: _ => s.recheckMask (e.1.b.team * 32 + e.1.b.pack) i) s)

/-! ### Creating and ending fibres (R191-R194) -/

/-- Whether a lane is free (R150): no fibre, or an EXITED one with no pending token that has left every rendezvous point (R204). -/
def State.laneFree (s : State) (f : Nat) : Bool :=
  match s.fibre? f with
  | none => true
  | some x => x.st == .exited && x.tok.isEmpty && x.late.isEmpty

/-- The first free lane that SPAWN finds (R191): of the fibre's pack, then of the other packs of its role. -/
def State.freeLane (s : State) (f : Nat) : Option Nat :=
  let t := fibTeam f
  let packs := (List.range (s.blockOf f).packs).filter (fun p => s.roleOf (fibKey t (p * 32)) == s.roleOf f)
  let own := fibNum f / 32
  (own :: packs.filter (· != own)).findSome? (fun p =>
    ((List.range 32).map (fun l => fibKey t (p * 32 + l))).find? s.laneFree)

/-- A fibre that SPAWN starts with the values of g4-g11 (R191), in the lane that `old` left. -/
def spawned (old : Fibre) (vs : List Word) (pc : Word) (lane : Nat) : Fibre :=
  { Fibre.start pc ((rG 2, BitVec.ofNat 32 lane) :: (vs.zipIdx 4).map (fun e => (rG e.2, e.1))) with
    life := old.life + 1, qseq := old.qseq }

/-- The store faults of a fibre that has ended go to its context's log when its lane is filled again, and mark its team failed (R263,
R421). -/
def State.logOldFaults (s : State) (f : Nat) : State :=
  (s.fibre f).sfaults.foldl (fun s a => (s.logCtx (s.ctxOf f) (.storeFault (fibTeam f) a)).failTeam (fibTeam f)) s

/-- SPAWN (R191). -/
def execSpawn (o : BR) (s : State) : Out :=
  let gs := List.range' 4 8
  .next (runLanes { brNeed o with wd := if o.d.isNone then 0 else 1, also := gs, imp := gs } (fun ln _ s =>
    let no := 2 ^ 32 - 1
    if (s.fibre ln.f).helper then s.putD ln .a o.d 1 no
    else
      match s.freeLane ln.f with
      | none => s.putD ln .a o.d 1 no
      | some n =>
        afterRelease s ln .core (fun s =>
          let vs := s.readRegs ln.f (rG 4) (ln.l * 128 + 80) 8
          let s := (s.logOldFaults n).setFibre n (spawned (s.fibre n) vs (brTarget o ln.b.pc) (s.blockOf ln.f).lane)
          let bit_ : Word := BitVec.ofNat 32 (2 ^ fibLane n)
          let s := s.modPack (fibPack n) (fun p => { p with masks := mapAll p.masks (fun _ m => m &&& ~~~bit_) })
          (s.recheckMasks (fibPack n)).putD ln .a o.d 1 (fibNum n))) s)

/-- EXIT (R192), helper lanes included. -/
def execExit (o : SY) (s : State) : Out :=
  .next (runLanes { head := o.toHead, imm := o.imm } (fun ln _ s =>
    if (s.fibre ln.f).st == .exited then s else s.endFibre ln.f) s)

/-- DEMOTE (R193, R164). -/
def execDemote (o : SY) (s : State) : Out :=
  .next (runLanes { head := o.toHead, imm := o.imm } (fun ln _ s =>
    let x := s.fibre ln.f
    if x.helper || x.st == .exited then s
    else
      let p := fibPack ln.f
      let s := s.modFibre ln.f (fun x => { x with helper := true })
      let s := if s.hasNonHelper p then s else (s.packFibres p).foldl (fun s e => s.endOne e.1) s
      let s := s.recheckMasks p
      [Scope.quad, .die, .pkg, .pod].foldl (fun s sc => s.recheckHbar (fibTeam ln.f) sc) s) s)

/-- YIELD (R194): at the pack's next turn the grouping stage passes over these lanes. -/
def execYield (o : SY) (s : State) : Out :=
  .next (runBatch { head := o.toHead, imm := o.imm } (fun lns s =>
    match lns with
    | [] => s
    | e :: _ => s.modPack (e.1.b.team * 32 + e.1.b.pack) (fun p => { p with yielded := lns.map (·.1.l) })) s)

end Sys2Proof.Machine
end

