-- ==== Sys2Proof/Machine/CrossLane.lean ====
section
/-!
DEFINITION. Cross-lane operations, opcodes 0x40-0x45 (R195-R197): the participants are the lanes that run the instruction, and
every operand is read before any lane writes.
-/
namespace Sys2Proof.Machine

/-- Run a cross-lane instruction: g gives each participant its value and flags from the lane, its operands and all participants,
lanes with operands, ascending (R195). Capsule mode forbids it (R207). -/
def crossRun (o : AL) (na nb wd : Nat) (g : Nat → Vals → List (Nat × Vals) → Nat × Nat) (s : State) : State :=
  runBatch { alNeed o na nb 0 wd with cap := false } (fun lns s =>
    let all := lns.map (fun e => (e.1.l, e.2))
    lns.foldl (fun s e =>
      let r := g e.1.l e.2 all
      (s.flag e.1.f r.2).putD e.1 .b o.d wd r.1) s) s

/-- The mask of the participants whose operand passes a test. -/
def lanesWhere (all : List (Nat × Vals)) (p : Vals → Bool) : Nat := (maskOf ((all.filter (fun e => p e.2)).map (·.1))).toNat

/-- A participant's operand A is not zero. -/
def aSet (x : Vals) : Bool := wordsNat x.a != 0

/-- BALLOT (R196). -/
def execBallot (o : AL) (s : State) : Out := .next (crossRun o 1 0 1 (fun _ _ all => (lanesWhere all aSet, 0)) s)

/-- AGREE (R196). -/
def execAgree (o : AL) (s : State) : Out :=
  .next (crossRun o 1 0 1 (fun _ _ all =>
    let every := all.all (fun e => aSet e.2)
    let some_ := all.any (fun e => aSet e.2)
    (b2n (match o.fn.toNat with
      | 0 => every
      | 1 => some_
      | _ => every || !some_), 0)) s)

/-- The lane that SHFL reads (R196); none outside 0-31. -/
def shflFrom (fn l b : Nat) : Option Nat :=
  match fn with
  | 0 => some (b % 32)
  | 1 => if b ≤ l then some (l - b) else none
  | 2 => if l + b < 32 then some (l + b) else none
  | _ => some (l ^^^ (b % 32))

/-- SHFL (R196). -/
def execShfl (o : AL) (s : State) : Out :=
  .next (crossRun o (tyRegs o.ty) 1 (tyRegs o.ty) (fun l x all =>
    (match (shflFrom o.fn.toNat l (wordsNat x.b)).bind (fun j => all.find? (fun e => e.1 == j)) with
      | some e => wordsNat e.2.a
      | none => wordsNat x.a, 0)) s)

/-- The identity of a combination over no participant (R197). -/
def reduceUnit (op : Nat) (t : Ty) : Nat :=
  match op, t with
  | 0, _ => 0
  | 1, .f32 => fmtF32.infBits
  | 2, .f32 => fmtF32.infOf true
  | 1, t => unsign (tyMax t) (32 * tyRegs t)
  | 2, t => unsign (tyMin t) (32 * tyRegs t)
  | 3, t => 2 ^ (32 * tyRegs t) - 1
  | _, _ => 0

/-- One step of an .f32 combination and its flags (R197). -/
def reduceStepF (op : Nat) (rnd : Rm) (a : Nat × Nat) (x : Nat) : Nat × Nat :=
  let r := match op with
    | 0 => fAdd fmtF32 rnd (fmtF32.decode a.1) (fmtF32.decode x)
    | 1 => fMinMax fmtF32 false false a.1 x
    | _ => fMinMax fmtF32 true false a.1 x
  (r.1, a.2 ||| r.2)

/-- The first value of an .f32 combination and its flags: a NaN becomes the canonical one (R210, R232). (DEDUCED, log 63.) -/
def reduceStartF (v : Nat) : Nat × Nat :=
  match fmtF32.decode (v % 2 ^ 32) with
  | .nan sig => (fmtF32.nanBits, if sig then 16 else 0)
  | _ => (v % 2 ^ 32, 0)

/-- The combination of values in ascending lane order (R197): the result and the flags of every step. -/
def reduce (op : Nat) (t : Ty) (rnd : Rm) (sat : Bool) (vs : List Nat) : Nat × Nat :=
  match vs with
  | [] => (reduceUnit op t, 0)
  | v :: rest =>
    if t = .f32 then rest.foldl (reduceStepF op rnd) (reduceStartF v)
    else
      let xs := (v :: rest).map (tyVal t)
      match op with
      | 0 => (narrow t sat (xs.foldl (fun a x => a + x) 0), 0)
      | 1 => (narrow t false (xs.tail.foldl min (xs.headD 0)), 0)
      | 2 => (narrow t false (xs.tail.foldl max (xs.headD 0)), 0)
      | 3 => (rest.foldl (fun a x => a &&& x) v, 0)
      | 4 => (rest.foldl (fun a x => a ||| x) v, 0)
      | _ => (rest.foldl (fun a x => a ^^^ x) v, 0)

/-- The operands of participants. -/
def aVals (all : List (Nat × Vals)) : List Nat := all.map (fun e => wordsNat e.2.a)

/-- PRDX (R196, R197). -/
def execPrdx (o : AL) (s : State) : Out :=
  .next (crossRun o (tyRegs o.ty) 0 (tyRegs o.ty) (fun _ _ all => reduce o.fn.toNat o.ty o.rm o.sat (aVals all)) s)

/-- PSCAN (R196, R197): over the participants up to the lane, or below it with `.excl`. Every participant sets the flags of every
step. -/
def execPscan (o : AL) (s : State) : Out :=
  .next (crossRun o (tyRegs o.ty) 0 (tyRegs o.ty) (fun l _ all =>
    let excl := o.x.getLsbD 3
    let upTo := all.filter (fun e => if excl then decide (e.1 < l) else decide (e.1 ≤ l))
    ((reduce o.fn.toNat o.ty o.rm o.sat (aVals upTo)).1,
     (reduce o.fn.toNat o.ty o.rm o.sat (aVals (if excl then all.dropLast else all))).2)) s)

/-- MATCH (R196): the mask is a value of the instruction's type. (DEDUCED, log 37.) -/
def execMatch (o : AL) (s : State) : Out :=
  .next (crossRun o (tyRegs o.ty) 0 (tyRegs o.ty) (fun _ x all => (lanesWhere all (fun y => wordsNat y.a == wordsNat x.a), 0)) s)

end Sys2Proof.Machine
end

