-- ==== Sys2Proof/Machine/Rendezvous.lean ====
section
/-!
DEFINITION. Rendezvous points and hierarchical barriers, opcodes 0x46-0x4B (R198-R206).
-/
namespace Sys2Proof.Machine

/-- What a rendezvous instruction needs. -/
def rvNeed (o : SY) : Need := { head := o.toHead, imm := o.imm }
/-- The point, `MOD`[36:32] (R199). -/
def rvPointOf (o : SY) : Nat := (o.mod.extractLsb' 0 5).toNat
/-- `.drop`, `MOD`[37] (R199). -/
def rvDropOf (o : SY) : Bool := o.mod.getLsbD 5
/-- `ROLES`, `MOD`[41:38]; 0 means all four (R199). -/
def rvRolesOf (o : SY) : BitVec 4 := if o.mod.extractLsb' 6 4 == 0 then 15 else o.mod.extractLsb' 6 4

/-- Whether a fibre of a team waits on a point. -/
def State.anyWaits (s : State) (t b : Nat) : Bool :=
  (s.teamFibres t).any (fun e => match e.2.st with
    | .waiting (.rendezvous b' ..) => b' == b
    | _ => false)

/-- BINIT (R200): the status, and the state after it. -/
def State.rvInit (s : State) (t b count : Nat) (drop : Bool) (roles : BitVec 4) : Nat × State :=
  let x := s.point t b
  if x.init && (decide (0 < x.arrivedN) || s.anyWaits t b) then (1, s)
  else if count < 1 ∨ 1024 < count then (2, s)
  else
    (0, s.setPoint t b { init := true, phase := false, expect := count, arrivedN := 0, drop := drop, roles := roles, pend := 0,
                         arrived := [], dropped := [], kser := [], kdone := [] })

/-- BINIT (R200): once per batch, in the lowest lane that runs it; the status goes to every lane, and
every lane reads the operand. (DESIGN CHOICE, log 85.) -/
def execBinit (o : SY) (s : State) : Out :=
  .next (runBatch { rvNeed o with na := 1, wd := 1 } (fun lns s =>
    match lns with
    | [] => s
    | e :: _ =>
      let (st, s) := s.rvInit e.1.b.team (rvPointOf o) (wordsNat e.2.a) (rvDropOf o) (rvRolesOf o)
      lns.foldl (fun s e => s.putD e.1 .v o.d 1 st) s) s)

/-- The effect of a point that is not initialised (R201, R202). -/
def rvDead (b : Nat) : Err := { eff := Eff.syncDeadlock, arg := dlArg b 1 }

/-- arrive of R201 in a lane, and what follows with the phase arrived in. A helper that a lower lane's kill has ended has arrived by the
ending rule (R164, R204). -/
def arriveThen (s : State) (ln : Ln) (b : Nat) (drop : Bool) (k : Bool → State → State) : State :=
  if s.hasEnded ln.f then s
  else if !(s.point ln.b.team b).init then s.raise ln (rvDead b)
  else
    afterRelease s ln .core (fun s =>
      let (ph, s) := s.rvArrive ln.f b drop
      k ph s)

/-- ARRIVE (R201). -/
def execArrive (o : SY) (s : State) : Out :=
  .next (runLanes { rvNeed o with wd := if o.d.isNone then 0 else 1 } (fun ln _ s =>
    arriveThen s ln (rvPointOf o) (rvDropOf o) (fun ph s => s.putD ln .v o.d 1 (b2n ph))) s)

/-- A completed phase is observed: the core-scope acquire of R203, which passes on the k writes of the arrivals (R155). -/
def State.rvObserve (s : State) (f b : Nat) : State :=
  let kd := (s.point (fibTeam f) b).kdone
  (s.acquire f .core).modFibre f (fun x => { x with kacq := x.kacq ++ kd })

/-- BWAIT (R202). -/
def execBwait (o : SY) (s : State) : Out :=
  .next (runLanes { rvNeed o with na := 1 } (fun ln x s =>
    let b := rvPointOf o
    let ph := (x.a.headD 0).getLsbD 0
    if (s.point ln.b.team b).phase != ph then s.rvObserve ln.f b
    else if !(s.point ln.b.team b).init then s.raise ln (rvDead b)
    else s.waitAt ln (.rendezvous b ph none (State.regOf (s.fibre ln.f) o.a))) s)

/-- The register of a g destination. -/
def gOf : Spec → Option Nat
  | .g i => some i.val
  | _ => none

/-- BSYNC (R202): arrive, then wait for the phase arrived in, which D receives. -/
def execBsync (o : SY) (s : State) : Out :=
  .next (runLanes { rvNeed o with wd := if o.d.isNone then 0 else 1 } (fun ln _ s =>
    let b := rvPointOf o
    arriveThen s ln b false (fun ph s =>
      if (s.point ln.b.team b).phase != ph then (s.rvObserve ln.f b).putD ln .v o.d 1 (b2n ph)
      else s.waitAt ln (.rendezvous b ph (gOf o.d) none))) s)

/-- BTEST (R202). -/
def execBtest (o : SY) (s : State) : Out :=
  .next (runLanes { rvNeed o with na := 1, wd := 1 } (fun ln x s =>
    let b := rvPointOf o
    let ph := (x.a.headD 0).getLsbD 0
    if (s.point ln.b.team b).phase != ph then (s.rvObserve ln.f b).putD ln .v o.d 1 1
    else if !(s.point ln.b.team b).init then s.raise ln (rvDead b)
    else s.putD ln .v o.d 1 0) s)

/-- The scope in `MOD`[36:34]. -/
def modScope (m : BitVec 11) : Scope := (scopeOfCode (m.extractLsb' 2 3).toNat).getD .core

/-- HBAR (R206): arrival releases at the scope, then the fibre waits for the round. -/
def execHbar (o : SY) (s : State) : Out :=
  .next (runLanes { rvNeed o with live := true } (fun ln _ s =>
    let sc := modScope o.mod
    let l := s.launchOfTeam ln.b.team
    if !l.whole || !l.blk.deps.isEmpty then s.raise ln { eff := Eff.syncDeadlock, arg := dlArg 0x80 2 }
    else
      afterRelease s ln sc (fun s =>
        (s.waitAt ln (.hbar sc (s.hbarRoundOf ln.b.team sc))).recheckHbar ln.b.team sc)) s)

end Sys2Proof.Machine
end

