-- ==== Sys2Proof/Machine/Float.lean ====
section
/-!
DEFINITION. Floating-point arithmetic, comparison, transcendentals, paired half-width arithmetic and dot products, opcodes
0x50-0x60, 0x66-0x68 (R229-R236, R242-R245).
-/
namespace Sys2Proof.Machine

/-- Run a floating-point instruction whose result is one register: the value and the flags from the operands' registers (R230). -/
def fpRun (o : AL) (cls : Cls) (nb nc : Nat) (g : Nat → Nat → Nat → Nat × Nat) (s : State) : State :=
  runLanes (alNeed o 1 nb nc 1) (fun ln x s =>
    let r := g (wordsNat x.a) (wordsNat x.b) (wordsNat x.c)
    (s.flag ln.f r.2).putD ln cls o.d 1 r.1) s

/-- FADD (R231). -/
def execFadd (o : AL) (s : State) : Out :=
  .next (fpRun o .b 1 0 (fun a b _ => fAdd (fmtOf o.ty) o.rm (fDecode o.ty a) (fDecode o.ty b)) s)
/-- FSUB (R231): b negated. -/
def execFsub (o : AL) (s : State) : Out :=
  .next (fpRun o .b 1 0 (fun a b _ => fAdd (fmtOf o.ty) o.rm (fDecode o.ty a) (fDecode o.ty b).negate) s)
/-- FMUL (R231). -/
def execFmul (o : AL) (s : State) : Out :=
  .next (fpRun o .b 1 0 (fun a b _ => fMul (fmtOf o.ty) o.rm (fDecode o.ty a) (fDecode o.ty b)) s)
/-- FFMA (R231). -/
def execFfma (o : AL) (s : State) : Out :=
  .next (fpRun o .b 1 1 (fun a b c => fFma (fmtOf o.ty) o.rm (fDecode o.ty a) (fDecode o.ty b) (fDecode o.ty c)) s)

/-- FMIN (R232). -/
def execFmin (o : AL) (s : State) : Out :=
  .next (fpRun o .b 1 0 (fun a b _ =>
    fMinMax (fmtOf o.ty) false (o.fn == 1) (a % 2 ^ o.ty.width) (b % 2 ^ o.ty.width)) s)
/-- FMAX (R232). -/
def execFmax (o : AL) (s : State) : Out :=
  .next (fpRun o .b 1 0 (fun a b _ =>
    fMinMax (fmtOf o.ty) true (o.fn == 1) (a % 2 ^ o.ty.width) (b % 2 ^ o.ty.width)) s)

/-- FPRED (R233). -/
def execFpred (o : AL) (s : State) : Out :=
  .next (fpRun o .b 1 (if o.c.isNone then 0 else 1) (fun a b c =>
    let r := cmpFloat o.fn.toNat (fDecode o.ty a) (fDecode o.ty b)
    (b2n (comb o.x r.1 (c != 0)), r.2)) s)

/-- FCLASS (R234): the mask, or whether it meets b. -/
def execFclass (o : AL) (s : State) : Out :=
  .next (fpRun o .b (if o.b.isNone then 0 else 1) 0 (fun a b _ =>
    (if o.b.isNone then classMask o.ty a else b2n ((classMask o.ty a &&& b) != 0), 0)) s)

/-- FRCP (R235). -/
def execFrcp (o : AL) (s : State) : Out := .next (fpRun o .v 0 0 (fun a _ _ => transcend o.ty .rn (frcp .rn) a) s)
/-- FRSQ (R235). -/
def execFrsq (o : AL) (s : State) : Out := .next (fpRun o .v 0 0 (fun a _ _ => transcend o.ty .rn frsq a) s)
/-- FSQRT (R235), the one transcendental that takes a rounding. -/
def execFsqrt (o : AL) (s : State) : Out := .next (fpRun o .v 0 0 (fun a _ _ => transcend o.ty o.rm (fsqrt o.rm) a) s)
/-- FEX2 (R235). -/
def execFex2 (o : AL) (s : State) : Out := .next (fpRun o .v 0 0 (fun a _ _ => transcend o.ty .rn fex2 a) s)
/-- FLG2 (R235). -/
def execFlg2 (o : AL) (s : State) : Out := .next (fpRun o .v 0 0 (fun a _ _ => transcend o.ty .rn flg2 a) s)
/-- FTANH (R235). -/
def execFtanh (o : AL) (s : State) : Out := .next (fpRun o .v 0 0 (fun a _ _ => transcend o.ty .rn ftanh a) s)

/-- Element k of a pair of 16-bit elements (R230). -/
def half (k x : Nat) : Nat := x / 2 ^ (16 * k) % 2 ^ 16

/-- A body of R231 on element 0 and element 1, with the flags of both (R236). -/
def pairOp (t : Ty) (g : FVal → FVal → FVal → Nat × Nat) (a b c : Nat) : Nat × Nat :=
  let e (k : Nat) : Nat × Nat := g (fDecode t (half k a)) (fDecode t (half k b)) (fDecode t (half k c))
  ((e 0).1 + 2 ^ 16 * (e 1).1, (e 0).2 ||| (e 1).2)

/-- V2ADD (R236). -/
def execV2add (o : AL) (s : State) : Out :=
  .next (fpRun o .b 1 0 (pairOp o.ty (fun a b _ => fAdd (fmtOf o.ty) o.rm a b)) s)
/-- V2MUL (R236). -/
def execV2mul (o : AL) (s : State) : Out :=
  .next (fpRun o .b 1 0 (pairOp o.ty (fun a b _ => fMul (fmtOf o.ty) o.rm a b)) s)
/-- V2FMA (R236). -/
def execV2fma (o : AL) (s : State) : Out :=
  .next (fpRun o .b 1 1 (pairOp o.ty (fun a b c => fFma (fmtOf o.ty) o.rm a b c)) s)

/-! ### Dot products (R224, R242, R243) -/

/-- An exact product in a sum; an undefined one counts as a signalling NaN, for it sets invalid (R231, R242). -/
def productVal (a b : FVal) : FVal :=
  if a.isNan || b.isNan then .nan (a.isSignalling || b.isSignalling) else (a.mul b).getD (.nan true)

/-- The exact sum of products (R222, R224, R242); a quiet NaN among them decides before opposing infinities do. (DEDUCED, log 79.) -/
def sumVal (rnd : Rm) (ps : List FVal) : FVal :=
  if ps.any FVal.isSignalling then .nan true
  else if ps.any FVal.isNan then .nan false
  else (FVal.sum rnd ps).getD (.nan true)

/-- FDOT4 (R242): elements of 8 or 16 bits. -/
def fdot4 (t : Ty) (rnd : Rm) (a b c : Nat) : Nat × Nat :=
  let w := t.width
  let el (k x : Nat) : FVal := fDecode t (x / 2 ^ (w * k) % 2 ^ w)
  fAdd fmtF32 rnd (fmtF32.decode (c % 2 ^ 32)) (sumVal rnd ((List.range 4).map (fun k => productVal (el k a) (el k b))))

/-- FDOT4 (R242): even pairs for the 16-bit types; an operand of one register alone has +0 as elements 2 and 3. (DESIGN CHOICE, log 79.) -/
def execFdot4 (o : AL) (s : State) : Out :=
  let n := if o.ty == .mf8 then 1 else 2
  .next (runLanes (alNeed o n n 1 1) (fun ln x s =>
    let r := fdot4 o.ty o.rm (wordsNat x.a) (wordsNat x.b) (wordsNat x.c)
    (s.flag ln.f r.2).putD ln .b o.d 1 r.1) s)

/-- IDOT4 (R243). -/
def idot4 (t : Ty) (sat : Bool) (a b c : Nat) : Nat :=
  let r : Ty := if t.signed then .s32 else .n32
  let sum := (List.range 4).foldl (fun acc k =>
    acc + tyVal t (a / 2 ^ (8 * k)) * tyVal t (b / 2 ^ (8 * k))) (tyVal r c)
  narrow r sat sum

/-- IDOT4 (R243). -/
def execIdot4 (o : AL) (s : State) : Out := .next (fpRun o .b 1 1 (fun a b c => (idot4 o.ty o.sat a b c, 0)) s)

/-- FSTAT (R244): the flag word, then the flags of the mask are cleared; not allowed in capsule mode (R245). -/
def execFstat (o : AL) (s : State) : Out :=
  .next (runLanes { alNeed o 1 0 0 (if o.d.isNone then 0 else 1) with cap := false } (fun ln x s =>
    (s.putD ln .b o.d 1 (s.fibre ln.f).flags.toNat).clearFlags ln.f (wordsNat x.a % 32)) s)

end Sys2Proof.Machine
end

