-- ==== Sys2Proof/Machine/Convert.lean ====
section
/-!
DEFINITION. Conversions, block scales and MF8 packing, opcodes 0x61-0x65 (R213, R214, R217-R221, R237-R241).
-/
namespace Sys2Proof.Machine

/-- `STY`, `MOD`[35:32] (R237). -/
def styOf (o : AL) : Ty := (tyOfCode o.x.toNat).getD .s32

/-- Between floating-point formats (R214, R217, R237). -/
def fcvt (dst src : Ty) (rnd : Rm) (x : Nat) : Nat × Nat :=
  let v := fDecode src x
  match v with
  | .nan sig => (nanOf dst, if sig then 16 else 0)
  | v => fRound dst rnd v

/-- FCVT (R237). -/
def execFcvt (o : AL) (s : State) : Out := .next (fpRun o .b 0 0 (fun a _ _ => fcvt o.ty (styOf o) o.rm a) s)

/-- Where at least one type is an integer type (R238): the destination's registers as one number, and the flags. -/
def icvt (dst src : Ty) (rnd : Rm) (sat : Bool) (x : Nat) : Nat × Nat :=
  if src.isInt then
    if dst.isInt then (narrow dst sat (tyVal src x), 0) else fRound dst rnd (FVal.ofInt (tyVal src x))
  else
    let r := toInt dst rnd (fDecode src x)
    (narrow dst false r.1, r.2)

/-- ICVT (R238): a 64-bit type on either side uses an even pair; `IMM` widens under the source type (R71). -/
def execIcvt (o : AL) (s : State) : Out :=
  .next (runLanes { alNeed o (tyRegs (styOf o)) 0 0 (tyRegs o.ty) with sgn := (styOf o).signed } (fun ln x s =>
    let r := icvt o.ty (styOf o) o.rm o.sat (wordsNat x.a)
    (s.flag ln.f r.2).putD ln .b o.d (tyRegs o.ty) r.1) s)

/-- `HS`, `MOD`[35] (R219). -/
def hsOf (o : AL) : Bool := o.x.getLsbD 3
/-- `SEL`, `MOD`[34:33] (R438). -/
def selOf (o : AL) : Nat := (o.x.extractLsb' 1 2).toNat
/-- The scale that `HS` selects (R219). -/
def scaleOf (hs : Bool) (x : Nat) : Nat := if hs then bits x 24 16 else bits x 8 0

/-- Write a scale into one half of a register and keep the other half (R239). -/
def putScale (hs : Bool) (x d : Nat) : Nat := if hs then d % 2 ^ 16 + x * 2 ^ 16 else d / 2 ^ 16 * 2 ^ 16 + x

/-- SCALEQ (R239): `.one` per lane; `.blk`, not allowed in capsule mode (R245), over the lanes that run it. D is read as well. -/
def execScaleq (o : AL) (s : State) : Out :=
  .next (runBatch { alNeed o 1 0 0 1 with nd := 1, cap := o.fn == 0 } (fun lns s =>
    let vals := lns.map (fun e => fDecode o.ty (wordsNat e.2.a))
    lns.foldl (fun s e =>
      let x := if o.fn == 0 then scaleCode [fDecode o.ty (wordsNat e.2.a)] else scaleCode vals
      s.putD e.1 .b o.d 1 (putScale (hsOf o) x (wordsNat e.2.d))) s) s)

/-- One element of MFPACK (R240): the byte and the flags. -/
def mfpack1 (t : Ty) (scale x : Nat) : Nat × Nat :=
  if scale = 511 then (0x80, 0) else mf8Round ((fDecode t x).scale (256 - (scale : Int)))

/-- MFPACK (R240): two elements into byte pair `SEL` of D. -/
def execMfpack (o : AL) (s : State) : Out :=
  .next (runLanes { alNeed o 1 1 1 1 with nd := 1 } (fun ln x s =>
    let sc := scaleOf (hsOf o) (wordsNat x.c)
    let r0 := mfpack1 o.ty sc (wordsNat x.a)
    let r1 := mfpack1 o.ty sc (wordsNat x.b)
    let d := wordsNat x.d
    let sh := 16 * (selOf o % 2)
    let d' := d - bits d (sh + 15) sh * 2 ^ sh + (r0.1 + 256 * r1.1) * 2 ^ sh
    (s.flag ln.f (r0.2 ||| r1.2)).putD ln .b o.d 1 d') s)

/-- One element of MFUNPK (R241). -/
def mfunpk1 (t : Ty) (rnd : Rm) (scale byte : Nat) : Nat × Nat :=
  match underScale scale (mf8Decode byte) with
  | .nan _ => (nanOf t, 0)
  | v => roundVal (fmtOf t) rnd v

/-- MFUNPK (R241): one byte under .f32, two under the 16-bit types. -/
def execMfunpk (o : AL) (s : State) : Out :=
  .next (fpRun o .b 1 0 (fun a b _ =>
    let sc := scaleOf (hsOf o) b
    let el (k : Nat) : Nat × Nat := mfunpk1 o.ty o.rm sc (a / 2 ^ (8 * k) % 256)
    if o.ty = .f32 then el (selOf o)
    else
      let r0 := el (2 * (selOf o % 2))
      let r1 := el (2 * (selOf o % 2) + 1)
      (r0.1 + 2 ^ 16 * r1.1, r0.2 ||| r1.2)) s)

end Sys2Proof.Machine
end

