-- ==== Sys2Proof/Machine/Paging.lean ====
section
/-!
DEFINITION. What Cupola does to mappings and frames: shootdown (R264), residency (R266), frames and their release (R269).
-/
namespace Sys2Proof.Machine

namespace State

/-- The frames of the package: 40 bits of physical address in 64 KiB frames (R256). -/
def frameCount : Nat := 2 ^ 24

/-- Whether a frame is backed: its offset in its die's DRAM lies below 192 GiB (R256). -/
def frameBacked (n : Nat) : Bool := decide (n < frameCount) && decide (n % 2 ^ 22 < 192 * 2 ^ 14)

/-- A frame that Cupola may give out. -/
def frameFree (s : State) (n : Nat) : Bool := frameBacked n && (s.frameOf (n * 2 ^ 16)).owner.isNone

/-- Change the record of a frame. -/
def modFrame (s : State) (n : Nat) (g : Frame → Frame) : State :=
  { s with frames := mapModD s.frames n { gen := 0, moving := none, frozen := false, owner := none } g }

/-- The first run of n free frames, aligned to n, from a run on, among `fuel` that follow. -/
def freeFrom (s : State) (n : Nat) : Nat → Nat → Option Nat
  | 0, _ => none
  | fuel + 1, k =>
    if (List.range' (k * n % frameCount) n).all s.frameFree then some (k * n % frameCount) else freeFrom s n fuel (k + 1)

/-- The frames that Cupola picks for a page of n frames (R259, R266): any free ones, by a free choice. -/
def pickFrame (s : State) (salt n : Nat) : Option Nat := s.freeFrom n (frameCount / n) (s.pick salt (frameCount / n))

/-- Write a PTE (R259). -/
def setPte (s : State) (pte v : Nat) : State := s.tableWrite pte (leBytes 16 v)

/-- The L1 sectors of a core that lie in a range of physical addresses. -/
def sectorsIn (s : State) (c base size : Nat) : List Nat :=
  ((s.core c).l1.map (·.1)).filter (fun k => base ≤ k / 512 * 64 && decide (k / 512 * 64 < base + 2 ^ size))

/-- The requests on their way to a range of frames; a replay packet has not been sent (R264, R404). -/
def sentTo (s : State) (base size : Nat) : List Nat :=
  (s.reqs.filter (fun e => base ≤ e.2.pa && decide (e.2.pa < base + 2 ^ size) && !e.2.replay)).map (·.1)

/-- Step 3 of R264 on a range of frames: accesses already translated are performed, and every L1 sector of the range goes home
and is discarded; what home refuses is retried where the page now is (R263, R265). -/
def drain (s : State) (base size : Nat) : State :=
  let s := s.performReqs (s.sentTo base size)
  (s.cores.map (·.1)).foldl (fun s c =>
    (s.sectorsIn c base size).foldl (fun s k => s.flushSector c (k / 512 * 64) (k % 512) true) s) s

/-- Discard the lines of a range from every cache, without writing them back (R269). -/
def discardLines (s : State) (base size : Nat) : State :=
  let inRange (k : Nat) : Bool := base ≤ k / 512 * 64 && decide (k / 512 * 64 < base + 2 ^ size)
  { s with cores := mapAll s.cores (fun _ c =>
             { c with l1 := mapFilter c.l1 (fun k _ => !inRange k)
                      icache := c.icache.filter (fun ln => !(base ≤ ln.pa && decide (ln.pa < base + 2 ^ size))) }.trim),
           dies := mapAll s.dies (fun _ d => { d with rcopy := mapFilter d.rcopy (fun k _ => !inRange k) }) }

/-- Discard the I-cache lines of a context that a virtual range holds. -/
def dropLines (s : State) (ctx va size : Nat) : State :=
  let base := va / 2 ^ size * 2 ^ size
  let cw := (s.ctx ctx).cwbase
  { s with cores := mapAll s.cores (fun _ c => { c with icache := c.icache.filter (fun ln =>
      !(ln.ctx == ctx && decide (base ≤ cw + ln.off) && decide (cw + ln.off < base + 2 ^ size))) }) }

/-- The frame numbers of a leaf. -/
def leafFrames (l : Leaf) : List Nat := List.range' (l.pa / 2 ^ l.size * 2 ^ l.size / 2 ^ 16) (2 ^ (l.size - 16))

/-- The generation of a frame moves on (R264, step 4). -/
def bumpGen (s : State) (n : Nat) : State := s.modFrame n (fun x => { x with gen := x.gen + 1 })

/-- Release the frames of a leaf (R269). -/
def releaseFrames (s : State) (l : Leaf) : State :=
  let s := s.discardLines (l.pa / 2 ^ l.size * 2 ^ l.size) l.size
  (leafFrames l).foldl (fun s n => s.modFrame n (fun x => { x with gen := x.gen + 1, owner := none })) s

/-- Steps 2 and 3 of R264 for the page of a leaf. -/
def shoot (s : State) (ctx va : Nat) (l : Leaf) : State :=
  ((s.tlbDrop ctx va).drain (l.pa / 2 ^ l.size * 2 ^ l.size) l.size).dropLines ctx va l.size

/-- Whether an access translated under the old entry still waits, behind one to another frame that is frozen: the shootdown waits for it
(R264). -/
def undrained (s : State) (l : Leaf) : Bool := !(s.sentTo (l.pa / 2 ^ l.size * 2 ^ l.size) l.size).isEmpty

/-- Fill frames with a page's contents under a key: the bytes of a memory, numbered from 0. -/
def fillFrames (s : State) (key base size : Nat) (m : Memory) : State :=
  let n := 2 ^ size
  let sm := s.sm4Of key
  let keys : Map SectorKey := (List.range' (base / 64) (n / 64)).foldl (fun ks k =>
    let ver := ((mapGet ks k).map (·.ver)).getD 0
    mapSet ks k { key := sm, mask := BitVec.allOnes 64, base := ver, ver := ver + 1 }) s.skeys
  { s with dram := s.dram.paste base n m, skeys := keys }

/-- A read of every sector of frames recalls its pending updates first (R255). -/
def recallFrames (s : State) (key base size : Nat) : State :=
  (List.range' (base / 64) (2 ^ size / 64)).foldl (fun s k => s.recallSector (k * 64) key) s

/-- The contents of frames as their owner reads them, numbered from 0 (R268): bytes written under another key are unspecified. -/
def readFrames (s : State) (key base size : Nat) : Memory :=
  (List.range (2 ^ size)).foldl (fun m i => m.write i (s.homeByte key (base + i))) []

/-- Copy the frames of a page to others under a key (R265). -/
def copyFrames (s : State) (key from_ dest size : Nat) : State :=
  let s := s.recallFrames key from_ size
  s.fillFrames key dest size (s.readFrames key from_ size)

/-- Cupola gives frames to a context under one new generation, which the one `GEN` of the page's leaf carries (R263, R264). -/
def claimFrames (s : State) (ctx : Nat) (frames : List Nat) : State :=
  let g : Nat := (frames.map (fun n => (s.frameOf (n * 2 ^ 16)).gen.toNat)).foldl max 0
  frames.foldl (fun s n => s.modFrame n (fun x => { x with owner := some ctx, gen := BitVec.ofNat 12 (g + 1) })) s

/-- The start of the page that a leaf maps. -/
def pageOf (l : Leaf) (va : Nat) : Nat := va / 2 ^ l.size * 2 ^ l.size

/-- What Cupola does to make the page of an address resident in a frame (R264, R266): the stored contents, or zero; then `RES`,
`FRAME` and `GEN` in the PTE. -/
def makeResident (s : State) (ctx va frame : Nat) : State :=
  match s.walk ctx va with
  | none => s
  | some l =>
    let page := pageOf l va
    let frames := List.range' frame (2 ^ (l.size - 16))
    if l.perms.getLsbD 2 || !frames.all s.frameFree then s
    else
      let s := s.claimFrames ctx frames
      let c := s.ctx ctx
      let m := if c.stored.contains page then c.flask.cut page (2 ^ l.size) else []
      let s := s.fillFrames l.key (frame * 2 ^ 16) l.size m
      let gen := (s.frameOf (frame * 2 ^ 16)).gen.toNat
      let p := s.dram.nat l.pte 16
      let p := p - bits p 39 16 * 2 ^ 16 + frame * 2 ^ 16 - bits p 75 64 * 2 ^ 64 + gen * 2 ^ 64 + 4
      (s.setPte l.pte p).tlbDrop ctx va

/-- The frames of the page of an address: 4,096 for a 256 MiB leaf, else one (R260). -/
def leafPages (s : State) (ctx va : Nat) : Nat := ((s.walk ctx va).map (fun l => 2 ^ (l.size - 16))).getD 1

/-- What a page request of a context meets (R281). -/
inductive Residence where
  | unmapped | resident | absent
  deriving DecidableEq, Repr, Inhabited

/-- Whether the page of an address is mapped and resident (R266). -/
def residence (s : State) (ctx va : Nat) : Residence :=
  match s.walk ctx va with
  | none => .unmapped
  | some l => if l.perms.getLsbD 2 then .resident else .absent

end State

end Sys2Proof.Machine
end

