-- ==== Sys2Proof/Machine/MemInstr.lean ====
section
/-!
DEFINITION. Loads, stores, hints, residency and range instructions, opcodes 0x70-0x79 but the queues' pops (R270-R275, R279-R282).
-/
namespace Sys2Proof.Machine

/-! ### Shared parts -/

/-- What an ME instruction needs beside its own operands (R74). -/
def meNeed (o : ME) : Need := { head := o.toHead, imm := 0, na := baseRegs o.hnd o.a }

/-- The checks of an ME access (R248), after the waits of R275. -/
def mePrep (o : ME) (w : Want) (ln : Ln) (x : Vals) (s : State) : Prep Acc :=
  if s.acqHeld ln.f then .stall
  else
    match s.check ln.f (eaOf o x).1 (eaOf o x).2 w with
    | .error e => .err e
    | .ok a => .ok a

/-- An order that acquires after the access (R324). -/
def acquires (o : MOrd) : Bool := o == .acq || o == .ar || o == .sc
/-- An order that releases before the access (R324). -/
def releases (o : MOrd) : Bool := o == .rel || o == .ar || o == .sc

/-- What comes before a read: a `.sc` read follows every access of its fibre that precedes it (R328). -/
def beforeRead (s : State) (ln : Ln) (o : ME) (k : State → State) : State :=
  if o.ord = .sc then
    let s := s.releaseActs ln.f o.sc
    if s.releaseWaits ln.f o.sc then s.stall ln else k s
  else k s

/-- What comes before a write: a releasing one performs its release (R325). -/
def beforeWrite (s : State) (ln : Ln) (o : ME) (k : State → State) : State :=
  if releases o.ord then afterRelease s ln o.sc k else k s

/-- What comes after an access: the acquire of R326; a `.sc` write is performed at home before a later access (R328): while it must
wait, later accesses do (`acqHeld`). -/
def afterAccess (s : State) (ln : Ln) (o : ME) : State :=
  let s := if o.ord = .sc then s.arriveBefore ln.f (fun _ => true) else s
  if acquires o.ord then s.acquire ln.f o.sc else s

/-! ### LD, ST, STL (R272-R274) -/

/-- `SX` of LD, LDQ (R272). -/
def sxOf (o : ME) : Bool := o.fn.getLsbD 1

/-- A register write whose value an LD's read will give (R321): until then `v`, word i of what the place held at issue. -/
def Fibre.putLoad (x : Fibre) (r : Nat) (v : Word) (seq i : Nat) : Fibre :=
  { x.note .v r with pend := x.pend ++ [{ reg := r, val := v, pos := x.pos, cls := .v, arrived := false, serial := i, old := 0,
                                          load := some seq }] }

/-- Consecutive registers from number r on wait for an LD's read. -/
def Fibre.putLoads (x : Fibre) (r seq : Nat) : Nat → List Word → Fibre
  | _, [] => x
  | i, w :: ws => (x.putLoad (r + i) w seq i).putLoads r seq (i + 1) ws

/-- The read of an LD is on its way (R321, R404): it takes the next place in program order, and the registers from number r on wait. -/
def State.startLoad (s : State) (ln : Ln) (o : ME) (loc : Loc) (r : Nat) (bs : List Byte) : State :=
  s.modFibre ln.f (fun x =>
    { x.putLoads r x.qseq 0 (natWords o.sz.regs (extendBytes (sxOf o) bs)) with
      loads := mapSet x.loads x.qseq { loc := loc, n := o.sz.bytes, sx := sxOf o }, qseq := x.qseq + 1 })

/-- Whether an LD is performed only when its result arrives: one that no order holds to its place, into a register of the fibre. The
number of its first register. -/
def deferred (o : ME) (x : Fibre) : Option Nat :=
  match o.d with
  | .g _ => if o.ord = .plain ∨ o.ord = .rlx then State.regOf x o.d else none
  | _ => none

/-- LD (R272): a read of an on-chip space. -/
def execLd (o : ME) (s : State) : Out :=
  .next (runChecked { meNeed o with wd := o.sz.regs, cap := true }
    (mePrep o { spaces := [2, 3, 4, 5], n := o.sz.bytes, align := o.sz.bytes, rd := true })
    (fun ln _ a s =>
      match deferred o (s.fibre ln.f) with
      | some r =>
        match (s.touchHandle ln.f a.hnd).readNow ln.f a o.sz.bytes (howOf o a) with
        | (.error e, s) => s.stop ln e
        | (.ok bs, s) => s.startLoad ln o a.loc r bs
      | none =>
        beforeRead s ln o (fun s =>
          match (s.touchHandle ln.f a.hnd).readLoc ln.f a o.sz.bytes (howOf o a) with
          | (.error e, s) => s.stop ln e
          | (.ok bs, s) => (afterAccess s ln o).putD ln .v o.d o.sz.regs (extendBytes (sxOf o) bs))) s)

/-- The data spaces and code, which a store accepts (R273). -/
def storeSpaces : List Nat := [1, 2, 3, 4, 5, 6]

/-- A store of bytes at a checked location (R273). -/
def storeAt (o : ME) (ln : Ln) (a : Acc) (how : How) (bs : List Byte) (s : State) : State :=
  beforeWrite s ln o (fun s =>
    match (s.touchHandle ln.f a.hnd).writeLoc ln.f a how bs with
    | (.error e, s) => s.stop ln e
    | (.ok _, s) => afterAccess s ln o)

/-- ST (R273). -/
def execSt (o : ME) (s : State) : Out :=
  .next (runChecked { meNeed o with nb := o.sz.regs, live := true }
    (mePrep o { spaces := storeSpaces, n := o.sz.bytes, align := o.sz.bytes, wr := true })
    (fun ln x a s => storeAt o ln a (howOf o a) (leBytes o.sz.bytes (wordsNat x.b)) s) s)

/-- STL (R274): 64 bytes as one write, performed at home as a `.cv` write. -/
def execStl (o : ME) (s : State) : Out :=
  .next (runChecked { meNeed o with nb := 16, live := true }
    (mePrep o { spaces := storeSpaces, n := 64, align := 64, wr := true })
    (fun ln x a s => storeAt o ln a { howOf o a with cv := true } (bytesOf x.b) s) s)

/-! ### LDQ (R275) -/

/-- The queue of a specifier. -/
def qOf : Spec → Nat
  | .q i => i.val
  | _ => 0
/-- The predicate of a specifier. -/
def pOf : Spec → Nat
  | .p i => i.val
  | _ => 0

/-- The entries of a fibre's queue. -/
def queueOf (x : Fibre) (q : Nat) : List QEntry := mapGetD x.queues q []

/-- LDQ waits for a free entry, then makes its checks (R275). -/
def ldqPrep (o : ME) (ln : Ln) (x : Vals) (s : State) : Prep Acc :=
  if 8 ≤ (queueOf (s.fibre ln.f) (qOf o.d)).length then .wait (.queueFree (qOf o.d))
  else mePrep o { spaces := [1, 2, 3, 4, 5], n := o.sz.bytes, align := o.sz.bytes, rd := true } ln x s

/-- A read of the held block in capsule mode is performed at home, like a `.cv` read (R367). -/
def ldqHow (o : ME) (a : Acc) (x : Fibre) : How :=
  let inBlock := match a.loc with
    | .glob va => x.capMode && decide (heldBlock x ≤ va) && decide (va < heldBlock x + 1024)
    | _ => false
  { howOf o a with cv := (howOf o a).cv || inBlock }

/-- LDQ (R275): a new tail entry, whose read is on its way; it keeps the place of the LDQ in program order. -/
def execLdq (o : ME) (s : State) : Out :=
  .next (runChecked { meNeed o with cap := true } (ldqPrep o) (fun ln _ a s =>
    let start (s : State) : State :=
      s.modFibre ln.f (fun x =>
        let e : QEntry := { sz := o.sz, sx := sxOf o, nr := o.fn.getLsbD 0, pr := pOf o.c, loc := a.loc, how := ldqHow o a x,
                            hnd := a.hnd, at_ := .flight, seq := x.qseq }
        { x with queues := mapModD x.queues (qOf o.d) [] (fun es => es ++ [e]), qseq := x.qseq + 1 })
    let s := s.touchHandle ln.f a.hnd
    if o.ord = .sc then
      let s := s.releaseActs ln.f o.sc
      if s.releaseWaits ln.f o.sc then s.stall ln else start s
    else start s) s)

/-! ### PREF and HRES (R280, R281) -/

/-- PREF (R280): fills a sector of the L1, or the remote copy under `.cv`, where the page is resident; never an effect. -/
def prefAt (o : ME) (f : Nat) (h : Nat) (off : Int) (s : State) : State :=
  match s.check f h off { spaces := [1], n := 1, align := 1, rd := true } with
  | .error _ => s
  | .ok a =>
    match a.loc with
    | .glob va =>
      match s.peek (s.ctxOf f) va .read with
      | none => s
      | some x =>
        let c := s.coreOf f
        if s.homeHeld c x.pa x.key false then s
        else if (howOf o a).cv then (s.fillBytes (c / 128) x.pa x.key a.rc).2
        else
          match s.l1 c (sectorKey x.pa x.key) with
          | none => (s.l1Read c x.pa x.key 1 a.rc (howOf o a).hint).2
          | some _ => s
    | _ => s

/-- PREF (R280). -/
def execPref (o : ME) (s : State) : Out :=
  .next (runLanes { meNeed o with cap := true } (fun ln x s =>
    if s.acqHeld ln.f then s.stall ln else prefAt o ln.f (eaOf o x).1 (eaOf o x).2 s) s)

/-- The checks of HRES (R281): the kind, and bounds but for h0. -/
def hresPrep (o : ME) (ln : Ln) (x : Vals) (s : State) : Prep Int :=
  let (h, off) := eaOf o x
  let e := s.entry ln.f h
  if s.acqHeld ln.f then .stall
  else
    match e.spaceOf with
    | none => .err { eff := Eff.memHandle, arg := s.kindArg ln.f h off }
    | some sp =>
      let fin := s.finalAddr ln.f h e sp off
      if sp ≠ 1 then .err { eff := Eff.memHandle, arg := marg h fin }
      else if h ≠ 0 ∧ (off < 0 ∨ (e.len : Int) ≤ off) then .err { eff := Eff.memBounds, arg := marg h fin }
      else .ok fin

/-- Cupola's answer to HRES (R281): the status, and the page made resident where it grants the request. -/
def State.hresAt (s : State) (f : Nat) (fin : Int) : Nat × State :=
  let va := match globLoc fin with
    | .glob a => a
    | _ => 2 ^ 64
  match s.residence (s.ctxOf f) va with
  | .unmapped => (2, s)
  | .resident => (1, s)
  | .absent =>
    if Config.hresRefuses s.tick then (3, s)
    else
      match s.pickFrame 40 (s.leafPages (s.ctxOf f) va) with
      | none => (3, s)
      | some n =>
        let s' := s.makeResident (s.ctxOf f) va n
        match s'.residence (s.ctxOf f) va with
        | .resident => (0, s')
        | _ => (3, s)

/-- HRES (R281). -/
def execHres (o : ME) (s : State) : Out :=
  .next (runChecked { meNeed o with wd := 1, live := true } (hresPrep o) (fun ln _ fin s =>
    let (st, s) := s.hresAt ln.f fin
    s.putD ln .v o.d 1 st) s)

/-! ### WBR and INVR (R282) -/

/-- What the checks of WBR and INVR find: nothing to do on the chip, or a range of virtual addresses. -/
inductive RangePrep where
  | onchip
  | range (va n : Nat)
  deriving DecidableEq, Repr, Inhabited

/-- The addresses of the virtual space among the n integers from one on: the first, and how many (R74, R258). -/
def inSpace (a n : Int) : Nat × Nat := ((max a 0).toNat, (min (a + n) (2 ^ 52) - max a 0).toNat)

/-- The checks of WBR and INVR (R282). -/
def rangePrep (o : ME) (ln : Ln) (x : Vals) (s : State) : Prep RangePrep :=
  let (h, off) := eaOf o x
  let e := s.entry ln.f h
  let n := wordsNat x.b
  if s.acqHeld ln.f then .stall
  else
    match e.spaceOf with
    | none => .err { eff := Eff.memHandle, arg := s.kindArg ln.f h off }
    | some sp =>
      let fin := s.finalAddr ln.f h e sp off
      if sp = 6 then .err { eff := Eff.memHandle, arg := marg h fin }
      else if sp ≠ 1 then .ok .onchip
      else if h ≠ 0 ∧ (off < 0 ∨ (e.len : Int) < off + n) then .err { eff := Eff.memBounds, arg := marg h fin }
      else .ok (.range (inSpace fin n).1 (inSpace fin n).2)

/-- The physical pieces of a virtual range, page by page; a page without a valid, resident leaf is skipped. -/
def State.rangePieces (s : State) (ctx va n : Nat) : List (Nat × Nat) :=
  if n = 0 then []
  else
    (List.range' (va / 65536) ((va + n - 1) / 65536 + 1 - va / 65536)).filterMap (fun pg =>
      let lo := max va (pg * 65536)
      let hi := min (va + n) (pg * 65536 + 65536)
      match s.walk ctx lo with
      | none => none
      | some l => if l.perms.getLsbD 2 then some (l.pa, hi - lo) else none)

/-- The L1 sectors of a core that overlap a physical range. -/
def State.sectorsOver (s : State) (c pa n : Nat) : List Nat :=
  ((s.core c).l1.map (·.1)).filter (fun k => decide (k / 512 * 64 < pa + n) && decide (pa < k / 512 * 64 + 64))

/-- The sectors of a list that hold something else in two states. -/
def changedSectors (s t : State) (c : Nat) (ks : List Nat) : Nat := (ks.filter (fun k => s.l1 c k != t.l1 c k)).length

/-- Bytes of a sector that cannot go home yet, since its frame is frozen (R265). -/
def State.heldBack (s : State) (c k : Nat) : Bool :=
  s.frozen (k / 512 * 64) && (s.unsent c k || !(s.heldComm k).isEmpty)

/-- Whether a block of the virtual space meets a range. -/
def inBlocks (va n : Nat) (b : Nat × Nat) : Bool :=
  b.1 == 1 && n != 0 && decide ((b.2 + 1024 - va / 64 % 1024) % 1024 ≤ (va + n - 1) / 64 - va / 64)

/-- Run a range instruction (R282): the fibre's own earlier accesses of the range are performed (R331, R336), then `act` on every sector of the core's L1 in the range; D counts those whose state changed. It stays at
the instruction while bytes of the range wait for a frozen frame (R160, R265). -/
def rangeRun (o : ME) (act : Nat → Nat → State → State) (after : Nat → Nat → Nat → State → State) (s : State) : State :=
  runChecked { meNeed o with nb := 1, wd := if o.d.isNone then 0 else 1, live := true } (rangePrep o) (fun ln _ r s =>
    match r with
    | .onchip => s.putD ln .v o.d 1 0
    | .range va n =>
      let c := s.coreOf ln.f
      let s := s.arriveBefore ln.f (fun x => inBlocks va n x.block)
      let pieces := s.rangePieces (s.ctxOf ln.f) va n
      let ks := pieces.flatMap (fun p => s.sectorsOver c p.1 p.2)
      if ks.any (s.heldBack c) || (s.flying ln.f).any (fun x => inBlocks va n x.block) then s.stall ln
      else
      let t := ks.foldl (fun s k => act c k s) s
      let t := pieces.foldl (fun s p => after c p.1 p.2 s) t
      if ks.any (t.unsent c) then t.stall ln else
      t.putD ln .v o.d 1 (changedSectors s t c ks)) s

/-- WBR (R282). -/
def execWbr (o : ME) (s : State) : Out := .next (rangeRun o (fun c k s => s.writeBack c k true) (fun _ _ _ s => s) s)

/-- The remote copies of a physical range leave a die's L2 (R282). -/
def State.dropCopies (s : State) (d pa n : Nat) : State :=
  s.modDie d (fun x => { x with rcopy := mapFilter x.rcopy (fun k _ =>
    !(decide (k / 512 * 64 < pa + n) && decide (pa < k / 512 * 64 + 64))) })

/-- INVR (R282). -/
def execInvr (o : ME) (s : State) : Out :=
  .next (rangeRun o (fun c k s => s.flushSector c (k / 512 * 64) (k % 512) true)
    (fun c pa n s => s.dropCopies (c / 128) pa n) s)

end Sys2Proof.Machine
end

