-- ==== Sys2Proof/Machine/Queues.lean ====
section
/-!
DEFINITION. The decoupling queues: QPOP, QSTAT and the arrival of an entry, and TKTEST (R275-R278, R296).
-/
namespace Sys2Proof.Machine

/-- Whether a queue entry has arrived (R275). -/
def QEntry.here (e : QEntry) : Bool := e.at_ != .flight

/-- Whether an entry holds a fault. -/
def QEntry.failed (e : QEntry) : Bool :=
  match e.at_ with
  | .fault .. => true
  | _ => false

/-- A queue entry's read is performed; the accesses of its fibre to the same block that stand before it come first (R331, R332), and while
one of them must wait, so does it. -/
def execQueueEntryArrival (fib : Nat) (q : Fin 4) (index : Nat) (s : State) : Out :=
  .next (match (queueOf (s.fibre fib) q.val)[index]? with
    | none => s
    | some e =>
      if e.here || (s.fibre fib).halted then s
      else
        let first (x : Flying) : Bool := decide (x.seq < e.seq) && x.block == locBlock e.loc
        let s := s.arriveBefore fib first
        if (s.flying fib).any first then s else s.arriveEntry fib q.val index)

/-- `SZ` of QPOP (R276). -/
def qpopSz (o : SY) : Sz := (szOfCode (o.mod.extractLsb' 8 3).toNat).getD .w

/-- The checks of QPOP in the order of R277. -/
def qpopPrep (o : SY) (ln : Ln) (_ : Vals) (s : State) : Prep QEntry :=
  let q := qOf o.a
  match queueOf (s.fibre ln.f) q with
  | [] => .err (illegal ln.b.word)
  | e :: _ =>
    if !e.here then .wait (.queueArrive q)
    else if e.sz ≠ qpopSz o then .err (illegal ln.b.word)
    else
      match e.at_ with
      | .fault eff arg _ => .err { eff := eff, arg := arg }
      | _ => .ok e

/-- A QPOP that raises its entry's fault leaves its PC in the entry, so that a RESUME retries the read (R277). -/
def State.markRaised (s : State) (ln : Ln) (q : Nat) : State :=
  s.modFibre ln.f (fun x => { x with queues := mapMod x.queues q (fun es =>
    match es with
    | e :: rest =>
      match e.at_ with
      | .fault eff arg _ => { e with at_ := .fault eff arg (some ln.b.pc.toNat) } :: rest
      | _ => e :: rest
    | [] => []) })

/-- QPOP (R277): the head entry's bytes, and its residency flag under `.nr`. -/
def execQpop (o : SY) (s : State) : Out :=
  .next (runBatch { head := o.toHead, imm := o.imm, wd := (qpopSz o).regs, cap := true } (fun lns s =>
    lns.foldl (fun s e =>
      let ln := e.1
      match qpopPrep o ln e.2 s with
      | .err err => (if err.eff = Eff.memNonres then s.markRaised ln (qOf o.a) else s).raise ln err
      | .stall => s.stall ln
      | .wait w => s.waitAt ln w
      | .ok e =>
        let (bs, fl) := match e.at_ with
          | .bytes bs fl => (bs, fl)
          | _ => ([], false)
        let s := s.modFibre ln.f (fun x => { x with queues := mapMod x.queues (qOf o.a) List.tail })
        let s := s.putD ln .a o.d (qpopSz o).regs (extendBytes e.sx bs)
        if e.nr then s.modFibre ln.f (fun x => x.put .a (rP e.pr) (if fl then 1 else 0)) else s) s) s)

/-- The word that QSTAT writes (R278). -/
def qstatWord (es : List QEntry) : Nat :=
  let err := match es with
    | e :: _ => e.failed
    | [] => false
  es.length + 16 * (es.takeWhile QEntry.here).length + 256 * b2n err

/-- QSTAT (R278). -/
def execQstat (o : SY) (s : State) : Out :=
  .next (runLanes { head := o.toHead, imm := o.imm, wd := 1, cap := true } (fun ln _ s =>
    s.putD ln .a o.d 1 (qstatWord (queueOf (s.fibre ln.f) (qOf o.a)))) s)

/-- TKTEST (R296): 1 when the pending count is 0, which is a core-scope acquire, like a token read. In capsule mode the field names a c
register (R66), which has no pending commands. -/
def execTktest (o : SY) (s : State) : Out :=
  .next (runLanes { head := o.toHead, imm := o.imm, na := 1, wd := 1, cap := true, tokA := true } (fun ln _ s =>
    match State.regOf (s.fibre ln.f) o.a with
    | none => s
    | some r =>
      if decide (r < 128) && (s.fibre ln.f).tokPending r then s.putD ln .a o.d 1 0
      else (s.acquire ln.f .core).putD ln .a o.d 1 1) s)

end Sys2Proof.Machine
end

