-- ==== Sys2Proof/Machine/Atomics.lean ====
section
/-!
DEFINITION. Atomics, fences and waiting on a location, opcodes 0x80-0x84 (R345-R355), and how a waiting fibre tries again (R159).
-/
namespace Sys2Proof.Machine

/-! ### A waiting fibre tries again -/

/-- A fibre whose wait may be over executes its instruction again, alone (R149, R159). (DEDUCED, log 46.) -/
def State.retryFibre (s : State) (f : Nat) : State :=
  let s := s.modFibre f (fun x => { x with st := .ready })
  let b := Batch.formed (fibTeam f) (fibNum f / 32) (s.fibre f).pc [fibLane f] (fibLane f) (s.core (s.coreOf f)).clk
  { s with issue := b :: s.issue }

/-- The fibres of a LAUNCH's batch that wait as one of them does, for room in one queue. -/
def State.launchMates (s : State) (f : Nat) : List Nat :=
  let x := s.fibre f
  ((s.packFibres (fibPack f)).filter (fun e =>
    e.2.st == x.st && e.2.pc == x.pc && e.2.launching.map (·.1) == x.launching.map (·.1))).map (·.1)

/-- The fibres of a LAUNCH's batch that wait for room in one queue try again together, so that they enter it in ascending lane order
(R113, R159). (DEDUCED, log 75.) -/
def State.retryLaunch (s : State) (f : Nat) : State :=
  let fs := s.launchMates f
  let b := Batch.formed (fibTeam f) (fibNum f / 32) (s.fibre f).pc (fs.map fibLane) (fibLane f) (s.core (s.coreOf f)).clk
  { (fs.foldl (fun s g => s.modFibre g (fun x => { x with st := .ready })) s) with issue := b :: s.issue }

/-! ### Atomics (R345-R351) -/

/-- What an atomic does at its place: the old bytes as a number, and the new number where it writes. -/
abbrev AtomFn := Nat → Option Nat

/-- An atomic at an on-chip place (R347). -/
def atomOnchip (n : Nat) (g : AtomFn) (p : Place) (s : State) : Nat × State :=
  let old := leNat (s.placeRead n p)
  match g old with
  | none => (old, s)
  | some v => (old, s.placeWrite (leBytes n v) p)

/-- An atomic at home (R254, R347); a `.comm` one makes no recall, so the updates held elsewhere are not in the old value. -/
def atomHome (c : Nat) (x : Xl) (n : Nat) (comm : Bool) (g : AtomFn) (s : State) : Nat × State :=
  if comm then
    let s := match s.l1 c (sectorKey x.pa x.key) with
      | some (.updateOnly _) => s
      | _ => s.flushSector c x.pa x.key true
    let old := leNat (s.homeBytes x.key x.pa n)
    match g old with
    | none => (old, s)
    | some v => (old, ((s.dramWrite x.key x.pa (leBytes n v)).copyUpdate (c / 128) x.pa x.key (leBytes n v)).touchWatch 0 (x.pa / 64))
  else s.homeAtom c x n g

/-- An atomic of a lane at a checked location (R348): after the fibre's earlier accesses of its block (R331), translated now, precisely; one
that home refuses for good is not performed, its result is 0, and the fault stays for the fibre's next release. -/
def atomAt (f : Nat) (a : Acc) (n : Nat) (comm : Bool) (g : AtomFn) (s : State) : Except Stop Nat × State :=
  let s := s.arriveAt f a.loc
  if s.behind f a.loc then (.error .held, s)
  else
    match a.loc with
    | .glob va =>
      let u := XUnit.core (s.coreOf f)
      match s.translate u (s.ctxOf f) va .atomic with
      | (.error e, s) => (.error (xerrEff a.hnd va e), s)
      | (.ok x, s) =>
        match s.resolve u (s.ctxOf f) va .atomic x with
        | (.error .held, s) => (.error .held, s)
        | (.error _, s) => (.ok 0, s.storeFault f (s.fibre f).life (s.ctxOf f) (marg a.hnd va))
        | (.ok x, s) =>
          if s.homeHeld (s.coreOf f) x.pa x.key true then (.error .held, s)
          else
            let (old, s) := atomHome (s.coreOf f) x n comm g s
            (.ok old, s.seeHome f x.pa x.key)
    | loc =>
      match s.place f loc with
      | none => (.error (.err { eff := Eff.memScratch, arg := sarg a.hnd 3 }), s)
      | some p =>
        let (old, s) := atomOnchip n g p s
        (.ok old, s)

/-- What an atomic instruction needs beside its own operands (R345). -/
def atomWant (o : ME) : Want := { spaces := [1, 2, 3, 4, 5], n := o.sz.bytes, align := o.sz.bytes, rd := true, at_ := true }

/-- An atomic with a result (R348). -/
def atomRun (o : ME) (nc : Nat) (comm : Bool) (g : Vals → AtomFn) (s : State) : State :=
  runChecked { meNeed o with nb := o.sz.regs, nc := nc, wd := o.sz.regs, live := true } (mePrep o (atomWant o))
    (fun ln x a s =>
      beforeWrite s ln o (fun s =>
        match atomAt ln.f a o.sz.bytes comm (g x) (s.touchHandle ln.f a.hnd) with
        | (.error e, s) => s.stop ln e
        | (.ok old, s) => (afterAccess s ln o).putD ln .v o.d o.sz.regs old)) s

/-- ATOM (R346, R348). -/
def execAtom (o : ME) (s : State) : Out :=
  .next (atomRun o 0 (o.ch == 1) (fun x old =>
    some (atomNew o.fn.toNat o.sz.bytes old (wordsNat x.b % 2 ^ (8 * o.sz.bytes)))) s)

/-- ACAS (R348): no write where the old value is not the expected one. -/
def execAcas (o : ME) (s : State) : Out :=
  .next (atomRun o o.sz.regs false (fun x old =>
    if old = wordsNat x.b % 2 ^ (8 * o.sz.bytes) then some (wordsNat x.c % 2 ^ (8 * o.sz.bytes)) else none) s)

/-- RED.comm to global memory gathers in an Update-only sector (R255, R347); data the sector holds goes home first. With no room in the L1
it is performed at home (log 58). None while bytes must wait for a frozen frame (R265). -/
def commGather (c : Nat) (x : Xl) (op : Comm) (s : State) : Option State :=
  let k := sectorKey x.pa x.key
  match s.l1 c k with
  | some (.updateOnly ops) => some (s.setL1 c k (.updateOnly (ops ++ [op])))
  | _ =>
    let s := s.flushSector c x.pa x.key true
    if s.unsent c k then none
    else
      match s.allocate c k .normal with
      | some s => some (s.setL1 c k (.updateOnly [op]))
      | none =>
        if s.homeHeld c x.pa x.key true then none
        else some (s.homeAtom c x op.n (fun old => some (atomNew op.fn op.n old op.val))).2

/-- The way of an atomic: it carries no cache hint (R345). -/
def atomHow (o : ME) : How := { ord := o.ord, sc := o.sc, cv := false, rc := false, hint := .normal }

/-- A RED to global memory whose address is translated: gathered, or on its way to home (R347). A `.unp` one takes no place among its
fibre's accesses (R351). -/
def redGlob (o : ME) (ln : Ln) (a : Acc) (va : Nat) (x : Xl) (v : Nat) (s : State) : State :=
  if o.ch == 1 then
    let s := s.arriveAt ln.f a.loc
    if s.behind ln.f a.loc then s.stall ln
    else
      match s.resolve (.core (s.coreOf ln.f)) (s.ctxOf ln.f) va .atomic x with
      | (.error .held, s) => s.stall ln
      | (.error _, s) => s.storeFault ln.f (s.fibre ln.f).life (s.ctxOf ln.f) (marg a.hnd va)
      | (.ok x, s) =>
        match commGather (s.coreOf ln.f) x { off := x.pa % 64, n := o.sz.bytes, fn := o.fn.toNat, val := v } s with
        | some s => s
        | none => s.stall ln
  else
    s.sendReq { s.writeReq ln.f a (atomHow o) (.glob va) x (.red o.fn.toNat o.sz.bytes v) with through := true, unp := o.ch == 2 }

/-- RED at a checked location (R347, R348): on the chip at once, after the fibre's earlier accesses of its block (R331); to global memory
translated now, precisely. -/
def redAt (o : ME) (ln : Ln) (a : Acc) (v : Nat) (s : State) : State :=
  match a.loc with
  | .glob va =>
    match s.translate (.core (s.coreOf ln.f)) (s.ctxOf ln.f) va .atomic with
    | (.error e, s) => s.stop ln (xerrEff a.hnd va e)
    | (.ok x, s) => redGlob o ln a va x v s
  | loc =>
    let s := s.arriveAt ln.f loc
    if s.behind ln.f loc then s.stall ln
    else
      match s.place ln.f loc with
      | none => s.raise ln { eff := Eff.memScratch, arg := sarg a.hnd 3 }
      | some p => (atomOnchip o.sz.bytes (fun old => some (atomNew o.fn.toNat o.sz.bytes old v)) p s).2

/-- RED (R348). -/
def execRed (o : ME) (s : State) : Out :=
  .next (runChecked { meNeed o with nb := o.sz.regs, live := true } (mePrep o (atomWant o)) (fun ln x a s =>
    beforeWrite s ln o (fun s =>
      redAt o ln a (wordsNat x.b % 2 ^ (8 * o.sz.bytes)) (s.touchHandle ln.f a.hnd))) s)

/-! ### FENCE (R329, R352) -/

/-- Whether an earlier read of a fibre is not yet performed. -/
def State.readsLeft (s : State) (f : Nat) : Bool :=
  (s.flying f).any (fun x => match x.what with
    | .req _ => false
    | _ => true)

/-- FENCE: helper lanes included; the fibre stalls until it completes. -/
def execFence (o : ME) (s : State) : Out :=
  .next (runLanes { head := o.toHead, imm := 0 } (fun ln _ s =>
    let acq (s : State) : State :=
      if acquires o.ord then
        let s := s.arriveBefore ln.f (fun _ => true)
        if s.readsLeft ln.f then s.stall ln else s.acquire ln.f o.sc
      else s
    if releases o.ord then afterRelease s ln o.sc acq else acq s) s)

/-! ### WLINE (R353, R354) -/

/-- The sector that a WLINE watches: its store and its number there. -/
def State.watchSector (s : State) (f : Nat) (loc : Loc) : Option (Nat × Nat) :=
  match loc with
  | .glob va => (s.peek (s.ctxOf f) va .read).map (fun x => (0, x.pa / 64))
  | loc =>
    match s.place f loc with
    | none => none
    | some (.scratch c off) => some (scratchSpace c, off / 64)
    | some (.tundish d off) => some (tundishSpace d, off / 64)
    | some (.saved ..) => none

/-- The watch slot of a fibre on its core. -/
def State.slotOfFibre (s : State) (f : Nat) : Option Nat :=
  ((s.core (s.coreOf f)).watch.find? (fun e => e.2.fib == f)).map (·.1)

/-- A fibre's watch slot is freed. -/
def State.freeWatch (s : State) (f : Nat) : State :=
  s.modCore (s.coreOf f) (fun c => { c with watch := mapFilter c.watch (fun _ w => w.fib != f) })

/-- WLINE at a checked location (R354): CHANGED, NOSLOT, or the fibre waits on its sector. -/
def wlineAt (o : ME) (ln : Ln) (a : Acc) (e : Nat) (s : State) : State :=
  match s.readLoc ln.f a o.sz.bytes { ord := .plain, sc := .lane, cv := true, rc := false, hint := .normal } with
  | (.error .held, s) => s.stall ln
  | (.error (.err err), s) => (s.freeWatch ln.f).raise ln err
  | (.ok bs, s) =>
    if leNat bs ≠ e then (afterAccess (s.freeWatch ln.f) ln o).putD ln .v o.d 1 0
    else
      let slot := (s.slotOfFibre ln.f).or (mapFree (s.core (s.coreOf ln.f)).watch 64)
      match slot, s.watchSector ln.f a.loc with
      | some i, some (sp, sec) =>
        (s.modCore (s.coreOf ln.f) (fun c => { c with
          watch := mapSet c.watch i { fib := ln.f, sector := sec, space := sp, changed := false } })).waitAt ln (.wline i)
      | _, _ => s.putD ln .v o.d 1 1

/-- WLINE: helper lanes included. -/
def execWline (o : ME) (s : State) : Out :=
  .next (runChecked { meNeed o with nb := o.sz.regs, wd := 1 }
    (mePrep o { spaces := [1, 2, 3, 4, 5], n := o.sz.bytes, align := o.sz.bytes, rd := true })
    (fun ln x a s => wlineAt o ln a (wordsNat x.b) (s.touchHandle ln.f a.hnd)) s)

/-- A write has reached the sector of an armed slot: the fibre reads again (R354). -/
def execWatchSlotTrigger (core fib : Nat) (s : State) : Out :=
  .next (
    let hit := (s.core core).watch.any (fun e => e.2.fib == fib && e.2.changed)
    let waits := match (s.fibre fib).st with
      | .waiting (.wline _) => true
      | _ => false
    if hit && waits && !(s.fibre fib).halted then
      (s.modCore core (fun c => { c with
        watch := mapAll c.watch (fun _ w => if w.fib = fib then { w with changed := false } else w) })).retryFibre fib
    else s)

end Sys2Proof.Machine
end

