-- ==== Sys2Proof/Machine/Capsules.lean ====
section
/-!
DEFINITION. Capsules, opcodes 0x85-0x88 (R356-R368).
-/
namespace Sys2Proof.Machine

/-- `SCOPE` of a block, from its first 64 bytes (R356). -/
def blockScope (b : List Byte) : Scope := (scopeOfCode (fieldAt b 0x3C 1 % 8)).getD .core
/-- `CPC` of a block (R356). -/
def blockCpc (b : List Byte) : Word := BitVec.ofNat 32 (fieldAt b 0x38 4)
/-- `CKPT` of a block (R356). -/
def blockCkpt (b : List Byte) : List Word := wordsOf (byteSlice b 0x10 32)

/-- The checks of R248 on a capsule block: kind 1 or h0, 1 KiB alignment, read, `W` and `A`, and its 1,024 bytes (R361, R364). -/
def blockPrep (o : ME) (ln : Ln) (x : Vals) (s : State) : Prep Acc :=
  match s.kindErr ln.f (eaOf o x).1 (eaOf o x).2 [1] with
  | some e => if s.acqHeld ln.f then .stall else .err e
  | none => mePrep o { spaces := [1], n := 1024, align := 1024, rd := true, wr := true, at_ := true } ln x s

/-- The virtual address of a location. -/
def locVa : Loc → Nat
  | .glob va => va
  | _ => 2 ^ 64

/-- CAPENTER names its mailbox as an 8-byte global write through h0 (R361), which must be able to reach home (R265). -/
def mailboxErr (s : State) (f mb : Nat) : Option Stop × State :=
  if mb % 8 ≠ 0 then (some (.err { eff := Eff.memAlign, arg := marg 0 mb }), s)
  else
    match (s.arriveAt f (.glob mb)).translate (.core (s.coreOf f)) (s.ctxOf f) mb .write with
    | (.error e, s) => (some (xerrEff 0 mb e), s)
    | (.ok x, s) => (if s.capHeld f mb x then some .held else none, s)

/-- `CKPT`, `MAILBOX`, `SCOPE` and `CPC` of a new tenure (R361). -/
def newTenure (ckpt : List Word) (mb entry sc : Nat) : List Byte :=
  bytesOf ckpt ++ leBytes 8 mb ++ leBytes 4 entry ++ leBytes 4 sc

/-- The fibre enters capsule mode at a resume point, with the checkpointed c registers (R361). -/
def State.enterCapsule (s : State) (f : Nat) (h : Held) (ckpt : List Word) (pc : Word) : State :=
  s.modFibre f (fun x =>
    let x := (ckpt.zipIdx.foldl (fun x e => x.put .v (rC e.2) e.1) x)
    { (x.jump pc) with held := some h, capMode := true })

/-- The number of a g register specifier. -/
def gIx (sp : Spec) : Nat := (gOf sp).getD 0

/-- CAPENTER where the block and its mailbox have passed their checks (R361): acquire, adopt, or BUSY or BROKEN. -/
def capenterAt (o : ME) (ln : Ln) (va mb : Nat) (x : Xl) (s : State) : State :=
  if s.capHeld ln.f va x then s.stall ln
  else
  let (bs, s) := s.capRead ln.f x
  let w := fieldAt bs 0 8
  let entry := fieldAt bs 8 4
  let d := gIx o.d
  if fieldAt bs 12 4 ≠ 0 ∨ !isSlot (BitVec.ofNat 32 entry) then
    s.raise ln { eff := Eff.codeBadtarget,
                 arg := codeArg entry (((s.regionAt (s.ctxOf ln.f) entry).map (·.1)).getD 0) 0 }
  else
    let ogen := (lockOgen w + 1) % 2 ^ 16
    let own := s.ownerOf ln.f
    match lockState w with
    | 0 =>
      let ckpt := s.readRegs ln.f (rG 4) (ln.l * 128 + 80) 4 ++ [0, 0, 0, 0]
      let s := s.capWrite ln.f x 0 (leBytes 8 (lockWord 1 0 own ogen))
      let s := s.capWrite ln.f x 0x10 (newTenure ckpt mb entry (scopeCode o.sc))
      let s := (s.mailboxWrite ln.f va mb 0 (2 ^ 32 - 1)).2
      let s := s.acquire ln.f o.sc
      let adopted := (s.fibre ln.f).wasAdopt
      let s := s.modFibre ln.f (fun y => { (y.put .v (rG (d + 1)) (if adopted then 1 else 0)) with wasAdopt := false })
      s.enterCapsule ln.f { block := va, owner := own, ogen := ogen, step := 0, rpc := nextPc ln.b.pc, dreg := d, adopter := false,
                            hmbx := some mb, count := 0 } ckpt (BitVec.ofNat 32 entry)
    | 2 =>
      let s := s.capWrite ln.f x 0 (leBytes 8 (lockWord 1 (lockStep w) own ogen))
      let s := s.acquire ln.f (blockScope bs)
      s.enterCapsule ln.f { block := va, owner := own, ogen := ogen, step := lockStep w, rpc := ln.b.pc, dreg := d, adopter := true,
                            hmbx := none, count := 0 } (blockCkpt bs) (blockCpc bs)
    | st =>
      s.modFibre ln.f (fun y =>
        { (y.put .v (rG d) 0).put .v (rG (d + 1)) (if st = 1 then 2 else 3) with wasAdopt := false })

/-- CAPENTER (R360, R361). -/
def execCapenter (o : ME) (s : State) : Out :=
  .next (runChecked { meNeed o with nb := 2, wd := 2, live := true, also := [4, 5, 6, 7], imp := [4, 5, 6, 7] } (blockPrep o) (fun ln x a s =>
    let va := locVa a.loc
    let mb := wordsNat x.b
    match ((s.touchHandle ln.f a.hnd).arriveAt ln.f a.loc).capXl ln.f va with
    | (.error e, s) => s.stop ln (xerrEff a.hnd va e)
    | (.ok xl, s) =>
      match mailboxErr s ln.f mb with
      | (some e, s) => s.stop ln e
      | (none, s) => capenterAt o ln va mb xl s) s)

/-! ### CSTEP and CAPEXIT (R362, R363) -/

/-- leave of R362: the tenure ends; none keeps the register as it is. -/
def State.leaveCapsule (s : State) (f : Nat) (h : Held) (r st : Option Word) : State :=
  s.modFibre f (fun x =>
    let put (x : Fibre) (i : Nat) (v : Option Word) : Fibre :=
      match v with
      | some w => x.put .v (rG i) w
      | none => x
    let x := if h.adopter then { x with wasAdopt := true } else put (put x h.dreg r) (h.dreg + 1) st
    { (x.jump h.rpc) with held := none, capMode := false, st := .ready, retry := false })

/-- What a displaced holder finds in its own mailbox at home (R362): nothing while it is pending, or where it does not translate. -/
def State.mailboxRead (s : State) (f : Nat) (h : Held) : Option (Nat × Nat) × State :=
  match h.hmbx with
  | none => (none, s)
  | some mb =>
    match (s.arriveAt f (.glob mb)).translate (.core (s.coreOf f)) (s.ctxOf f) mb .read with
    | (.error _, s) => (none, s)
    | (.ok x, s) =>
      if s.behind f (.glob mb) || s.homeHeld (s.coreOf f) x.pa x.key false then (none, s)
      else
      let (bs, s) := ((s.flushSector (s.coreOf f) x.pa x.key false).seeHome f x.pa x.key).homeRead x.pa x.key 8
      if fieldAt bs 4 4 = 2 ^ 32 - 1 then (none, s) else (some (fieldAt bs 0 4, fieldAt bs 4 4), s)

/-- displaced of R362 once the mailbox holds an answer; none while the fibre must wait, for that or for a token in its DREG pair (R156). -/
def State.displacedDone (s : State) (f : Nat) (h : Held) : Option State :=
  if h.adopter then some (s.leaveCapsule f h none none)
  else if !(s.leaveWaits f h).isEmpty then none
  else
    match s.mailboxRead f h with
    | (none, _) => none
    | (some (r, st), s) =>
      let (sc, s) := match s.capXl f h.block with
        | (.ok x, s) =>
          if s.capHeld f h.block x then (Scope.sys, s)
          else
            let (bs, s) := s.capRead f x
            (blockScope bs, s)
        | (.error _, s) => (Scope.sys, s)
      some ((s.acquire f sc).leaveCapsule f h (some (BitVec.ofNat 32 r)) (some (BitVec.ofNat 32 st)))

/-- displaced of R362: an adopter leaves; a holder waits for its own mailbox. -/
def State.displaced (s : State) (ln : Ln) (h : Held) : State :=
  match s.displacedDone ln.f h with
  | some s => s
  | none => s.waitAt ln .mailbox

/-- What leaves capsule mode writes the DREG pair, and so waits for a token that is pending there (R156, R159). -/
def leaveThen (ln : Ln) (h : Held) (k : State → State) (s : State) : State :=
  match s.leaveWaits ln.f h with
  | [] => k s
  | r :: rs => s.waitAt ln (.token (r :: rs))

/-- The tenure as CSTEP checks it at home (R362). -/
inductive Tenure where
  | broken | held | displaced
  deriving DecidableEq, Repr, Inhabited

/-- The check of R362 on a LOCK. -/
def tenureOf (w : Nat) (h : Held) : Tenure :=
  if lockState w = 3 then .broken else if tenureHolds w h && lockStep w == h.step then .held else .displaced

/-- The effect CAP.LIMIT in the held capsule (R365). -/
def capLimitErr (h : Held) : Err := { eff := Eff.capLimit, arg := h.block }

/-- Run a step of the tenure (R362): `k` on the block where the tenure holds, with its LOCK and its first 64 bytes. The step accesses the
block's first sector and the one at `off`, after the fibre's earlier accesses of them (R331, R367), and after an acquiring read of it that
is not yet performed (R326). -/
def tenureRun (ln : Ln) (h : Held) (off : Nat) (k : Xl → Nat → List Byte → State → State) (s : State) : State :=
  if s.acqHeld ln.f then s.stall ln
  else
  match ((s.arriveAt ln.f (.glob h.block)).arriveAt ln.f (.glob (h.block + off))).capXl ln.f h.block with
  | (.error e, s) => s.stop ln (xerrEff 0xFFF h.block e)
  | (.ok x, s) =>
    if s.capHeld ln.f h.block x || s.behind ln.f (.glob (h.block + off)) then s.stall ln
    else
      let (bs, s) := s.capRead ln.f x
      let w := fieldAt bs 0 8
      match tenureOf w h with
      | .broken => leaveThen ln h (fun s => s.leaveCapsule ln.f h (some 0) (some 3)) s
      | .displaced => leaveThen ln h (fun s => s.displaced ln h) s
      | .held => k x w bs s

/-- CSTEP (R362): the store, the checkpoint and the step commit together at home. -/
def execCstep (o : ME) (s : State) : Out :=
  .next (runLanes { head := o.toHead, imm := 0, na := if o.a.isNone then 0 else 1, nb := o.sz.regs, cap := true, imp := List.range' (rC 0) 8 }
    (fun ln x s =>
      match (s.fibre ln.f).capMode, (s.fibre ln.f).held with
      | true, some h =>
        let e := eaOff o.off x.a
        let n := o.sz.bytes
        if e < 0x80 ∨ 0x400 < e + n ∨ e % n ≠ 0 then s.raise ln (capLimitErr h)
        else
          tenureRun ln h e.toNat (fun xl w _ s =>
            if lockStep w = 32 then s.raise ln (capLimitErr h)
            else
              let ckpt := s.readRegs ln.f (rC 0) (ln.l * 128 + 80) 8
              let s := s.capWrite ln.f { xl with pa := xl.pa + e.toNat } 0 (leBytes n (wordsNat x.b))
              let s := s.capWrite ln.f xl 0x10 (bytesOf ckpt)
              let s := s.capWrite ln.f xl 0x38 (leBytes 4 (nextPc ln.b.pc).toNat)
              let s := s.capWrite ln.f xl 0 (leBytes 8 (lockWord 1 (lockStep w + 1) (lockOwner w) (lockOgen w)))
              s.modFibre ln.f (fun y => { y with held := some { h with step := h.step + 1 } })) s
      | _, _ => s.raise ln (illegal ln.b.word)) s)

/-- An adopter's CAPEXIT answers the displaced holder (R363): at home, under the fibre's translation; where that fails the answer is lost, and
logged. None while it must wait for a frozen frame (R265). -/
def exitAnswer (f : Nat) (h : Held) (mb : Nat) (r : Word) (s : State) : Option State :=
  match (s.arriveAt f (.glob mb)).translate (.core (s.coreOf f)) (s.ctxOf f) mb .write with
  | (.error _, s) => some (s.logCtx (s.ctxOf f) (.mailboxLost h.block))
  | (.ok x, s) =>
    if s.capHeld f mb x then none else some (s.mailboxWrite f h.block mb r.toNat 4).2

/-- CAPEXIT (R363): the tenure's check, a release, the original holder's answer where the fibre adopted, and the free lock.
(DEDUCED, log 38.) -/
def execCapexit (o : SY) (s : State) : Out :=
  .next (runLanes { head := o.toHead, imm := o.imm, na := 1, cap := true } (fun ln x s =>
    match (s.fibre ln.f).capMode, (s.fibre ln.f).held with
    | true, some h =>
      let r := x.a.headD 0
      tenureRun ln h 0 (fun xl w bs s => leaveThen ln h (fun s =>
        afterRelease s ln (blockScope bs) (fun s =>
          match (if h.adopter then exitAnswer ln.f h (fieldAt bs 0x30 8) r s else some s) with
          | none => s.stall ln
          | some s =>
            (s.capWrite ln.f xl 0 (leBytes 8 (lockWord 0 0 0 (lockOgen w)))).leaveCapsule ln.f h (some r) none)) s) s
    | _, _ => s.raise ln (illegal ln.b.word)) s)

/-- CAPRESET (R364): a broken lock becomes free. -/
def execCapreset (o : ME) (s : State) : Out :=
  .next (runChecked { meNeed o with wd := 1, live := true } (blockPrep o) (fun ln _ a s =>
    let va := locVa a.loc
    match ((s.touchHandle ln.f a.hnd).arriveAt ln.f a.loc).capXl ln.f va with
    | (.error e, s) => s.stop ln (xerrEff a.hnd va e)
    | (.ok x, s) =>
      if s.capHeld ln.f va x then s.stall ln
      else
        let (bs, s) := s.capRead ln.f x
        let w := fieldAt bs 0 8
        if lockState w = 3 then
          (s.capWrite ln.f x 0 (leBytes 8 (lockWord 0 0 0 (lockOgen w + 1)))).putD ln .v o.d 1 0
        else s.putD ln .v o.d 1 1) s)

end Sys2Proof.Machine
end

