-- ==== Sys2Proof/Machine/Engine.lean ====
section
/-!
DEFINITION. What the copy, network and matrix engines share: once-per-batch issue (R83, R284), the command record, segments and
their translation (R286, R287), and the end of a command (R285).
-/
namespace Sys2Proof.Machine

/-! ### Once per batch (R83, R284) -/

/-- Run an instruction that elect(batch) alone performs, with that lane's registers (R83): in every other lane it does nothing,
so it neither waits nor reads there; but every lane reads its guard (R81, R158). -/
def runElect (n : Need) (body : Ln → Vals → State → State) (s : State) : State :=
  match s.cur with
  | none => s
  | some b =>
    let elect := s.elect n.head.guard b
    let lane := s.laneOf b
    let fate (l : Nat) : Fate :=
      match s.fate { n with live := true } b l with
      | .go => if elect = some l then .go else .nop
      | .wait w => if elect = some l then .wait w else .nop
      | .err e => if elect = some l || e.eff != Eff.latHazard || e.arg / 256 == 0 then .err e else .nop
      | f => f
    let fates := b.lanes.map (fun l => (l, fate l))
    let run := (fates.filter (fun e => e.2 == .go)).map (fun e => (lane e.1, s.readVals n b e.1))
    let s := fates.foldl (fun s e => s.settleLane (lane e.1) e.2) s
    let s := run.foldl (fun s e => s.tokenAcquires n e.1.f) s
    run.foldl (fun s e => body e.1 e.2 s) s

/-- Run the checks of an elected lane, then its body. -/
def runElectChecked {α : Type} (n : Need) (prep : Ln → Vals → State → Prep α) (body : Ln → Vals → α → State → State) (s : State) :
    State :=
  runElect n (fun ln x s =>
    match prep ln x s with
    | .err e => s.raise ln (withSmask (2 ^ ln.l) e)
    | .stall => s.stall ln
    | .wait w => s.waitAt ln w
    | .ok y => body ln x y s) s

/-! ### Kinds of command -/

/-- A command of the copy engine. -/
def isCopy : CmdKind → Bool
  | .cpy .. | .cpyt .. | .gath .. | .scat .. => true
  | _ => false
/-- A command of the network engine. -/
def isNet : CmdKind → Bool
  | .xput .. | .xget .. | .xred .. => true
  | _ => false
/-- A command of the matrix engine. -/
def isMatrix : CmdKind → Bool
  | .wload .. | .mma .. | .accz .. | .accst .. => true
  | _ => false

/-- The core of a command. -/
def State.cmdCore (s : State) (c : Cmd) : Nat := coreKey (s.team c.team).die (s.team c.team).core

/-- Whether an engine holds a command: once a halted team is saved, its copy and matrix commands are saved with it, while its network
commands go on (R404, R407). -/
def State.inEngine (s : State) (c : Cmd) : Bool := isNet c.kind || (s.team c.team).saved.isNone

/-- How many commands an engine of a core holds (R160, R284, R301). -/
def State.engineLoad (s : State) (core : Nat) (p : CmdKind → Bool) : Nat :=
  (s.cmds.filter (fun e => p e.2.kind && s.cmdCore e.2 == core && s.inEngine e.2)).length

/-- The limit of an engine: 64 copies, 128 network commands, 32 matrix commands. -/
def engineLimit (k : CmdKind) : Nat := if isCopy k then 64 else if isNet k then 128 else 32

/-- Whether the engine of a command's core is full. -/
def State.engineFull (s : State) (core : Nat) (k : CmdKind) : Bool :=
  decide (engineLimit k ≤ s.engineLoad core (if isCopy k then isCopy else if isNet k then isNet else isMatrix))

/-! ### Issue (R284) -/

/-- A command of an EN instruction, with the handle entries it read (R106). -/
def State.cmdOf (s : State) (ln : Ln) (o : EN) (k : CmdKind) : Cmd :=
  let x := s.entry ln.f o.hx.toNat
  let y := s.entry ln.f o.hy.toNat
  { kind := k, team := ln.b.team, fib := ln.f, life := (s.fibre ln.f).life, tok := gOf o.d, acq := o.acq, rel := o.rel, sc := o.sc, nr := false,
    hx := o.hx.toNat, hy := o.hy.toNat, ex := x.raw, ey := y.raw, ex1 := x.ext, ey1 := y.ext,
    sx := (s.entry ln.f x.scale).raw, sy := (s.entry ln.f y.scale).raw, follow := none, at_ := 0, left := [], fix := [], got := [], wrote := [],
    nrz := false, errs := [], bytes := 0, begun := false, order := s.mod.nextOrder }

/-- Hand a command to its engine. -/
def State.addCmd (s : State) (c : Cmd) : State :=
  { s with cmds := mapSet s.cmds s.mod.nextCmd { c with order := s.mod.nextOrder } }.modMod (fun m =>
    { m with nextCmd := m.nextCmd + 1, nextOrder := m.nextOrder + 1 })

/-- issue of R284 once the checks have passed: the waits, the release, the token, and `act` with the command. -/
def issueThen (s : State) (ln : Ln) (c : Cmd) (act : State → State) : State :=
  if tokFull (s.fibre ln.f) c.tok then s.waitAt ln .tokTable
  else if s.engineFull (s.coreOf ln.f) c.kind then s.stall ln
  else
    afterRelease s ln (if isNet c.kind then .die else .core) (fun s =>
      act (((s.touchHandle ln.f c.hx).touchHandle ln.f c.hy).tokOpen ln.f c.tok))

/-- issue of R284. -/
def issueCmd (s : State) (ln : Ln) (c : Cmd) : State := issueThen s ln c (fun s => s.addCmd c)

/-- How many registers an offset of a command takes: an even pair under h0 (R283). -/
def offRegs (h : BitVec 12) (a : Spec) : Nat := if a.isNone then 0 else if h = 0 then 2 else 1

/-! ### Sides and places -/

/-- One side of a command: a handle and the entry as the command read it. -/
structure Side where
  h : Nat
  e : Entry
  deriving DecidableEq, Repr, Inhabited

/-- The source side. -/
def Cmd.x (c : Cmd) : Side := { h := c.hx, e := { raw := c.ex, ext := c.ex1 } }
/-- The destination side. -/
def Cmd.y (c : Cmd) : Side := { h := c.hy, e := { raw := c.ey, ext := c.ey1 } }
/-- The scale handle of the source. -/
def Cmd.xs (c : Cmd) : Side := { h := c.x.e.scale, e := { raw := c.sx, ext := [] } }
/-- The scale handle of the destination. -/
def Cmd.ys (c : Cmd) : Side := { h := c.y.e.scale, e := { raw := c.sy, ext := [] } }

/-- The final address or offset of a byte of a side (R248). -/
def State.sideFinal (s : State) (f : Nat) (d : Side) (off : Int) : Int :=
  s.finalAddr f d.h d.e (d.e.spaceOf.getD 1) off

/-- The location of a byte of a side. -/
def State.sideLoc (s : State) (f : Nat) (d : Side) (off : Int) : Loc :=
  let fin := s.sideFinal f d off
  match d.e.spaceOf with
  | some 2 => .lane fin.toNat
  | some 3 => .core fin.toNat
  | some 4 => .quad fin.toNat
  | some 5 => .die fin.toNat
  | _ => globLoc fin

/-- Where a byte of a side is stored: a store and an address there; none where it does not translate. -/
def State.sidePlace (s : State) (f : Nat) (d : Side) (off : Int) : Option (Nat × Nat) :=
  match s.sideLoc f d off with
  | .glob va => (s.walk (s.ctxOf f) va).map (fun l => (0, l.pa))
  | loc =>
    match s.place f loc with
    | some (.scratch c o) => some (scratchSpace c, o)
    | some (.tundish d o) => some (tundishSpace d, o)
    | some (.saved t tun o) => some (200000 + 2 * t + b2n tun, o)
    | none => none

/-- `ECODE` values (R285). -/
def ecFault : Nat := 1
def ecPerm : Nat := 2
def ecBounds : Nat := 3
def ecErrmask : Nat := 4
def ecRemote : Nat := 5
def ecNostage : Nat := 6

/-- The value an epoch reports for an error (R285). -/
def errVal (code hnd : Nat) : Nat := 2 ^ 31 + code * 2 ^ 24 + hnd % 4096 * 2 ^ 12

/-- How the read or write of a segment ends (R286). -/
inductive Seg (α : Type) where
  | ok (x : α)
  | absent
  | err (code : Nat)
  | busy
  deriving DecidableEq, Repr, Inhabited

/-- A failed translation as a segment ends (R286). -/
def segErr {α : Type} : XErr → Seg α
  | .bounds => .err ecFault
  | .perm => .err ecPerm
  | .nonres => .absent
  | .held => .busy

/-- Translate one sector for an engine, home's refusals included (R263, R286). -/
def State.engXlate (s : State) (u : XUnit) (ctx va : Nat) (w : XFor) : Except XErr Xl × State :=
  match s.translate u ctx va w with
  | (.error e, s) => (.error e, s)
  | (.ok x, s) => s.resolve u ctx va w x

/-- The unit that translates for a command (R262). -/
def State.cmdUnit (s : State) (c : Cmd) : XUnit :=
  if isNet c.kind then .net (s.team c.team).die else .engine (s.cmdCore c)

/-- A command under `.acq` at quad or wider passes over Clean sectors; at pkg or wider also over remote copies (R287). -/
def freshFor (s : State) (c : Cmd) (core pa key : Nat) : State :=
  match s.l1 core (sectorKey pa key) with
  | some (.clean _) => if c.acq && beyondCore c.sc then s.delL1 core (sectorKey pa key) else s
  | _ => s

/-- The hint of an engine's accesses through an entry (R252). -/
def engHint (d : Side) : Hint := if d.e.policy = 1 then .stream else .normal

/-- The write of a command into its core's L1, as a fibre's (R253, R287). -/
def State.engReq (s : State) (c : Cmd) (d : Side) (va : Nat) (x : Xl) (bs : List Byte) : HomeReq :=
  { fib := c.fib, life := c.life, team := c.team, core := s.cmdCore c, ctx := s.ctxOf c.fib, cxgen := (s.ctx (s.ctxOf c.fib)).cxgen, loc := .glob va,
    pa := x.pa, key := x.key, gen := x.gen, hnd := d.h, op := .write bs, through := d.e.policy == 2, unp := false, sc := none,
    hint := engHint d, seq := 0, issued := s.tick, replay := false }

/-- The storage place of a command's read on the chip: of an MMA as its issue found it (R222, R316), else of a member present now (R247). -/
def State.readPlace (s : State) (c : Cmd) (loc : Loc) : Option Place :=
  match c.kind with
  | .mma .. => s.issuedPlace c.fib loc
  | _ => s.place c.fib loc

/-- Read n bytes of a side, inside one 64-byte block (R286, R287). -/
def State.engRead (s : State) (c : Cmd) (d : Side) (off : Int) (n : Nat) : Seg (List Byte) × State :=
  match s.sideLoc c.fib d off with
  | .glob va =>
    match s.engXlate (s.cmdUnit c) (s.ctxOf c.fib) va .read with
    | (.error e, s) => (segErr e, s)
    | (.ok x, s) =>
      let core := s.cmdCore c
      let rc := d.e.remote && !(c.acq && beyondDie c.sc)
      if isNet c.kind then
        if s.frozen x.pa && !(s.heldComm (sectorKey x.pa x.key)).isEmpty then (.busy, s)
        else
          let (bs, s) := s.homeRead x.pa x.key n
          (.ok bs, s)
      else if d.e.policy = 2 then
        if s.homeHeld core x.pa x.key false then (.busy, s)
        else
          let (bs, s) := s.homeReadBy core x.pa x.key n { ord := .plain, sc := .lane, cv := true, rc := rc, hint := .normal }
          (.ok bs, s)
      else
        let s := freshFor s c core x.pa x.key
        if s.l1Held core x.pa x.key n false then (.busy, s)
        else
          let (bs, s) := s.l1Read core x.pa x.key n rc (engHint d)
          (.ok bs, s)
  | loc =>
    match s.readPlace c loc with
    | none => (.err ecFault, s)
    | some p => (.ok (s.placeRead n p), s)

/-- Write bytes of a side, inside one 64-byte block (R286, R287): a copy into the core's L1, a network command at home, where the
issuing core's sector and its die's remote copy go. -/
def State.engWrite (s : State) (c : Cmd) (d : Side) (off : Int) (bs : List Byte) : Seg Unit × State :=
  match s.sideLoc c.fib d off with
  | .glob va =>
    match s.engXlate (s.cmdUnit c) (s.ctxOf c.fib) va .write with
    | (.error e, s) => (segErr e, s)
    | (.ok x, s) =>
      let core := s.cmdCore c
      if isNet c.kind then
        if s.frozen x.pa then (.busy, s)
        else
          let s := (s.flushSector core x.pa x.key true).homeWrite (core / 128) x.pa x.key bs
          (.ok (), s.modDie (core / 128) (fun y => { y with rcopy := mapDel y.rcopy (sectorKey x.pa x.key) }))
      else
        match s.perform (s.engReq c d va x bs) va x with
        | none => (.busy, s)
        | some s => (.ok (), s.noteCodeStore (s.ctxOf c.fib) (if d.e.spaceOf = some 6 then some d.h else none))
  | loc =>
    match s.place c.fib loc with
    | none => (.err ecFault, s)
    | some p => (.ok (), s.placeWrite bs p)

/-- The bytes of a side from an offset to the end of its 64-byte block. -/
def State.roomIn (s : State) (f : Nat) (d : Side × Int) : Nat := 64 - (s.sideFinal f d.1 d.2 % 64).toNat

/-- A read of an element of a side, block by block. -/
def State.engReads (s : State) (c : Cmd) (d : Side) : Nat → Int → Nat → List Byte → Seg (List Byte) × State
  | 0, _, _, acc => (.ok acc, s)
  | fuel + 1, off, n, acc =>
    if n = 0 then (.ok acc, s)
    else
      let k := min n (s.roomIn c.fib (d, off))
      match s.engRead c d off k with
      | (.ok bs, s) => State.engReads s c d fuel (off + k) (n - k) (acc ++ bs)
      | r => r

/-- A write of an element of a side, block by block. -/
def State.engWrites (s : State) (c : Cmd) (d : Side) : Nat → Int → List Byte → Seg Unit × State
  | 0, _, _ => (.ok (), s)
  | fuel + 1, off, bs =>
    if bs.isEmpty then (.ok (), s)
    else
      let k := s.roomIn c.fib (d, off)
      match s.engWrite c d off (bs.take k) with
      | (.ok _, s) => State.engWrites s c d fuel (off + k) (bs.drop k)
      | r => r

/-! ### The end of a command (R285, R287) -/

/-- Whether the release of a command under L still waits (R265, R287). -/
def State.relWaits (s : State) (c : Cmd) : Bool := c.rel && s.dirtyLeft (s.cmdCore c)

/-- The release of a command under L (R287): what it wrote goes home, with every other Dirty sector of its core. -/
def State.cmdRelease (s : State) (c : Cmd) : State := if c.rel then s.writeBackAll (s.cmdCore c) else s

/-- The command leaves its engine and its token's count drops (R285). -/
def State.endCmd (s : State) (id : Nat) (c : Cmd) : State :=
  ({ s with cmds := mapDel s.cmds id }).tokClose c.fib c.tok (fun t =>
    { t with engine := true, nrz := t.nrz || c.nrz, errs := t.errs ++ c.errs, bytes := t.bytes + c.bytes, wrote := t.wrote ++ c.wrote })

/-- Keep the progress of a command. -/
def State.setCmd (s : State) (id : Nat) (c : Cmd) : State := { s with cmds := mapSet s.cmds id c }

/-- A command begins: under A its reads come after an acquire at its scope (R287). -/
def State.beginCmd (s : State) (c : Cmd) : State := if c.acq then s.acquireCore (s.cmdCore c) c.sc none else s

/-- A page for a command's fix-up list is made resident in a frame (R286). -/
def State.fixPage (s : State) (c : Cmd) (d : Side) (off : Int) (frame : Nat) : State :=
  match s.sideLoc c.fib d off with
  | .glob va =>
    match s.residence (s.ctxOf c.fib) va with
    | .absent => s.makeResident (s.ctxOf c.fib) va frame
    | _ => s
  | _ => s

end Sys2Proof.Machine
end

