-- ==== Sys2Proof/Machine/Copy.lean ====
section
/-!
DEFINITION. The copy engine, opcodes 0x90-0x93 (R283-R292): the checks at issue, a command's segments, the fix-up list, and the
hand-off of a staged command.
-/
namespace Sys2Proof.Machine

/-! ### Tensors (R89, R90) -/

/-- The indices of element q of a box in row-major order. -/
def boxIndex (ext : List Nat) (q : Nat) : List Nat :=
  (List.range ext.length).map (fun k => q / (ext.drop (k + 1)).foldl (· * ·) 1 % ext.getD k 1)

/-- The byte offset of an element (R89). -/
def tensorOff (e : Entry) (ix : List Nat) : Nat := (ix.zipIdx.map (fun p => p.1 * e.stride p.2)).sum

/-- Blocks along the innermost dimension (R90). -/
def scaleBlocks (e : Entry) : Nat := ceilDiv (e.dim (e.rank - 1)) 32

/-- The bytes of a whole scale tensor (R90). -/
def scaleBytes (e : Entry) : Nat := 2 * (((List.range (e.rank - 1)).map e.dim).foldl (· * ·) 1 * scaleBlocks e)

/-- The byte offset of the container of an element (R90). -/
def scaleOff (e : Entry) (ix : List Nat) : Nat :=
  2 * ((((List.range (e.rank - 1)).foldl (fun a k => a * e.dim k + ix.getD k 0) 0)) * scaleBlocks e + ix.getD (e.rank - 1) 0 / 32)

/-- The checks of R90 on the scale handle of a tensor, which is read, or written. -/
def State.scaleCheck (s : State) (f : Nat) (t : Entry) (wr : Bool) : Option Err :=
  let h := t.scale
  match s.kindErr f h 0 [1, 2, 3, 4, 5] with
  | some e => some e
  | none =>
    match s.check f h 0 { spaces := [1, 2, 3, 4, 5], n := scaleBytes t, align := 1, rd := !wr, wr := wr } with
    | .error e => some e
    | .ok _ => none

/-! ### Checks at issue (R284, R289-R291) -/

/-- The first effect of a list of checks. -/
def firstErr (cs : List (Option Err)) : Option Err := cs.findSome? id

/-- One range of a command (R284). -/
def State.rangeErr (s : State) (f h : Nat) (off : Int) (w : Want) : Option Err :=
  match s.check f h off w with
  | .error e => some e
  | .ok _ => none

/-- The kind and permission of a side whose bounds are not checked at issue (R284, R289, R291). -/
def State.kindPermErr (s : State) (f h : Nat) (off : Int) (w : Want) : Option Err :=
  match s.check f h off { w with n := 0, align := 1 } with
  | .error e => if e.eff = Eff.memHandle ∨ e.eff = Eff.memPerm then some e else none
  | .ok _ => none

/-- Steps 1 and 2 of R248 on a side whose offset has an alignment of its own (R291, R295). -/
def State.kindAlignErr (s : State) (f h : Nat) (off : Int) (aligned : Bool) (w : Want) : Option Err :=
  let mis := if aligned then none else some { eff := Eff.memAlign, arg := marg h (s.sideFinal f { h := h, e := s.entry f h } off) }
  match s.check f h off { w with n := 0, align := 1 } with
  | .error e => if e.eff = Eff.memHandle then some e else mis
  | .ok _ => mis

/-- A source range of n bytes. -/
def srcWant (n align : Nat) : Want := { spaces := [1, 2, 3, 4, 5], n := n, align := align, rd := true }
/-- A destination range of n bytes, code included. -/
def dstWant (n align : Nat) : Want := { spaces := storeSpaces, n := n, align := align, wr := true }

/-- `NR` of a copy command. -/
def nrOf (o : EN) : Bool := o.x.getLsbD 5
/-- The follow-on of a copy command (R292). -/
def followOf (o : EN) : Option Nat := if o.lo.getLsbD 7 then some (o.lo.extractLsb' 0 3).toNat else none

/-- A copy command of an EN instruction. -/
def State.copyOf (s : State) (ln : Ln) (o : EN) (k : CmdKind) : Cmd :=
  { s.cmdOf ln o k with nr := nrOf o, follow := followOf o }

/-- The checks of CPY (R289): c source bytes, n destination bytes. -/
def cpyPrep (o : EN) (ln : Ln) (x : Vals) (s : State) : Prep CmdKind :=
  let n := (o.x.extractLsb' 0 5).toNat + 1
  let c := if o.c.isNone then n else min (wordsNat x.c) n
  let a := wordsNat x.a
  let b := wordsNat x.b
  match firstErr [
      (if c = 0 then s.kindPermErr ln.f o.hx.toNat a (srcWant 0 1) else s.rangeErr ln.f o.hx.toNat a (srcWant c 1)),
      s.rangeErr ln.f o.hy.toNat b (dstWant n 1)] with
  | some e => .err e
  | none => .ok (.cpy a b n c)

/-- CPY (R289), in each live lane. -/
def execCpy (o : EN) (s : State) : Out :=
  .next (runChecked { head := o.toHead, imm := 0, na := offRegs o.hx o.a, nb := offRegs o.hy o.b, nc := if o.c.isNone then 0 else 1,
                      live := true, tokD := true } (cpyPrep o) (fun ln _ k s => issueCmd s ln (s.copyOf ln o k)) s)

/-- A box that leaves a tensor (R290). -/
def boxErr (h : Nat) (t : Entry) (org ext : List Nat) : Option Err :=
  if (List.range t.rank).all (fun k => decide (org.getD k 0 + ext.getD k 0 ≤ t.dim k)) then none
  else if t.space = 1 then some { eff := Eff.memBounds, arg := marg h (t.base + tensorOff t org) }
  else some { eff := Eff.memScratch, arg := sarg h 0 }

/-- The range a box of a tensor covers: its first byte, and its length (R89). -/
def boxRange (t : Entry) (org ext : List Nat) : Nat × Nat :=
  if ext.any (· == 0) then (0, 0)
  else (tensorOff t org, tensorOff t (ext.map (· - 1)) + t.elem)

/-- The check of a box of a tensor, read or written (R284). (DEDUCED, log 44.) -/
def State.boxCheck (s : State) (f h : Nat) (t : Entry) (org ext : List Nat) (wr : Bool) : Option Err :=
  let (off, n) := boxRange t org ext
  let w : Want := { spaces := [1, 2, 3, 4, 5], n := n, align := 1, rd := !wr, wr := wr }
  if n = 0 then s.kindPermErr f h off w else s.rangeErr f h off w

/-- The effect where a condition on a handle fails (R248, step 1). -/
def State.handleErr (s : State) (f h : Nat) (ok : Bool) : Option Err :=
  if ok then none else some { eff := Eff.memHandle, arg := s.kindArg f h 0 }

/-- The checks of CPYT (R290, R90). -/
def cpytPrep (o : EN) (ln : Ln) (x : Vals) (s : State) : Prep CmdKind :=
  let hx := o.hx.toNat
  let hy := o.hy.toNat
  let tx := s.entry ln.f hx
  let ty := s.entry ln.f hy
  let r := tx.rank
  let org := (x.a.map BitVec.toNat).take r
  let dst := (x.b.map BitVec.toNat).take r
  let ext := (x.c.map BitVec.toNat).take r
  let scl := o.x.getLsbD 0
  let in32 (l : List Nat) : Bool := l.getD (r - 1) 0 % 32 == 0
  match firstErr [
      s.handleErr ln.f hx (tx.kind == 7 && tx.tensorOk && tx.spaceOf.isSome),
      s.handleErr ln.f hy (ty.kind == 7 && ty.tensorOk && ty.spaceOf.isSome && ty.fmt == tx.fmt && ty.rank == tx.rank),
      s.handleErr ln.f hx (!scl || (decide (tx.fmt ≤ 1) && tx.scale != 0)),
      s.handleErr ln.f hy (!scl || (decide (ty.fmt ≤ 1) && ty.scale != 0)),
      (if scl && !(in32 org && in32 ext) then some { eff := Eff.memAlign, arg := marg hx (tx.base + tensorOff tx org) } else none),
      (if scl && !in32 dst then some { eff := Eff.memAlign, arg := marg hy (ty.base + tensorOff ty dst) } else none),
      s.kindPermErr ln.f hx 0 (srcWant 0 1), s.kindPermErr ln.f hy 0 (dstWant 0 1),
      boxErr hx tx org ext, boxErr hy ty dst ext,
      s.boxCheck ln.f hx tx org ext false, s.boxCheck ln.f hy ty dst ext true,
      (if scl then s.scaleCheck ln.f tx false else none),
      (if scl then s.scaleCheck ln.f ty true else none)] with
  | some e => .err e
  | none => .ok (.cpyt org dst ext scl)

/-- CPYT (R290), once per batch. -/
def execCpyt (o : EN) (s : State) : Out :=
  .next (runElectChecked { head := o.toHead, imm := 0, na := 4, nb := 4, nc := 4, tokD := true } (cpytPrep o)
    (fun ln _ k s => issueCmd s ln (s.copyOf ln o k)) s)

/-- The element size of GATH and SCAT. -/
def elemSz (o : EN) : Nat := ((szOfCode (o.x.extractLsb' 0 3).toNat).getD .w).bytes

/-- The checks of GATH and SCAT (R291): the list and the count, the contiguous side at its offset, the kind and permission of the
indexed side. -/
def indexPrep (o : EN) (gath : Bool) (ln : Ln) (x : Vals) (s : State) : Prep CmdKind :=
  let n := wordsNat x.c
  let a := wordsNat x.a
  let b := wordsNat x.b
  let sz := elemSz o
  let (hc, hi) := if gath then (o.hy.toNat, o.hx.toNat) else (o.hx.toNat, o.hy.toNat)
  match firstErr [
      s.rangeErr ln.f 2 a { spaces := [3], n := 0, align := 4, rd := true },
      (if 65536 < n then some { eff := Eff.memScratch, arg := sarg 2 0 } else none),
      s.rangeErr ln.f 2 a { spaces := [3], n := 4 * n, align := 4, rd := true },
      s.kindAlignErr ln.f hc b (b % sz == 0) (if gath then dstWant 0 1 else srcWant 0 1),
      s.rangeErr ln.f hc b (if gath then dstWant (n * sz) 1 else srcWant (n * sz) 1),
      s.kindPermErr ln.f hi 0 (if gath then srcWant 0 1 else dstWant 0 1)] with
  | some e => .err e
  | none => .ok (if gath then .gath b a n sz else .scat b a n sz)

/-- GATH (R291), once per batch. -/
def execGath (o : EN) (s : State) : Out :=
  .next (runElectChecked { head := o.toHead, imm := 0, na := if o.a.isNone then 0 else 1, nb := offRegs o.hy o.b, nc := 1, tokD := true }
    (indexPrep o true) (fun ln _ k s => issueCmd s ln (s.copyOf ln o k)) s)

/-- SCAT (R291), once per batch. -/
def execScat (o : EN) (s : State) : Out :=
  .next (runElectChecked { head := o.toHead, imm := 0, na := if o.a.isNone then 0 else 1, nb := offRegs o.hx o.b, nc := 1, tokD := true }
    (indexPrep o false) (fun ln _ k s => issueCmd s ln (s.copyOf ln o k)) s)

/-! ### Runs and segments (R286) -/

/-- A run of bytes of a command: where it reads (nothing for zero fill), where it writes and how long it is at most; or the error
and handle for which it is not performed. `low` says at which byte of a scale container the run begins (R220). -/
structure Run where
  src : Option (Side × Int)
  dst : Side × Int
  n : Nat
  bad : Option (Nat × Nat)
  low : Option Nat
  deriving DecidableEq, Repr, Inhabited

/-- Index j of a list in h2 (R291). -/
def State.listIndex (s : State) (c : Cmd) (a j : Nat) : Nat :=
  match s.place c.fib (.core (a + 4 * j)) with
  | some p => leNat (s.placeRead 4 p)
  | none => 0

/-- Whether an indexed element lies outside its handle (R291). -/
def State.indexBad (s : State) (c : Cmd) (d : Side) (off n : Nat) : Bool :=
  match d.e.spaceOf with
  | some 1 | some 6 => d.h != 0 && decide (d.e.len < off + n)
  | some sp => (s.onchipBounds c.fib d.h sp d.e off (s.sideFinal c.fib d off) n).isSome
  | none => true

/-- `RSZ` (R303). -/
def recordBytes (fmt n : Nat) : Nat := if fmt < 2 then ceilDiv (16 + n + 8) 8 * 8 else 16 + 2 * n

/-- The bytes of a weight image (R303). -/
def imageBytes (fmt n kg : Nat) : Nat := kg * 128 * recordBytes fmt n

/-- The bytes a command writes, or for XRED combines. -/
def cmdTotal (c : Cmd) : Nat :=
  match c.kind with
  | .cpy _ _ n _ => n
  | .cpyt _ _ ext scl => ext.foldl (· * ·) 1 * c.x.e.elem + (if scl then 2 * (ext.foldl (· * ·) 1 / 32) else 0)
  | .gath _ _ n sz => n * sz
  | .scat _ _ n sz => n * sz
  | .xput _ _ _ n => n
  | .xget _ _ _ n => n
  | .xred _ _ _ n _ _ _ => n
  | .wload _ _ fmt n kg => imageBytes fmt n kg
  | _ => 0

/-- The remote side of a network command, as the device that holds it looks it up (R293); of this package. -/
def State.farSide (s : State) (c : Cmd) : Side :=
  let h := match c.kind with
    | .xget .. => c.hx
    | _ => c.hy
  { h := h, e := s.entry c.fib h }

/-- The checks of the remote side on n bytes from an offset (R293). -/
def farBad (d : Side) (rd : Bool) (off n : Nat) : Option (Nat × Nat) :=
  if d.e.spaceOf ≠ some 1 then some (ecRemote, d.h)
  else if d.h ≠ 0 ∧ !(if rd then d.e.canRead else d.e.canWrite) then some (ecPerm, d.h)
  else if d.h ≠ 0 ∧ d.e.len < off + n then some (ecBounds, d.h)
  else none

/-- The element size of a type of XRED (R295). -/
def xredSize (ty : Nat) : Nat :=
  match ty with
  | 0 | 1 | 4 => 4
  | 2 | 3 => 8
  | _ => 2

/-- Add lists place by place. -/
def addLists (a b : List Nat) : List Nat := List.zipWith (· + ·) a b

/-- The run that starts at byte p of a command. -/
def State.cmdRun (s : State) (c : Cmd) (p : Nat) : Run :=
  match c.kind with
  | .cpy a b n k =>
    if p < k then { src := some (c.x, ((a + p : Nat) : Int)), dst := (c.y, ((b + p : Nat) : Int)), n := k - p, bad := none, low := none }
    else { src := none, dst := (c.y, ((b + p : Nat) : Int)), n := n - p, bad := none, low := none }
  | .cpyt org dst ext _ =>
    let e := c.x.e.elem
    let vol := ext.foldl (· * ·) 1
    if p < vol * e then
      let ix := boxIndex ext (p / e)
      let r := p % e
      { src := some (c.x, ((tensorOff c.x.e (addLists org ix) + r : Nat) : Int)),
        dst := (c.y, ((tensorOff c.y.e (addLists dst ix) + r : Nat) : Int)), n := e - r, bad := none, low := none }
    else
      let q := (p - vol * e) / 2
      let ix := boxIndex ext (q * 32)
      let r := (p - vol * e) % 2
      { src := some (c.xs, ((scaleOff c.x.e (addLists org ix) + r : Nat) : Int)),
        dst := (c.ys, ((scaleOff c.y.e (addLists dst ix) + r : Nat) : Int)), n := 2 - r, bad := none, low := some r }
  | .gath b a _ sz =>
    let i := s.listIndex c a (p / sz)
    { src := some (c.x, ((i * sz + p % sz : Nat) : Int)), dst := (c.y, ((b + p : Nat) : Int)), n := sz - p % sz,
      bad := if s.indexBad c c.x (i * sz) sz then some (ecBounds, c.hx) else none, low := none }
  | .scat b a _ sz =>
    let i := s.listIndex c a (p / sz)
    { src := some (c.x, ((b + p : Nat) : Int)), dst := (c.y, ((i * sz + p % sz : Nat) : Int)), n := sz - p % sz,
      bad := if s.indexBad c c.y (i * sz) sz then some (ecBounds, c.hy) else none, low := none }
  | .xput a _ off n =>
    { src := some (c.x, ((a + p : Nat) : Int)), dst := (s.farSide c, ((off + p : Nat) : Int)), n := n - p, bad := none, low := none }
  | .xget a _ off n =>
    { src := some (s.farSide c, ((off + p : Nat) : Int)), dst := (c.y, ((a + p : Nat) : Int)), n := n - p, bad := none, low := none }
  | .xred a _ off n _ ty _ =>
    { src := some (c.x, ((a + p : Nat) : Int)), dst := (s.farSide c, ((off + p : Nat) : Int)),
      n := min (xredSize ty) (n - p), bad := none, low := none }
  | .wload off _ _ _ _ =>
    { src := some (c.x, ((off + p : Nat) : Int)), dst := (c.x, ((off + p : Nat) : Int)), n := cmdTotal c - p, bad := none,
      low := none }
  | _ => { src := none, dst := (c.y, 0), n := 1, bad := none, low := none }

/-- How many bytes of a run one segment takes (R286); an element of XRED is combined whole (R295). -/
def State.segLen (s : State) (c : Cmd) (r : Run) (n : Nat) : Nat :=
  match c.kind with
  | .xred .. => n
  | _ =>
    let k := min (min n r.n) (s.roomIn c.fib r.dst)
    max 1 (match r.src with
      | some d => min k (s.roomIn c.fib d)
      | none => k)

/-- The segments of a command's bytes, where no index decides them. -/
def State.segsFrom (s : State) (c : Cmd) : Nat → Nat → Nat → List (Nat × Nat)
  | 0, _, _ => []
  | fuel + 1, p, n =>
    if n = 0 then []
    else
      let k := s.segLen c (s.cmdRun c p) n
      (p, k) :: State.segsFrom s c fuel (p + k) (n - k)

/-- The 64-byte block of a byte of a side: its space, and its number there. -/
def State.sideBlock (s : State) (c : Cmd) (d : Side × Int) : Nat × Int := (d.1.e.spaceOf.getD 0, s.sideFinal c.fib d.1 d.2 / 64)

/-- The blocks of a run of a command's bytes from byte p. -/
def State.blocksAt (s : State) (c : Cmd) (p : Nat) : Option (Nat × Int) × (Nat × Int) :=
  ((s.cmdRun c p).src.map (s.sideBlock c), s.sideBlock c (s.cmdRun c p).dst)

/-- Put runs that lie in one block of each side into one segment. -/
def State.groupRuns (s : State) (c : Cmd) : List (Nat × Nat) → List ((Option (Nat × Int) × (Nat × Int)) × List (Nat × Nat)) →
    List (List (Nat × Nat))
  | [], acc => acc.map (·.2)
  | r :: rs, acc =>
    let k := s.blocksAt c r.1
    State.groupRuns s c rs
      (if acc.any (fun e => e.1 == k) then acc.map (fun e => if e.1 == k then (e.1, e.2 ++ [r]) else e) else acc ++ [(k, [r])])

/-- The segments of a command when it begins (R286); for GATH, SCAT and XRED its elements. -/
def State.cmdRuns (s : State) (c : Cmd) : List (List (Nat × Nat)) :=
  match c.kind with
  | .gath _ _ n sz | .scat _ _ n sz => (List.range n).map (fun j => [(j * sz, sz)])
  | .xred _ _ _ n _ ty _ => (List.range (n / xredSize ty)).map (fun j => [(j * xredSize ty, xredSize ty)])
  | .cpyt .. => s.groupRuns c (s.segsFrom c (cmdTotal c) 0 (cmdTotal c)) []
  | _ => (s.segsFrom c (cmdTotal c) 0 (cmdTotal c)).map (fun r => [r])

/-- The places that the runs of a list read: the first byte's number in the command, a store, an address there and a length each. -/
def State.sourcePlaces (s : State) (c : Cmd) (rs : List (Nat × Nat)) : List (Nat × Nat × Nat × Nat) :=
  rs.flatMap (fun e =>
    match (s.cmdRun c e.1).src with
    | none => []
    | some d =>
      if e.2 ≤ s.roomIn c.fib d then ((s.sidePlace c.fib d.1 d.2).map (fun pl => (e.1, pl.1, pl.2, e.2))).toList
      else (List.range e.2).filterMap (fun (q : Nat) =>
        (s.sidePlace c.fib d.1 (d.2 + (q : Nat))).map (fun pl => (e.1 + q, pl.1, pl.2, 1))))

/-- Whether a side lies in GLOBAL memory, not on the chip. -/
def Side.inGlobal (d : Side) : Bool :=
  match d.e.spaceOf with
  | some 2 | some 3 | some 4 | some 5 => false
  | _ => true

/-- The sides that a copy command reads. -/
def Cmd.sources (c : Cmd) : List Side :=
  match c.kind with
  | .cpyt _ _ _ true => [c.x, c.xs]
  | _ => [c.x]

/-- Whether a copy's own source and destination may overlap: they lie on one side of the chip's edge (R288). -/
def Cmd.mayMeet (c : Cmd) (d : Side) : Bool := c.sources.any (fun x => x.inGlobal == d.inGlobal)

/-- The bytes of the command that read a place, among source places. -/
def readersOf (ps : List (Nat × Nat × Nat × Nat)) (pl : Nat × Nat) : List Nat :=
  (ps.filter (fun r => r.2.1 == pl.1 && decide (r.2.2.1 ≤ pl.2 ∧ pl.2 < r.2.2.1 + r.2.2.2))).map (fun r => r.1 + (pl.2 - r.2.2.1))

/-- The bytes a segment writes: a byte that the command's own source overlaps is unspecified (R288). -/
def State.overlapped (s : State) (c : Cmd) (d : Side × Int) (bs : List Byte) : List Byte :=
  if !c.mayMeet d.1 then bs
  else
    let ps := s.sourcePlaces c (s.cmdRuns c).flatten
    bs.zipIdx.map (fun e =>
      match s.sidePlace c.fib d.1 (d.2 + e.2) with
      | some pl => if (readersOf ps pl).isEmpty then e.1 else Config.torn s.tick pl.1 pl.2
      | none => e.1)

/-- The bytes that the command has still to read at the places a segment is about to write: it reads them first, so that every byte which
no destination overlaps is exact (R288). -/
def State.aheadOf (s : State) (c : Cmd) (d : Side × Int) (n : Nat) : List Nat :=
  if !c.mayMeet d.1 then []
  else
    let ps := s.sourcePlaces c (c.left.flatten ++ c.fix.flatten)
    (List.range n).flatMap (fun (q : Nat) => ((s.sidePlace c.fib d.1 (d.2 + (q : Nat))).map (readersOf ps)).getD [])

/-- Read bytes of a command ahead, one by one; what cannot be read now is left for its own segment. -/
def State.readAhead (s : State) (c : Cmd) : List Nat → Cmd × State
  | [] => (c, s)
  | p :: ps =>
    match (s.cmdRun c p).src with
    | none => State.readAhead s c ps
    | some d =>
      if mapHas c.got p then State.readAhead s c ps
      else
        match s.engRead c d.1 d.2 1 with
        | (.ok bs, s) => State.readAhead s { c with got := mapSet c.got p (leNat bs) } ps
        | (_, s) => State.readAhead s c ps

/-- Bytes of a command from byte p as it has read them: what it read ahead stands. -/
def Cmd.withGot (c : Cmd) (p : Nat) (bs : List Byte) : List Byte :=
  bs.zipIdx.map (fun e => match mapGet c.got (p + e.2) with
    | some v => BitVec.ofNat 8 v
    | none => e.1)

/-- The bytes of scale containers keep their low nine bits (R220); `r` is the place of the first in its container. -/
def lowNine (r : Nat) (bs : List Byte) : List Byte := bs.zipIdx.map (fun e => if (r + e.2) % 2 = 1 then e.1 &&& 1 else e.1)

/-- What one segment did (R286). -/
inductive Did where
  | wrote (n : Nat) (nrz : Bool)
  | failed (v : Nat)
  | absent
  | busy
  deriving DecidableEq, Repr, Inhabited

/-- Read the runs of a segment, in one block (R286): the bytes of each, with whether `NR` gave zeros. -/
def State.readRuns (s : State) (c : Cmd) : List (Nat × Nat) → List (List Byte) → Bool → Except Did (List (List Byte) × Bool) × State
  | [], acc, z => (.ok (acc, z), s)
  | (p, n) :: rs, acc, z =>
    let r := s.cmdRun c p
    let put (bs : List Byte) : List Byte := match r.low with
      | some k => lowNine k (c.withGot p bs)
      | none => c.withGot p bs
    match r.src with
    | none => State.readRuns s c rs (acc ++ [List.replicate n 0]) z
    | some d =>
      match s.engRead c d.1 d.2 n with
      | (.ok bs, s) => State.readRuns s c rs (acc ++ [put bs]) z
      | (.absent, s) => if c.nr then State.readRuns s c rs (acc ++ [List.replicate n 0]) true else (.error .absent, s)
      | (.err e, s) => (.error (.failed (errVal e d.1.h)), s)
      | (.busy, s) => (.error .busy, s)

/-- Write the runs of a segment, in one block (R286): how it ends. A segment's bytes go whole, so that of two commands that write the same
bytes at once one prevails over the whole run. (DESIGN CHOICE, log 83.) -/
def State.writeRuns (s : State) (c : Cmd) : List ((Nat × Nat) × List Byte) → Nat → Bool → Did × State
  | [], n, z => (.wrote n z, s)
  | ((p, _), bs) :: rs, n, z =>
    let d := (s.cmdRun c p).dst
    match s.engWrite c d.1 d.2 (s.overlapped c d bs) with
    | (.ok _, s) => State.writeRuns s c rs (n + bs.length) z
    | (.absent, s) => (.absent, s)
    | (.err e, s) => (.failed (errVal e d.1.h), s)
    | (.busy, s) => (.busy, s)

/-- Perform a segment: runs of the command's bytes that lie in one block of each side (R286). -/
def State.doSegment (s : State) (c : Cmd) (rs : List (Nat × Nat)) : Did × Cmd × State :=
  match rs.findSome? (fun r => (s.cmdRun c r.1).bad) with
  | some e => (.failed (errVal e.1 e.2), c, s)
  | none =>
    match s.readRuns c rs [] false with
    | (.error d, s) => (d, c, s)
    | (.ok (bss, z), s) =>
      let (c, s) := s.readAhead c (rs.flatMap (fun r => s.aheadOf c (s.cmdRun c r.1).dst r.2))
      let (d, s) := s.writeRuns c (rs.zip bss) 0 z
      (d, c, s)

/-- Whether a SCAT element must wait behind a recorded one of its index (R286, R291). -/
def State.scatBehind (s : State) (c : Cmd) (p : Nat) : Bool :=
  match c.kind with
  | .scat _ a _ sz => c.fix.any (fun e => (e.head?.map (fun r => s.listIndex c a (r.1 / sz))) == some (s.listIndex c a (p / sz)))
  | _ => false

/-- Choose the next segment: any one of those left, but for SCAT, whose elements go in ascending order (R291). -/
def State.pickRun (s : State) (c : Cmd) : Nat :=
  match c.kind with
  | .scat .. => 0
  | _ => if c.left.length ≤ 1 then 0 else s.pick 50 c.left.length

/-! ### The hand-off of a follow-on (R292, R310) -/

/-- tagcheck of R309: the N of a team's weight set at a slot, where the set serves a command of a format and a depth. -/
def State.tagN (s : State) (t slot fmt k : Nat) : Option Nat :=
  match mapGet (s.core (coreKey (s.team t).die (s.team t).core)).tags ((s.team t).brec.wsBase + slot) with
  | some (.head f n kg _) => if f = fmt ∧ k ≤ 128 * kg then some n else none
  | _ => none

/-- Fire the command staged in mcN (R310): an error value, or the command handed over; none while the matrix engine is full.
(DESIGN CHOICE, log 40.) -/
def State.fire (s : State) (t n : Nat) : Option (List Nat × State) :=
  let nostage := errVal ecNostage (s.pick 51 4096)
  match mapGet (s.team t).mc n with
  | none => some ([nostage], s)
  | some g =>
    match g.kind with
    | .mma tile row korg k slot _ z int =>
      let fmt := Entry.fmt { raw := g.ex, ext := g.ex1 }
      let n := s.tagN t slot fmt k
      let c : Cmd := { kind := .mma tile row korg k slot (n.getD 0) z int, team := t, fib := g.fib, life := g.life, tok := none, acq := g.acq, rel := false,
                       sc := g.sc, nr := false, hx := g.hx, hy := 0, ex := g.ex, ey := [], ex1 := g.ex1, ey1 := [], sx := g.sx,
                       sy := [], follow := none, at_ := 0, left := [], fix := [], got := [], wrote := [], nrz := false, errs := [], bytes := 0,
                       begun := false, order := 0 }
      if n.isNone then some ([nostage], s)
      else if s.engineFull (s.cmdCore c) c.kind then none
      else some ([], s.addCmd c)
    | _ => some ([nostage], s)

/-- The virtual ranges that a command writes. -/
def State.cmdWrites (s : State) (c : Cmd) : List (Nat × Nat) :=
  (s.cmdRuns c).flatten.filterMap (fun r =>
    match s.sideLoc c.fib (s.cmdRun c r.1).dst.1 (s.cmdRun c r.1).dst.2 with
    | .glob va => some (va, r.2)
    | _ => none)

/-- A copy command whose segments are all done: its release, its follow-on, its token (R287, R292). It stays while one of these
must wait. -/
def State.finishCopy (s : State) (id : Nat) (c : Cmd) : State :=
  let s := s.cmdRelease c
  if s.relWaits c then s.setCmd id c
  else
    match (if c.errs.isEmpty then c.follow else none) with
    | none => s.endCmd id { c with wrote := s.cmdWrites c }
    | some n =>
      match s.fire c.team n with
      | none => s.setCmd id c
      | some (es, s) => s.endCmd id { c with errs := c.errs ++ es, wrote := s.cmdWrites c }

/-! ### COPY_SEGMENT and FIXUP_SERVICE -/

/-- A command with the outcome of a segment taken in. -/
def Cmd.after (c : Cmd) : Did → Cmd
  | .wrote n z => { c with bytes := c.bytes + n, nrz := c.nrz || z }
  | .failed v => { c with errs := c.errs ++ [v] }
  | .absent | .busy => c

/-- The part of a segment that lies in one block of each side now, and the rest: an element of GATH or SCAT may cross one, where its index
puts it (R286). -/
def State.cutSeg (s : State) (c : Cmd) : List (Nat × Nat) → List (Nat × Nat) × List (Nat × Nat)
  | [(p, n)] =>
    let k := s.segLen c (s.cmdRun c p) n
    if k < n then ([(p, k)], [(p + k, n - k)]) else ([(p, n)], [])
  | rs => (rs, [])

/-- How an engine performs a segment. -/
abbrev SegAct := Cmd → List (Nat × Nat) → State → Did × Cmd × State

/-- A segment list where the rest of the one at an index takes its place. -/
def restAt (l : List (List (Nat × Nat))) (i : Nat) (rest : List (Nat × Nat)) : List (List (Nat × Nat)) :=
  if rest.isEmpty then l.eraseIdx i else l.set i rest

/-- Two commands are of one engine. -/
def State.sameEngine (s : State) (c d : Cmd) : Bool :=
  isCopy c.kind == isCopy d.kind && isNet c.kind == isNet d.kind && s.cmdUnit c == s.cmdUnit d

/-- How many segments the fix-up list of a command's engine holds (R286); the recorded ones of a saved team are saved with it (R404). -/
def State.fixLoad (s : State) (c : Cmd) : Nat :=
  ((s.cmds.filter (fun e => s.sameEngine c e.2 && s.inEngine e.2)).map (fun e => e.2.fix.length)).sum

/-- A segment may be started: the list has room, or holds it already (R286). -/
def State.mayStart (s : State) (c : Cmd) (seg : List (Nat × Nat)) : Bool := c.fix.contains seg || decide (s.fixLoad c < 256)

/-- One step of a command: a segment, while its engine's list has room, or the head of what the list holds of it (R286). -/
def State.segStep (s : State) (act : SegAct) (c : Cmd) : Cmd × State :=
  if s.fixLoad c < 256 ∧ c.left ≠ [] then
    let i := s.pickRun c
    match c.left[i]? with
    | none => (c, s)
    | some seg =>
      let (now, rest) := s.cutSeg c seg
      let c' := { c with left := restAt c.left i rest }
      if s.scatBehind c ((now.head?.map (·.1)).getD 0) then ({ c' with fix := c.fix ++ [now] }, s)
      else
        match act c' now s with
        | (.busy, _, s) => (c, s)
        | (.absent, _, s) => ({ c' with fix := c.fix ++ [now] }, s)
        | (d, c, s) => (c.after d, s)
  else
    match c.fix with
    | [] => (c, s)
    | seg :: more =>
      let (now, rest) := s.cutSeg c seg
      let c' := { c with fix := if rest.isEmpty then more else rest :: more }
      match act c' now s with
      | (.busy, _, s) | (.absent, _, s) => (c, s)
      | (d, c, s) => (c.after d, s)

/-- The command as it begins. -/
def State.startCmd (s : State) (c : Cmd) : Cmd × State :=
  if c.begun then (c, s) else ({ c with begun := true, left := s.cmdRuns c }, s.beginCmd c)

/-- A halted team's copy command waits (R286). -/
def State.cmdHeld (s : State) (c : Cmd) : Bool := (s.team c.team).halted

/-- COPY_SEGMENT (R286, R292): one segment of a copy command; after the last, its hand-off and its token. -/
def execCopySegment (cmd : Nat) (s : State) : Out :=
  .next (match mapGet s.cmds cmd with
    | none => s
    | some c =>
      if !isCopy c.kind || s.cmdHeld c then s
      else
        let (c, s) := s.startCmd c
        let (c, s) := s.segStep (fun c rs s => s.doSegment c rs) c
        if c.left.isEmpty && c.fix.isEmpty then s.finishCopy cmd c else s.setCmd cmd c)

/-- The ends of the places that n bytes of a side take. -/
def endsOf (d : Side × Int) (n : Nat) : List (Side × Int) := [d, (d.1, d.2 + (n - 1 : Nat))]

/-- The places of a recorded run, source first. -/
def Run.sides (r : Run) (n : Nat) : List (Side × Int) := (r.src.toList ++ [r.dst]).flatMap (fun d => endsOf d n)

end Sys2Proof.Machine
end

