-- ==== Sys2Proof/Machine/Network.lean ====
section
/-!
DEFINITION. The network engine, opcodes 0x94-0x96 (R293-R295). A segment to this package is performed; what a segment to another
package meets there is what the step's environment tells it.
-/
namespace Sys2Proof.Machine

/-- The remote package of a remote pair, and whether its other bits are zero (R293). -/
def pairPkg (b : List Word) : Nat := (b.getD 1 0).toNat % 2 ^ 14
def pairOk (b : List Word) : Bool := decide ((b.getD 1 0).toNat < 2 ^ 14)
/-- The remote byte offset (R293). -/
def pairOff (b : List Word) : Nat := (b.getD 0 0).toNat

/-- The effects of the remote pair and the length at issue (R293). (DEDUCED, log 43.) -/
def netErr (h : Nat) (b : List Word) (n : Nat) : Option Err :=
  if pairOk b && decide (n ≤ 2 ^ 24) then none else some { eff := Eff.memBounds, arg := marg h (pairOff b) }

/-- The checks of a network command (R284, R293, R295), in the order of R248: the kind of the local side; the alignment of XRED; its
permission; the pair and the length, and the bounds of the local range. -/
def netPrep (o : EN) (get : Bool) (size : Nat) (k : Nat → Nat → Nat → Nat → CmdKind) (ln : Ln) (x : Vals) (s : State) :
    Prep CmdKind :=
  let n := wordsNat x.c
  let a := wordsNat x.a
  let off := pairOff x.b
  let (loc, far) := if get then (o.hy.toNat, o.hx.toNat) else (o.hx.toNat, o.hy.toNat)
  let w : Want := { spaces := [1, 2, 3, 4, 5], n := n, align := 1, rd := !get, wr := get }
  match firstErr [
      s.kindAlignErr ln.f loc a (a % size == 0 && n % size == 0) w,
      (if off % size = 0 then none
       else some { eff := Eff.memAlign, arg := marg far (s.sideFinal ln.f { h := far, e := s.entry ln.f far } off) }),
      s.kindPermErr ln.f loc a w, netErr far x.b n, s.rangeErr ln.f loc a w] with
  | some e => .err e
  | none => .ok (k a (pairPkg x.b) off n)

/-- What a network instruction needs: its local offset, the remote pair and the length. -/
def netNeed (o : EN) (h : BitVec 12) : Need :=
  { head := o.toHead, imm := 0, na := offRegs h o.a, nb := 2, nc := 1, live := true, tokD := true }

/-- XPUT (R293). -/
def execXput (o : EN) (s : State) : Out :=
  .next (runChecked (netNeed o o.hx) (netPrep o false 1 .xput) (fun ln _ k s => issueCmd s ln (s.cmdOf ln o k)) s)

/-- XGET (R293). -/
def execXget (o : EN) (s : State) : Out :=
  .next (runChecked (netNeed o o.hy) (netPrep o true 1 .xget) (fun ln _ k s => issueCmd s ln (s.cmdOf ln o k)) s)

/-- XRED (R295). -/
def execXred (o : EN) (s : State) : Out :=
  let op := (o.x.extractLsb' 3 3).toNat
  let ty := (o.x.extractLsb' 0 3).toNat
  .next (runChecked (netNeed o o.hx)
    (netPrep o false (xredSize ty) (fun a p off n => .xred a p off n op ty (o.lo.getLsbD 0)))
    (fun ln _ k s => issueCmd s ln (s.cmdOf ln o k)) s)

/-- The update at memory of an XRED op on a type (R295). -/
def xredFn (op ty : Nat) : Nat :=
  match op with
  | 0 => (match ty with | 4 => 9 | 5 => 10 | 6 => 11 | _ => 0)
  | 1 => (match ty with | 0 | 2 => 2 | 1 | 3 => 1 | 4 => 12 | 5 => 14 | _ => 16)
  | 2 => (match ty with | 0 | 2 => 4 | 1 | 3 => 3 | 4 => 13 | 5 => 15 | _ => 17)
  | 3 => 5
  | 4 => 6
  | _ => 7

/-- A stop of an access as a segment ends (R286). -/
def stopSeg : Stop → Seg (List (Nat × Xl))
  | .held => .busy
  | .err e => if e.eff = Eff.memBounds then .err ecFault else if e.eff = Eff.memPerm then .err ecPerm else .absent

/-- A GLOBAL element at home is combined with a value in one atomic access (R225, R261, R295), which the issuing core's sectors and its
die's remote copies do not outlive (R287). -/
def State.combineAt (s : State) (c : Cmd) (pieces : List (Nat × Xl)) (n : Nat) (g : Nat → Nat) : State :=
  let core := s.cmdCore c
  let s := pieces.foldl (fun s e => s.flushSector core e.2.pa e.2.key true) s
  let (old, s) := pieces.foldl (fun (acc : List Byte × State) e =>
    let (bs, s) := acc.2.homeRead e.2.pa e.2.key (min (n - acc.1.length) (64 - e.1 % 64))
    (acc.1 ++ bs, s)) ([], s)
  let new := leBytes n (g (leNat old))
  (pieces.foldl (fun (acc : Nat × State) e =>
    let bs := (new.drop acc.1).take (64 - e.1 % 64)
    let s := acc.2.homeWrite (core / 128) e.2.pa e.2.key bs
    (acc.1 + bs.length,
      s.modDie (core / 128) (fun y => { y with rcopy := mapDel y.rcopy (sectorKey e.2.pa e.2.key) }))) (0, s)).2

/-- Combine the element at byte p of a command into the remote bytes at home, atomically (R225, R295). The command first reads what it has
still to read at the places it is about to change, and a byte that its own source overlaps is unspecified (R288). -/
def State.doReduce (s : State) (c : Cmd) (p op ty : Nat) : Did × Cmd × State :=
  let n := xredSize ty
  let r := s.cmdRun c p
  let src := r.src.getD (c.x, 0)
  match s.engReads c src.1 2 src.2 n [] with
  | (.absent, s) => (.absent, c, s)
  | (.busy, s) => (.busy, c, s)
  | (.err e, s) => (.failed (errVal e src.1.h), c, s)
  | (.ok v, s) =>
    match s.sideLoc c.fib r.dst.1 r.dst.2 with
    | .glob va =>
      match s.translateRange (s.cmdUnit c) (s.ctxOf c.fib) r.dst.1.h .atomic 2 va n [] with
      | (.error e, s) =>
        match stopSeg e with
        | .err code => (.failed (errVal code r.dst.1.h), c, s)
        | .absent => (.absent, c, s)
        | _ => (.busy, c, s)
      | (.ok ps, s) =>
        if ps.any (fun e => s.homeHeld (s.cmdCore c) e.2.pa e.2.key true) then (.busy, c, s)
        else
          let v := leNat (c.withGot p v)
          let (c, s) := s.readAhead c (s.aheadOf c r.dst n)
          (.wrote n false, c, s.combineAt c ps n (fun old => leNat (s.overlapped c r.dst (leBytes n (atomNew (xredFn op ty) n old v)))))
    | _ => (.busy, c, s)

/-- Whether a command reads its remote side. -/
def isGet : CmdKind → Bool
  | .xget .. => true
  | _ => false

/-- The package a network command targets. -/
def cmdPkg : CmdKind → Nat
  | .xput _ p _ _ => p
  | .xget _ p _ _ => p
  | .xred _ p _ _ _ _ _ => p
  | _ => 0

/-- What the far side of a network segment does to its page (R261). -/
def farFor (k : CmdKind) : XFor :=
  match k with
  | .xget .. => .read
  | .xred .. => .atomic
  | _ => .write

/-- A segment whose remote side lies in this package: the issuing context itself (R293). An address with no valid leaf, or a page without
the permission, is recorded in the context's log as well (R294). -/
def State.nearSegment (s : State) (frame : Nat) (c : Cmd) (rs : List (Nat × Nat)) : Did × Cmd × State :=
  let r := s.cmdRun c ((rs.head?.map (·.1)).getD 0)
  let n := (rs.map (·.2)).sum
  let far := if isGet c.kind then r.src.getD (c.x, 0) else r.dst
  match farBad far.1 (isGet c.kind) far.2.toNat n with
  | some e => (.failed (errVal e.1 e.2), c, s)
  | none =>
    let s := s.fixPage c far.1 far.2 frame
    match s.sideLoc c.fib far.1 far.2 with
    | .glob va =>
      match s.translateRange (s.cmdUnit c) (s.ctxOf c.fib) far.1.h (farFor c.kind) (n / 64 + 2) va n [] with
      | (.error e, s) =>
        match stopSeg e with
        | .err code => (.failed (errVal code far.1.h), c, s.logCtx (s.ctxOf c.fib) (.refusedAccess va (code == ecPerm)))
        | _ => (.busy, c, s)
      | (.ok _, s) =>
        match c.kind with
        | .xred _ _ _ _ op ty _ => s.doReduce c ((rs.head?.map (·.1)).getD 0) op ty
        | _ => s.doSegment c rs
    | _ => (.busy, c, s)

/-- A segment whose remote side lies in another package: its local side, and what that package answers (R293, R294). -/
def State.farSegment (s : State) (reply : NetReply) (c : Cmd) (rs : List (Nat × Nat)) : Did × Cmd × State :=
  let r := s.cmdRun c ((rs.head?.map (·.1)).getD 0)
  let n := (rs.map (·.2)).sum
  let h := if isGet c.kind then c.hx else c.hy
  let fail (code : Nat) : Did := .failed (errVal code h)
  if !(s.ctx (s.ctxOf c.fib)).peers.any (fun e => e.1 == cmdPkg c.kind) then (fail ecRemote, c, s)
  else
    match reply with
    | .remote => (fail ecRemote, c, s)
    | .perm => (fail ecPerm, c, s)
    | .bounds => (fail ecBounds, c, s)
    | .fault => (fail ecFault, c, s)
    | .performed data =>
      if isGet c.kind then
        match s.engWrite c r.dst.1 r.dst.2 (byteSlice data 0 n) with
        | (.ok _, s) => (.wrote n false, c, s)
        | (.absent, s) => (.absent, c, s)
        | (.busy, s) => (.busy, c, s)
        | (.err e, s) => (.failed (errVal e c.hy), c, s)
      else
        let d := r.src.getD (c.x, 0)
        match s.engReads c d.1 2 d.2 n [] with
        | (.ok _, s) => (.wrote n false, c, s)
        | (.absent, s) => (.absent, c, s)
        | (.busy, s) => (.busy, c, s)
        | (.err e, s) => (.failed (errVal e c.hx), c, s)

/-- NETWORK_SEGMENT (R286, R293, R294): one segment of a network command; after the last, its release and its token. A halt of the
team does not stop it (R286). -/
def execNetworkSegment (cmd : Nat) (reply : NetReply) (frame : Nat) (s : State) : Out :=
  .next (match mapGet s.cmds cmd with
    | none => s
    | some c =>
      if !isNet c.kind then s
      else
        let (c, s) := s.startCmd c
        let act : SegAct := fun c rs s =>
          if cmdPkg c.kind = Config.pkgNumber % 16384 then s.nearSegment frame c rs else s.farSegment reply c rs
        let (c, s) := s.segStep act c
        if c.left.isEmpty && c.fix.isEmpty then
          let s := s.cmdRelease c
          if s.relWaits c then s.setCmd cmd c else s.endCmd cmd c
        else s.setCmd cmd c)

end Sys2Proof.Machine
end

