-- ==== Sys2Proof/Machine/Matrix.lean ====
section
/-!
DEFINITION. The matrix engine, opcodes 0xA0-0xA6 (R301-R316): tiles, weight images, the order of a team's commands, the groups of
an MMA, and containing data errors.
-/
namespace Sys2Proof.Machine

/-! ### Tiles and slots of a team (R126, R301) -/

/-- The core's tile that a team names aN: the N-th set bit of `ACCMAP`. -/
def State.tileOf (s : State) (t n : Nat) : Nat :=
  (((List.range 8).filter (fun i => (s.team t).brec.accMap.getLsbD i)).getD n 0)

/-- The key of word (i, j) of a core's tile. -/
def wordKey (tile i j : Nat) : Nat := tile * 16384 + i * 128 + j

/-- Word (i, j) of a team's tile. -/
def State.accWord (s : State) (t tile i j : Nat) : Word :=
  mapGetD (s.core (coreKey (s.team t).die (s.team t).core)).tiles (wordKey (s.tileOf t tile) i j) 0

/-- The core key of a team. -/
def State.teamCore (s : State) (t : Nat) : Nat := coreKey (s.team t).die (s.team t).core

/-- Write words of a team's tile. -/
def State.setAcc (s : State) (t tile : Nat) (ws : List (Nat × Nat × Word)) : State :=
  let n := s.tileOf t tile
  s.modCore (s.teamCore t) (fun c => { c with tiles := ws.foldl (fun m e => mapSet m (wordKey n e.1 e.2.1) e.2.2) c.tiles })

/-- MEM.SCRATCH for a tile or slot range that the team does not have (R305). -/
def allocErr (ok : Bool) : Option Err := if ok then none else some { eff := Eff.memScratch, arg := sarg 0 1 }

/-- The tile number of a matrix instruction, `MOD`[34:32]. -/
def tileField (o : EN) : Nat := (o.x.extractLsb' 0 3).toNat
/-- The slot of a matrix instruction, `IMM`[13:8]. -/
def slotField (o : EN) : Nat := (o.hy.extractLsb' 0 6).toNat

/-! ### Data errors (R314, R315) -/

/-- An entry of the data-error log (R315). -/
def derrEntry (src tile k i j lid : Nat) : Nat :=
  src * 2 ^ 62 + tile % 8 * 2 ^ 59 + k % 8192 * 2 ^ 46 + i % 128 * 2 ^ 39 + j % 128 * 2 ^ 32 + lid % 2 ^ 32

/-- Contain one error (R314): `DERR` of the tile, and an entry, or the overflow count when the log is full (R315); Cupola keeps
a copy (R413). -/
def State.contain (s : State) (t tile src k i j : Nat) : State :=
  let n := s.tileOf t tile
  let s := s.modMod (fun m => { m with
    log := m.log ++ [.dataError (s.team t).die (s.team t).core (derrEntry src tile k i j (s.team t).lid)] })
  s.modCore (s.teamCore t) (fun c =>
    let c := { c with derr := if c.derr.contains n then c.derr else n :: c.derr }
    if c.dlog.length < 16 then { c with dlog := c.dlog ++ [((s.team t).ctx, derrEntry src tile k i j (s.team t).lid)] }
    else { c with dover := min 0xFFFF (c.dover + 1) })

/-- Whether an uncorrectable error strikes a site now. (DEDUCED, log 52.) -/
def State.struck (s : State) (site : EccSite) : Bool := s.mod.bad.contains site

/-- An error that a unit has met is over. -/
def State.clearBad (s : State) (site : EccSite) : State := s.modMod (fun m => { m with bad := m.bad.filter (· != site) })

/-- A word of a team's tile as a command or a fibre reads it: zero where ECC cannot correct it (R314). -/
def State.readAcc (s : State) (t tile i j : Nat) : Word × State :=
  let site := EccSite.accWord (s.teamCore t) (s.tileOf t tile) (i * 128 + j)
  if s.struck site then (0, (s.contain t tile 3 0 i j).clearBad site) else (s.accWord t tile i j, s)

/-! ### Command order (R306) -/

/-- Whether an earlier matrix command of the team is unfinished. -/
def State.cmdBehind (s : State) (c : Cmd) : Bool :=
  s.cmds.any (fun e => isMatrix e.2.kind && e.2.team == c.team && decide (e.2.order < c.order))

/-- The tile a command uses. -/
def cmdTile : CmdKind → Option Nat
  | .mma tile .. => some tile
  | .accz tile => some tile
  | .accst tile .. => some tile
  | _ => none

/-- Whether a command of a team has still to finish with a tile (R306). (DEDUCED, log 41.) -/
def State.tileBusy (s : State) (t tile : Nat) : Bool :=
  s.cmds.any (fun e => e.2.team == t && cmdTile e.2.kind == some tile)

/-- An MMA that stands inside a group, which a halt never divides (R222, R316). -/
def midGroup (c : Cmd) : Bool :=
  match c.kind with
  | .mma .. => !c.left.isEmpty || !c.got.isEmpty
  | _ => false

/-- A matrix command that may move: it is first of its team, and its team is not halted, or the group in hand is not done (R316). -/
def State.mayMove (s : State) (c : Cmd) : Bool := isMatrix c.kind && (!s.cmdHeld c || midGroup c) && !s.cmdBehind c

/-! ### WLOAD (R303, R304, R307) -/

/-- `WFMT`, N and KG of a WLOAD (R307). -/
def wfmtOf (o : EN) : Nat := (o.x.extractLsb' 4 2).toNat
def wnOf (o : EN) : Nat := 16 * 2 ^ (o.x.extractLsb' 2 2).toNat
def wkgOf (o : EN) : Nat := (o.lo.extractLsb' 0 6).toNat + 1

/-- The slots of an image (R303). -/
def imageSlots (fmt n kg : Nat) : Nat := ceilDiv (imageBytes fmt n kg) 8192

/-- The checks of WLOAD (R307). -/
def wloadPrep (o : EN) (ln : Ln) (x : Vals) (s : State) : Prep CmdKind :=
  let h := o.hx.toNat
  let off := wordsNat x.a
  let len := imageBytes (wfmtOf o) (wnOf o) (wkgOf o)
  match firstErr [
      s.kindErr ln.f h off [1, 2, 3, 4, 5],
      s.rangeErr ln.f h off { spaces := [1, 2, 3, 4, 5], n := len, align := 8, rd := true },
      allocErr (decide (slotField o + imageSlots (wfmtOf o) (wnOf o) (wkgOf o) ≤ (s.blockOf ln.f).wslots))] with
  | some e => .err e
  | none => .ok (.wload off (slotField o) (wfmtOf o) (wnOf o) (wkgOf o))

/-- Every set with a slot in a range loses its tags, and the range becomes one set (R307). -/
def retag (tags : Map Tag) (lo n fmt nn kg : Nat) : Map Tag :=
  let overlap (e : Nat × Tag) : Bool :=
    match e.2 with
    | .head _ _ _ k => decide (e.1 < lo + n ∧ lo < e.1 + k)
    | _ => false
  let heads := tags.filter overlap
  let gone (i : Nat) : Bool := decide (lo ≤ i ∧ i < lo + n) || heads.any (fun e => match e.2 with
    | .head _ _ _ k => decide (e.1 ≤ i ∧ i < e.1 + k)
    | _ => false)
  let tags := mapFilter tags (fun i _ => !gone i)
  (List.range n).foldl (fun m i => mapSet m (lo + i) (if i = 0 then .head fmt nn kg n else .member)) tags

/-- WLOAD (R307), once per batch: the tags change at issue. -/
def execWload (o : EN) (s : State) : Out :=
  .next (runElectChecked { head := o.toHead, imm := 0, na := offRegs o.hx o.a, tokD := true } (wloadPrep o) (fun ln _ k s =>
    let c := s.cmdOf ln o k
    issueThen s ln c (fun s =>
      let lo := (s.team ln.b.team).brec.wsBase + slotField o
      (s.modCore (s.coreOf ln.f) (fun y => { y with
        tags := retag y.tags lo (imageSlots (wfmtOf o) (wnOf o) (wkgOf o)) (wfmtOf o) (wnOf o) (wkgOf o) })).addCmd c)) s)

/-- Where byte p of an image goes in the core's weight buffer. -/
def State.slotByte (s : State) (c : Cmd) (p : Nat) : Nat :=
  match c.kind with
  | .wload _ slot .. => ((s.team c.team).brec.wsBase + slot) * 8192 + p
  | _ => p

/-- One segment of a WLOAD: bytes that cannot be read are written as zero (R307). -/
def State.wloadSegment (s : State) (c : Cmd) (rs : List (Nat × Nat)) : Did × State :=
  let p := (rs.head?.map (·.1)).getD 0
  let n := (rs.map (·.2)).sum
  let d := (s.cmdRun c p).src.getD (c.x, 0)
  let put (s : State) (bs : List Byte) : State :=
    s.modCore (s.cmdCore c) (fun y => { y with wbuf := y.wbuf.writes (s.slotByte c p) bs })
  match s.engRead c d.1 d.2 n with
  | (.ok bs, s) => (.wrote n false, put s bs)
  | (.absent, s) => (.absent, s)
  | (.busy, s) => (.busy, s)
  | (.err e, s) => (.failed (errVal e c.hx), put s (List.replicate n 0))

/-- Whether the record of a group and column holds exactly N mask bits (R304). -/
def maskOk (rec : List Byte) (n : Nat) : Bool := popcount 128 (leNat (rec.take 16)) == n

/-- The records of a team's weight set. -/
def State.record (s : State) (t slot fmt n g j : Nat) : List Byte :=
  (s.core (s.teamCore t)).wbuf.reads (((s.team t).brec.wsBase + slot) * 8192 + (g * 128 + j) * recordBytes fmt n) (recordBytes fmt n)

/-- Whether every record of a loaded image is well formed (R307). -/
def State.imageOk (s : State) (c : Cmd) : Bool :=
  match c.kind with
  | .wload _ slot fmt n kg =>
    (List.range (kg * 128)).all (fun i => maskOk (s.record c.team slot fmt n (i / 128) (i % 128)) n)
  | _ => true

/-- WLOAD_COMMAND (R307): one segment of the image; after the last, the check of its masks and the token. -/
def execWloadCommand (cmd : Nat) (s : State) : Out :=
  .next (match mapGet s.cmds cmd with
    | none => s
    | some c =>
      match c.kind with
      | .wload .. =>
        if !s.mayMove c then s
        else
          let (c, s) := s.startCmd c
          let (c, s) := s.segStep (fun c rs s =>
            let (d, s) := s.wloadSegment c rs
            (d, c, s)) c
          if c.left.isEmpty && c.fix.isEmpty then
            let c := if s.imageOk c then c else { c with errs := c.errs ++ [errVal ecErrmask c.hx] }
            s.endCmd cmd c
          else s.setCmd cmd c
      | _ => s)

/-! ### MMA and MMAS (R308-R310) -/

/-- The checks that MMA makes at issue and MMAS at staging (check of R309), with what they find. -/
def mmaPrep (o : EN) (ln : Ln) (x : Vals) (s : State) : Prep CmdKind :=
  let h := o.hx.toNat
  let t := s.entry ln.f h
  let int := o.x.getLsbD 3
  let z := o.x.getLsbD 4
  let k := if o.b.isNone then (o.lo.toNat + 1) * 32 else wordsNat x.b
  let row := (x.a.getD 0 0).toNat
  let korg := (x.a.getD 1 0).toNat
  let scaled := !int && decide (t.fmt ≤ 1)
  let slot := slotField o
  let tile := tileField o
  match firstErr [
      s.handleErr ln.f h (t.kind == 7 && t.tensorOk && t.spaceOf.isSome && decide (3 ≤ t.space ∧ t.space ≤ 5) && t.rank == 2 &&
        decide (t.fmt ≤ 3) && (!int || t.fmt == 1)),
      (if k % 32 = 0 ∧ 32 ≤ k ∧ k ≤ 8192 ∧ row + 128 ≤ t.dim 0 ∧ korg + k ≤ t.dim 1 then none
       else some { eff := Eff.memScratch, arg := sarg h 0 }),
      (if t.fmt ≤ 1 ∧ korg % 32 ≠ 0 then some { eff := Eff.memAlign, arg := marg h (t.base + tensorOff t [row, korg]) } else none),
      (if scaled then s.scaleCheck ln.f t false else none),
      allocErr (decide (tile < (s.blockOf ln.f).acc) && decide (slot < (s.blockOf ln.f).wslots)),
      s.boxCheck ln.f h t [row, korg] [128, k] false] with
  | some e => .err e
  | none => .ok (.mma tile row korg k slot 0 z int)

/-- What MMA and MMAS need. -/
def mmaNeed (o : EN) : Need := { head := o.toHead, imm := 0, na := 2, nb := if o.b.isNone then 0 else 1, tokD := true }

/-- MMA (R309), once per batch: the checks, the tag check, and issue. -/
def execMma (o : EN) (s : State) : Out :=
  .next (runElectChecked (mmaNeed o) (fun ln x s =>
      match mmaPrep o ln x s with
      | .ok (.mma tile row korg k slot _ z int) =>
        match s.tagN ln.b.team slot (s.entry ln.f o.hx.toNat).fmt k with
        | none => .err { eff := Eff.memHandle, arg := marg 0xFFF slot }
        | some n => .ok (CmdKind.mma tile row korg k slot n z int)
      | r => r)
    (fun ln _ k s => issueCmd s ln (s.cmdOf ln o k)) s)

/-- MMAS (R310), once per batch: stages the command in mcM. -/
def execMmas (o : EN) (s : State) : Out :=
  .next (runElectChecked (mmaNeed o) (mmaPrep o) (fun ln _ k s =>
    let c := s.cmdOf ln o k
    (s.touchHandle ln.f c.hx).modTeam ln.b.team (fun t => { t with
      mc := mapSet t.mc (o.fn.extractLsb' 0 3).toNat
        { kind := k, fib := c.fib, life := c.life, acq := o.acq, sc := o.sc, hx := c.hx, ex := c.ex, ex1 := c.ex1, sx := c.sx } })) s)

/-- MMAS.clr (R308), once per batch. -/
def execMmasClr (o : EN) (s : State) : Out :=
  .next (runElect { head := o.toHead, imm := 0 } (fun ln _ s =>
    s.modTeam ln.b.team (fun t => { t with mc := mapDel t.mc (o.fn.extractLsb' 0 3).toNat })) s)

/-! ### One group (R222, R223, R304, R309) -/

/-- What the engine holds of an element that ECC cannot correct (R314). -/
def replaced : Nat := 2 ^ 64

/-- The raw bits of element (row, k) of the A operand; `replaced` where ECC cannot correct it (R314), 0 where its place is gone. A
quad-group member's export is read as the command's issue found it, halted since or not: a halt never changes a sum (R222, R316). -/
def State.elemA (s : State) (c : Cmd) (tile row k kcmd i : Nat) : Nat × State :=
  let t := c.x.e
  match s.issuedPlace c.fib (s.sideLoc c.fib c.x (tensorOff t [row, k])) with
  | none => (0, s)
  | some p =>
    let v := leNat (s.placeRead t.elem p)
    let sites : List EccSite := (List.range t.elem).map (fun j =>
      match p with
      | .scratch co off => .aByte co (off + j)
      | .tundish d off => .tundishByte d (off + j)
      | .saved .. => .data (s.ctxOf c.fib))
    if sites.any s.struck then (replaced, sites.foldl State.clearBad (s.contain c.team tile 0 kcmd i 0)) else (v, s)

/-- The position of a mask bit's value among the stored ones. -/
def maskRank (mask k : Nat) : Nat := popcount k (mask % 2 ^ k)

/-- The raw bits of B element (k, j) in a record, or none where the decompressor gives exact 0 (R304). -/
def recordElem (rec : List Byte) (fmt n k : Nat) : Option Nat :=
  let mask := leNat (rec.take 16)
  if !maskOk rec n || !mask.testBit k then none
  else
    let e := if fmt < 2 then 1 else 2
    some (fieldAt rec (16 + e * maskRank mask k) e)

/-- `BSC` of a 32-row block of a record (R303). -/
def recordScale (rec : List Byte) (n q : Nat) : Nat := fieldAt rec (16 + n + 2 * q) 2 % 512

/-- What the decompressor gives for an element of B (R304, R314): exact 0, a stored value, or a replaced element. -/
inductive BElem where
  | zero
  | val (v : Nat)
  | replaced
  deriving DecidableEq, Repr, Inhabited

/-- A column of 32 elements of B and the block's scale; an element is replaced where ECC cannot correct a byte of it in its slot, or the
element in the decompressor (R314). -/
def State.colB (s : State) (c : Cmd) (tile slot fmt n g j : Nat) : (List BElem × Nat) × State :=
  let at_ := ((s.team c.team).brec.wsBase + slot) * 8192 + (g / 4 * 128 + j) * recordBytes fmt n
  let rec_ := s.record c.team slot fmt n (g / 4) j
  let e := if fmt < 2 then 1 else 2
  let (vs, s) := (List.range 32).foldl (fun (acc : List BElem × State) i =>
    let k := g % 4 * 32 + i
    let v := recordElem rec_ fmt n k
    let byte := at_ + 16 + e * maskRank (leNat (rec_.take 16)) k
    let sites : List EccSite := .decomp (s.cmdCore c) k j ::
      (if v.isSome then (List.range e).map (fun b => .bSlot (s.cmdCore c) (byte + b)) else [])
    if sites.any acc.2.struck then
      (acc.1 ++ [.replaced], sites.foldl State.clearBad (acc.2.contain c.team tile 1 (32 * g + i) 0 j))
    else (acc.1 ++ [match v with
      | some v => .val v
      | none => .zero], acc.2)) ([], s)
  ((vs, if fmt < 2 then recordScale rec_ n (g % 4) else 0), s)

/-- The value of an element on the floating path (R218, R304). -/
def elemVal (fmt scale v : Nat) : FVal :=
  match fmt with
  | 0 => underScale scale (mf8Decode v)
  | 1 => underScale scale (FVal.ofInt (sext v 8))
  | 2 => fmtBF16.decode v
  | _ => fmtF16.decode v

/-- The exact 0 of a mask bit that is clear (R304). -/
def zeroVal : FVal := .fin false 0 0

/-- The product of an element of A and one of B: 0 where either is replaced (R314). The sign of that 0 is +. (DESIGN CHOICE, log 64.) -/
def elemProduct (fmt sa sb a : Nat) (b : BElem) : FVal :=
  if a = replaced then zeroVal
  else
    match b with
    | .replaced => zeroVal
    | .zero => productVal (elemVal fmt sa a) zeroVal
    | .val v => productVal (elemVal fmt sa a) (elemVal fmt sb v)

/-- One group on the floating path (R222). -/
def groupFloat (fmt : Nat) (acc : Word) (as_ : List Nat) (sa : Nat) (bs : List BElem) (sb : Nat) : Word :=
  BitVec.ofNat 32 (fAdd fmtF32 .rn (fmtF32.decode acc.toNat) (sumVal .rn (List.zipWith (elemProduct fmt sa sb) as_ bs))).1

/-- One group on the integer path (R223). -/
def groupInt (acc : Word) (as_ : List Nat) (bs : List BElem) : Word :=
  acc + BitVec.ofInt 32 (List.zipWith (fun a b => if a = replaced then 0 else sext a 8 * (match b with
    | .val v => sext v 8
    | _ => 0)) as_ bs).sum

/-- A cell that an uncorrectable error strikes adds 0 to its output (R314). -/
def groupStruck (int : Bool) (acc : Word) : Word :=
  if int then acc else BitVec.ofNat 32 (fAdd fmtF32 .rn (fmtF32.decode acc.toNat) zeroVal).1

/-- `DERR` of a team's tile is set. -/
def State.setDerr (s : State) (t tile : Nat) : State :=
  let n := s.tileOf t tile
  s.modCore (s.teamCore t) (fun c => { c with derr := if c.derr.contains n then c.derr else n :: c.derr })

/-- Fold over the rows or columns of a group, gathering what each reads. -/
def gather {α : Type} (n : Nat) (s : State) (f : State → Nat → α × State) : List α × State :=
  (List.range n).foldl (fun (acc : List α × State) i =>
    let (v, s) := f acc.2 i
    (acc.1 ++ [v], s)) ([], s)

/-- What the engine reads for a group of an MMA (R309), by number: elements 0-4095, row i · 32 + k, and on the floating path for mf8 and s8
the scale containers of the rows, 4096 + i (R90). -/
def groupReads (c : Cmd) : List (List (Nat × Nat)) :=
  let scaled := match c.kind with
    | .mma _ _ _ _ _ _ _ int => !int && decide (c.x.e.fmt ≤ 1)
    | _ => false
  (List.range (if scaled then 4096 + 128 else 4096)).map (fun k => [(k, 1)])

/-- The read of number k of the group in hand is done. -/
def Cmd.gotRead (c : Cmd) (k v : Nat) : Cmd :=
  { c with got := mapSet c.got k v, left := c.left.filter (· != [(k, 1)]), fix := c.fix.filter (· != [(k, 1)]) }

/-- Perform read k of the group in hand (R309): an element, or a scale container as a copy segment. A container that is not resident waits
for the fix-up; one that cannot be read gives the NaN scale. -/
def State.groupRead (s : State) (c : Cmd) (k : Nat) : Cmd × State :=
  match c.kind with
  | .mma tile row korg .. =>
    if k < 4096 then
      let (v, s) := s.elemA c tile (row + k / 32) (korg + 32 * c.at_ + k % 32) (32 * c.at_ + k % 32) (k / 32)
      (c.gotRead k v, s)
    else if !s.mayStart c [(k, 1)] then (c, s)
    else
      match s.engReads c c.xs 2 (scaleOff c.x.e [row + (k - 4096), korg + 32 * c.at_]) 2 [] with
      | (.ok bs, s) => (c.gotRead k (leNat bs % 512), s)
      | (.err e, s) => ({ c.gotRead k 511 with errs := c.errs ++ [errVal e c.xs.h] }, s.setDerr c.team tile)
      | (.absent, s) => ({ c with fix := c.fix.filter (· != [(k, 1)]) ++ [[(k, 1)]] }, s)
      | (.busy, s) => (c, s)
  | _ => (c, s)

/-- Group g of an MMA once its reads are done (R309): every cell of the tile. -/
def State.mmaGroup (s : State) (c : Cmd) : State :=
  match c.kind with
  | .mma tile _ _ _ slot n z int =>
    let t := c.team
    let g := c.at_
    let fmt := c.x.e.fmt
    let vs := c.got.map (·.2)
    let as_ := chunks 32 128 (vs.take 4096)
    let xs := vs.drop 4096
    let (bs, s) := gather 128 s (fun s j => s.colB c tile slot fmt n g j)
    let cells := (List.range 128).flatMap (fun i => (List.range 128).map (fun j => (i, j)))
    cells.foldl (fun s e =>
      let (i, j) := e
      let (old, s) := if z && g == 0 then ((0 : Word), s) else s.readAcc t tile i j
      let site := EccSite.cell (s.cmdCore c) i j
      let b := bs.getD j ([], 0)
      if s.struck site then ((s.contain t tile 2 g i j).clearBad site).setAcc t tile [(i, j, groupStruck int old)]
      else
        s.setAcc t tile [(i, j,
          if int then groupInt old (as_.getD i []) b.1 else groupFloat fmt old (as_.getD i []) (xs.getD i 0) b.1 b.2)]) s
  | _ => s

/-- The depth of an MMA. -/
def mmaK : CmdKind → Nat
  | .mma _ _ _ k .. => k
  | _ => 0

/-- MMA_COMMAND (R309, R316): one of the reads of the group in hand, in any order (R306); once they are done, the group; after the last group,
the token. -/
def execMmaCommand (cmd : Nat) (s : State) : Out :=
  .next (match mapGet s.cmds cmd with
    | none => s
    | some c =>
      match c.kind with
      | .mma .. =>
        if !s.mayMove c then s
        else
          let s := if c.begun then s else s.beginCmd c
          let c := { c with begun := true, left := if c.got.isEmpty && c.left.isEmpty then groupReads c else c.left }
          match (c.left[s.pickRun c]?).bind List.head? with
          | some (k, _) =>
            let (c, s) := s.groupRead c k
            s.setCmd cmd c
          | none =>
            let s := s.mmaGroup c
            let c := { c with at_ := c.at_ + 1, got := [] }
            if c.at_ * 32 < mmaK c.kind then s.setCmd cmd c else s.endCmd cmd { c with bytes := 65536 }
      | _ => s)

/-! ### ACCZ, ACCLD, ACCSTAT (R311, R312) -/

/-- The check of a tile number (R305). -/
def tilePrep {α : Type} (o : EN) (ln : Ln) (s : State) (x : α) : Prep α :=
  match allocErr (decide (tileField o < (s.blockOf ln.f).acc)) with
  | some e => .err e
  | none => .ok x

/-- ACCZ (R312), once per batch. -/
def execAccz (o : EN) (s : State) : Out :=
  .next (runElectChecked { head := o.toHead, imm := 0, tokD := true } (fun ln _ s => tilePrep o ln s (CmdKind.accz (tileField o)))
    (fun ln _ k s => issueCmd s ln (s.cmdOf ln o k)) s)

/-- ACCZ_COMMAND (R312): every word of the tile becomes 0. -/
def execAcczCommand (cmd : Nat) (s : State) : Out :=
  .next (match mapGet s.cmds cmd with
    | none => s
    | some c =>
      match c.kind with
      | .accz tile =>
        if !s.mayMove c then s
        else
          let n := s.tileOf c.team tile
          (s.modCore (s.cmdCore c) (fun y => { y with tiles := mapFilter y.tiles (fun k _ => k / 16384 != n) })).endCmd cmd
            { c with bytes := 65536 }
      | _ => s)

/-- Row, column and width of an ACCLD in a lane (R312). -/
def accldPrep (o : EN) (ln : Ln) (x : Vals) (s : State) : Prep (Nat × Nat) :=
  let w := if o.x.getLsbD 3 then 4 else 1
  let i := wordsNat x.a
  let j := wordsNat x.b
  match tilePrep o ln s (i, j) with
  | .ok p => if 128 ≤ i ∨ 128 < j + w then .err { eff := Eff.memScratch, arg := sarg 0 0 } else .ok p
  | r => r

/-- ACCLD (R312), each lane, helper lanes included. Its words are those that the team's earlier commands leave (R306): while one
of them has still to finish with the tile, or the command queue is full (R305), the lane stays at the instruction. -/
def execAccld (o : EN) (s : State) : Out :=
  let w := if o.x.getLsbD 3 then 4 else 1
  .next (runChecked { head := o.toHead, imm := 0, na := 1, nb := 1, wd := w } (accldPrep o) (fun ln _ p s =>
    let t := ln.b.team
    if s.tileBusy t (tileField o) || s.engineFull (s.coreOf ln.f) (.accz 0) then s.stall ln
    else
      afterRelease s ln .core (fun s =>
        let (ws, s) := gather w s (fun s k => s.readAcc t (tileField o) p.1 (p.2 + k))
        s.putFrom ln .v o.d 0 ws)) s)

/-- ACCSTAT (R312), once per batch: `DERR` of the tile, which it clears, in every lane whose guard is true. -/
def execAccstat (o : EN) (s : State) : Out :=
  let who := s.cur.bind (s.elect o.guard)
  .next (runBatch { head := o.toHead, imm := 0, wd := 1 } (fun lns s =>
    match lns.find? (fun e => some e.1.l == who) with
    | none => s
    | some e =>
      let t := e.1.b.team
      match tilePrep o e.1 s () with
      | .err err => s.raise e.1 (withSmask (2 ^ e.1.l) err)
      | _ =>
        if s.tileBusy t (tileField o) || s.engineFull (s.coreOf e.1.f) (.accz 0) then lns.foldl (fun s e => s.stall e.1) s
        else
          match s.release e.1.f .core with
          | (.wait, s) => lns.foldl (fun s e => s.stall e.1) s
          | (.fault a, s) => s.raise e.1 { eff := Eff.memStorefault, arg := a }
          | (.done, s) =>
            let n := s.tileOf t (tileField o)
            let v := b2n ((s.core (s.teamCore t)).derr.contains n)
            let s := s.modCore (s.teamCore t) (fun c => { c with derr := c.derr.filter (· != n) })
            lns.foldl (fun s e => s.putD e.1 .v o.d 1 v) s) s)

/-! ### ACCST (R313) -/

/-- `RM` of an ACCST. -/
def accRm (o : EN) : Rm :=
  match (o.x.extractLsb' 3 2).toNat with
  | 0 => .rn
  | 1 => .rz
  | 2 => .rm
  | _ => .rp

/-- The checks of ACCST (R313, R90). -/
def accstPrep (o : EN) (ln : Ln) (x : Vals) (s : State) : Prep CmdKind :=
  let h := o.hy.toNat
  let t := s.entry ln.f h
  let row := (x.a.getD 0 0).toNat
  let col := (x.a.getD 1 0).toNat
  match firstErr [
      s.handleErr ln.f h (t.kind == 7 && t.tensorOk && t.spaceOf.isSome && decide (3 ≤ t.space ∧ t.space ≤ 5) && t.rank == 2 &&
        (t.fmt == 4 || t.fmt == 2 || t.fmt == 0 || t.fmt == 5)),
      (if t.fmt ≠ 2 ∧ accRm o ≠ .rn then some (illegal ln.b.word) else none),
      (if t.canWrite then none else some { eff := Eff.memPerm, arg := marg h t.base }),
      (if row + 128 ≤ t.dim 0 ∧ col + 128 ≤ t.dim 1 then none else some { eff := Eff.memScratch, arg := sarg h 0 }),
      (if t.fmt = 0 ∧ col % 32 ≠ 0 then some { eff := Eff.memAlign, arg := marg h (t.base + tensorOff t [row, col]) } else none),
      (if t.fmt = 0 then s.scaleCheck ln.f t true else none),
      allocErr (decide (tileField o < (s.blockOf ln.f).acc)),
      s.boxCheck ln.f h t [row, col] [128, 128] true] with
  | some e => .err e
  | none => .ok (.accst (tileField o) row col (accRm o))

/-- ACCST (R313), once per batch. -/
def execAccst (o : EN) (s : State) : Out :=
  .next (runElectChecked { head := o.toHead, imm := 0, na := 2, tokD := true } (accstPrep o)
    (fun ln _ k s => issueCmd s ln (s.cmdOf ln o k)) s)

/-- The bytes of the elements of a row and the codes of its blocks, for a destination format (R313). -/
def accstRow (fmt : Nat) (rnd : Rm) (ws : List Word) : List (List Byte) × List Nat :=
  let v (w : Word) : FVal := fmtF32.decode w.toNat
  match fmt with
  | 2 => (ws.map (fun w => leBytes 2 (fRound .bf16 rnd (v w)).1), [])
  | 0 =>
    let blocks := chunks 32 ws.length ws
    let codes := blocks.map (fun b => scaleCode (b.map v))
    ((blocks.zipIdx).flatMap (fun e =>
      let x := codes.getD e.2 0
      e.1.map (fun w => [BitVec.ofNat 8 (if x = 511 then 0x80 else (mf8Round ((v w).scale (256 - (x : Int)))).1)])), codes)
  | _ => (ws.map (fun w => leBytes 4 w.toNat), [])

/-- The writes of row i of an ACCST: elements, then containers. -/
def accstWrites (c : Cmd) (row col i : Nat) (r : List (List Byte) × List Nat) : List (Side × Int × List Byte) :=
  (r.1.zipIdx.map (fun e => (c.y, ((tensorOff c.y.e [row + i, col + e.2] : Nat) : Int), e.1))) ++
    (r.2.zipIdx.map (fun e => (c.ys, ((scaleOff c.y.e [row + i, col + 32 * e.2] : Nat) : Int), leBytes 2 e.1)))

/-- The words of the row in hand of an ACCST. -/
def rowWords (c : Cmd) : List Word := c.got.map (fun e => BitVec.ofNat 32 e.2)

/-- The row in hand of an ACCST as its writes, by number (R313). -/
def rowWrites (c : Cmd) : List (Side × Int × List Byte) :=
  match c.kind with
  | .accst _ row col rnd => accstWrites c row col c.at_ (accstRow c.y.e.fmt rnd (rowWords c))
  | _ => []

/-- Write k of the row in hand is over. -/
def Cmd.rowDone (c : Cmd) (k : Nat) : Cmd :=
  let left := c.left.filter (· != [(k, 1)])
  { c with left := left, fix := c.fix.filter (· != [(k, 1)]), at_ := if left.isEmpty then c.at_ + 1 else c.at_,
           got := if left.isEmpty then [] else c.got }

/-- Perform write k of the row in hand, an element or a container (R306, R313); one whose page is not resident waits for the fix-up. -/
def State.rowWrite (s : State) (c : Cmd) (k : Nat) : Cmd × State :=
  match (rowWrites c)[k]? with
  | none => (c.rowDone k, s)
  | some (d, off, bs) =>
    if !s.mayStart c [(k, 1)] then (c, s)
    else
    match s.engWrites c d 2 off bs with
    | (.ok _, s) => ({ c.rowDone k with bytes := c.bytes + bs.length }, s)
    | (.err e, s) => ({ c.rowDone k with errs := c.errs ++ [errVal e d.h] }, s)
    | (.absent, s) => ({ c with fix := c.fix.filter (· != [(k, 1)]) ++ [[(k, 1)]] }, s)
    | (.busy, s) => (c, s)

/-- The end of an ACCST: its release and its token (R287). -/
def State.finishAccst (s : State) (cmd : Nat) (c : Cmd) : State :=
  let s := s.cmdRelease c
  if s.relWaits c then s.setCmd cmd c else s.endCmd cmd c

/-- ACCST_COMMAND (R313, R316): the words of the next row, or one of the row's writes, in any order (R306); after the last row, the release
and the token. -/
def execAccstCommand (cmd : Nat) (s : State) : Out :=
  .next (match mapGet s.cmds cmd with
    | none => s
    | some c =>
      match c.kind with
      | .accst tile _ _ _ =>
        if !s.mayMove c then s
        else if 128 ≤ c.at_ then s.finishAccst cmd c
        else if c.got.isEmpty then
          let (ws, s) := gather 128 s (fun s j => s.readAcc c.team tile c.at_ j)
          let c := { c with got := ws.zipIdx.map (fun (e : Word × Nat) => (e.2, e.1.toNat)) }
          s.setCmd cmd { c with left := (List.range (rowWrites c).length).map (fun k => [(k, 1)]) }
        else
          let (c, s) := s.rowWrite c (((c.left[s.pickRun c]?).bind List.head?).map (·.1) |>.getD 0)
          if 128 ≤ c.at_ then s.finishAccst cmd c else s.setCmd cmd c
      | _ => s)

/-! ### FIXUP_SERVICE (R286, R309) -/

/-- The places that the head of a command's fix-up list needs. -/
def State.fixSides (s : State) (c : Cmd) : List (Side × Int) :=
  match c.fix with
  | [] => []
  | seg :: _ =>
    seg.flatMap (fun r =>
      match c.kind with
      | .mma _ row korg .. => endsOf (c.xs, ((scaleOff c.x.e [row + (r.1 - 4096), korg + 32 * c.at_] : Nat) : Int)) 2
      | .accst .. =>
        match (rowWrites c)[r.1]? with
        | some (d, off, bs) => endsOf (d, off) bs.length
        | none => []
      | .xput .. | .xred .. => (s.cmdRun c r.1).src.toList.flatMap (fun d => endsOf d r.2)
      | .xget .. => endsOf (s.cmdRun c r.1).dst r.2
      | _ => (s.cmdRun c r.1).sides r.2)

/-- FIXUP_SERVICE (R286): Cupola makes a page of the head of a command's fix-up list resident in a frame. -/
def execFixupService (cmd frame : Nat) (s : State) : Out :=
  .next (match mapGet s.cmds cmd with
    | none => s
    | some c =>
      match (s.fixSides c).find? (fun d => match s.sideLoc c.fib d.1 d.2 with
        | .glob va => s.residence (s.ctxOf c.fib) va == .absent
        | _ => false) with
      | none => s
      | some d => s.fixPage c d.1 d.2 frame)

end Sys2Proof.Machine
end

