-- ==== Sys2Proof/Machine/Code.lean ====
section
/-!
DEFINITION. Code regions, opcodes 0xB0-0xB4 (R132-R142): the record and its mirror, the adopted set, PUBLISH, ADOPT, RETRACT, FBAR
and RGNQ.
-/
namespace Sys2Proof.Machine

/-! ### Records (R132, R135) -/

/-- bump of R137: `GEN` wraps from 0xFFFF to 1. -/
def bumpGen16 (g : Nat) : Nat := if 0xFFFF ≤ g then 1 else g + 1

/-- `STATE` as the code entry holds it (R92). -/
def rsCode : RState → Nat
  | .empty => 0
  | .writable => 1
  | .published => 2
  | .retracted => 3

/-- Change a record and its mirror in the code entry in one step (R132). -/
def State.setRegion (s : State) (c h : Nat) (r : Region) : State :=
  s.modCtx c (fun x => { x with
    regions := mapSet x.regions h r,
    table := mapMod x.table h (fun raw => putBytes raw 16 (leBytes 2 r.gen ++ [BitVec.ofNat 8 (r.pscope * 16 + rsCode r.state)])) })

/-- Whether a core lies in `PINST` (R132). -/
def insideRegion (r : Region) (core : Nat) : Bool :=
  match r.pscope with
  | 1 => r.pdie == core / 128 && r.punit == core % 128
  | 2 => r.pdie == core / 128 && r.punit == core % 128 / 4
  | 3 => r.pdie == core / 128
  | _ => true

/-- Whether the instance of a scope that holds a core contains `PINST` (R140). -/
def containsRegion (sc : Nat) (core : Nat) (r : Region) : Bool :=
  match sc with
  | 1 => r.pscope == 1 && r.pdie == core / 128 && r.punit == core % 128
  | 2 => r.pdie == core / 128 &&
      ((r.pscope == 1 && r.punit / 4 == core % 128 / 4) || (r.pscope == 2 && r.punit == core % 128 / 4))
  | 3 => decide (1 ≤ r.pscope ∧ r.pscope ≤ 3) && r.pdie == core / 128
  | _ => true

/-- Whether two cores lie in one instance of a scope code from core to pkg (R323). -/
def sameUnit (sc a b : Nat) : Bool :=
  match sc with
  | 1 => a == b
  | 2 => a / 128 == b / 128 && a % 128 / 4 == b % 128 / 4
  | 3 => a / 128 == b / 128
  | _ => true

/-! ### The adopted set (R134, R139) -/

/-- The `GEN` of a team's entry for a region, on the core or in the spill area. -/
def adoptedGen (t : Team) (h : Nat) : Option Nat :=
  ((t.adopted.find? (fun e => e.2.1 == h)).map (·.2.2)).or ((t.spilled.find? (fun e => e.1 == h)).map (·.2))

/-- Set a team's entry for a region to a `GEN` (R134); none where there is no place. -/
def adoptInto (regions : Map Region) (t : Team) (h g : Nat) : Option Team :=
  match t.adopted.find? (fun e => e.2.1 == h) with
  | some e => some { t with adopted := mapSet t.adopted e.1 (h, g) }
  | none =>
    if t.spilled.any (fun e => e.1 == h) then
      some { t with spilled := t.spilled.map (fun e => if e.1 = h then (h, g) else e) }
    else
      match mapFree t.adopted 16 with
      | some i => some { t with adopted := mapSet t.adopted i (h, g) }
      | none =>
        match t.adopted.find? (fun e => (mapGet regions e.2.1).map (·.gen) != some e.2.2) with
        | some e => some { t with adopted := mapSet t.adopted e.1 (h, g) }
        | none =>
          match t.spill with
          | some (_, n) => if t.spilled.length < n then some { t with spilled := t.spilled ++ [(h, g)] } else none
          | none => none

/-! ### What the five instructions share (R136) -/

/-- The handle index that a code instruction names. -/
def codeHandle (o : SY) (x : Vals) : Nat := if o.a.isNone then (immHandle o.imm).toNat else (x.a.headD 0).toNat

/-- The checks of R136: a valid code entry, with `W` where it is needed. -/
def codePrep (o : SY) (w : Bool) (ln : Ln) (x : Vals) (s : State) : Prep (Nat × Region) :=
  let h := codeHandle o x
  if 4096 ≤ h then .err { eff := Eff.memHandle, arg := marg (h % 4096) 0 }
  else
    let e := s.entry ln.f h
    match s.handleErr ln.f h (e.kind == 6 && e.codeOk), mapGet (s.ctx (s.ctxOf ln.f)).regions h with
    | some err, _ => .err err
    | none, none => .err { eff := Eff.memHandle, arg := marg h 0 }
    | none, some r =>
      if w && !e.canWrite then
        .err { eff := Eff.memPerm, arg := marg h (s.finalAddr ln.f h e 6 0) }
      else .ok (h, r)

/-- What a code instruction needs. -/
def codeNeed (o : SY) (wd : Nat) (live : Bool) : Need :=
  { head := o.toHead, imm := o.imm, na := if o.a.isNone then 0 else 1, wd := wd, live := live }

/-- The scope code in `MOD`[36:34]. -/
def codeScopeOf (o : SY) : Nat := (o.mod.extractLsb' 2 3).toNat

/-- Before a PUBLISH or RETRACT completes, the region's lookaside entries go (R132). -/
def State.dropLook (s : State) (c h : Nat) : State :=
  { s with cores := mapAll s.cores (fun _ x => { x with look := x.look.filter (· != (c, h)) }) }

/-- Whether an I-cache line belongs to a region. -/
def inRegion (c : Nat) (r : Region) (l : ILine) : Bool :=
  l.ctx == c && decide (r.base ≤ l.off) && decide (l.off < r.base + 64 * r.lines)

/-! ### PUBLISH (R137) -/

/-- Whether a copy of a team whose token is not yet written writes a byte of a virtual range (R137). -/
def State.copyInto (s : State) (t va n : Nat) : Bool :=
  let meets (r : Nat × Nat) : Bool := decide (r.1 < va + n) && decide (va < r.1 + r.2)
  s.cmds.any (fun e => isCopy e.2.kind && e.2.team == t && (s.cmdWrites e.2).any meets) ||
    s.fibres.any (fun e => fibTeam e.1 == t && e.2.tok.any (fun k => k.2.wrote.any meets))

/-- line_ok of R137. -/
def lineOk (d : List Byte) : Bool :=
  parAllOk d &&
    (match lineKind d with
      | 0 => pairsOk d
      | 3 => false
      | _ => lineWord d % 2 ^ 14 == 0) && reservedOk d

/-- The effect that a fetch of a line at an address would raise for its translation (R61). (DEDUCED, log 45.) -/
def fetchXerr (h va off : Nat) : XErr → Stop
  | .perm => .err { eff := Eff.codeUnadopted, arg := codeArg off h 0 }
  | e => xerrEff h va e

/-- The lines of a region from line i on, read at home in turn: the first that fails line_ok. -/
def State.badLine (s : State) (f h : Nat) (r : Region) : Nat → Nat → Except Stop (Option Nat) × State
  | 0, _ => (.ok none, s)
  | fuel + 1, i =>
    let off := r.base + 64 * i
    let va := (s.ctx (s.ctxOf f)).cwbase + off
    let u := XUnit.core (s.coreOf f)
    match s.engXlate u (s.ctxOf f) va .fetch with
    | (.error e, s) => (.error (fetchXerr h va off e), s)
    | (.ok x, s) =>
      if s.frozen x.pa && !(s.heldComm (sectorKey x.pa x.key)).isEmpty then (.error .held, s)
      else
      let (bs, s) := s.homeRead x.pa x.key 64
      if lineOk bs then State.badLine s f h r fuel (i + 1) else (.ok (some i), s)

/-- The L1 sectors of a fibre's core that hold bytes of a region. -/
def State.regionSectors (s : State) (f : Nat) (r : Region) : List Nat :=
  (s.rangePieces (s.ctxOf f) ((s.ctx (s.ctxOf f)).cwbase + r.base) (64 * r.lines)).flatMap (fun p => s.sectorsOver (s.coreOf f) p.1 p.2)

/-- writeback_to_home of R137. -/
def State.regionHome (s : State) (f : Nat) (r : Region) : State :=
  (s.regionSectors f r).foldl (fun s k => s.writeBack (s.coreOf f) k true) s

/-- PUBLISH in a lane whose handle has passed its checks (R137): the fibre's earlier accesses are performed before the write-back, so that
its held stores to the region go home with it. -/
def publishAt (o : SY) (ln : Ln) (h : Nat) (s : State) : State :=
  let c := s.ctxOf ln.f
  let r := (mapGet (s.ctx c).regions h).getD default
  if s.copyInto ln.b.team ((s.ctx c).cwbase + r.base) (64 * r.lines) then s.putD ln .v o.d 1 2
  else
    let s := (s.arriveBefore ln.f (fun _ => true)).regionHome ln.f r
    if !(s.flying ln.f).isEmpty || (s.regionSectors ln.f r).any (s.unsent (s.coreOf ln.f)) then s.stall ln
    else
      afterRelease s ln (modScope o.mod) (fun s =>
        match s.badLine ln.f h r r.lines 0 with
        | (.error e, s) => s.stop ln e
        | (.ok (some i), s) => s.putD ln .v o.d 1 (1 + i * 2 ^ 16)
        | (.ok none, s) =>
          let core := s.coreOf ln.f
          let sc := codeScopeOf o
          let s := s.setRegion c h { r with gen := bumpGen16 r.gen, state := .published, pscope := sc, pdie := core / 128,
                                            punit := if sc = 2 then core % 128 / 4 else core % 128 }
          (s.dropLook c h).putD ln .v o.d 1 0)

/-- PUBLISH (R137). -/
def execPublish (o : SY) (s : State) : Out :=
  .next (runLanes (codeNeed o 1 true) (fun ln x s =>
    match codePrep o true ln x s with
    | .ok (h, _) => publishAt o ln h s
    | .err e => s.raise ln e
    | _ => s) s)

/-! ### ADOPT (R138, R139) -/

/-- ADOPT in a lane whose handle has passed its checks (R138). -/
def adoptAt (o : SY) (ln : Ln) (h : Nat) (s : State) : State :=
  let c := s.ctxOf ln.f
  let r := (mapGet (s.ctx c).regions h).getD default
  let core := s.coreOf ln.f
  if r.state ≠ .published then s.putD ln .v o.d 1 1
  else if !insideRegion r core then s.putD ln .v o.d 1 2
  else
    match adoptInto (s.ctx c).regions (s.team ln.b.team) h r.gen with
    | none => s.putD ln .v o.d 1 3
    | some t =>
      let s := s.modTeam ln.b.team (fun _ => t)
      let s := s.modCore core (fun x => { x with icache := x.icache.filter (fun l => !(inRegion c r l && l.gen != r.gen)) })
      let s := s.acquire ln.f ((scopeOfCode r.pscope).getD .pkg)
      s.putD ln .v o.d 1 (r.gen * 2 ^ 16)

/-- ADOPT (R138). -/
def execAdopt (o : SY) (s : State) : Out :=
  .next (runLanes (codeNeed o 1 true) (fun ln x s =>
    match codePrep o false ln x s with
    | .ok (h, _) => adoptAt o ln h s
    | .err e => s.raise ln e
    | _ => s) s)

/-- ADOPT.spill (R139). -/
def execAdoptSpill (o : SY) (s : State) : Out :=
  .next (runLanes { head := o.toHead, imm := o.imm, na := if o.a.isNone then 0 else 1, wd := 1, live := true } (fun ln x s =>
    let n := (o.mod.extractLsb' 0 10).toNat + 1
    let off := eaOff (immOffset o.imm) x.a
    let ok := (s.team ln.b.team).spill.isNone && off % 8 == 0 && decide (0 ≤ off) &&
      decide (off + 8 * n ≤ ((s.blockOf ln.f).scratch : Int))
    if ok then (s.modTeam ln.b.team (fun t => { t with spill := some (off.toNat, n) })).putD ln .v o.d 1 0
    else s.putD ln .v o.d 1 4) s)

/-! ### RETRACT (R140) -/

/-- The fibres, but for one, that hold a line of a region under a `GEN` it no longer has, on the cores of a scope instance. -/
def State.lineHolders (s : State) (f h sc : Nat) : List (Nat × Fibre) :=
  let cur := (mapGet (s.ctx (s.ctxOf f)).regions h).map (·.gen)
  s.fibres.filter (fun e => e.1 != f && s.ctxOf e.1 == s.ctxOf f && sameUnit sc (s.coreOf f) (s.coreOf e.1) &&
    (match e.2.fbuf with
      | some l => l.region == h && some l.gen != cur && !l.last
      | none => false))

/-- Whether RETRACT waits for a fibre to leave its line (R140): a READY one that is not halted, and not itself in a RETRACT. (DEDUCED,
log 72.) -/
def waitedFor (x : Fibre) : Bool := x.st == .ready && !x.halted && x.retracting.isNone

/-- Discard a fetch buffer as RETRACT does (R140): a fibre inside an instruction that waits, a RETRACT of its own among them, completes it.
(DEDUCED, log 72.) -/
def Fibre.discard (x : Fibre) : Fibre :=
  match x.st, x.retracting with
  | .waiting _, _ | _, some _ => { x with fbuf := x.fbuf.map (fun l => { l with last := true }) }
  | _, none => { x with fbuf := none }

/-- The wait of RETRACT, once the record has changed (R140). -/
def retractWait (o : SY) (ln : Ln) (h : Nat) (s : State) : State :=
  let hs := s.lineHolders ln.f h (codeScopeOf o)
  let s := hs.foldl (fun s e => if waitedFor e.2 then s else s.modFibre e.1 Fibre.discard) s
  if hs.any (fun e => waitedFor e.2) then s.stall ln
  else (s.modFibre ln.f (fun x => { x with retracting := none })).putD ln .v o.d 1 0

/-- RETRACT in a lane whose handle has passed its checks (R140). -/
def retractAt (o : SY) (ln : Ln) (h : Nat) (s : State) : State :=
  let c := s.ctxOf ln.f
  let r := (mapGet (s.ctx c).regions h).getD default
  let core := s.coreOf ln.f
  let sc := codeScopeOf o
  if r.state ≠ .published then s.putD ln .v o.d 1 1
  else if !containsRegion sc core r then s.putD ln .v o.d 1 2
  else
    let s := (s.setRegion c h { r with gen := bumpGen16 r.gen, state := .retracted }).dropLook c h
    let s := { s with cores := mapAll s.cores (fun k x =>
      if sameUnit sc core k then { x with icache := x.icache.filter (fun l => !inRegion c r l) } else x) }
    retractWait o ln h (s.modFibre ln.f (fun x => { x with retracting := some (h, r.gen) }))

/-- RETRACT (R140): the record changes once, then the instruction stays until the READY fibres have left their lines; a halt in between
ends at the same wait. (DEDUCED, log 72.) -/
def execRetract (o : SY) (s : State) : Out :=
  .next (runLanes (codeNeed o 1 true) (fun ln x s =>
    match (s.fibre ln.f).retracting with
    | some (h, _) => retractWait o ln h s
    | none =>
      match codePrep o true ln x s with
      | .ok (h, _) => retractAt o ln h s
      | .err e => s.raise ln e
      | _ => s) s)

/-! ### FBAR (R141) and RGNQ (R142) -/

/-- FBAR (R141): the fibre's writes and those it has observed go home, its context's I-cache lines on the core go, and its fetch
buffer is discarded. -/
def execFbar (o : SY) (s : State) : Out :=
  .next (runLanes { head := o.toHead, imm := o.imm, live := true } (fun ln _ s =>
    let s := s.releaseActs ln.f .quad
    if s.releaseWaits ln.f .quad then s.stall ln
    else
      let c := s.ctxOf ln.f
      (s.modCore (s.coreOf ln.f) (fun x => { x with icache := x.icache.filter (fun l => l.ctx != c) })).modFibre ln.f
        (fun x => { x with fbuf := none })) s)

/-- The word of RGNQ (R142). -/
def rgnqWord (r : Region) (own : Option Nat) (core : Nat) : Nat :=
  own.getD 0 * 2 ^ 48 + r.gen * 2 ^ 32 + b2n (own.isSome && own != some r.gen) * 2 ^ 25 + b2n own.isSome * 2 ^ 24 +
    b2n (r.state == .published && insideRegion r core) * 2 ^ 23 + r.pscope * 2 ^ 20 + rsCode r.state * 2 ^ 16 + (r.lines - 1)

/-- RGNQ (R142), helper lanes included. -/
def execRgnq (o : SY) (s : State) : Out :=
  .next (runLanes (codeNeed o 2 false) (fun ln x s =>
    match codePrep o false ln x s with
    | .ok (h, r) => s.putD ln .v o.d 2 (rgnqWord r (adoptedGen (s.team ln.b.team) h) (s.coreOf ln.f))
    | .err e => s.raise ln e
    | _ => s) s)

end Sys2Proof.Machine
end

