-- ==== Sys2Proof/Machine/Effects.lean ====
section
/-!
DEFINITION. The effect instructions, opcodes 0xB8-0xBD (R383-R389).
-/
namespace Sys2Proof.Machine

/-! ### Registers that the device restores (R383, R385, R387) -/

/-- dst(code, L, n32, v) of R385 and R387 for a specifier byte that lane memory holds; 0xFE, and any byte that names no register,
writes nothing. The value has arrived before the fibre's next instruction (R383). (DEDUCED, log 20.) -/
def State.dstCode (s : State) (f code : Nat) (v : Word) : State :=
  match decodeSpec code with
  | some (.g i) => s.modFibre f (fun x => x.force (rG i.val) v)
  | some (.p i) => s.modFibre f (fun x => x.force (rP i.val) (if v = 0 then 0 else 1))
  | _ => s

/-- What an effect instruction needs: it does nothing in a helper lane (R383). -/
def effNeed (o : SY) : Need := { head := o.toHead, imm := o.imm, live := true }

/-- Before an instruction on the records of a lane slice, the earlier accesses there of the batch's fibres (R331). -/
def State.recordsFirst (s : State) : State :=
  match s.cur with
  | none => s
  | some b => b.lanes.foldl (fun s l => s.laneFirst (b.fib l)) s

/-- An operand that reads 0 where its specifier is 0xFE (R383). -/
def optRegs (sp : Spec) (n : Nat) : Nat := if sp.isNone then 0 else n

/-- g2 as an effect instruction reads it. -/
def State.readSp (s : State) (ln : Ln) : Nat := (s.readReg ln.f (rG 2) (ln.l * 128 + 80)).toNat

/-- The wait of R156 and R159 on registers that the instruction writes without naming them. -/
def waitTokens {α : Type} (x : Fibre) (rs : List Nat) (ok : α) : Prep α :=
  match rs.filter x.tokPending with
  | [] => .ok ok
  | r :: rest => .wait (.token (r :: rest))

/-! ### HANDLE (R384) -/

/-- The checks of HANDLE; the answer is the record's offset. -/
def handlePrep (ln : Ln) (s : State) : Prep Nat :=
  let g2 := s.readSp ln
  if g2 % 16 ≠ 0 then .err { eff := Eff.memAlign, arg := marg 1 g2 }
  else if g2 < 64 then .err { eff := Eff.memStack, arg := marg 1 ((g2 : Int) - 64) }
  else if (s.blockOf ln.f).lane < g2 then .err { eff := Eff.memScratch, arg := sarg 1 0 }
  else .ok (g2 - 64)

/-- tgt(pc, d) of R384. -/
def effTarget (pc : Word) (d : Nat) : Word := slotTarget pc (sext (d / 8) 13) (d % 8)

/-- The bytes of a handler record (R376). -/
def handlerBytes (hpc xpc : Word) (ssp parent eid emask rgen : Nat) : List Byte :=
  leBytes 4 hpc.toNat ++ leBytes 4 xpc.toNat ++ leBytes 4 ssp ++ leBytes 4 parent ++ leBytes 2 eid ++ leBytes 2 emask ++
    leBytes 2 rgen ++ leBytes 2 0 ++ leBytes 4 hspNone ++ List.replicate 36 0

/-- HANDLE (R384): push a handler record. -/
def execHandle (o : SY) (s : State) : Out :=
  .next (runChecked { effNeed o with nb := 1, also := [2], imp := [2] } (fun ln _ s => handlePrep ln s) (fun ln x r s =>
    let sel := (x.b.headD 0).toNat
    let rgen := (s.laneNat ln.f (r + 20) 2 + 1) % 2 ^ 16
    let rec_ := handlerBytes (effTarget ln.b.pc (bits o.imm.toNat 31 16)) (effTarget ln.b.pc (bits o.imm.toNat 15 0)) (r + 64)
      (s.fibre ln.f).hsp.toNat (bits sel 11 0) (bits sel 27 16) rgen
    (s.laneWrite ln.f r rec_).modFibre ln.f (fun y =>
      { (y.force (rG 2) (BitVec.ofNat 32 r)) with hsp := BitVec.ofNat 32 r })) s.recordsFirst)

/-! ### UNHANDLE (R385) -/

/-- A record of n bytes at a lane offset lies in the slice. (DEDUCED, log 18.) -/
def State.inSlice (s : State) (f off n : Nat) : Bool := decide (off + n ≤ (s.blockOf f).lane)

/-- What UNHANDLE finds (R385): the record at %hsp, and its return record where it has one. -/
def unhandlePrep (ln : Ln) (s : State) : Prep (Nat × Option Nat) :=
  let x := s.fibre ln.f
  let r := x.hsp.toNat
  if r = hspNone ∨ r = hspTeam ∨ !s.inSlice ln.f r 64 then .err { eff := Eff.memStack, arg := marg 1 r }
  else
    let q := s.laneNat ln.f (r + 24) 4
    if q = hspNone then waitTokens x [2] (r, none)
    else if !s.inSlice ln.f q 128 then .err { eff := Eff.memStack, arg := marg 1 q }
    else waitTokens x ([2] ++ List.range' 16 16 ++ [s.laneNat ln.f (q + 16) 1]) (r, some q)

/-- The region's result goes back to the handler (R385, R387). -/
def State.returnRegion (s : State) (f r q : Nat) (v : Word) : State :=
  let word (i : Nat) : Word := BitVec.ofNat 32 (s.laneNat f (q + i) 4)
  let regs := wordsOf (s.laneRead f (q + 64) 64)
  let dest := s.laneNat f (q + 16) 1
  let prev := s.laneRead f (q + 20) 4
  let s := s.laneWrite f (r + 24) prev
  let s := s.modFibre f (fun x =>
    { (((x.force (rG 2) (word 4)).setPred (word 12)).forceFrom 16 regs) with hsp := word 8 })
  (s.dstCode f dest v).modFibre f (fun x => x.jump (word 0))

/-- The top record is popped (R385): its tokens are dead (R382). -/
def State.popRecord (s : State) (f r : Nat) : State :=
  let ssp : Word := BitVec.ofNat 32 (s.laneNat f (r + 8) 4)
  let parent : Word := BitVec.ofNat 32 (s.laneNat f (r + 12) 4)
  (s.laneWrite f (r + 20) (leBytes 2 (s.laneNat f (r + 20) 2 + 1))).modFibre f (fun x =>
    { (x.force (rG 2) ssp) with hsp := parent })

/-- UNHANDLE (R385). -/
def execUnhandle (o : SY) (s : State) : Out :=
  .next (runChecked { effNeed o with na := optRegs o.a 1 } (fun ln _ s => unhandlePrep ln s) (fun ln x r s =>
    match r with
    | (r, none) => s.popRecord ln.f r
    | (r, some q) => s.returnRegion ln.f r q (x.a.headD 0)) s.recordsFirst)

/-! ### PERFORM (R386) -/

/-- The g registers that a PERFORM reads though no specifier names them: g2, and under `.multi` those of its snapshot (R159, R378, R379). -/
def performAlso (o : SY) : List Nat := rG 2 :: (if o.fn == 1 then List.range' 16 16 else [])

/-- PERFORM (R386): raise a user effect; D is written by a RESUME only. -/
def execPerform (o : SY) (s : State) : Out :=
  .next (runLanes { effNeed o with na := optRegs o.a 2, nb := optRegs o.b 1, also := performAlso o } (fun ln x s =>
    let e := if o.b.isNone then bits o.imm.toNat 11 0 else bits (x.b.headD 0).toNat 11 0
    if e < 0x100 then s.raise ln (illegal ln.b.word)
    else
      let kind := match o.fn.toNat with
        | 0 => 1
        | 1 => 2
        | _ => 0
      let p : PendEff := { eff := e, arg := wordsNat x.a, kind := kind, dest := encodeSpec o.d, trap := false,
                           rsv := 64 * (o.mod.extractLsb' 0 7).toNat, spc := nextPc ln.b.pc, sxfer := false, simm := 0, capm := false }
      (s.modFibre ln.f (fun y => { y with pc := ln.b.pc, eff := some p, fbuf := none })).tryDeliver ln.f) s)

/-! ### tokcheck (R389) -/

/-- The first check of R389 that a token fails, by its reason; `resume` and `multi` add the checks of RESUME. -/
def State.tokReason (s : State) (f tok : Nat) (resume multi : Bool) : Option Nat :=
  let rec_ := bits tok 15 0
  let tgen := bits tok 63 48
  if bits tok 47 30 ≠ 0 ∨ bits tok 29 26 ≠ (s.teamOf f).brec.slot ∨ bits tok 25 16 ≠ fibNum f then some 3
  else if rec_ % 16 ≠ 0 ∨ !s.inSlice f rec_ 128 then some 4
  else
    let skind := s.laneNat f (rec_ + 18) 1
    let shrec := s.laneNat f (rec_ + 20) 4
    if !bit skind 3 ∨ s.laneNat f (rec_ + 16) 2 ≠ tgen then some 1
    else if shrec ≠ hspTeam ∧ (!s.inSlice f shrec 64 ∨ s.laneNat f (shrec + 20) 2 ≠ tgen) then some 2
    else if resume ∧ skind % 4 = 0 then some 5
    else if resume ∧ multi ∧ skind % 4 = 1 then some 6
    else none

/-- TOKEN.DEAD with the token presented (R390). -/
def tokenDead (tok : Nat) : Err := { eff := Eff.tokenDead, arg := tok }

/-- `S.LIVE := 0` (R387, R388). -/
def State.killToken (s : State) (f rec_ : Nat) : State :=
  s.laneWrite f (rec_ + 18) [BitVec.ofNat 8 (s.laneNat f (rec_ + 18) 1) &&& 0xF7#8]

/-! ### RESUME (R387) -/

/-- The g registers that a resumption restores or writes (R387). -/
def State.restored (s : State) (f rec_ : Nat) : List Nat :=
  let skind := s.laneNat f (rec_ + 18) 1
  [2] ++ (if bit skind 2 then [1, 4, 5, 6, 7, 8] else [s.laneNat f (rec_ + 19) 1]) ++
    (if skind % 4 = 2 then List.range' 16 16 else [])

/-- The checks of RESUME (R387, R389): the suspension record, and the place of the return record of `.multi`. -/
def resumePrep (o : SY) (ln : Ln) (x : Vals) (s : State) : Prep (Nat × Option Nat) :=
  let tok := wordsNat x.a
  match s.tokReason ln.f tok true (o.fn == 1) with
  | some _ => .err (tokenDead tok)
  | none =>
    let rec_ := bits tok 15 0
    let wait (o : Option Nat) := waitTokens (s.fibre ln.f) (s.restored ln.f rec_) (rec_, o)
    if o.fn == 1 then
      let q : Int := ((s.readSp ln / 16 * 16 : Nat) : Int) - 128
      if q < 0 then .err { eff := Eff.memStack, arg := marg 1 q }
      else if !s.inSlice ln.f q.toNat 128 then .err { eff := Eff.memScratch, arg := sarg 1 0 }
      else wait (some q.toNat)
    else wait none

/-- The return record of a `.multi` resumption (R387), with its registers as the contract lets it read them (R155) and its reserved bytes
zero (R9); it becomes the newest of the suspension's handler record; a token of the
team handler has no such record. (DEDUCED, log 19.) -/
def State.pushReturn (s : State) (ln : Ln) (o : SY) (rec_ q g2 : Nat) : State :=
  let x := s.fibre ln.f
  let shrec := s.laneNat ln.f (rec_ + 20) 4
  let prev := if shrec = hspTeam then hspNone else s.laneNat ln.f (shrec + 24) 4
  let s := s.laneWrite ln.f q (leBytes 4 (nextPc ln.b.pc).toNat ++ leBytes 4 g2 ++ leBytes 4 x.hsp.toNat ++
    leBytes 4 (s.readPreds ln.f (ln.l * 128 + 98)) ++ [BitVec.ofNat 8 (encodeSpec o.d)] ++ List.replicate 3 0 ++ leBytes 4 prev ++
    List.replicate 40 0 ++ bytesOf (s.readRegs ln.f (rG 16) (ln.l * 128 + 81) 16))
  if shrec = hspTeam then s else s.laneWrite ln.f (shrec + 24) (leBytes 4 q)

/-- The registers that a `.multi` resumption reads though no specifier names them (R387). -/
def multiReads : List Nat := [rG 2] ++ List.range' (rG 16) 16 ++ List.range' (rP 1) 15

/-- RESUME (R387, R392). -/
def execResume (o : SY) (s : State) : Out :=
  .next (runChecked { effNeed o with na := 2, nb := optRegs o.b 1, imp := if o.fn == 1 then multiReads else [] } (resumePrep o) (fun ln x r s =>
    let g2 := s.readSp ln
    let s := match r.2 with
      | some q => s.pushReturn ln o r.1 q g2
      | none => s
    let s := if s.laneNat ln.f (r.1 + 18) 1 % 4 = 1 ∨ o.fn = 0 then s.killToken ln.f r.1 else s
    s.resumeFrom ln.f r.1 (x.b.headD 0)) s.recordsFirst)

/-! ### UNWIND (R388) and EFFQ (R389) -/

/-- The checks of UNWIND (R388, R389). -/
def unwindPrep (ln : Ln) (x : Vals) (s : State) : Prep Nat :=
  let tok := wordsNat x.a
  match s.tokReason ln.f tok false false with
  | some _ => .err (tokenDead tok)
  | none => waitTokens (s.fibre ln.f) [2, 4] (bits tok 15 0)

/-- UNWIND (R388): of a team token, the value enters the escalation queue and the fibre ends as by EXIT. -/
def execUnwind (o : SY) (s : State) : Out :=
  .next (runChecked { effNeed o with na := 2, nb := optRegs o.b 1 } unwindPrep (fun ln x r s =>
    let v := x.b.headD 0
    let team := s.laneNat ln.f (r + 20) 4 = hspTeam
    let s := s.killToken ln.f r
    if team then
      (s.escalate ln.f 4 (s.laneNat ln.f (r + 24) 4 % 4096) (BitVec.ofNat 32 (s.laneNat ln.f r 4)) v.toNat).endFibre ln.f
    else s.unwindTo ln.f r v) s.recordsFirst)

/-- The word of EFFQ (R389). -/
def State.effqWord (s : State) (f tok : Nat) : Nat :=
  match s.tokReason f tok false false with
  | some r => r
  | none =>
    let rec_ := bits tok 15 0
    let skind := s.laneNat f (rec_ + 18) 1
    s.laneNat f (rec_ + 24) 4 % 4096 * 2 ^ 16 + b2n (bit skind 4) * 2 ^ 7 + b2n (bit skind 2) * 2 ^ 6 + skind % 4 * 2 ^ 4

/-- EFFQ (R389): helper lanes included. -/
def execEffq (o : SY) (s : State) : Out :=
  .next (runLanes { effNeed o with na := 2, wd := 1, live := false } (fun ln x s =>
    s.dstCode ln.f (encodeSpec o.d) (BitVec.ofNat 32 (s.effqWord ln.f (wordsNat x.a)))) s.recordsFirst)

end Sys2Proof.Machine
end

