-- ==== Sys2Proof/Machine/System.lean ====
section
/-!
DEFINITION. The system instructions, opcodes 0xC0-0xC2 (R411-R415), and the words of unimplemented extensions (R80).
-/
namespace Sys2Proof.Machine

/-- Run an instruction that acts once per batch in elect(batch) and writes its result in every lane whose guard is true; with no
live lane, or where that lane does not come to run it, it does nothing (R83, R412, R413). `act` gives the n-register result. Every such lane reads
the operands, though one lane's value is used. (DESIGN CHOICE, log 85.) -/
def electAll (o : SY) (n : Nat) (need : Need) (act : Ln → Vals → State → Nat × State) (s : State) : State :=
  let who := s.cur.bind (s.elect o.guard)
  runBatch need (fun lns s =>
    match lns.find? (fun e => some e.1.l == who) with
    | none => s
    | some e =>
      let (v, s) := act e.1 e.2 s
      lns.foldl (fun s e => s.putD e.1 .v o.d n v) s) s

/-- What SWRITE needs (R411, R412). -/
def swriteNeed (o : SY) : Need := { head := o.toHead, imm := o.imm, nb := 1, wd := 1, priv := true }

/-- SWRITE to ELOGCLR (R412). -/
def execSwriteElogclr (o : SY) (s : State) : Out :=
  .next (electAll o 1 (swriteNeed o) (fun ln _ s =>
    (0, s.modCore (s.coreOf ln.f) (fun c => { c with dlog := [], dover := 0 }))) s)

/-- SWRITE to LOGMARK (R412). -/
def execSwriteLogmark (o : SY) (s : State) : Out :=
  .next (electAll o 1 (swriteNeed o) (fun ln x s =>
    let c := s.coreOf ln.f
    (0, s.logCtx (s.ctxOf ln.f) (.mark (x.b.headD 0).toNat (c % 128) (c / 128) (s.core c).clk))) s)

/-- SWRITE to a number that names no register (R412): no effect, status NOREG. -/
def execSwrite (o : SY) (s : State) : Out := .next (electAll o 1 (swriteNeed o) (fun _ _ s => (1, s)) s)

/-- What ERRQ needs (R411). -/
def errqNeed (o : SY) (wd : Nat) : Need := { head := o.toHead, imm := o.imm, wd := wd }

/-- The oldest entry of a context in a core's data-error log (R413). -/
def oldestError (c : Core) (ctx : Nat) : Option (Nat × Nat) := c.dlog.find? (fun e => e.1 == ctx)

/-- ERRQ.pop (R413). -/
def execErrqPop (o : SY) (s : State) : Out :=
  .next (electAll o 2 (errqNeed o 2) (fun ln _ s =>
    let c := s.coreOf ln.f
    match oldestError (s.core c) (s.ctxOf ln.f) with
    | none => (0, s)
    | some e => (e.2, s.modCore c (fun x => { x with dlog := x.dlog.erase e }))) s)

/-- ERRQ.peek (R413). -/
def execErrqPeek (o : SY) (s : State) : Out :=
  .next (electAll o 2 (errqNeed o 2) (fun ln _ s =>
    (((oldestError (s.core (s.coreOf ln.f)) (s.ctxOf ln.f)).map (·.2)).getD 0, s)) s)

/-- ERRQ.cnt (R413). -/
def execErrqCnt (o : SY) (s : State) : Out :=
  .next (electAll o 1 (errqNeed o 1) (fun ln _ s => ((s.core (s.coreOf ln.f)).dover % 2 ^ 16, s)) s)

/-- BKPT (R414): DEBUG in each live lane. -/
def execBkpt (o : SY) (s : State) : Out :=
  .next (runLanes { head := o.toHead, imm := o.imm, live := true } (fun ln _ s =>
    s.raise ln { eff := Eff.debug, arg := bits o.imm.toNat 15 0 * 2 ^ 32 + ln.b.pc.toNat }) s)

/-- A word of an unimplemented extension (R79, R80, R81): each lane whose guard is true raises ISA.MISSING with the word; a helper
lane treats it as NOP. -/
def execIsaMissing (w : IWord) (s : State) : Out :=
  .next (match s.cur with
    | none => s
    | some b =>
      let g : Guard := { gp := (w.extractLsb' 84 4).toFin, gn := w.getLsbD 83 }
      b.lanes.foldl (fun s l =>
        let ln : Ln := { b := b, l := l, f := b.fib l, k0 := 0 }
        if s.guard b l g && !(s.fibre ln.f).helper then s.raise ln { eff := Eff.isaMissing, arg := wordArg w }
        else s.pass ln.f b.pc) s)

end Sys2Proof.Machine
end

