-- ==== Sys2Proof/Machine/Blocks.lean ====
section
/-!
DEFINITION. Launch blocks (R95-R99) and their checks, the sweep order (R120), what a team takes of the partition's cores and the
choice of cores (R115, R118, R124-R126).
-/
namespace Sys2Proof.Machine

/-! ### Reading a launch block (R95-R98) -/

/-- A role record (R97). -/
def roleOfBytes (b : List Byte) : RoleRec :=
  { epc := BitVec.ofNat 32 (fieldAt b 0 4), ergn := fieldAt b 4 2, regs := fieldAt b 6 1, packs := fieldAt b 7 1,
    lanes := fieldAt b 8 1 }

/-- A bucket record (R98). -/
def bucketOfBytes (b : List Byte) : Bucket :=
  { ranges := (List.range 4).map (fun j => (fieldAt b (8 * j) 4, fieldAt b (8 * j + 4) 4)),
    bpc := BitVec.ofNat 32 (fieldAt b 32 4), brole := fieldAt b 36 1 }

/-- Record i of n bytes from an offset. -/
def recordAt (b : List Byte) (off n i : Nat) : List Byte := byteSlice b (off + n * i) n

/-- The launch block in 448 bytes (R95). -/
def blockOfBytes (b : List Byte) : Block :=
  let f := fieldAt b
  { zeroLane := bit (f 1 1) 0, strictlat := bit (f 1 1) 1, qgroup := bits (f 1 1) 3 2, queue := bits (f 2 1) 2 0,
    prio := bits (f 2 1) 6 4, scope := f 3 1, order := f 4 1, gx := f 8 2, gy := f 0xA 2, gz := f 0xC 2, sbh := f 0xE 2,
    hpc := BitVec.ofNat 32 (f 0x10 4), hrgn := f 0x14 2, scratch := f 0x18 4, quadexp := f 0x1C 4, tundish := f 0x20 4,
    lane := f 0x24 2, acc := f 0x26 1, wslots := f 0x27 1,
    roles := (List.range 4).map (fun i => roleOfBytes (recordAt b 0x30 16 i)),
    deps := (List.range (f 5 1)).map (fun i =>
      (sext (f (0x70 + 3 * i) 1) 8, sext (f (0x71 + 3 * i) 1) 8, sext (f (0x72 + 3 * i) 1) 8)),
    buckets := (List.range (f 6 1)).map (fun i => bucketOfBytes (recordAt b 0x80 40 i)) }

/-- Bytes that must be zero. -/
def zeroBytes (b : List Byte) (off n : Nat) : Bool := (byteSlice b off n).all (· == 0)

/-- Entry h of a context is a valid code entry (R92). -/
def State.codeEntry (s : State) (c h : Nat) : Option Entry :=
  let e : Entry := { raw := s.rawEntry c h, ext := [] }
  if decide (5 ≤ h ∧ h ≤ 4094) && e.kind == 6 && e.codeOk then some e else none

/-- A slot address inside the region of a code entry (R97, R98). -/
def slotInside (e : Option Entry) (pc : Word) : Bool :=
  match e with
  | none => false
  | some e => isSlot pc && decide (e.base ≤ pc.toNat ∧ pc.toNat < e.base + 64 * e.lines)

/-- The checks of R97 on a role record, with the code entries that `entry` finds. -/
def roleOk (entry : Nat → Option Entry) (b : List Byte) : Bool :=
  let r := roleOfBytes b
  if r.packs = 0 then b.all (· == 0)
  else
    decide (r.packs ≤ 32 ∧ 16 ≤ r.regs ∧ r.regs ≤ 128 ∧ r.regs % 8 = 0 ∧ 1 ≤ r.lanes ∧ r.lanes ≤ 32) && zeroBytes b 9 7 &&
      slotInside (entry r.ergn) r.epc

/-- The checks of R98 on a bucket record. -/
def bucketOk (entry : Nat → Option Entry) (roles : List RoleRec) (b : List Byte) : Bool :=
  let k := bucketOfBytes b
  let r := roles.getD k.brole default
  decide (k.brole < 4) && zeroBytes b 37 3 && r.packs != 0 && slotInside (entry r.ergn) k.bpc

/-- The fields of a block, each by its offset, with what R95, R97, R98 and R99 ask of it. -/
def blockChecks (entry : Nat → Option Entry) (b : List Byte) : List (Nat × Bool) :=
  let k := blockOfBytes b
  let f := fieldAt b
  let ndep := f 5 1
  let nbkt := f 6 1
  [(0x00, f 0 1 == 1), (0x01, f 1 1 / 16 == 0 && decide (k.qgroup ≤ 2)), (0x02, !bit (f 2 1) 7 && !bit (f 2 1) 3),
    (0x03, decide (1 ≤ k.scope ∧ k.scope ≤ 5)), (0x04, decide (k.order ≤ 5)), (0x05, decide (ndep ≤ 4)), (0x06, decide (nbkt ≤ 8)),
    (0x07, f 7 1 == 0), (0x08, decide (1 ≤ k.gx)), (0x0A, decide (1 ≤ k.gy)), (0x0C, decide (1 ≤ k.gz)), (0x0E, decide (k.sbh < 4096)),
    (0x10, k.hrgn != 0 || k.hpc == 0), (0x14, k.hrgn == 0 || decide (k.hrgn < 4096) && (entry k.hrgn).isSome), (0x16, zeroBytes b 0x16 2),
    (0x18, decide (k.scratch % 256 = 0 ∧ k.scratch ≤ 786432)), (0x1C, decide (k.quadexp % 256 = 0 ∧ k.quadexp ≤ 262144)),
    (0x20, decide (k.tundish % 4096 = 0 ∧ k.tundish ≤ 67108864)), (0x24, decide (k.lane % 256 = 0 ∧ k.lane ≤ 8192)),
    (0x26, decide (k.acc ≤ 8)), (0x27, decide (k.wslots ≤ 64)), (0x28, zeroBytes b 0x28 8)] ++
  (List.range 4).map (fun i => (0x30 + 16 * i, roleOk entry (recordAt b 0x30 16 i))) ++
  [(0x30, k.roles.any (fun r => r.packs != 0) && decide (k.packs ≤ 32)),
    (0x70, k.deps.all (fun d => decide (-15 ≤ d.1 ∧ d.1 ≤ 15 ∧ -15 ≤ d.2.1 ∧ d.2.1 ≤ 15 ∧ -15 ≤ d.2.2 ∧ d.2.2 ≤ 15)) &&
      zeroBytes b (0x70 + 3 * ndep) (12 - 3 * ndep)), (0x7C, zeroBytes b 0x7C 4)] ++
  (List.range nbkt).map (fun i => (0x80 + 40 * i, bucketOk entry k.roles (recordAt b 0x80 40 i))) ++
  [(0x80 + 40 * nbkt, zeroBytes b (0x80 + 40 * nbkt) (320 - 40 * nbkt))]

/-- block_valid of R111, less what names code entries: R95, R97, R98 and R99 on the bytes of a block. -/
def blockOk (entry : Nat → Option Entry) (b : List Byte) : Bool := (blockChecks entry b).all (·.2)

/-! ### The sweep (R99, R116, R120) -/

/-- The axes of an `ORDER` code, the most significant first: 0 x, 1 y, 2 z (R99). -/
def orderAxes (o : Nat) : List Nat :=
  match o with
  | 0 => [2, 1, 0]
  | 1 => [2, 0, 1]
  | 2 => [1, 2, 0]
  | 3 => [1, 0, 2]
  | 4 => [0, 2, 1]
  | _ => [0, 1, 2]

/-- Lexicographically positive in an order (R99). -/
def depPositive (o : Nat) (d : Int × Int × Int) : Bool :=
  let c (a : Nat) : Int := if a = 0 then d.1 else if a = 1 then d.2.1 else d.2.2
  match (orderAxes o).find? (fun a => c a != 0) with
  | none => false
  | some a => decide (0 < c a)

namespace Block

/-- The extent of an axis. -/
def extent (b : Block) (a : Nat) : Nat := if a = 0 then b.gx else if a = 1 then b.gy else b.gz
/-- The teams of the grid. -/
def teams (b : Block) : Nat := b.gx * b.gy * b.gz
/-- The number t of a team (R100). -/
def teamNo (b : Block) (x y z : Nat) : Nat := x + b.gx * (y + b.gy * z)
/-- The coordinates of a team. -/
def coords (b : Block) (t : Nat) : Nat × Nat × Nat := (t % b.gx, t / b.gx % b.gy, t / b.gx / b.gy)
/-- The coordinate of a team on an axis. -/
def coord (b : Block) (t a : Nat) : Nat :=
  let c := b.coords t
  if a = 0 then c.1 else if a = 1 then c.2.1 else c.2.2
/-- The sweep rank of a team (R120). -/
def rank (b : Block) (t : Nat) : Nat := (orderAxes b.order).foldl (fun r a => r * b.extent a + b.coord t a) 0
/-- The team at a sweep rank. -/
def teamAt (b : Block) (r : Nat) : Nat :=
  let c := (orderAxes b.order).reverse.foldl (fun (acc : List (Nat × Nat) × Nat) a =>
    (acc.1 ++ [(a, acc.2 % b.extent a)], acc.2 / b.extent a)) ([], r)
  b.teamNo (mapGetD c.1 0 0) (mapGetD c.1 1 0) (mapGetD c.1 2 0)
/-- The size of a quad group (R95, R116). -/
def group (b : Block) : Nat := 2 ^ b.qgroup
/-- The teams of a team's quad group, member 0 first (R116). -/
def groupOf (b : Block) (t : Nat) : List Nat :=
  let x := t % b.gx
  (List.range b.group).map (fun m => t - x + x / b.group * b.group + m)
/-- The predecessors of a team that lie in the grid (R121). -/
def preds (b : Block) (t : Nat) : List Nat :=
  let c := b.coords t
  b.deps.filterMap (fun d =>
    let x := (c.1 : Int) - d.1
    let y := (c.2.1 : Int) - d.2.1
    let z := (c.2.2 : Int) - d.2.2
    if 0 ≤ x ∧ x < b.gx ∧ 0 ≤ y ∧ y < b.gy ∧ 0 ≤ z ∧ z < b.gz then some (b.teamNo x.toNat y.toNat z.toNat) else none)
/-- The bytes of a scoreboard mirror (R100). -/
def mirrorBytes (b : Block) : Nat := ceilDiv b.teams 8
/-- The scratchpad bytes of a team (R115, R126). -/
def spBytes (b : Block) : Nat := b.scratch + b.quadexp + 32 * b.lane * b.packs
/-- The registers of a team (R115, R126). -/
def rfRegs (b : Block) : Nat := 32 * (b.roles.map (fun r => r.packs * r.regs)).sum

end Block

/-! ### Room (R115, R118, R124-R126) -/

/-- The free units of a resource that is allocated contiguously (R126): base and length of each free range. -/
abbrev Gaps := List (Nat × Nat)

namespace Gaps

/-- Whether n units lie free side by side. -/
def holds (g : Gaps) (n : Nat) : Bool := n == 0 || g.any (fun e => decide (n ≤ e.2))
/-- How many runs of n units lie free. -/
def count (g : Gaps) (n : Nat) : Nat := (g.map (fun e => e.2 / n)).sum
/-- n units from a base are taken. -/
def cut (g : Gaps) (base n : Nat) : Gaps :=
  (g.flatMap (fun e => [(e.1, min e.2 (base - e.1)), (max e.1 (base + n), e.1 + e.2 - max e.1 (base + n))])).filter (fun e => e.2 != 0)
/-- n units are taken, the first that lie free side by side. -/
def take (g : Gaps) (n : Nat) : Gaps :=
  match g.find? (fun e => decide (n ≤ e.2)) with
  | some e => g.cut e.1 n
  | none => g

end Gaps

/-- What a core has free: register-file units of 256 registers, scratchpad units of 256 bytes (R126). -/
structure Free where
  slots : Nat
  packs : Gaps
  regs : Gaps
  scratch : Gaps
  tiles : Nat
  wslots : Gaps
  deriving DecidableEq, Repr, Inhabited

/-- The units of a team on its core and in its Tundish share (R126). -/
def Block.rfUnits (b : Block) : Nat := ceilDiv b.rfRegs 256
def Block.spUnits (b : Block) : Nat := ceilDiv b.spBytes 256
def Block.tdUnits (b : Block) : Nat := ceilDiv b.tundish 4096

/-- An empty core (R11, R14, R115). -/
def Free.whole : Free :=
  { slots := 16, packs := [(0, 64)], regs := [(0, 512)], scratch := [(0, 3072)], tiles := 8, wslots := [(0, 64)] }

/-- A team of a block finds room on a core, beside a slot: its packs, registers, scratchpad and weight slots each side by side (R126). -/
def Free.holds (f : Free) (b : Block) : Bool :=
  f.packs.holds b.packs && f.regs.holds b.rfUnits && f.scratch.holds b.spUnits && decide (b.acc ≤ f.tiles) && f.wslots.holds b.wslots
/-- The same, with a free slot. -/
def Free.fits (f : Free) (b : Block) : Bool := decide (1 ≤ f.slots) && f.holds b

/-- What is left once a team of a block takes its part, without its slot. -/
def Free.take (f : Free) (b : Block) : Free :=
  { f with packs := f.packs.take b.packs, regs := f.regs.take b.rfUnits, scratch := f.scratch.take b.spUnits, tiles := f.tiles - b.acc,
           wslots := f.wslots.take b.wslots }
/-- The same, where its record names its places (R126). -/
def Free.cut (f : Free) (b : Block) (r : BindRec) : Free :=
  { f with packs := f.packs.cut r.pkBase b.packs, regs := f.regs.cut r.rfBase b.rfUnits, scratch := f.scratch.cut r.spBase b.spUnits,
           tiles := f.tiles - b.acc, wslots := f.wslots.cut r.wsBase b.wslots }
/-- A slot less. -/
def Free.slotLess (f : Free) : Free := { f with slots := f.slots - 1 }

/-- The free parts of a partition's cores, and of its Tundish share by die. -/
structure Room where
  cores : Map Free
  tun : Map Gaps
  deriving DecidableEq, Repr, Inhabited

namespace Room
def free (r : Room) (c : Nat) : Free := mapGetD r.cores c { slots := 0, packs := [], regs := [], scratch := [], tiles := 0, wslots := [] }
def tunOf (r : Room) (die : Nat) : Gaps := mapGetD r.tun die []
/-- A core has room for a team whose slot is kept for it (R407). -/
def holds (r : Room) (b : Block) (c : Nat) : Bool := (r.free c).holds b && (r.tunOf (c / 128)).holds b.tdUnits
/-- A core has room for a team. -/
def has (r : Room) (b : Block) (c : Nat) : Bool := (r.free c).fits b && (r.tunOf (c / 128)).holds b.tdUnits
/-- A team takes its part of a core, beside its slot. -/
def take (r : Room) (b : Block) (c : Nat) : Room :=
  { cores := mapMod r.cores c (fun f => f.take b), tun := mapMod r.tun (c / 128) (fun g => g.take b.tdUnits) }
/-- A team takes its part of a core. -/
def put (r : Room) (b : Block) (c : Nat) : Room := { r.take b c with cores := mapMod (r.take b c).cores c Free.slotLess }
/-- Insert a core by the order of R124: most free slots, then the lower %die and %core. -/
def ins (r : Room) (c : Nat) : List Nat → List Nat
  | [] => [c]
  | d :: ds =>
    let a := (r.free c).slots
    let b := (r.free d).slots
    if b < a ∨ (a = b ∧ c ≤ d) then c :: d :: ds else d :: ins r c ds
/-- Cores in that order. -/
def sort (r : Room) (cs : List Nat) : List Nat := cs.foldr r.ins []
end Room

/-- The instance of a launch scope that holds a core (R323): its number within the package. -/
def instOf (scope core : Nat) : Nat :=
  match scope with
  | 1 => core
  | 2 => core / 4
  | 3 => core / 128
  | _ => 0

/-- What is to be bound of one quad group: how many members, and the cores of those bound already (R116, R127). -/
structure Ask where
  n : Nat
  used : List Nat
  deriving DecidableEq, Repr, Inhabited

namespace Room

/-- The cores for the members of one quad group of a block among those listed (R116, R124), member 0 first. -/
def group (r : Room) (b : Block) (cores : List Nat) (a : Ask) : Option (List Nat) :=
  if b.group = 1 then (r.sort (cores.filter (r.has b))).head?.map (fun c => [c])
  else
    let cores := match a.used with
      | [] => cores
      | u :: _ => cores.filter (fun c => c / 4 == u / 4 && !a.used.contains c)
    let fit (q : Nat) : List Nat := r.sort ((cores.filter (fun c => c / 4 == q)).filter (r.has b))
    let ok (q : Nat) : Bool := decide (a.n ≤ (fit q).length) && (b.tdUnits == 0 || decide (a.n ≤ (r.tunOf (q * 4 / 128)).count b.tdUnits))
    match (r.sort (cores.filter (fun c => ok (c / 4)))).head? with
    | none => none
    | some c => some ((fit (c / 4)).take a.n)

/-- Place quad groups one after another. (DEDUCED, log 23.) -/
def groups (b : Block) (cores : List Nat) : List Ask → Room → Option (List (List Nat))
  | [], _ => some []
  | a :: as, r =>
    match r.group b cores a with
    | none => none
    | some cs => (groups b cores as (cs.foldl (fun r c => r.put b c) r)).map (cs :: ·)

/-- The cores of quad groups that are bound in one step (R124, R125): in the instance of `SCOPE` with room for all of them that
holds the core with the most free slots, or in the instance that is fixed already. -/
def choose (r : Room) (b : Block) (as : List Ask) (home : Option Nat) : Option (List (List Nat)) :=
  let all := r.cores.map (·.1)
  let inst (i : Nat) : List Nat := all.filter (fun c => instOf b.scope c == i)
  match home with
  | some i => groups b (inst i) as r
  | none => (r.sort all).findSome? (fun c => groups b (inst (instOf b.scope c)) as r)

end Room

/-- A partition's Tundish share on a die, in 4 KiB units (R118). -/
def Partition.share (p : Partition) (die : Nat) : Nat := (mapGetD p.tun die (0, 0)).2
/-- Where that share begins on the die, in 4 KiB units. -/
def Partition.shareBase (p : Partition) (die : Nat) : Nat := (mapGetD p.tun die (0, 0)).1

namespace State

/-- The cores of a partition (R118). -/
def partCores (s : State) (p : Nat) : List Nat :=
  (mapGetD s.parts p default).quads.flatMap (fun q => (List.range 4).map (fun i => coreKey q.1 (q.2 * 4 + i)))

/-- The partition of a context. -/
def partOf (s : State) (c : Nat) : Partition := mapGetD s.parts (s.ctx c).part default

/-- The room of a partition whose cores are empty (R115). -/
def emptyRoom (s : State) (p : Nat) : Room :=
  let cs := s.partCores p
  { cores := cs.foldl (fun m c => mapSet m c Free.whole) [],
    tun := cs.foldl (fun m c => mapSet m (c / 128)
      [((mapGetD s.parts p default).shareBase (c / 128), (mapGetD s.parts p default).share (c / 128))]) [] }

/-- The room of a partition now: the units that no record names, side by side as they lie (R126); a halted team that has been saved keeps
its slot alone (R407). -/
def roomNow (s : State) (p : Nat) : Room :=
  s.teams.foldl (fun r e =>
    let T := e.2
    let b := (s.launchOfTeam e.1).blk
    let c := coreKey T.die T.core
    if T.saved.isSome then { r with cores := mapMod r.cores c Free.slotLess }
    else
      { cores := mapMod r.cores c (fun f => (f.cut b T.brec).slotLess),
        tun := mapMod r.tun T.die (fun g => g.cut T.brec.tdBase b.tdUnits) }) (s.emptyRoom p)

end State

end Sys2Proof.Machine
end

