-- ==== Sys2Proof/Machine/Launch.lean ====
section
/-!
DEFINITION. LAUNCH, opcode 0xB5 (R110-R113), acceptance (R114, R115, R119), the release engine and its mirror (R100, R117, R121),
and the completion of a launch (R422-R425).
-/
namespace Sys2Proof

/-- `RTYPE` of a message's header (R429). -/
def Msg.rtype (m : Msg) : Nat := Machine.fieldAt m.head 0 2
/-- `RFLAGS`. -/
def Msg.flags (m : Msg) : Nat := Machine.fieldAt m.head 2 2
/-- `RCTX`. -/
def Msg.ctx (m : Msg) : Nat := Machine.fieldAt m.head 4 4
/-- `REQID`. -/
def Msg.reqId (m : Msg) : Nat := Machine.fieldAt m.head 8 8
/-- `RLEN`. -/
def Msg.rlen (m : Msg) : Nat := Machine.fieldAt m.head 16 4
/-- The message with which the control process asks Cupola for something that is none of the ten requests (R106). -/
def Msg.own (c : Nat) : Msg :=
  { flow := 0, head := Machine.leBytes 4 0 ++ Machine.leBytes 4 c ++ List.replicate 24 0, len := 0, again := false }

end Sys2Proof

namespace Sys2Proof.Machine

/-- A scope code as a scope (R78). -/
def scopeAt (n : Nat) : Scope := (scopeOfCode n).getD .pkg

/-! ### Messages (R429) -/

/-- The header of a reply: `RTYPE`, `RCTX` and `REQID` of the request, a status, the length of the payload (R429). -/
def replyHead (m : Msg) (rstat len : Nat) : List Byte :=
  leBytes 2 m.rtype ++ leBytes 2 0 ++ leBytes 4 m.ctx ++ leBytes 8 m.reqId ++ leBytes 4 len ++ leBytes 4 rstat ++ leBytes 8 0

/-- Cupola answers a request (R429). -/
def State.answer (s : State) (m : Msg) (rstat : Nat) (data : List Byte) : State :=
  s.modMod (fun x => { x with answers := x.answers ++ [{ flow := m.flow, head := replyHead m rstat data.length, data := data }] })

/-! ### LAUNCH (R111) -/

/-- How many launches a queue of a context holds or is about to hold (R113). -/
def State.queueLoad (s : State) (c q : Nat) : Nat :=
  (mapGetD (s.ctx c).queues q []).length + ((s.ctx c).submits.filter (fun x => x.blk.queue == q)).length

/-- The checks of LAUNCH before its read (R111, R248); a LAUNCH that waited has made them and read its block. -/
def launchPrep (o : SY) (ln : Ln) (x : Vals) (s : State) : Prep (Option Acc) :=
  let h := (immHandle o.imm).toNat
  let off := eaOff (immOffset o.imm) x.a
  if (s.fibre ln.f).launching.isSome then .ok none
  else if s.acqHeld ln.f then .stall
  else
    match s.kindErr ln.f h off [1, 2, 3, 4, 5] with
    | some e => .err e
    | none =>
      match s.check ln.f h off { spaces := [1, 2, 3, 4, 5], n := 448, align := 64, rd := true } with
      | .error e => .err e
      | .ok a => .ok (some a)

/-- Hand a launch to its queue (R111, R114). -/
def State.submit (s : State) (c : Nat) (x : Submit) : State := s.modCtx c (fun y => { y with submits := y.submits ++ [x] })

/-- LAUNCH in a lane whose block is valid (R111, R113, R159): room and a token entry first, then the release, the token and the launch. -/
def launchWith (o : SY) (ln : Ln) (shape : List Word) (blk : Block) (s : State) : State :=
  let c := s.ctxOf ln.f
  if 64 ≤ s.queueLoad c blk.queue then s.waitAt ln (.launchRoom blk.queue)
  else if tokFull (s.fibre ln.f) (gOf o.d) then s.waitAt ln .tokTable
  else
    afterRelease s ln (scopeAt blk.scope) (fun s =>
      ((s.tokOpen ln.f (gOf o.d)).modFibre ln.f (fun x => { x with launching := none })).submit c
        { name := none, msg := none, blk := blk, shape := shape, after := o.fn.getLsbD 0, whole := o.fn.getLsbD 1,
          parent := some (launchKey c (s.team ln.b.team).lid),
          holder := match gOf o.d with
            | some r => .fibre ln.f r
            | none => .none })

/-- The block of a LAUNCH (R111): read once, and valid, or the lane stops at it. -/
def launchRead (ln : Ln) (a : Acc) (s : State) : Option (List Byte) × State :=
  match (s.touchHandle ln.f a.hnd).readLoc ln.f a 448 (plainHow a) with
  | (.error e, s) => (none, s.stop ln e)
  | (.ok bs, s) =>
    if !blockOk (s.codeEntry (s.ctxOf ln.f)) bs then (none, s.raise ln { eff := Eff.memHandle, arg := marg a.hnd a.final })
    else (some bs, s.modFibre ln.f (fun x => { x with launching := some (s.tick, bs) }))

/-- LAUNCH (R110, R111). -/
def execLaunch (o : SY) (s : State) : Out :=
  .next (runChecked { head := o.toHead, imm := o.imm, na := baseRegs (immHandle o.imm) o.a, nb := optRegs o.b 4, live := true,
                      tokD := true } (launchPrep o)
    (fun ln x a s =>
      let got : Option (List Byte) × State := match a with
        | none => ((s.fibre ln.f).launching.map (·.2), s)
        | some a => launchRead ln a s
      match got with
      | (none, s) => s
      | (some bs, s) => launchWith o ln (if o.b.isNone then [0, 0, 0, 0] else x.b) (blockOfBytes bs) s) s)

/-! ### The scoreboard mirror (R100) -/

/-- Byte i of a scoreboard (R100). -/
def scoreByte (score : List Nat) (i : Nat) : Byte :=
  (List.range 8).foldl (fun v j => if score.contains (8 * i + j) then v ||| BitVec.ofNat 8 (2 ^ j) else v) 0

namespace State

/-- A mirror byte of kind 1 at home (R100): an absent page is made resident first, and a byte that no longer translates is dropped
and logged, as is one whose page finds no free frame (DESIGN CHOICE, log 27). None while home stalls the write (R263, R265). -/
def mirrorHome (s : State) (c lid va : Nat) (b : Byte) : Option State :=
  let put (s : State) (x : Xl) : Option State := if s.frozen x.pa then none else some (s.homeWrite (paDie x.pa) x.pa x.key [b])
  let drop (s : State) : Option State := some (s.logCtx c (.scoreboardDropped lid va))
  let go (s : State) : Except XErr Xl × State :=
    match s.translate .port c va .write with
    | (.ok x, s) => s.resolve .port c va .write x
    | r => r
  match go s with
  | (.ok x, s) => put s x
  | (.error .held, _) => none
  | (.error .nonres, s) =>
    match s.pickFrame 300 (s.leafPages c va) with
    | none => drop s
    | some fr =>
      match go (s.makeResident c va fr) with
      | (.ok x, s) => put s x
      | (.error .held, _) => none
      | (.error _, s) => drop s
  | (.error _, s) => drop s

/-- The teams of a launch whose Tundish copy of the mirror is kept: bound, dispatched and not halted (R100). -/
def mirrorTeams (s : State) (c lid : Nat) : List Nat :=
  (s.teams.filter (fun e => e.2.ctx == c && e.2.lid == lid && e.2.phase != .bound && !e.2.halted)).map (·.1)

/-- One mirror byte, as the scoreboard stands, through the entry as it is now (R100): where its kind is no longer 1 or 5 the byte is
dropped and logged (DESIGN CHOICE, log 27). None while home stalls it. -/
def mirrorByte (s : State) (c lid i : Nat) : Option State :=
  let L := s.launch (launchKey c lid)
  let e : Entry := { raw := s.rawEntry c L.blk.sbh, ext := [] }
  if e.kind = 5 then
    some ((s.mirrorTeams c lid).foldl (fun s t => s.placeWrite [scoreByte L.score i] (s.ownTundish t (e.base + i))) s)
  else if e.kind = 1 then s.mirrorHome c lid (e.base + i) (scoreByte L.score i)
  else some (s.logCtx c (.scoreboardDropped lid (e.base + i)))

/-- Write mirror bytes in turn; none while home stalls one of them (R100, R265). -/
def mirrorWrite (s : State) (c lid : Nat) : List Nat → Option State
  | [] => some s
  | i :: is =>
    if (s.launch (launchKey c lid)).blk.sbh = 0 then some s
    else
      match s.mirrorByte c lid i with
      | none => none
      | some s => State.mirrorWrite s c lid is

/-- The whole mirror in one team's Tundish copy (R100: at a first start and at a resumption). -/
def mirrorInto (s : State) (t : Nat) : State :=
  let L := s.launchOfTeam t
  let e : Entry := { raw := s.rawEntry L.ctx L.blk.sbh, ext := [] }
  if L.blk.sbh ≠ 0 ∧ e.kind = 5 then
    s.placeWrite ((List.range L.blk.mirrorBytes).map (scoreByte L.score)) (s.ownTundish t e.base)
  else s

/-! ### The release engine (R117, R121, R122) -/

/-- Every team of a launch has been bound at least once (R117). -/
def fullyBound (s : State) (k : Nat) : Bool := decide ((s.launch k).blk.teams ≤ (s.launch k).bound.length)

/-- The launches of a queue behind its head that are active (R117). -/
def activeBehind (s : State) (c : Nat) : List Nat → Bool → List Nat
  | [], _ => []
  | lid :: rest, full =>
    if full && !(s.launch (launchKey c lid)).after then lid :: activeBehind s c rest (s.fullyBound (launchKey c lid)) else []

/-- The active launches of a queue (R117). -/
def actives (s : State) (c : Nat) : List Nat → List Nat
  | [] => []
  | lid :: rest => lid :: s.activeBehind c rest (s.fullyBound (launchKey c lid))

/-- Eligible on its own: not released, and every predecessor's bit set (R121). -/
def Launch.ready (L : Launch) (t : Nat) : Bool := !L.released.contains t && (L.blk.preds t).all L.score.contains

/-- The teams of an active launch that become released, in ascending sweep rank; a quad group as a whole (R116, R121). -/
def Launch.newly (L : Launch) : List Nat :=
  ((List.range L.blk.teams).map L.blk.teamAt).filter (fun t => (L.blk.groupOf t).all (Launch.ready L))

/-- An active launch releases its eligible teams, and each is an event of the release engine (R121, R129). -/
def releaseNew (s : State) (c lid : Nat) : State :=
  let new := Launch.newly (s.launch (launchKey c lid))
  (s.modLaunch (launchKey c lid) (fun x => { x with released := x.released ++ new })).modMod (fun m =>
    { m with log := m.log ++ new.map (SysLog.released c lid) })

/-- The release engine serves an active launch; before its first release its scoreboard and its mirror are cleared (R100, R121), which
may have to wait for a page (R265). -/
def releaseLaunch (s : State) (c lid : Nat) : State :=
  let k := launchKey c lid
  let L := s.launch k
  if L.started then s.releaseNew c lid
  else
    match (s.modLaunch k (fun x => { x with started := true, score := [] })).mirrorWrite c lid (List.range L.blk.mirrorBytes) with
    | none => s
    | some s => s.releaseNew c lid

/-- The release engine recomputes the eligibility of a context's launches (R121, R122). -/
def releaseAll (s : State) (c : Nat) : State :=
  (s.ctx c).queues.foldl (fun s q => (s.actives c q.2).foldl (fun s lid => s.releaseLaunch c lid) s) s

/-! ### Completion (R422-R425) -/

/-- The token value of a completed launch (R425). -/
def launchValue (L : Launch) : Nat := if L.failed = 0 then 0 else 2 ^ 24 + min L.failed (2 ^ 24 - 1)

/-- A launch token is written (R424, R425): through its fibre's epoch, or held for WAIT. -/
def writeLaunchToken (s : State) (h : Holder) (v : Nat) (acq : Option Scope) : State :=
  match h with
  | .fibre f r => s.tokClose f (some r) (fun t => { t with launches := t.launches ++ [v], acq := t.acq ++ acq.toList })
  | _ => s

/-- The launches that wait for a completion are answered (R430). -/
def answerWaits (s : State) (c lid v : Nat) : State :=
  let mine := s.mod.waits.filter (fun w => w.1.ctx == c && w.2 == lid)
  let s := s.modMod (fun m => { m with waits := m.waits.filter (fun w => !(w.1.ctx == c && w.2 == lid)) })
  mine.foldl (fun s w => s.answer w.1 0 (leBytes 4 v)) s

/-- The cores of a partition that are not as at reset. -/
def coresIn (s : State) (p : Nat) : List Nat := (s.cores.map (·.1)).filter (s.partCores p).contains

/-- An acquire at a scope on every core of a partition (R117, R326). (DEDUCED, log 26.) -/
def acquirePart (s : State) (p : Nat) (sc : Scope) : State := (s.coresIn p).foldl (fun s c => s.acquireCore c sc none) s

/-- The release of a completion (R424, step 1), on every core of its partition (R325). (DEDUCED, log 26.) -/
def releasePart (s : State) (p : Nat) (sc : Scope) : State := if beyondCore sc then (s.coresIn p).foldl State.writeBackAll s else s

/-- Whether that release waits for a frozen frame (R265). -/
def partWaits (s : State) (p : Nat) (sc : Scope) : Bool := beyondCore sc && (s.coresIn p).any s.dirtyLeft

/-- A context has work: bound, halted or queued (R402). -/
def hasWork (s : State) (c : Nat) : Bool :=
  s.teams.any (fun e => e.2.ctx == c) || (s.ctx c).queues.any (fun q => !q.2.isEmpty) || !(s.ctx c).submits.isEmpty

/-- A context without work holds no ASID (R402). -/
def restAsids (s : State) (c : Nat) : State := if s.hasWork c then s else s.modCtx c (fun x => { x with asids := [] })

/-- The launch right behind another in a queue. -/
def behindOf (lid : Nat) : List Nat → Option Nat
  | [] => none
  | a :: rest => if a = lid then rest.head? else behindOf lid rest

/-- A queue entry frees; a launch right behind it that carries AFTER need wait no longer, and what it starts acquires at the scope of
the launch that has completed (R113, R117, R424). -/
def freeEntry (s : State) (c lid : Nat) : State :=
  let L := s.launch (launchKey c lid)
  let q := mapGetD (s.ctx c).queues L.blk.queue []
  let s := s.modCtx c (fun x => { x with queues := mapSet x.queues L.blk.queue (q.filter (· != lid)) })
  match behindOf lid q with
  | none => s
  | some n =>
    if (s.launch (launchKey c n)).after then
      (s.modLaunch (launchKey c n) (fun x => { x with after := false })).acquirePart (s.ctx c).part (scopeAt L.blk.scope)
    else s

/-- An armed halt point on a launch that completes is disarmed (R410). -/
def dropPoint (s : State) (c lid : Nat) : State :=
  s.modCtx c (fun x => if x.point.bind (·.attached) = some lid then { x with point := none } else x)

/-- A child of a launch is handed over and not yet accepted, so that the parent's root does not count it yet (R423). -/
def childDue (s : State) (c k : Nat) : Bool := (s.ctx c).submits.any (fun x => x.parent == some k)

/-- A launch whose root has returned to 0 completes (R422-R424), and then perhaps its parent; its release may have to wait. -/
def complete (s : State) : Nat → Nat → State
  | 0, _ => s
  | fuel + 1, k =>
    match s.launch? k with
    | none => s
    | some L =>
      if L.root ≠ 0 ∨ L.done ∨ s.childDue L.ctx k then s
      else
        let sc := scopeAt L.blk.scope
        let s := s.releasePart (s.ctx L.ctx).part sc
        if s.partWaits (s.ctx L.ctx).part sc then s
        else
          let v := launchValue L
          let s := s.modLaunch k (fun x => { x with done := true, value := v, score := [] })
          let s := s.modMod (fun m => { m with log := m.log ++ [SysLog.completed L.ctx L.lid v] })
          let s := s.writeLaunchToken L.holder v (some sc)
          let s := ((s.freeEntry L.ctx L.lid).dropPoint L.ctx L.lid).answerWaits L.ctx L.lid v
          match L.parent with
          | none => s.restAsids L.ctx
          | some p => State.complete (s.modLaunch p (fun x => { x with root := x.root - 1 })) fuel p

/-- What of a context's releases and completions had to wait for a page goes on (R265). -/
def catchUp (s : State) (c : Nat) : State :=
  ((s.launches.filter (fun e => e.2.ctx == c && e.2.root == 0 && !e.2.done)).foldl (fun s e => s.complete (s.launches.length + 1) e.1) s).releaseAll c

/-! ### The tree's counters (R422) -/

/-- A team of a launch enters the tree on its core at its first bind (R422). -/
def treeIn (s : State) (k core : Nat) : State :=
  s.modLaunch k (fun L =>
    let q := core / 4
    let d := core / 128
    let c0 := mapGetD L.coreCnt core 0
    let q0 := mapGetD L.quadCnt q 0
    let d0 := mapGetD L.dieCnt d 0
    let newC := c0 == 0
    let newQ := newC && q0 == 0
    let newD := newQ && d0 == 0
    { L with coreCnt := mapSet L.coreCnt core (c0 + 1), quadCnt := mapSet L.quadCnt q (q0 + b2n newC),
             dieCnt := mapSet L.dieCnt d (d0 + b2n newQ), root := L.root - 1 + b2n newD })

/-- A team leaves the tree when it retires (R422). -/
def treeOut (s : State) (k core : Nat) : State :=
  s.modLaunch k (fun L =>
    let q := core / 4
    let d := core / 128
    let c0 := mapGetD L.coreCnt core 0 - 1
    let q0 := mapGetD L.quadCnt q 0 - b2n (c0 == 0)
    let d0 := mapGetD L.dieCnt d 0 - b2n (c0 == 0 && q0 == 0)
    let put (m : Map Nat) (i n : Nat) : Map Nat := if n = 0 then mapDel m i else mapSet m i n
    { L with coreCnt := put L.coreCnt core c0, quadCnt := put L.quadCnt q q0, dieCnt := put L.dieCnt d d0,
             root := L.root - b2n (c0 == 0 && q0 == 0 && d0 == 0) })

/-- A bind that dispatch refuses is undone: the team counts as never bound (R127, R422). -/
def treeUndo (s : State) (k core : Nat) : State := (s.treeOut k core).modLaunch k (fun L => { L with root := L.root + 1 })

/-! ### Acceptance (R114, R115, R119) -/

/-- The bucket that a shape selects (R119). -/
def bucketFor (bs : List Bucket) (shape : List Word) : Option Nat :=
  (bs.zipIdx.find? (fun e => (e.1.ranges.zipIdx).all (fun r =>
    decide (r.1.1 ≤ (shape.getD r.2 0).toNat ∧ (shape.getD r.2 0).toNat ≤ r.1.2)))).map (·.2)

/-- The scoreboard condition of R100. -/
def scoreOk (s : State) (c : Nat) (b : Block) : Bool :=
  let e : Entry := { raw := s.rawEntry c b.sbh, ext := [] }
  b.sbh == 0 ||
    (decide (5 ≤ b.sbh ∧ b.sbh ≤ 4094) && (e.kind == 1 || e.kind == 5) && e.canWrite && decide (b.mirrorBytes ≤ e.len) &&
      (e.kind == 1 || decide (e.base + b.mirrorBytes ≤ b.tundish)))

/-- The static fit of R115, against empty cores. -/
def fits (s : State) (c : Nat) (b : Block) (whole : Bool) : Bool :=
  let p := (s.ctx c).part
  let r := s.emptyRoom p
  let one : Ask := { n := b.group, used := [] }
  Free.whole.fits b && (mapGetD s.parts p default).tun.any (fun e => decide (b.tundish ≤ e.2.2 * 4096)) &&
    decide (b.gx % b.group = 0) && !(b.scope == 1 && decide (1 < b.group)) && (r.choose b [one] none).isSome && s.scoreOk c b &&
    (!whole || (b.deps.isEmpty && (r.choose b (List.replicate (b.teams / b.group) one) none).isSome))

/-- The cause of a rejection (R114, R115). -/
def rejects (s : State) (c : Nat) (x : Submit) : Option Nat :=
  if !x.blk.deps.all (depPositive x.blk.order) then some 1
  else if !x.blk.buckets.isEmpty && (bucketFor x.blk.buckets x.shape).isNone then some 2
  else if !s.fits c x.blk x.whole then some 3
  else none

/-- The halt point that waits for a launch from a named block attaches to it (R410). -/
def attachPoint (s : State) (c lid : Nat) (name : Option Nat) : State :=
  let named : Option String := name.bind (fun id => ((s.ctx c).blocks.find? (fun b => b.id == id)).map (·.name))
  s.modCtx c (fun x => match x.point with
    | some p =>
      if p.attached.isNone && p.req.byName && named == some p.req.lname then { x with point := some { p with attached := some lid } }
      else x
    | none => x)

/-- The record of a launch at its acceptance (R109, R422). -/
def launchOf (s : State) (c lid : Nat) (x : Submit) : Launch :=
  { ctx := c, lid := lid, name := x.name, blk := x.blk, shape := x.shape, after := x.after, whole := x.whole,
    bucket := (bucketFor x.blk.buckets x.shape).getD 0, parent := x.parent, holder := x.holder, order := s.mod.nextOrder, score := [],
    released := [], bound := [], retired := 0, failed := 0, root := x.blk.teams, coreCnt := [], quadCnt := [], dieCnt := [],
    home := none, started := false, done := false, value := 0, escal := [] }

/-- START's reply names the launch (R108). (DEDUCED, log 24.) -/
def answerStart (s : State) (lid : Nat) : Option Msg → State
  | some m => s.answer m 0 (leBytes 4 lid)
  | none => s

/-! ### ASIDs (R402) -/

/-- The ASIDs of a die that no context holds. -/
def asidsLeft (s : State) (d : Nat) : List Nat := (List.range 512).filter (fun a => s.ctxs.all (fun e => !e.2.asids.contains (d, a)))

/-- Every TLB entry under an ASID of a list goes, in every unit of its die (R402). -/
def dropAsids (s : State) (as : List (Nat × Nat)) : State :=
  { s with tlb := s.tlb.filter (fun t => !as.contains (unitDie t.unit, t.asid)) }

/-- A context takes an ASID on each die, under which no unit of the die holds an entry any more (R402). -/
def takeAsids (s : State) (c : Nat) (as : List (Nat × Nat)) : State := (s.dropAsids as).modCtx c (fun x => { x with asids := as })

/-- A context that becomes live gets an ASID on each die, any that is free (R402); none while a die has no free one. -/
def giveAsids (s : State) (c : Nat) : Option State :=
  if !(s.ctx c).asids.isEmpty then some s
  else if (List.range 4).any (fun d => (s.asidsLeft d).isEmpty) then none
  else
    let as := (List.range 4).map (fun d => (d, (s.asidsLeft d).getD (s.pick (400 + d) (s.asidsLeft d).length) 0))
    some (s.takeAsids c as)

/-- The same, with the ASIDs that Cupola names, one for each die in turn, where they are free. -/
def giveThese (s : State) (c : Nat) (as : List Nat) : Option State :=
  if (s.ctx c).asids.isEmpty && as.length == 4 && as.zipIdx.all (fun e => (s.asidsLeft e.2).contains e.1) then
    some (s.takeAsids c (as.zipIdx.map (fun e => (e.2, e.1))))
  else s.giveAsids c

/-- Acceptance of a launch that its context has handed over (R109, R114). -/
def acceptOne (s : State) (c : Nat) (x : Submit) (rest : List Submit) : State :=
  let lid := (s.ctx c).lidNext
  let L := s.launchOf c lid x
  let s := s.modCtx c (fun y => { y with submits := rest, lidNext := if lid + 1 = 2 ^ 32 then 1 else lid + 1 })
  let s := s.modMod (fun m => { m with nextOrder := m.nextOrder + 1 })
  let add (L : Launch) (s : State) : State := { s with launches := mapSet s.launches (launchKey c lid) L }
  match s.rejects c x with
  | some cause =>
    let v := 2 * 2 ^ 24 + cause
    let s := ((add { L with done := true, value := v, root := 0, parent := none } s).writeLaunchToken x.holder v none).answerStart lid x.msg
    (match x.parent with
      | some p => s.complete (s.launches.length + 1) p
      | none => s).restAsids c
  | none =>
    let s := add L s
    let s := s.modCtx c (fun y => { y with queues := mapModD y.queues x.blk.queue [] (fun q => q ++ [lid]) })
    let s := match x.parent with
      | some p => s.modLaunch p (fun y => { y with root := y.root + 1 })
      | none => s
    ((s.attachPoint c lid x.name).answerStart lid x.msg).releaseAll c

end State

/-- LAUNCH_ACCEPT (R114): the oldest launch that a context has handed over is accepted or rejected; with none, what its queues had to
wait for goes on. -/
def execLaunchAccept (ctx : Nat) (s : State) : Out :=
  .next (match s.ctx? ctx with
    | none => s
    | some c =>
      if c.cold || c.destroyed then s
      else
        match c.submits with
        | [] => s.catchUp ctx
        | x :: rest =>
          match s.giveAsids ctx with
          | none => s
          | some s => s.acceptOne ctx x rest)

end Sys2Proof.Machine
end

