-- ==== Sys2Proof/Machine/CoreEvents.lean ====
section
/-!
DEFINITION. What a core does between and around instructions: the fetch of a line (R61, R130-R135, R143-R147), a clk of issue (R152),
the arrival of results (R154), waits that end (R149, R159), the delivery of effects (R378), ISA.MISSING services (R395) and deadlocks
(R205, R206).
-/
namespace Sys2Proof.Machine

namespace State

/-! ### LINE_FETCH (R131, R133) -/

/-- fetch_check of R133 at a code offset: the region and the `GEN` that passed. -/
def fetchCheck (s : State) (f : Nat) (o : Nat) : Except Err (Nat × Region) :=
  match s.regionAt (s.ctxOf f) o with
  | none => .error { eff := Eff.codeUnadopted, arg := codeArg o 0 0 }
  | some (h, r) =>
    match adoptedGen (s.teamOf f) h with
    | none => .error { eff := Eff.codeUnadopted, arg := codeArg o h 0 }
    | some g =>
      if g ≠ r.gen then .error { eff := Eff.codeRetracted, arg := codeArg o h r.gen }
      else if r.state ≠ .published ∨ !insideRegion r (s.coreOf f) then
        .error { eff := Eff.codeUnadopted, arg := codeArg o h 0 }
      else .ok (h, r)

/-- A record comes into the core's region lookaside of 64 entries (R132). -/
def fillLook (s : State) (core c h : Nat) : State :=
  s.modCore core (fun x => if x.look.contains (c, h) then x else { x with look := ((c, h) :: x.look).take 64 })

/-- A line comes into the I-cache of 2,048 lines (R130). -/
def fillIcache (s : State) (core : Nat) (l : ILine) : State :=
  s.modCore core (fun x =>
    { x with icache := l :: (x.icache.filter (fun y => !(y.ctx == l.ctx && y.off == l.off))).take 2047 })

/-- The translation of the line of a code offset (R61, R130). -/
def lineXlate (s : State) (f o h : Nat) : Except Stop Xl × State :=
  let va := (s.ctx (s.ctxOf f)).cwbase + o / 64 * 64
  match s.engXlate (.core (s.coreOf f)) (s.ctxOf f) va .fetch with
  | (.error e, s) => (.error (fetchXerr h va o e), s)
  | (.ok x, s) => (.ok x, s)

/-- Read a line at home, and fill the I-cache with it (R130); while a recall must wait for a frozen frame, so does the read (R265). -/
def readLine (s : State) (f o : Nat) (r : Region) (x : Xl) : Except Stop (List Byte) × State :=
  let c := s.ctxOf f
  let core := s.coreOf f
  if s.frozen x.pa && !(s.heldComm (sectorKey x.pa x.key)).isEmpty then (.error .held, s)
  else
    let (bs, s) := s.homeRead x.pa x.key 64
    (.ok bs, s.fillIcache core
      { ctx := c, asid := s.asidOf c (core / 128), key := x.key, off := o / 64 * 64, gen := r.gen, pa := x.pa, data := bs })

/-- A line from home (R61, R130). -/
def fetchHome (s : State) (f o h : Nat) (r : Region) : Except Stop (List Byte) × State :=
  match s.lineXlate f o h with
  | (.error e, s) => (.error e, s)
  | (.ok x, s) => s.readLine f o r x

/-- A line of the I-cache serves a code offset under an ASID, a key id and a `GEN` (R130). -/
def lineHit (s : State) (f o gen key : Nat) (l : ILine) : Bool :=
  l.ctx == s.ctxOf f && l.asid == s.asidOf (s.ctxOf f) (s.coreOf f / 128) && l.key == key && l.off == o / 64 * 64 && l.gen == gen

/-- The line of a code offset under a `GEN` that passed its check: from the I-cache, or from home (R130). -/
def fetchLine (s : State) (f o h : Nat) (r : Region) : Except Stop (List Byte) × State :=
  match s.lineXlate f o h with
  | (.error e, s) => (.error e, s)
  | (.ok x, s) =>
    match (s.core (s.coreOf f)).icache.find? (s.lineHit f o r.gen x.key) with
    | some l => (.ok l.data, s)
    | none => s.readLine f o r x

/-- The line enters the fibre's fetch buffer (R131), and the fibre is PARKED where its slot must wait (R154). -/
def setFetch (s : State) (f o h : Nat) (r : Region) (d : List Byte) : State :=
  (s.modFibre f (fun x => { x with fbuf := some { off := o / 64 * 64, data := d, region := h, gen := r.gen, last := false } })).park f

/-- A fetch stops: with an effect at the fibre's PC, or it is made again later (R265). -/
def fetchStop (s : State) (f : Nat) : Stop → State
  | .err e => s.raiseAt f e (s.fibre f).pc 0
  | .held => s

/-- A fibre enters its line: the fetch check, the line, and one refetch from home where the parity of its slot fails (R61, R147). -/
def enterLine (s : State) (f : Nat) : State :=
  let pc := (s.fibre f).pc
  let o := pc.toNat
  match s.fetchCheck f o with
  | .error e => s.raiseAt f e pc 0
  | .ok (h, r) =>
    match (s.fillLook (s.coreOf f) (s.ctxOf f) h).fetchLine f o h r with
    | (.error e, s) => s.fetchStop f e
    | (.ok d, s) =>
      if parityOk d pc then s.setFetch f o h r d
      else
        match s.fetchHome f o h r with
        | (.error e, s) => s.fetchStop f e
        | (.ok d, s) =>
          if parityOk d pc then s.setFetch f o h r d
          else s.raiseAt f { eff := Eff.codeParity, arg := codeArg o h 0 } pc 0

/-- A later slot of the line in the fetch buffer fails its parity: the line is read once more, at home (R61, R147). -/
def refetchLine (s : State) (f : Nat) (ln : FLine) : State :=
  let pc := (s.fibre f).pc
  let o := pc.toNat
  match mapGet (s.ctx (s.ctxOf f)).regions ln.region with
  | none => s.raiseAt f { eff := Eff.codeParity, arg := codeArg o ln.region 0 } pc 0
  | some r =>
    match s.fetchHome f o ln.region { r with gen := ln.gen } with
    | (.error e, s) => s.fetchStop f e
    | (.ok d, s) =>
      if parityOk d pc then (s.modFibre f (fun x => { x with fbuf := some { ln with data := d } })).park f
      else s.raiseAt f { eff := Eff.codeParity, arg := codeArg o ln.region 0 } pc 0

/-- A speculative or run-ahead fetch of the line after a fibre's own (R146, R161): it makes the checks and may fill the I-cache and the
lookaside, and it raises nothing. (DESIGN CHOICE, log 32.) -/
def specFetch (s : State) (f : Nat) : State :=
  let o := lineOf (s.fibre f).pc + 64
  match s.fetchCheck f o with
  | .error _ => s
  | .ok (h, r) => ((s.fillLook (s.coreOf f) (s.ctxOf f) h).fetchLine f o h r).2

/-! ### Run-ahead (R161) -/

end State

/-- A word at which run-ahead stops (R161): it may transfer, or it is a FENCE or an access with an acquire in it. -/
def stopsAhead (w : IWord) : Bool :=
  decide (0x30 ≤ opOf w ∧ opOf w ≤ 0x3D) || opOf w == 0x83 || decide (0xB8 ≤ opOf w ∧ opOf w ≤ 0xBC) ||
    (decide (0x70 ≤ opOf w ∧ opOf w ≤ 0x88) && (match meOf w with
      | .ok o => acquires o.ord
      | .error _ => true))

/-- Whether a word may write the register that its base names, or one after it. -/
def mayWrite (w : IWord) (base : Nat) : Bool :=
  match headOf w with
  | .ok h => (match h.d with
    | .g i => decide (i.val ≤ base + 1 ∧ base < i.val + 16)
    | _ => false)
  | .error _ => true

/-- The GLOBAL reads in the later slots of a line whose addresses a fibre can compute from registers that have arrived (R161);
the slot at which it stands is not looked at. (DEDUCED, log 77.) -/
def aheadReads (x : Fibre) (d : List Byte) : Nat → Nat → List IWord → List ME
  | 0, _, _ => []
  | n + 1, i, before =>
    let w := slotWord d i
    if 5 ≤ i || marked d i || stopsAhead w || (decode w).toOption.isNone then []
    else
      (match meOf w with
        | .ok o =>
          let known (r : Nat) : Bool := !x.tokPending r && x.pend.all (fun v => v.reg != rG r) && before.all (fun v => !mayWrite v r)
          let base : Bool := match o.a with
            | .g r => !x.capMode && known r.val && known (r.val + 1)
            | a => a.isNone
          if (opOf w == 0x73 || opOf w == 0x76) && base then [o] else []
        | .error _ => []) ++ aheadReads x d n (i + 1) (before ++ [w])

/-- A fibre that waits runs ahead (R161): a cache prefetch for one of those reads, an ordinary fill that raises nothing, or the fetch of the
next line. (DESIGN CHOICE, log 32.) -/
def State.runAhead (s : State) (f : Nat) : State :=
  let x := s.fibre f
  match x.fbuf with
  | none => s
  | some ln =>
    let os := aheadReads x ln.data 5 (slotOf x.pc + 1) [slotWord ln.data (slotOf x.pc)]
    match os[s.pick 305 (os.length + 1)]? with
    | none => s.specFetch f
    | some o =>
      let base := (x.latestFrom (match o.a with
        | .g r => r.val
        | _ => 0) (baseRegs o.hnd o.a))
      prefAt o f o.hnd.toNat (eaOff o.off base) s

/-- LINE_FETCH (R131): a fibre that is to execute a slot whose line it does not hold fetches it; for one that holds its line the core
may fetch ahead, and one that is PARKED or WAITING may run ahead (R161). -/
def execLineFetch (fib : Nat) (s : State) : Out :=
  .next (match s.fibre? fib with
    | none => s
    | some x =>
      if (s.teamOf fib).phase != .running || (s.teamOf fib).halted || x.halted then s
      else if !x.issues then
        match x.st with
        | .parked | .waiting _ => s.runAhead fib
        | _ => s
      else if !s.holdsLine fib then s.enterLine fib
      else
        match x.fbuf with
        | some ln => if parityOk ln.data x.pc then s.specFetch fib else s.refetchLine fib ln
        | none => s)

/-! ### CORE_ISSUE (R152) -/

/-- Before the grouping stage, a fibre with outstanding results enters the line of its next slot (R131), so that it is PARKED where that
slot must wait for them (R154). -/
def State.enterPending (s : State) (core : Nat) : State :=
  ((s.readyPacks core).flatMap (fun p => (List.range 32).map (fun l => p * 32 + l))).foldl (fun s f =>
    if (s.fibre f).issues && (s.fibre f).outstanding && !s.holdsLine f then s.enterLine f else s) s

/-- CORE_ISSUE (R151, R152): one clk of a core; package time moves on by a number of ns that the manual leaves open (R176). -/
def execCoreIssue (core : Nat) (s : State) : Out :=
  .next { (s.enterPending core).coreTurn core with ns := s.ns + Config.nsStep s.tick }

/-! ### RESULT_ARRIVAL (R154) -/

/-- A write on the way to its register. -/
def RegWrite.coming (w : RegWrite) : Bool := w.cls != .a && !w.arrived

/-- Mark one of a list of writes as arrived: the n-th of those on the way. -/
def arriveNth : List RegWrite → Nat → List RegWrite
  | [], _ => []
  | w :: ws, n =>
    if w.coming then if n = 0 then { w with arrived := true } :: ws else w :: arriveNth ws (n - 1)
    else w :: arriveNth ws n

/-- The n-th result on the way arrives; that of an LD once its read is performed, after its fibre's earlier accesses of that block
(R321, R331). While that must wait, nothing arrives. -/
def State.arriveResult (s : State) (f n : Nat) : State :=
  match (((s.fibre f).pend.filter RegWrite.coming)[n]?).bind (·.load) with
  | none => s.modFibre f (fun x => { x with pend := arriveNth x.pend n })
  | some q =>
    let block := ((mapGet (s.fibre f).loads q).map (fun l => locBlock l.loc)).getD (0, 0)
    let s := s.arriveBefore f (fun x => decide (x.seq ≤ q) && x.block == block)
    if mapHas (s.fibre f).loads q then s else s.modFibre f (fun x => { x with pend := arriveNth x.pend n })

/-- RESULT_ARRIVAL (R149, R154): one outstanding result of a fibre arrives, a free choice which; a PARKED fibre with none left is
READY. (DESIGN CHOICE, log 54.) -/
def execResultArrival (fib : Nat) (s : State) : Out :=
  .next (match s.fibre? fib with
    | none => s
    | some x =>
      if x.halted then s
      else
        (s.arriveResult fib (s.pick 310 (max (x.pend.filter RegWrite.coming).length 1))).modFibre fib (fun x =>
          if x.st = .parked ∧ !x.outstanding then { x with st := .ready } else x))

/-! ### WAIT_CONDITION_MET (R149, R159) -/

/-- An ended fibre arrives at the points for which its release had to wait (R204, R265). -/
def State.arriveLate (s : State) (f : Nat) : State :=
  let bs := (s.fibre f).late
  bs.foldl (fun s b => s.lateArrive f b) (s.modFibre f (fun x => { x with late := [] }))

/-- A WLINE that waits without its watch slot, which a halt freed, reads its word again (R149, R354). -/
def State.rewatch (s : State) (f : Nat) : State :=
  let x := s.fibre f
  match x.st with
  | .waiting (.wline _) =>
    if x.halted || (s.core (s.coreOf f)).watch.any (fun e => e.2.fib == f) then s else s.retryFibre f
  | _ => s

/-- WAIT_CONDITION_MET (R149): a waiting fibre's condition holds. Where the wait is for a resource, the fibre executes its
instruction again, alone. -/
def execWaitConditionMet (fib : Nat) (s : State) : Out :=
  .next (match s.fibre? fib with
    | none => s
    | some x =>
      if x.halted then s
      else
        match x.st with
        | .exited => s.arriveLate fib
        | .waiting (.token rs) => if rs.any x.tokPending then s else s.retryFibre fib
        | .waiting .tokTable => if 8 ≤ x.tok.length then s else s.retryFibre fib
        | .waiting (.queueFree q) => if (queueOf x q).length < 8 then s.retryFibre fib else s
        | .waiting (.queueArrive q) =>
          match queueOf x q with
          | e :: _ => if e.here then s.retryFibre fib else s
          | [] => s.retryFibre fib
        | .waiting (.launchRoom q) => if s.queueLoad (s.ctxOf fib) q < 64 then s.retryLaunch fib else s
        | .waiting .mailbox =>
          match x.held with
          | some h => (s.displacedDone fib h).getD s
          | none => s
        | .waiting (.rendezvous b ph sync src) =>
          if (s.point (fibTeam fib) b).phase != s.waitPhase fib ph src then
            (s.acquire fib .core).rvDone fib (s.point (fibTeam fib) b).kdone ph sync
          else s
        | .waiting (.join i) => s.recheckMask (fibPack fib) i
        | .waiting (.waitm i) => s.recheckMask (fibPack fib) i
        | .waiting (.hbar sc _) => s.recheckHbar (fibTeam fib) sc
        | _ => s)

/-! ### EFFECT_DELIVERY (R378) -/

/-- EFFECT_DELIVERY (R378): an effect that could not be delivered at once is delivered. -/
def execEffectDelivery (fib : Nat) (s : State) : Out :=
  .next (match s.fibre? fib with
    | none => s
    | some x => if x.halted then s else s.tryDeliver fib)

/-! ### ISA.MISSING (R395) -/

/-- The pack of a served fibre returns to the states it had, after an acquire at sys scope (R395), with every result arrived (R157), and its
waits test their conditions again (R149); not while its team is halted or another of its fibres is still to be served. -/
def State.restartPack (s : State) (f : Nat) : State :=
  let s := s.acquire f .sys
  if (s.teamOf f).halted || (s.packFibres (fibPack f)).any (fun e => e.2.missing.isSome) then s
  else
    let s := (s.packFibres (fibPack f)).foldl (fun s e => (s.arriveAfterHalt e.1).modFibre e.1 (fun y => { y with halted := false })) s
    (s.packFibres (fibPack f)).foldl (fun s e => s.rewatch e.1) s

/-- The fibre of an unhandled ISA.MISSING is killed, and its pack goes on (R395). -/
def State.killMissing (s : State) (f : Nat) (x : Fibre) (w : IWord) : State :=
  (s.killFibre f Eff.isaMissing x.pc (wordArg w)).restartPack f

/-- A fibre that waits for a service of its context's mode (R395). -/
def State.missingAt (s : State) (f mode : Nat) : Option (Fibre × IWord) :=
  match s.fibre? f with
  | none => none
  | some x => if (s.ctx (s.ctxOf f)).missingMode = mode then x.missing.map (fun w => (x, w)) else none

/-- MISSING_EMULATION (R395, mode 0): the library of this part holds no emulation, so the fibre is killed. -/
def execMissingEmulation (fib : Nat) (s : State) : Out :=
  .next (match s.missingAt fib 0 with
    | none => s
    | some (x, w) => s.killMissing fib x w)

/-- Bytes that the control process writes through Cupola, at home under the context's tables (R395); none while home stalls one (R265). -/
def State.serviceWrite (s : State) (c : Nat) : List (Nat × Byte) → Option State
  | [] => some s
  | e :: es =>
    match s.engXlate .control c e.1 .write with
    | (.ok x, s) => if s.frozen x.pa then none else State.serviceWrite (s.homeWrite (paDie x.pa) x.pa x.key [e.2]) c es
    | (.error .held, _) => none
    | (.error _, s) => State.serviceWrite s c es

/-- A k register of a team is set for every fibre of it, in place of every older write. -/
def State.setK (s : State) (t i : Nat) (v : Word) : State :=
  let n := (s.team t).kser
  let s := s.modTeam t (fun T => { T with k := T.k.filter (fun w => w.reg != i) ++
    [{ reg := i, val := v, serial := n, by_ := 0, clk := none, pack := 0, lost := false }], kser := n + 1 })
  { s with fibres := mapAll s.fibres (fun f x =>
      if fibTeam f = t then { x with kok := n :: x.kok, pend := x.pend.filter (fun w => w.reg != rK i) } else x) }

/-- An m register of a pack is set, in place of every older write. -/
def State.setM (s : State) (p i : Nat) (v : Word) : State :=
  let s := s.modPack p (fun x => { x with masks := mapSet x.masks i v })
  { s with fibres := mapAll s.fibres (fun f x => if fibPack f = p then { x with pend := x.pend.filter (fun w => w.reg != rM i) } else x) }

/-- A saved register of a pack that a service writes (R395), by its number. -/
def State.serviceReg (s : State) (p : Nat) (e : RegSet) : State :=
  if e.reg < 160 then s.modFibre (p * 32 + e.lane % 32) (fun x => x.force e.reg e.val)
  else if e.reg < 224 then s.setK (p / 32) (e.reg - 160) e.val
  else if e.reg < 236 then s.setM p (e.reg - 224) e.val
  else s

/-- A service writes memory, then saved registers of the pack, and the pack goes on with the fibre as `g` leaves it (R395); nothing yet while
a write of it must wait (R265). -/
def State.serve (s : State) (f : Nat) (rs : List RegSet) (m : List (Nat × Byte)) (g : Fibre → Fibre) : State :=
  match s.serviceWrite (s.ctxOf f) m with
  | none => s
  | some s =>
    ((rs.foldl (fun s e => s.serviceReg (fibPack f) e) s).modFibre f (fun y => { (g y) with missing := none })).restartPack f

/-- MISSING_SIGNAL_ANSWER (R395, mode 1): the control process writes the saved registers and memory, and restarts the pack at
next(pc) or at pc, or kills the fibre. -/
def execMissingSignalAnswer (fib : Nat) (answer : MissingAnswer) (s : State) : Out :=
  .next (match s.missingAt fib 1 with
    | none => s
    | some (x, w) =>
      match answer with
      | .kill => s.killMissing fib x w
      | .next rs m => s.serve fib rs m (fun y => y.flow (nextPc y.pc))
      | .again rs m => s.serve fib rs m id)

/-! ### Deadlocks (R205, R206) -/

/-- The object of a wait that counts for a stuck team (R205). -/
def stuckObj (x : Fibre) : Option Nat :=
  match x.st with
  | .waiting (.rendezvous b ..) => some b
  | .waiting (.join i) => some (0x40 + i)
  | .waiting (.waitm i) => some (0x40 + i)
  | _ => none

/-- The condition of a fibre's wait holds (R187, R189, R202). -/
def State.waitHolds (s : State) (f : Nat) (x : Fibre) : Bool :=
  match x.st with
  | .waiting (.rendezvous b ph _ src) => (s.point (fibTeam f) b).phase != s.waitPhase f ph src
  | .waiting (.join i) =>
    s.maskMet (fibPack f) (mapGetD (s.pack (fibPack f)).masks i 0) (fun y => y.st == .waiting (.join i) && y.pc == x.pc)
  | .waiting (.waitm i) =>
    s.maskMet (fibPack f) (mapGetD (s.pack (fibPack f)).masks i 0) (fun y => y.st == .waiting (.waitm i))
  | _ => false

/-- Whether a team is stuck (R205). -/
def State.stuck (s : State) (t : Nat) : Bool :=
  let fs := s.teamFibres t
  !(s.team t).halted && (s.team t).phase == .running && !fs.isEmpty &&
    fs.all (fun e => !e.2.halted && (stuckObj e.2).isSome && !s.waitHolds e.1 e.2)

/-- STUCK_DEADLOCK (R205): every waiting fibre of a stuck team raises SYNC.DEADLOCK. -/
def execStuckDeadlock (team : Nat) (s : State) : Out :=
  .next (if s.stuck team then
    (s.teamFibres team).foldl (fun s e =>
      match stuckObj e.2 with
      | some o => s.raiseAt e.1 { eff := Eff.syncDeadlock, arg := dlArg o 0 } e.2.pc 0
      | none => s) s
  else s)

/-- Whether a fibre waits in some HBAR (R206). -/
def inAnyHbar (x : Fibre) : Bool :=
  match x.st with
  | .waiting (.hbar ..) => true
  | _ => false

/-- A barrier with arrivals that can never complete (R206): every member that has not arrived waits in an HBAR of another scope. -/
def State.hbarDead (s : State) (t : Nat) (sc : Scope) : Bool :=
  let ms := s.hbarMembers t sc
  ms.any (fun e => inHbar sc e.2) && !ms.all (fun e => inHbar sc e.2) && ms.all (fun e => inAnyHbar e.2 && !e.2.halted) &&
    (s.hbarTeams t sc).all (fun u => (s.team u).phase == .running && !(s.team u).halted)

/-- The fibres that wait in HBARs that can never complete, of a launch (R206). (DEDUCED, log 34.) -/
def State.hbarStuck (s : State) (c lid : Nat) : List (Nat × Fibre) :=
  let dead : List (Nat × Scope) :=
    (s.teams.filter (fun e => e.2.ctx == c && e.2.lid == lid)).flatMap (fun e =>
      ([Scope.quad, .die, .pkg, .pod].filter (s.hbarDead e.1)).map (fun sc => (e.1, sc)))
  s.fibres.filter (fun f => inAnyHbar f.2 && dead.any (fun d => (s.hbarMembers d.1 d.2).any (fun m => m.1 == f.1)))

/-- HBAR_DEADLOCK (R206). -/
def execHbarDeadlock (ctx lid : Nat) (s : State) : Out :=
  .next ((s.hbarStuck ctx lid).foldl (fun s e =>
    s.raiseAt e.1 { eff := Eff.syncDeadlock, arg := dlArg 0x80 0 } e.2.pc 0) s)

end Sys2Proof.Machine
end

