-- ==== Sys2Proof/Machine/Teams.lean ====
section
/-!
DEFINITION. A team's life on a core: binding (R124-R126), dispatch (R127, R128) and retirement (R419-R421).
-/
namespace Sys2Proof.Machine

/-! ### Binding (R124, R125) -/

namespace State

/-- A context that may be served: created, not destroyed, not cold. -/
def live (s : State) (c : Nat) : Bool :=
  match s.ctx? c with
  | none => false
  | some x => !x.cold && !x.destroyed

/-- Whether the turn of a partition lets a context's teams be bound (R403). (DEDUCED, log 33.) -/
def hasTurn (s : State) (c : Nat) : Bool :=
  match (s.partOf c).turn with
  | none => true
  | some d => c == d

/-- A context's turn on its partition begins (R403): a slice as long as the policy says, shortened by what the context owes (R406).
(DEDUCED, log 66.) -/
def beginTurn (s : State) (p c : Nat) : State :=
  if (mapGetD s.parts p default).turn = some c then s
  else
    let len := Config.sliceNs s.tick
    let pay := min (s.ctx c).debt len
    { s with parts := mapMod s.parts p (fun q => { q with turn := some c, since := s.ns, slice := len - pay }) }.modCtx c (fun x =>
      { x with debt := x.debt - pay })

/-- The released team that a launch binds next: that of the lowest sweep rank (R124). -/
def lowestReleased (L : Launch) : Option Nat :=
  (L.released.filter (fun t => !L.bound.contains t)).foldl (fun best t =>
    match best with
    | none => some t
    | some b => if L.blk.rank t < L.blk.rank b then some t else some b) none

/-- The team numbers that a launch binds next: the lowest released rank with the rest of its quad group, or the whole grid
(R116, R124, R125). -/
def nextBind (s : State) (k : Nat) : List Nat :=
  let L := s.launch k
  match lowestReleased L with
  | none => []
  | some t =>
    (if L.whole then (List.range L.blk.teams).map L.blk.teamAt else L.blk.groupOf t).filter (fun u => !L.bound.contains u)

/-- The core of a bound team of a launch. -/
def coreOfTeam (s : State) (c lid : Nat) (b : Block) (t : Nat) : Option Nat :=
  (s.teams.find? (fun e => e.2.ctx == c && e.2.lid == lid && b.teamNo e.2.x e.2.y e.2.z == t)).map
    (fun e => coreKey e.2.die e.2.core)

/-- The quad groups of teams to be bound, each with what it asks for. -/
def asksOf (s : State) (L : Launch) (ts : List Nat) : List (List Nat × Ask) :=
  let leads := (ts.map (fun t => (L.blk.groupOf t).headD 0)).eraseDups
  leads.map (fun g =>
    let all := L.blk.groupOf g
    let mine := all.filter ts.contains
    (mine, { n := mine.length, used := all.filterMap (s.coreOfTeam L.ctx L.lid L.blk) }))

/-- Where a launch's next teams go, when there is room for them: (team, core) pairs (R124, R125). -/
def placeOf (s : State) (p k : Nat) : Option (List (Nat × Nat)) :=
  let L := s.launch k
  match s.nextBind k with
  | [] => none
  | ts =>
    let asks := s.asksOf L ts
    ((s.roomNow p).choose L.blk (asks.map (·.2)) L.home).map (fun cs =>
      ((asks.map (·.1)).zip cs).flatMap (fun e => e.1.zip e.2))

/-- The key of a queue (R124). -/
def queueId (L : Launch) : Nat := L.ctx * 8 + L.blk.queue

/-- The policy of R124: whether launch a comes before launch b. Of two launches of one queue, which tie on every step, the one accepted
earlier comes first. (DESIGN CHOICE, log 86.) -/
def before (part : Partition) (a b : Launch) : Bool :=
  let f (L : Launch) : Nat := if part.fifo then L.order else mapGetD part.served (queueId L) 0
  if a.blk.prio ≠ b.blk.prio then decide (b.blk.prio < a.blk.prio)
  else if f a ≠ f b then decide (f a < f b)
  else if a.blk.queue ≠ b.blk.queue then decide (a.blk.queue < b.blk.queue)
  else if a.ctx ≠ b.ctx then decide (a.ctx < b.ctx)
  else decide (a.order < b.order)

end State

/-- What the bind writer binds next of a launch (R124, R125, R407): teams for the first time, at the cores listed, or halted teams again. -/
inductive Offer where
  | fresh (places : List (Nat × Nat))
  | again (teams : List Nat)
  deriving DecidableEq, Repr, Inhabited

/-- Teams of a block, whose slots are kept for them, find room on their cores all at once (R125, R407). -/
def Room.holdsAll (b : Block) : List Nat → Room → Bool
  | [], _ => true
  | c :: cs, r => r.holds b c && holdsAll b cs (r.take b c)

namespace State

/-- The number of a team in its launch. -/
def numberOf (s : State) (t : Nat) : Nat :=
  (s.launchOfTeam t).blk.teamNo (s.team t).x (s.team t).y (s.team t).z

/-- The halted teams of a launch but those that a halt point holds (R408, R410). -/
def haltedOf (s : State) (k : Nat) : List (Nat × Team) :=
  s.teams.filter (fun e => e.2.ctx == (s.launch k).ctx && e.2.lid == (s.launch k).lid && e.2.halted && e.2.debugHeld.isNone)

/-- Those of a list that have been saved and find room on their cores (R407). -/
def resumable (s : State) (p k : Nat) (ts : List (Nat × Team)) : List Nat :=
  (ts.filter (fun e => e.2.saved.isSome && (s.roomNow p).holds (s.launch k).blk (coreKey e.2.die e.2.core))).map (·.1)

/-- The one of a list of teams of a launch that has the lowest rank. -/
def lowestRank (s : State) (k : Nat) (ts : List Nat) : Option Nat :=
  ts.foldl (fun best t =>
    match best with
    | none => some t
    | some b => if (s.launch k).blk.rank (s.numberOf t) < (s.launch k).blk.rank (s.numberOf b) then some t else some b) none

/-- The halted teams of a launch that are bound again in one step (R125, R407): all of a WHOLE launch, once every one has been saved and there
is room for all at once; otherwise the one of the lowest rank of those that find room. (DEDUCED, log 22.) -/
def againOf (s : State) (p k : Nat) (ts : List (Nat × Team)) : Option (List Nat) :=
  if (s.launch k).whole then
    if ts.all (fun e => e.2.saved.isSome) &&
        Room.holdsAll (s.launch k).blk (ts.map (fun e => coreKey e.2.die e.2.core)) (s.roomNow p) then some (ts.map (·.1))
    else none
  else (s.lowestRank k (s.resumable p k ts)).map (fun t => [t])

/-- What is bound next of a launch (R122, R124): its halted teams before any team for the first time (R408). -/
def offerOf (s : State) (p k : Nat) : Option Offer :=
  match s.haltedOf k with
  | [] => (s.placeOf p k).map Offer.fresh
  | ts => (s.againOf p k ts).map Offer.again

/-- The launches of a partition with teams to bind and room for them, each with what is bound next. -/
def bindable (s : State) (p : Nat) : List (Nat × Offer) :=
  s.launches.filterMap (fun e =>
    if (s.ctx e.2.ctx).part = p ∧ s.live e.2.ctx ∧ s.hasTurn e.2.ctx ∧ !e.2.done then (s.offerOf p e.1).map (fun o => (e.1, o))
    else none)

/-- The launch that the policy chooses, with what is bound. -/
def chooseLaunch (s : State) (p : Nat) : Option (Nat × Offer) :=
  (s.bindable p).foldl (fun best e =>
    match best with
    | none => some e
    | some b => if before (mapGetD s.parts p default) (s.launch e.1) (s.launch b.1) then some e else some b) none

/-- A bind record (R126). -/
def recordOf (L : Launch) (t : Nat) (r : BindRes) (resume : Bool) : BindRec :=
  let c := L.blk.coords t
  { ctx := L.ctx, lid := L.lid, tx := c.1, ty := c.2.1, tz := c.2.2, slot := r.slot, resume := resume, valid := true,
    rfBase := r.rfBase, spBase := r.spBase, tdBase := r.tdBase, accMap := r.accMap, wsBase := r.wsBase, pkBase := r.pkBase,
    bkt := L.bucket }

/-- A team whose record has just been written. -/
def newTeam (L : Launch) (t core : Nat) (r : BindRes) : Team :=
  let c := L.blk.coords t
  { ctx := L.ctx, lid := L.lid, x := c.1, y := c.2.1, z := c.2.2, die := core / 128, core := core % 128,
    brec := recordOf L t r false, phase := .bound, halted := false, haltAsked := none, sliced := false, debugHeld := none, failed := false, k := [],
    kser := 0, points := [], mc := [], adopted := [], spill := none, spilled := [], hbarRound := [], saved := none, again := false }

/-- Whether an entry of a core's slot table is in use (R126, R407). -/
def slotUsed (s : State) (core slot : Nat) : Bool :=
  decide (16 ≤ slot) || s.teams.any (fun e => coreKey e.2.die e.2.core == core && e.2.brec.slot == slot)

/-- A queue is served when a team of its launch is bound (R124), and where no context has the turn of the partition, this one's begins. -/
def serveQueue (s : State) (p : Nat) (L : Launch) : State :=
  let s := { s with parts := mapMod s.parts p (fun q => { q with served := mapSet q.served (queueId L) s.mod.nextOrder }) }
  let s := s.modMod (fun m => { m with nextOrder := m.nextOrder + 1 })
  if (mapGetD s.parts p default).turn.isNone then s.beginTurn p L.ctx else s

/-- Write one bind record: the team exists, its queue is served, and its launch's tree counts it (R124, R126, R422). -/
def bindOne (s : State) (p k : Nat) (t core : Nat) (r : BindRes) : State :=
  let L := s.launch k
  let id := s.mod.nextTeam
  let s := { s with teams := mapSet s.teams id (newTeam L t core r) }
  let s := s.modMod (fun m => { m with nextTeam := id + 1, log := m.log ++ [SysLog.bound L.ctx L.lid id] })
  let s := s.modLaunch k (fun x => { x with bound := x.bound ++ [t], home := some (x.home.getD (instOf L.blk.scope core)) })
  (s.serveQueue p L).treeIn k core

/-- Write the records of one step (R124, R125); nothing when a place that the environment names is no free slot. -/
def bindMany (s : State) (p k : Nat) : List ((Nat × Nat) × BindRes) → Option State
  | [] => some s
  | e :: es => if s.slotUsed e.1.2 e.2.slot then none else State.bindMany (s.bindOne p k e.1.1 e.1.2 e.2) p k es

end State

/-- BIND_TEAM (R124, R125): the bind writer of a partition binds a team, a quad group or a WHOLE launch. -/
def execBindTeam (part : Nat) (res : List BindRes) (s : State) : Out :=
  .next (match s.chooseLaunch part with
    | none | some (_, .again _) => s
    | some (k, .fresh places) =>
      if res.length ≠ places.length then s
      else
        match s.bindMany part k (places.zip res) with
        | none => s
        | some s => s.releaseAll (s.launch k).ctx)

/-! ### Dispatch (R127, R128) -/

/-- Two ranges share nothing. -/
def apart (a n b m : Nat) : Bool := n == 0 || m == 0 || decide (a + n ≤ b) || decide (b + m ≤ a)

/-- What is left of a retired team once another holds its record on the core (R127): the fibres unless the other's registers lie on its
own, the packs unless the packs do, the k registers and points unless the slots are one. -/
def Ended.under (e : Ended) (own other : Block) (r : BindRec) : Ended :=
  let q := e.team.brec
  { team := if q.slot == r.slot then { e.team with k := [], points := [], mc := [] } else e.team
    packs := if apart r.pkBase other.packs q.pkBase own.packs then e.packs else []
    fibres := if apart (r.rfBase * 256) other.rfRegs (q.rfBase * 256) own.rfRegs then e.fibres else [] }

namespace State

/-- The other teams that hold claimed resources. -/
def claimants (s : State) (t : Nat) : List (Nat × Team) :=
  s.teams.filter (fun e => e.1 != t && e.2.phase != .bound && e.2.saved.isNone)

/-- Every resource that a record names for a team lies in its unit and is free (R126, R127). -/
def namesFree (s : State) (t : Nat) (r : BindRec) : Bool :=
  let T := s.team t
  let b := (s.launchOfTeam t).blk
  let p := s.partOf T.ctx
  let here := (s.claimants t).filter (fun e => e.2.die == T.die && e.2.core == T.core)
  let near := (s.claimants t).filter (fun e => e.2.die == T.die)
  decide (r.rfBase < 2 ^ 9 ∧ r.spBase < 2 ^ 12 ∧ r.tdBase < 2 ^ 14 ∧ r.wsBase < 2 ^ 6 ∧ r.pkBase < 2 ^ 6) &&
    decide (r.rfBase * 256 + b.rfRegs ≤ 131072) && decide (r.spBase * 256 + b.spBytes ≤ 786432) &&
    decide (r.wsBase + b.wslots ≤ 64) && decide (r.pkBase + b.packs ≤ 64) && popcount 8 r.accMap.toNat == b.acc &&
    decide (p.shareBase T.die ≤ r.tdBase ∧ r.tdBase * 4096 + b.tundish ≤ (p.shareBase T.die + p.share T.die) * 4096) &&
    here.all (fun e =>
      let c := (s.launchOfTeam e.1).blk
      let q := e.2.brec
      apart (r.rfBase * 256) b.rfRegs (q.rfBase * 256) c.rfRegs && apart (r.spBase * 256) b.spBytes (q.spBase * 256) c.spBytes &&
        apart r.wsBase b.wslots q.wsBase c.wslots && apart r.pkBase b.packs q.pkBase c.packs && (r.accMap &&& q.accMap) == 0) &&
    near.all (fun e =>
      apart (r.tdBase * 4096) b.tundish (e.2.brec.tdBase * 4096) (s.launchOfTeam e.1).blk.tundish)

/-- A record is withdrawn before its team starts: the team is released and unbound again. -/
def withdraw (s : State) (t : Nat) : State :=
  let T := s.team t
  let k := launchKey T.ctx T.lid
  let s := (s.treeUndo k (coreKey T.die T.core)).modLaunch k (fun L =>
    let bound := L.bound.filter (· != L.blk.teamNo T.x T.y T.z)
    { L with bound := bound, home := if bound.isEmpty then none else L.home })
  { s with teams := mapDel s.teams t }

/-- The numbers of the teams that start together with a team: its quad group, or its WHOLE launch (R116, R125). -/
def mates (s : State) (t : Nat) : List Nat :=
  let T := s.team t
  let L := s.launchOfTeam t
  if L.whole then List.range L.blk.teams else L.blk.groupOf (L.blk.teamNo T.x T.y T.z)

/-- The team of a number in a team's launch. -/
def teamNumbered (s : State) (t no : Nat) : Option (Nat × Team) :=
  let L := s.launchOfTeam t
  s.teams.find? (fun e => e.2.ctx == L.ctx && e.2.lid == L.lid && L.blk.teamNo e.2.x e.2.y e.2.z == no)

/-- Each of those teams passes a test, or has retired. -/
def allMates (s : State) (t : Nat) (p : Team → Bool) : Bool :=
  (s.mates t).all (fun no => (s.launchOfTeam t).score.contains no || (match s.teamNumbered t no with
    | some e => p e.2
    | none => false))

/-- Every record of the group is valid: no member is halted before it has started (R116, R125, R126). -/
def groupValid (s : State) (t : Nat) : Bool := s.allMates t (fun T => T.phase != .bound || !T.halted)

/-- Dispatch has verified and claimed every record of the group, so that its members may start (R116, R126). -/
def groupClaimed (s : State) (t : Nat) : Bool := s.allMates t (fun T => T.phase != .bound)

/-- A team's record returned after a halt before its start: it keeps its core and its slot, and waits to be bound again (R407). -/
def keepHalted (s : State) (t : Nat) : State := s.modTeam t (fun T => { T with halted := true, saved := some default })

/-- Whether a team's record was written in one step with those of its group, which start together, and no halt has come between (R116,
R125, R407). -/
def unstarted (T : Team) : Bool := T.phase != .running && !T.halted && !T.again

/-- A record that dispatch returns to the bind writer (R127); the refusal is logged. A team that a halt found on its core stays there (R407);
any other is unbound again, and with it those of its group that were bound with it and have not started (R116, R125), claimed or not; all
count as never bound. (DESIGN CHOICE, log 87.) -/
def refuseBind (s : State) (t : Nat) : State :=
  let ts := ((s.mates t).filterMap (s.teamNumbered t)).filter (fun e => unstarted e.2)
  (if (s.team t).again then s.keepHalted t else ts.foldl (fun s e => s.withdraw e.1) s).modMod (fun m =>
    { m with log := m.log ++ [SysLog.refused (s.team t).ctx (s.team t).lid t] })

/-- The numbers of the n units from a base. -/
def unitsFrom (base n : Nat) : List Nat := List.range' base n

/-- The scratchpad units that dispatch zeroes: the lane slices under `ZEROLANE`, and every unit that another context held last, or
none (R127). -/
def zeroUnits (s : State) (t : Nat) : List Nat :=
  let T := s.team t
  let b := (s.launchOfTeam t).blk
  let c := s.core (coreKey T.die T.core)
  (unitsFrom T.brec.spBase (b.spBytes / 256)).filter (fun u =>
    mapGet c.sowner u != some T.ctx || (b.zeroLane && decide ((T.brec.spBase * 256 + b.scratch + b.quadexp) ≤ u * 256)))

/-- The Tundish units that dispatch zeroes. -/
def zeroTundish (s : State) (t : Nat) : List Nat :=
  let T := s.team t
  (unitsFrom T.brec.tdBase ((s.launchOfTeam t).blk.tundish / 4096)).filter (fun u => mapGet (s.die T.die).owner u != some T.ctx)

/-- The physical tiles of a team. -/
def tilesOf (T : Team) : List Nat := (List.range 8).filter (fun i => T.brec.accMap.getLsbD i)

/-- The tiles and the weight slots that dispatch zeroes (R127, R301). -/
def zeroTiles (s : State) (t : Nat) : List Nat :=
  let T := s.team t
  (tilesOf T).filter (fun i => mapGet (s.core (coreKey T.die T.core)).towner i != some T.ctx)
def zeroSlots (s : State) (t : Nat) : List Nat :=
  let T := s.team t
  (unitsFrom T.brec.wsBase (s.launchOfTeam t).blk.wslots).filter (fun i =>
    mapGet (s.core (coreKey T.die T.core)).wowner i != some T.ctx)

/-- The bytes that dispatch zeroes (R127). -/
def zeroCount (s : State) (t : Nat) : Nat :=
  256 * (s.zeroUnits t).length + 4096 * (s.zeroTundish t).length + 65536 * (s.zeroTiles t).length + 8192 * (s.zeroSlots t).length

/-- A context becomes the last to have held units. -/
def ownAll (m : Map Nat) (c : Nat) (us : List Nat) : Map Nat := us.foldl (fun m u => mapSet m u c) m

/-- The team's context becomes the last holder of its allocation (R127). -/
def ownUnits (s : State) (t : Nat) : State :=
  let T := s.team t
  let b := (s.launchOfTeam t).blk
  (s.modCore (coreKey T.die T.core) (fun c => { c with
      sowner := ownAll c.sowner T.ctx (unitsFrom T.brec.spBase (b.spBytes / 256))
      towner := ownAll c.towner T.ctx (tilesOf T)
      wowner := ownAll c.wowner T.ctx (unitsFrom T.brec.wsBase b.wslots) })).modDie T.die (fun d => { d with
    owner := ownAll d.owner T.ctx (unitsFrom T.brec.tdBase (b.tundish / 4096)) })

/-- The slot tags and `DERR` flags of a team's allocation start EMPTY and 0 (R301). -/
def clearTags (s : State) (t : Nat) : State :=
  let T := s.team t
  let b := (s.launchOfTeam t).blk
  s.modCore (coreKey T.die T.core) (fun c => { c with
    tags := mapFilter c.tags (fun i _ => !(decide (T.brec.wsBase ≤ i) && decide (i < T.brec.wsBase + b.wslots)))
    derr := c.derr.filter (fun n => !(tilesOf T).contains n) })

/-- Zeroing, and the allocation as the team's context's own (R127, R301). -/
def zeroTeam (s : State) (t : Nat) : State :=
  let T := s.team t
  let us := s.zeroUnits t
  let ts := s.zeroTiles t
  let ws := s.zeroSlots t
  let ds := s.zeroTundish t
  let s := s.modCore (coreKey T.die T.core) (fun c => { c with
    scratch := us.foldl (fun m u => m.zero (u * 256) 256) c.scratch
    tiles := mapFilter c.tiles (fun k _ => !ts.contains (k / 16384))
    wbuf := ws.foldl (fun m i => m.zero (i * 8192) 8192) c.wbuf })
  let s := s.modDie T.die (fun d => { d with tundish := ds.foldl (fun m u => m.zero (u * 4096) 4096) d.tundish })
  (s.ownUnits t).clearTags t

/-- The adopted set at dispatch: the entry region of every present role, and the team handler's (R97, R127). -/
def adoptStart (s : State) (t : Nat) : State :=
  let T := s.team t
  let b := (s.launchOfTeam t).blk
  let rs := (s.ctx T.ctx).regions
  let hs := ((b.roles.filter (fun r => r.packs != 0)).map (·.ergn)) ++ (if b.hrgn = 0 then [] else [b.hrgn])
  hs.foldl (fun s h =>
    match mapGet rs h with
    | none => s
    | some r => s.modTeam t (fun T => (adoptInto rs T h r.gen).getD T)) s

/-- The team of a slot of a core. -/
def teamAtSlot (s : State) (core slot : Nat) : Option Nat :=
  (s.teams.find? (fun e => coreKey e.2.die e.2.core == core && e.2.brec.slot == slot)).map (·.1)

/-- The resources of a team's record are taken by it: what those that retired on its core left there goes. -/
def takeOver (s : State) (t : Nat) : State :=
  let T := s.team t
  { s with ended := mapAll s.ended (fun _ e =>
      if coreKey e.team.die e.team.core = coreKey T.die T.core then
        e.under (s.launch (launchKey e.team.ctx e.team.lid)).blk (s.launchOfTeam t).blk T.brec
      else e) }

/-- clk 0 to 3 of R127: the claim, the acquire, the zeroing, the adopted set; the mirror's current bytes (R100). -/
def claimTeam (s : State) (t : Nat) : State :=
  let T := s.team t
  let core := coreKey T.die T.core
  let z := ceilDiv (s.zeroCount t) 512
  let s := (s.takeOver t).acquireCore core (scopeAt (s.launchOfTeam t).blk.scope) none
  let s := ((s.zeroTeam t).adoptStart t).modTeam t (fun x => { x with phase := .claimed ((s.core core).clk + 3 + z) })
  s.mirrorInto t

end State

/-- DISPATCH (R127): a valid record is verified and claimed, or refused. -/
def execDispatch (core slot : Nat) (s : State) : Out :=
  .next (match s.teamAtSlot core slot with
    | none => s
    | some t =>
      if (s.team t).phase ≠ .bound ∨ (s.team t).halted ∨ !s.groupValid t then s
      else if !s.namesFree t (s.team t).brec then s.refuseBind t
      else s.claimTeam t)

namespace State

/-- The entry of a role: `EPC`, or `BPC` where the launch's bucket replaces it (R119, R128). -/
def entryPc (L : Launch) (role : Nat) : Word :=
  match L.blk.buckets[L.bucket]? with
  | some k => if k.brole = role then k.bpc else (L.blk.roles.getD role default).epc
  | none => (L.blk.roles.getD role default).epc

/-- A fibre at dispatch (R128). -/
def startFibre (L : Launch) (role : Nat) : Fibre :=
  Fibre.start (entryPc L role) [(rG 2, BitVec.ofNat 32 L.blk.lane)]

/-- The fibres of a team at its start, by their keys (R97, R128). -/
def startFibres (L : Launch) (t : Nat) : List (Nat × Fibre) :=
  (List.range L.blk.packs).flatMap (fun p =>
    let role := roleOfPack L.blk.roles p 0
    (List.range (L.blk.roles.getD role default).lanes).map (fun l => (fibKey t (p * 32 + l), startFibre L role)))

/-- Every pack of every role becomes READY (R127). -/
def startTeam (s : State) (t : Nat) : State :=
  let L := s.launchOfTeam t
  let s := (startFibres L t).foldl (fun s e => s.setFibre e.1 e.2) s
  let s := { s with packs := (List.range L.blk.packs).foldl (fun m p => mapSet m (t * 32 + p) Pack.start) s.packs }
  s.modTeam t (fun x => { x with phase := .running })

end State

/-- DISPATCH_READY (R127): zeroing has ended and the whole group is claimed, and every pack of the team becomes READY in one clk. -/
def execDispatchReady (core slot : Nat) (s : State) : Out :=
  .next (match s.teamAtSlot core slot with
    | none => s
    | some t =>
      match (s.team t).phase with
      | .claimed n => if n ≤ (s.core core).clk ∧ s.groupClaimed t then s.startTeam t else s
      | _ => s)

/-! ### Retirement (R419, R420) -/

namespace State

/-- Every fibre of a team, EXITED ones too. -/
def allFibres (s : State) (t : Nat) : List (Nat × Fibre) := s.fibres.filter (fun e => fibTeam e.1 == t)

/-- The conditions of R419. (DEDUCED, log 25.) -/
def mayRetire (s : State) (t : Nat) : Bool :=
  match s.team? t with
  | none => false
  | some T =>
    T.phase == .running && !T.halted && (s.allFibres t).all (fun e => e.2.st == .exited && e.2.tok.isEmpty) &&
      !s.cmds.any (fun e => e.2.team == t) && !s.reqs.any (fun e => e.2.team == t)

/-- The store faults that the team's release meets (R420, step 1): logged, and the team is failed. -/
def reportFaults (s : State) (t : Nat) : State :=
  (s.allFibres t).foldl (fun s e =>
    (e.2.sfaults.foldl (fun s a =>
      ((s.failTeam t).escalate e.1 1 Eff.memStorefault e.2.pc a).logCtx (s.team t).ctx (.storeFault t a)) s).modFibre e.1 (fun x =>
        { x with sfaults := [] })) s

/-- Remove a team and free what it holds on its core for binding (R420, step 4). What stands in its registers, masks and points stands there
until a team is dispatched on that core. -/
def freeTeam (s : State) (t : Nat) : State :=
  { s with teams := mapDel s.teams t, packs := mapFilter s.packs (fun k _ => k / 32 != t),
           fibres := mapFilter s.fibres (fun k _ => fibTeam k != t),
           ended := mapSet s.ended t { team := s.team t, packs := mapFilter s.packs (fun k _ => k / 32 == t),
                                       fibres := mapFilter s.fibres (fun k _ => fibTeam k == t) } }

/-- Step 2 of R420: the team's bit, in the scoreboard and in its mirror; none while home stalls the mirror's write (R265). -/
def setScore (s : State) (t : Nat) : Option State :=
  let T := s.team t
  let k := launchKey T.ctx T.lid
  let no := (s.launch k).blk.teamNo T.x T.y T.z
  ((s.modLaunch k (fun L => { L with score := L.score ++ [no], retired := L.retired + 1 })).modMod (fun m =>
    { m with log := m.log ++ [SysLog.retired T.ctx T.lid no] })).mirrorWrite T.ctx T.lid [no / 8]

/-- Steps 2 to 4 of R420, and the completion that they may bring about (R422, R424). -/
def retireTeam (s : State) (t : Nat) : State :=
  let T := s.team t
  let k := launchKey T.ctx T.lid
  match s.setScore t with
  | none => s
  | some s =>
    let s := (s.treeOut k (coreKey T.die T.core)).freeTeam t
    (s.complete (s.launches.length + 1) k).releaseAll T.ctx

/-- Step 1 of R420 on every fibre of a team. -/
def releaseTeam (s : State) (t : Nat) : State :=
  let sc := scopeAt (s.launchOfTeam t).blk.scope
  (s.allFibres t).foldl (fun s e => s.releaseActs e.1 sc) s

/-- Whether the release still waits, for a frozen frame (R265). -/
def teamWaits (s : State) (t : Nat) : Bool :=
  let sc := scopeAt (s.launchOfTeam t).blk.scope
  (s.allFibres t).any (fun e => s.releaseWaits e.1 sc)

/-- The locks that killed fibres still hold are parked (R366, R406): false while one must wait. -/
def parkLeft (s : State) (t : Nat) : Bool × State :=
  ((s.allFibres t).filter (fun e => e.2.st == .exited && e.2.held.isSome)).foldl (fun r e =>
    match r.2.parkLock e.1 with
    | (true, s) => (r.1, s.modFibre e.1 (fun x => { x with held := none, capMode := false }))
    | (false, s) => (false, s)) (true, s)

end State

/-- TEAM_RETIRE (R419, R420). -/
def execTeamRetire (team : Nat) (s : State) : Out :=
  .next (if !s.mayRetire team then s
    else
      match s.parkLeft team with
      | (false, s) => s
      | (true, s) =>
        let s := s.releaseTeam team
        if s.teamWaits team then s else (s.reportFaults team).retireTeam team)

end Sys2Proof.Machine
end

