-- ==== Sys2Proof/Machine/HomeEvents.lean ====
section
/-!
DEFINITION. What home, the caches and Cupola's paging do of their own accord: a request performed at home (R263, R321), evictions
(R253, R130), table walks (R262), residency (R266), migration (R265) and the eviction of a page (R266).
-/
namespace Sys2Proof.Machine

/-- HOME_ACCESS (R263, R321): home performs, or refuses, a request in flight; those that stand before it in the coherence order of
its bytes come first (R271, R331), and one that a halt has saved is not in flight (R404). -/
def execHomeAccess (req : Nat) (s : State) : Out :=
  .next (match mapGet s.reqs req with
    | none => s
    | some r => if s.reqFree req r && !r.replay then s.performReq req else s)

/-- L1_EVICTION (R252, R253): the line of a sector leaves a core's L1 when it is one of those that go first; of a sector that the core
does not hold, its die may drop the remote copy (R257). -/
def execL1Eviction (core sector key : Nat) (s : State) : Out :=
  .next (let k := sectorKey (sector * 64) key
    if (s.evictable core).contains (lineOfKey k) then s.evictLine core (lineOfKey k)
    else if (s.l1 core k).isSome then s
    else s.modDie (core / 128) (fun d => { d with rcopy := mapDel d.rcopy k }))

/-- TABLE_WALK (R258-R262): a walk reads the tables at home and refreshes the unit's TLB entry, under the ASID of a context that holds one
(R402). -/
def execTableWalk (unit : XUnit) (ctx va : Nat) (s : State) : Out :=
  .next (if !s.live ctx || (s.ctx ctx).asids.isEmpty then s
    else
      let s := { s with tlb := s.tlb.filter (fun t => !(t.unit == unit && t.ctx == ctx && t.va == va / 2 ^ t.size * 2 ^ t.size)) }
      match s.walk ctx va with
      | none => s
      | some l => s.tlbFill (tlbOf s unit ctx va l))

/-- MAKE_RESIDENT (R266): Cupola fills a frame for a mapped page that is not resident. -/
def execMakeResident (ctx va frame : Nat) (s : State) : Out := .next (if s.live ctx then s.makeResident ctx va frame else s)

namespace State

/-- The frame in which a leaf's page begins. -/
def leafFrame (l : Leaf) : Nat := l.pa / 2 ^ l.size * 2 ^ l.size / 2 ^ 16

/-- The migration of a leaf's page (R265): the frame it moves to, and the rounds begun. -/
def movingAt (s : State) (l : Leaf) : Option (Nat × Nat) := (s.frameOf (leafFrame l * 2 ^ 16)).moving

/-- A watch slot on a frame that its page leaves reads its word again (R354). -/
def wakeFrame (s : State) (l : Leaf) : State :=
  let base := leafFrame l * 1024
  { s with cores := mapAll s.cores (fun _ c => { c with watch := mapAll c.watch (fun _ w =>
      if w.space = 0 ∧ base ≤ w.sector ∧ w.sector < base + 2 ^ (l.size - 6) then { w with changed := true } else w) }) }

/-- Change the record of every frame of a leaf's page. -/
def modFrames (s : State) (l : Leaf) (g : Frame → Frame) : State :=
  (List.range (2 ^ (l.size - 16))).foldl (fun s i => s.modFrame (leafFrame l + i) g) s

/-- Step 1 of R265: a round begins, `D` is cleared and the page is drained where it is. -/
def beginRound (s : State) (ctx va dest round : Nat) (l : Leaf) : State :=
  let s := s.modFrame (leafFrame l) (fun x => { x with moving := some (dest, round) })
  let p := s.dram.nat l.pte 16
  ((s.setPte l.pte (p - bits p 7 7 * 128)).tlbDrop ctx va).drain (leafFrame l * 2 ^ 16) l.size

/-- A migration begins: the frames it goes to are given out, and its first round begins. -/
def startMove (s : State) (ctx va dest : Nat) (l : Leaf) : State :=
  (s.claimFrames ctx (List.range' dest (2 ^ (l.size - 16)))).beginRound ctx va dest 1 l

/-- Steps 2 to 4 of R265: the page is copied; where `D` is set again a further round begins, up to the limit; else the frame freezes. -/
def nextRound (s : State) (ctx va dest round : Nat) (l : Leaf) : State :=
  let s := s.copyFrames l.key (leafFrame l * 2 ^ 16) (dest * 2 ^ 16) l.size
  if bit (s.dram.nat l.pte 16) 7 && decide (round ≤ Config.migrationRounds) then s.beginRound ctx va dest (round + 1) l
  else s.modFrames l (fun x => { x with frozen := true })

/-- The final round (R265): the sectors not yet copied are, the PTE names the new frame, the old one's generation moves on and it is
unfrozen; the writes that were stalled are refused there and retried at the new one, and the old frame is released. -/
def movePage (s : State) (ctx va dest : Nat) (l : Leaf) : State :=
  let s := s.copyFrames l.key (leafFrame l * 2 ^ 16) (dest * 2 ^ 16) l.size
  let p := s.dram.nat l.pte 16
  let gen := (s.frameOf (dest * 2 ^ 16)).gen.toNat
  let s := s.setPte l.pte (p - bits p 39 16 * 2 ^ 16 + dest * 2 ^ 16 - bits p 75 64 * 2 ^ 64 + gen * 2 ^ 64)
  let s := (s.tlbDrop ctx va).modFrames l (fun x => { x with gen := x.gen + 1, moving := none, frozen := false })
  ((s.drain (leafFrame l * 2 ^ 16) l.size).wakeFrame l).releaseFrames l

end State

/-- PAGE_MIGRATION (R265): a migration begins, or goes on by a round, or ends. -/
def execPageMigration (ctx va frame : Nat) (s : State) : Out :=
  .next (match s.walk ctx va with
    | none => s
    | some l =>
      if !s.live ctx || !l.perms.getLsbD 2 then s
      else
        match s.movingAt l with
        | some (dest, round) =>
          if s.frozen (State.leafFrame l * 2 ^ 16) then s.movePage ctx va dest l else s.nextRound ctx va dest round l
        | none =>
          if frame % 2 ^ (l.size - 16) = 0 ∧ (List.range (2 ^ (l.size - 16))).all (fun i => s.frameFree (frame + i)) then
            s.startMove ctx va frame l
          else s)

namespace State

/-- Store a page's contents in the tenant's Flask namespace and clear `RES` (R264, R266). -/
def storePage (s : State) (ctx va : Nat) (l : Leaf) : State :=
  let page := pageOf l va
  let s := s.shoot ctx va l
  if s.undrained l then s
  else
  let m := s.readFrames l.key (leafFrame l * 2 ^ 16) l.size
  let s := s.modCtx ctx (fun c => { c with
    stored := if c.stored.contains page then c.stored else page :: c.stored
    flask := c.flask.paste page (2 ^ l.size) m })
  let p := s.dram.nat l.pte 16
  (((s.setPte l.pte (p - 4)).tlbDrop ctx va).wakeFrame l).releaseFrames l

end State

/-- PAGE_EVICTION (R266): Cupola stores a resident page and makes it non-resident. -/
def execPageEviction (ctx va : Nat) (s : State) : Out :=
  .next (match s.walk ctx va with
    | none => s
    | some l => if s.live ctx && l.perms.getLsbD 2 && (s.movingAt l).isNone then s.storePage ctx va l else s)

/-- ICACHE_EVICTION (R130): a line leaves a core's I-cache. -/
def execIcacheEviction (core index : Nat) (s : State) : Out :=
  .next (s.modCore core (fun c => { c with icache := c.icache.eraseIdx index }))

end Sys2Proof.Machine
end

