-- ==== Sys2Proof/Machine/Halt.lean ====
section
/-!
DEFINITION. Halts and their return (R403-R408), halt points (R410), and the killing of a context's teams (R406).
-/
namespace Sys2Proof.Machine

namespace State

/-! ### The halt (R404, R405) -/

/-- The reductions of a team that are on their way home: a halt drains them (R404). -/
def redsOf (s : State) (t : Nat) : List Nat :=
  (s.reqs.filter (fun e => e.2.team == t && (match e.2.op with
    | .red .. => true
    | _ => false))).map (·.1)

/-- The queue reads of a team in flight: their replies carry the generation of before the halt (R405). -/
def flightsOf (s : State) (t : Nat) : Nat := ((s.allFibres t).map (fun e => (s.flights e.1).length)).sum

/-- Whether a halt keeps a request as a replay packet (R404): a write that its core has not sent, unless a reduction that the halt drains
stands behind it. -/
def keeps (s : State) (id : Nat) (r : HomeReq) : Bool :=
  !(r.through && s.reqFree id r) && !s.reqs.any (fun e =>
    e.2.fib == r.fib && decide (r.seq ≤ e.2.seq) && locBlock e.2.loc == locBlock r.loc && (match e.2.op with
      | .red .. => true
      | _ => false))

/-- The writes of a team that its cores have not sent are saved as replay packets (R404). -/
def saveReqs (s : State) (t : Nat) : State :=
  { s with reqs := mapAll s.reqs (fun id r => if r.team = t ∧ s.keeps id r then { r with replay := true } else r) }

/-- One team stops (R404): its reductions drain, its unsent writes are saved, its fibres are HALTED and its watch slots free. A team that has not started stays bound on
its core and its slot, and dispatch begins anew at its return. (DEDUCED, log 28.) -/
def haltOne (s : State) (dbg : Option Bool) (sliced : Bool) (t : Nat) : State :=
  let s := (s.performReqs (s.redsOf t)).saveReqs t
  let s := { s with fibres := mapAll s.fibres (fun k x => if fibTeam k = t then x.stop else x) }
  let s := s.modCore (s.teamCore t) (fun c => { c with watch := mapFilter c.watch (fun _ w => fibTeam w.fib != t) })
  s.modTeam t (fun T => { T with phase := if T.phase = .running then .running else .bound, halted := true, haltAsked := some s.ns,
                                 sliced := sliced, debugHeld := dbg, again := T.again || T.phase != .running })

/-- No request of a halt generation before the present one is left on its way (R405); a replay packet has not been sent. -/
def cxFree (s : State) (c : Nat) : Bool :=
  !s.mod.replies.any (fun r => r.ctx == c && r.cxgen != (s.ctx c).cxgen) &&
    !s.reqs.any (fun e => e.2.ctx == c && e.2.through && !e.2.replay && e.2.cxgen != (s.ctx c).cxgen)

/-- The halt generation of a context moves on, once what remained of the generation before has been answered or dropped (R405). -/
def settleCxgen (s : State) (c : Nat) : State :=
  if 0 < (s.ctx c).due ∧ s.cxFree c then s.modCtx c (fun x => { x with cxgen := x.cxgen + 1, due := x.due - 1 }) else s

/-- A halt asks for the next generation of a context; the replies to `n` reads of its teams are on their way (R405). (DEDUCED, log 39.) -/
def bumpCxgen (s : State) (c n : Nat) : State :=
  let mine : List Reply := List.replicate n { ctx := c, cxgen := (s.ctx c).cxgen }
  let s := s.modMod (fun m => { m with replies := m.replies ++ mine })
  (s.modCtx c (fun x => { x with due := x.due + 1 })).settleCxgen c

/-- A halt of a set of teams (R404). -/
def haltTeams (s : State) (ts : List Nat) (dbg : Option Bool) (sliced : Bool) : State :=
  let ts := ts.filter (fun t => (s.team? t).isSome && !(s.team t).halted)
  let cs := (ts.map (fun t => (s.team t).ctx)).eraseDups
  let n (c : Nat) : Nat := ((ts.filter (fun t => (s.team t).ctx == c)).map s.flightsOf).sum
  let ns := cs.map (fun c => (c, n c))
  let s := ts.foldl (fun s t => s.haltOne dbg sliced t) s
  ns.foldl (fun s e => s.bumpCxgen e.1 e.2) s

/-- The teams of a context. -/
def teamsOf (s : State) (c : Nat) : List Nat := (s.teams.filter (fun e => e.2.ctx == c)).map (·.1)

/-- The contexts that share a partition with a context, itself included. -/
def sharers (s : State) (c : Nat) : List Nat :=
  (s.ctxs.filter (fun e => e.2.part == (s.ctx c).part && s.live e.1)).map (·.1)

/-- The context whose turn follows (R403). -/
def nextTurn (s : State) (c : Nat) : Nat :=
  match (s.sharers c).find? (fun d => decide (c < d)) with
  | some d => d
  | none => (s.sharers c).headD c

/-- Give a partition's turn to a context. -/
def setTurn (s : State) (p : Nat) (c : Option Nat) : State :=
  { s with parts := mapMod s.parts p (fun q => { q with turn := c }) }

end State

/-- HALT (R404): Cupola halts a set of teams. -/
def execHalt (teams : List Nat) (s : State) : Out := .next (s.haltTeams teams none false)

/-- SLICE_END (R403): at the end of its slice (R406) the context whose turn it was is halted, unless it is alone on its partition, and the
next one's turn follows. -/
def execSliceEnd (ctx : Nat) (s : State) : Out :=
  .next (if !s.live ctx || (s.partOf ctx).turn != some ctx || (s.sharers ctx).length < 2 ||
      decide (s.ns < (s.partOf ctx).since + (s.partOf ctx).slice) then s
    else (s.haltTeams (s.teamsOf ctx) none true).beginTurn (s.ctx ctx).part (s.nextTurn ctx))

/-- STALE_REPLY_DROP (R405): a reply of an old generation is dropped, and changes nothing else; a halt that waited for it counts now.
(DEDUCED, log 29.) -/
def execStaleReplyDrop (ctx : Nat) (s : State) : Out :=
  .next (match s.mod.replies.find? (fun r => r.ctx == ctx && r.cxgen != (s.ctx ctx).cxgen) with
    | none => s
    | some r => (s.modMod (fun m => { m with replies := m.replies.erase r })).settleCxgen ctx)

/-! ### Saving (R406, R407) -/

namespace State

/-- The words of a team's tiles, by its own tile numbers. -/
def saveTiles (s : State) (t : Nat) : Map Word :=
  let own := tilesOf (s.team t)
  (s.core (s.teamCore t)).tiles.filterMap (fun e =>
    match own.findIdx? (· == e.1 / 16384) with
    | none => none
    | some n => some (n * 16384 + e.1 % 16384, e.2))

/-- What a halt saves of a team beside the fields it keeps (R407). -/
def saveOf (s : State) (t : Nat) : Saved :=
  let T := s.team t
  let b := (s.launchOfTeam t).blk
  let c := s.core (s.teamCore t)
  { scratch := c.scratch.cut (T.brec.spBase * 256) b.spBytes
    tundish := (s.die T.die).tundish.cut (T.brec.tdBase * 4096) b.tundish
    tiles := s.saveTiles t
    slots := c.wbuf.cut (T.brec.wsBase * 8192) (b.wslots * 8192)
    tags := c.tags.filterMap (fun e =>
      if T.brec.wsBase ≤ e.1 ∧ e.1 < T.brec.wsBase + b.wslots then some (e.1 - T.brec.wsBase, e.2) else none)
    derr := (tilesOf T).map c.derr.contains }

/-- Park the locks of a team's fibres in capsule mode (R366, R404); false while a page must be made resident first. -/
def parkTeam (s : State) (t : Nat) : Bool × State :=
  ((s.allFibres t).filter (fun e => e.2.capMode && e.2.st != .exited)).foldl (fun r e =>
    let (ok, s) := r.2.parkLock e.1
    (r.1 && ok, s)) (true, s)

/-- Teams of a context that the end of a slice halted and that are not yet saved. -/
def unsaved (s : State) (c : Nat) : List (Nat × Team) :=
  s.teams.filter (fun e => e.2.ctx == c && e.2.halted && e.2.sliced && e.2.saved.isNone)

/-- The time by which a slice's halt exceeds 10 µs is charged once its last team is saved; no other halt is charged (R406, R410).
(DEDUCED, log 30.) -/
def chargeDebt (s : State) (c asked : Nat) (sliced : Bool) : State :=
  if sliced && (s.unsaved c).isEmpty then s.modCtx c (fun x => { x with debt := x.debt + (s.ns - asked - 10000) }) else s

/-- Commands of a team that a halt does not divide where they stand (R316, R404). -/
def dividing (s : State) (t : Nat) : Bool := s.cmds.any (fun e => e.2.team == t && midGroup e.2)

end State

/-- HALT_COMPLETE (R404, R406, R407): after `ns` more the drains have ended, the locks are parked, and the team's state is saved.
(DEDUCED, log 31.) -/
def execHaltComplete (team ns : Nat) (s : State) : Out :=
  .next (match s.team? team with
    | none => s
    | some T =>
      let asked := T.haltAsked.getD s.ns
      if !T.halted || T.saved.isSome || decide (50000 ≤ s.ns + ns - asked) then s
      else
        let (ok, s) := ((s.performReqs (s.redsOf team)).settleCxgen T.ctx).parkTeam team
        if !ok || !(s.redsOf team).isEmpty || s.dividing team || (s.ctx T.ctx).due != 0 then s
        else
          let v := if T.phase = .running then s.saveOf team else default
          ({ s with ns := s.ns + ns }.modTeam team (fun x => { x with saved := some v })).chargeDebt T.ctx asked T.sliced)

/-! ### Killing a context's teams (R406) -/

namespace State

/-- Park a lock at a kill: Cupola makes its page resident where it must (R366). One that must wait for a frozen frame stays with its fibre,
and the team's retirement parks it. -/
def parkKill (s : State) (f : Nat) : State :=
  let done (s : State) : State := s.modFibre f (fun x => { x with held := none, capMode := false })
  match s.parkLock f with
  | (true, s) => done s
  | (false, s) =>
    match (s.fibre f).held with
    | none => s
    | some h =>
      if s.residence (s.ctxOf f) h.block ≠ .absent then s
      else
        match s.pickFrame 320 (s.leafPages (s.ctxOf f) h.block) with
        | some fr =>
          match (s.makeResident (s.ctxOf f) h.block fr).parkLock f with
          | (true, s) => done s
          | (false, s) => s
        | none => done (s.logCtx (s.ctxOf f) (.lockLost h.block 2))

/-- How many of a fibre's commands under a token are outstanding. -/
def cmdsUnder (s : State) (f r : Nat) : Nat := (s.cmds.filter (fun e => e.2.fib == f && e.2.tok == some r)).length

/-- A fibre of a killed team (R406): EXITED, with no token but those of its launches, which are not abandoned (R419). -/
def killed (s : State) (f : Nat) (x : Fibre) : Fibre :=
  { x with st := .exited, halted := false, queues := [], loads := [], eff := none, missing := none, retracting := none, launching := none,
           late := [],
           tok := x.tok.filterMap (fun e =>
             let n := e.2.count - s.cmdsUnder f e.1
             if n = 0 then none else some (e.1, { e.2 with count := n })) }

/-- A team is killed (R406): its fibres are EXITED, its commands abandoned, its capsules parked, and it is failed; it retires by R419 and
R420 like any other team. -/
def killTeam (s : State) (t : Nat) : State :=
  let s := (s.allFibres t).foldl (fun s e => if e.2.capMode then s.parkKill e.1 else s.modFibre e.1 (fun x => { x with held := none })) s
  let s := { s with cmds := mapFilter s.cmds (fun _ c => c.team != t),
                    fibres := mapAll s.fibres (fun k x => if fibTeam k = t then s.killed k x else x),
                    reqs := mapAll s.reqs (fun _ r => if r.team = t then { r with replay := false } else r) }
  let s := s.modCore (s.teamCore t) (fun c => { c with watch := mapFilter c.watch (fun _ w => fibTeam w.fib != t) })
  let s := (s.modTeam t (fun T => { T with phase := .running, halted := false, debugHeld := none })).failTeam t
  [Scope.quad, .die, .pkg, .pod].foldl (fun s sc => s.recheckHbar t sc) s

/-- Every team of a context in its partition is killed (R406). -/
def killAll (s : State) (c : Nat) : State :=
  (s.teamsOf c).foldl (fun s t => if (s.team? t).isSome then s.killTeam t else s) s

end State

/-- HALT_WATCHDOG (R406): a team of a halt is not saved at 50 µs, and every team of its context is killed. -/
def execHaltWatchdog (team : Nat) (s : State) : Out :=
  .next (match s.team? team with
    | none => s
    | some T =>
      if T.halted && T.saved.isNone && decide (50000 ≤ s.ns - T.haltAsked.getD s.ns) then
        (s.killAll T.ctx).logCtx T.ctx (.sliceKilled (s.ctx T.ctx).part s.ns)
      else s)

/-! ### Resumption (R407, R408) -/

namespace State

/-- The saved state of a team goes back to its new places (R407). -/
def restoreTeam (s : State) (t : Nat) (v : Saved) : State :=
  let T := s.team t
  let b := (s.launchOfTeam t).blk
  let own := tilesOf T
  let place (k : Nat) : Nat := own.getD (k / 16384) 0 * 16384 + k % 16384
  let tiles (c : Core) : Map Word :=
    v.tiles.foldl (fun m e => mapSet m (place e.1) e.2) (mapFilter c.tiles (fun k _ => !own.contains (k / 16384)))
  let derr := (own.zip v.derr).filterMap (fun e => if e.2 then some e.1 else none)
  let s := (s.ownUnits t).clearTags t
  let s := s.modCore (s.teamCore t) (fun c => { c with
    scratch := c.scratch.paste (T.brec.spBase * 256) b.spBytes v.scratch
    tiles := tiles c
    wbuf := c.wbuf.paste (T.brec.wsBase * 8192) (b.wslots * 8192) v.slots
    tags := v.tags.foldl (fun m e => mapSet m (T.brec.wsBase + e.1) e.2) c.tags
    derr := derr ++ c.derr })
  s.modDie T.die (fun d => { d with tundish := d.tundish.paste (T.brec.tdBase * 4096) b.tundish v.tundish })

/-- The fibres of a resumed team: HALTED no longer, but for those of a pack that waits for an ISA.MISSING service (R149, R395). -/
def wakeFibres (s : State) (t : Nat) : State :=
  let held (k : Nat) : Bool := (s.packFibres (fibPack k)).any (fun e => e.2.missing.isSome)
  { s with fibres := mapAll s.fibres (fun k x => if fibTeam k = t ∧ !held k then { x with halted := false } else x),
           packs := mapAll s.packs (fun k p => if k / 32 = t then { p with lastIssue := none } else p) }

/-- WAITING fibres of a resumed team test their conditions again (R149): the joins, the barriers and the rendezvous points. -/
def retest (s : State) (t : Nat) : State :=
  let s := (List.range (s.launchOfTeam t).blk.packs).foldl (fun s p => s.recheckMasks (t * 32 + p)) s
  let s := (s.teamFibres t).foldl (fun s e =>
    match e.2.st with
    | .waiting (.rendezvous b ph sync src) =>
      if (s.point t b).phase != s.waitPhase e.1 ph src then s.rvDone e.1 (s.point t b).kdone ph sync else s
    | _ => s) s
  [Scope.quad, .die, .pkg, .pod].foldl (fun s sc => s.recheckHbar t sc) s

/-- The replay packets of a team go out under the context's present halt generation (R405); a fault of one names no handle (R250). -/
def retag (s : State) (t : Nat) : State :=
  { s with reqs := mapAll s.reqs (fun _ r =>
             if r.team = t ∧ r.replay then { r with cxgen := (s.ctx r.ctx).cxgen, hnd := 0xFFF, replay := false } else r),
           fibres := mapAll s.fibres (fun k x =>
             if fibTeam k = t then { x with queues := mapAll x.queues (fun _ q => q.map (fun e =>
               if e.at_ = .flight then { e with hnd := 0xFFF } else e)) } else x) }

/-- Before the first instruction of a resumed team's fibres, every result has arrived (R157). -/
def arriveTeam (s : State) (t : Nat) : State := (s.teamFibres t).foldl (fun s e => s.arriveAfterHalt e.1) s

/-- A resumed team runs again (R407): its record, its state, the mirror's current bytes (R100), its replay packets, the results they bring
(R157) and its fibres, whose WLINE waits read their words again (R354). A team that has not started yet is dispatched anew. -/
def resumeTeam (s : State) (t : Nat) (r : BindRec) (v : Saved) : State :=
  let T := s.team t
  let s := s.modTeam t (fun x => { x with brec := r, saved := none, halted := false, haltAsked := none, sliced := false })
  if T.phase ≠ .running then s
  else
    let s := ((((((s.takeOver t).restoreTeam t v).mirrorInto t).retag t).arriveTeam t).wakeFibres t).retest t
    (s.teamFibres t).foldl (fun s e => s.rewatch e.1) s

end State

namespace State

/-- A system log entry. -/
def logSys (s : State) (e : SysLog) : State := s.modMod (fun m => { m with log := m.log ++ [e] })

/-- The halted teams that the bind writer binds again next, a team's among them (R122, R124). -/
def nextAgain (s : State) (t : Nat) : List Nat :=
  match s.chooseLaunch (s.ctx (s.team t).ctx).part with
  | some (_, .again ts) => if ts.contains t then ts else []
  | _ => []

/-- The record with `RESUME` of a halted team. -/
def recordAgain (s : State) (t : Nat) (r : BindRes) : BindRec :=
  State.recordOf (s.launchOfTeam t) (s.numberOf t) r ((s.team t).phase == .running)

/-- One record with `RESUME`: dispatch restores the team, its queue is served, and the bind is logged (R407, R426). -/
def resumeOne (s : State) (t : Nat) (r : BindRes) : State :=
  let T := s.team t
  ((s.resumeTeam t (s.recordAgain t r) (T.saved.getD default)).serveQueue (s.ctx T.ctx).part (s.launchOfTeam t)).logSys
    (.bound T.ctx T.lid t)

/-- The records of one step in turn; a team's number where dispatch returns its record (R127). -/
def resumeAll (s : State) : List (Nat × BindRes) → Except Nat State
  | [] => .ok s
  | e :: es => if s.namesFree e.1 (s.recordAgain e.1 e.2) then State.resumeAll (s.resumeOne e.1 e.2) es else .error e.1

end State

/-- TEAM_RESUME (R124, R125, R407, R408): bind records with `RESUME` give the halted teams whose turn it is, `team` among them, places on
their own cores and slots; dispatch restores them there, or returns a record, and none of them starts. -/
def execTeamResume (team : Nat) (res : List BindRes) (s : State) : Out :=
  .next (
    let ts := s.nextAgain team
    if ts.map (fun t => (s.team t).brec.slot) ≠ res.map (·.slot) then s
    else
      match s.resumeAll (ts.zip res) with
      | .ok u => u
      | .error t => s.logSys (.refused (s.team t).ctx (s.team t).lid t))

/-! ### Halt points (R410) -/

/-- The team of a launch at given coordinates. -/
def State.teamAtCoords (s : State) (c lid x y z : Nat) : Option Nat :=
  (s.teams.find? (fun e => e.2.ctx == c && e.2.lid == lid && e.2.x == x && e.2.y == y && e.2.z == z)).map (·.1)

/-- HALT_POINT_FIRE (R410): before the batch at the armed offset issues, the point halts its team, or every team of the context,
disarms itself, and is reported with the `CXGEN` after the halt. -/
def execHaltPointFire (ctx : Nat) (s : State) : Out :=
  .next (match s.issue, (s.ctx ctx).point with
    | b :: _, some p =>
      if !s.pointAt b (s.standing b) || (s.team b.team).ctx != ctx then s
      else
        let T := s.team b.team
        let ts := if p.req.allTeams then s.teamsOf ctx else [b.team]
        let s := (s.haltTeams ts (some p.req.allTeams) false).modCtx ctx (fun c => { c with point := none })
        s.logCtx ctx (.haltFired T.lid T.x T.y T.z p.req.fib b.pc.toNat (((s.ctx ctx).cxgen.toNat + (s.ctx ctx).due) % 256))
    | _, _ => s)

end Sys2Proof.Machine
end

