-- ==== Sys2Proof/Machine/Load.lean ====
section
/-!
DEFINITION. Mapping pages (R258, R259, R430) and the loader (R52-R54, R92, R93, R96, R105).
-/
namespace Sys2Proof.Machine

/-! ### Page tables (R258, R259) -/

/-- A leaf or a table entry. -/
def pteOf (frame key gen : Nat) (leaf res r w x a : Bool) : Nat :=
  1 + b2n leaf * 2 + b2n res * 4 + b2n r * 8 + b2n w * 16 + b2n x * 32 + b2n a * 64 + frame * 2 ^ 16 + key * 2 ^ 48 + gen * 2 ^ 64

namespace State

/-- A frame that Cupola has picked for a context is still free. -/
def takeFrame (s : State) (c n : Nat) : Option State :=
  if s.frameFree n then some (s.modFrame n (fun x => { x with owner := some c })) else none

/-- The table below an entry, taken from the listed frames and zeroed where the entry is not valid. -/
def tableBelow (s : State) (c pte level : Nat) (tables : List Nat) : Option (Nat × List Nat × State) :=
  let p := s.dram.nat pte 16
  if pteValid p level then (if bit p 1 then none else some (bits p 39 16 * 2 ^ 16, tables, s))
  else
    match tables with
    | [] => none
    | n :: rest =>
      (s.takeFrame c n).map (fun s =>
        (n * 2 ^ 16, rest, { s with dram := s.dram.zero (n * 2 ^ 16) (2 ^ 16) }.setPte pte (pteOf n 0 0 false false false false false false)))

/-- The place of the level-2 entry of a virtual address, with the tables above it. -/
def leafPlace (s : State) (c va : Nat) (tables : List Nat) : Option (Nat × List Nat × State) :=
  match s.tableBelow c ((s.ctx c).root + va / 2 ^ 40 % 4096 * 16) 0 tables with
  | none => none
  | some (t1, tables, s) =>
    match s.tableBelow c (t1 + va / 2 ^ 28 % 4096 * 16) 1 tables with
    | none => none
    | some (t2, tables, s) => some (t2 + va / 2 ^ 16 % 4096 * 16, tables, s)

end State

/-- How a page is to be mapped: its permissions, its key, and what its frame holds at first, where Cupola fills it. -/
structure PageSpec where
  va : Nat
  frame : Option Nat
  key : Nat
  r : Bool
  w : Bool
  x : Bool
  a : Bool
  fill : Option Memory
  deriving DecidableEq, Repr, Inhabited

namespace State

/-- Map one 64 KiB page (R259): nothing where a leaf is there already, or a frame that Cupola names is not free. (DEDUCED, log 50.) -/
def mapPage (s : State) (c : Nat) (g : PageSpec) (tables : List Nat) : Option (List Nat × State) :=
  match s.leafPlace c g.va tables with
  | none => none
  | some (pte, tables, s) =>
    if pteValid (s.dram.nat pte 16) 2 then none
    else
      match g.frame with
      | none => some (tables, s.setPte pte (pteOf 0 g.key 0 true false g.r g.w g.x g.a))
      | some n =>
        (s.takeFrame c n).map (fun s =>
          let s := match g.fill with
            | some m => s.fillFrames g.key (n * 2 ^ 16) 16 m
            | none => s
          (tables, s.setPte pte (pteOf n g.key (s.frameOf (n * 2 ^ 16)).gen.toNat true true g.r g.w g.x g.a)))

/-- Map pages one after another. -/
def mapPages (s : State) (c : Nat) : List PageSpec → List Nat → Option State
  | [], _ => some s
  | g :: gs, tables =>
    match s.mapPage c g tables with
    | none => none
    | some (tables, s) => State.mapPages s c gs tables

end State

/-! ### Symbols and relocations (R52-R54) -/

/-- Where an object goes (R105, step 1). -/
structure Site where
  cw : Nat
  text : Nat
  rodata : Nat
  data : Nat
  deriving DecidableEq, Repr, Inhabited

/-- What an import takes of the objects loaded before into the same context (R54). -/
def imported (c : Context) (name : String) : Option SymVal := (c.syms.find? (fun e => e.1 == name)).map (·.2)

/-- A symbol's value after load: of the object, of an object loaded before, or 0 for a weak one that stays unresolved (R54). -/
def symValue (c : Context) (at_ : Site) (e : Sym) : Option SymVal :=
  match e.at_ with
  | .text off => some (.va (at_.cw + at_.text + off))
  | .rodata off => some (.va (at_.rodata + off))
  | .data off => some (.va (at_.data + off))
  | .handle i => some (.idx i)
  | .abs v => some (.abs v)
  | .launch => some .launch
  | .undef weak =>
    match imported c e.name with
    | some v => some v
    | none => if weak then some (.abs 0) else none

/-- Every import that is not weak finds its symbol, whether or not a relocation names it (R54). -/
def importsFound (c : Context) (o : Obj) : Bool :=
  o.syms.all (fun e => e.at_ != .undef false || (imported c e.name).isSome)

/-- The code-window offset of a symbol plus an addend (R53). Of an absolute symbol, and of a weak one that stays unresolved, the number is
the offset itself. (DESIGN CHOICE, log 68.) -/
def codeOff (cw : Nat) (v : SymVal) (a : Int) : Option Nat :=
  let n : Option Int := match v with
    | .va x => some ((x : Int) + a - cw)
    | .abs x => some ((x : Int) + a)
    | .idx _ | .launch => none
  match n with
  | some n => if 0 ≤ n ∧ n < 2 ^ 32 then some n.toNat else none
  | none => none

/-- Code regions that a load makes: index, code offset, lines, and whether they hold code (R93). -/
structure NewRegion where
  h : Nat
  base : Nat
  lines : Nat
  code : Bool
  deriving DecidableEq, Repr, Inhabited

/-- The index of the code entry whose region holds a code offset: of the object, or of the context (R53, R105). -/
def regionIndex (c : Context) (rs : List NewRegion) (off : Nat) : Option Nat :=
  match rs.find? (fun r => decide (r.base ≤ off) && decide (off < r.base + 64 * r.lines)) with
  | some r => some r.h
  | none => (c.regions.find? (fun e => decide (e.2.base ≤ off) && decide (off < e.2.base + 64 * e.2.lines))).map (·.1)

/-- The bytes that a relocation writes over `old`, at code-window offset p, if the place has one (R53). None fails the load: a line offset
that does not fit, a symbol that no code region holds, and what does not suit the relocation: a symbol, or an S + A outside the code
window (DESIGN CHOICE, log 68). -/
def relocBytes (c : Context) (rs : List NewRegion) (cw : Nat) (p : Option Int) (k : RelocKind) (v : SymVal) (a : Int) (old : List Byte) :
    Option (List Byte) :=
  match k with
  | .code32 => (codeOff cw v a).map (leBytes 4)
  | .slot =>
    match codeOff cw v a, p with
    | some t, some p =>
      let d : Int := ((t / 64 : Nat) : Int) - p / 64
      if -(2 ^ 28) ≤ d ∧ d < 2 ^ 28 then some (leBytes 4 (unsign d 29 * 8 + t % 64 / 12)) else none
    | _, _ => none
  | .hidx12 =>
    match v with
    | .idx h => some (leBytes 4 (leNat old % 2 ^ 20 + h % 2 ^ 12 * 2 ^ 20))
    | .abs 0 => some (leBytes 4 (leNat old % 2 ^ 20))
    | _ => none
  | .data64 =>
    match v with
    | .va x => some (leBytes 8 (unsign ((x : Int) + a) 64))
    | .abs x => some (leBytes 8 (unsign ((x : Int) + a) 64))
    | .idx _ | .launch => none
  | .fdesc =>
    match codeOff cw v 0 with
    | none => none
    | some off =>
      match regionIndex c rs off, v with
      | some h, _ => some (leBytes 4 off ++ leBytes 2 h ++ List.replicate 10 0)
      | none, .abs 0 => some (List.replicate 16 0)
      | none, _ => none
  | .rgn12 =>
    match (codeOff cw v a).bind (regionIndex c rs) with
    | some h => some (leBytes 2 (leNat old / 2 ^ 12 * 2 ^ 12 + h))
    | none => none

/-- How many bytes a relocation patches (R53). -/
def relocSize : RelocKind → Nat
  | .code32 | .slot | .hidx12 => 4
  | .data64 => 8
  | .fdesc => 16
  | .rgn12 => 2

/-- Change the entry of a list that a key names. -/
def modAssoc {κ α : Type} [BEq κ] (xs : List (κ × α)) (k : κ) (f : α → α) : List (κ × α) :=
  xs.map (fun e => if e.1 == k then (e.1, f e.2) else e)

/-- The bytes of a place of an object. -/
def placeBytes (o : Obj) : RelocPlace → List Byte
  | .text => o.text
  | .rodata => o.rodata
  | .data => o.data
  | .handle i => ((o.handles.find? (fun e => e.1 == i)).map (·.2)).getD []
  | .launch n => ((o.launches.find? (fun e => e.1 == n)).map (·.2)).getD []

/-- An object with the bytes of a place replaced. -/
def setPlace (o : Obj) (bs : List Byte) : RelocPlace → Obj
  | .text => { o with text := bs }
  | .rodata => { o with rodata := bs }
  | .data => { o with data := bs }
  | .handle i => { o with handles := modAssoc o.handles i (fun _ => bs) }
  | .launch n => { o with launches := modAssoc o.launches n (fun _ => bs) }

/-- The code-window offset of a place that a relocation patches, where it lies in a section (R53). -/
def placeAt (at_ : Site) (r : Reloc) : Option Int :=
  match r.place with
  | .text => some ((at_.text + r.off : Nat) : Int)
  | .rodata => some (((at_.rodata + r.off : Nat) : Int) - at_.cw)
  | .data => some (((at_.data + r.off : Nat) : Int) - at_.cw)
  | .handle _ | .launch _ => none

/-- Apply relocations in turn (R53); none fails the load. A place past the end of its section, entry or block fails it too, and a symbol
index outside the table. (DESIGN CHOICE, log 68.) -/
def applyRelocs (c : Context) (rs : List NewRegion) (at_ : Site) : List Reloc → Obj → Option Obj
  | [], o => some o
  | r :: rest, o =>
    let bs := placeBytes o r.place
    let n := relocSize r.kind
    if bs.length < r.off + n then none
    else
      match o.syms[r.sym]?.bind (symValue c at_) with
      | none => none
      | some v =>
        match relocBytes c rs at_.cw (placeAt at_ r) r.kind v r.addend (byteSlice bs r.off n) with
        | none => none
        | some new => applyRelocs c rs at_ rest (setPlace o (putBytes bs r.off new) r.place)

/-- Recompute the parity bits of a line (R31); the other bits of its line word stay, the reserved ones with them (R57). -/
def fixParity (d : List Byte) : List Byte :=
  let w := lineWord d % 2 ^ 24
  let top := bits (lineWord d) 31 30
  let slots := (List.range 5).foldl (fun a i => a + parity 96 (slotBits d i) * 2 ^ (24 + i)) 0
  putBytes d 60 (leBytes 4 (w + slots + parity 24 w * 2 ^ 29 + top * 2 ^ 30))

/-- Recompute `PAR` on every relocated line of code (R54, R105 step 4). -/
def fixLines (o : Obj) : Obj :=
  let lines := ((o.relocs.filter (fun r => r.place == .text)).flatMap (fun r =>
    [r.off / 64 * 64, (r.off + relocSize r.kind - 1) / 64 * 64])).eraseDups
  { o with text := lines.foldl (fun t i => putBytes t i (fixParity (byteSlice t i 64))) o.text }

/-! ### Code entries (R92, R93) -/

/-- Whether a range of text holds a line of `KIND` 0 or 1 (R93). -/
def holdsCode (text : List Byte) (off lines : Nat) : Bool :=
  (List.range lines).any (fun i => decide (lineKind (byteSlice text (off + 64 * i) 64) ≤ 1))

/-- The maximal runs of lines that no listed region covers: first line and length, in order. -/
def freeRuns (covered : Nat → Bool) : Nat → Nat → Option (Nat × Nat) → List (Nat × Nat)
  | 0, _, cur => cur.toList
  | n + 1, i, cur =>
    if covered i then cur.toList ++ freeRuns covered n (i + 1) none
    else
      match cur with
      | none => freeRuns covered n (i + 1) (some (i, 1))
      | some (a, k) => freeRuns covered n (i + 1) (some (a, k + 1))

/-- The regions of an object at a code offset: one for each of its code entries, and one for each run of its other lines, which take
the highest free indices (R93). -/
def newRegions (used : Nat → Bool) (o : Obj) (text : Nat) : List NewRegion :=
  let own := o.handles.filterMap (fun e =>
    let x : Entry := { raw := e.2, ext := [] }
    if x.kind = 6 then some { h := e.1, base := x.base, lines := x.lines, code := holdsCode o.text (x.base - text) x.lines } else none)
  let covered (i : Nat) : Bool := own.any (fun (r : NewRegion) =>
    decide (r.base ≤ text + 64 * i) && decide (text + 64 * i < r.base + 64 * r.lines))
  let runs := freeRuns covered (o.text.length / 64) 0 none
  let free := ((List.range' 5 4090).reverse).filter (fun h => !used h && !o.handles.any (fun e => e.1 == h))
  own ++ (runs.zip free).map (fun e =>
    { h := e.2, base := text + 64 * e.1.1, lines := e.1.2, code := holdsCode o.text (64 * e.1.1) e.1.2 })

/-- The first record of a region (R93, R135). -/
def firstRecord (r : NewRegion) : Region :=
  { base := r.base, lines := r.lines, gen := if r.code then 1 else 0, state := if r.code then .published else .empty,
    pscope := if r.code then 4 else 0, pdie := 0, punit := 0 }

/-- The bytes of a code entry that mirror a record (R92, R132). -/
def mirrorRecord (raw : List Byte) (r : Region) : List Byte :=
  putBytes raw 16 (leBytes 2 r.gen ++ [BitVec.ofNat 8 (r.pscope * 16 + rsCode r.state)])

/-- The entry that the loader creates for a run: read and `X` (R93). -/
def runEntry (r : NewRegion) : List Byte := putBytes (entryBytes r.base (64 * r.lines) 0x56 0) 20 (leBytes 4 r.lines)

/-- Two regions overlap (R92). -/
def overlaps (a n b m : Nat) : Bool := decide (a < b + 64 * m) && decide (b < a + 64 * n)

/-- No two regions of a context would overlap (R92). -/
def regionsApart (c : Context) : List NewRegion → Bool
  | [] => true
  | r :: rs =>
    rs.all (fun q => !overlaps r.base r.lines q.base q.lines) &&
      c.regions.all (fun e => !overlaps r.base r.lines e.2.base e.2.lines) && regionsApart c rs

/-! ### The sections' pages -/

/-- The pages of a section: its contents cut into 64 KiB pages from its address, which need not begin a page. -/
def sectionPages (va key : Nat) (bs : List Byte) (r w x a : Bool) (frames : List (Nat × Nat)) : List PageSpec :=
  let first := va / 2 ^ 16
  let n := if bs.isEmpty then 0 else (va + bs.length - 1) / 2 ^ 16 + 1 - first
  let m := Memory.writes [] (va % 2 ^ 16) bs
  (List.range n).map (fun i =>
    { va := (first + i) * 2 ^ 16, frame := (frames.find? (fun e => e.1 == first + i)).map (·.2), key := key, r := r, w := w, x := x,
      a := a, fill := some (m.cut (i * 2 ^ 16) (2 ^ 16)) })

/-- The pages of an object's three sections (R35, R105). The manual does not give every permission bit of them. (DESIGN CHOICE, log 73.) -/
def objPages (o : Obj) (at_ : Site) (key : Nat) (frames : List (Nat × Nat)) : List PageSpec :=
  sectionPages (at_.cw + at_.text) key o.text true true true false frames ++
    sectionPages at_.rodata key o.rodata true false false false frames ++
    sectionPages at_.data key o.data true true false true frames

/-- The places that the loader chose are as R105 says (step 1): `.text` on free code offsets, each section aligned, no page twice. -/
def placeOk (c : Context) (o : Obj) (at_ : Site) (pages : List PageSpec) : Bool :=
  at_.text % 2 ^ 16 == 0 && decide (at_.text + o.text.length ≤ 2 ^ 32) &&
    c.regions.all (fun e => !overlaps at_.text (o.text.length / 64) e.2.base e.2.lines) &&
    at_.rodata % (max o.rodataAlign 64) == 0 && at_.data % (max o.dataAlign 64) == 0 && decide (at_.rodata + o.rodata.length ≤ 2 ^ 52) &&
    decide (at_.data + o.data.length ≤ 2 ^ 52) && (pages.map (·.va)).eraseDups.length == pages.length

/-! ### LOAD (R105) -/

/-- What a load leaves, or that it fails. -/
structure Loaded where
  obj : Obj
  regions : List NewRegion
  table : List (Nat × List Byte)
  deriving DecidableEq, Repr, Inhabited

/-- The shape of an object (R52): no other section, whole lines, handle entries on free indices, whole launch blocks. An `.entry` that names no
launch of the object fails the load. (DESIGN CHOICE, log 68.) -/
def shapeOk (c : Context) (o : Obj) : Bool :=
  o.others.isEmpty && o.text.length % 64 == 0 &&
    o.handles.all (fun e => decide (5 ≤ e.1 ∧ e.1 ≤ 4094) && e.2.length == 32 && !mapHas c.table e.1) &&
    o.launches.all (fun e => e.2.length == 448) && (o.handles.map (·.1)).eraseDups.length == o.handles.length &&
    o.entry.all (fun n => o.launches.any (fun e => e.1 == n))

/-- A relocation that patches a handle entry. -/
def patchesHandle (r : Reloc) : Bool :=
  match r.place with
  | .handle _ => true
  | _ => false

/-- The entries that a load writes: the object's own and one for each run, with the mirror of each region's record (R92, R93). -/
def newTable (o : Obj) (rs : List NewRegion) : List (Nat × List Byte) :=
  let runs := rs.filter (fun r => !o.handles.any (fun e => e.1 == r.h))
  (o.handles ++ runs.map (fun r => (r.h, runEntry r))).map (fun e => (e.1, match rs.find? (fun r => r.h == e.1) with
    | some r => mirrorRecord e.2 (firstRecord r)
    | none => e.2))

/-- The valid code entry of an index, as the table will be (R92). -/
def entryIn (c : Context) (table : List (Nat × List Byte)) (h : Nat) : Option Entry :=
  match ((table.find? (fun e => e.1 == h)).map (·.2)).orElse (fun _ => mapGet c.table h) with
  | some raw =>
    let e : Entry := { raw := raw, ext := [] }
    if e.kind = 6 ∧ e.codeOk then some e else none
  | none => none

/-- The loader's report on the first launch block with a field out of range (R96): the field's offset in the block, then the launch's
name. (DESIGN CHOICE, log 65.) -/
def blockReport (entry : Nat → Option Entry) (launches : List (String × List Byte)) : Option (List Byte) :=
  (launches.find? (fun e => !blockOk entry e.2)).map (fun e =>
    leBytes 2 (((blockChecks entry e.2).find? (fun k => !k.2)).map (·.1) |>.getD 0) ++ e.1.toList.map (fun ch => BitVec.ofNat 8 ch.toNat))

/-- The regions of a load lie in its text, cover it, and overlap none (R92, R93). -/
def regionsOk (c : Context) (o : Obj) (at_ : Site) (rs : List NewRegion) : Bool :=
  regionsApart c rs && rs.all (fun r => decide (at_.text ≤ r.base ∧ r.base + 64 * r.lines ≤ at_.text + o.text.length)) &&
    (rs.map (·.lines)).sum == o.text.length / 64

/-- Steps 2 to 5 of R105 on an object: its relocated contents, its regions and its table entries; or the report of a load that fails, empty
but for a launch block. The relocations of handle entries come first, since a code entry's `BASE` makes its region. (DESIGN CHOICE,
logs 35, 68.) -/
def linkObj (c : Context) (o : Obj) (at_ : Site) : Except (List Byte) Loaded :=
  if !shapeOk c o || !importsFound c o then .error []
  else
    match applyRelocs c [] at_ (o.relocs.filter patchesHandle) o with
    | none => .error []
    | some o1 =>
      let rs := newRegions (mapHas c.table) o1 at_.text
      match applyRelocs c rs at_ (o.relocs.filter (fun r => !patchesHandle r)) o1 with
      | none => .error []
      | some o2 =>
        let o3 := fixLines o2
        let table := newTable o3 rs
        if !regionsOk c o3 at_ rs then .error []
        else
          match blockReport (entryIn c table) o3.launches with
          | some report => .error report
          | none => .ok { obj := o3, regions := rs, table := table }

namespace State

/-- Drop the cached copies of a context's entries from every handle cache (R105 step 6, R106). -/
def dropHandles (s : State) (c : Nat) (hs : List Nat) : State :=
  { s with cores := mapAll s.cores (fun _ x => { x with hcache := x.hcache.filter (fun e => !(e.1 == c && hs.contains e.2)),
                                                        look := x.look.filter (fun e => !(e.1 == c && hs.contains e.2)) }) }

/-- A context's I-cache lines on some code offsets go. -/
def dropCode (s : State) (c base lines : Nat) : State :=
  { s with cores := mapAll s.cores (fun _ x => { x with icache := x.icache.filter (fun l =>
      !(l.ctx == c && decide (base ≤ l.off) && decide (l.off < base + 64 * lines))) }) }

/-- Step 6 of R105, and what the context keeps of an object: the symbols that it exports (R46, R47), its launches, its entry launch and its
measurement. Of two objects that export the same name, the one loaded last serves later imports. (DESIGN CHOICE, log 68.) -/
def install (s : State) (c : Nat) (at_ : Site) (l : Loaded) : State :=
  let base := s.mod.nextBlock
  let named : List NamedBlock := (l.obj.launches.zipIdx).map (fun e => { id := base + e.2, name := e.1.1, bytes := e.1.2 })
  let x := s.ctx c
  let syms := (l.obj.syms.filter (fun e => e.out && e.at_ != .undef true && e.at_ != .undef false)).filterMap (fun e =>
    (symValue x at_ e).map (fun v => (e.name, v)))
  let digest := Config.sm3 ((l.obj.text ++ l.obj.rodata ++ l.obj.data).map BitVec.toNat)
  let s := s.modCtx c (fun y => { y with
    table := l.table.foldl (fun m e => mapSet m e.1 e.2) y.table
    regions := l.regions.foldl (fun m r => mapSet m r.h (firstRecord r)) y.regions
    blocks := named ++ y.blocks
    entry := match l.obj.entry with
      | some n => (named.find? (fun b => b.name == n)).map (·.id)
      | none => y.entry
    syms := syms ++ y.syms
    measured := y.measured ++ [digest] })
  (s.modMod (fun m => { m with nextBlock := base + named.length })).dropHandles c (l.table.map (·.1))

end State

/-! ### Requests (R429-R431) -/

/-- The message of a request. -/
def requestMsg : Instr → Option Msg
  | .attest m _ | .ctxCreate (m, _) | .ctxDestroy m | .map (m, _) | .unmap m _ _ | .load m _ _ | .start (m, _) | .wait m _ | .query m _ _
  | .haltatArm (m, _) | .haltatRelease (m, _) | .haltatDisarm m => some m
  | _ => none

/-- A request as the sender sent it: without what Cupola chooses for it, and as it arrived. -/
def asSent : Instr → Instr
  | .attest m n => .attest { m with again := false } n
  | .ctxCreate (m, r) => .ctxCreate ({ m with again := false }, { r with root := 0, cwbase := 0 })
  | .ctxDestroy m => .ctxDestroy { m with again := false }
  | .map (m, r) => .map ({ m with again := false }, { r with frames := [], tables := [] })
  | .unmap m va n => .unmap { m with again := false } va n
  | .load m o _ => .load { m with again := false } o default
  | .start (m, r) => .start ({ m with again := false }, r)
  | .wait m l => .wait { m with again := false } l
  | .query m l e => .query { m with again := false } l e
  | .haltatArm (m, h) => .haltatArm ({ m with again := false }, h)
  | .haltatRelease (m, h) => .haltatRelease ({ m with again := false }, h)
  | .haltatDisarm m => .haltatDisarm { m with again := false }
  | i => i

/-- A header that is not as R429 and R430 say: an unknown `RTYPE`, a reserved byte or a reply's status that is not zero, a flag that the
request has not, a payload too long or not of the length that `RLEN` gives, or a context where CTX.CREATE names none. (DESIGN CHOICE,
log 65.) -/
def badHead (m : Msg) : Bool :=
  decide (m.rtype < 1 ∨ 10 < m.rtype) || decide ((if m.rtype = 7 then 4 else if m.rtype = 4 then 2 else 1) ≤ m.flags) ||
    decide (2 ^ 20 < m.rlen) || m.rlen != m.len || fieldAt m.head 20 4 != 0 || fieldAt m.head 24 8 != 0 || (m.rtype == 2 && m.ctx != 0)

/-- The record with which a module whose boot failed answers: 64 bytes, the first of them the step (R433). (DESIGN CHOICE, log 65.) -/
def failureRecord (step : Nat) : List Byte := leBytes 64 step

namespace State

/-- The requests that wait on a flow for a context (R431). -/
def waitingOn (s : State) (m : Msg) : List Instr :=
  s.mod.inbox.filter (fun i => (requestMsg i).any (fun n => n.flow == m.flow && n.ctx == m.ctx))

/-- A request waits (R431). -/
def holdRequest (s : State) (i : Instr) : State := s.modMod (fun x => { x with inbox := x.inbox ++ [asSent i] })

/-- A request in its turn (R431): it takes effect, or must wait, behind those of its flow for its context that wait already. One that has
waited is taken up first of these. -/
def inTurn (s : State) (m : Msg) (i : Instr) (ready : Bool) (act : State → Option State) : State :=
  if m.again then
    if ready && (s.waitingOn m).head? == some (asSent i) then
      (act (s.modMod (fun x => { x with inbox := x.inbox.erase (asSent i) }))).getD s
    else s
  else if !ready || !(s.waitingOn m).isEmpty then s.holdRequest i
  else (act s).getD (s.holdRequest i)

/-- What comes before any request: a module that is off answers nothing, one whose boot failed its failure record (R433), a running one
BADREQ to a header that is not as it must be (R430); a message of another type is no message of this kind. -/
def received (s : State) (rtype : Nat) (m : Msg) (act : State) : State :=
  let first (x : State) : State := if m.again then s else x
  match s.mod.boot with
  | .off => s
  | .failed n => first (s.modMod (fun x => { x with answers := x.answers ++ [{ flow := m.flow, head := [], data := failureRecord n }] }))
  | .running =>
    if m.head.length ≠ 32 then s
    else if badHead m then first (s.answer m 1 [])
    else if m.rtype ≠ rtype then s
    else act

/-- A START of a flow for a context is not yet accepted (R431). -/
def startDue (s : State) (m : Msg) : Bool := (s.ctx m.ctx).submits.any (fun x => x.msg.any (fun n => n.flow == m.flow))

/-- A request for a context (R409, R430, R431): NOCTX where the context is unknown or destroyed; one for a cold context waits until it is
restored, and one behind a START of its flow until that has been accepted. -/
def request (s : State) (rtype : Nat) (m : Msg) (i : Instr) (act : Context → State → Option State) : State :=
  s.received rtype m (match s.ctx? m.ctx with
    | none => if m.again then s else s.answer m 2 []
    | some x => if x.destroyed then (if m.again then s else s.answer m 2 []) else s.inTurn m i (!x.cold && !s.startDue m) (act x))

/-! ### Frames that Cupola lacks -/

/-- How many frames are free (R256). -/
def framesLeft (s : State) : Nat := 4 * 192 * 2 ^ 14 - (s.frames.filter (fun e => e.2.owner.isSome)).length

/-- How many tables the pages of some addresses still need (R258, R259). -/
def tablesFor (s : State) (c : Nat) (vas : List Nat) : Nat :=
  let top (i : Nat) : Nat := s.dram.nat ((s.ctx c).root + i % 4096 * 16) 16
  let low (j : Nat) : Nat := s.dram.nat (bits (top (j / 4096)) 39 16 * 2 ^ 16 + j % 4096 * 16) 16
  ((vas.map (· / 2 ^ 40)).eraseDups.filter (fun i => !pteValid (top i) 0)).length +
    ((vas.map (· / 2 ^ 28)).eraseDups.filter (fun j => !pteValid (top (j / 4096)) 0 || !pteValid (low j) 1)).length

/-- A request that needs more frames than are free is answered NORES (R429); else it is done, or waits until Cupola has picked frames.
(DESIGN CHOICE, log 65.) -/
def withFrames (s : State) (m : Msg) (n : Nat) (done : Option State) : Option State :=
  if s.framesLeft < n then some (s.answer m 4 []) else done

end State

/-- LOAD (R105): the object is placed, linked and mapped, and its entries are written; a load that fails changes nothing, and its report
names the launch and the field where a block is at fault (R96). -/
def execLoad (m : Msg) (obj : Obj) (place : LoadPlace) (s : State) : Out :=
  .next (s.request 6 m (.load m obj place) (fun c s =>
    let at_ : Site := { cw := c.cwbase, text := place.textOff, rodata := place.rodataVa, data := place.dataVa }
    let pages (o : Obj) : List PageSpec := objPages o at_ ((c.keys.map (·.1)).headD 0) place.frames
    if !placeOk c obj at_ (pages obj) then none
    else
      match linkObj c obj at_ with
      | .error report => some (s.answer m 1 report)
      | .ok l =>
        let ps := pages l.obj
        s.withFrames m (ps.length + s.tablesFor m.ctx (ps.map (·.va)))
          (if !ps.all (fun g => g.frame.isSome) then none
          else (s.mapPages m.ctx ps place.tables).map (fun s => (s.install m.ctx at_ l).answer m 0 []))))

end Sys2Proof.Machine
end

