-- ==== Sys2Proof/Machine/Cupola.lean ====
section
/-!
DEFINITION. The requests that Cupola answers (R108, R396, R410, R427, R430, R431), contexts made, destroyed, cold and restored
(R401, R402, R406, R409), the handle table outside a load (R106), and accesses that come in at the ports (R294, R430, R432).
-/
namespace Sys2Proof.Machine

/-! ### CTX.CREATE (R401, R402, R430) -/

namespace State

/-- Whether a key id is another tenant's (R402). -/
def keyTaken (s : State) (tenant k : Nat) : Bool :=
  s.ctxs.any (fun e => !e.2.destroyed && e.2.tenant != tenant && e.2.keys.any (·.1 == k))

/-- The SM4 key of a key id of a tenant (R401, R402): the one it names already, or one that Cupola makes. -/
def keyFor (s : State) (k : Nat) : Nat :=
  ((s.ctxs.findSome? (fun e => if e.2.destroyed then none else (e.2.keys.find? (fun x => x.1 == k)).map (·.2)))).getD
    (Config.sm4Key s.tick k)

end State

/-- The tenant number of Cupola itself, which alone asks for contexts for services of its own (R401). (DESIGN CHOICE, log 16.) -/
def cupolaTenant : Nat := 0

/-- A context as CTX.CREATE makes it (R109, R401): it holds no ASID, having no work yet (R402), and `PRIV` is 1 only in one of Cupola's
own. (DESIGN CHOICE, log 16.) -/
def newContext (s : State) (r : CtxCreateReq) : Context :=
  { tenant := r.tenant, part := r.part, asids := [], root := r.root * 2 ^ 16, cwbase := r.cwbase,
    keys := r.keys.map (fun k => (k, s.keyFor k)), table := [], regions := [], queues := [], submits := [], lidNext := 1, cxgen := 0,
    due := 0, priv := decide (r.tenant = cupolaTenant), missingMode := r.missingMode, peers := r.peers, cold := false, destroyed := false, point := none, log := [],
    blocks := [], entry := none, syms := [], stored := [], flask := [], debt := 0, measured := [], image := none }

/-- CTX.CREATE (R401, R430): a context in a partition, with an empty level-0 table. -/
def execCtxCreate (q : Msg × CtxCreateReq) (s : State) : Out :=
  let (m, r) := q
  .next (s.received 2 m (s.inTurn m (.ctxCreate q) true (fun s =>
    if !mapHas s.parts r.part || decide (1 < r.missingMode) || r.keys.isEmpty || r.keys.any (fun k => decide (512 ≤ k)) then
      some (s.answer m 1 [])
    else if r.keys.any (s.keyTaken r.tenant) then some (s.answer m 3 [])
    else s.withFrames m 1
      (if !s.frameFree r.root || r.cwbase % 2 ^ 32 != 0 || decide (2 ^ 52 ≤ r.cwbase) then none
      else
        let c := s.mod.nextCtx
        let s := { s with dram := s.dram.zero (r.root * 2 ^ 16) (2 ^ 16), ctxs := mapSet s.ctxs c (newContext s r) }
        let s := s.modFrame r.root (fun x => { x with owner := some c })
        some ((s.modMod (fun x => { x with nextCtx := c + 1 })).answer m 0 (leBytes 4 c))))))

/-! ### CTX.DESTROY (R406, R430) -/

namespace State

/-- The frames that a context holds, as pages or as tables. -/
def framesOf (s : State) (c : Nat) : List Nat := (s.frames.filter (fun e => e.2.owner == some c)).map (·.1)

/-- A context's frames are released (R269). -/
def freeFrames (s : State) (c : Nat) : State :=
  (s.framesOf c).foldl (fun s n =>
    (s.discardLines (n * 2 ^ 16) 16).modFrame n (fun x => { gen := x.gen + 1, moving := none, frozen := false, owner := none })) s

/-- Nothing in the caches names a context any more. -/
def forgetCtx (s : State) (c : Nat) : State :=
  { s with tlb := s.tlb.filter (fun t => t.ctx != c),
           cores := mapAll s.cores (fun _ x => { x with icache := x.icache.filter (fun l => l.ctx != c),
                                                        look := x.look.filter (fun e => e.1 != c),
                                                        hcache := x.hcache.filter (fun e => e.1 != c) }) }

/-- The teams, launches, commands and requests of a context are gone. -/
def clearWork (s : State) (c : Nat) : State :=
  let ts := s.teamsOf c
  { s with teams := mapFilter s.teams (fun _ T => T.ctx != c), packs := mapFilter s.packs (fun k _ => !ts.contains (k / 32)),
           fibres := mapFilter s.fibres (fun k _ => !ts.contains (fibTeam k)), cmds := mapFilter s.cmds (fun _ x => !ts.contains x.team),
           reqs := mapFilter s.reqs (fun _ r => r.ctx != c), launches := mapFilter s.launches (fun _ L => L.ctx != c) }

/-- The requests that a CTX.DESTROY overtakes are answered NOCTX (R431): those that wait, the WAITs, the STARTs not yet accepted. -/
def failRequests (s : State) (c : Nat) : State :=
  let mine (n : Msg) : Bool := n.ctx == c
  let late := (s.mod.inbox.filterMap requestMsg).filter mine ++ (s.mod.waits.map (·.1)).filter mine ++
    (s.ctx c).submits.filterMap (·.msg)
  let s := s.modMod (fun x => { x with inbox := x.inbox.filter (fun i => !(requestMsg i).any mine), waits := x.waits.filter (fun w => !mine w.1),
                                       replies := x.replies.filter (fun r => r.ctx != c) })
  late.foldl (fun s n => s.answer n 2 []) s

/-- The requests of a team that are on their way. -/
def reqsOfTeam (s : State) (t : Nat) : List Nat := (s.reqs.filter (fun e => e.2.team == t)).map (·.1)

/-- A killed team retires (R406, R419-R421): its writes are performed, its release, its bit, its record; none while one of these waits
for a frozen frame (R265). -/
def retireKilled (s : State) (t : Nat) : Option State :=
  match (s.performReqs (s.reqsOfTeam t)).parkLeft t with
  | (false, _) => none
  | (true, s) =>
    let s := s.releaseTeam t
    if s.teamWaits t || !(s.reqsOfTeam t).isEmpty then none
    else
      let s := (s.reportFaults t).retireTeam t
      if (s.team? t).isSome then none else some s

/-- Killed teams retire one after another. -/
def retireAll (s : State) : List Nat → Option State
  | [] => some s
  | t :: ts => (s.retireKilled t).bind (fun s => State.retireAll s ts)

/-- The teams of a context that is destroyed (R406, R421): they are killed and retire failed, unless the context is cold (R409). -/
def endTeams (s : State) (c : Nat) : Option State :=
  if (s.ctx c).cold then some s
  else
    let s := s.killAll c
    s.retireAll (s.teamsOf c)

/-- A context is destroyed (R406, R430, R436): requests that wait are answered, its teams are killed and retire, its frames are freed and
its ASIDs dropped; none while a team's retirement must wait for a frozen frame. -/
def destroyCtx (s : State) (c : Nat) : Option State :=
  let p := (s.ctx c).part
  let s := (s.failRequests c).modCtx c (fun x => { x with submits := [] })
  (s.endTeams c).map (fun s =>
    let s := ((s.clearWork c).freeFrames c).forgetCtx c
    let s := if (s.partOf c).turn = some c then s.setTurn p none else s
    s.modCtx c (fun x => { x with asids := [], queues := [], point := none, stored := [], flask := [], image := none, destroyed := true }))

end State

/-- CTX.DESTROY (R430). -/
def execCtxDestroy (m : Msg) (s : State) : Out :=
  .next (s.request 3 m (.ctxDestroy m) (fun _ s => (s.destroyCtx m.ctx).map (fun s => s.answer m 0 [])))

/-! ### MAP and UNMAP (R264, R430) -/

/-- A range of whole 64 KiB pages inside the address space (R258). -/
def pageRange (va len : Nat) : Bool :=
  va % 2 ^ 16 == 0 && len % 2 ^ 16 == 0 && len != 0 && decide (va + len ≤ 2 ^ 52)

/-- The pages of a range. -/
def rangePages (va len : Nat) : List Nat := (List.range (len / 2 ^ 16)).map (fun i => va + i * 2 ^ 16)

/-- The page that MAP asks for, the i-th of its range; with zero-on-map (`RFLAGS`[0], R429) its frame is zeroed. -/
def mapSpec (m : Msg) (r : MapReq) (va i : Nat) : PageSpec :=
  { va := va, frame := if r.resident then r.frames[i]? else none, key := r.key, r := r.r, w := r.w, x := r.x, a := r.at_,
    fill := if bit m.flags 0 then some [] else none }

/-- MAP (R430): pages with the frames that Cupola picks, or without one. -/
def execMap (q : Msg × MapReq) (s : State) : Out :=
  let (m, r) := q
  .next (s.request 4 m (.map q) (fun c s =>
    let pages := rangePages r.va r.len
    if !pageRange r.va r.len || pages.any (fun va => (s.walk m.ctx va).isSome) then some (s.answer m 1 [])
    else if !c.keys.any (fun k => k.1 == r.key) then some (s.answer m 3 [])
    else s.withFrames m ((if r.resident then pages.length else 0) + s.tablesFor m.ctx pages)
      (if r.resident && r.frames.length != pages.length then none
      else (s.mapPages m.ctx (pages.zipIdx.map (fun e => mapSpec m r e.1 e.2)) r.tables).map (fun s => s.answer m 0 []))))

/-- UNMAP of one page: the shootdown of R264, and the release of its frame (R269); none while an access translated before it still
waits. -/
def State.unmapPage (s : State) (c va : Nat) : Option State :=
  match s.walk c va with
  | none => some s
  | some l =>
    let res := l.perms.getLsbD 2
    let s := if res then s.shoot c va l else (s.tlbDrop c va).dropLines c va l.size
    if res && s.undrained l then none
    else
      let s := (s.setPte l.pte 0).tlbDrop c va
      let s := if res then (s.wakeFrame l).releaseFrames l else s
      some (s.modCtx c (fun x =>
        { x with stored := x.stored.filter (· != pageOf l va), flask := x.flask.zero (pageOf l va) (2 ^ l.size) }))

/-- UNMAP of pages in turn. -/
def State.unmapPages (s : State) (c : Nat) : List Nat → Option State
  | [] => some s
  | va :: rest => (s.unmapPage c va).bind (fun s => State.unmapPages s c rest)

/-- UNMAP (R264, R430), complete before its reply; it waits for a migration of a page to end, and for its drain. -/
def execUnmap (m : Msg) (va len : Nat) (s : State) : Out :=
  .next (s.request 5 m (.unmap m va len) (fun _ s =>
    let pages := rangePages va len
    if !pageRange va len then some (s.answer m 1 [])
    else if pages.any (fun a => match s.walk m.ctx a with
        | some l => (s.movingAt l).isSome
        | none => false) then none
    else (s.unmapPages m.ctx pages).map (fun s => s.answer m 0 [])))

/-! ### START, WAIT and QUERY (R108, R396, R427, R430) -/

/-- The launch block of a START (R108). -/
def startBlock (c : Context) (name : Option String) : Option NamedBlock :=
  match name with
  | some n => c.blocks.find? (fun b => b.name == n)
  | none => c.entry.bind (fun id => c.blocks.find? (fun b => b.id == id))

/-- START (R108): the equivalent of LAUNCH on a named block, with AFTER and WHOLE in `RFLAGS` (R429); Cupola holds the token. It waits while
its queue is full (R113). -/
def execStart (q : Msg × StartReq) (s : State) : Out :=
  let (m, r) := q
  .next (s.request 7 m (.start q) (fun c s =>
    match startBlock c r.name with
    | none => some (s.answer m 1 [])
    | some nb =>
      let blk := blockOfBytes nb.bytes
      if !blockOk (s.codeEntry m.ctx) nb.bytes then some (s.answer m 1 [])
      else if 64 ≤ s.queueLoad m.ctx blk.queue then none
      else some (s.submit m.ctx { name := some nb.id, msg := some m, blk := blk, shape := r.shape, after := bit m.flags 0,
                                  whole := bit m.flags 1, parent := none, holder := .cupola })))

/-- WAIT (R424, R430): the token of a completed launch, now or at its completion. -/
def execWait (m : Msg) (lid : Nat) (s : State) : Out :=
  .next (s.request 8 m (.wait m lid) (fun _ s =>
    match s.launch? (launchKey m.ctx lid) with
    | none => some (s.answer m 1 [])
    | some L =>
      if L.done then some (s.answer m 0 (leBytes 4 L.value)) else some (s.modMod (fun x => { x with waits := x.waits ++ [(m, lid)] }))))

/-- An entry of the escalation queue as the number in its 40 bytes (R396). -/
def escalWord (e : Escal) : Nat :=
  e.ctx % 2 ^ 32 + e.lid % 2 ^ 32 * 2 ^ 32 + e.x % 2 ^ 16 * 2 ^ 112 + e.y % 2 ^ 16 * 2 ^ 128 + e.z % 2 ^ 16 * 2 ^ 144 +
    (e.outcome * 4096 + e.eff % 4096) * 2 ^ 160 + e.fib % 1024 * 2 ^ 176 + (e.die * 256 + e.core) * 2 ^ 192 + e.pc.toNat * 2 ^ 224 +
    e.arg % 2 ^ 64 * 2 ^ 256

/-- What QUERY returns of a launch (R427), four bytes each: its identifier, the teams retired and failed, the root counter, and once it has
completed its token. (DESIGN CHOICE, log 65.) -/
def queryData (L : Launch) : List Byte :=
  ([L.lid, L.retired, min L.failed (2 ^ 24 - 1), L.root] ++ (if L.done then [L.value] else [])).flatMap (leBytes 4)

/-- The escalation queue of a launch as QUERY returns it, 40 bytes an entry (R396). -/
def escalData (L : Launch) : List Byte := L.escal.flatMap (fun e => leBytes 40 (escalWord e))

/-- QUERY (R396, R427). (DEDUCED, log 47.) -/
def execQuery (m : Msg) (lid : Nat) (escalations : Bool) (s : State) : Out :=
  .next (s.request 9 m (.query m lid escalations) (fun _ s =>
    match s.launch? (launchKey m.ctx lid) with
    | none => some (s.answer m 1 [])
    | some L => some (s.answer m 0 (if escalations then escalData L else queryData L))))

/-! ### HALTAT (R410) -/

/-- HALTAT ARM: the point replaces the one before it; `CTX` is the message's context. -/
def execHaltatArm (q : Msg × HaltAt) (s : State) : Out :=
  let (m, h) := q
  .next (s.request 10 m (.haltatArm q) (fun c s =>
    let ok := h.ctx == m.ctx && (if h.byName then c.blocks.any (fun b => b.name == h.lname)
      else (s.launch? (launchKey m.ctx h.lid)).any (fun L => !L.done))
    some (if !ok then s.answer m 1 []
      else (s.modCtx m.ctx (fun x => { x with point := some { req := h, attached := if h.byName then none else some h.lid } })).answer
        m 0 [])))

/-- Whether a RELEASE names a team. -/
def frees (s : State) (h : HaltAt) (T : Team) : Bool :=
  let L := s.launch (launchKey T.ctx T.lid)
  let named := L.name.any (fun id => (s.ctx T.ctx).blocks.any (fun b => b.id == id && b.name == h.lname))
  T.ctx == h.ctx && T.debugHeld == some h.allTeams &&
    (h.allTeams || (T.x == h.tx && T.y == h.ty && T.z == h.tz && (if h.byName then named else T.lid == h.lid)))

/-- HALTAT RELEASE: the teams that a point halted may be bound again. -/
def execHaltatRelease (q : Msg × HaltAt) (s : State) : Out :=
  let (m, h) := q
  .next (s.request 10 m (.haltatRelease q) (fun _ s =>
    some (if h.ctx != m.ctx then s.answer m 1 []
      else { s with teams := mapAll s.teams (fun _ T => if frees s h T then { T with debugHeld := none } else T) }.answer m 0 [])))

/-- HALTAT DISARM. -/
def execHaltatDisarm (m : Msg) (s : State) : Out :=
  .next (s.request 10 m (.haltatDisarm m) (fun _ s =>
    some ((s.modCtx m.ctx (fun x => { x with point := none })).answer m 0 [])))

/-! ### A handle entry outside a load (R106) -/

/-- What the directory keeps of a code entry that is cleared, or replaced by one that names no region: no line, and the `GEN` from which a
later entry of the index goes on, so that no line fetched under it passes for one of the later region (R143). (DESIGN CHOICE, log 48.) -/
def Region.dormant (r : Region) : Region := { r with base := 0, lines := 0 }

/-- The record of a rewritten code entry keeps the `GEN`, `STATE` and `PSCOPE` that the directory holds (R106). Where it holds none, or
kept it of a cleared entry, the region begins empty, at `GEN` 0 or where the index's `GEN` stands. (DESIGN CHOICE, log 48.) -/
def rewriteRecord (c : Context) (index : Nat) (e : Entry) : Region :=
  match mapGet c.regions index with
  | some r => { r with base := e.base, lines := e.lines }
  | none => { base := e.base, lines := e.lines, gen := 0, state := .empty, pscope := 0, pdie := 0, punit := 0 }

/-- The table and the directory with an entry written whole; none where its region would overlap another (R92). -/
def writeEntry (c : Context) (index : Nat) (raw : List Byte) : Option Context :=
  let e : Entry := { raw := raw, ext := [] }
  let gone (r : Region) : Region := { r.dormant with state := .empty, pscope := 0, pdie := 0, punit := 0 }
  if e.kind = 0 then some { c with table := mapDel c.table index, regions := mapMod c.regions index gone }
  else if e.kind ≠ 6 then some { c with table := mapSet c.table index raw, regions := mapMod c.regions index gone }
  else if !e.codeOk then
    some { c with table := mapSet c.table index (((mapGet c.regions index).map (mirrorRecord raw)).getD raw),
                  regions := mapMod c.regions index Region.dormant }
  else if c.regions.any (fun r => r.1 != index && overlaps e.base e.lines r.2.base r.2.lines) then none
  else
    let r := rewriteRecord c index e
    some { c with table := mapSet c.table index (mirrorRecord raw r), regions := mapSet c.regions index r }

/-- HANDLE_ENTRY_WRITE (R106): the control process adds, replaces or clears an entry, and the cached copies go before the answer. An index
that is no user entry's and a region that would overlap another are answered BADREQ and write nothing; a cold context is restored first.
(DESIGN CHOICE, log 48.) -/
def execHandleEntryWrite (ctx index : Nat) (entry : List Byte) (s : State) : Out :=
  let m := Msg.own ctx
  .next (if s.mod.boot ≠ .running then s
    else
      match s.ctx? ctx with
      | none => s.answer m 2 []
      | some c =>
        if c.destroyed then s.answer m 2 []
        else if c.cold then s
        else if !decide (5 ≤ index ∧ index ≤ 4094) || entry.length != 32 then s.answer m 1 []
        else
          match writeEntry c index entry with
          | none => s.answer m 1 []
          | some d =>
            let old := mapGetD c.regions index default
            (((s.modCtx ctx (fun _ => d)).dropHandles ctx [index]).dropCode ctx old.base old.lines).answer m 0 [])

/-! ### Accesses at the ports (R294, R430, R432) -/

/-- What an access needs of a page (R261). -/
def rmaFor : RmaOp → XFor
  | .read _ => .read
  | .write _ => .write
  | .reduce .. => .atomic

/-- How many bytes an access covers. -/
def rmaLen : RmaOp → Nat
  | .read n => n
  | .write bs => bs.length
  | .reduce _ ty _ => xredSize ty

/-- How an access at a port goes: `busy` where home stalls it (R265). -/
inductive Ported where
  | performed (data : List Byte)
  | absent
  | busy
  | failed (perm : Bool)
  deriving DecidableEq, Repr, Inhabited

namespace State

/-- Read translated sectors at home. -/
def portRead (s : State) : List (Nat × Xl) → Nat → List Byte × State
  | [], _ => ([], s)
  | (va, x) :: rest, n =>
    let k := min n (64 - va % 64)
    let (bs, s) := s.homeRead x.pa x.key k
    let (more, s) := State.portRead s rest (n - k)
    (bs ++ more, s)

/-- Write translated sectors at home (R341). -/
def portWrite (s : State) : List (Nat × Xl) → List Byte → State
  | [], _ => s
  | (va, x) :: rest, bs =>
    let k := 64 - va % 64
    State.portWrite (s.homeWrite (paDie x.pa) x.pa x.key (bs.take k)) rest (bs.drop k)

/-- Whether home stalls an access to translated sectors (R265): a write, or a read that must first collect pending updates (R255). -/
def portHeld (s : State) (xs : List (Nat × Xl)) (wr : Bool) : Bool :=
  xs.any (fun e => s.frozen e.2.pa && (wr || !(s.heldComm (sectorKey e.2.pa e.2.key)).isEmpty))

/-- An access of a port or of a control process: translated sector by sector, then performed at home (R294, R341, R431). -/
def portAccess (s : State) (u : XUnit) (c va : Nat) (op : RmaOp) : Ported × State :=
  let n := rmaLen op
  match s.translateRange u c 0 (rmaFor op) (n / 64 + 2) va n [] with
  | (.error (.err e), s) => (if e.eff = Eff.memNonres then .absent else .failed (e.eff == Eff.memPerm), s)
  | (.error .held, s) => (.busy, s)
  | (.ok xs, s) =>
    if s.portHeld xs (rmaFor op != .read) then (.busy, s)
    else
      match op with
      | .read _ =>
        let (bs, s) := s.portRead xs n
        (.performed bs, s)
      | .write bs => (.performed [], s.portWrite xs bs)
      | .reduce o ty v =>
        let (old, s) := s.portRead xs n
        (.performed [], s.portWrite xs (leBytes n (atomNew (xredFn o ty) n (leNat old) v)))

/-- The first page of an access that is not resident. -/
def absentPage (s : State) (c va n : Nat) : Nat :=
  ((List.range n).find? (fun i => s.residence c (va + i) == .absent)).getD 0 + va

/-- What a port answers goes out. -/
def portAnswer (s : State) (r : PortReply) : State := s.modMod (fun m => { m with xport := m.xport ++ [r] })

/-- An access, through a port or a control process's walker, of a context that is not cold (R294, R430, R432): Cupola makes a page resident first, and the access is performed
after that (R266). One that is refused is answered with an error. The context holds its ASIDs for the access (R402). -/
def portStep (s : State) (u : XUnit) (c va frame : Nat) (op : RmaOp) (done : List Byte → State → State) (failed : Bool → State → State) : State :=
  match s.giveAsids c with
  | none => s
  | some t =>
    match t.portAccess u c va op with
    | (.busy, _) => s
    | (.absent, _) => s.makeResident c (s.absentPage c va (rmaLen op)) frame
    | (.failed perm, t) => (failed perm t).restAsids c
    | (.performed bs, t) => (done bs t).restAsids c

/-- The bytes of a namespace (R432). -/
def storeBytes (s : State) (ns off n : Nat) : List Byte :=
  (List.range n).map (fun i => (mapGet (mapGetD s.mod.store ns []) (off + i)).getD (Config.disk ns (off + i)))

/-- Write bytes of a namespace (R432). -/
def storeWrite (s : State) (ns off : Nat) (bs : List Byte) : State :=
  s.modMod (fun m => { m with store := mapSet m.store ns (bs.zipIdx.foldl (fun d e => mapSet d (off + e.2) e.1) (mapGetD m.store ns [])) })

/-- The Flask namespace of a tenant (R266, R409, R432): what is stored of the pages of each of its contexts. -/
def flaskOf (s : State) (tenant : Nat) : Map Memory := (s.ctxs.filter (fun e => e.2.tenant == tenant)).map (fun e => (e.1, e.2.flask))

end State

/-- Where an access goes: a peer's segment names a handle of this context and an offset, which are looked up and checked here (R284, R293);
the `ECODE` of one that fails. -/
def State.rmaPlace (s : State) (c va : Nat) (r : RmaReq) : Except Nat Nat :=
  match r.far with
  | none => .ok va
  | some h =>
    let e := if h = 0 then { raw := s.fixedEntry 0 0, ext := [] } else s.entryIn c h
    let rd := match r.op with
      | .read _ => true
      | _ => false
    match farBad { h := h, e := e } rd va (rmaLen r.op) with
    | some f => .error f.1
    | none => .ok (if h = 0 then va else e.base + va)

/-- An atomic has an operation and a type of R295. -/
def rmaOk : RmaOp → Bool
  | .reduce o ty _ => decide (o ≤ 5 ∧ ty ≤ 6)
  | _ => true

/-- RMA_ACCESS (R293, R294, R430): a remote party's access, or a segment of a peer's network command, whose handle is looked up here; with `own`,
an access of the tenant's control process by its own walker (R431). One to a cold context waits; one to a context that is destroyed or unknown, or that the page refuses, is
answered with an error of its transport, and the latter is logged, but for the control process's own. (DEDUCED, log 49.) -/
def execRmaAccess (ctx va : Nat) (r : RmaReq) (frame : Nat) (s : State) : Out :=
  let reply (data : Option (List Byte)) (code : Nat) (s : State) : State :=
    s.portAnswer { storage := false, ctx := ctx, va := va, data := data, code := if r.far.isSome then code else 0 }
  .next (if s.mod.boot ≠ .running then s
    else if !rmaOk r.op || (s.ctx? ctx).all (·.destroyed) then reply none ecRemote s
    else if !s.live ctx then s
    else
      match s.rmaPlace ctx va r with
      | .error code => reply none code s
      | .ok a => s.portStep (if r.own then .control else .port) ctx a frame r.op (fun bs s => reply (some bs) 0 s)
        (fun perm s => reply none (if perm then ecPerm else ecFault) (if r.own then s else s.logCtx ctx (.refusedAccess a perm))))

/-- STORAGE_TRANSFER (R432): a transfer between a namespace and a tenant's address space; Cupola answers once every write is performed. -/
def execStorageTransfer (ctx va : Nat) (op : StoreReq) (frame : Nat) (s : State) : Out :=
  let reply (data : Option (List Byte)) (s : State) : State := s.portAnswer { storage := true, ctx := ctx, va := va, data := data, code := 0 }
  .next (if s.mod.boot ≠ .running ∨ !s.live ctx then s
    else if op.out then
      s.portStep .port ctx va frame (.read op.len) (fun bs s => reply (some []) (s.storeWrite op.ns op.off bs)) (fun _ s => reply none s)
    else s.portStep .port ctx va frame (.write (s.storeBytes op.ns op.off op.len)) (fun _ s => reply (some []) s) (fun _ s => reply none s))

/-! ### Cold contexts (R409) -/

namespace State

/-- A context may be made cold: no team of it is bound, every halt is complete, and nothing of it is on its way. -/
def mayCool (s : State) (c : Nat) : Bool :=
  s.live c && s.teams.all (fun e => e.2.ctx != c || e.2.saved.isSome) &&
    s.cmds.all (fun e => !(isNet e.2.kind && (s.team e.2.team).ctx == c)) && s.reqs.all (fun e => e.2.ctx != c || e.2.replay)

/-- A resident page goes into the image. -/
def coolPage (s : State) (c va : Nat) : State :=
  match s.walk c va with
  | none => s
  | some l => if l.perms.getLsbD 2 && (s.movingAt l).isNone then s.storePage c va l else s

end State

/-- The image of a context as Cupola writes it (R409): encrypted under the tenant's key, and the HMAC over the whole. (DESIGN CHOICE,
log 80.) -/
def imageFor (tick tenant : Nat) : Image :=
  let data := Config.sm4Xts (Config.tenantKey tenant) (Config.coldImage tick)
  { data := data, mac := Config.hmacSm3 (Config.tenantKey tenant) data }

/-- What the store gives back of an image, some of whose numbers have been altered there; the number behind its bytes is the HMAC. -/
def Image.read (g : Image) (altered : List (Nat × Nat)) : Image :=
  altered.foldl (fun g e => if e.1 < g.data.length then { g with data := g.data.set e.1 e.2 } else { g with mac := e.2 }) g

/-- The HMAC of an image matches (R409). -/
def Image.ok (g : Image) (tenant : Nat) : Bool := Config.hmacSm3 (Config.tenantKey tenant) g.data == g.mac

/-- MAKE_COLD (R409): the context's image is written to its tenant's namespace, some of its resident pages with it, and it holds no ASID. -/
def execMakeCold (ctx : Nat) (pages : List Nat) (s : State) : Out :=
  .next (if !s.mayCool ctx then s
    else
      let s := pages.foldl (fun s va => s.coolPage ctx va) s
      let s := { s with tlb := s.tlb.filter (fun t => t.ctx != ctx) }
      let s := if (s.partOf ctx).turn = some ctx then s.setTurn (s.ctx ctx).part none else s
      s.modCtx ctx (fun x => { x with asids := [], cold := true, image := some (imageFor s.tick x.tenant) }))

/-- An image whose HMAC does not match (R409): the request that asked for the restoration is answered INTEGRITY, and the context is
destroyed. -/
def State.failRestore (s : State) (c : Nat) : State :=
  let t := match s.mod.inbox.find? (fun i => (requestMsg i).any (fun (n : Msg) => n.ctx == c)) with
    | none => s
    | some i => (s.modMod (fun x => { x with inbox := x.inbox.erase i })).answer ((requestMsg i).getD default) 5 []
  (t.destroyCtx c).getD s

/-- CONTEXT_RESTORE (R409): the HMAC of the image that the store gives back is right and the context is as it was, under the ASIDs that
Cupola picks where it has work (R402), or the restoration fails. -/
def execContextRestore (ctx : Nat) (altered : List (Nat × Nat)) (asids : List Nat) (s : State) : Out :=
  .next (match s.ctx? ctx with
    | none => s
    | some c =>
      if !c.cold || c.destroyed then s
      else if !((c.image.getD default).read altered).ok c.tenant then s.failRestore ctx
      else
        let t := s.modCtx ctx (fun x => { x with cold := false, image := none })
        if t.hasWork ctx then (t.giveThese ctx asids).getD s else t)

/-! ### ATTEST (R433) -/

/-- What an ATTEST reply carries: the log's digests and the nonce, 32 bytes each, the signature over both in 64 bytes, the certificate.
(DESIGN CHOICE, log 65.) -/
def attestData (log : List Nat) (nonce : Nat) : List Byte :=
  (log ++ [nonce]).flatMap (leBytes 32) ++ leBytes 64 (Config.sm2Sign (log ++ [nonce])) ++ Config.identityCert

/-- ATTEST (R433): of the module alone, or with the loads of the context that `RCTX` names. -/
def execAttest (m : Msg) (nonce : Nat) (s : State) : Out :=
  .next (if m.ctx = 0 then s.received 1 m (s.inTurn m (.attest m nonce) true (fun s => some (s.answer m 0 (attestData s.mod.measure nonce))))
    else s.request 1 m (.attest m nonce) (fun c s => some (s.answer m 0 (attestData (s.mod.measure ++ c.measured) nonce))))

end Sys2Proof.Machine
end

