-- ==== Sys2Proof/Machine/Platform.lean ====
section
/-!
DEFINITION. The module: boot (R433), monitors and margins (R434), uncorrectable errors (R314, R436), and the boundary between two
partitions (R118).
-/
namespace Sys2Proof.Machine

/-! ### Boot (R433) -/

/-- A remap table (R11, R13, R118): on each die, 32 of the 36 physical quads, none of which a fuse marks as failed. -/
def remapOk (fused : List (Nat × Nat)) (t : List (List Nat)) : Bool :=
  t.length == 4 && t.zipIdx.all (fun d => d.1.length == 32 && d.1.eraseDups.length == 32 &&
    d.1.all (fun q => decide (q < 36) && !fused.contains (d.2, q)))

/-- The Cupola image (R433, step 1): the boot namespace's, or the boot server's where that cannot be read. -/
def State.bootImage (s : State) (b : BootInput) : Option (List Byte) :=
  match b.nvme with
  | some n => some (s.storeBytes 0 0 n)
  | none => b.uet

/-- The SM3 digest of an image, and that of the key it carries (R433, step 2). -/
def imageDigest (img : List Byte) : Nat := Config.sm3 (img.map BitVec.toNat)
def keyDigest (img : List Byte) : Nat := Config.sm3 [Config.imageKey img]

/-- The checks of step 2 (R433): the signature, a fuse slot with the key's digest that is not revoked, the security version. -/
def imageOk (img : List Byte) : Bool :=
  Config.sm2Verify (Config.imageKey img) (imageDigest img) (Config.imageSig img) &&
    (Config.keyFuses.take 4).any (fun k => k.1 == keyDigest img && !k.2) && decide (Config.versionFuse ≤ Config.imageVersion img)

/-- The first step of the boot ROM that fails, if any (R433). -/
def bootFailure (fused : List (Nat × Nat)) (img : Option (List Byte)) (b : BootInput) : Option Nat :=
  match img with
  | none => some 1
  | some img =>
    if !imageOk img then some 2
    else if !b.linksUp then some 4
    else if !b.planOk || !remapOk fused b.remap then some 5
    else none

/-- The partition that holds every quad and the whole Tundish of every die (R118). (DESIGN CHOICE, log 13.) -/
def firstPartition : Partition :=
  { quads := (List.range 4).flatMap (fun d => (List.range 32).map (fun q => (d, q))),
    tun := (List.range 4).map (fun d => (d, (0, 16384))), fifo := false, served := [], turn := none, since := 0, slice := 0 }

/-- The measurements of a boot (R433, steps 3 and 5). -/
def bootLog (img : List Byte) (b : BootInput) : List Nat :=
  [Config.romDigest, imageDigest img, keyDigest img, Config.sm3 b.remap.flatten, Config.sm3 [b.plan]]

/-- What announces the module on the ports (R433, step 6): a message without header or payload, on flow 0. (DESIGN CHOICE, log 65.) -/
def announcement : Answer := { flow := 0, head := [], data := [] }

/-- BOOT (R433): a module that is off runs Cupola, which announces it on the ports, or halts at the step that fails. -/
def execBoot (b : BootInput) (s : State) : Out :=
  .next (if s.mod.boot ≠ .off then s
    else
      let img := s.bootImage b
      match bootFailure s.mod.fused img b with
      | some n => s.modMod (fun m => { m with boot := .failed n })
      | none =>
        { s with parts := [(0, firstPartition)] }.modMod (fun m =>
          { m with boot := .running, remap := b.remap, plan := b.plan, measure := m.measure ++ bootLog (img.getD []) b,
                   log := m.log ++ [SysLog.announced], answers := m.answers ++ [announcement] }))

/-! ### Ageing (R434) -/

/-- MONITOR_READ (R434, R436): Cupola reads a die's 48 path-delay monitors and 16 thermal sensors, and counts the errors that ECC has
corrected. (DESIGN CHOICE, log 51.) -/
def execMonitorRead (die : Nat) (s : State) : Out :=
  .next (if s.mod.boot ≠ .running ∨ 4 ≤ die then s
    else s.modMod (fun m => { m with
      monitors := mapSet m.monitors die ((List.range 48).map (Config.monitor s.tick die))
      sensors := mapSet m.sensors die ((List.range 16).map (Config.sensor s.tick die))
      corrected := m.corrected + Config.correctedErrors s.tick
      log := m.log ++ [.monitor die] }))

namespace State

/-- The physical quad behind a logical one (R13). -/
def physical (s : State) (d q : Nat) : Nat := (s.mod.remap.getD d []).getD q 36

/-- The partition that holds a quad. -/
def partWith (s : State) (q : Nat × Nat) : Option (Nat × Partition) := s.parts.find? (fun e => e.2.quads.contains q)

/-- A partition is drained for a quad's retirement: none of its teams runs (R118, R407). -/
def stopped (s : State) (p : Nat) : Bool := s.teams.all (fun e => (s.ctx e.2.ctx).part != p || e.2.saved.isSome)

/-- The cores of a quad. -/
def quadCores (q : Nat × Nat) : List Nat := (List.range 4).map (fun i => coreKey q.1 (q.2 * 4 + i))

/-- The halted teams of a quad are killed and retire failed (R407). -/
def killQuad (s : State) (q : Nat × Nat) : State :=
  let ts := (s.teams.filter (fun e => (quadCores q).contains (coreKey e.2.die e.2.core))).map (·.1)
  ts.foldl (fun s t => if (s.team? t).isSome then s.killTeam t else s) s

/-- A physical quad that may take a retired one's place: spare, not marked by a fuse, and never retired. -/
def spareOk (s : State) (d n : Nat) : Bool :=
  decide (n < 36) && !s.mod.fused.contains (d, n) && !(s.mod.remap.getD d []).contains n && !s.mod.log.contains (.quadRetired d n)

/-- Something of a quad's cores is still to go home, and home stalls it (R265). -/
def quadWaits (s : State) (q : Nat × Nat) : Bool :=
  (quadCores q).any s.dirtyLeft || s.reqs.any (fun e => (quadCores q).contains e.2.core)

/-- One quad is retired through the remap table (R13, R118, R434): what its cores hold goes home, its halted teams are killed, and
its logical number passes to a spare quad or leaves its partition. It no longer waits for its retirement. (DEDUCED, log 51.) -/
def retireQuad (s : State) (q : Nat × Nat) (spare : Nat) : State :=
  match s.partWith q with
  | none => s
  | some (p, _) =>
    if !s.stopped p then s
    else
      let old := s.physical q.1 q.2
      let s := (quadCores q).foldl State.writeBackAll s
      if s.quadWaits q then s
      else
        let s := s.killQuad q
        let s := { s with cores := mapFilter s.cores (fun c _ => !(quadCores q).contains c) }
        let s :=
          if s.spareOk q.1 spare then
            s.modMod (fun m => { m with remap := m.remap.set q.1 ((m.remap.getD q.1 []).set q.2 spare) })
          else { s with parts := mapMod s.parts p (fun x => { x with quads := x.quads.filter (· != q) }) }
        s.modMod (fun m => { m with log := m.log ++ [.quadRetired q.1 old], failing := m.failing.filter (· != q) })

/-- The quads of the partitions whose monitors, as last read, fail a plan (R434). -/
def failsUnder (s : State) (plan : Nat) : List (Nat × Nat) :=
  (s.parts.flatMap (fun e => e.2.quads)).filter (fun q => Config.failsPlan plan (mapGetD s.mod.monitors q.1 []) (s.physical q.1 q.2))

/-- The voltage margins are planned anew, and the quads that fail the plan are to be retired (R434), with those of the plan before that
still are. -/
def replan (s : State) : State :=
  let plan := Config.marginPlan s.tick
  s.modMod (fun m => { m with plan := plan, failing := m.failing ++ (s.failsUnder plan).filter (fun q => !m.failing.contains q) })

end State

/-- MARGIN_REPLAN (R434): Cupola plans the margins, `anew` where the 500 hours are over, and every quad whose monitors fail the plan is retired
under a drain, with the spare that the step names for it; those whose partition still runs wait for a further step. (DEDUCED, log 51.) -/
def execMarginReplan (anew : Bool) (spares : List Nat) (s : State) : Out :=
  .next (if s.mod.boot ≠ .running then s
    else
      let s := if anew then s.replan else s
      (s.mod.failing.zipIdx).foldl (fun s e => s.retireQuad e.1 (spares.getD e.2 36)) s)

/-! ### Errors (R314, R436) -/

/-- Bytes with one bit turned over. -/
def flipBit (d : List Byte) (bit : Nat) : List Byte :=
  d.set (bit / 8) (d.getD (bit / 8) 0 ^^^ BitVec.ofNat 8 (2 ^ (bit % 8)))

/-- A soft error in a line of a core's I-cache, which its parity shows and a refetch clears (R147, R436). -/
def State.softError (s : State) (core i bit : Nat) : State :=
  s.modCore core (fun c => match c.icache[i]? with
    | some l => { c with icache := c.icache.set i { l with data := flipBit l.data bit } }
    | none => c)

/-- UNCORRECTABLE_ERROR (R147, R314, R436): a matrix operand is marked until the engine reads it or it is written; a line of code is as the
error leaves it; of any other data that a context reads, the context is destroyed, once no retirement of its teams must wait. -/
def execUncorrectableError (site : EccSite) (s : State) : Out :=
  .next (match site with
    | .code core i bit => s.softError core i bit
    | .data c =>
      match s.ctx? c with
      | none => s
      | some x => if x.destroyed then s else (s.destroyCtx c).getD s
    | _ => s.modMod (fun m => { m with bad := site :: m.bad.filter (· != site) }))

/-! ### Partitions (R118) -/

namespace State

/-- A partition is drained for a boundary: it has no team, bound or halted (R118). -/
def drained (s : State) (p : Nat) : Bool := s.teams.all (fun e => (s.ctx e.2.ctx).part != p)

/-- The partition that quads move to: as it is, or a new one. -/
def partTo (s : State) (q : Partition) (into_ : Nat) : Partition :=
  (mapGet s.parts into_).getD
    { quads := [], tun := [], fifo := q.fifo, served := [], turn := none, since := 0, slice := 0 }

end State

/-- The Tundish shares of a die when quads of it move from one partition to another that has no share there yet: the upper half moves with
them, or the whole where the giver keeps no quad of the die. Other shares stay. (DESIGN CHOICE, log 14.) -/
def moveShare (qs : List (Nat × Nat)) (e : Partition × Partition) (d : Nat) : Partition × Partition :=
  let base := e.1.shareBase d
  let n := e.1.share d
  let up := if e.1.quads.any (fun x => x.1 == d) then n / 2 else n
  if !qs.any (fun x => x.1 == d) || mapHas e.2.tun d then e
  else ({ e.1 with tun := if up = n then mapDel e.1.tun d else mapSet e.1.tun d (base, n - up) },
    { e.2 with tun := mapSet e.2.tun d (base + (n - up), up) })

/-- PARTITION_BOUNDARY_MOVE (R118): quads move from one partition to another while both are drained. -/
def execPartitionBoundaryMove (outOf into_ : Nat) (quads : List (Nat × Nat)) (s : State) : Out :=
  .next (match mapGet s.parts outOf with
    | none => s
    | some q =>
      if outOf = into_ ∨ 16 ≤ into_ ∨ !s.drained outOf ∨ !s.drained into_ ∨ !quads.all q.quads.contains then s
      else
        let t := s.partTo q into_
        let qs := quads.eraseDups
        let giver : Partition := { q with quads := q.quads.filter (fun x => !qs.contains x) }
        let taker : Partition := { t with quads := t.quads ++ qs }
        let (giver, taker) := (List.range 4).foldl (moveShare qs) (giver, taker)
        { s with parts := mapSet (mapSet s.parts outOf giver) into_ taker })

end Sys2Proof.Machine
end

