-- ==== Sys2Proof/Machine/Dispatch.lean ====
section
/-!
DEFINITION. The meaning of every step of the opcode table: one arm per constructor of Instr.
-/
namespace Sys2Proof.Machine

def exec (i : Instr) (s : State) : Host.Outcome State Fault Refusal :=
  match i with
  | .nop => Sys2Proof.Machine.execNop s
  | .iadd o => Sys2Proof.Machine.execIadd o s
  | .isub o => Sys2Proof.Machine.execIsub o s
  | .imul o => Sys2Proof.Machine.execImul o s
  | .imulh o => Sys2Proof.Machine.execImulh o s
  | .imad o => Sys2Proof.Machine.execImad o s
  | .imadw o => Sys2Proof.Machine.execImadw o s
  | .idiv o => Sys2Proof.Machine.execIdiv o s
  | .irem o => Sys2Proof.Machine.execIrem o s
  | .imin o => Sys2Proof.Machine.execImin o s
  | .imax o => Sys2Proof.Machine.execImax o s
  | .iabs o => Sys2Proof.Machine.execIabs o s
  | .ineg o => Sys2Proof.Machine.execIneg o s
  | .isad o => Sys2Proof.Machine.execIsad o s
  | .and o => Sys2Proof.Machine.execAnd o s
  | .or o => Sys2Proof.Machine.execOr o s
  | .xor o => Sys2Proof.Machine.execXor o s
  | .not o => Sys2Proof.Machine.execNot o s
  | .andn o => Sys2Proof.Machine.execAndn o s
  | .shl o => Sys2Proof.Machine.execShl o s
  | .shr o => Sys2Proof.Machine.execShr o s
  | .sar o => Sys2Proof.Machine.execSar o s
  | .rot o => Sys2Proof.Machine.execRot o s
  | .fsh o => Sys2Proof.Machine.execFsh o s
  | .bfx o => Sys2Proof.Machine.execBfx o s
  | .bfi o => Sys2Proof.Machine.execBfi o s
  | .brev o => Sys2Proof.Machine.execBrev o s
  | .popc o => Sys2Proof.Machine.execPopc o s
  | .clz o => Sys2Proof.Machine.execClz o s
  | .ctz o => Sys2Proof.Machine.execCtz o s
  | .prmb o => Sys2Proof.Machine.execPrmb o s
  | .lea o => Sys2Proof.Machine.execLea o s
  | .mov o => Sys2Proof.Machine.execMov o s
  | .sel o => Sys2Proof.Machine.execSel o s
  | .ipred o => Sys2Proof.Machine.execIpred o s
  | .plut o => Sys2Proof.Machine.execPlut o s
  | .prdw o => Sys2Proof.Machine.execPrdw o s
  | .pwrw o => Sys2Proof.Machine.execPwrw o s
  | .haddr o => Sys2Proof.Machine.execHaddr o s
  | .clock o => Sys2Proof.Machine.execClock o s
  | .bra o => Sys2Proof.Machine.execBra o s
  | .brx o => Sys2Proof.Machine.execBrx o s
  | .call o => Sys2Proof.Machine.execCall o s
  | .callx o => Sys2Proof.Machine.execCallx o s
  | .ret o => Sys2Proof.Machine.execRet o s
  | .brdec o => Sys2Proof.Machine.execBrdec o s
  | .join o => Sys2Proof.Machine.execJoin o s
  | .leave o => Sys2Proof.Machine.execLeave o s
  | .waitm o => Sys2Proof.Machine.execWaitm o s
  | .mset o => Sys2Proof.Machine.execMset o s
  | .spawn o => Sys2Proof.Machine.execSpawn o s
  | .exit o => Sys2Proof.Machine.execExit o s
  | .demote o => Sys2Proof.Machine.execDemote o s
  | .yield o => Sys2Proof.Machine.execYield o s
  | .ballot o => Sys2Proof.Machine.execBallot o s
  | .agree o => Sys2Proof.Machine.execAgree o s
  | .shfl o => Sys2Proof.Machine.execShfl o s
  | .prdx o => Sys2Proof.Machine.execPrdx o s
  | .pscan o => Sys2Proof.Machine.execPscan o s
  | .matchLanes o => Sys2Proof.Machine.execMatch o s
  | .binit o => Sys2Proof.Machine.execBinit o s
  | .arrive o => Sys2Proof.Machine.execArrive o s
  | .bwait o => Sys2Proof.Machine.execBwait o s
  | .bsync o => Sys2Proof.Machine.execBsync o s
  | .btest o => Sys2Proof.Machine.execBtest o s
  | .hbar o => Sys2Proof.Machine.execHbar o s
  | .fadd o => Sys2Proof.Machine.execFadd o s
  | .fsub o => Sys2Proof.Machine.execFsub o s
  | .fmul o => Sys2Proof.Machine.execFmul o s
  | .ffma o => Sys2Proof.Machine.execFfma o s
  | .fmin o => Sys2Proof.Machine.execFmin o s
  | .fmax o => Sys2Proof.Machine.execFmax o s
  | .fpred o => Sys2Proof.Machine.execFpred o s
  | .fclass o => Sys2Proof.Machine.execFclass o s
  | .frcp o => Sys2Proof.Machine.execFrcp o s
  | .frsq o => Sys2Proof.Machine.execFrsq o s
  | .fsqrt o => Sys2Proof.Machine.execFsqrt o s
  | .fex2 o => Sys2Proof.Machine.execFex2 o s
  | .flg2 o => Sys2Proof.Machine.execFlg2 o s
  | .ftanh o => Sys2Proof.Machine.execFtanh o s
  | .v2add o => Sys2Proof.Machine.execV2add o s
  | .v2mul o => Sys2Proof.Machine.execV2mul o s
  | .v2fma o => Sys2Proof.Machine.execV2fma o s
  | .fcvt o => Sys2Proof.Machine.execFcvt o s
  | .icvt o => Sys2Proof.Machine.execIcvt o s
  | .scaleq o => Sys2Proof.Machine.execScaleq o s
  | .mfpack o => Sys2Proof.Machine.execMfpack o s
  | .mfunpk o => Sys2Proof.Machine.execMfunpk o s
  | .fdot4 o => Sys2Proof.Machine.execFdot4 o s
  | .idot4 o => Sys2Proof.Machine.execIdot4 o s
  | .fstat o => Sys2Proof.Machine.execFstat o s
  | .ld o => Sys2Proof.Machine.execLd o s
  | .st o => Sys2Proof.Machine.execSt o s
  | .stl o => Sys2Proof.Machine.execStl o s
  | .ldq o => Sys2Proof.Machine.execLdq o s
  | .queueEntryArrival fib q index => Sys2Proof.Machine.execQueueEntryArrival fib q index s
  | .qpop o => Sys2Proof.Machine.execQpop o s
  | .qstat o => Sys2Proof.Machine.execQstat o s
  | .pref o => Sys2Proof.Machine.execPref o s
  | .hres o => Sys2Proof.Machine.execHres o s
  | .wbr o => Sys2Proof.Machine.execWbr o s
  | .invr o => Sys2Proof.Machine.execInvr o s
  | .atom o => Sys2Proof.Machine.execAtom o s
  | .acas o => Sys2Proof.Machine.execAcas o s
  | .red o => Sys2Proof.Machine.execRed o s
  | .fence o => Sys2Proof.Machine.execFence o s
  | .wline o => Sys2Proof.Machine.execWline o s
  | .watchSlotTrigger core fib => Sys2Proof.Machine.execWatchSlotTrigger core fib s
  | .capenter o => Sys2Proof.Machine.execCapenter o s
  | .cstep o => Sys2Proof.Machine.execCstep o s
  | .capexit o => Sys2Proof.Machine.execCapexit o s
  | .capreset o => Sys2Proof.Machine.execCapreset o s
  | .cpy o => Sys2Proof.Machine.execCpy o s
  | .cpyt o => Sys2Proof.Machine.execCpyt o s
  | .gath o => Sys2Proof.Machine.execGath o s
  | .scat o => Sys2Proof.Machine.execScat o s
  | .xput o => Sys2Proof.Machine.execXput o s
  | .xget o => Sys2Proof.Machine.execXget o s
  | .xred o => Sys2Proof.Machine.execXred o s
  | .tktest o => Sys2Proof.Machine.execTktest o s
  | .copySegment cmd => Sys2Proof.Machine.execCopySegment cmd s
  | .fixupService cmd frame => Sys2Proof.Machine.execFixupService cmd frame s
  | .networkSegment cmd reply frame => Sys2Proof.Machine.execNetworkSegment cmd reply frame s
  | .wload o => Sys2Proof.Machine.execWload o s
  | .wloadCommand cmd => Sys2Proof.Machine.execWloadCommand cmd s
  | .mma o => Sys2Proof.Machine.execMma o s
  | .mmaCommand cmd => Sys2Proof.Machine.execMmaCommand cmd s
  | .mmas o => Sys2Proof.Machine.execMmas o s
  | .mmasClr o => Sys2Proof.Machine.execMmasClr o s
  | .accz o => Sys2Proof.Machine.execAccz o s
  | .accld o => Sys2Proof.Machine.execAccld o s
  | .accst o => Sys2Proof.Machine.execAccst o s
  | .accstCommand cmd => Sys2Proof.Machine.execAccstCommand cmd s
  | .accstat o => Sys2Proof.Machine.execAccstat o s
  | .publish o => Sys2Proof.Machine.execPublish o s
  | .adopt o => Sys2Proof.Machine.execAdopt o s
  | .adoptSpill o => Sys2Proof.Machine.execAdoptSpill o s
  | .retract o => Sys2Proof.Machine.execRetract o s
  | .fbar o => Sys2Proof.Machine.execFbar o s
  | .rgnq o => Sys2Proof.Machine.execRgnq o s
  | .launch o => Sys2Proof.Machine.execLaunch o s
  | .launchAccept ctx => Sys2Proof.Machine.execLaunchAccept ctx s
  | .handle o => Sys2Proof.Machine.execHandle o s
  | .unhandle o => Sys2Proof.Machine.execUnhandle o s
  | .perform o => Sys2Proof.Machine.execPerform o s
  | .resume o => Sys2Proof.Machine.execResume o s
  | .unwind o => Sys2Proof.Machine.execUnwind o s
  | .effq o => Sys2Proof.Machine.execEffq o s
  | .swriteElogclr o => Sys2Proof.Machine.execSwriteElogclr o s
  | .swriteLogmark o => Sys2Proof.Machine.execSwriteLogmark o s
  | .swrite o => Sys2Proof.Machine.execSwrite o s
  | .errqPop o => Sys2Proof.Machine.execErrqPop o s
  | .errqPeek o => Sys2Proof.Machine.execErrqPeek o s
  | .errqCnt o => Sys2Proof.Machine.execErrqCnt o s
  | .bkpt o => Sys2Proof.Machine.execBkpt o s
  | .isaMissing w => Sys2Proof.Machine.execIsaMissing w s
  | .lineFetch fib => Sys2Proof.Machine.execLineFetch fib s
  | .coreIssue core => Sys2Proof.Machine.execCoreIssue core s
  | .resultArrival fib => Sys2Proof.Machine.execResultArrival fib s
  | .waitConditionMet fib => Sys2Proof.Machine.execWaitConditionMet fib s
  | .effectDelivery fib => Sys2Proof.Machine.execEffectDelivery fib s
  | .missingEmulation fib => Sys2Proof.Machine.execMissingEmulation fib s
  | .missingSignalAnswer fib answer => Sys2Proof.Machine.execMissingSignalAnswer fib answer s
  | .stuckDeadlock team => Sys2Proof.Machine.execStuckDeadlock team s
  | .hbarDeadlock ctx lid => Sys2Proof.Machine.execHbarDeadlock ctx lid s
  | .bindTeam part res => Sys2Proof.Machine.execBindTeam part res s
  | .dispatch core slot => Sys2Proof.Machine.execDispatch core slot s
  | .dispatchReady core slot => Sys2Proof.Machine.execDispatchReady core slot s
  | .teamRetire team => Sys2Proof.Machine.execTeamRetire team s
  | .homeAccess req => Sys2Proof.Machine.execHomeAccess req s
  | .l1Eviction core sector key => Sys2Proof.Machine.execL1Eviction core sector key s
  | .tableWalk unit ctx va => Sys2Proof.Machine.execTableWalk unit ctx va s
  | .makeResident ctx va frame => Sys2Proof.Machine.execMakeResident ctx va frame s
  | .pageMigration ctx va frame => Sys2Proof.Machine.execPageMigration ctx va frame s
  | .sliceEnd ctx => Sys2Proof.Machine.execSliceEnd ctx s
  | .halt teams => Sys2Proof.Machine.execHalt teams s
  | .haltComplete team ns => Sys2Proof.Machine.execHaltComplete team ns s
  | .haltWatchdog team => Sys2Proof.Machine.execHaltWatchdog team s
  | .staleReplyDrop ctx => Sys2Proof.Machine.execStaleReplyDrop ctx s
  | .teamResume team res => Sys2Proof.Machine.execTeamResume team res s
  | .haltPointFire ctx => Sys2Proof.Machine.execHaltPointFire ctx s
  | .makeCold ctx pages => Sys2Proof.Machine.execMakeCold ctx pages s
  | .contextRestore ctx altered asids => Sys2Proof.Machine.execContextRestore ctx altered asids s
  | .attest m nonce => Sys2Proof.Machine.execAttest m nonce s
  | .ctxCreate q => Sys2Proof.Machine.execCtxCreate q s
  | .ctxDestroy m => Sys2Proof.Machine.execCtxDestroy m s
  | .map q => Sys2Proof.Machine.execMap q s
  | .unmap m va len => Sys2Proof.Machine.execUnmap m va len s
  | .load m obj place => Sys2Proof.Machine.execLoad m obj place s
  | .start q => Sys2Proof.Machine.execStart q s
  | .wait m lid => Sys2Proof.Machine.execWait m lid s
  | .query m lid escalations => Sys2Proof.Machine.execQuery m lid escalations s
  | .haltatArm q => Sys2Proof.Machine.execHaltatArm q s
  | .haltatRelease q => Sys2Proof.Machine.execHaltatRelease q s
  | .haltatDisarm m => Sys2Proof.Machine.execHaltatDisarm m s
  | .handleEntryWrite ctx index entry => Sys2Proof.Machine.execHandleEntryWrite ctx index entry s
  | .rmaAccess ctx va op frame => Sys2Proof.Machine.execRmaAccess ctx va op frame s
  | .storageTransfer ctx va op frame => Sys2Proof.Machine.execStorageTransfer ctx va op frame s
  | .boot b => Sys2Proof.Machine.execBoot b s
  | .monitorRead die => Sys2Proof.Machine.execMonitorRead die s
  | .marginReplan anew spares => Sys2Proof.Machine.execMarginReplan anew spares s
  | .uncorrectableError site => Sys2Proof.Machine.execUncorrectableError site s
  | .acczCommand cmd => Sys2Proof.Machine.execAcczCommand cmd s
  | .pageEviction ctx va => Sys2Proof.Machine.execPageEviction ctx va s
  | .icacheEviction core index => Sys2Proof.Machine.execIcacheEviction core index s
  | .partitionBoundaryMove src dst quads => Sys2Proof.Machine.execPartitionBoundaryMove src dst quads s

end Sys2Proof.Machine
end

