-- ==== Sys2Proof/Machine/Placing.lean ====
section
/-!
DEFINITION. The shared parts of one step: its opening, what a batch that issues runs, and how one instruction is placed so that the
next step runs it.
-/
namespace Sys2Proof.Machine

namespace State

/-- The opening of a step: the counter moves on, and no batch is in execution. -/
def opened (s : State) : State := { s with tick := s.tick + 1, cur := none }

/-- The head of the agenda is taken. -/
def dropAgenda (s : State) : State := { s with agenda := s.agenda.tail }

end State

/-- What a step does (log 2): it executes an instruction of the table in a state; it lets the lanes that issued a word that is no
instruction raise ISA.ILLEGAL (R80); or nothing more than the state says. -/
inductive Move where
  | run (i : Instr) (s : State)
  | illegal (s : State)
  | rest (s : State)
  deriving DecidableEq, Repr

/-- The move of the batch at the head of the issue list (R145, R151). A word that is no instruction raises ISA.ILLEGAL before its lanes'
mode is asked, in capsule mode too: R81 does not order the cases of its step 4. (DESIGN CHOICE, log 60.) -/
def State.issueMove (s : State) (b : Batch) (more : List Batch) : Move :=
  match s.issueNext b more with
  | .inl i => .run i s
  | .inr t =>
    match t.cur with
    | none => .rest t
    | some c =>
      match decode c.word with
      | .ok i => .run i t
      | .error _ => .illegal t

/-- The move of a state: of the batches that have formed, else of the agenda, else the free choice of the environment (log 2). -/
def State.move (s : State) : Move :=
  match s.issue, s.agenda with
  | b :: more, _ => s.opened.issueMove b more
  | [], i :: _ => .run i s.opened.dropAgenda
  | [], [] => .run (Config.turn s.tick) s.opened

/-! ### Placing one instruction -/

/-- A line that holds one instruction in slot 0 (R27, R31). -/
def oneSlotLine (w : Nat) : List Byte := fixParity (leBytes 12 w ++ List.replicate 52 0)

/-- The launch block of the placed instruction's team: one pack with one lane, every kind of allocation. -/
def placedBlock : Block :=
  { zeroLane := false, strictlat := false, qgroup := 0, queue := 0, prio := 0, scope := 3, order := 0, gx := 1, gy := 1, gz := 1, sbh := 0,
    hpc := 0, hrgn := 0, scratch := 65536, quadexp := 0, tundish := 0, lane := 8192, acc := 8, wslots := 8,
    roles := [{ epc := 0, ergn := 5, regs := 128, packs := 1, lanes := 1 }, default, default, default], deps := [], buckets := [] }

namespace State

/-- The launch of the placed instruction's team. -/
def placedLaunch (s : State) : Launch :=
  { ctx := s.mod.nextCtx, lid := 1, name := none, blk := placedBlock, shape := [0, 0, 0, 0], after := false, whole := false, bucket := 0,
    parent := none, holder := .cupola, order := 0, score := [], released := [0], bound := [0], retired := 0, failed := 0, root := 1,
    coreCnt := [(0, 1)], quadCnt := [(0, 1)], dieCnt := [(0, 1)], home := some 0, started := true, done := false, value := 0, escal := [] }

/-- The context of the placed instruction's team. -/
def placedContext : Context :=
  { tenant := 1, part := 0, asids := [(0, 0), (1, 0), (2, 0), (3, 0)], root := 0, cwbase := 0, keys := [(0, 0)], table := [], regions := [],
    queues := [(0, [1])], submits := [], lidNext := 2, cxgen := 0, due := 0, priv := false, missingMode := 0, peers := [], cold := false,
    destroyed := false, point := none, log := [], blocks := [], entry := none, syms := [], stored := [], flask := [], debt := 0,
    measured := [], image := none }

/-- The running team of the placed instruction, on core 0 of die 0. -/
def placedTeam (s : State) : Team :=
  { ctx := s.mod.nextCtx, lid := 1, x := 0, y := 0, z := 0, die := 0, core := 0,
    brec := { ctx := s.mod.nextCtx, lid := 1, tx := 0, ty := 0, tz := 0, slot := 0, resume := false, valid := true, rfBase := 0,
              spBase := 0, tdBase := 0, accMap := 0xFF, wsBase := 0, pkBase := 0, bkt := 0 },
    phase := .running, halted := false, haltAsked := none, sliced := false, debugHeld := none, failed := false, k := [], kser := 0, points := [], mc := [],
    adopted := [], spill := none, spilled := [], hbarRound := [], saved := none, again := false }

/-- The fibre of the placed instruction: at PC 0 by sequential flow, with the line in its fetch buffer (R131). -/
def placedFibre (line : List Byte) : Fibre :=
  { Fibre.start 0 [(rG 2, 8192#32)] with
    xfer := false, fbuf := some { off := 0, data := line, region := 5, gen := 1, last := false } }

/-- A running module with a team of one fibre whose fetch buffer holds a line, and a batch of that fibre at the head of the issue
list. -/
def placeLine (s : State) (line : List Byte) : State :=
  let c := s.mod.nextCtx
  let t := s.mod.nextTeam
  { s with
    ctxs := mapSet s.ctxs c placedContext
    launches := mapSet s.launches (launchKey c 1) s.placedLaunch
    teams := mapSet s.teams t s.placedTeam
    packs := mapSet s.packs (t * 32) Pack.start
    fibres := mapSet s.fibres (fibKey t 0) (placedFibre line)
    mod := { s.mod with boot := .running, nextCtx := c + 1, nextTeam := t + 1 }
    issue := Batch.formed t 0 0 [0] 0 0 :: s.issue }

end State

end Sys2Proof.Machine
end

