-- ==== Sys2Proof/Machine/Step.lean ====
section
/-!
DEFINITION. One step of the device, and the placing of one instruction where the next step runs it.
-/
namespace Sys2Proof.Machine

/-- The outcome of a move. -/
def State.runMove : Move → Host.Outcome State Fault Refusal
  | .run i s => exec i s
  | .illegal s => .next (raiseIllegal s)
  | .rest s => .next s

/-- Whether a move is a request that arrives at the ports. -/
def Move.isRequest : Move → Bool
  | .run i _ => (requestMsg i).isSome
  | _ => false

/-- One step. A module whose boot failed is halted, and only answers what arrives at its ports (R433). -/
def step (s : State) : Host.Outcome State Fault Refusal :=
  match s.mod.boot with
  | .failed n => if s.move.isRequest then State.runMove s.move else .fault (.moduleHalted n)
  | _ => State.runMove s.move

/-- s with an instruction in the fetch buffer of a running fibre whose batch issues next (log 10). -/
def State.withFetchWord (s : State) (nbits w : Nat) : State := s.placeLine (oneSlotLine (w % 2 ^ nbits))

end Sys2Proof.Machine
end

