-- ==== Sys2Proof/Safety.lean ====
section
/-!
DEFINITION. What counts as a safe run, in the terms that claims use: that an instruction or a step answers a next state, the
states in which a batch runs an instruction without an effect or a wait, what such a run does to its lanes, and the canonical
forms.
-/
namespace Sys2Proof.Machine

/-- An instruction answers a next state. -/
def Runs (i : Instr) (s : State) : Prop := ∃ t, exec i s = .next t

/-- A step answers a next state. -/
def Steps (s : State) : Prop := ∃ t, step s = .next t

/-- Entries with strictly rising keys: the canonical form of a table. -/
def sortedKeys {α : Type} : Map α → Bool
  | [] => true
  | [_] => true
  | a :: b :: m => decide (a.1 < b.1) && sortedKeys (b :: m)

/-! ### Batches -/

/-- A fibre whose instruction at pc is over, by sequential flow (R56). -/
def Fibre.passed (x : Fibre) (pc : Word) : Fibre := { (x.flow (nextPc pc)) with retry := false }

/-- A fibre that skips the instruction at pc: what the instruction had begun before a wait is given up (R111, R140). -/
def Fibre.skipped (x : Fibre) (pc : Word) : Fibre := { x.passed pc with retracting := none, launching := none }

/-- A batch is in hand, each of whose lanes runs the instruction, or skips it for a false guard or as a helper: none raises an
effect, none waits, and none holds the value of a launch token it has not read. -/
structure Quiet (s : State) (n : Need) (b : Batch) : Prop where
  cur : s.cur = some b
  once : b.lanes.Nodup
  fates : ∀ l ∈ b.lanes, s.fate n b l = .go ∨ s.fate n b l = .off ∨ s.fate n b l = .nop
  live : ∀ l ∈ b.lanes, ∃ x, s.fibre? (b.fib l) = some x ∧ x.tokAcq = []

/-- A batch of one lane is in hand, whose fibre x passes every check that is not the instruction's own. -/
structure Lone (s : State) (n : Need) (b : Batch) (l : Nat) (x : Fibre) : Prop where
  cur : s.cur = some b
  lanes : b.lanes = [l]
  fate : s.fate n b l = .go
  fibre : s.fibre? (b.fib l) = some x
  token : x.tokAcq = []

/-- From s to t nothing but fibre f changes, and it by h. -/
structure OnlyFibre (s t : State) (f : Nat) (h : Fibre → Fibre) : Prop where
  this_ : t.fibre? f = (s.fibre? f).map h
  others : ∀ e, e ≠ f → t.fibre? e = s.fibre? e
  rest : t = { s with fibres := t.fibres }

/-- A register written through a specifier that is no k register (R69). -/
def Fibre.put1 (x : Fibre) (cls : Cls) (sp : Spec) (v : Word) : Fibre :=
  match sp with
  | .p i => x.put cls (rP i.val) (if v = 0 then 0 else 1)
  | .g i => x.put cls (if x.capMode && decide (i.val < 8) then rC i.val else rG i.val) v
  | _ => x

/-- Consecutive registers written from the specifier's on (R71). -/
def Fibre.putFrom (x : Fibre) (cls : Cls) (sp : Spec) : Nat → List Word → Fibre
  | _, [] => x
  | i, w :: ws =>
    let sp' : Spec := match sp with
      | .g j => if h : j.val + i < 128 then .g ⟨j.val + i, h⟩ else .none
      | .k j => if h : j.val + i < 64 then .k ⟨j.val + i, h⟩ else .none
      | x => x
    (x.put1 cls sp' w).putFrom cls sp (i + 1) ws

/-- dst(F, L, ty, v) of R84 in a lane whose destination is no k register: a value of n registers. -/
def Fibre.putD (x : Fibre) (cls : Cls) (sp : Spec) (n v : Nat) : Fibre :=
  match sp with
  | .p _ => x.put1 cls sp (if v % 2 ^ (32 * n) = 0 then 0 else 1)
  | _ => x.putFrom cls sp 0 (natWords n v)

/-- A specifier that names a k register, which the batch writes as a whole (R69). -/
def namesK : Spec → Bool
  | .k _ => true
  | _ => false

/-- The lanes of a batch that run an instruction, ascending as the batch lists them. -/
def goers (s : State) (n : Need) (b : Batch) : List Nat := b.lanes.filter (fun l => s.fate n b l == .go)

/-- The fibre of a lane that has moved on past an instruction, which it runs or skips. -/
def movedOn (s : State) (n : Need) (b : Batch) (l : Nat) (x : Fibre) : Fibre :=
  if s.fate n b l = .go then x.passed b.pc else x.skipped b.pc

/-- The state in which every lane of a batch has moved on. -/
def settled (s : State) (n : Need) (b : Batch) : State := b.lanes.foldl (fun t l => t.modFibre (b.fib l) (movedOn s n b l)) s

/-- The state in which one lane has moved on. -/
def past (s : State) (b : Batch) (l : Nat) : State := s.modFibre (b.fib l) (fun x => x.passed b.pc)

/-- What a run that changes nothing but the fibres of its batch leaves: each lane that runs it has `g` of its fibre, moved on; each
lane that skips it has moved on without; everything else is as before. -/
structure LaneResult (s t : State) (n : Need) (b : Batch) (g : Nat → Fibre → Fibre) : Prop where
  runs : ∀ l ∈ b.lanes, s.fate n b l = .go → t.fibre? (b.fib l) = (s.fibre? (b.fib l)).map (fun x => g l (x.passed b.pc))
  skips : ∀ l ∈ b.lanes, s.fate n b l ≠ .go → t.fibre? (b.fib l) = (s.fibre? (b.fib l)).map (fun x => x.skipped b.pc)
  others : ∀ f, (∀ l ∈ b.lanes, f ≠ b.fib l) → t.fibre? f = s.fibre? f
  rest : t = { s with fibres := t.fibres }

end Sys2Proof.Machine
end

