-- ==== Sys2Proof/Certificates/Slice0/Obligations.lean ====
section
/-!
DEFINITION. The statements about the device: first the terms they share (namespace Sys2Proof.Claims), then one definition
Obligations.<Name> each. A batch in hand stands for the lanes that issue together; `Quiet` and `Lone` (Sys2Proof/Safety.lean) say that
its lanes pass every check that is not the instruction's own.
-/
namespace Sys2Proof.Claims

open Sys2Proof.Machine

/-! ### Register-only instructions: what a lane computes -/

/-- What an instruction that changes only registers does in a lane: what it reads and writes, the class of its result, the number of
registers it writes through D, and from the lane's operands the value and the sticky flags. -/
structure LaneOp where
  need : Need
  cls : Cls
  wd : Nat
  out : Vals → Nat × Nat

/-- The lane's fibre after its result: flags joined to those already set (R212), then D written. -/
def LaneOp.act (op : LaneOp) (v : Vals) (x : Fibre) : Fibre :=
  ({ x with flags := x.flags ||| BitVec.ofNat 5 (op.out v).2 }).putD op.cls op.need.head.d op.wd (op.out v).1

/-- Over every batch all of whose lanes run or skip it, the instruction completes: each lane that runs it has its result, each other
lane has moved on, and nothing else changes. -/
def Computes (i : Instr) (op : LaneOp) : Prop :=
  ∀ s b, Quiet s op.need b → namesK op.need.head.d = false →
    ∃ t, exec i s = .next t ∧ LaneResult s t op.need b (fun l => op.act (s.readVals op.need b l))

/-- An integer of the instruction's type in an operand's registers (R71). -/
def tv (o : AL) (ws : List Word) : Int := tyVal o.ty (wordsNat ws)

/-- R166 with one, two or three operands of the instruction's type: the exact result v, saturated or wrapped into D. -/
def exact (o : AL) (cls : Cls) (n : Nat) (v : Int → Int → Int → Int) : LaneOp :=
  { need := alNeed o (tyRegs o.ty) (if 2 ≤ n then tyRegs o.ty else 0) (if 3 ≤ n then tyRegs o.ty else 0) (tyRegs o.ty)
    cls := cls, wd := tyRegs o.ty
    out := fun x => (narrow o.ty o.sat (v (tv o x.a) (tv o x.b) (tv o x.c)), 0) }

/-- R166 where the result is a bit pattern v of the operands' registers, modulo the width of D. -/
def pattern (o : AL) (na nb nc wd : Nat) (v : Nat → Nat → Nat → Nat) : LaneOp :=
  { need := alNeed o na nb nc wd, cls := .a, wd := wd,
    out := fun x => (v (wordsNat x.a) (wordsNat x.b) (wordsNat x.c) % 2 ^ (32 * wd), 0) }

/-- Integer arithmetic, opcodes 0x01-0x0D (R167, R168, R169). -/
def arithmetic : Instr → Option LaneOp
  | .iadd o => some (exact o .a 2 (fun a b _ => a + b))
  | .isub o => some (exact o .a 2 (fun a b _ => a - b))
  | .imul o => some (exact o .b 2 (fun a b _ => a * b))
  | .imulh o => some (exact o .b 2 (fun a b _ => (a * b) / (2 ^ o.ty.width : Nat)))
  | .imad o => some (exact o .b 3 (fun a b c => a * b + c))
  | .imadw o => some
      { need := alNeed o 1 1 2 2, cls := .b, wd := 2,
        out := fun x => (unsign (tv o x.a * tv o x.b + (wordsNat x.c : Int)) 64, 0) }
  | .idiv o => some (exact o .v 2 (fun a b _ => if b = 0 then (if o.ty.signed then -1 else tyMax o.ty) else a.tdiv b))
  | .irem o => some (exact o .v 2 (fun a b _ => if b = 0 then a else a.tmod b))
  | .imin o => some (exact o .a 2 (fun a b _ => min a b))
  | .imax o => some (exact o .a 2 (fun a b _ => max a b))
  | .iabs o => some (exact o .a 1 (fun a _ _ => (a.natAbs : Int)))
  | .ineg o => some (exact o .a 1 (fun a _ _ => -a))
  | .isad o => some (exact o .a 3 (fun a b c => ((a - b).natAbs : Int) + c))
  | _ => none

/-- Logic, shifts, fields and counts, opcodes 0x0E-0x1F (R167, R170, R171). -/
def logic : Instr → Option LaneOp
  | .and o => some (pattern o (tyRegs o.ty) (tyRegs o.ty) 0 (tyRegs o.ty) (fun a b _ => a &&& b))
  | .or o => some (pattern o (tyRegs o.ty) (tyRegs o.ty) 0 (tyRegs o.ty) (fun a b _ => a ||| b))
  | .xor o => some (pattern o (tyRegs o.ty) (tyRegs o.ty) 0 (tyRegs o.ty) (fun a b _ => a ^^^ b))
  | .not o => some (pattern o (tyRegs o.ty) 0 0 (tyRegs o.ty) (fun a _ _ => 2 ^ o.ty.width - 1 - a % 2 ^ o.ty.width))
  | .andn o => some (pattern o (tyRegs o.ty) (tyRegs o.ty) 0 (tyRegs o.ty)
      (fun a b _ => a &&& (2 ^ o.ty.width - 1 - b % 2 ^ o.ty.width)))
  | .shl o => some (pattern o (tyRegs o.ty) 1 0 (tyRegs o.ty) (fun a n _ => if n < o.ty.width then a <<< n else 0))
  | .shr o => some (pattern o (tyRegs o.ty) 1 0 (tyRegs o.ty) (fun a n _ => if n < o.ty.width then a >>> n else 0))
  | .sar o => some
      { need := alNeed o (tyRegs o.ty) 1 0 (tyRegs o.ty), cls := .a, wd := tyRegs o.ty,
        out := fun x => (unsign (tv o x.a / (2 ^ min (wordsNat x.b) o.ty.width : Nat)) (32 * tyRegs o.ty), 0) }
  | .rot o => some (pattern o (tyRegs o.ty) 1 0 (tyRegs o.ty) (fun a n _ =>
      a <<< (n % o.ty.width) % 2 ^ o.ty.width + a >>> (o.ty.width - n % o.ty.width)))
  | .fsh o => some (pattern o 1 1 1 1 (fun a b n =>
      if o.fn == 1 then (a * 2 ^ 32 + b) <<< (n % 32) / 2 ^ 32 else (a * 2 ^ 32 + b) >>> (n % 32)))
  | .bfx o => some
      { need := alNeed o (tyRegs o.ty) 1 0 (tyRegs o.ty), cls := .a, wd := tyRegs o.ty,
        out := fun x => (unsign (bfx o.ty (tv o x.a) (wordsNat x.b)) (32 * tyRegs o.ty), 0) }
  | .bfi o => some (pattern o (tyRegs o.ty) 1 (tyRegs o.ty) (tyRegs o.ty) (fun a f c => bfi o.ty.width a f c))
  | .brev o => some (pattern o (tyRegs o.ty) 0 0 (tyRegs o.ty) (fun a _ _ => reverseBits o.ty.width a))
  | .popc o => some (pattern o (tyRegs o.ty) 0 0 1 (fun a _ _ => popcount o.ty.width a))
  | .clz o => some (pattern o (tyRegs o.ty) 0 0 1 (fun a _ _ => leadingZeros o.ty.width a))
  | .ctz o => some (pattern o (tyRegs o.ty) 0 0 1 (fun a _ _ => trailingZeros o.ty.width a))
  | .prmb o => some (pattern o 1 1 1 1 (fun a b c => prmb a b c))
  | .lea o => some (pattern o (tyRegs o.ty) 1 0 (tyRegs o.ty)
      (fun a b _ => unsign ((a : Int) + sext b 32 * (2 ^ o.x.toNat : Nat)) o.ty.width))
  | _ => none

/-- Moves and predicates, opcodes 0x20-0x23 (R172, R173). -/
def moves : Instr → Option LaneOp
  | .mov o => some (pattern o (tyRegs o.ty) 0 0 (tyRegs o.ty) (fun a _ _ => a))
  | .sel o => some (pattern o (tyRegs o.ty) (tyRegs o.ty) 1 (tyRegs o.ty) (fun a b c => if c % 2 ^ 32 = 0 then b else a))
  | .ipred o => some
      { need := alNeed o (tyRegs o.ty) (tyRegs o.ty) (if o.c.isNone then 0 else 1) 1, cls := .a, wd := 1,
        out := fun x => (b2n (comb o.x (cmpInt o.fn.toNat (tv o x.a) (tv o x.b)) (wordsNat x.c != 0)), 0) }
  | .plut o => some
      { need := alNeed o 1 1 1 1, cls := .a, wd := 1,
        out := fun x => (b2n (o.fn.getLsbD (4 * (wordsNat x.a % 2) + 2 * (wordsNat x.b % 2) + wordsNat x.c % 2)), 0) }
  | _ => none

/-- A floating-point instruction whose result is one register (R230). -/
def floating (o : AL) (cls : Cls) (nb nc : Nat) (g : Nat → Nat → Nat → Nat × Nat) : LaneOp :=
  { need := alNeed o 1 nb nc 1, cls := cls, wd := 1, out := fun x => g (wordsNat x.a) (wordsNat x.b) (wordsNat x.c) }

/-- Floating-point arithmetic and comparison, opcodes 0x50-0x57 (R231-R234): the correctly rounded result of the exact one. -/
def floats : Instr → Option LaneOp
  | .fadd o => some (floating o .b 1 0 (fun a b _ => fAdd (fmtOf o.ty) o.rm (fDecode o.ty a) (fDecode o.ty b)))
  | .fsub o => some (floating o .b 1 0 (fun a b _ => fAdd (fmtOf o.ty) o.rm (fDecode o.ty a) (fDecode o.ty b).negate))
  | .fmul o => some (floating o .b 1 0 (fun a b _ => fMul (fmtOf o.ty) o.rm (fDecode o.ty a) (fDecode o.ty b)))
  | .ffma o => some (floating o .b 1 1 (fun a b c =>
      fFma (fmtOf o.ty) o.rm (fDecode o.ty a) (fDecode o.ty b) (fDecode o.ty c)))
  | .fmin o => some (floating o .b 1 0 (fun a b _ =>
      fMinMax (fmtOf o.ty) false (o.fn == 1) (a % 2 ^ o.ty.width) (b % 2 ^ o.ty.width)))
  | .fmax o => some (floating o .b 1 0 (fun a b _ =>
      fMinMax (fmtOf o.ty) true (o.fn == 1) (a % 2 ^ o.ty.width) (b % 2 ^ o.ty.width)))
  | .fpred o => some (floating o .b 1 (if o.c.isNone then 0 else 1) (fun a b c =>
      (b2n (comb o.x (cmpFloat o.fn.toNat (fDecode o.ty a) (fDecode o.ty b)).1 (c != 0)),
       (cmpFloat o.fn.toNat (fDecode o.ty a) (fDecode o.ty b)).2)))
  | .fclass o => some (floating o .b (if o.b.isNone then 0 else 1) 0 (fun a b _ =>
      (if o.b.isNone then classMask o.ty a else b2n ((classMask o.ty a &&& b) != 0), 0)))
  | _ => none

/-- The six functions of R235, opcodes 0x58-0x5D: Class V; only FSQRT takes a rounding. -/
def functions : Instr → Option LaneOp
  | .frcp o => some (floating o .v 0 0 (fun a _ _ => transcend o.ty .rn (frcp .rn) a))
  | .frsq o => some (floating o .v 0 0 (fun a _ _ => transcend o.ty .rn frsq a))
  | .fsqrt o => some (floating o .v 0 0 (fun a _ _ => transcend o.ty o.rm (fsqrt o.rm) a))
  | .fex2 o => some (floating o .v 0 0 (fun a _ _ => transcend o.ty .rn fex2 a))
  | .flg2 o => some (floating o .v 0 0 (fun a _ _ => transcend o.ty .rn flg2 a))
  | .ftanh o => some (floating o .v 0 0 (fun a _ _ => transcend o.ty .rn ftanh a))
  | _ => none

/-- Both halves of a register pair under one operation (R236). -/
def twice (t : Ty) (g : FVal → FVal → FVal → Nat × Nat) (a b c : Nat) : Nat × Nat :=
  let lo := g (fDecode t (a % 2 ^ 16)) (fDecode t (b % 2 ^ 16)) (fDecode t (c % 2 ^ 16))
  let hi := g (fDecode t (a / 2 ^ 16 % 2 ^ 16)) (fDecode t (b / 2 ^ 16 % 2 ^ 16)) (fDecode t (c / 2 ^ 16 % 2 ^ 16))
  (lo.1 + 2 ^ 16 * hi.1, lo.2 ||| hi.2)

/-- Paired arithmetic, conversions, packing and dot products, opcodes 0x5E-0x62, 0x64-0x67 (R236-R238, R240-R243). -/
def packed : Instr → Option LaneOp
  | .v2add o => some (floating o .b 1 0 (twice o.ty (fun a b _ => fAdd (fmtOf o.ty) o.rm a b)))
  | .v2mul o => some (floating o .b 1 0 (twice o.ty (fun a b _ => fMul (fmtOf o.ty) o.rm a b)))
  | .v2fma o => some (floating o .b 1 1 (twice o.ty (fun a b c => fFma (fmtOf o.ty) o.rm a b c)))
  | .fcvt o => some (floating o .b 0 0 (fun a _ _ => fcvt o.ty (styOf o) o.rm a))
  | .icvt o => some
      { need := { alNeed o (tyRegs (styOf o)) 0 0 (tyRegs o.ty) with sgn := (styOf o).signed }, cls := .b, wd := tyRegs o.ty,
        out := fun x => icvt o.ty (styOf o) o.rm o.sat (wordsNat x.a) }
  | .mfpack o => some
      { need := { alNeed o 1 1 1 1 with nd := 1 }, cls := .b, wd := 1,
        out := fun x =>
          let sc := scaleOf (hsOf o) (wordsNat x.c)
          let e0 := mfpack1 o.ty sc (wordsNat x.a)
          let e1 := mfpack1 o.ty sc (wordsNat x.b)
          let at_ := 16 * (selOf o % 2)
          (wordsNat x.d - bits (wordsNat x.d) (at_ + 15) at_ * 2 ^ at_ + (e0.1 + 256 * e1.1) * 2 ^ at_, e0.2 ||| e1.2) }
  | .mfunpk o => some (floating o .b 1 0 (fun a b _ =>
      let el (k : Nat) : Nat × Nat := mfunpk1 o.ty o.rm (scaleOf (hsOf o) b) (a / 2 ^ (8 * k) % 256)
      if o.ty = .f32 then el (selOf o)
      else ((el (2 * (selOf o % 2))).1 + 2 ^ 16 * (el (2 * (selOf o % 2) + 1)).1,
            (el (2 * (selOf o % 2))).2 ||| (el (2 * (selOf o % 2) + 1)).2)))
  | .fdot4 o => some
      { need := alNeed o (if o.ty == .mf8 then 1 else 2) (if o.ty == .mf8 then 1 else 2) 1 1, cls := .b, wd := 1,
        out := fun x => fdot4 o.ty o.rm (wordsNat x.a) (wordsNat x.b) (wordsNat x.c) }
  | .idot4 o => some (floating o .b 1 1 (fun a b c => (idot4 o.ty o.sat a b c, 0)))
  | _ => none

/-- What k words `ws` a source specifier gives lane l (R66, R68, R71): registers from the named one on, a g specifier below 8 naming c
registers in capsule mode; one p or m register or special register, zero-extended; or `IMM`, extended as the type says. -/
def Gives (s : State) (b : Batch) (l : Nat) (imm : Word) (sgn : Bool) (k : Nat) (sp : Spec) (ws : List Word) : Prop :=
  let x := s.fibre (b.fib l)
  let reads (r : Nat) (w : Word) : Prop := ∃ salt, w = s.readReg (b.fib l) r salt
  (∀ i, sp = .g i → ws.length = k ∧ ∀ j w, ws[j]? = some w →
    reads ((if x.capMode = true ∧ i.val < 8 then 144 else 0) + i.val + j) w) ∧
  (∀ i, sp = .k i → ws.length = k ∧ ∀ j w, ws[j]? = some w → reads (160 + i.val + j) w) ∧
  (∀ i, sp = .p i → 0 < k → ws.length = k ∧ ∃ w, reads (128 + i.val) w ∧ wordsNat ws = w.toNat) ∧
  (∀ i, sp = .m i → 0 < k → ws.length = k ∧ ∃ w, reads (224 + i.val) w ∧ wordsNat ws = w.toNat) ∧
  (∀ r, sp = .sp r → 0 < k → ws.length = k ∧ wordsNat ws = (s.special b l r).toNat) ∧
  (sp = .imm → 0 < k → ws.length = k ∧ wordsNat ws = if sgn then unsign imm.toInt (32 * k) else imm.toNat)

/-- Every table above. -/
def laneOp (i : Instr) : Option LaneOp :=
  ((((arithmetic i).or (logic i)).or (moves i)).or (floats i)).or ((functions i).or (packed i))

/-! ### Cross-lane instructions -/

/-- What a cross-lane instruction gives a lane from its number, its operands, and the numbers and operands of all participants,
ascending (R195). -/
structure CrossOp where
  need : Need
  wd : Nat
  out : Nat → Vals → List (Nat × Vals) → Nat × Nat

/-- The participants of a batch with their operands. -/
def participants (s : State) (n : Need) (b : Batch) : List (Nat × Vals) := (goers s n b).map (fun l => (l, s.readVals n b l))

/-- The fibre of a participant after its result. -/
def CrossOp.act (op : CrossOp) (s : State) (b : Batch) (l : Nat) (x : Fibre) : Fibre :=
  let r := op.out l (s.readVals op.need b l) (participants s op.need b)
  ({ x with flags := x.flags ||| BitVec.ofNat 5 r.2 }).putD .b op.need.head.d op.wd r.1

/-- What a cross-lane instruction needs (R195, R207). -/
def crossNeed (o : AL) (na nb wd : Nat) : Need := { alNeed o na nb 0 wd with cap := false }

/-- The mask of the participants that pass a test. -/
def whereMask (all : List (Nat × Vals)) (p : Vals → Bool) : Nat := (maskOf ((all.filter (fun e => p e.2)).map (·.1))).toNat

/-- The values of A over the participants up to a lane, or below it. -/
def prefixVals (excl : Bool) (l : Nat) (all : List (Nat × Vals)) : List Nat :=
  (all.filter (fun e => if excl then decide (e.1 < l) else decide (e.1 ≤ l))).map (fun e => wordsNat e.2.a)

/-- Cross-lane operations, opcodes 0x40-0x45 (R196, R197), and SCALEQ (R239), which in its `.blk` form reads the participants. -/
def cross : Instr → Option CrossOp
  | .ballot o => some { need := crossNeed o 1 0 1, wd := 1, out := fun _ _ all => (whereMask all (fun v => wordsNat v.a != 0), 0) }
  | .agree o => some { need := crossNeed o 1 0 1, wd := 1, out := fun _ _ all =>
      (b2n (match o.fn.toNat with
        | 0 => all.all (fun e => wordsNat e.2.a != 0)
        | 1 => all.any (fun e => wordsNat e.2.a != 0)
        | _ => all.all (fun e => wordsNat e.2.a != 0) || !all.any (fun e => wordsNat e.2.a != 0)), 0) }
  | .shfl o => some { need := crossNeed o (tyRegs o.ty) 1 (tyRegs o.ty), wd := tyRegs o.ty, out := fun l x all =>
      (match (shflFrom o.fn.toNat l (wordsNat x.b)).bind (fun j => all.find? (fun e => e.1 == j)) with
        | some e => wordsNat e.2.a
        | none => wordsNat x.a, 0) }
  | .prdx o => some { need := crossNeed o (tyRegs o.ty) 0 (tyRegs o.ty), wd := tyRegs o.ty, out := fun _ _ all =>
      (reduce o.fn.toNat o.ty o.rm o.sat (all.map (fun e => wordsNat e.2.a))) }
  | .pscan o => some { need := crossNeed o (tyRegs o.ty) 0 (tyRegs o.ty), wd := tyRegs o.ty, out := fun l _ all =>
      ((reduce o.fn.toNat o.ty o.rm o.sat (prefixVals (o.x.getLsbD 3) l all)).1,
       (reduce o.fn.toNat o.ty o.rm o.sat ((if o.x.getLsbD 3 then all.dropLast else all).map (fun e => wordsNat e.2.a))).2) }
  | .matchLanes o => some { need := crossNeed o (tyRegs o.ty) 0 (tyRegs o.ty), wd := tyRegs o.ty, out := fun _ x all =>
      (whereMask all (fun v => wordsNat v.a == wordsNat x.a), 0) }
  | .scaleq o => some { need := { alNeed o 1 0 0 1 with nd := 1, cap := o.fn == 0 }, wd := 1, out := fun _ x all =>
      (putScale (hsOf o) (scaleCode (if o.fn == 0 then [fDecode o.ty (wordsNat x.a)]
        else all.map (fun e => fDecode o.ty (wordsNat e.2.a)))) (wordsNat x.d), 0) }
  | _ => none

/-! ### Control -/

/-- The predicates p1-p15 that a mask names take the bits of a value (R172, R174). -/
def writePreds (a m : Nat) (x : Fibre) : Fibre :=
  (List.range' 1 15).foldl (fun x i => if m.testBit i then x.put .a (rP i) (if a.testBit i then 1 else 0) else x) x

/-- What PRDW, PWRW, FSTAT and CLOCK need. -/
def prdwNeed (o : AL) : Need := { alNeed o 0 0 0 1 with cap := false, imp := (List.range' 1 15).map rP }
def pwrwNeed (o : AL) : Need := { alNeed o 1 1 0 0 with cap := false }
def fstatNeed (o : AL) : Need := { alNeed o 1 0 0 (if o.d.isNone then 0 else 1) with cap := false }
def clockNeed (o : AL) : Need := alNeed o 0 0 0 (if o.fn == 0 then 1 else 2)

/-- What the branches need. -/
def braNeed (o : BR) : Need := { head := o.toHead, imm := 0, cap := true }
def callNeed (o : BR) : Need := { head := o.toHead, imm := 0, also := [1] }
def brdecNeed (o : BR) : Need := { head := o.toHead, imm := 0, nd := 1, wd := 1 }
def jumpNeed (o : SY) : Need := { head := o.toHead, imm := o.imm, na := 1 }

/-- A transfer leaves the line and enters the target's by a taken transfer (R60). -/
def taken (t : Word) (x : Fibre) : Fibre := { x with pc := t, xfer := true, fbuf := none }

/-- A target in another region than the code at a PC, or in none where that is in one (R157). -/
def leavesRegion (s : State) (c : Nat) (pc t : Word) : Bool :=
  (s.regionAt c t.toNat).map (·.1) != (s.regionAt c pc.toNat).map (·.1)

/-- A call in a lane none of whose LDs is still to be performed: g1 takes the next PC; where the call leaves its region, that and every
outstanding result have arrived. -/
def called (out : Bool) (pc t : Word) (x : Fibre) : Fibre :=
  let y := x.put .a (rG 1) (nextPc pc)
  taken t (if out then y.arriveAll else y)

/-- The same for any lane: the reads of its LDs are performed before the results arrive (R157, R321). -/
def callIn (s : State) (f : Nat) (out : Bool) (pc t : Word) : State :=
  let v := s.modFibre f (fun x => x.put .a (rG 1) (nextPc pc))
  (if out then v.arriveAll f else v).modFibre f (taken t)

/-- The pack of a batch. -/
def packOf (b : Batch) : Nat := b.team * 32 + b.pack

/-! ### Fibres, rendezvous points and barriers -/

/-- What an instruction of the SY encoding needs that reads and writes no register. -/
def plainNeed (o : SY) : Need := { head := o.toHead, imm := o.imm }

/-- What LEAVE, JOIN and WAITM need, which read the mask that A names. -/
def maskUse (o : SY) : Need := { plainNeed o with na := 1 }

/-- What MSET needs: `.copy` reads A; `.or` and `.andn` read the mask. -/
def msetNeed (o : SY) : Need :=
  { plainNeed o with na := if o.fn == 3 then 1 else 0, nd := if o.fn == 1 || o.fn == 2 then 1 else 0 }

/-- What SPAWN needs: it writes D and reads g4-g11 (R191). -/
def spawnNeed (o : BR) : Need :=
  { head := o.toHead, imm := 0, wd := if o.d.isNone then 0 else 1, also := List.range' 4 8, imp := List.range' 4 8 }

/-- What the instructions on rendezvous points need. -/
def binitNeed (o : SY) : Need := { plainNeed o with na := 1, wd := 1 }
def arriveNeed (o : SY) : Need := { plainNeed o with wd := if o.d.isNone then 0 else 1 }
def bwaitNeed (o : SY) : Need := { plainNeed o with na := 1 }
def hbarNeed (o : SY) : Need := { plainNeed o with live := true }

/-- A raise by a fibre at the instruction of a batch: the record keeps `IMM` where R379 says so, and whether a taken transfer reached the
instruction. -/
def raisedIn (s : State) (b : Batch) (l : Nat) (e : Err) : State :=
  (s.modFibre (b.fib l) (fun x => { x with xfer := x.came })).raiseAt (b.fib l) e b.pc (simmOf e b.word)

/-- A raise by the lane of a batch from the state in which it has moved on. -/
def raised (s : State) (b : Batch) (l : Nat) (e : Err) : State := raisedIn (past s b l) b l e

/-- A point after one more arrival (R201). -/
def oneMore (s : State) (f : Nat) (drop : Bool) (p : RvPoint) : RvPoint :=
  { p with
    arrivedN := p.arrivedN + 1
    arrived := f :: p.arrived
    pend := if drop && !p.dropped.contains f then p.pend + 1 else p.pend
    dropped := if drop && !p.dropped.contains f then f :: p.dropped else p.dropped
    kser := p.kser ++ s.kBy f }

/-! ### Memory instructions -/

/-- What a memory instruction needs beside D, B and C (R74). -/
def memNeed (o : ME) : Need := { head := o.toHead, imm := 0, na := baseRegs o.hnd o.a }
def ldNeed (o : ME) : Need := { memNeed o with wd := o.sz.regs, cap := true }
def stNeed (o : ME) : Need := { memNeed o with nb := o.sz.regs, live := true }
def stlNeed (o : ME) : Need := { memNeed o with nb := 16, live := true }
def ldqNeed (o : ME) : Need := { memNeed o with cap := true }
def atomNeed (o : ME) (nc : Nat) : Need := { memNeed o with nb := o.sz.regs, nc := nc, wd := o.sz.regs, live := true }
def wlineNeed (o : ME) : Need := { memNeed o with nb := o.sz.regs, wd := 1 }
def haddrNeed (o : ME) : Need := { memNeed o with wd := 2, cap := true }
def hresNeed (o : ME) : Need := { memNeed o with wd := 1, live := true }
def rangeNeed (o : ME) : Need := { memNeed o with nb := 1, wd := if o.d.isNone then 0 else 1, live := true }

/-- What an access asks of the checks of R248. -/
def wantRead (o : ME) (spaces : List Nat) : Want := { spaces := spaces, n := o.sz.bytes, align := o.sz.bytes, rd := true }
def wantWrite (n : Nat) : Want := { spaces := [1, 2, 3, 4, 5, 6], n := n, align := n, wr := true }
def wantAtom (o : ME) : Want := { spaces := [1, 2, 3, 4, 5], n := o.sz.bytes, align := o.sz.bytes, rd := true, at_ := true }

/-- The checks of R248 on the operand of a memory instruction in the lane that runs it. -/
def checked (o : ME) (s : State) (n : Need) (b : Batch) (l : Nat) (w : Want) : Except Err Acc :=
  (past s b l).check (b.fib l) o.hnd.toNat (eaOff o.off (s.readVals n b l).a) w

/-- A lone lane whose fibre waits for no acquiring read and no `.sc` write (R275, R328), and whose access passes the checks of R248 at a
place or an address. -/
structure Access (o : ME) (s : State) (n : Need) (b : Batch) (l : Nat) (x : Fibre) (w : Want) (a : Acc) : Prop where
  lone : Lone s n b l x
  calm : (past s b l).acqHeld (b.fib l) = false
  ok : checked o s n b l w = .ok a

/-- The state in which a lane's access reaches its place: the lane has moved on, and the entry is in the handle cache (R105). -/
def reaching (s : State) (b : Batch) (l : Nat) (a : Acc) : State := (past s b l).touchHandle (b.fib l) a.hnd

/-- `SMASK` of a lone lane in the argument of MEM.SCRATCH (R250). -/
def withLane (l : Nat) (e : Err) : Err := if e.eff = 0x021 then { e with arg := e.arg % 2 ^ 32 + 2 ^ l * 2 ^ 32 } else e

/-- A release before an access has been performed (R325): the state from which the access goes on. -/
def releasedAt (o : ME) (s : State) (b : Batch) (l : Nat) (a : Acc) (v : State) : Prop :=
  if o.ord = .rel ∨ o.ord = .ar ∨ o.ord = .sc then
    ∃ u, (past s b l).release (b.fib l) o.sc = (.done, u) ∧ v = u.touchHandle (b.fib l) a.hnd
  else v = reaching s b l a

/-- What an access of order `.sc` still does after its bytes (R328), and an acquiring one (R326). -/
def afterwards (o : ME) (b : Batch) (l : Nat) (s : State) : State :=
  let s := if o.ord = .sc then s.arriveBefore (b.fib l) (fun _ => true) else s
  if o.ord = .acq ∨ o.ord = .ar ∨ o.ord = .sc then s.acquire (b.fib l) o.sc else s

/-- The new value of R346 at a location of n bytes. -/
def atomValue (o : ME) (old b : Nat) : Nat := atomNew o.fn.toNat o.sz.bytes old (b % 2 ^ (8 * o.sz.bytes))

/-! ### Queues, hints, fences, watch slots and capsules -/

def qpopNeed (o : SY) : Need := { plainNeed o with wd := (qpopSz o).regs, cap := true }
def qstatNeed (o : SY) : Need := { plainNeed o with wd := 1, cap := true }
def tktestNeed (o : SY) : Need := { plainNeed o with na := 1, wd := 1, cap := true, tokA := true }
def prefNeed (o : ME) : Need := { memNeed o with cap := true }
def fenceNeed (o : ME) : Need := { head := o.toHead, imm := 0 }
def capenterNeed (o : ME) : Need := { memNeed o with nb := 2, wd := 2, live := true, also := [4, 5, 6, 7], imp := [4, 5, 6, 7] }
def cstepNeed (o : ME) : Need :=
  { head := o.toHead, imm := 0, na := if o.a.isNone then 0 else 1, nb := o.sz.regs, cap := true, imp := List.range' (rC 0) 8 }
def capexitNeed (o : SY) : Need := { plainNeed o with na := 1, cap := true }
def capresetNeed (o : ME) : Need := { memNeed o with wd := 1, live := true }

/-- The entry that LDQ appends (R275). -/
def queued (o : ME) (a : Acc) (x : Fibre) : QEntry :=
  { sz := o.sz, sx := o.fn.getLsbD 1, nr := o.fn.getLsbD 0, pr := pOf o.c, loc := a.loc, how := ldqHow o a x, hnd := a.hnd,
    at_ := .flight, seq := x.qseq }

/-- The state in which the LDQ of a lane has appended its entry. -/
def appended (s : State) (o : ME) (b : Batch) (l : Nat) (a : Acc) : State :=
  s.modFibre (b.fib l) (fun y =>
    { y with queues := mapSet y.queues (qOf o.d) (queueOf y (qOf o.d) ++ [queued o a y]), qseq := y.qseq + 1 })

/-- The word of QSTAT (R278): entries in [3:0], those that QPOP would take in [7:4], a fault at the head in bit 8. -/
def queueWord (es : List QEntry) : Nat :=
  es.length + 16 * (es.takeWhile (fun e => e.at_ != .flight)).length +
    (match es.head?.map (·.at_) with
      | some (.fault ..) => 256
      | _ => 0)

/-- The effective offset of a memory operand in its lane. -/
def offOf (o : ME) (s : State) (n : Need) (b : Batch) (l : Nat) : Int := eaOff o.off (s.readVals n b l).a

/-- A capsule block that the checks and the translation of a lone lane accept (R361, R364): its address, its translation and the
state after it. -/
structure BlockAt (o : ME) (s : State) (n : Need) (b : Batch) (l : Nat) (x : Fibre) (a : Acc) (xl : Xl) (u : State) : Prop where
  lone : Lone s n b l x
  calm : (past s b l).acqHeld (b.fib l) = false
  kind : ((past s b l).entry (b.fib l) o.hnd.toNat).kind = 1
  ok : checked o s n b l { spaces := [1], n := 1024, align := 1024, rd := true, wr := true, at_ := true } = .ok a
  translated : ((reaching s b l a).arriveAt (b.fib l) a.loc).capXl (b.fib l) (locVa a.loc) = (.ok xl, u)

/-- A fibre in capsule mode at a tenure that its block's LOCK still shows: the state after the LOCK is read for an access at an offset
of the block, which waits for nothing, and what it shows. -/
structure InTenure (s : State) (n : Need) (b : Batch) (l : Nat) (x : Fibre) (h : Held) (off : Nat) (xl : Xl) (u : State)
    (blk : List Byte) : Prop where
  lone : Lone s n b l x
  mode : x.capMode = true
  held : x.held = some h
  calm : (past s b l).acqHeld (b.fib l) = false
  page : ∃ v, (((past s b l).arriveAt (b.fib l) (.glob h.block)).arriveAt (b.fib l) (.glob (h.block + off))).capXl (b.fib l) h.block =
      (.ok xl, v) ∧ v.capHeld (b.fib l) h.block xl = false ∧ v.behind (b.fib l) (.glob (h.block + off)) = false ∧
    v.capRead (b.fib l) xl = (blk, u)
  mine : (lockState (fieldAt blk 0 8) = 1 ∨ lockState (fieldAt blk 0 8) = 2) ∧ lockOwner (fieldAt blk 0 8) = h.owner ∧
    lockOgen (fieldAt blk 0 8) = h.ogen ∧ lockStep (fieldAt blk 0 8) = h.step

/-! ### Engines -/

/-- How an instruction hands a command to an engine: what it needs, its checks with the kind of the command they find, its operands,
and whether it has `NR` and a follow-on. -/
structure EngineOp where
  need : Need
  prep : Ln → Vals → State → Prep CmdKind
  en : EN
  copy : Bool

/-- What MMA finds: the checks it shares with MMAS, and N of the weight set that its tag check accepts (R309). -/
def mmaFinds (o : EN) (ln : Ln) (x : Vals) (s : State) : Prep CmdKind :=
  match mmaPrep o ln x s with
  | .ok (.mma tile row korg k slot _ z int) =>
    match s.tagN ln.b.team slot (s.entry ln.f o.hx.toNat).fmt k with
    | none => .err { eff := 0x027, arg := marg 0xFFF slot }
    | some n => .ok (CmdKind.mma tile row korg k slot n z int)
  | r => r

/-- The instructions that hand a command to an engine (R284). -/
def engineOp : Instr → Option EngineOp
  | .cpy o => some
      { need := { head := o.toHead, imm := 0, na := offRegs o.hx o.a, nb := offRegs o.hy o.b,
                  nc := if o.c.isNone then 0 else 1, live := true, tokD := true }, prep := cpyPrep o, en := o, copy := true }
  | .cpyt o => some
      { need := { head := o.toHead, imm := 0, na := 4, nb := 4, nc := 4, live := true, tokD := true }, prep := cpytPrep o, en := o,
        copy := true }
  | .gath o => some
      { need := { head := o.toHead, imm := 0, na := if o.a.isNone then 0 else 1, nb := offRegs o.hy o.b, nc := 1, live := true,
                  tokD := true }, prep := indexPrep o true, en := o, copy := true }
  | .scat o => some
      { need := { head := o.toHead, imm := 0, na := if o.a.isNone then 0 else 1, nb := offRegs o.hx o.b, nc := 1, live := true,
                  tokD := true }, prep := indexPrep o false, en := o, copy := true }
  | .xput o => some { need := netNeed o o.hx, prep := netPrep o false 1 .xput, en := o, copy := false }
  | .xget o => some { need := netNeed o o.hy, prep := netPrep o true 1 .xget, en := o, copy := false }
  | .xred o => some
      { need := netNeed o o.hx, en := o, copy := false,
        prep := netPrep o false (xredSize (o.x.extractLsb' 0 3).toNat) (fun a p off n =>
          .xred a p off n (o.x.extractLsb' 3 3).toNat (o.x.extractLsb' 0 3).toNat (o.lo.getLsbD 0)) }
  | .mma o => some { need := { mmaNeed o with live := true }, prep := mmaFinds o, en := o, copy := false }
  | .accz o => some
      { need := { head := o.toHead, imm := 0, live := true, tokD := true }, en := o, copy := false,
        prep := fun ln _ s => tilePrep o ln s (CmdKind.accz (tileField o)) }
  | .accst o => some
      { need := { head := o.toHead, imm := 0, na := 2, live := true, tokD := true }, prep := accstPrep o, en := o, copy := false }
  | _ => none

/-- The command that an instruction hands over, with the entries it reads at issue (R106). -/
def EngineOp.cmd (op : EngineOp) (s : State) (ln : Ln) (k : CmdKind) : Cmd :=
  if op.copy then { s.cmdOf ln op.en k with nr := op.en.x.getLsbD 5, follow := followOf op.en } else s.cmdOf ln op.en k

/-- A command that has begun, with one segment left, a list of runs, and nothing on its fix-up list, where the list of its engine has room. -/
structure LastRun (s : State) (id : Nat) (c : Cmd) (seg : List (Nat × Nat)) : Prop where
  here : mapGet s.cmds id = some c
  begun : c.begun = true
  left : c.left = [seg]
  fix : c.fix = []
  room : s.fixLoad c < 256

/-- The command while a segment is in hand, whose rest stays for later. -/
def inHand (c : Cmd) (rest : List (Nat × Nat)) : Cmd := { c with left := if rest = [] then [] else [rest] }

/-- The command once a segment has been performed or has failed (R285, R286). -/
def took (c : Cmd) (d : Did) : Cmd :=
  match d with
  | .wrote m z => { c with bytes := c.bytes + m, nrz := c.nrz || z }
  | .failed v => { c with errs := c.errs ++ [v] }
  | _ => c

/-- What follows the last segment of a network command without L: the command ends, or keeps the segment on its fix-up list, or tries
again. -/
def lastSegment (id : Nat) (c : Cmd) (seg : List (Nat × Nat)) (r : Did × Cmd × State) : State :=
  match r.1 with
  | .busy => r.2.2.setCmd id c
  | .absent => r.2.2.setCmd id { inHand c [] with fix := [seg] }
  | d => r.2.2.endCmd id (took r.2.1 d)

/-- A team's fibre whose token has one command open, that of the command (R285). -/
structure LastOf (s : State) (c : Cmd) (r : Nat) (x : Fibre) (k : Tok) : Prop where
  fibre : s.fibre? c.fib = some x
  tok : c.tok = some r
  small : r < 128
  open_ : mapGet x.tok r = some k
  one : k.count = 1
  alone : k.launches = [] ∧ k.errs = []

/-- The rows of A that a group of an MMA has read, and the columns of B that it reads. -/
def aRow (c : Cmd) (i : Nat) : List Nat := ((c.got.map (·.2)).drop (32 * i)).take 32
def bCol (s : State) (c : Cmd) (tile slot fmt n g j : Nat) : List BElem := (s.colB c tile slot fmt n g j).1.1

/-- The scales of a row of A and of a block of B: of an operand without scales, one that is not used. -/
def aScale (c : Cmd) (i : Nat) : Nat := (c.got.map (·.2)).getD (4096 + i) 0
def bScale (s : State) (c : Cmd) (tile slot fmt n g j : Nat) : Nat := (s.colB c tile slot fmt n g j).1.2

/-- The exact product of the values of an element of A and one of B on the floating path (R218, R222, R304), +0 where ECC cannot correct one
of them (R314). -/
def floatProduct (fmt sa sb a : Nat) (b : BElem) : FVal :=
  if a = replaced ∨ b = .replaced then .fin false 0 0
  else productVal (elemVal fmt sa a) (match b with
    | .val v => elemVal fmt sb v
    | _ => .fin false 0 0)

/-- The exact product of an element of A and one of B on the integer path, 0 where ECC cannot correct one of them (R223, R314). -/
def intProduct (a : Nat) (b : BElem) : Int :=
  if a = replaced then 0
  else sext a 8 * (match b with
    | .val v => sext v 8
    | _ => 0)

/-! ### Code regions and system registers -/

/-- What a code instruction finds in a lone lane: the handle index and the region's record (R136). -/
structure CodeAt (o : SY) (s : State) (n : Need) (b : Batch) (l : Nat) (x : Fibre) (w : Bool) (h : Nat) (r : Region) : Prop where
  lone : Lone s n b l x
  ok : codePrep o w (s.laneOf b l) (s.readVals n b l) (past s b l) = .ok (h, r)

def publishNeed (o : SY) : Need := codeNeed o 1 true
def rgnqNeed (o : SY) : Need := codeNeed o 2 false

/-- The core of a lane's fibre, and its context. -/
def coreHere (s : State) (b : Batch) (l : Nat) : Nat := (past s b l).coreOf (b.fib l)
def ctxHere (s : State) (b : Batch) (l : Nat) : Nat := (past s b l).ctxOf (b.fib l)

/-- `GEN` after bump: 0xFFFF wraps to 1 (R137). -/
def bumped (g : Nat) : Nat := if g = 0xFFFF then 1 else g + 1

/-- The other fibres of a context that hold a line of a region under another `GEN`, on the cores of a scope instance (R140). -/
def oldHolders (s : State) (f h gen sc : Nat) : List (Nat × Fibre) :=
  s.fibres.filter (fun e => e.1 != f && s.ctxOf e.1 == s.ctxOf f && sameUnit sc (s.coreOf f) (s.coreOf e.1) &&
    (e.2.fbuf.map (fun l => l.region == h && l.gen != gen && !l.last)).getD false)

/-- A lane of a one-lane batch whose guard is true, in a fibre that is no helper. -/
structure OneLane (s : State) (g : Guard) (b : Batch) (l : Nat) (x : Fibre) : Prop where
  cur : s.cur = some b
  lanes : b.lanes = [l]
  fibre : s.fibre? (b.fib l) = some x
  live : x.helper = false
  guard : s.guard b l g = true

/-! ### Effects, launches, teams and core events -/

def handleNeed (o : SY) : Need := { effNeed o with nb := 1, also := [2], imp := [2] }
def unhandleNeed (o : SY) : Need := { effNeed o with na := optRegs o.a 1 }
def performNeed (o : SY) : Need := { effNeed o with na := optRegs o.a 2, nb := optRegs o.b 1, also := performAlso o }
def resumeNeed (o : SY) : Need := { effNeed o with na := 2, nb := optRegs o.b 1, imp := if o.fn == 1 then multiReads else [] }
def unwindNeed (o : SY) : Need := { effNeed o with na := 2, nb := optRegs o.b 1 }
def effqNeed (o : SY) : Need := { effNeed o with na := 2, wd := 1, live := false }
def launchNeed (o : SY) : Need :=
  { head := o.toHead, imm := o.imm, na := baseRegs (immHandle o.imm) o.a, nb := optRegs o.b 4, live := true, tokD := true }

/-- The 32-bit word at an offset of a fibre's lane slice, as a register takes it. -/
def laneWord (s : State) (f off : Nat) : Word := BitVec.ofNat 32 (s.laneNat f off 4)

/-- An effect pending on a fibre outside capsule mode whose g4-g8 hold no open token: the state once its results have arrived, and its
earlier accesses to its lane slice are performed. -/
structure Deliverable (s : State) (f : Nat) (x : Fibre) (e : PendEff) (u : State) : Prop where
  fibre : s.fibre? f = some x
  runs : x.halted = false
  eff : x.eff = some e
  mode : x.capMode = false
  free : ∀ r, 4 ≤ r → r ≤ 8 → mapHas x.tok r = false
  arrived : u = (s.arriveAll f).laneFirst f

/-- Where the suspension record of an effect goes: below g2, less the room that PERFORM reserves, aligned down (R378). -/
def suspAt (x : Fibre) (e : PendEff) : Int :=
  ((((x.latest (rG 2)).toNat : Int) - (if e.trap then 0 else e.rsv)) / 16) * 16 - 128

/-- A token (R380). -/
def tokenFor (s : State) (f gen rec_ : Nat) : Nat :=
  gen % 2 ^ 16 * 2 ^ 48 + (s.teamOf f).brec.slot * 2 ^ 26 + f % 1024 * 2 ^ 16 + rec_

/-! ### What the device does between instructions -/

/-- The results of a fibre that have not arrived (R154). -/
def onTheWay (x : Fibre) : List RegWrite := x.pend.filter (fun w => w.cls != .a && !w.arrived)

/-- A fibre of a running team that is to issue (R131). -/
structure Issuing (s : State) (f : Nat) (x : Fibre) : Prop where
  fibre : s.fibre? f = some x
  issues : x.st = .ready ∧ x.halted = false ∧ x.eff = none ∧ x.missing = none
  runs : (s.teamOf f).phase = .running ∧ (s.teamOf f).halted = false

/-- A request of a type arrives at a running module with a header as R429 says, and nothing waits before it on its flow (R431). -/
structure Asked (s : State) (m : Msg) (rtype : Nat) : Prop where
  boot : s.mod.boot = .running
  head : m.head.length = 32 ∧ badHead m = false ∧ m.rtype = rtype
  first : m.again = false ∧ s.waitingOn m = []

/-- A request of a type for a context that answers it, behind no START of its flow that is not accepted (R409, R431). -/
structure Serves (s : State) (m : Msg) (rtype : Nat) (x : Context) : Prop where
  asked : Asked s m rtype
  here : s.ctx? m.ctx = some x
  live : x.destroyed = false ∧ x.cold = false
  calm : s.startDue m = false

/-- A reply of Cupola appended to those given, in the layout of R429: the request's `RTYPE`, no flags, its context, its `REQID`, the length of the payload, the status, and eight bytes of 0. -/
def replied (s : State) (m : Msg) (rstat : Nat) (data : List Byte) : State :=
  s.modMod (fun x => { x with answers := x.answers ++ [{
    flow := m.flow
    head := leBytes 2 m.rtype ++ leBytes 2 0 ++ leBytes 4 m.ctx ++ leBytes 8 m.reqId ++ leBytes 4 data.length ++ leBytes 4 rstat ++ leBytes 8 0
    data := data }] })

/-- The last reply given answers a request, with a status. -/
def answered (s : State) (m : Msg) (rstat : Nat) : Prop :=
  ∃ a ∈ s.mod.answers.getLast?, a.flow = m.flow ∧ fieldAt a.head 8 8 = m.reqId ∧ fieldAt a.head 20 4 = rstat

/-! ### The machine as a whole -/

/-- The canonical forms: DRAM as Memory.wf says, the tables of fibres and of teams with rising keys. -/
structure Canonical (s : State) : Prop where
  dram : Memory.wf s.dram = true
  fibres : sortedKeys s.fibres = true
  teams : sortedKeys s.teams = true

/-- The common fields of a word under p0 (R62). -/
def fields (d a b c : Spec) (n : BitVec 8) : Head := ⟨{ gp := 0, gn := false }, d, a, b, c, n⟩

/-- The lanes of a batch at the head of the issue list that issue as one: they stand at its PC, no halt point stands there, and each
holds its line with good parity (R57, R131, R145, R410). -/
structure IssuesNow (o : State) (b : Batch) : Prop where
  some_ : o.standing b ≠ []
  free : o.pointAt b (o.standing b) = false
  lines : ∀ l ∈ o.standing b, o.lineReady (b.fib l) = true

end Sys2Proof.Claims

open Sys2Proof Sys2Proof.Machine Sys2Proof.Claims

/-! ### Integer, floating-point and cross-lane instructions -/

/-- R166, R167, R168, R169: integer arithmetic gives each lane the exact result, saturated or wrapped, and changes nothing else. -/
def Sys2Proof.Claims.IntegerArithmeticResults : Prop := ∀ i op, arithmetic i = some op → Computes i op

/-- R166, R167, R170, R171: logic, shifts, bit fields, bit counts, PRMB and LEA give each lane their pattern and change nothing
else. -/
def Sys2Proof.Claims.LogicAndShiftResults : Prop := ∀ i op, logic i = some op → Computes i op

/-- R172, R173: MOV, SEL, IPRED and PLUT give each lane their result and change nothing else. -/
def Sys2Proof.Claims.MoveAndPredicateResults : Prop := ∀ i op, moves i = some op → Computes i op

/-- R66, R68, R71: the operands of a lane are what its four specifiers give. -/
def Sys2Proof.Claims.OperandsAreRead : Prop :=
  ∀ (s : State) n b l, let v := s.readVals n b l
    Gives s b l n.imm n.sgn n.na n.head.a v.a ∧ Gives s b l n.imm n.sgn n.nb n.head.b v.b ∧
      Gives s b l n.imm n.sgn n.nc n.head.c v.c ∧ Gives s b l n.imm n.sgn n.nd n.head.d v.d

/-- R66, R68, R71, R166-R173: a lane's operands are what its specifiers give: registers, pairs, `IMM` extended as the type says, p, m, k and
special registers. Integer arithmetic, logic, shifts, fields, counts, moves and predicates give each lane that runs them their result, and
change nothing else. -/
def Obligations.RegisterResults : Prop :=
  OperandsAreRead ∧ IntegerArithmeticResults ∧ LogicAndShiftResults ∧ MoveAndPredicateResults

/-- R231-R234: FADD, FSUB, FMUL, FFMA, FMIN, FMAX, FPRED and FCLASS give each lane the rounded result and join their flags to the
lane's. -/
def Sys2Proof.Claims.FloatArithmeticResults : Prop := ∀ i op, floats i = some op → Computes i op

/-- R235: FRCP, FRSQ, FSQRT, FEX2, FLG2 and FTANH give each lane their result as a Class V write. -/
def Sys2Proof.Claims.FloatFunctionResults : Prop := ∀ i op, functions i = some op → Computes i op

/-- R236-R238, R240-R243: V2ADD, V2MUL, V2FMA, FCVT, ICVT, MFPACK, MFUNPK, FDOT4 and IDOT4 give each lane their rounded result and
flags. -/
def Sys2Proof.Claims.PackedAndConversionResults : Prop := ∀ i op, packed i = some op → Computes i op

/-- R231-R238, R240-R243: floating-point arithmetic, functions, paired arithmetic, conversions, packing and dot products give each
lane that runs them their rounded result and join their flags to the lane's; nothing else changes. A p register as D takes 1 for -0
(log 78), and FDOT4 under 16-bit forms and special cases follows log 79. Model's choices: logs 17, 78, 79. -/
def Obligations.FloatingPointResults : Prop := FloatArithmeticResults ∧ FloatFunctionResults ∧ PackedAndConversionResults

/-- R195-R197, R239: a cross-lane instruction gives every participant its value of all participants' operands, and changes nothing
else. A p register as D of PRDX or PSCAN takes 1 for -0 (log 78). Model's choices: logs 37, 63, 78. -/
def Obligations.CrossLaneResults : Prop :=
  ∀ i op, cross i = some op → ∀ s b, Quiet s op.need b → namesK op.need.head.d = false →
    ∃ t, exec i s = .next t ∧ LaneResult s t op.need b (op.act s b)

/-- With a k register as D the value of the leading lane l, of n registers, becomes the newest value of the team's k registers from j on,
but where the value that another pack's batch wrote in the same clk prevails; no other k register and no g, p or c register of any fibre changes, and nothing else but the lanes' flags and their progress (R69, R162). -/
def Sys2Proof.Claims.LeadingLaneWritesK (i : Instr) (s : State) (b : Batch) (j : Fin 64) (n v : Nat) : Prop :=
  ∃ t, exec i s = .next t ∧
    (∀ r, r < n → t.kLatest b.team (j.val + r) = BitVec.ofNat 32 (v / 2 ^ (32 * r)) ∨
      (∃ w, s.kRival b (j.val + r) = some w ∧ t.kLatest b.team (j.val + r) = w.val)) ∧
    (∀ r, (r < j.val ∨ j.val + n ≤ r) → t.kLatest b.team r = s.kLatest b.team r) ∧
    (∀ f r, r < 160 → (t.fibre f).cands r = (s.fibre f).cands r) ∧
    t = { s with fibres := t.fibres, teams := t.teams }

/-- R69, R162: with a k register as D the value of the leading lane alone becomes the newest value of the team's k register, whether the
lane computes it alone, from the participants, or from the predicates, but where the value that another pack's batch wrote in the same clk
prevails; no other k register and no g, p or c register of any fibre changes, and nothing else but the lanes' flags and their progress. -/
def Obligations.KDestinationTakesTheLeadingLane : Prop :=
  (∀ i op j l ls s b, laneOp i = some op → op.need.head.d = .k j → Quiet s op.need b → goers s op.need b = l :: ls →
    (s.team? b.team).isSome → j.val + op.wd ≤ 64 →
    LeadingLaneWritesK i s b j op.wd (op.out (s.readVals op.need b l)).1) ∧
  (∀ i op j l ls s b, cross i = some op → op.need.head.d = .k j → Quiet s op.need b → goers s op.need b = l :: ls →
    (s.team? b.team).isSome → j.val + op.wd ≤ 64 →
    LeadingLaneWritesK i s b j op.wd (op.out l (s.readVals op.need b l) (participants s op.need b)).1) ∧
  (∀ o j l ls s b, o.d = .k j → (s.team? b.team).isSome →
    (Quiet s (prdwNeed o) b → goers s (prdwNeed o) b = l :: ls →
      LeadingLaneWritesK (.prdw o) s b j 1 (s.readPreds (b.fib l) (l * 128 + 80))) ∧
    (Quiet s (fstatNeed o) b → goers s (fstatNeed o) b = l :: ls → LeadingLaneWritesK (.fstat o) s b j 1 (s.fibre (b.fib l)).flags.toNat) ∧
    (Quiet s (clockNeed o) b → goers s (clockNeed o) b = l :: ls → j.val + (clockNeed o).wd ≤ 64 →
      LeadingLaneWritesK (.clock o) s b j (clockNeed o).wd
        (if o.fn == 2 then s.packageTime (s.coreOf (b.fib l)) else (s.core (s.coreOf (b.fib l))).clk)))

/-! ### Control -/

/-- R67: what the special registers read as in lane l of a batch of a team T of a launch L. -/
def Sys2Proof.Claims.SpecialRegistersRead : Prop :=
  ∀ (s : State) b l T L, s.team? b.team = some T → s.launch? (launchKey T.ctx T.lid) = some L → l < 32 → b.pack < 32 →
    let reads (r : Special) (v : Nat) : Prop := s.special b l r = BitVec.ofNat 32 v
    reads .lane l ∧ reads .pack b.pack ∧ reads .fibre (b.pack * 32 + l) ∧
    (∀ i, ((L.blk.roles.take i).map (·.packs)).sum ≤ b.pack → b.pack < ((L.blk.roles.take (i + 1)).map (·.packs)).sum → reads .role i) ∧
    reads .teamX T.x ∧ reads .teamY T.y ∧ reads .teamZ T.z ∧ reads .gridX L.blk.gx ∧ reads .gridY L.blk.gy ∧ reads .gridZ L.blk.gz ∧
    reads .core T.core ∧ reads .quad (T.core / 4) ∧ reads .die T.die ∧ reads .pkg (Config.pkgNumber % 2 ^ 14) ∧
    reads .ctx T.ctx ∧ reads .launch T.lid ∧ reads .bucket L.bucket ∧
    (∀ a c d e, L.shape = [a, c, d, e] → s.special b l .shape0 = a ∧ s.special b l .shape1 = c ∧ s.special b l .shape2 = d ∧
      s.special b l .shape3 = e) ∧
    s.special b l .hsp = (s.fibre (b.fib l)).hsp ∧
    (∀ j, j < 32 → (s.special b l .lanemaskLt).getLsbD j = decide (j < l)) ∧
    ((∀ k ∈ b.lanes, k < 32) → ∀ j, j < 32 → (s.special b l .active).getLsbD j = b.lanes.contains j)

/-- R63, R67, R172, R174, R176, R244: the special registers read as R67 says. NOP only moves on; PRDW gives the predicate word; PWRW writes
p1-p15 under its mask; FSTAT gives the flags and then clears those that A names; CLOCK gives the clk counter or the package time. Model's
choices: logs 4, 5, 7. -/
def Obligations.PredicateFlagAndClockResults : Prop :=
  SpecialRegistersRead ∧
  (∀ s b, Quiet s nopNeed b → ∃ t, exec .nop s = .next t ∧ LaneResult s t nopNeed b (fun _ x => x)) ∧
  (∀ o s b, Quiet s (prdwNeed o) b → namesK o.d = false → ∃ t, exec (.prdw o) s = .next t ∧
    LaneResult s t (prdwNeed o) b (fun l x => x.putD .a o.d 1 (s.readPreds (b.fib l) (l * 128 + 80)))) ∧
  (∀ o s b, Quiet s (pwrwNeed o) b → ∃ t, exec (.pwrw o) s = .next t ∧
    LaneResult s t (pwrwNeed o) b (fun l x =>
      writePreds (wordsNat (s.readVals (pwrwNeed o) b l).a) (wordsNat (s.readVals (pwrwNeed o) b l).b) x)) ∧
  (∀ o s b, Quiet s (fstatNeed o) b → namesK o.d = false → ∃ t, exec (.fstat o) s = .next t ∧
    LaneResult s t (fstatNeed o) b (fun l x =>
      let y := x.putD .b o.d 1 x.flags.toNat
      { y with flags := y.flags &&& ~~~BitVec.ofNat 5 (wordsNat (s.readVals (fstatNeed o) b l).a % 32) })) ∧
  (∀ o s b, Quiet s (clockNeed o) b → namesK o.d = false → ∃ t, exec (.clock o) s = .next t ∧
    LaneResult s t (clockNeed o) b (fun l x => x.putD .a o.d (if o.fn == 0 then 1 else 2)
      (if o.fn == 2 then s.packageTime (s.coreOf (b.fib l)) else (s.core (s.coreOf (b.fib l))).clk)))

/-- R60, R75, R157, R179, R182: BRA, BRX, RET, CALL and BRDEC transfer each lane that runs them; CALL leaves the next PC in g1;
BRDEC counts its register down and falls through at zero. -/
def Sys2Proof.Claims.BranchesTransfer : Prop :=
  (∀ o s b, Quiet s (braNeed o) b →
    (∀ l ∈ b.lanes, (s.fibre (b.fib l)).capMode = true → b.pc.toNat < (brTarget o b.pc).toNat) →
    ∃ t, exec (.bra o) s = .next t ∧ LaneResult s t (braNeed o) b (fun _ => taken (brTarget o b.pc))) ∧
  (∀ o s b, Quiet s (jumpNeed o) b → ∃ t, exec (.brx o) s = .next t ∧
    LaneResult s t (jumpNeed o) b (fun l => taken ((s.readVals (jumpNeed o) b l).a.headD 0))) ∧
  (∀ o s b, Quiet s (jumpNeed o) b → ∃ t, exec (.ret o) s = .next t ∧
    LaneResult s t (jumpNeed o) b (fun l => taken ((s.readVals (jumpNeed o) b l).a.headD 0))) ∧
  (∀ o s b, Quiet s (callNeed o) b → (∀ l ∈ b.lanes, (s.fibre (b.fib l)).loads = []) → ∃ t, exec (.call o) s = .next t ∧
    LaneResult s t (callNeed o) b (fun _ =>
      called (leavesRegion s (s.team b.team).ctx b.pc (brTarget o b.pc)) b.pc (brTarget o b.pc))) ∧
  (∀ o s b l x, Lone s (callNeed o) b l x → exec (.call o) s =
    .next (callIn (past s b l) (b.fib l) (leavesRegion s (s.ctxOf (b.fib l)) b.pc (brTarget o b.pc)) b.pc (brTarget o b.pc))) ∧
  (∀ o s b, Quiet s (brdecNeed o) b → namesK o.d = false → ∃ t, exec (.brdec o) s = .next t ∧
    LaneResult s t (brdecNeed o) b (fun l x =>
      let v := (s.readVals (brdecNeed o) b l).d.headD 0 - 1
      let y := x.put1 .a o.d v
      if v = 0 then y else taken (brTarget o b.pc) y))

/-- R207: a branch in capsule mode whose target is not beyond its own slot raises CAP.LIMIT with the held block's address. -/
def Sys2Proof.Claims.BackwardBranchInCapsuleRaises : Prop :=
  ∀ o s b l x, Lone s (braNeed o) b l x → x.capMode = true → (brTarget o b.pc).toNat ≤ b.pc.toNat →
    exec (.bra o) s = .next (raised s b l { eff := Eff.capLimit, arg := heldBlock x })

/-- R60, R75, R157, R179, R182, R207: the branches transfer; a backward branch in capsule mode raises. -/
def Obligations.BranchesAndTheCapsuleLimit : Prop := BranchesTransfer ∧ BackwardBranchInCapsuleRaises

/-- R94, R157, R183: CALLX reads the 16 bytes of a function descriptor and calls the code it names. -/
def Obligations.CallxEntersTheDescribedFunction : Prop :=
  ∀ (o : SY) s b l x a d u, let n : Need := { head := o.toHead, imm := o.imm, na := baseRegs (immHandle o.imm) o.a, also := [1] }
    Lone s n b l x → (past s b l).acqHeld (b.fib l) = false →
    (past s b l).check (b.fib l) (immHandle o.imm).toNat (eaOff (immOffset o.imm) (s.readVals n b l).a)
      { spaces := [1, 2, 3, 4, 5], n := 16, align := 16, rd := true } = .ok a →
    (past s b l).kindErr (b.fib l) (immHandle o.imm).toNat (eaOff (immOffset o.imm) (s.readVals n b l).a) [1, 2, 3, 4, 5] = none →
    ((past s b l).touchHandle (b.fib l) a.hnd).readLoc (b.fib l) a 16 (plainHow a) = (.ok d, u) →
    u.descOk (b.fib l) d = true →
    exec (.callx o) s = .next (callIn u (b.fib l)
      ((u.regionAt (u.ctxOf (b.fib l)) b.pc.toNat).map (·.1) != some (fieldAt d 4 2 % 4096)) b.pc (BitVec.ofNat 32 (fieldAt d 0 4)))

/-- R186, R188: MSET and LEAVE, once per batch, give the pack's mask its new value from the lanes that run them, touch no other
mask, and then let joins that are met complete. -/
def Sys2Proof.Claims.MaskUpdates : Prop :=
  (∀ (o : SY) s b l ls, let n := msetNeed o
    Quiet s n b → goers s n b = l :: ls →
    let g := maskOf (goers s n b)
    let m := s.maskOfBatch b (maskIx o.d)
    let v := match o.fn.toNat with
      | 0 => g
      | 1 => m ||| g
      | 2 => m &&& ~~~g
      | _ => (s.readVals n b l).a.headD 0
    ∃ t, exec (.mset o) s = .next t ∧ t = ((settled s n b).putM b (maskIx o.d) v).recheckMask (packOf b) (maskIx o.d) ∧
      t.maskOfBatch b (maskIx o.d) = v ∧ ∀ j, j ≠ maskIx o.d → t.maskOfBatch b j = s.maskOfBatch b j) ∧
  (∀ (o : SY) s b l ls, let n := maskUse o
    Quiet s n b → goers s n b = l :: ls →
    let v := s.maskOfBatch b (maskIx o.a) &&& ~~~maskOf (goers s n b)
    ∃ t, exec (.leave o) s = .next t ∧ t = ((settled s n b).putM b (maskIx o.a) v).recheckMask (packOf b) (maskIx o.a) ∧
      t.maskOfBatch b (maskIx o.a) = v ∧ ∀ j, j ≠ maskIx o.a → t.maskOfBatch b j = s.maskOfBatch b j)

/-- R187, R189: at JOIN, and at WAITM whose release is done, a lane that the mask does not name goes on; one that is the only lane
of its mask goes on; one whose mask names another running lane of the pack that does not wait there waits. -/
def Sys2Proof.Claims.JoinAndWaitmMeet : Prop :=
  ∀ (o : SY) s b l x, Lone s (maskUse o) b l x → l < 32 → x.st = .ready → s.flying (b.fib l) = [] → x.sfaults = [] →
    let i := maskIx o.a
    let m := s.maskOfBatch b i
    (m.getLsbD l = false →
      (∃ t, exec (.join o) s = .next t ∧ t.fibre? (b.fib l) = some (x.passed b.pc)) ∧
      (∃ t, exec (.waitm o) s = .next t ∧ t.fibre? (b.fib l) = some (x.passed b.pc))) ∧
    (m = BitVec.ofNat 32 (2 ^ l) →
      (∃ t, exec (.join o) s = .next t ∧ t.fibre? (b.fib l) = some (x.passed b.pc)) ∧
      (∃ t, exec (.waitm o) s = .next t ∧ t.fibre? (b.fib l) = some (x.passed b.pc))) ∧
    (∀ k y, m.getLsbD l = true → m.getLsbD k = true → k < 32 → k ≠ l → s.fibre? (b.fib k) = some y → y.st = .ready →
      (∃ t, exec (.join o) s = .next t ∧
        t.fibre? (b.fib l) = some { x.passed b.pc with pc := b.pc, st := .waiting (.join i), retry := true, xfer := x.came }) ∧
      (∃ t, exec (.waitm o) s = .next t ∧
        t.fibre? (b.fib l) = some { x.passed b.pc with pc := b.pc, st := .waiting (.waitm i), retry := true, xfer := x.came }))

/-- R187, R189: the arrival of the last lane of a mask, whose other lanes all wait at the same JOIN, or in WAITMs on the mask, completes it:
each of them, and each other lane of the pack that waits there, is READY at its next PC. -/
def Sys2Proof.Claims.LastArrivalCompletes : Prop :=
  ∀ (o : SY) s b l x, Lone s (maskUse o) b l x → l < 32 → x.st = .ready → s.flying (b.fib l) = [] → x.sfaults = [] →
    let i := maskIx o.a
    let m := s.maskOfBatch b i
    let others := (s.packFibres (packOf b)).filter (fun e => e.1 != b.fib l)
    let goesOn (t : State) (f : Nat) (y : Fibre) : Prop := (t.fibre? f).map (fun z => (z.st, z.pc)) = some (.ready, nextPc y.pc)
    m.getLsbD l = true →
    ((∀ e ∈ others, m.getLsbD (fibLane e.1) = true → e.2.st = .waiting (.join i) ∧ e.2.pc = b.pc) →
      ∃ t, exec (.join o) s = .next t ∧ t.fibre? (b.fib l) = some (x.passed b.pc) ∧
        ∀ e ∈ others, s.fibre? e.1 = some e.2 → e.2.st = .waiting (.join i) → e.2.pc = b.pc → goesOn t e.1 e.2) ∧
    ((∀ e ∈ others, m.getLsbD (fibLane e.1) = true → e.2.st = .waiting (.waitm i)) →
      ∃ t, exec (.waitm o) s = .next t ∧ t.fibre? (b.fib l) = some (x.passed b.pc) ∧
        ∀ e ∈ others, s.fibre? e.1 = some e.2 → e.2.st = .waiting (.waitm i) → goesOn t e.1 e.2)

/-- R186-R189: MSET, LEAVE, JOIN and WAITM on the masks of a pack: what they write, who goes on, who waits, and the arrival that completes
one. Model's choices: log 36. -/
def Obligations.MasksAndJoins : Prop := MaskUpdates ∧ JoinAndWaitmMeet ∧ LastArrivalCompletes

/-! ### Fibres, rendezvous points and barriers -/

/-- R191: SPAWN fills the first free lane with a fibre at the target that takes g4-g11 and a full stack, clears the lane's bit in
every mask of its pack, and gives its number; a helper lane, and a lane for which no lane is free, get 0xFFFFFFFF. -/
def Sys2Proof.Claims.SpawnStartsAFibre : Prop :=
  ∀ o s b l x, Lone s (spawnNeed o) b l x →
    (x.helper = true ∨ (past s b l).freeLane (b.fib l) = none →
      exec (.spawn o) s = .next ((past s b l).putD (s.laneOf b l) .a o.d 1 (2 ^ 32 - 1))) ∧
    (∀ m u, x.helper = false → (past s b l).freeLane (b.fib l) = some m → (past s b l).release (b.fib l) .core = (.done, u) →
      (u.fibre m).sfaults = [] →
      let y := spawned (u.fibre m) (u.readRegs (b.fib l) 4 (l * 128 + 80) 8) (brTarget o b.pc) (u.blockOf (b.fib l)).lane
      let v := (u.setFibre m y).modPack (fibPack m) (fun p => { p with
        masks := mapAll p.masks (fun _ w => w &&& ~~~BitVec.ofNat 32 (2 ^ fibLane m)) })
      ∃ t, exec (.spawn o) s = .next t ∧ t = (v.recheckMasks (fibPack m)).putD (s.laneOf b l) .a o.d 1 (fibNum m) ∧
        (m ≠ b.fib l → t.fibre? m = some y))

/-- R164, R192, R193, R194: EXIT ends the fibre and takes its lane out of every mask; DEMOTE makes it a helper, and ends it when no
other fibre of the pack is a live one; YIELD makes the pack pass over the lanes at its next turn, while another lane is READY. -/
def Sys2Proof.Claims.FibresEndAndYield : Prop :=
  (∀ o s b l x, Lone s (plainNeed o) b l x → sortedKeys s.fibres = true → x.st ≠ .exited → l < 32 →
    ∃ t, exec (.exit o) s = .next t ∧ (t.fibre? (b.fib l)).map (·.st) = some .exited ∧
      ∀ i, (t.maskOfBatch b i).getLsbD l = false) ∧
  (∀ o s b l x, Lone s (plainNeed o) b l x → sortedKeys s.fibres = true → x.st = .ready → x.helper = false → l < 32 →
    ((∃ k y, k < 32 ∧ k ≠ l ∧ s.fibre? (b.fib k) = some y ∧ y.st ≠ .exited ∧ y.helper = false) →
      ∃ t, exec (.demote o) s = .next t ∧ (t.fibre? (b.fib l)).map (fun y => (y.helper, y.st)) = some (true, .ready)) ∧
    ((∀ k y, k < 32 → k ≠ l → s.fibre? (b.fib k) = some y → y.st = .exited ∨ y.helper = true) →
      ∃ t, exec (.demote o) s = .next t ∧ (t.fibre? (b.fib l)).map (·.st) = some .exited)) ∧
  (∀ o s b l ls, Quiet s (plainNeed o) b → goers s (plainNeed o) b = l :: ls →
    ∃ t, exec (.yield o) s = .next t ∧
      t = (settled s (plainNeed o) b).modPack (packOf b) (fun p => { p with yielded := goers s (plainNeed o) b }) ∧
      ((t.readyLanes (packOf b)).all (fun k => (goers s (plainNeed o) b).contains k) ||
        (t.readyLanes (packOf b)).all (fun k => !(goers s (plainNeed o) b).contains k)) = true)

/-- R164, R191-R194: SPAWN, EXIT, DEMOTE and YIELD. -/
def Obligations.FibresStartAndEnd : Prop := SpawnStartsAFibre ∧ FibresEndAndYield

/-- R200-R203: BINIT gives its status and sets the point up; ARRIVE counts, gives the phase it arrived in, and the last arrival
flips the phase and applies the drops; BWAIT, BSYNC and BTEST compare phases, and acquire when the phase is over. -/
def Sys2Proof.Claims.RendezvousPoints : Prop :=
  ∀ o s b l x, l < 32 → b.pack < 32 →
    let f := b.fib l
    let i := rvPointOf o
    let p := s.point b.team i
    (Lone s (binitNeed o) b l x →
      let c := wordsNat (s.readVals (binitNeed o) b l).a
      exec (.binit o) s = .next (
        if p.init && (decide (0 < p.arrivedN) || (past s b l).anyWaits b.team i) then (past s b l).putD (s.laneOf b l) .v o.d 1 1
        else if c < 1 ∨ 1024 < c then (past s b l).putD (s.laneOf b l) .v o.d 1 2
        else ((past s b l).setPoint b.team i { RvPoint.start with init := true, expect := c, drop := rvDropOf o, roles := rvRolesOf o
          }).putD (s.laneOf b l) .v o.d 1 0)) ∧
    (∀ u, p.init = true → x.st ≠ .exited → (past s b l).release f .core = (.done, u) → (u.team? b.team).isSome →
      let q := u.point b.team i
      (Lone s (arriveNeed o) b l x →
        (q.arrivedN + 1 ≠ q.expect → exec (.arrive o) s =
          .next ((u.setPoint b.team i (oneMore u f (rvDropOf o) q)).putD (s.laneOf b l) .v o.d 1 (if q.phase then 1 else 0))) ∧
        (q.arrivedN + 1 = q.expect → ∃ t, exec (.arrive o) s = .next t ∧ (t.point b.team i).phase = !q.phase ∧
          (t.point b.team i).arrivedN = 0 ∧ (t.point b.team i).expect = q.expect - (oneMore u f (rvDropOf o) q).pend ∧
          ((t.point b.team i).init = true ↔ q.expect - (oneMore u f (rvDropOf o) q).pend ≠ 0))) ∧
      (Lone s (arriveNeed o) b l x →
        (q.arrivedN + 1 ≠ q.expect → exec (.bsync o) s =
          .next ((u.setPoint b.team i (oneMore u f false q)).waitAt (s.laneOf b l) (.rendezvous i q.phase (gOf o.d) none))) ∧
        (q.arrivedN + 1 = q.expect → exec (.bsync o) s =
          .next (((u.rvArrive f i false).2.rvObserve f i).putD (s.laneOf b l) .v o.d 1 (if q.phase then 1 else 0))))) ∧
    (Lone s (bwaitNeed o) b l x →
      let ph := ((s.readVals (bwaitNeed o) b l).a.headD 0).getLsbD 0
      (p.phase ≠ ph → exec (.bwait o) s = .next ((past s b l).rvObserve f i)) ∧
      (p.phase = ph → p.init = true → exec (.bwait o) s =
        .next ((past s b l).waitAt (s.laneOf b l) (.rendezvous i ph none (State.regOf x o.a))))) ∧
    (Lone s (binitNeed o) b l x →
      let ph := ((s.readVals (binitNeed o) b l).a.headD 0).getLsbD 0
      (p.phase ≠ ph → exec (.btest o) s = .next (((past s b l).rvObserve f i).putD (s.laneOf b l) .v o.d 1 1)) ∧
      (p.phase = ph → p.init = true → exec (.btest o) s = .next ((past s b l).putD (s.laneOf b l) .v o.d 1 0)))

/-- R201, R202: ARRIVE, BSYNC, BWAIT and BTEST on a point that is not initialised raise SYNC.DEADLOCK with the point. -/
def Sys2Proof.Claims.UninitialisedPointRaises : Prop :=
  ∀ o s b l x, (s.point b.team (rvPointOf o)).init = false →
    let e : Err := { eff := 0x030, arg := rvPointOf o + 0x100 }
    (Lone s (arriveNeed o) b l x → x.st ≠ .exited →
      exec (.arrive o) s = .next (raised s b l e) ∧ exec (.bsync o) s = .next (raised s b l e)) ∧
    (Lone s (bwaitNeed o) b l x →
      ((s.readVals (bwaitNeed o) b l).a.headD 0).getLsbD 0 = (s.point b.team (rvPointOf o)).phase →
      exec (.bwait o) s = .next (raised s b l e)) ∧
    (Lone s (binitNeed o) b l x →
      ((s.readVals (binitNeed o) b l).a.headD 0).getLsbD 0 = (s.point b.team (rvPointOf o)).phase →
      exec (.btest o) s = .next (raised s b l e))

/-- R200-R203: the instructions on rendezvous points, and what they raise on a point that is not initialised. -/
def Obligations.RendezvousPointsMeet : Prop := RendezvousPoints ∧ UninitialisedPointRaises

/-- R206: HBAR outside a whole launch, or in one with dependencies, raises SYNC.DEADLOCK; otherwise the fibre releases and waits, and
the last member to arrive advances the round of its instance and lets every member go on. -/
def Obligations.HbarRounds : Prop :=
  ∀ o s b l x, Lone s (hbarNeed o) b l x →
    (((s.launchOfTeam b.team).whole = false ∨ (s.launchOfTeam b.team).blk.deps ≠ []) →
      exec (.hbar o) s = .next (raised s b l { eff := 0x030, arg := 0x280 })) ∧
    (∀ u y, (s.launchOfTeam b.team).whole = true → (s.launchOfTeam b.team).blk.deps = [] → l < 32 → b.pack < 32 →
      (past s b l).release (b.fib l) (modScope o.mod) = (.done, u) → (u.team? b.team).isSome →
      sortedKeys u.fibres = true → sortedKeys u.teams = true → u.fibre? (b.fib l) = some y → y.helper = false → y.st ≠ .exited →
      let sc := modScope o.mod
      let w := u.waitAt (s.laneOf b l) (.hbar sc (u.hbarRoundOf b.team sc))
      ((∃ e ∈ w.hbarMembers b.team sc, State.inHbar sc e.2 = false) → exec (.hbar o) s = .next w) ∧
      ((∀ e ∈ w.hbarMembers b.team sc, State.inHbar sc e.2 = true) → (∀ k ∈ w.hbarTeams b.team sc, (w.team k).phase = .running) →
        ∃ t, exec (.hbar o) s = .next t ∧ t.hbarRoundOf b.team sc = u.hbarRoundOf b.team sc + 1 ∧
          (t.fibre? (b.fib l)).map (fun z => (z.st, z.pc)) = some (.ready, nextPc b.pc)))

/-! ### Memory instructions -/

/-- R248-R250: no kind, a space that the access does not take, alignment and permission, in this order, decide the effect and the
argument of an access; one that passes is aligned and, under a global handle, in bounds. LD, ST, STL, ATOM, ACAS, RED, WLINE and LDQ
raise what the checks find and change nothing else. -/
def Obligations.AccessChecksRaise : Prop :=
  (∀ s f h off w, let e := State.entry s f h
    (e.spaceOf = none → s.check f h off w = .error { eff := 0x027, arg := marg h (s.finalAddr f h e e.kindSpace off) }) ∧
    (∀ sp, e.spaceOf = some sp → let fin := s.finalAddr f h e sp off
      (sp ∉ w.spaces → s.check f h off w = .error { eff := 0x027, arg := marg h fin }) ∧
      (sp ∈ w.spaces → fin % w.align ≠ 0 → s.check f h off w = .error { eff := 0x025, arg := marg h fin }) ∧
      (sp ∈ w.spaces → fin % w.align = 0 → h ≠ 0 →
        (w.rd = true ∧ e.canRead = false) ∨ (w.wr = true ∧ e.canWrite = false) ∨ (w.at_ = true ∧ e.canAtom = false) →
        s.check f h off w = .error { eff := 0x022, arg := marg h fin }) ∧
      (∀ a, s.check f h off w = .ok a → fin % w.align = 0 ∧
        ((sp = 1 ∨ sp = 6) → h = 0 ∨ (0 ≤ off ∧ off + w.n ≤ e.len))))) ∧
  (∀ o s b l x e, (past s b l).acqHeld (b.fib l) = false → l < 32 →
    let r := raised s b l (withLane l e)
    (Lone s (ldNeed o) b l x → checked o s (ldNeed o) b l (wantRead o [2, 3, 4, 5]) = .error e → exec (.ld o) s = .next r) ∧
    (Lone s (stNeed o) b l x → checked o s (stNeed o) b l (wantWrite o.sz.bytes) = .error e → exec (.st o) s = .next r) ∧
    (Lone s (stlNeed o) b l x → checked o s (stlNeed o) b l (wantWrite 64) = .error e → exec (.stl o) s = .next r) ∧
    (Lone s (ldqNeed o) b l x → (queueOf x (qOf o.d)).length < 8 →
      checked o s (ldqNeed o) b l (wantRead o [1, 2, 3, 4, 5]) = .error e → exec (.ldq o) s = .next r) ∧
    (Lone s (atomNeed o 0) b l x → checked o s (atomNeed o 0) b l (wantAtom o) = .error e → exec (.atom o) s = .next r) ∧
    (Lone s (atomNeed o o.sz.regs) b l x → checked o s (atomNeed o o.sz.regs) b l (wantAtom o) = .error e →
      exec (.acas o) s = .next r) ∧
    (Lone s (stNeed o) b l x → checked o s (stNeed o) b l (wantAtom o) = .error e → exec (.red o) s = .next r) ∧
    (Lone s (wlineNeed o) b l x → checked o s (wlineNeed o) b l (wantRead o [1, 2, 3, 4, 5]) = .error e →
      exec (.wline o) s = .next r))

/-- R246, R247, R272, R321: an LD that its order does not hold to its place starts a read, which the registers of D wait for; when the
read is performed they take the bytes that are then at the place, sign- or zero-extended. -/
def Sys2Proof.Claims.LoadsStartTheirRead : Prop :=
  (∀ o s b l x a p j, Access o s (ldNeed o) b l x (wantRead o [2, 3, 4, 5]) a → (o.ord = .plain ∨ o.ord = .rlx) → o.d = .g j →
    let u := reaching s b l a
    let r := if x.capMode && decide (j.val < 8) then rC j.val else rG j.val
    u.issuedPlace (b.fib l) a.loc = some p →
    exec (.ld o) s = .next (u.modFibre (b.fib l) (fun y =>
      { y.putLoads r y.qseq 0 (natWords o.sz.regs (extendBytes (o.fn.getLsbD 1) (u.placeRead o.sz.bytes p))) with
        loads := mapSet y.loads y.qseq { loc := a.loc, n := o.sz.bytes, sx := o.fn.getLsbD 1 }, qseq := y.qseq + 1 }))) ∧
  (∀ (s : State) f x q (ld : LoadRead) p (w : RegWrite), s.fibre? f = some x → mapGet x.loads q = some ld → s.issuedPlace f ld.loc = some p → w ∈ x.pend → w.load = some q →
    { w with
      load := none
      val := (natWords (if ld.n ≤ 4 then 1 else ld.n / 4) (extendBytes ld.sx (s.placeRead ld.n p))).getD w.serial w.val } ∈
      ((s.performLoad f q).fibre f).pend)

/-- R247, R272, R326, R328: an LD that its order holds to its place, or whose D is no register of its fibre, gives the bytes at the place
of the location, sign- or zero-extended, and changes nothing else but the handle cache; an acquiring order then acquires. -/
def Sys2Proof.Claims.OrderedLoadsRead : Prop :=
  ∀ o s b l x a p, Access o s (ldNeed o) b l x (wantRead o [2, 3, 4, 5]) a →
    (o.ord ≠ .sc → ((o.ord ≠ .plain ∧ o.ord ≠ .rlx) ∨ ∀ j, o.d ≠ .g j) →
      let u := (reaching s b l a).arriveAt (b.fib l) a.loc
      u.behind (b.fib l) a.loc = false → u.issuedPlace (b.fib l) a.loc = some p →
      exec (.ld o) s = .next ((if o.ord = .acq ∨ o.ord = .ar then u.acquire (b.fib l) o.sc else u).putD (s.laneOf b l) .v o.d o.sz.regs
        (extendBytes (o.fn.getLsbD 1) (u.placeRead o.sz.bytes p)))) ∧
    (∀ u, o.ord = .sc → (past s b l).releaseActs (b.fib l) o.sc = u → u.releaseWaits (b.fib l) o.sc = false →
      (u.touchHandle (b.fib l) a.hnd).issuedPlace (b.fib l) a.loc = some p →
      exec (.ld o) s = .next ((afterwards o b l (u.touchHandle (b.fib l) a.hnd)).putD (s.laneOf b l) .v o.d o.sz.regs
        (extendBytes (o.fn.getLsbD 1) ((u.touchHandle (b.fib l) a.hnd).placeRead o.sz.bytes p))))

/-- R246, R247, R272, R321, R326, R328: LD, whatever its order. Model's choices: logs 11, 54. -/
def Obligations.LoadsGiveTheBytes : Prop := LoadsStartTheirRead ∧ OrderedLoadsRead

/-- R246, R247, R273, R274: a store to an on-chip space writes exactly its bytes there: they read back, every other byte of that
store reads as before, and DRAM and every register stay as they are. -/
def Sys2Proof.Claims.OnChipStoresWriteTheirBytes : Prop :=
  ∀ o s b l x a p,
    let good (n : Nat) (bs : List Byte) (i : Instr) : Prop :=
      ∃ t, exec i s = .next t ∧ t = (reaching s b l a).placeWrite bs p ∧
        ((∀ c off, p = .scratch c off →
            (Memory.wf (s.core c).scratch = true → (t.core c).scratch.reads off n = bs) ∧
            (∀ y, y < off ∨ off + n ≤ y → (t.core c).scratch.read y = (s.core c).scratch.read y) ∧
            (∀ d, (t.die d).tundish = (s.die d).tundish)) ∧
          (∀ d off, p = .tundish d off →
            (Memory.wf (s.die d).tundish = true → (t.die d).tundish.reads off n = bs) ∧
            (∀ y, y < off ∨ off + n ≤ y → (t.die d).tundish.read y = (s.die d).tundish.read y) ∧
            (∀ c, (t.core c).scratch = (s.core c).scratch))) ∧
        t.dram = s.dram ∧ t.fibres = (past s b l).fibres
    o.ord = .plain → (past s b l).place (b.fib l) a.loc = some p → (reaching s b l a).mustHold (b.fib l) a.loc = false →
      (Access o s (stNeed o) b l x (wantWrite o.sz.bytes) a →
        good o.sz.bytes (leBytes o.sz.bytes (wordsNat (s.readVals (stNeed o) b l).b)) (.st o)) ∧
      ((∃ j, o.b = .g j) → Access o s (stlNeed o) b l x (wantWrite 64) a → good 64 (bytesOf (s.readVals (stlNeed o) b l).b) (.stl o))

/-- R273, R274, R325, R328: a store that releases performs its release first; then its bytes are written, or its translation raises
its effect, or it stays while home refuses it; an order that acquires acquires last. -/
def Sys2Proof.Claims.StoresComplete : Prop :=
  ∀ o s b l x a v, releasedAt o s b l a v →
    let pol := if o.ch = 0 then a.pol else o.ch.toNat
    let how : How := { ord := o.ord, sc := o.sc, cv := pol == 2, rc := a.rc,
                       hint := if pol = 1 then .stream else if pol = 3 then .keep else .normal }
    (∀ r u, Access o s (stNeed o) b l x (wantWrite o.sz.bytes) a →
      v.writeLoc (b.fib l) a how (leBytes o.sz.bytes (wordsNat (s.readVals (stNeed o) b l).b)) = (r, u) →
      exec (.st o) s = .next (match r with
        | .ok _ => afterwards o b l u
        | .error e => u.stop (s.laneOf b l) e)) ∧
    (∀ r u, Access o s (stlNeed o) b l x (wantWrite 64) a →
      v.writeLoc (b.fib l) a { how with cv := true } (bytesOf (s.readVals (stlNeed o) b l).b) = (r, u) →
      exec (.stl o) s = .next (match r with
        | .ok _ => afterwards o b l u
        | .error e => u.stop (s.laneOf b l) e))

/-- R246, R247, R273, R274, R325, R328: ST and STL, whatever their space and order. -/
def Obligations.StoresWriteTheirBytes : Prop := OnChipStoresWriteTheirBytes ∧ StoresComplete

/-- R253: bytes written into the L1 read back through it, whatever the sector held; DRAM does not change, and a core's L1 changes in
that sector alone. -/
def Obligations.L1GivesBackWhatWasWritten : Prop :=
  ∀ (s : State) f life c ctx va arg (xl : Xl) (bs : List Byte) rc h, bs.length + xl.pa % 64 ≤ 64 →
    (∀ y, s.l1 c (sectorKey xl.pa xl.key) = some y → ∃ data, y = .clean data ∧ data.length = 64 ∨
      ∃ bm full acq cx v g w, y = .dirty bm full acq data cx v g w ∧ data.length = 64) →
    let t := s.l1Write f life c ctx va arg xl bs
    (t.l1Read c xl.pa xl.key bs.length rc h).1 = bs ∧ t.dram = s.dram ∧
      (∀ k, k ≠ sectorKey xl.pa xl.key → t.l1 c k = s.l1 c k) ∧ (∀ d, d ≠ c → t.core d = s.core d)

/-- R346-R348: ATOM, ACAS and RED at an on-chip place: the old value goes to D, the new value of the operation to the place; a failing
ACAS writes nothing. -/
def Sys2Proof.Claims.OnChipAtomics : Prop :=
  ∀ o s b l x a r, releasedAt o s b l a r →
    let v := r.arriveAt (b.fib l) a.loc
    v.behind (b.fib l) a.loc = false →
    (∀ p, v.place (b.fib l) a.loc = some p →
      let old := leNat (v.placeRead o.sz.bytes p)
      (Access o s (atomNeed o 0) b l x (wantAtom o) a → exec (.atom o) s =
        .next ((afterwards o b l (v.placeWrite (leBytes o.sz.bytes
          (atomValue o old (wordsNat (s.readVals (atomNeed o 0) b l).b))) p)).putD (s.laneOf b l) .v o.d o.sz.regs old)) ∧
      (Access o s (atomNeed o o.sz.regs) b l x (wantAtom o) a →
        let y := s.readVals (atomNeed o o.sz.regs) b l
        exec (.acas o) s = .next ((afterwards o b l (if old = wordsNat y.b % 2 ^ (8 * o.sz.bytes) then
            v.placeWrite (leBytes o.sz.bytes (wordsNat y.c % 2 ^ (8 * o.sz.bytes))) p else v)).putD (s.laneOf b l) .v o.d o.sz.regs old)) ∧
      (Access o s (stNeed o) b l x (wantAtom o) a → exec (.red o) s =
        .next (v.placeWrite (leBytes o.sz.bytes (atomValue o old (wordsNat (s.readVals (stNeed o) b l).b))) p)))

/-- R254, R347, R348: a global ATOM or ACAS of a sector that its core does not hold reads and writes at home, once its page translates, a
failing ACAS only reads; an ATOM.comm takes the old value from home without a recall. -/
def Sys2Proof.Claims.GlobalAtomics : Prop :=
  ∀ o s b l x a r va y xl w u, releasedAt o s b l a r → a.loc = .glob va →
    let f := b.fib l
    let v := r.arriveAt f a.loc
    v.behind f a.loc = false → v.translate (.core (v.coreOf f)) (v.ctxOf f) va .atomic = (.ok y, w) →
    w.resolve (.core (v.coreOf f)) (w.ctxOf f) va .atomic y = (.ok xl, u) → u.frozen xl.pa = false →
    u.l1 (u.coreOf f) (sectorKey xl.pa xl.key) = none →
    let die := u.coreOf f / 128
    let ends (t : State) (old : Nat) : State :=
      (afterwards o b l (t.seeHome f xl.pa xl.key)).putD (s.laneOf b l) .v o.d o.sz.regs old
    let h := u.homeRead xl.pa xl.key o.sz.bytes
    let sum (old : Nat) : List Byte := leBytes o.sz.bytes (atomValue o old (wordsNat (s.readVals (atomNeed o 0) b l).b))
    (Access o s (atomNeed o 0) b l x (wantAtom o) a →
      (o.ch ≠ 1 → exec (.atom o) s = .next (ends (h.2.homeWrite die xl.pa xl.key (sum (leNat h.1))) (leNat h.1))) ∧
      (o.ch = 1 → let old := leNat (u.homeBytes xl.key xl.pa o.sz.bytes)
        exec (.atom o) s = .next (ends (((u.dramWrite xl.key xl.pa (sum old)).copyUpdate die xl.pa xl.key (sum old)).touchWatch 0
          (xl.pa / 64)) old))) ∧
    (Access o s (atomNeed o o.sz.regs) b l x (wantAtom o) a →
      let z := s.readVals (atomNeed o o.sz.regs) b l
      (leNat h.1 = wordsNat z.b % 2 ^ (8 * o.sz.bytes) → exec (.acas o) s =
        .next (ends (h.2.homeWrite die xl.pa xl.key (leBytes o.sz.bytes (wordsNat z.c % 2 ^ (8 * o.sz.bytes)))) (leNat h.1))) ∧
      (leNat h.1 ≠ wordsNat z.b % 2 ^ (8 * o.sz.bytes) → exec (.acas o) s = .next (ends h.2 (leNat h.1))))

/-- R255, R347, R351: a global RED is on its way to home once its page translates, `.unp` where it says so; a RED.comm joins the updates of
an Update-only sector of its core, or begins one. -/
def Sys2Proof.Claims.GlobalReductions : Prop :=
  ∀ o s b l x a r va y w, releasedAt o s b l a r → a.loc = .glob va → Access o s (stNeed o) b l x (wantAtom o) a →
    let f := b.fib l
    let val := wordsNat (s.readVals (stNeed o) b l).b % 2 ^ (8 * o.sz.bytes)
    r.translate (.core (r.coreOf f)) (r.ctxOf f) va .atomic = (.ok y, w) →
    (o.ch ≠ 1 → exec (.red o) s = .next (w.sendReq
      { fib := f, life := (w.fibre f).life, team := f / 1024, core := w.coreOf f, ctx := w.ctxOf f,
        cxgen := (w.ctx (w.ctxOf f)).cxgen, loc := .glob va, pa := y.pa, key := y.key, gen := y.gen, hnd := a.hnd,
        op := .red o.fn.toNat o.sz.bytes val, through := true, unp := o.ch == 2, sc := if o.ord = .sc then some o.sc else none,
        hint := .normal, seq := w.nextSeq f, issued := w.tick, replay := false })) ∧
    (∀ xl u, o.ch = 1 → let z := w.arriveAt f a.loc
      z.behind f a.loc = false → z.resolve (.core (z.coreOf f)) (z.ctxOf f) va .atomic y = (.ok xl, u) →
      let c := u.coreOf f
      let k := sectorKey xl.pa xl.key
      let op : Comm := { off := xl.pa % 64, n := o.sz.bytes, fn := o.fn.toNat, val := val }
      (∀ ops, u.l1 c k = some (.updateOnly ops) → exec (.red o) s = .next (u.setL1 c k (.updateOnly (ops ++ [op])))) ∧
      (∀ t, u.l1 c k = none → u.unsent c k = false → u.allocate c k .normal = some t →
        exec (.red o) s = .next (t.setL1 c k (.updateOnly [op]))))

/-- R254, R255, R346-R348, R351: ATOM, ACAS and RED, on the chip and in global memory, `.comm` and `.unp` ones too. -/
def Obligations.AtomicsReadModifyWrite : Prop := OnChipAtomics ∧ GlobalAtomics ∧ GlobalReductions

/-- R177, R249, R250: HADDR gives the space in bits [63:56] and the address below, under h0 the offset itself, and accesses nothing. An
entry of no kind or an invalid one raises MEM.HANDLE, a span outside `LEN`, the allocation or a present member's export MEM.BOUNDS,
MEM.STACK or MEM.SCRATCH with its cause. -/
def Obligations.HandleAddresses : Prop :=
  ∀ o s b l x, Lone s (haddrNeed o) b l x → l < 32 →
    let p := past s b l
    let f := b.fib l
    let h := o.hnd.toNat
    let e := p.entry f h
    let blk := p.blockOf f
    let n : Int := o.sz.bytes
    let off := eaOff o.off (s.readVals (haddrNeed o) b l).a
    let fin := (e.base : Int) + off
    let gives (sp : Nat) : Prop := exec (.haddr o) s = .next ((p.touchHandle f h).putD (s.laneOf b l) .a o.d 2
      (sp * 2 ^ 56 ||| (fin % (2 ^ 64 : Nat)).toNat))
    let raises (eff arg : Nat) : Prop := exec (.haddr o) s = .next (raised s b l (withLane l { eff := eff, arg := arg }))
    let scratch (cause : Nat) : Prop := raises 0x021 (h * 2 ^ 20 + cause * 2 ^ 16)
    let inLen := 0 ≤ off ∧ off + n ≤ e.len
    (o.hnd = 0 → exec (.haddr o) s = .next (p.putD (s.laneOf b l) .a o.d 2 (off % (2 ^ 64 : Nat)).toNat)) ∧
    (o.hnd ≠ 0 → e.spaceOf = none → raises 0x027 (marg h (p.finalAddr f h e e.kindSpace off))) ∧
    (∀ sp, o.hnd ≠ 0 → e.spaceOf = some sp →
      (sp = 1 ∨ sp = 6 → (inLen → gives sp) ∧ (¬inLen → raises 0x020 (marg h (p.finalAddr f h e sp off)))) ∧
      (sp = 2 → (off < 0 → raises 0x026 (marg h fin)) ∧ (0 ≤ off → ¬inLen → scratch 0) ∧
        (inLen → blk.lane < fin + n → scratch 1) ∧ (inLen → fin + n ≤ blk.lane → gives sp)) ∧
      (sp = 3 → (¬inLen → scratch 0) ∧ (inLen → blk.scratch < fin + n → scratch 1) ∧
        (inLen → fin + n ≤ blk.scratch → p.inSpill (f / 1024) fin n = true → scratch 2) ∧
        (inLen → fin + n ≤ blk.scratch → p.inSpill (f / 1024) fin n = false → gives sp)) ∧
      (sp = 4 → (¬inLen → scratch 0) ∧ (inLen → 2 ^ 20 ≤ fin → scratch 1) ∧
        (inLen → fin < 2 ^ 20 → p.member (f / 1024) (fin.toNat / 2 ^ 18) = none → scratch 3) ∧
        (∀ t, inLen → fin < 2 ^ 20 → p.member (f / 1024) (fin.toNat / 2 ^ 18) = some t →
          ((p.launchOfTeam t).blk.quadexp < fin.toNat % 2 ^ 18 + o.sz.bytes → scratch 1) ∧
          (fin.toNat % 2 ^ 18 + o.sz.bytes ≤ (p.launchOfTeam t).blk.quadexp → gives sp))) ∧
      (sp = 5 → (¬inLen → scratch 0) ∧ (inLen → blk.tundish < fin + n → scratch 1) ∧ (inLen → fin + n ≤ blk.tundish → gives sp)))

/-! ### Queues, hints, fences, watch slots and capsules -/

/-- R159, R275: LDQ appends an entry whose read is on its way, or waits while its queue holds eight; the read of an on-chip entry,
when it is performed, leaves the bytes of its place in the entry. -/
def Sys2Proof.Claims.QueueReads : Prop :=
  (∀ o s b l x, Lone s (ldqNeed o) b l x →
    (8 ≤ (queueOf x (qOf o.d)).length → exec (.ldq o) s = .next ((past s b l).waitAt (s.laneOf b l) (.queueFree (qOf o.d)))) ∧
    (∀ a, (queueOf x (qOf o.d)).length < 8 → (past s b l).acqHeld (b.fib l) = false → o.ord ≠ .sc →
      checked o s (ldqNeed o) b l (wantRead o [1, 2, 3, 4, 5]) = .ok a →
      exec (.ldq o) s = .next (appended (reaching s b l a) o b l a)) ∧
    (∀ a, (queueOf x (qOf o.d)).length < 8 → (past s b l).acqHeld (b.fib l) = false → o.ord = .sc →
      checked o s (ldqNeed o) b l (wantRead o [1, 2, 3, 4, 5]) = .ok a →
      let u := (reaching s b l a).releaseActs (b.fib l) o.sc
      exec (.ldq o) s = .next (if u.releaseWaits (b.fib l) o.sc then u.stall (s.laneOf b l) else appended u o b l a))) ∧
  (∀ s f x (q : Fin 4) i e p, s.fibre? f = some x → x.halted = false → (queueOf x q.val)[i]? = some e → e.at_ = .flight →
    ((s.flying f).filter (fun y => decide (y.seq < e.seq) && y.block == locBlock e.loc)) = [] → s.issuedPlace f e.loc = some p →
    let t := s.modFibre f (fun y => { y with
      queues := mapMod y.queues q.val (fun es => es.set i { e with at_ := .bytes (s.placeRead e.sz.bytes p) false }) })
    exec (.queueEntryArrival f q i) s =
      .next (if e.how.ord = .acq ∨ e.how.ord = .sc then t.acquireCore (t.coreOf f) e.how.sc (some f) else t))

/-- R276-R278, R296: QPOP takes the head entry's bytes, with the residency flag of `.nr`, waits for one in flight, and raises for an
empty queue, another size or a fault; QSTAT counts; TKTEST says whether a token is open, and acquires when it is not: in capsule mode
the field names a c register, which has none. -/
def Sys2Proof.Claims.QueueResults : Prop :=
  (∀ o s b l x, Lone s (qpopNeed o) b l x →
    (queueOf x (qOf o.a) = [] → exec (.qpop o) s = .next (raised s b l (illegal b.word))) ∧
    (∀ e es, queueOf x (qOf o.a) = e :: es →
      (e.at_ = .flight → exec (.qpop o) s = .next ((past s b l).waitAt (s.laneOf b l) (.queueArrive (qOf o.a)))) ∧
      (e.at_ ≠ .flight → e.sz ≠ qpopSz o → exec (.qpop o) s = .next (raised s b l (illegal b.word))) ∧
      (∀ bs fl, e.at_ = .bytes bs fl → e.sz = qpopSz o →
        let t := ((past s b l).modFibre (b.fib l) (fun y => { y with queues := mapMod y.queues (qOf o.a) List.tail })).putD
          (s.laneOf b l) .a o.d (qpopSz o).regs (extendBytes e.sx bs)
        exec (.qpop o) s = .next (if e.nr then t.modFibre (b.fib l) (fun y => y.put .a (rP e.pr) (if fl then 1 else 0)) else t)) ∧
      (∀ eff arg p, e.at_ = .fault eff arg p → e.sz = qpopSz o → eff ≠ 0x023 →
        exec (.qpop o) s = .next (raised s b l { eff := eff, arg := arg })) ∧
      (∀ arg p, e.at_ = .fault 0x023 arg p → e.sz = qpopSz o →
        exec (.qpop o) s = .next (raisedIn ((past s b l).modFibre (b.fib l) (fun y => { y with
          queues := mapMod y.queues (qOf o.a) (fun _ => { e with at_ := .fault 0x023 arg (some b.pc.toNat) } :: es) }))
          b l { eff := 0x023, arg := arg })))) ∧
  (∀ o s b, Quiet s (qstatNeed o) b → namesK o.d = false → ∃ t, exec (.qstat o) s = .next t ∧
    LaneResult s t (qstatNeed o) b (fun _ x => x.putD .a o.d 1 (queueWord (queueOf x (qOf o.a))))) ∧
  (∀ o s b l x (j : Fin 128), Lone s (tktestNeed o) b l x → o.a = .g j →
    (x.capMode = false → mapHas x.tok j.val = true → exec (.tktest o) s = .next ((past s b l).putD (s.laneOf b l) .a o.d 1 0)) ∧
    (x.capMode = true ∨ mapHas x.tok j.val = false → exec (.tktest o) s =
      .next (((past s b l).acquire (b.fib l) .core).putD (s.laneOf b l) .a o.d 1 1)))

/-- R159, R275-R278, R296: LDQ, the arrival of its reads, QPOP, QSTAT and TKTEST. -/
def Obligations.QueuesFillAndPop : Prop := QueueReads ∧ QueueResults

/-- R280, R281: PREF raises no effect and changes no fibre but for the store faults of lines that leave; HRES gives 2 for an unmapped address, 1 for a resident page, 0 where the
page becomes resident and 3 where Cupola refuses. -/
def Sys2Proof.Claims.HintsAndResidency : Prop :=
  (∀ o s b l x, Lone s (prefNeed o) b l x → (past s b l).acqHeld (b.fib l) = false →
    ∃ t, exec (.pref o) s = .next t ∧
      (∀ f, (t.fibre? f).map (fun y => { y with sfaults := [] }) = ((past s b l).fibre? f).map (fun y => { y with sfaults := [] })) ∧
      (∀ e, (past s b l).check (b.fib l) o.hnd.toNat (offOf o s (prefNeed o) b l)
        { spaces := [1], n := 1, align := 1, rd := true } = .error e → t = past s b l)) ∧
  (∀ o s b l x va, Lone s (hresNeed o) b l x → (past s b l).acqHeld (b.fib l) = false → o.hnd = 0 → offOf o s (hresNeed o) b l = (va : Nat) → va < 2 ^ 52 →
    let c := (past s b l).ctxOf (b.fib l)
    ((past s b l).residence c va = .unmapped → exec (.hres o) s = .next ((past s b l).putD (s.laneOf b l) .v o.d 1 2)) ∧
    ((past s b l).residence c va = .resident → exec (.hres o) s = .next ((past s b l).putD (s.laneOf b l) .v o.d 1 1)) ∧
    ((past s b l).residence c va = .absent → exec (.hres o) s = .next (
      match (if Config.hresRefuses s.tick then none else (past s b l).pickFrame 40 ((past s b l).leafPages c va)) with
      | none => (past s b l).putD (s.laneOf b l) .v o.d 1 3
      | some n =>
        let t := (past s b l).makeResident c va n
        if t.residence c va = .resident then t.putD (s.laneOf b l) .v o.d 1 0 else (past s b l).putD (s.laneOf b l) .v o.d 1 3)))

/-- R282, R331, R336: WBR writes back and INVR writes back and drops every sector of the core's L1 in the range, INVR the die's remote
copies as well, after the fibre's own earlier accesses of the range; D counts the sectors whose state changed; a range on the chip changes
nothing and gives 0; bytes, or an earlier access, that wait for a frozen frame keep the lane at the instruction. -/
def Sys2Proof.Claims.RangeInstructions : Prop :=
  ∀ o s b l x, Lone s (rangeNeed o) b l x → (past s b l).acqHeld (b.fib l) = false →
    let p := past s b l
    let f := b.fib l
    let n := wordsNat (s.readVals (rangeNeed o) b l).b
    (∀ sp, (p.entry f o.hnd.toNat).spaceOf = some sp → sp ≠ 1 → sp ≠ 6 →
      exec (.wbr o) s = .next (p.putD (s.laneOf b l) .v o.d 1 0) ∧ exec (.invr o) s = .next (p.putD (s.laneOf b l) .v o.d 1 0)) ∧
    (let e := p.entry f o.hnd.toNat
      let off := offOf o s (rangeNeed o) b l
      let fin := p.finalAddr f o.hnd.toNat e 1 off
      e.spaceOf = some 1 → (o.hnd = 0 ∨ (0 ≤ off ∧ off + n ≤ e.len)) →
      let c := p.coreOf f
      let va := (max fin 0).toNat
      let m := (min (fin + n) (2 ^ 52) - max fin 0).toNat
      let q := p.arriveBefore f (fun y => inBlocks va m y.block)
      let pieces := q.rangePieces (q.ctxOf f) va m
      let ks := pieces.flatMap (fun e => q.sectorsOver c e.1 e.2)
      let waits := (∃ k ∈ ks, q.heldBack c k = true) ∨ ∃ y ∈ q.flying f, inBlocks va m y.block = true
      (waits → exec (.wbr o) s = .next (q.stall (s.laneOf b l)) ∧ exec (.invr o) s = .next (q.stall (s.laneOf b l))) ∧
      (∀ t, ¬waits → t = ks.foldl (fun s k => s.writeBack c k true) q → (∀ k ∈ ks, t.unsent c k = false) →
        exec (.wbr o) s = .next (t.putD (s.laneOf b l) .v o.d 1 (ks.filter (fun k => q.l1 c k != t.l1 c k)).length)) ∧
      (∀ t, ¬waits → t = pieces.foldl (fun s e => s.dropCopies (c / 128) e.1 e.2)
          (ks.foldl (fun s k => s.flushSector c (k / 512 * 64) (k % 512) true) q) → (∀ k ∈ ks, t.unsent c k = false) →
        exec (.invr o) s = .next (t.putD (s.laneOf b l) .v o.d 1 (ks.filter (fun k => q.l1 c k != t.l1 c k)).length)))

/-- R280-R282: PREF, HRES, WBR and INVR. Model's choices: log 6. -/
def Obligations.HintsAndRanges : Prop := HintsAndResidency ∧ RangeInstructions

/-- R325, R329, R352: FENCE releases, then acquires, as its order says; a store fault that the release finds is raised; a release
or a read that must wait keeps the fibre at the FENCE. Model's choices: log 11. -/
def Obligations.FencesOrder : Prop :=
  ∀ o s b l x, Lone s (fenceNeed o) b l x →
    let f := b.fib l
    let rel := o.ord = .rel ∨ o.ord = .ar ∨ o.ord = .sc
    let acq (t : State) : State :=
      if o.ord = .acq ∨ o.ord = .ar ∨ o.ord = .sc then
        let u := t.arriveBefore f (fun _ => true)
        if u.readsLeft f then u.stall (s.laneOf b l) else u.acquire f o.sc
      else t
    (¬rel → exec (.fence o) s = .next (acq (past s b l))) ∧
    (∀ u, rel → (past s b l).release f o.sc = (.done, u) → exec (.fence o) s = .next (acq u)) ∧
    (∀ u, rel → (past s b l).release f o.sc = (.wait, u) → exec (.fence o) s = .next (u.stall (s.laneOf b l))) ∧
    (∀ u g, rel → (past s b l).release f o.sc = (.fault g, u) →
      exec (.fence o) s = .next (raisedIn u b l { eff := 0x024, arg := g }))

/-- R353, R354: WLINE finds the value changed (0), or waits with its watch slot armed, or finds no slot (1); a write performed at home or at
the storage place in the sector of an armed slot marks the slot, and the fibre of a marked slot reads again, alone. Model's choices: log
46. -/
def Obligations.WatchSlots : Prop :=
  (∀ o s b l x a p sp sec, Access o s (wlineNeed o) b l x (wantRead o [1, 2, 3, 4, 5]) a →
    let f := b.fib l
    let u := (reaching s b l a).arriveAt f a.loc
    u.behind f a.loc = false → u.issuedPlace f a.loc = some p →
    (leNat (u.placeRead o.sz.bytes p) ≠ wordsNat (s.readVals (wlineNeed o) b l).b →
      exec (.wline o) s = .next ((afterwards o b l (u.freeWatch f)).putD (s.laneOf b l) .v o.d 1 0)) ∧
    (leNat (u.placeRead o.sz.bytes p) = wordsNat (s.readVals (wlineNeed o) b l).b → u.slotOfFibre f = none →
      u.watchSector f a.loc = some (sp, sec) →
      (mapFree (u.core (u.coreOf f)).watch 64 = none → exec (.wline o) s = .next (u.putD (s.laneOf b l) .v o.d 1 1)) ∧
      (∀ i, mapFree (u.core (u.coreOf f)).watch 64 = some i → exec (.wline o) s =
        .next ((u.modCore (u.coreOf f) (fun c => { c with
          watch := mapSet c.watch i { fib := f, sector := sec, space := sp, changed := false } })).waitAt (s.laneOf b l) (.wline i))))) ∧
  (∀ s c f x i w, s.fibre? f = some x → x.st = .waiting (.wline i) → x.halted = false → (i, w) ∈ (s.core c).watch → w.fib = f →
    w.changed = true →
    ∃ t, exec (.watchSlotTrigger c f) s = .next t ∧ (t.fibre? f).map (·.st) = some .ready ∧
      t.issue = Batch.formed (fibTeam f) (fibNum f / 32) x.pc [fibLane f] (fibLane f) (s.core (s.coreOf f)).clk :: s.issue) ∧
  (∀ (s : State) c i w bs, mapGet (s.core c).watch i = some w → bs ≠ [] →
    let marks (t : State) : Prop := mapGet (t.core c).watch i = some { w with changed := true }
    (∀ die pa key, w.space = 0 → w.sector = pa / 64 → marks (s.homeWrite die pa key bs)) ∧
    (∀ k off, w.space = 1 + k → off / 64 ≤ w.sector → w.sector ≤ (off + bs.length - 1) / 64 → marks (s.placeWrite bs (.scratch k off))) ∧
    (∀ d off, w.space = 100000 + d → off / 64 ≤ w.sector → w.sector ≤ (off + bs.length - 1) / 64 →
      marks (s.placeWrite bs (.tundish d off))))

/-- R358, R361: CAPENTER on a free block begins a tenure at its entry; on a parked one it adopts the tenure at its resume point; on a
running or a broken one it gives BUSY or BROKEN. -/
def Sys2Proof.Claims.CapsuleEntry : Prop :=
  ∀ o s b l x a xl u v w blk, BlockAt o s (capenterNeed o) b l x a xl u → mailboxErr u (b.fib l)
      (wordsNat (s.readVals (capenterNeed o) b l).b) = (none, v) → v.capHeld (b.fib l) (locVa a.loc) xl = false →
    v.capRead (b.fib l) xl = (blk, w) →
    fieldAt blk 12 4 = 0 → isSlot (BitVec.ofNat 32 (fieldAt blk 8 4)) = true →
    let f := b.fib l
    let lock := fieldAt blk 0 8
    let ogen := (lockOgen lock + 1) % 2 ^ 16
    let d := gIx o.d
    let mb := wordsNat (s.readVals (capenterNeed o) b l).b
    (lockState lock = 0 →
      let ckpt := w.readRegs f (rG 4) (l * 128 + 80) 4 ++ [0, 0, 0, 0]
      let u := (((w.capWrite f xl 0 (leBytes 8 (lockWord 1 0 (w.ownerOf f) ogen))).capWrite f xl 0x10
        (newTenure ckpt mb (fieldAt blk 8 4) (scopeCode o.sc))).mailboxWrite f (locVa a.loc) mb 0 (2 ^ 32 - 1)).2.acquire f o.sc
      let h : Held := { block := locVa a.loc, owner := w.ownerOf f, ogen := ogen, step := 0, rpc := nextPc b.pc, dreg := d,
                        adopter := false, hmbx := some mb, count := 0 }
      ∃ t, exec (.capenter o) s = .next t ∧
        t = (u.modFibre f (fun y => { (y.put .v (rG (d + 1)) (if (u.fibre f).wasAdopt then 1 else 0)) with wasAdopt := false })).enterCapsule
          f h ckpt (BitVec.ofNat 32 (fieldAt blk 8 4)) ∧
        (t.fibre? f).map (fun y => (y.capMode, y.held, y.pc)) = some (true, some h, BitVec.ofNat 32 (fieldAt blk 8 4))) ∧
    (lockState lock = 2 →
      let h : Held := { block := locVa a.loc, owner := w.ownerOf f, ogen := ogen, step := lockStep lock, rpc := b.pc, dreg := d,
                        adopter := true, hmbx := none, count := 0 }
      ∃ t, exec (.capenter o) s = .next t ∧
        t = ((w.capWrite f xl 0 (leBytes 8 (lockWord 1 (lockStep lock) (w.ownerOf f) ogen))).acquire f (blockScope blk)).enterCapsule f h
          (blockCkpt blk) (blockCpc blk) ∧
        (t.fibre? f).map (fun y => (y.capMode, y.held, y.pc)) = some (true, some h, blockCpc blk)) ∧
    (lockState lock = 1 ∨ lockState lock = 3 → exec (.capenter o) s = .next (w.modFibre (b.fib l) (fun y =>
      { (y.put .v (rG d) 0).put .v (rG (d + 1)) (if lockState lock = 1 then 2 else 3) with wasAdopt := false })))

/-- R362-R364, R368: CSTEP of a tenure commits and counts its step, and raises CAP.LIMIT outside the block's data, for a misaligned store,
or with 32 steps committed; CAPEXIT of a tenure frees the lock and leaves capsule mode for the resume PC, an adopter's once the holder's
mailbox has its answer or the answer is lost because its page does not translate (log 38); outside capsule mode both raise ISA.ILLEGAL,
helper lanes included; CAPRESET frees a broken lock and no other. -/
def Sys2Proof.Claims.CapsuleSteps : Prop :=
  (∀ o s b l x, Lone s (cstepNeed o) b l x → x.capMode = false → exec (.cstep o) s = .next (raised s b l (illegal b.word))) ∧
  (∀ o s b l x, Lone s (capexitNeed o) b l x → x.capMode = false → exec (.capexit o) s = .next (raised s b l (illegal b.word))) ∧
  (∀ o s b l x h, Lone s (cstepNeed o) b l x → x.capMode = true → x.held = some h →
    let e := eaOff o.off (s.readVals (cstepNeed o) b l).a
    (e < 0x80 ∨ 0x400 < e + o.sz.bytes ∨ e % o.sz.bytes ≠ 0 →
      exec (.cstep o) s = .next (raised s b l { eff := 0x032, arg := h.block })) ∧
    (∀ xl u blk, 0x80 ≤ e → e + o.sz.bytes ≤ 0x400 → e % o.sz.bytes = 0 → InTenure s (cstepNeed o) b l x h e.toNat xl u blk →
      (h.step = 32 → exec (.cstep o) s = .next (raisedIn u b l { eff := 0x032, arg := h.block })) ∧
      (h.step < 32 → ∃ t, exec (.cstep o) s = .next t ∧
        t = ((((u.capWrite (b.fib l) { xl with pa := xl.pa + e.toNat } 0
          (leBytes o.sz.bytes (wordsNat (s.readVals (cstepNeed o) b l).b))).capWrite (b.fib l) xl 0x10
          (bytesOf (u.readRegs (b.fib l) (rC 0) (l * 128 + 80) 8))).capWrite (b.fib l) xl 0x38 (leBytes 4 (nextPc b.pc).toNat)).capWrite
          (b.fib l) xl 0 (leBytes 8 (lockWord 1 (h.step + 1) h.owner h.ogen))).modFibre (b.fib l) (fun y =>
            { y with held := some { h with step := h.step + 1 } }) ∧
        (t.fibre? (b.fib l)).map (fun y => (y.held, y.pc)) = some (some { h with step := h.step + 1 }, nextPc b.pc)))) ∧
  (∀ o s b l x h xl u blk v w, InTenure s (capexitNeed o) b l x h 0 xl u blk → u.leaveWaits (b.fib l) h = [] → u.release (b.fib l) (blockScope blk) = (.done, v) →
    let r := (s.readVals (capexitNeed o) b l).a.headD 0
    (h.adopter = false ∧ w = v ∨ h.adopter = true ∧ exitAnswer (b.fib l) h (fieldAt blk 0x30 8) r v = some w) →
    ∃ t, exec (.capexit o) s = .next t ∧
      t = (w.capWrite (b.fib l) xl 0 (leBytes 8 (lockWord 0 0 0 h.ogen))).leaveCapsule (b.fib l) h (some r) none ∧
      (t.fibre? (b.fib l)).map (fun y => (y.held, y.capMode, y.pc)) = some (none, false, h.rpc)) ∧
  (∀ o s b l x a xl u v blk, BlockAt o s (capresetNeed o) b l x a xl u → u.capHeld (b.fib l) (locVa a.loc) xl = false →
    u.capRead (b.fib l) xl = (blk, v) →
    exec (.capreset o) s = .next (if lockState (fieldAt blk 0 8) = 3 then
      (v.capWrite (b.fib l) xl 0 (leBytes 8 (lockWord 0 0 0 (lockOgen (fieldAt blk 0 8) + 1)))).putD (s.laneOf b l) .v o.d 1 0
      else v.putD (s.laneOf b l) .v o.d 1 1))

/-- R358-R364: CAPENTER, CSTEP, CAPEXIT and CAPRESET. Model's choices: log 38. -/
def Obligations.CapsulesRun : Prop := CapsuleEntry ∧ CapsuleSteps

/-! ### Engines -/

/-- R106, R159, R160, R284: an engine instruction whose checks pass opens its token and hands its engine a command with the entries
it read; it waits while the token table is full, stays while the engine is, and raises what its checks find. -/
def Obligations.EngineCommandsIssue : Prop :=
  ∀ i op, engineOp i = some op → ∀ s b l x, Lone s op.need b l x →
    let p := past s b l
    let f := b.fib l
    let v := s.readVals op.need b l
    (∀ e, l < 32 → op.prep (s.laneOf b l) v p = .err e → exec i s = .next (raised s b l (withLane l e))) ∧
    (∀ k, op.prep (s.laneOf b l) v p = .ok k →
      let c := op.cmd p (s.laneOf b l) k
      (tokFull (p.fibre f) c.tok = true → exec i s = .next (p.waitAt (s.laneOf b l) .tokTable)) ∧
      (tokFull (p.fibre f) c.tok = false → p.engineFull (p.coreOf f) k = true → exec i s = .next (p.stall (s.laneOf b l))) ∧
      (∀ u, tokFull (p.fibre f) c.tok = false → p.engineFull (p.coreOf f) k = false →
        p.release f (if isNet k then .die else .core) = (.done, u) →
        ∃ t, exec i s = .next t ∧
          t = (((u.touchHandle f c.hx).touchHandle f c.hy).tokOpen f c.tok).addCmd c ∧
          mapGet t.cmds u.mod.nextCmd = some { c with order := u.mod.nextOrder } ∧
          (∀ r y, c.tok = some r → u.fibre? f = some y → (t.fibre f).tokPending r = true)))

/-- R285, R286, R292: a segment of a copy command is performed, fails, goes to the fix-up list or tries again; after the last one the
command leaves, hands over its follow-on, and a token that it alone held open receives the bytes or its error. -/
def Sys2Proof.Claims.CopySegmentsRun : Prop :=
  ∀ s id c seg now rest d e u, LastRun s id c seg → (s.team c.team).halted = false → isCopy c.kind = true → s.cutSeg c seg = (now, rest) →
    s.doSegment (inHand c rest) now = (d, e, u) →
    let c' := took e d
    (d = .busy → exec (.copySegment id) s = .next (u.setCmd id c)) ∧
    (d = .absent → exec (.copySegment id) s = .next (u.setCmd id { inHand c rest with fix := [now] })) ∧
    (rest ≠ [] → d ≠ .busy → d ≠ .absent → exec (.copySegment id) s = .next (u.setCmd id c')) ∧
    (∀ n, rest = [] → d ≠ .busy → d ≠ .absent → c.rel = false → c.follow = some n → c'.errs = [] →
      exec (.copySegment id) s = .next (match u.fire c.team n with
        | none => u.setCmd id c'
        | some (es, v) => v.endCmd id { c' with errs := es, wrote := v.cmdWrites c' })) ∧
    (rest = [] → d ≠ .busy → d ≠ .absent → c.rel = false → (c.follow = none ∨ c'.errs ≠ []) →
      ∃ t, exec (.copySegment id) s = .next t ∧ t = u.endCmd id { c' with wrote := u.cmdWrites c' } ∧ mapGet t.cmds id = none ∧
        (∀ r x tok, LastOf u c' r x tok → (t.fibre c.fib).tokPending r = false ∧
          (c'.errs = [] → (t.fibre c.fib).latest r = BitVec.ofNat 32
            ((if tok.nrz || c'.nrz then 2 ^ 30 else 0) + (tok.bytes + c'.bytes) % 2 ^ 30)) ∧
          (∀ e, c'.errs = [e] → (t.fibre c.fib).latest r = BitVec.ofNat 32 e)))

/-- R285, R286, R288: n bytes of a copy command from byte p on, whose destination no byte of its own source overlaps: what the source gives,
changed by `g`, or zeros where there is no source, is written at the destination, and on the chip it reads back there. -/
def Sys2Proof.Claims.MovesBytes (s : State) (c : Cmd) (p n : Nat) (src : Option (Side × Int)) (dst : State → Side × Int)
    (g : List Byte → List Byte) : Prop :=
  ∀ bs u v,
    (match src with
      | some (x, off) => s.engRead c x off n = (.ok bs, u)
      | none => bs = List.replicate n 0 ∧ u = s) →
    let clear (rs : List (Nat × Nat)) : Prop := ∀ q, q < n ∨ q < (g bs).length → ∀ pl,
      u.sidePlace c.fib (dst u).1 ((dst u).2 + (q : Nat)) = some pl → readersOf (u.sourcePlaces c rs) pl = []
    c.mayMeet (dst u).1 = false ∨ (clear (u.cmdRuns c).flatten ∧ clear (c.left.flatten ++ c.fix.flatten)) →
    u.engWrite c (dst u).1 (dst u).2 (g bs) = (.ok (), v) →
    s.doSegment c [(p, n)] = (.wrote (g bs).length false, c, v) ∧
    ∀ pl, u.place c.fib (u.sideLoc c.fib (dst u).1 (dst u).2) = some pl →
      (∀ k off, pl = .scratch k off → Memory.wf (u.core k).scratch = true → v.placeRead (g bs).length pl = g bs) ∧
      (∀ d off, pl = .tundish d off → Memory.wf (u.die d).tundish = true → v.placeRead (g bs).length pl = g bs)

/-- R289-R291: what the bytes of CPY, CPYT, GATH and SCAT are, where none was read ahead: CPY takes byte a + i of X to byte b + i of Y, and
zero past the source's count; CPYT takes the element of an index to the same index of the other box, and the low nine bits of a scale
container to its container; GATH and SCAT take the element that the list names, or record BOUNDS where it is outside `LEN`. -/
def Sys2Proof.Claims.SegmentsMoveBytes : Prop :=
  ∀ (s : State) c p n, c.got = [] → 0 < n →
    (∀ a b m k, c.kind = .cpy a b m k →
      (p + n ≤ k → MovesBytes s c p n (some (c.x, (a + p : Nat))) (fun _ => (c.y, (b + p : Nat))) id) ∧
      (k ≤ p → p + n ≤ m → MovesBytes s c p n none (fun _ => (c.y, (b + p : Nat))) id)) ∧
    (∀ org dst ext scl, c.kind = .cpyt org dst ext scl →
      let e := c.x.e.elem
      let vol := ext.foldl (· * ·) 1
      let ix := boxIndex ext (p / e)
      let q := (p - vol * e) / 2
      (p < vol * e → p % e + n ≤ e → MovesBytes s c p n (some (c.x, (tensorOff c.x.e (List.zipWith (· + ·) org ix) + p % e : Nat)))
        (fun _ => (c.y, (tensorOff c.y.e (List.zipWith (· + ·) dst ix) + p % e : Nat))) id) ∧
      (vol * e ≤ p → (p - vol * e) % 2 = 0 → n = 2 →
        MovesBytes s c p n (some (c.xs, (scaleOff c.x.e (List.zipWith (· + ·) org (boxIndex ext (q * 32))) : Nat)))
          (fun _ => (c.ys, (scaleOff c.y.e (List.zipWith (· + ·) dst (boxIndex ext (q * 32))) : Nat)))
          (fun bs => bs.zipIdx.map (fun x => if x.2 % 2 = 1 then x.1 &&& 1 else x.1)))) ∧
    (∀ b a m sz, c.kind = .gath b a m sz → 0 < sz → p % sz + n ≤ sz →
      let i := s.listIndex c a (p / sz)
      (s.indexBad c c.x (i * sz) sz = true →
        s.doSegment c [(p, n)] = (.failed (2 ^ 31 + 3 * 2 ^ 24 + c.hx % 4096 * 2 ^ 12), c, s)) ∧
      (s.indexBad c c.x (i * sz) sz = false →
        MovesBytes s c p n (some (c.x, (i * sz + p % sz : Nat))) (fun _ => (c.y, (b + p : Nat))) id)) ∧
    (∀ b a m sz, c.kind = .scat b a m sz → 0 < sz → p % sz + n ≤ sz →
      let i (u : State) := u.listIndex c a (p / sz)
      (s.indexBad c c.y (i s * sz) sz = true →
        s.doSegment c [(p, n)] = (.failed (2 ^ 31 + 3 * 2 ^ 24 + c.hy % 4096 * 2 ^ 12), c, s)) ∧
      (s.indexBad c c.y (i s * sz) sz = false →
        MovesBytes s c p n (some (c.x, (b + p : Nat))) (fun u => (c.y, (i u * sz + p % sz : Nat))) id))

/-- R286: Cupola makes the first page that the head of a fix-up list lacks resident; nothing else happens. -/
def Sys2Proof.Claims.FixupMakesResident : Prop :=
  ∀ s id frame c d ds es va, mapGet s.cmds id = some c → s.fixSides c = es ++ d :: ds → s.sideLoc c.fib d.1 d.2 = .glob va →
    s.residence (s.ctxOf c.fib) va = .absent →
    (∀ e ∈ es, ∀ v, s.sideLoc c.fib e.1 e.2 = .glob v → s.residence (s.ctxOf c.fib) v ≠ .absent) →
    exec (.fixupService id frame) s = .next (s.makeResident (s.ctxOf c.fib) va frame)

/-- R293, R294: a segment to another package without a peer entry reports ECODE 5, and one that the other side refuses reports what
it answers; one to this package is performed here; the last one ends the command, whose token receives the error. -/
def Sys2Proof.Claims.NetworkSegmentsRun : Prop :=
  ∀ s id c p n reply frame, LastRun s id c [(p, n)] → isNet c.kind = true → c.rel = false →
    n ≤ s.segLen c (s.cmdRun c p) n →
    let h := if isGet c.kind then c.hx else c.hy
    let peer := (s.ctx (s.ctxOf c.fib)).peers.any (fun e => e.1 == cmdPkg c.kind)
    let c' := inHand c []
    let near := lastSegment id c [(p, n)] (s.nearSegment frame c' [(p, n)])
    let ends (code : Nat) : Prop := exec (.networkSegment id reply frame) s = .next (
      if cmdPkg c.kind = Config.pkgNumber % 16384 then near
      else s.endCmd id { c with errs := c.errs ++ [2 ^ 31 + code * 2 ^ 24 + h % 4096 * 2 ^ 12], left := [] })
    (peer = false → ends 5) ∧
    (peer = true → (reply = .remote → ends 5) ∧ (reply = .perm → ends 2) ∧ (reply = .bounds → ends 3) ∧ (reply = .fault → ends 1)) ∧
    (∀ data u, peer = true → reply = .performed data → isGet c.kind = true →
      s.engWrite c' (s.cmdRun c p).dst.1 (s.cmdRun c p).dst.2 (byteSlice data 0 n) = (.ok (), u) →
      exec (.networkSegment id reply frame) s = .next (
        if cmdPkg c.kind = Config.pkgNumber % 16384 then near else u.endCmd id { c' with bytes := c.bytes + n })) ∧
    (∀ data bs u src off, peer = true → reply = .performed data → isGet c.kind = false → (s.cmdRun c p).src = some (src, off) →
      s.engReads c' src 2 off n [] = (.ok bs, u) →
      exec (.networkSegment id reply frame) s = .next (
        if cmdPkg c.kind = Config.pkgNumber % 16384 then near else u.endCmd id { c' with bytes := c.bytes + n }))

/-- R285, R286, R289-R294: the segments of copy and network commands, the bytes they leave at the destination, and the fix-up service.
Model's choices: logs 1, 53, 83. -/
def Obligations.CommandsMoveBytes : Prop := CopySegmentsRun ∧ SegmentsMoveBytes ∧ FixupMakesResident ∧ NetworkSegmentsRun

/-- R307: WLOAD retags its slots at issue and hands the command over; its last segment writes the weight buffer, zeros where it cannot be
read, and an image with a wrong mask reports ECODE 4. -/
def Obligations.WeightLoads : Prop :=
  (∀ o s b l x k u, let n : Need := { head := o.toHead, imm := 0, na := offRegs o.hx o.a, live := true, tokD := true }
    Lone s n b l x → wloadPrep o (s.laneOf b l) (s.readVals n b l) (past s b l) = .ok k →
    let c := (past s b l).cmdOf (s.laneOf b l) o k
    tokFull ((past s b l).fibre (b.fib l)) c.tok = false → (past s b l).engineFull ((past s b l).coreOf (b.fib l)) k = false →
    (past s b l).release (b.fib l) .core = (.done, u) →
    let v := ((u.touchHandle (b.fib l) c.hx).touchHandle (b.fib l) c.hy).tokOpen (b.fib l) c.tok
    exec (.wload o) s = .next ((v.modCore (v.coreOf (b.fib l)) (fun y => { y with
      tags := retag y.tags ((v.team b.team).brec.wsBase + slotField o) (imageSlots (wfmtOf o) (wnOf o) (wkgOf o)) (wfmtOf o) (wnOf o)
        (wkgOf o) })).addCmd c)) ∧
  (∀ s id c p n off slot fmt m kg r u, LastRun s id c [(p, n)] → c.kind = .wload off slot fmt m kg → s.mayMove c = true →
    n ≤ s.segLen c (s.cmdRun c p) n → s.engRead (inHand c []) c.x ((off + p : Nat) : Int) n = (r, u) →
    let put (bs : List Byte) : State := u.modCore (u.cmdCore c) (fun y => { y with
      wbuf := y.wbuf.writes (((u.team c.team).brec.wsBase + slot) * 8192 + p) bs })
    let ended (v : State) (y : Cmd) : State := v.endCmd id
      (if v.imageOk c then y else { y with errs := y.errs ++ [2 ^ 31 + 4 * 2 ^ 24 + c.hx % 4096 * 2 ^ 12] })
    (∀ bs, r = .ok bs → exec (.wloadCommand id) s = .next (ended (put bs) { inHand c [] with bytes := c.bytes + n })) ∧
    (∀ e, r = .err e → exec (.wloadCommand id) s = .next (ended (put (List.replicate n 0)) { inHand c [] with
      errs := c.errs ++ [2 ^ 31 + e * 2 ^ 24 + c.hx % 4096 * 2 ^ 12] })))

/-- R222, R223, R306, R309: an MMA reads the elements of A of a group one by one, and on the floating path the scale containers of mf8 and s8
rows, one that cannot be read giving the NaN scale. Once all are read the group adds to every word of the tile the exact sum of the
products of A's row and B's column, from 0 in the first group under Z: modulo 2^32 on the integer path, and rounded once to f32 on the
floating path, under the scales of A's row and B's block; the last group ends the command. -/
def Obligations.MatrixGroupsAccumulate : Prop :=
  ∀ (s : State) id c tile row korg k slot n z int, mapGet s.cmds id = some c → c.kind = .mma tile row korg k slot n z int →
    c.begun = true → s.mayMove c = true → s.mod.bad = [] →
    let read (q v : Nat) : Cmd := { c with
      got := mapSet c.got q v
      left := c.left.filter (· != [(q, 1)])
      fix := c.fix.filter (· != [(q, 1)]) }
    (∀ q p, c.left[s.pickRun c]? = some [(q, 1)] → q < 4096 →
      s.issuedPlace c.fib (s.sideLoc c.fib c.x (tensorOff c.x.e [row + q / 32, korg + 32 * c.at_ + q % 32])) = some p →
      exec (.mmaCommand id) s = .next (s.setCmd id (read q (leNat (s.placeRead c.x.e.elem p))))) ∧
    (∀ q w u, c.left[s.pickRun c]? = some [(q, 1)] → 4096 ≤ q → s.mayStart c [(q, 1)] = true →
      s.engReads c c.xs 2 (scaleOff c.x.e [row + (q - 4096), korg + 32 * c.at_]) 2 [] = (w, u) →
      (∀ bs, w = .ok bs → exec (.mmaCommand id) s = .next (u.setCmd id (read q (leNat bs % 512)))) ∧
      (∀ e, w = .err e → exec (.mmaCommand id) s = .next ((u.setDerr c.team tile).setCmd id { read q 511 with
        errs := c.errs ++ [2 ^ 31 + e * 2 ^ 24 + c.xs.h % 4096 * 2 ^ 12] }))) ∧
    (c.left = [] → c.got.length = (if int = false ∧ c.x.e.fmt ≤ 1 then 4224 else 4096) →
      ∃ u : State, (exec (.mmaCommand id) s = .next (
          if (c.at_ + 1) * 32 < k then u.setCmd id { c with at_ := c.at_ + 1, got := [] }
          else u.endCmd id { c with at_ := c.at_ + 1, got := [], bytes := 65536 })) ∧
        (∀ i j, i < 128 → j < 128 →
          let acc := if z && c.at_ == 0 then 0 else s.accWord c.team tile i j
          let fmt := c.x.e.fmt
          u.accWord c.team tile i j =
            if int then acc + BitVec.ofInt 32 (List.zipWith intProduct (aRow c i) (bCol s c tile slot fmt n c.at_ j)).sum
            else BitVec.ofNat 32 (fAdd fmtF32 .rn (fmtF32.decode acc.toNat) (sumVal .rn (List.zipWith
              (floatProduct fmt (aScale c i) (bScale s c tile slot fmt n c.at_ j)) (aRow c i)
              (bCol s c tile slot fmt n c.at_ j)))).1) ∧
        u = { s with cores := u.cores })

/-- R310, R308: MMAS stages its command in mcM, MMAS.clr clears mcM, and neither hands anything to the engine. -/
def Sys2Proof.Claims.StagedCommands : Prop :=
  (∀ o s b l x k, Lone s { mmaNeed o with live := true } b l x →
    mmaPrep o (s.laneOf b l) (s.readVals (mmaNeed o) b l) (past s b l) = .ok k →
    let c := (past s b l).cmdOf (s.laneOf b l) o k
    exec (.mmas o) s = .next (((past s b l).touchHandle (b.fib l) o.hx.toNat).modTeam b.team (fun t => { t with
      mc := mapSet t.mc (o.fn.extractLsb' 0 3).toNat
        { kind := k, fib := b.fib l, life := ((past s b l).fibre (b.fib l)).life, acq := o.acq, sc := o.sc, hx := o.hx.toNat,
          ex := c.ex, ex1 := c.ex1, sx := c.sx } }))) ∧
  (∀ o s b l x, Lone s { head := o.toHead, imm := 0, live := true } b l x →
    exec (.mmasClr o) s = .next ((past s b l).modTeam b.team (fun t => { t with mc := mapDel t.mc (o.fn.extractLsb' 0 3).toNat })))

/-- R306, R311-R313: ACCLD gives the words that the team's earlier commands leave; ACCSTAT gives and clears the data-error flag; ACCZ's
command zeroes its tile and no other word; ACCST's takes the words of a row, then performs its writes one by one; the last row ends it. -/
def Sys2Proof.Claims.AccumulatorTiles : Prop :=
  (∀ o s b l x i j u, let w := if o.x.getLsbD 3 then 4 else 1
    let n : Need := { head := o.toHead, imm := 0, na := 1, nb := 1, wd := w }
    Lone s n b l x → wordsNat (s.readVals n b l).a = i → wordsNat (s.readVals n b l).b = j →
    tileField o < ((past s b l).blockOf (b.fib l)).acc → i < 128 → j + w ≤ 128 →
    ((past s b l).tileBusy b.team (tileField o) = true ∨ (past s b l).engineFull ((past s b l).coreOf (b.fib l)) (.accz 0) = true →
      exec (.accld o) s = .next ((past s b l).stall (s.laneOf b l))) ∧
    ((past s b l).tileBusy b.team (tileField o) = false →
      (past s b l).engineFull ((past s b l).coreOf (b.fib l)) (.accz 0) = false → (past s b l).release (b.fib l) .core = (.done, u) → u.mod.bad = [] →
      exec (.accld o) s = .next (u.putFrom (s.laneOf b l) .v o.d 0
        ((List.range w).map (fun k => u.accWord b.team (tileField o) i (j + k)))))) ∧
  (∀ o s b l x p, Lone s { head := o.toHead, imm := 0, wd := 1 } b l x → x.helper = false →
    tileField o < ((past s b l).blockOf (b.fib l)).acc → (past s b l).tileBusy b.team (tileField o) = false →
    (past s b l).engineFull ((past s b l).coreOf (b.fib l)) (.accz 0) = false → (past s b l).release (b.fib l) .core = (.done, p) →
    let n := p.tileOf b.team (tileField o)
    exec (.accstat o) s = .next ((p.modCore (p.teamCore b.team) (fun c => { c with derr := c.derr.filter (fun k => k != n) })).putD
      (s.laneOf b l) .v o.d 1 (if (p.core (p.teamCore b.team)).derr.contains n then 1 else 0))) ∧
  (∀ s id c tile, mapGet s.cmds id = some c → c.kind = .accz tile → s.mayMove c = true →
    ∃ t, exec (.acczCommand id) s = .next t ∧ mapGet t.cmds id = none ∧
      (∀ i j, i < 128 → j < 128 → t.accWord c.team tile i j = 0) ∧
      (∀ k m, k ≠ s.cmdCore c ∨ m / 16384 ≠ s.tileOf c.team tile →
        mapGetD (t.core k).tiles m 0 = mapGetD (s.core k).tiles m 0)) ∧
  (∀ s id c tile row col rnd, mapGet s.cmds id = some c → c.kind = .accst tile row col rnd → s.mayMove c = true →
    (128 ≤ c.at_ → c.rel = false → exec (.accstCommand id) s = .next (s.endCmd id c)) ∧
    (c.at_ < 128 → c.got = [] → s.mod.bad = [] →
      let ws := (List.range 128).map (fun j => s.accWord c.team tile c.at_ j)
      exec (.accstCommand id) s = .next (s.setCmd id { c with
        got := (List.range 128).map (fun j => (j, (s.accWord c.team tile c.at_ j).toNat))
        left := (List.range (accstWrites c row col c.at_ (accstRow c.y.e.fmt rnd ws)).length).map (fun k => [(k, 1)]) })) ∧
    (∀ k d off bs u, c.at_ < 128 → c.got ≠ [] → c.rel = false → c.left[s.pickRun c]? = some [(k, 1)] → s.mayStart c [(k, 1)] = true →
      (accstWrites c row col c.at_ (accstRow c.y.e.fmt rnd (c.got.map (fun e => BitVec.ofNat 32 e.2))))[k]? = some (d, off, bs) →
      s.engWrites c d 2 off bs = (.ok (), u) →
      let left := c.left.filter (· != [(k, 1)])
      let c' := { c with
        left := left
        fix := c.fix.filter (· != [(k, 1)])
        bytes := c.bytes + bs.length
        at_ := if left = [] then c.at_ + 1 else c.at_
        got := if left = [] then [] else c.got }
      exec (.accstCommand id) s = .next (if 128 ≤ c'.at_ then u.endCmd id c' else u.setCmd id c')))

/-- R306, R308, R310-R313: MMAS, MMAS.clr, ACCLD, ACCSTAT, and the commands of ACCZ and ACCST. Model's choices: log 41. -/
def Obligations.StagedCommandsAndTiles : Prop := StagedCommands ∧ AccumulatorTiles

/-! ### Code regions and system registers -/

/-- R136, R137: PUBLISH gives BUSY while a copy of the team writes the region; it performs the fibre's earlier accesses and takes the
region's bytes home, then gives BADLINE with the first bad line, and otherwise bumps `GEN`, marks the record published for its scope instance, and drops the region's lookaside entries. -/
def Obligations.PublishChecksThenPublishes : Prop :=
  ∀ o s b l x h r, CodeAt o s (publishNeed o) b l x true h r → r.gen ≤ 0xFFFF →
    let p := past s b l
    let f := b.fib l
    let c := ctxHere s b l
    (p.copyInto b.team ((p.ctx c).cwbase + r.base) (64 * r.lines) = true →
      exec (.publish o) s = .next (p.putD (s.laneOf b l) .v o.d 1 2)) ∧
    (∀ u v q, p.copyInto b.team ((p.ctx c).cwbase + r.base) (64 * r.lines) = false →
      q = (p.arriveBefore f (fun _ => true)).regionHome f r → q.flying f = [] →
      (∀ k ∈ q.regionSectors f r, q.unsent (q.coreOf f) k = false) → q.release f (modScope o.mod) = (.done, u) →
      (∀ i, u.badLine f h r r.lines 0 = (.ok (some i), v) → exec (.publish o) s = .next (v.putD (s.laneOf b l) .v o.d 1 (1 + i * 2 ^ 16))) ∧
      (u.badLine f h r r.lines 0 = (.ok none, v) → v.coreOf f = coreHere s b l → (v.ctx? c).isSome →
        ∃ t, exec (.publish o) s = .next t ∧
          mapGet (t.ctx c).regions h = some { r with
            gen := bumped r.gen, state := .published, pscope := codeScopeOf o, pdie := coreHere s b l / 128,
            punit := if codeScopeOf o = 2 then coreHere s b l % 128 / 4 else coreHere s b l % 128 } ∧
          (∀ k e, e ∈ (t.core k).look → e ≠ (c, h)) ∧ t.dram = v.dram))

/-- R134, R138, R139: ADOPT gives NOTPUB, NOSCOPE or NOSLOT, or sets the team's entry to the region's `GEN`, drops the core's lines of
other generations and acquires; ADOPT.spill takes an aligned area of h2 once. -/
def Sys2Proof.Claims.AdoptionStatuses : Prop :=
  (∀ o s b l x h r, CodeAt o s (publishNeed o) b l x false h r →
    let p := past s b l
    (r.state ≠ .published → exec (.adopt o) s = .next (p.putD (s.laneOf b l) .v o.d 1 1)) ∧
    (r.state = .published → insideRegion r (coreHere s b l) = false → exec (.adopt o) s = .next (p.putD (s.laneOf b l) .v o.d 1 2)) ∧
    (r.state = .published → insideRegion r (coreHere s b l) = true →
      adoptInto (p.ctx (ctxHere s b l)).regions (p.team b.team) h r.gen = none →
      exec (.adopt o) s = .next (p.putD (s.laneOf b l) .v o.d 1 3)) ∧
    (∀ T, r.state = .published → insideRegion r (coreHere s b l) = true →
      adoptInto (p.ctx (ctxHere s b l)).regions (p.team b.team) h r.gen = some T →
      adoptedGen T h = some r.gen ∧
      exec (.adopt o) s = .next ((((p.modTeam b.team (fun _ => T)).modCore (coreHere s b l) (fun y => { y with
          icache := y.icache.filter (fun ln => !(inRegion (ctxHere s b l) r ln && ln.gen != r.gen)) })).acquire (b.fib l)
        ((scopeOfCode r.pscope).getD .pkg)).putD (s.laneOf b l) .v o.d 1 (r.gen * 2 ^ 16)))) ∧
  (∀ o s b l x, let n := { plainNeed o with na := if o.a.isNone then 0 else 1, wd := 1, live := true }
    Lone s n b l x →
    let p := past s b l
    let k := (o.mod.extractLsb' 0 10).toNat + 1
    let off := eaOff (immOffset o.imm) (s.readVals n b l).a
    let good := (p.team b.team).spill = none ∧ off % 8 = 0 ∧ 0 ≤ off ∧ off + 8 * k ≤ ((p.blockOf (b.fib l)).scratch : Int)
    (good → exec (.adoptSpill o) s =
      .next ((p.modTeam b.team (fun t => { t with spill := some (off.toNat, k) })).putD (s.laneOf b l) .v o.d 1 0)) ∧
    (¬good → exec (.adoptSpill o) s = .next (p.putD (s.laneOf b l) .v o.d 1 4)))

/-- R140, R141: RETRACT gives NOTPUB or NOSCOPE and changes nothing, or bumps `GEN`, retracts the record and completes once no READY
fibre holds an old line but one that is itself in a RETRACT (log 72); FBAR drops the context's lines of the core and the fibre's fetch buffer once its writes are home. -/
def Sys2Proof.Claims.RetractAndFbar : Prop :=
  (∀ o s b l x h r, CodeAt o s (publishNeed o) b l x true h r → x.retracting = none → r.gen ≤ 0xFFFF →
    let p := past s b l
    let c := ctxHere s b l
    let core := coreHere s b l
    let sc := codeScopeOf o
    (r.state ≠ .published → exec (.retract o) s = .next (p.putD (s.laneOf b l) .v o.d 1 1)) ∧
    (r.state = .published → containsRegion sc core r = false → exec (.retract o) s = .next (p.putD (s.laneOf b l) .v o.d 1 2)) ∧
    (r.state = .published → containsRegion sc core r = true → (p.ctx? c).isSome →
      ∃ t, exec (.retract o) s = .next t ∧
        mapGet (t.ctx c).regions h = some { r with gen := bumped r.gen, state := .retracted } ∧
        (∀ k y, sameUnit sc core k = true → y ∈ (t.core k).icache → inRegion c r y = false) ∧
        ((∀ e ∈ oldHolders p (b.fib l) h (bumped r.gen) sc, waitedFor e.2 = false) →
          (t.fibre? (b.fib l)).map (fun y => (y.retracting, y.pc)) = some (none, nextPc b.pc)) ∧
        ((∃ e ∈ oldHolders p (b.fib l) h (bumped r.gen) sc, waitedFor e.2 = true) →
          (t.fibre? (b.fib l)).map (fun y => (y.retracting, y.pc)) = some (some (h, r.gen), b.pc)))) ∧
  (∀ o s b l x u, Lone s { plainNeed o with live := true } b l x → (past s b l).releaseActs (b.fib l) .quad = u →
    (u.releaseWaits (b.fib l) .quad = true → exec (.fbar o) s = .next (u.stall (s.laneOf b l))) ∧
    (u.releaseWaits (b.fib l) .quad = false → exec (.fbar o) s =
      .next ((u.modCore (u.coreOf (b.fib l)) (fun y => { y with
        icache := y.icache.filter (fun ln => ln.ctx != u.ctxOf (b.fib l)) })).modFibre (b.fib l) (fun y => { y with fbuf := none }))))

/-- R134, R138-R141: ADOPT, ADOPT.spill, RETRACT and FBAR. RETRACT completes while a fibre that is itself in a RETRACT still holds an old
line: for such a one another does not wait (log 72). Model's choices: log 72. -/
def Obligations.RegionsAreAdoptedAndRetracted : Prop := AdoptionStatuses ∧ RetractAndFbar

/-- R142: RGNQ gives the record and the team's entry in the layout of R142, and changes nothing but D. -/
def Obligations.RegionQueryWord : Prop :=
  ∀ o s b l x h r, CodeAt o s (rgnqNeed o) b l x false h r →
    let own := adoptedGen ((past s b l).team b.team) h
    let st := match r.state with
      | .empty => 0
      | .writable => 1
      | .published => 2
      | .retracted => 3
    exec (.rgnq o) s = .next ((past s b l).putD (s.laneOf b l) .v o.d 2
      ((r.lines - 1) + st * 2 ^ 16 + r.pscope * 2 ^ 20 +
        (if r.state = .published ∧ insideRegion r (coreHere s b l) = true then 2 ^ 23 else 0) +
        (if own.isSome then 2 ^ 24 else 0) + (if own.isSome ∧ own ≠ some r.gen then 2 ^ 25 else 0) + r.gen * 2 ^ 32 +
        own.getD 0 * 2 ^ 48))

/-- R412, R413: SWRITE empties the core's data-error log, or marks the context's log, or names no register (status 1); ERRQ gives the
context's oldest entry, removed by `.pop`, or the overflow count. -/
def Sys2Proof.Claims.SystemRegisters : Prop :=
  ∀ o s b l x, x.helper = false →
    let p := past s b l
    let c := coreHere s b l
    let k := ctxHere s b l
    let mine := (p.core c).dlog.find? (fun e => e.1 == k)
    (Lone s (swriteNeed o) b l x →
      exec (.swriteElogclr o) s =
        .next ((p.modCore c (fun y => { y with dlog := [], dover := 0 })).putD (s.laneOf b l) .v o.d 1 0) ∧
      exec (.swriteLogmark o) s = .next ((p.modCtx k (fun y => { y with log := y.log ++
        [.mark ((s.readVals (swriteNeed o) b l).b.headD 0).toNat (c % 128) (c / 128) (p.core c).clk] })).putD (s.laneOf b l) .v o.d 1 0) ∧
      exec (.swrite o) s = .next (p.putD (s.laneOf b l) .v o.d 1 1)) ∧
    (Lone s (errqNeed o 2) b l x →
      (mine = none → exec (.errqPop o) s = .next (p.putD (s.laneOf b l) .v o.d 2 0) ∧
        exec (.errqPeek o) s = .next (p.putD (s.laneOf b l) .v o.d 2 0)) ∧
      (∀ e, mine = some e →
        exec (.errqPop o) s = .next ((p.modCore c (fun y => { y with dlog := y.dlog.erase e })).putD (s.laneOf b l) .v o.d 2 e.2) ∧
        exec (.errqPeek o) s = .next (p.putD (s.laneOf b l) .v o.d 2 e.2))) ∧
    (Lone s (errqNeed o 1) b l x → exec (.errqCnt o) s = .next (p.putD (s.laneOf b l) .v o.d 1 ((p.core c).dover % 2 ^ 16)))

/-- R412: SWRITE in a context whose `PRIV` is 0 raises ISA.PRIV with the word, whatever register it names. -/
def Sys2Proof.Claims.UnprivilegedWritesRaise : Prop :=
  ∀ o s b l x, OneLane s o.guard b l x → x.capMode = false → (s.ctx (s.team b.team).ctx).priv = false →
    (swriteNeed o).limits x (s.budget (b.fib l)) b.word = none →
    let t := raisedIn s b l { eff := 0x003, arg := b.word.toNat / 2 ^ 32 }
    exec (.swriteElogclr o) s = .next t ∧ exec (.swriteLogmark o) s = .next t ∧ exec (.swrite o) s = .next t

/-- R412, R413: SWRITE and ERRQ. -/
def Obligations.SystemRegistersReadAndWrite : Prop := SystemRegisters ∧ UnprivilegedWritesRaise

/-- R80, R81, R414: BKPT raises DEBUG with its code and its offset; a word of an extension raises ISA.MISSING with the word; both do so
where the guard is true and the fibre is no helper, and a lane with a false guard or a helper only moves on. -/
def Obligations.BreakpointsAndMissingWords : Prop :=
  (∀ o s b l x, Lone s { plainNeed o with live := true } b l x → exec (.bkpt o) s =
    .next (raised s b l { eff := 0x060, arg := o.imm.toNat % 2 ^ 16 * 2 ^ 32 + b.pc.toNat })) ∧
  (∀ (w : IWord) s b l x, OneLane s { gp := (w.extractLsb' 84 4).toFin, gn := w.getLsbD 83 } b l x →
    exec (.isaMissing w) s = .next (raisedIn s b l { eff := 0x002, arg := w.toNat / 2 ^ 32 })) ∧
  (∀ (w : IWord) s b l, s.cur = some b → b.lanes = [l] →
    (s.guard b l { gp := (w.extractLsb' 84 4).toFin, gn := w.getLsbD 83 } = false ∨ (s.fibre (b.fib l)).helper = true) →
    exec (.isaMissing w) s = .next (past s b l)) ∧
  (∀ o s b l, s.cur = some b → b.lanes = [l] →
    (s.fate { plainNeed o with live := true } b l = .off ∨ s.fate { plainNeed o with live := true } b l = .nop) →
    exec (.bkpt o) s = .next (s.modFibre (b.fib l) (fun x => x.skipped b.pc)))

/-! ### Effects -/

/-- R376, R384: HANDLE pushes a 64-byte handler record below g2, to which g2 and %hsp then point; a g2 that is not a multiple of 16, is
below 64 or lies above the slice raises MEM.ALIGN, MEM.STACK or MEM.SCRATCH. -/
def Sys2Proof.Claims.HandlersPush : Prop :=
  ∀ o s₀ s b l x, s = s₀.recordsFirst → Lone s (handleNeed o) b l x → l < 32 →
    let p := past s b l
    let f := b.fib l
    let g2 := p.readSp (s.laneOf b l)
    let sel := ((s.readVals (handleNeed o) b l).b.headD 0).toNat
    let r := g2 - 64
    (g2 % 16 ≠ 0 → exec (.handle o) s₀ = .next (raised s b l { eff := 0x025, arg := marg 1 g2 })) ∧
    (g2 % 16 = 0 → g2 < 64 → exec (.handle o) s₀ = .next (raised s b l { eff := 0x026, arg := marg 1 ((g2 : Int) - 64) })) ∧
    (g2 % 16 = 0 → 64 ≤ g2 → (p.blockOf f).lane < g2 →
      exec (.handle o) s₀ = .next (raised s b l { eff := 0x021, arg := 2 ^ 20 + 2 ^ l * 2 ^ 32 })) ∧
    (g2 % 16 = 0 → 64 ≤ g2 → g2 ≤ (p.blockOf f).lane →
      exec (.handle o) s₀ = .next ((p.laneWrite f r (handlerBytes (effTarget b.pc (o.imm.toNat / 2 ^ 16))
          (effTarget b.pc (o.imm.toNat % 2 ^ 16)) g2 (p.fibre f).hsp.toNat (sel % 2 ^ 12) (sel / 2 ^ 16 % 2 ^ 12)
          ((p.laneNat f (r + 20) 2 + 1) % 2 ^ 16))).modFibre f (fun y =>
        { (y.force (rG 2) (BitVec.ofNat 32 r)) with hsp := BitVec.ofNat 32 r })))

/-- R385: UNHANDLE pops the record at %hsp: g2 and %hsp take the values saved in it, and its generation moves on; a chain without a
record raises MEM.STACK; with a return record the registers that RESUME saved come back, and A goes to its destination. -/
def Sys2Proof.Claims.UnhandlePops : Prop :=
  ∀ o s₀ s b l x, s = s₀.recordsFirst → Lone s (unhandleNeed o) b l x → mapHas x.tok 2 = false →
    let p := past s b l
    let f := b.fib l
    let r := x.hsp.toNat
    (r = 0xFFFFFFFF ∨ r = 0xFFFFFFFE ∨ (p.blockOf f).lane < r + 64 →
      exec (.unhandle o) s₀ = .next (raised s b l { eff := 0x026, arg := marg 1 r })) ∧
    (r ≠ 0xFFFFFFFF → r ≠ 0xFFFFFFFE → r + 64 ≤ (p.blockOf f).lane → p.laneNat f (r + 24) 4 = 0xFFFFFFFF →
      ∃ t, exec (.unhandle o) s₀ = .next t ∧
        t = (p.laneWrite f (r + 20) (leBytes 2 (p.laneNat f (r + 20) 2 + 1))).modFibre f (fun y =>
          { (y.force (rG 2) (laneWord p f (r + 8))) with hsp := laneWord p f (r + 12) }) ∧
        (t.fibre f).latest (rG 2) = laneWord p f (r + 8) ∧ (t.fibre f).pc = nextPc b.pc) ∧
    (∀ q, r ≠ 0xFFFFFFFF → r ≠ 0xFFFFFFFE → r + 64 ≤ (p.blockOf f).lane → p.laneNat f (r + 24) 4 = q → q ≠ 0xFFFFFFFF →
      q + 128 ≤ (p.blockOf f).lane → x.tok = [] →
      ∃ t, exec (.unhandle o) s₀ = .next t ∧ t = p.returnRegion f r q ((s.readVals (unhandleNeed o) b l).a.headD 0) ∧
        (t.fibre f).hsp = laneWord p f (q + 8) ∧ (t.fibre f).pc = laneWord p f q)

/-- R376, R384, R385: HANDLE and UNHANDLE. Model's choices: log 18. -/
def Obligations.HandlersPushAndPop : Prop := HandlersPush ∧ UnhandlePops

/-- R386, R392: PERFORM of a user effect makes it pending with its argument, kind and destination, and delivers it where nothing holds
it up; an effect below 0x100 raises ISA.ILLEGAL. -/
def Obligations.PerformRaisesUserEffects : Prop :=
  ∀ o s b l x, Lone s (performNeed o) b l x →
    let v := s.readVals (performNeed o) b l
    let e := (if o.b.isNone then o.imm.toNat else (v.b.headD 0).toNat) % 2 ^ 12
    (e < 0x100 → exec (.perform o) s = .next (raised s b l (illegal b.word))) ∧
    (0x100 ≤ e → exec (.perform o) s = .next (((past s b l).modFibre (b.fib l) (fun y => { y with
      pc := b.pc
      fbuf := none
      eff := some { eff := e, arg := wordsNat v.a, kind := (if o.fn.toNat = 0 then 1 else if o.fn.toNat = 1 then 2 else 0),
                    dest := encodeSpec o.d, trap := false, rsv := 64 * (o.mod.extractLsb' 0 7).toNat, spc := nextPc b.pc,
                    sxfer := false, simm := 0, capm := false } })).tryDeliver (b.fib l)))

/-- R377, R378: an effect is delivered to the newest record that matches: the fibre enters the handler with its argument in g4:g5,
its token in g6:g7, its number in g8, g2 below a new suspension record, and %hsp at the record's parent. A slice without room, or a
record outside the slice, kills the fibre for MEM.STACK. Model's choices: log 18. -/
def Obligations.EffectsReachTheirHandler : Prop :=
  ∀ s f x e u, Deliverable s f x e u →
    let y := u.fibre f
    let at_ := suspAt y e
    (∀ r, u.findHandler f (u.blockOf f).lane e.eff 513 y.hsp.toNat = .record r →
      (0 ≤ at_ → at_ + 128 ≤ ((u.blockOf f).lane : Int) → ∃ t z, exec (.effectDelivery f) s = .next t ∧ t.fibre? f = some z ∧
        z.pc = laneWord u f r ∧ z.hsp = laneWord u f (r + 12) ∧ z.latest (rG 2) = BitVec.ofNat 32 at_.toNat ∧
        z.latestFrom 4 5 = natWords 2 e.arg ++ natWords 2 (tokenFor u f (u.laneNat f (r + 20) 2) at_.toNat) ++ [BitVec.ofNat 32 e.eff] ∧
        z.eff = none ∧ z.st = .ready ∧ z.xfer = true) ∧
      (at_ < 0 ∨ ((u.blockOf f).lane : Int) < at_ + 128 →
        exec (.effectDelivery f) s = .next (u.killFibre f 0x026 e.spc (marg 1 at_)))) ∧
    (∀ r : Nat, u.findHandler f (u.blockOf f).lane e.eff 513 y.hsp.toNat = .bad r →
      exec (.effectDelivery f) s = .next (u.killFibre f 0x026 e.spc (marg 1 r))) ∧
    (∀ v, u.findHandler f (u.blockOf f).lane e.eff 513 y.hsp.toNat = .bottom v → e.eff ≠ 0x002 →
      v = 0xFFFFFFFE ∨ (u.blockOf f).hrgn = 0 → exec (.effectDelivery f) s = .next (u.killFibre f e.eff e.spc e.arg))

/-- R382, R389: a token that fails a check of tokcheck makes RESUME and UNWIND raise TOKEN.DEAD with it. -/
def Sys2Proof.Claims.DeadTokensRaise : Prop :=
  (∀ o s₀ s b l x why, s = s₀.recordsFirst → Lone s (resumeNeed o) b l x →
    let tok := wordsNat (s.readVals (resumeNeed o) b l).a
    (past s b l).tokReason (b.fib l) tok true (o.fn == 1) = some why →
    exec (.resume o) s₀ = .next (raised s b l { eff := 0x040, arg := tok })) ∧
  (∀ o s₀ s b l x why, s = s₀.recordsFirst → Lone s (unwindNeed o) b l x →
    let tok := wordsNat (s.readVals (unwindNeed o) b l).a
    (past s b l).tokReason (b.fib l) tok false false = some why →
    exec (.unwind o) s₀ = .next (raised s b l { eff := 0x040, arg := tok }))

/-- R387, R388, R389: RESUME of a live token continues the suspended computation at its saved PC, with %hsp, g2 and the predicates it
saved, and gives the value to a PERFORM's destination; UNWIND continues at the handler's exit with the value in g4, and of a team token
ends the fibre; EFFQ says what a token is. -/
def Sys2Proof.Claims.TokensContinue : Prop :=
  (∀ o s₀ s b l x, s = s₀.recordsFirst → Lone s (resumeNeed o) b l x → o.fn = 0 → x.tok = [] →
    let v := s.readVals (resumeNeed o) b l
    let r := wordsNat v.a % 2 ^ 16
    let f := b.fib l
    (past s b l).tokReason f (wordsNat v.a) true false = none →
    let u := (past s b l).killToken f r
    ∃ t, exec (.resume o) s₀ = .next t ∧ t = u.resumeFrom f r (v.b.headD 0) ∧ (t.fibre f).hsp = laneWord u f (r + 4) ∧
      (bit (u.laneNat f (r + 18) 1) 2 = false → u.laneNat f (r + 18) 1 % 4 = 1 →
        (t.fibre f).pc = laneWord u f r ∧
        (∀ d, u.laneNat f (r + 19) 1 = d → d < 128 → (t.fibre f).latest d = v.b.headD 0) ∧
        (128 ≤ u.laneNat f (r + 19) 1 → (t.fibre f).latest (rG 2) = laneWord u f (r + 8)))) ∧
  (∀ o s₀ s b l x, s = s₀.recordsFirst → Lone s (unwindNeed o) b l x → x.tok = [] →
    let v := s.readVals (unwindNeed o) b l
    let r := wordsNat v.a % 2 ^ 16
    let f := b.fib l
    (past s b l).tokReason f (wordsNat v.a) false false = none →
    let u := (past s b l).killToken f r
    ((past s b l).laneNat f (r + 20) 4 ≠ 0xFFFFFFFE → ∃ t, exec (.unwind o) s₀ = .next t ∧ t = u.unwindTo f r (v.b.headD 0) ∧
      (t.fibre f).latest (rG 4) = v.b.headD 0 ∧ (t.fibre f).latest (rG 2) = laneWord u f (u.laneNat f (r + 20) 4 + 8) ∧
      (t.fibre f).pc = laneWord u f (u.laneNat f (r + 20) 4 + 4)) ∧
    ((past s b l).laneNat f (r + 20) 4 = 0xFFFFFFFE → sortedKeys s.fibres = true →
      ∃ t, exec (.unwind o) s₀ = .next t ∧ (t.fibre? f).map (·.st) = some .exited)) ∧
  (∀ o s₀ s b l x (j : Fin 128), s = s₀.recordsFirst → Lone s (effqNeed o) b l x → o.d = .g j →
    let tok := wordsNat (s.readVals (effqNeed o) b l).a
    (∀ why, (past s b l).tokReason (b.fib l) tok false false = some why →
      exec (.effq o) s₀ = .next ((past s b l).modFibre (b.fib l) (fun y => y.force j.val (BitVec.ofNat 32 why)))) ∧
    ((past s b l).tokReason (b.fib l) tok false false = none →
      let k := (past s b l).laneNat (b.fib l) (tok % 2 ^ 16 + 18) 1
      exec (.effq o) s₀ = .next ((past s b l).modFibre (b.fib l) (fun y => y.force j.val (BitVec.ofNat 32
        ((past s b l).laneNat (b.fib l) (tok % 2 ^ 16 + 24) 4 % 2 ^ 12 * 2 ^ 16 + (if k.testBit 4 then 2 ^ 7 else 0) +
          (if k.testBit 2 then 2 ^ 6 else 0) + k % 4 * 2 ^ 4))))))

/-- R382, R387-R389: RESUME, UNWIND and EFFQ. Model's choices: logs 19, 21. -/
def Obligations.TokensLiveAndDie : Prop := DeadTokensRaise ∧ TokensContinue

/-! ### Launches and teams -/

/-- What a LAUNCH whose block is read and valid does from a state: with a full queue it waits for room, with a full token table for an entry; else it releases, opens its token and hands the launch to its context's queue
as a child of its own launch. -/
def Sys2Proof.Claims.HandsOver (o : SY) (s : State) (b : Batch) (l : Nat) (bs : List Byte) (v : State) : Prop :=
  let f := b.fib l
  let c := v.ctxOf f
  let blk := blockOfBytes bs
  (64 ≤ v.queueLoad c blk.queue →
    exec (.launch o) s = .next (v.waitAt (s.laneOf b l) (.launchRoom blk.queue))) ∧
  (v.queueLoad c blk.queue < 64 → tokFull (v.fibre f) (gOf o.d) = true →
    exec (.launch o) s = .next (v.waitAt (s.laneOf b l) .tokTable)) ∧
  (∀ u, v.queueLoad c blk.queue < 64 → tokFull (v.fibre f) (gOf o.d) = false →
    v.release f (scopeAt blk.scope) = (.done, u) →
    exec (.launch o) s = .next (((u.tokOpen f (gOf o.d)).modFibre f (fun y => { y with launching := none })).modCtx c (fun y =>
      { y with submits := y.submits ++
        [{ name := none, msg := none, blk := blk, shape := (if o.b.isNone then [0, 0, 0, 0] else (s.readVals (launchNeed o) b l).b),
           after := o.fn.getLsbD 0, whole := o.fn.getLsbD 1, parent := some (launchKey c (u.team b.team).lid),
           holder := (match gOf o.d with
             | some r => .fibre f r
             | none => .none) }] })))

/-- R111-R113, R284: LAUNCH reads its block once, at its issue, and refuses one that is not valid; a LAUNCH that has waited does not read
it again. -/
def Sys2Proof.Claims.LaunchesAreHandedOver : Prop :=
  ∀ o s b l x, Lone s (launchNeed o) b l x →
    let f := b.fib l
    let p := past s b l
    (∀ a bs v, launchPrep o (s.laneOf b l) (s.readVals (launchNeed o) b l) p = .ok (some a) →
      (p.touchHandle f a.hnd).readLoc f a 448 (plainHow a) = (.ok bs, v) →
      (blockOk (v.codeEntry (v.ctxOf f)) bs = false →
        exec (.launch o) s = .next (raisedIn v b l { eff := 0x027, arg := marg a.hnd a.final })) ∧
      (blockOk (v.codeEntry (v.ctxOf f)) bs = true →
        HandsOver o s b l bs (v.modFibre f (fun y => { y with launching := some (v.tick, bs) })))) ∧
    (∀ n bs, x.launching = some (n, bs) → HandsOver o s b l bs p)

/-- R113, R149, R159: a LAUNCH that waits for room stays while its queue is full; once there is room the lanes of its batch that wait for that
queue execute it again together (log 75). -/
def Sys2Proof.Claims.LaunchesTryAgain : Prop :=
  ∀ (s : State) f x q, s.fibre? f = some x → x.halted = false → x.st = .waiting (.launchRoom q) →
    (64 ≤ s.queueLoad (s.ctxOf f) q → exec (.waitConditionMet f) s = .next s) ∧
    (s.queueLoad (s.ctxOf f) q < 64 → ∃ t, exec (.waitConditionMet f) s = .next t ∧
      (∀ g ∈ s.launchMates f, (t.fibre? g).map (·.st) = some .ready) ∧
      (∀ g, g ∉ s.launchMates f → t.fibre? g = s.fibre? g) ∧
      t.issue = Batch.formed (f / 1024) (f % 1024 / 32) x.pc ((s.launchMates f).map (· % 32)) (f % 32) (s.core (s.coreOf f)).clk :: s.issue)

/-- R109, R114, R115, R402: the oldest launch handed over takes the context's next identifier, once the context has its ASIDs; one that
must be rejected is over at once with the value 2 and its cause in its token, and any other enters its queue. -/
def Sys2Proof.Claims.AcceptanceDecides : Prop :=
  ∀ (s : State) c C, s.ctx? c = some C → C.cold = false → C.destroyed = false →
    (C.submits = [] → exec (.launchAccept c) s = .next (s.catchUp c)) ∧
    (s.giveAsids c = none → C.submits ≠ [] → exec (.launchAccept c) s = .next s) ∧
    (∀ x rest v u, C.submits = x :: rest → s.giveAsids c = some v →
      u = (v.modCtx c (fun y => { y with
        submits := rest
        lidNext := if C.lidNext + 1 = 2 ^ 32 then 1 else C.lidNext + 1 })).modMod (fun m => { m with nextOrder := m.nextOrder + 1 }) →
      let k := launchKey c C.lidNext
      ∃ t, exec (.launchAccept c) s = .next t ∧ (t.ctx c).submits = rest ∧
        (t.ctx c).lidNext = (if C.lidNext + 1 = 2 ^ 32 then 1 else C.lidNext + 1) ∧
        (∀ cause, u.rejects c x = some cause → (t.launch k).done = true ∧ (t.launch k).value = 2 * 2 ^ 24 + cause) ∧
        (u.rejects c x = none →
          (t.launch k).done = false ∧ (t.launch k).blk = x.blk ∧ C.lidNext ∈ mapGetD (t.ctx c).queues x.blk.queue []))

/-- R109, R111-R115, R159, R284, R402: LAUNCH, how one that waits tries again, and the acceptance of a launch. Model's choices: logs 23, 24,
75. -/
def Obligations.LaunchesAreAccepted : Prop := LaunchesAreHandedOver ∧ LaunchesTryAgain ∧ AcceptanceDecides

/-- R124-R126: the bind writer takes the launch that the policy of R124 chooses and writes the record of its next team; with nothing to
bind, or where a halted team comes first, it binds no new one. -/
def Sys2Proof.Claims.TeamsAreBound : Prop :=
  (∀ s p res, (s.chooseLaunch p = none ∨ ∃ k ts, s.chooseLaunch p = some (k, .again ts)) → exec (.bindTeam p res) s = .next s) ∧
  (∀ s p k t core r, s.chooseLaunch p = some (k, .fresh [(t, core)]) → s.slotUsed core r.slot = false → (s.launch? k).isSome →
    let u := s.bindOne p k t core r
    exec (.bindTeam p [r]) s = .next (u.releaseAll (u.launch k).ctx) ∧
      mapGet u.teams s.mod.nextTeam = some (State.newTeam (s.launch k) t core r) ∧
      (u.launch k).bound = (s.launch k).bound ++ [t])

/-- R116, R125, R127, R128: dispatch claims a valid record's units and zeroes them, or returns the record, with those bound in one step with
it that have not started, while the others stay as they are; a record that a halt found before its start goes back to its halted team.
When zeroing has ended and the whole group is claimed, every fibre of every role starts READY at its entry, with g2 at the top of its slice and
every other register 0. -/
def Sys2Proof.Claims.DispatchStartsTeams : Prop :=
  (∀ s core slot t, s.teamAtSlot core slot = some t → (s.team t).phase = .bound → (s.team t).halted = false → s.groupValid t = true →
    (s.team? t).isSome →
    (s.namesFree t (s.team t).brec = true → coreKey (s.team t).die (s.team t).core = core →
      ∃ u, exec (.dispatch core slot) s = .next u ∧
        (u.team t).phase = .claimed ((s.core core).clk + 3 + ceilDiv (s.zeroCount t) 512) ∧
        (u.core core).clk = (s.core core).clk) ∧
    (s.namesFree t (s.team t).brec = false → (s.team t).again = false → ∃ u, exec (.dispatch core slot) s = .next u ∧
      (∀ e ∈ (s.mates t).filterMap (s.teamNumbered t), State.unstarted e.2 = true → u.team? e.1 = none) ∧
      ∀ r, (∀ e ∈ (s.mates t).filterMap (s.teamNumbered t), State.unstarted e.2 = true → e.1 ≠ r) → u.team? r = s.team? r) ∧
    (s.namesFree t (s.team t).brec = false → (s.team t).again = true → ∃ u, exec (.dispatch core slot) s = .next u ∧
      (u.team t).halted = true ∧ (∀ r, r ≠ t → u.team? r = s.team? r) ∧ u.fibres = s.fibres)) ∧
  (∀ s core slot t n, s.teamAtSlot core slot = some t → (s.team t).phase = .claimed n → (s.team? t).isSome →
    (∀ r ∈ (s.launchOfTeam t).blk.roles, r.lanes ≤ 32) → (s.launchOfTeam t).blk.packs ≤ 32 →
    ((s.core core).clk < n ∨ s.groupClaimed t = false → exec (.dispatchReady core slot) s = .next s) ∧
    (n ≤ (s.core core).clk → s.groupClaimed t = true → ∃ u, exec (.dispatchReady core slot) s = .next u ∧ (u.team t).phase = .running ∧
      (∀ p l, p < (s.launchOfTeam t).blk.packs →
        l < ((s.launchOfTeam t).blk.roles.getD (roleOfPack (s.launchOfTeam t).blk.roles p 0) default).lanes →
        u.fibre? (t * 1024 + p * 32 + l) = some (Fibre.start
          (State.entryPc (s.launchOfTeam t) (roleOfPack (s.launchOfTeam t).blk.roles p 0))
          [(2, BitVec.ofNat 32 (s.launchOfTeam t).blk.lane)])) ∧
      (∀ f, f / 1024 ≠ t → u.fibre? f = s.fibre? f)))

/-- R116, R124-R128: the bind writer and dispatch. A record returned for a team that a halt found before its start leaves it halted (log
28), and one returned withdraws its unstarted mates (log 87). Model's choices: logs 22, 23, 28, 87. -/
def Obligations.TeamsAreBoundAndStarted : Prop := TeamsAreBound ∧ DispatchStartsTeams

/-- R366, R419-R425: a team that meets the conditions of R419 parks the locks that its fibres were killed with and releases; where neither
must wait, and its bit is set in the scoreboard's mirror, it leaves its core with all its fibres, and its registers keep what stands in them
until a team is dispatched over them; while the mirror's write must wait, so does the retirement (log 27). One that does not meet them meets no
change. A launch with no parent whose root count is 0 completes, once its release is done, with the count of its failed teams, and
leaves its queue. Model's choices: logs 25, 26, 27. -/
def Obligations.TeamsRetire : Prop :=
  (∀ s t, s.mayRetire t = false → exec (.teamRetire t) s = .next s) ∧
  (∀ s t v, s.mayRetire t = true → s.parkLeft t = (false, v) → exec (.teamRetire t) s = .next v) ∧
  (∀ s t v, s.mayRetire t = true → s.parkLeft t = (true, v) →
    let w := (v.releaseTeam t).reportFaults t
    ((v.releaseTeam t).teamWaits t = true → exec (.teamRetire t) s = .next (v.releaseTeam t)) ∧
    ((v.releaseTeam t).teamWaits t = false → w.setScore t = none → exec (.teamRetire t) s = .next w) ∧
    (∀ y, (v.releaseTeam t).teamWaits t = false → w.setScore t = some y →
      ∃ u, exec (.teamRetire t) s = .next u ∧ u.team? t = none ∧ mapHas u.ended t = true ∧
        ∀ f, f / 1024 = t → u.fibre? f = none)) ∧
  (∀ (s : State) k L n, s.launch? k = some L → L.root = 0 → L.done = false → L.parent = none → (s.ctx? L.ctx).isSome →
    s.childDue L.ctx k = false → (s.releasePart (s.ctx L.ctx).part (scopeAt L.blk.scope)).partWaits (s.ctx L.ctx).part
      (scopeAt L.blk.scope) = false →
    let u := s.complete (n + 1) k
    (u.launch k).done = true ∧ (u.launch k).value = (if L.failed = 0 then 0 else 2 ^ 24 + min L.failed (2 ^ 24 - 1)) ∧
      (k = launchKey L.ctx L.lid → L.lid ∉ mapGetD (u.ctx L.ctx).queues L.blk.queue []))

/-! ### What the device does between instructions -/

/-- R131, R151, R152, R154, R176: in one clk of a core its fibres with results on the way enter the lines of their next slots; from there it
parks the fibres whose next slot must wait for results, advances its clk counter, and no other core's, and forms at most four batches, each
of fibres that are still READY and stand at its PC. Where every such fibre holds its line, nothing comes before that. -/
def Obligations.CoresIssueBatches : Prop :=
  (∀ (s u : State) c, s.enterPending c = u → ∃ t bs, exec (.coreIssue c) s = .next t ∧ (t.core c).clk = (u.core c).clk + 1 ∧
    (∀ d, d ≠ c → t.core d = u.core d) ∧ t.issue = u.issue ++ bs ∧ bs.length ≤ 4 ∧
    (∀ b ∈ bs, b.lanes ≠ [] ∧ ∀ l ∈ b.lanes, (t.fibre (b.fib l)).pc = b.pc ∧ (t.fibre (b.fib l)).st = .ready) ∧
    (∀ f, t.fibre? f = u.fibre? f ∨ t.fibre? f = (u.fibre? f).map (fun x => { x with st := .parked })) ∧ t.dram = u.dram) ∧
  (∀ (s : State) c, (∀ f x, s.fibre? f = some x → onTheWay x ≠ [] → s.holdsLine f = true) → s.enterPending c = s)

/-- R131, R133: a fibre that is to enter a line raises CODE.UNADOPTED or CODE.RETRACTED where the fetch check fails, and otherwise takes
the line of the I-cache that its translation, its key id and the region's `GEN` name into its fetch buffer. -/
def Obligations.LinesAreFetched : Prop :=
  ∀ (s : State) f x, Issuing s f x → s.holdsLine f = false →
    (∀ e, s.fetchCheck f x.pc.toNat = .error e → exec (.lineFetch f) s = .next (s.raiseAt f e x.pc 0)) ∧
    (s.regionAt (s.ctxOf f) x.pc.toNat = none → s.fetchCheck f x.pc.toNat = .error { eff := 0x010, arg := codeArg x.pc.toNat 0 0 }) ∧
    (∀ h r, s.regionAt (s.ctxOf f) x.pc.toNat = some (h, r) →
      (adoptedGen (s.teamOf f) h = none → s.fetchCheck f x.pc.toNat = .error { eff := 0x010, arg := codeArg x.pc.toNat h 0 }) ∧
      (∀ g, adoptedGen (s.teamOf f) h = some g → g ≠ r.gen →
        s.fetchCheck f x.pc.toNat = .error { eff := 0x011, arg := codeArg x.pc.toNat h r.gen }) ∧
      (adoptedGen (s.teamOf f) h = some r.gen → r.state = .published → insideRegion r (s.coreOf f) = true →
        s.fetchCheck f x.pc.toNat = .ok (h, r))) ∧
    (∀ h r xl u ln, s.fetchCheck f x.pc.toNat = .ok (h, r) →
      (s.fillLook (s.coreOf f) (s.ctxOf f) h).lineXlate f x.pc.toNat h = (.ok xl, u) → u.fibre? f = some x →
      (u.core (u.coreOf f)).icache.find? (fun y => y.ctx == u.ctxOf f && y.asid == u.asidOf (u.ctxOf f) (u.coreOf f / 128) &&
        y.key == xl.key && y.off == x.pc.toNat / 64 * 64 && y.gen == r.gen) = some ln → parityOk ln.data x.pc = true →
      ∃ t y, exec (.lineFetch f) s = .next t ∧ t.fibre? f = some y ∧
        y = { x with
          fbuf := some { off := x.pc.toNat / 64 * 64, data := ln.data, region := h, gen := r.gen, last := false }
          st := y.st } ∧
        (y.st = .ready ∨ y.st = .parked) ∧ t.dram = u.dram ∧ ∀ g, g ≠ f → t.fibre? g = u.fibre? g)

/-- R149, R154, R159, R202: one outstanding result arrives, and a PARKED fibre with none left is READY; that of an LD stays on its way
while its read must wait. A fibre whose token has been written, or whose phase is over, goes on; a line that leaves the I-cache changes
nothing else. Model's choices: logs 46, 54. -/
def Obligations.FibresWakeUp : Prop :=
  (∀ (s : State) f x, s.fibre? f = some x → x.halted = false → (∀ w ∈ x.pend, w.load = none) → onTheWay x ≠ [] →
    ∃ t y, exec (.resultArrival f) s = .next t ∧ t.fibre? f = some y ∧ (onTheWay y).length + 1 = (onTheWay x).length ∧
      (y.st = if x.st = .parked ∧ (onTheWay x).length = 1 then .ready else x.st) ∧ y.regs = x.regs ∧
      t = { s with fibres := t.fibres } ∧ ∀ g, g ≠ f → t.fibre? g = s.fibre? g) ∧
  (∀ (s : State) f x w q ld, s.fibre? f = some x → x.halted = false → onTheWay x = [w] → w.load = some q → mapGet x.loads q = some ld →
    let v := s.arriveBefore f (fun y => decide (y.seq ≤ q) && y.block == locBlock ld.loc)
    mapHas (v.fibre f).loads q = true → exec (.resultArrival f) s =
      .next (v.modFibre f (fun y => if y.st = .parked ∧ onTheWay y = [] then { y with st := .ready } else y))) ∧
  (∀ (s : State) f x rs, s.fibre? f = some x → x.halted = false → x.st = .waiting (.token rs) →
    ((∃ r ∈ rs, mapHas x.tok r = true) → exec (.waitConditionMet f) s = .next s) ∧
    ((∀ r ∈ rs, mapHas x.tok r = false) → ∃ t, exec (.waitConditionMet f) s = .next t ∧
      t.fibre? f = some { x with st := .ready } ∧
      t.issue = Batch.formed (f / 1024) (f % 1024 / 32) x.pc [f % 32] (f % 32) (s.core (s.coreOf f)).clk :: s.issue)) ∧
  (∀ (s : State) f x p ph sync src, s.fibre? f = some x → x.halted = false → x.st = .waiting (.rendezvous p ph sync src) →
    (s.point (f / 1024) p).phase ≠ s.waitPhase f ph src → ∃ t, exec (.waitConditionMet f) s = .next t ∧
      (t.fibre? f).map (fun y => (y.st, y.pc)) = some (.ready, nextPc x.pc)) ∧
  (∀ (s : State) c i, exec (.icacheEviction c i) s = .next (s.modCore c (fun y => { y with icache := y.icache.eraseIdx i })))

/-- R395: an unhandled ISA.MISSING that the library of mode 0 does not emulate kills its fibre; in mode 1 the control process's answer
kills it, or restarts it with the registers it wrote, at the next PC or at the same one. -/
def Obligations.MissingServicesEnd : Prop :=
  (∀ (s : State) f x w, sortedKeys s.fibres = true → s.missingAt f 0 = some (x, w) →
    ∃ t, exec (.missingEmulation f) s = .next t ∧ (t.fibre? f).map (·.st) = some .exited) ∧
  (∀ (s : State) f x w, sortedKeys s.fibres = true → s.missingAt f 1 = some (x, w) →
    (∃ t, exec (.missingSignalAnswer f .kill) s = .next t ∧ (t.fibre? f).map (·.st) = some .exited) ∧
    (∀ rs, ∃ t, exec (.missingSignalAnswer f (.next rs [])) s = .next t ∧
      (t.fibre? f).map (fun y => (y.missing, y.pc)) = some (none, nextPc x.pc)) ∧
    (∀ i v, i < 128 → ∃ t, exec (.missingSignalAnswer f (.again [{ lane := f % 32, reg := i, val := v }] [])) s = .next t ∧
      (t.fibre? f).map (fun y => (y.missing, y.pc, y.latest i)) = some (none, x.pc, v)))

/-- R205, R206: in a stuck team every fibre that still runs waits on an object and raises SYNC.DEADLOCK with it, one after another; and
every member of a barrier that can never complete, waiting in an HBAR, raises it with 0x80; where nothing is stuck nothing happens.
Model's choices: log 34. -/
def Obligations.DeadlocksRaise : Prop :=
  (∀ (s : State) t, s.stuck t = false → exec (.stuckDeadlock t) s = .next s) ∧
  (∀ (s : State) t, s.stuck t = true → ∃ os : List Nat, (s.teamFibres t).map (fun e => stuckObj e.2) = os.map some ∧
    exec (.stuckDeadlock t) s = .next (((s.teamFibres t).zip os).foldl (fun v e =>
      v.raiseAt e.1.1 { eff := 0x030, arg := e.2 } e.1.2.pc 0) s)) ∧
  (∀ (s : State) c lid, s.hbarStuck c lid = [] → exec (.hbarDeadlock c lid) s = .next s) ∧
  (∀ (s : State) t T sc, s.team? t = some T → sc ∈ [Scope.quad, .die, .pkg, .pod] → s.hbarDead t sc = true →
    (∀ e ∈ s.hbarMembers t sc, e ∈ s.hbarStuck T.ctx T.lid) ∧
    exec (.hbarDeadlock T.ctx T.lid) s = .next ((s.hbarStuck T.ctx T.lid).foldl (fun v e =>
      v.raiseAt e.1 { eff := 0x030, arg := 0x80 } e.2.pc 0) s))

/-- R251-R266, R404: a request in flight, which a halt has not saved, is performed at home once nothing must stand before it, waits on a frozen frame, or is refused for good
and leaves a store fault; a Clean sector leaves the L1 with its line, and without a trace, and the die's remote copy of a sector may go;
a walk refreshes its unit's TLB entry. Model's choices: logs 42, 58. -/
def Obligations.HomeAndCachesMove : Prop :=
  (∀ (s : State) id r, mapGet s.reqs id = some r → s.reqFree id r = false ∨ r.replay = true → exec (.homeAccess id) s = .next s) ∧
  (∀ (s : State) id r va, mapGet s.reqs id = some r → s.reqFree id r = true → r.replay = false → r.loc = .glob va →
    let done (t : State) : State := State.afterSc { t with reqs := mapDel t.reqs id } r
    let at_ : Xl := { pa := r.pa, key := r.key, gen := r.gen }
    (∀ bs xl u, r.op = .write bs → s.resolve (.core r.core) r.ctx va .write at_ = (.ok xl, u) →
      (r.through = true → u.homeHeld r.core xl.pa xl.key true = false →
        exec (.homeAccess id) s = .next (done (u.cvWrite r.core xl bs))) ∧
      (r.through = true → u.homeHeld r.core xl.pa xl.key true = true → exec (.homeAccess id) s = .next u) ∧
      (∀ w, r.through = false → u.l1Held r.core xl.pa xl.key bs.length true = false →
        u.allocate r.core (sectorKey xl.pa xl.key) r.hint = some w →
        exec (.homeAccess id) s = .next (done (w.l1Write r.fib r.life r.core r.ctx va (marg r.hnd va) xl bs)))) ∧
    (∀ fn n v xl u, r.op = .red fn n v → s.resolve (.core r.core) r.ctx va .atomic at_ = (.ok xl, u) →
      (u.homeHeld r.core xl.pa xl.key true = false →
        exec (.homeAccess id) s = .next (done (u.homeAtom r.core xl n (fun old => some (atomNew fn n old v))).2)) ∧
      (u.homeHeld r.core xl.pa xl.key true = true → exec (.homeAccess id) s = .next u)) ∧
    (∀ bs e u, r.op = .write bs → s.resolve (.core r.core) r.ctx va .write at_ = (.error e, u) →
      (e = .held → exec (.homeAccess id) s = .next u) ∧
      (e ≠ .held →
        exec (.homeAccess id) s = .next (State.storeFault { u with reqs := mapDel u.reqs id } r.fib r.life r.ctx (marg r.hnd va))))) ∧
  (∀ (s : State) c n key data, key < 512 →
    let k := n * 512 + key
    (lineOfKey k ∈ s.evictable c → (s.core c).sectorsOf (lineOfKey k) = [k] → s.l1 c k = some (.clean data) →
      ∃ t, exec (.l1Eviction c n key) s = .next t ∧ t.l1 c k = none ∧ t.dram = s.dram ∧ ∀ j, j ≠ k → t.l1 c j = s.l1 c j) ∧
    (lineOfKey k ∉ s.evictable c → s.l1 c k = none →
      exec (.l1Eviction c n key) s = .next (s.modDie (c / 128) (fun d => { d with rcopy := mapDel d.rcopy k })))) ∧
  (∀ (s : State) u c va x, s.ctx? c = some x → x.cold = false → x.destroyed = false → x.asids ≠ [] →
    ∃ t, exec (.tableWalk u c va) s = .next t ∧ t.dram = s.dram ∧ t.fibres = s.fibres ∧
      (s.walk c va = none → ∀ e ∈ t.tlb, e.unit = u → e.ctx = c → e.va ≠ va / 2 ^ e.size * 2 ^ e.size) ∧
      (∀ l, s.walk c va = some l → (tlbOf s u c va l) ∈ t.tlb))

/-- R264-R266: in a live context Cupola makes an absent page resident in a free frame, and stores a resident one and takes its frame. It
moves one in rounds: each clears `D` and drains the page, then copies it, and begins anew while `D` is set again, up to a limit; then
the frame freezes, and the page is at its new frame. A page that is resident already is not made resident, and an absent one is not
stored. Model's choices: log 62. -/
def Obligations.PagesMove : Prop :=
  ∀ (s : State) c x va frame l, s.ctx? c = some x → x.cold = false → x.destroyed = false → s.walk c va = some l →
    (l.perms.getLsbD 2 = true → exec (.makeResident c va frame) s = .next s) ∧
    (l.perms.getLsbD 2 = false → l.size = 16 → s.frameFree frame = true →
      ∃ t, exec (.makeResident c va frame) s = .next t ∧ (t.frameOf (frame * 2 ^ 16)).owner = some c ∧
        (t.frameOf (frame * 2 ^ 16)).gen = (s.frameOf (frame * 2 ^ 16)).gen + 1 ∧ t.fibres = s.fibres) ∧
    (l.perms.getLsbD 2 = true → s.movingAt l = none → exec (.pageEviction c va) s = .next (s.storePage c va l)) ∧
    (l.perms.getLsbD 2 = false → exec (.pageEviction c va) s = .next s) ∧
    (l.perms.getLsbD 2 = true → s.movingAt l = none → frame % 2 ^ (l.size - 16) = 0 →
      (∀ i, i < 2 ^ (l.size - 16) → s.frameFree (frame + i) = true) →
      exec (.pageMigration c va frame) s =
        .next ((s.claimFrames c (List.range' frame (2 ^ (l.size - 16)))).beginRound c va frame 1 l)) ∧
    (∀ dest n, l.perms.getLsbD 2 = true → s.movingAt l = some (dest, n) →
      (s.frozen (State.leafFrame l * 2 ^ 16) = true → exec (.pageMigration c va frame) s = .next (s.movePage c va dest l)) ∧
      (s.frozen (State.leafFrame l * 2 ^ 16) = false →
        let v := s.copyFrames l.key (State.leafFrame l * 2 ^ 16) (dest * 2 ^ 16) l.size
        ((v.dram.nat l.pte 16).testBit 7 = true → n ≤ Config.migrationRounds →
          exec (.pageMigration c va frame) s = .next (v.beginRound c va dest (n + 1) l)) ∧
        ((v.dram.nat l.pte 16).testBit 7 = false ∨ Config.migrationRounds < n →
          exec (.pageMigration c va frame) s = .next (v.modFrames l (fun y => { y with frozen := true })))))

/-- R266, R294, R428, R430-R432: an access at a port, or of the control process by its own walker, that is performed is performed at home,
and answered with the bytes of a read; where its page must first be made resident that is done; a refused one is answered with an error,
and the RMA one from outside is logged, the others not. A storage transfer moves bytes of its namespace, however many. An RMA access to an
unknown context, and an atomic of no operation of R295, are answered with an error. A segment of a peer's command names a handle of this
context: one that is not global, lacks the permission or is too short answers its code, and nothing is accessed (R284, R293). Model's
choices: logs 49, 53. -/
def Obligations.PortsAccess : Prop :=
  (∀ (s : State) c va r frame, s.mod.boot = .running → rmaOk r.op = false ∨ s.ctx? c = none →
    exec (.rmaAccess c va r frame) s = .next (s.portAnswer
      { storage := false, ctx := c, va := va, data := none, code := if r.far.isSome then 5 else 0 })) ∧
  (∀ (s : State) c x va r frame h, s.mod.boot = .running → s.ctx? c = some x → x.cold = false → x.destroyed = false →
    rmaOk r.op = true → r.far = some h → h ≠ 0 →
    let e := s.entryIn c h
    let may := if r.op = .read (rmaLen r.op) then e.canRead else e.canWrite
    let answers (code : Nat) : Prop := exec (.rmaAccess c va r frame) s =
      .next (s.portAnswer { storage := false, ctx := c, va := va, data := none, code := code })
    (e.spaceOf ≠ some 1 → answers 5) ∧ (e.spaceOf = some 1 → may = false → answers 2) ∧
    (e.spaceOf = some 1 → may = true → e.len < va + rmaLen r.op → answers 3) ∧
    (e.spaceOf = some 1 → may = true → va + rmaLen r.op ≤ e.len → s.rmaPlace c va r = .ok (e.base + va))) ∧
  (∀ (s : State) c x va frame v, s.mod.boot = .running → s.ctx? c = some x → x.cold = false → x.destroyed = false →
    s.giveAsids c = some v →
    (∀ (r : RmaReq) a, rmaOk r.op = true → s.rmaPlace c va r = .ok a →
      let unit : XUnit := if r.own then .control else .port
      let code (n : Nat) : Nat := if r.far.isSome then n else 0
      (∀ bs u, v.portAccess unit c a r.op = (.performed bs, u) → exec (.rmaAccess c va r frame) s =
        .next ((u.portAnswer { storage := false, ctx := c, va := va, data := some bs, code := 0 }).restAsids c)) ∧
      (∀ u, v.portAccess unit c a r.op = (.absent, u) → exec (.rmaAccess c va r frame) s =
        .next (s.makeResident c (s.absentPage c a (rmaLen r.op)) frame)) ∧
      (∀ u, v.portAccess unit c a r.op = (.busy, u) → exec (.rmaAccess c va r frame) s = .next s) ∧
      (∀ perm u, v.portAccess unit c a r.op = (.failed perm, u) → exec (.rmaAccess c va r frame) s =
        .next (((if r.own then u else u.logCtx c (.refusedAccess a perm)).portAnswer
          { storage := false, ctx := c, va := va, data := none, code := code (if perm then 2 else 1) }).restAsids c))) ∧
    (∀ (op : StoreReq),
      let what : RmaOp := if op.out then .read op.len else .write (s.storeBytes op.ns op.off op.len)
      (∀ bs u, v.portAccess .port c va what = (.performed bs, u) → exec (.storageTransfer c va op frame) s =
        .next (((if op.out then u.storeWrite op.ns op.off bs else u).portAnswer
          { storage := true, ctx := c, va := va, data := some [], code := 0 }).restAsids c)) ∧
      (∀ u, v.portAccess .port c va what = (.absent, u) → exec (.storageTransfer c va op frame) s =
        .next (s.makeResident c (s.absentPage c va (rmaLen what)) frame)) ∧
      (∀ perm u, v.portAccess .port c va what = (.failed perm, u) → exec (.storageTransfer c va op frame) s =
        .next ((u.portAnswer { storage := true, ctx := c, va := va, data := none, code := 0 }).restAsids c))))

/-! ### Halts -/

/-- R403-R405: a halt stops every fibre of a running team, saves its unsent writes and moves the context's halt generation on, or, while a
request of an older generation is on its way, makes that due; the end of a slice halts the context whose turn it was and passes the turn on; a reply of an old
generation is dropped. -/
def Sys2Proof.Claims.HaltsStopTeams : Prop :=
  (∀ (s : State) t T x, s.team? t = some T → T.halted = false → T.phase = .running → s.redsOf t = [] → s.ctx? T.ctx = some x →
    let fresh := (∀ r ∈ s.mod.replies, r.ctx = T.ctx → r.cxgen = x.cxgen) ∧
      (∀ e ∈ (s.saveReqs t).reqs, e.2.ctx = T.ctx → e.2.through = true → e.2.replay = false → e.2.cxgen = x.cxgen)
    ∃ u, exec (.halt [t]) s = .next u ∧ (u.team t).halted = true ∧ (u.team t).haltAsked = some s.ns ∧
      (fresh → (u.ctx T.ctx).cxgen = x.cxgen + 1 ∧ (u.ctx T.ctx).due = x.due) ∧
      (¬fresh → (u.ctx T.ctx).cxgen = x.cxgen ∧ (u.ctx T.ctx).due = x.due + 1) ∧
      (∀ f y, f / 1024 = t → s.fibre? f = some y → y.st ≠ .exited →
        (u.fibre? f).map (fun z => (z.halted, z.fbuf, z.pc)) = some (true, none, y.pc)) ∧
      (∀ f, f / 1024 ≠ t → u.fibre? f = s.fibre? f)) ∧
  (∀ (s : State) c, (s.partOf c).turn ≠ some c ∨ s.ns < (s.partOf c).since + (s.partOf c).slice → exec (.sliceEnd c) s = .next s) ∧
  (∀ (s : State) c x, s.ctx? c = some x → x.cold = false → x.destroyed = false → (s.partOf c).turn = some c →
    2 ≤ (s.sharers c).length → (s.partOf c).since + (s.partOf c).slice ≤ s.ns →
    exec (.sliceEnd c) s = .next ((s.haltTeams (s.teamsOf c) none true).beginTurn x.part (s.nextTurn c))) ∧
  (∀ (s : State) c, (∀ r ∈ s.mod.replies, r.ctx = c → r.cxgen = (s.ctx c).cxgen) → exec (.staleReplyDrop c) s = .next s) ∧
  (∀ (s : State) c r rest, s.mod.replies = r :: rest → r.ctx = c → r.cxgen ≠ (s.ctx c).cxgen →
    exec (.staleReplyDrop c) s = .next ((s.modMod (fun m => { m with replies := rest })).settleCxgen c))

/-- R404, R406-R408: a halt is complete once its drains are over and the halt generation has moved on, and saves the team's state, and a
halt that no slice's end made is not charged; a team not saved at 50 µs has its context killed; where the policy of R124 chooses saved
teams, bind records with RESUME restore them, they run again, and each bind is logged, or one is returned and all of them stay halted. -/
def Sys2Proof.Claims.HaltsSaveAndRestore : Prop :=
  (∀ (s : State) t T ns asked, s.team? t = some T → T.halted = true → T.saved = none → T.haltAsked = some asked → T.phase = .running →
    s.ns + ns - asked < 50000 → s.redsOf t = [] → (∀ e ∈ s.allFibres t, e.2.capMode = false) → s.dividing t = false →
    (s.ctx T.ctx).due = 0 →
    ∃ u, exec (.haltComplete t ns) s = .next u ∧ (u.team t).saved = some (s.saveOf t) ∧ u.ns = s.ns + ns ∧ u.fibres = s.fibres ∧
      u.dram = s.dram ∧ (T.sliced = false → u.ctxs = s.ctxs)) ∧
  (∀ (s : State) t T asked, s.team? t = some T → T.haltAsked = some asked →
    (T.halted = false ∨ T.saved ≠ none ∨ s.ns - asked < 50000 → exec (.haltWatchdog t) s = .next s) ∧
    (T.halted = true → T.saved = none → 50000 ≤ s.ns - asked →
      exec (.haltWatchdog t) s = .next ((s.killAll T.ctx).logCtx T.ctx (.sliceKilled (s.ctx T.ctx).part s.ns)))) ∧
  (∀ (s : State) t T v r, s.team? t = some T → T.saved = some v → r.slot = T.brec.slot →
    let no := (s.launchOfTeam t).blk.teamNo T.x T.y T.z
    let rec_ := State.recordOf (s.launchOfTeam t) no r (T.phase == .running)
    let next := s.chooseLaunch (s.ctx T.ctx).part
    ((∀ k ts, next = some (k, .again ts) → t ∉ ts) → exec (.teamResume t [r]) s = .next s) ∧
    (∀ k, next = some (k, .again [t]) → s.namesFree t rec_ = true →
      ∃ u, exec (.teamResume t [r]) s = .next u ∧ (u.team t).halted = false ∧ (u.team t).saved = none ∧ (u.team t).brec = rec_ ∧
        .bound T.ctx T.lid t ∈ u.mod.log) ∧
    (∀ k, next = some (k, .again [t]) → s.namesFree t rec_ = false →
      exec (.teamResume t [r]) s = .next (s.modMod (fun m => { m with log := m.log ++ [.refused T.ctx T.lid t] }))) ∧
    (∀ k ts rs, next = some (k, .again ts) → t ∈ ts → rs.map (·.slot) = ts.map (fun e => (s.team e).brec.slot) →
      ∃ u, exec (.teamResume t rs) s = .next u ∧
        ((∀ e ∈ ts, (u.team e).halted = false ∧ (u.team e).saved = none ∧ .bound (s.team e).ctx (s.team e).lid e ∈ u.mod.log) ∨
          ∃ e ∈ ts, u = s.modMod (fun m => { m with log := m.log ++ [.refused (s.team e).ctx (s.team e).lid e] }))))

/-- R403-R408: halts, their completion, and resumption. Model's choices: logs 22, 28, 29, 30, 31, 39, 66. -/
def Obligations.HaltsStopAndRestore : Prop := HaltsStopTeams ∧ HaltsSaveAndRestore

/-- R410: ARM sets the context's point, DISARM clears it, RELEASE frees the teams that it holds, and the point fires before the batch at
its offset issues: it halts, disarms itself and is logged with the halt generation that the halt asks for (log 39). An ARM of a launch that
the context has not, or that is done, is answered BADREQ (log 65). Model's choices: logs 39, 65. -/
def Obligations.HaltPoints : Prop :=
  (∀ (s : State) m h x, Serves s m 10 x → h.ctx = m.ctx →
    (h.byName = true → x.blocks.any (fun y => y.name == h.lname) = true → exec (.haltatArm (m, h)) s =
      .next (replied (s.modCtx m.ctx (fun y => { y with point := some { req := h, attached := none } })) m 0 [])) ∧
    (∀ L, h.byName = false → s.launch? (launchKey m.ctx h.lid) = some L → L.done = false → exec (.haltatArm (m, h)) s =
      .next (replied (s.modCtx m.ctx (fun y => { y with point := some { req := h, attached := some h.lid } })) m 0 [])) ∧
    (h.byName = false → (s.launch? (launchKey m.ctx h.lid) = none ∨ (s.launch (launchKey m.ctx h.lid)).done = true) →
      exec (.haltatArm (m, h)) s = .next (replied s m 1 [])) ∧
    exec (.haltatRelease (m, h)) s = .next (replied { s with
      teams := mapAll s.teams (fun _ T => if frees s h T then { T with debugHeld := none } else T) } m 0 []) ∧
    exec (.haltatDisarm m) s = .next (replied (s.modCtx m.ctx (fun y => { y with point := none })) m 0 [])) ∧
  (∀ (s : State) c b rest p, s.issue = b :: rest → (s.ctx c).point = some p → s.pointAt b (s.standing b) = true →
    (s.team b.team).ctx = c →
    let u := (s.haltTeams (if p.req.allTeams then s.teamsOf c else [b.team]) (some p.req.allTeams) false).modCtx c (fun y =>
      { y with point := none })
    exec (.haltPointFire c) s = .next (u.logCtx c (.haltFired (s.team b.team).lid (s.team b.team).x (s.team b.team).y (s.team b.team).z
      p.req.fib b.pc.toNat (((u.ctx c).cxgen.toNat + (u.ctx c).due) % 256))))

/-! ### Cupola's requests -/

/-- R401, R402, R430, R431: CTX.CREATE makes a context with the keys asked for, or is DENIED a taken key; a request for a context that does
not exist gets NOCTX, and one for a cold one, or behind a START of its flow that is not yet accepted, waits; CTX.DESTROY leaves nothing of a
context bound or cached, once its killed teams have retired: while one of these waits for a frozen frame, so does the request. -/
def Sys2Proof.Claims.ContextsComeAndGo : Prop :=
  (∀ (s : State) m r, Asked s m 2 → mapHas s.parts r.part = true → r.missingMode ≤ 1 → r.keys ≠ [] → (∀ k ∈ r.keys, k < 512) →
    ((∃ k ∈ r.keys, s.keyTaken r.tenant k = true) → exec (.ctxCreate (m, r)) s = .next (replied s m 3 [])) ∧
    ((∀ k ∈ r.keys, s.keyTaken r.tenant k = false) → s.framesLeft < 1 → exec (.ctxCreate (m, r)) s = .next (replied s m 4 [])) ∧
    ((∀ k ∈ r.keys, s.keyTaken r.tenant k = false) → 1 ≤ s.framesLeft → s.frameFree r.root = true → r.cwbase % 2 ^ 32 = 0 →
      r.cwbase < 2 ^ 52 →
      ∃ t, exec (.ctxCreate (m, r)) s = .next t ∧ t.ctx? s.mod.nextCtx = some (newContext s r) ∧ t.mod.nextCtx = s.mod.nextCtx + 1 ∧
        t.dram = s.dram.zero (r.root * 2 ^ 16) (2 ^ 16) ∧
        t.mod.answers = (replied s m 0 (leBytes 4 s.mod.nextCtx)).mod.answers)) ∧
  (∀ (s : State) m, s.ctx? m.ctx = none →
    (Asked s m 3 → exec (.ctxDestroy m) s = .next (replied s m 2 [])) ∧
    (Asked s m 4 → ∀ r, exec (.map (m, r)) s = .next (replied s m 2 [])) ∧
    (Asked s m 5 → ∀ va n, exec (.unmap m va n) s = .next (replied s m 2 [])) ∧
    (Asked s m 6 → ∀ o p, exec (.load m o p) s = .next (replied s m 2 []))) ∧
  (∀ (s : State) m x, s.ctx? m.ctx = some x → x.destroyed = false → x.cold = true ∨ s.startDue m = true →
    (Asked s m 3 → exec (.ctxDestroy m) s = .next (s.modMod (fun y => { y with inbox := y.inbox ++ [.ctxDestroy m] }))) ∧
    (Asked s m 5 → ∀ va n, exec (.unmap m va n) s = .next (s.modMod (fun y => { y with inbox := y.inbox ++ [.unmap m va n] })))) ∧
  (∀ (s : State) m x, Serves s m 3 x →
    (s.destroyCtx m.ctx = none → exec (.ctxDestroy m) s = .next (s.modMod (fun y => { y with inbox := y.inbox ++ [.ctxDestroy m] }))) ∧
    (∀ u, s.destroyCtx m.ctx = some u → exec (.ctxDestroy m) s = .next (replied u m 0 []) ∧
      (∀ y, u.ctx? m.ctx = some y → y.destroyed = true ∧ y.asids = []) ∧ (∀ e ∈ u.teams, e.2.ctx ≠ m.ctx) ∧ ∀ e ∈ u.tlb, e.ctx ≠ m.ctx) ∧
    (s.teamsOf m.ctx = [] → (s.destroyCtx m.ctx).isSome = true))

/-- R105, R264, R430: MAP, UNMAP and LOAD do what they ask for and answer OK, UNMAP once the accesses translated before it have drained; an
object that does not link gets BADREQ with the loader's
report. -/
def Sys2Proof.Claims.PagesAreMapped : Prop :=
  (∀ (s : State) m x r t, Serves s m 4 x → pageRange r.va r.len = true → (∀ a ∈ rangePages r.va r.len, s.walk m.ctx a = none) →
    (∃ k ∈ x.keys, k.1 = r.key) → (r.resident = true → r.frames.length = (rangePages r.va r.len).length) →
    (if r.resident then (rangePages r.va r.len).length else 0) + s.tablesFor m.ctx (rangePages r.va r.len) ≤ s.framesLeft →
    s.mapPages m.ctx ((rangePages r.va r.len).zipIdx.map (fun e => mapSpec m r e.1 e.2)) r.tables = some t →
    exec (.map (m, r)) s = .next (replied t m 0 [])) ∧
  (∀ (s : State) m x, Serves s m 5 x →
    (∀ va n, pageRange va n = true → (∀ a ∈ rangePages va n, s.walk m.ctx a = none) →
      exec (.unmap m va n) s = .next (replied s m 0 [])) ∧
    (∀ va l, va % 2 ^ 16 = 0 → va + 2 ^ 16 ≤ 2 ^ 52 → s.walk m.ctx va = some l → s.movingAt l = none →
      (∀ u, s.unmapPage m.ctx va = some u → exec (.unmap m va (2 ^ 16)) s = .next (replied u m 0 [])) ∧
      (s.unmapPage m.ctx va = none → exec (.unmap m va (2 ^ 16)) s =
        .next (s.modMod (fun y => { y with inbox := y.inbox ++ [.unmap m va (2 ^ 16)] }))))) ∧
  (∀ (s : State) m x obj pl, Serves s m 6 x →
    let at_ : Site := { cw := x.cwbase, text := pl.textOff, rodata := pl.rodataVa, data := pl.dataVa }
    let pages (o : Obj) : List PageSpec := objPages o at_ ((x.keys.map (·.1)).headD 0) pl.frames
    placeOk x obj at_ (pages obj) = true →
    (∀ report, linkObj x obj at_ = .error report → exec (.load m obj pl) s = .next (replied s m 1 report)) ∧
    (∀ l t, linkObj x obj at_ = .ok l → (pages l.obj).length + s.tablesFor m.ctx ((pages l.obj).map (·.va)) ≤ s.framesLeft →
      (∀ g ∈ pages l.obj, g.frame.isSome = true) → s.mapPages m.ctx (pages l.obj) pl.tables = some t →
      exec (.load m obj pl) s = .next (replied (t.install m.ctx at_ l) m 0 [])))

/-- R105, R264, R401, R402, R406, R429-R431: contexts are made and destroyed, and pages mapped; LOAD's with the
permissions of log 73 and linked as log 68 says. Model's choices: logs 16, 35, 50, 65, 68, 73. -/
def Obligations.ContextsAreManaged : Prop := ContextsComeAndGo ∧ PagesAreMapped

/-- R106, R108, R424, R427, R429-R431: START hands a named block's launch over, or answers BADREQ, or waits while its queue is full; WAIT
answers with a completed launch's token, now or later; QUERY answers with counts; a handle entry is written whole. Model's choices:
logs 24, 47, 48, 65. -/
def Obligations.LaunchRequests : Prop :=
  (∀ (s : State) m x r, Serves s m 7 x →
    (startBlock x r.name = none → exec (.start (m, r)) s = .next (replied s m 1 [])) ∧
    (∀ nb, startBlock x r.name = some nb → blockOk (s.codeEntry m.ctx) nb.bytes = true →
      (64 ≤ s.queueLoad m.ctx (blockOfBytes nb.bytes).queue →
        exec (.start (m, r)) s = .next (s.modMod (fun y => { y with inbox := y.inbox ++ [.start (m, r)] }))) ∧
      (s.queueLoad m.ctx (blockOfBytes nb.bytes).queue < 64 → exec (.start (m, r)) s = .next (s.modCtx m.ctx (fun y => { y with
        submits := y.submits ++ [{ name := some nb.id, msg := some m, blk := blockOfBytes nb.bytes, shape := r.shape,
                                   after := m.flags.testBit 0, whole := m.flags.testBit 1, parent := none, holder := .cupola }] }))))) ∧
  (∀ (s : State) m x lid, Serves s m 8 x →
    (s.launch? (launchKey m.ctx lid) = none → exec (.wait m lid) s = .next (replied s m 1 [])) ∧
    (∀ L, s.launch? (launchKey m.ctx lid) = some L →
      (L.done = true → exec (.wait m lid) s = .next (replied s m 0 (leBytes 4 L.value))) ∧
      (L.done = false → exec (.wait m lid) s = .next (s.modMod (fun y => { y with waits := y.waits ++ [(m, lid)] }))))) ∧
  (∀ (s : State) m x lid, Serves s m 9 x →
    (s.launch? (launchKey m.ctx lid) = none → ∀ e, exec (.query m lid e) s = .next (replied s m 1 [])) ∧
    (∀ L, s.launch? (launchKey m.ctx lid) = some L →
      exec (.query m lid false) s = .next (replied s m 0
        (([L.lid, L.retired, min L.failed (2 ^ 24 - 1), L.root] ++ (if L.done then [L.value] else [])).flatMap (leBytes 4))) ∧
      exec (.query m lid true) s = .next (replied s m 0 (L.escal.flatMap (fun e => leBytes 40 (escalWord e)))))) ∧
  (∀ (s : State) c x i e, s.mod.boot = .running → s.ctx? c = some x → x.destroyed = false → x.cold = false →
    ((i < 5 ∨ 4094 < i ∨ e.length ≠ 32) → exec (.handleEntryWrite c i e) s = .next (replied s (Msg.own c) 1 [])) ∧
    (∀ y, 5 ≤ i → i ≤ 4094 → e.length = 32 → writeEntry x i e = some y →
      ∃ t, exec (.handleEntryWrite c i e) s = .next t ∧ t.ctx? c = some y ∧ (∀ k, (c, i) ∉ (t.core k).hcache) ∧
        t.mod.answers = (replied s (Msg.own c) 0 []).mod.answers))

/-- R402, R409, R433: a context with no bound team goes cold, with an image under its HMAC, and holds no ASID; its restoration from an image
whose HMAC matches, as that of an image as it was written does, gives it new ones where it has work; one whose HMAC does not match destroys
it, and the request that asked for it is answered INTEGRITY; ATTEST answers with the log, the nonce, the
signature over both and the certificate. Model's choices: logs 8, 48, 65, 80. -/
def Obligations.ColdContextsAndAttestation : Prop :=
  (∀ (s : State) c pages, (s.mayCool c = false → exec (.makeCold c pages) s = .next s) ∧
    (s.mayCool c = true → ∃ t, exec (.makeCold c pages) s = .next t ∧
      (∀ y, t.ctx? c = some y → y.cold = true ∧ y.asids = [] ∧ y.image = some (imageFor s.tick y.tenant)) ∧ ∀ e ∈ t.tlb, e.ctx ≠ c)) ∧
  (∀ n k, ((imageFor n k).read []).ok k = true) ∧
  (∀ (s : State) c x g altered as, s.ctx? c = some x → x.cold = true → x.destroyed = false → x.image = some g →
    let u := s.modCtx c (fun y => { y with
      cold := false
      image := none })
    let good := (g.read altered).ok x.tenant
    (∀ v, good = false → s.mod.inbox = [] → s.destroyCtx c = some v → exec (.contextRestore c altered as) s = .next v) ∧
    (∀ i rest m v, good = false → s.mod.inbox = i :: rest → requestMsg i = some m → m.ctx = c →
      (replied (s.modMod (fun y => { y with inbox := rest })) m 5 []).destroyCtx c = some v →
      exec (.contextRestore c altered as) s = .next v) ∧
    (good = true → u.hasWork c = false → exec (.contextRestore c altered as) s = .next u) ∧
    (∀ v, good = true → u.hasWork c = true → u.giveThese c as = some v → exec (.contextRestore c altered as) s = .next v ∧
      v.ctx? c = some { x with
        cold := false
        image := none
        asids := (v.ctx c).asids } ∧
      (x.asids = [] → ∀ e ∈ v.tlb, (unitDie e.unit, e.asid) ∉ (v.ctx c).asids))) ∧
  (∀ (s : State) m n, Asked s m 1 → m.ctx = 0 → exec (.attest m n) s = .next (replied s m 0
    ((s.mod.measure ++ [n]).flatMap (leBytes 32) ++ leBytes 64 (Config.sm2Sign (s.mod.measure ++ [n])) ++ Config.identityCert))) ∧
  (∀ (s : State) m x n, Serves s m 1 x → m.ctx ≠ 0 → exec (.attest m n) s = .next (replied s m 0
    ((s.mod.measure ++ x.measured ++ [n]).flatMap (leBytes 32) ++ leBytes 64 (Config.sm2Sign (s.mod.measure ++ x.measured ++ [n])) ++
      Config.identityCert)))

/-- R118, R314, R433, R434, R436: a module that is off boots, or halts at the first step that fails, after which no step runs but the
answer to a request; monitors are read, and with them the count of corrected errors; quads whose margin fails are retired under a new plan
and its spares; an uncorrectable error marks a matrix operand, flips a bit of a line in an I-cache or destroys its context; a boundary moves quads, and with them shares of the Tundish, between drained partitions. The
announcement at the end of a boot is a message of its own (log 65). Model's choices: logs 8, 14, 51, 52, 65. -/
def Obligations.ModuleEvents : Prop :=
  (∀ (s : State) b, s.mod.boot = .off →
    ∃ t, exec (.boot b) s = .next t ∧
      match bootFailure s.mod.fused (s.bootImage b) b with
      | some n => t.mod.boot = .failed n ∧ (t.move.isRequest = false → step t = .fault (.moduleHalted n))
      | none => ∀ img, s.bootImage b = some img → t.mod.boot = .running ∧ t.mod.remap = b.remap ∧ t.mod.plan = b.plan ∧
          t.mod.log = s.mod.log ++ [.announced] ∧ t.mod.answers = s.mod.answers ++ [announcement] ∧ t.mod.measure = s.mod.measure ++
            [Config.romDigest, imageDigest img, keyDigest img, Config.sm3 b.remap.flatten, Config.sm3 [b.plan]]) ∧
  (∀ (s : State) b, s.mod.boot ≠ .off → exec (.boot b) s = .next s) ∧
  (∀ (s : State) d, s.mod.boot = .running → d < 4 →
    exec (.monitorRead d) s = .next (s.modMod (fun m => { m with
      monitors := mapSet m.monitors d ((List.range 48).map (Config.monitor s.tick d))
      sensors := mapSet m.sensors d ((List.range 16).map (Config.sensor s.tick d))
      corrected := m.corrected + Config.correctedErrors s.tick
      log := m.log ++ [.monitor d] }))) ∧
  (∀ (s : State) anew spares v, s.mod.boot = .running → v = (if anew then s.replan else s) →
    exec (.marginReplan anew spares) s = .next (v.mod.failing.zipIdx.foldl (fun s e => s.retireQuad e.1 (spares.getD e.2 36)) v) ∧
    s.replan.mod.plan = Config.marginPlan s.tick ∧
    (∀ q, q ∈ s.replan.mod.failing ↔ q ∈ s.mod.failing ∨ q ∈ s.failsUnder (Config.marginPlan s.tick)) ∧
    (∀ q sp p P, v.mod.failing = [q] → spares = [sp] → v.partWith q = some (p, P) → v.stopped p = true →
      let w := (State.quadCores q).foldl State.writeBackAll v
      w.quadWaits q = false → ∃ t, exec (.marginReplan anew spares) s = .next t ∧ .quadRetired q.1 (v.physical q.1 q.2) ∈ t.mod.log ∧
        q ∉ t.mod.failing ∧ ∀ c ∈ State.quadCores q, mapGet t.cores c = none)) ∧
  (∀ (s : State) site, (∀ c, site ≠ .data c) → (∀ c i n, site ≠ .code c i n) → exec (.uncorrectableError site) s =
    .next (s.modMod (fun m => { m with bad := site :: m.bad.filter (· != site) }))) ∧
  (∀ (s : State) c i n ln, (s.core c).icache[i]? = some ln → exec (.uncorrectableError (.code c i n)) s =
    .next (s.modCore c (fun y => { y with icache := y.icache.set i { ln with data := flipBit ln.data n } }))) ∧
  (∀ (s : State) c x v, s.ctx? c = some x → x.destroyed = false → s.destroyCtx c = some v →
    exec (.uncorrectableError (.data c)) s = .next v) ∧
  (∀ (s : State) a p b q qs, mapGet s.parts a = some p → s.partTo p b = q → a ≠ b → b < 16 → s.drained a = true →
    s.drained b = true → (∀ k ∈ qs, k ∈ p.quads) → qs.Nodup →
    let e := (List.range 4).foldl (moveShare qs)
      ({ p with quads := p.quads.filter (fun k => !qs.contains k) }, { q with quads := q.quads ++ qs })
    exec (.partitionBoundaryMove a b qs) s = .next { s with parts := mapSet (mapSet s.parts a e.1) b e.2 } ∧
      e.1.quads = p.quads.filter (fun k => !qs.contains k) ∧ e.2.quads = q.quads ++ qs)

/-! ### Where capsule instructions, command segments, requests and module events complete -/

/-- R361-R364: CAPENTER of a free or a parked block enters capsule mode; CSTEP of a tenure with fewer than 32 steps commits one more;
CAPEXIT of a tenure that its fibre began leaves capsule mode; CAPRESET of a broken block gives 0. No launch and no partition changes. -/
def Sys2Proof.Claims.CapsuleInstructionsComplete : Prop :=
  (∀ o s b l x a xl u v w blk, BlockAt o s (capenterNeed o) b l x a xl u →
    mailboxErr u (b.fib l) (wordsNat (s.readVals (capenterNeed o) b l).b) = (none, v) → v.capHeld (b.fib l) (locVa a.loc) xl = false →
    v.capRead (b.fib l) xl = (blk, w) → fieldAt blk 12 4 = 0 → isSlot (BitVec.ofNat 32 (fieldAt blk 8 4)) = true →
    (lockState (fieldAt blk 0 8) = 0 ∨ lockState (fieldAt blk 0 8) = 2) →
    ∃ t y, exec (.capenter o) s = .next t ∧ t.fibre? (b.fib l) = some y ∧ y.capMode = true ∧
      y.held.map (·.block) = some (locVa a.loc) ∧ t.launches = s.launches ∧ t.parts = s.parts) ∧
  (∀ o s b l x h xl u blk, let e := eaOff o.off (s.readVals (cstepNeed o) b l).a
    0x80 ≤ e → e + o.sz.bytes ≤ 0x400 → e % o.sz.bytes = 0 → h.step < 32 → InTenure s (cstepNeed o) b l x h e.toNat xl u blk →
    ∃ t y, exec (.cstep o) s = .next t ∧ t.fibre? (b.fib l) = some y ∧ y.held = some { h with step := h.step + 1 } ∧ y.pc = nextPc b.pc ∧
      t.launches = s.launches ∧ t.parts = s.parts) ∧
  (∀ o s b l x h xl u blk v, InTenure s (capexitNeed o) b l x h 0 xl u blk → h.adopter = false → u.leaveWaits (b.fib l) h = [] →
    u.release (b.fib l) (blockScope blk) = (.done, v) →
    ∃ t y, exec (.capexit o) s = .next t ∧ t.fibre? (b.fib l) = some y ∧ y.held = none ∧ y.capMode = false ∧ y.pc = h.rpc ∧
      t.launches = s.launches ∧ t.parts = s.parts) ∧
  (∀ o s b l x a xl u v blk, BlockAt o s (capresetNeed o) b l x a xl u → u.capHeld (b.fib l) (locVa a.loc) xl = false →
    u.capRead (b.fib l) xl = (blk, v) → lockState (fieldAt blk 0 8) = 3 →
    ∃ t, exec (.capreset o) s = .next t ∧ t.launches = s.launches ∧ t.parts = s.parts ∧
      ∀ j, o.d = .g j → x.capMode = false → (t.fibre (b.fib l)).latest j.val = 0)

/-- R285, R286, R293: a command's last segment, once it is performed, ends the command; the fix-up service gives the frame it is
handed to the context whose page is absent, and changes no fibre and no command. -/
def Sys2Proof.Claims.CommandSegmentsComplete : Prop :=
  (∀ s id c seg now m z e u, LastRun s id c seg → (s.team c.team).halted = false → isCopy c.kind = true → c.rel = false →
    c.follow = none → s.cutSeg c seg = (now, []) → s.doSegment (inHand c []) now = (.wrote m z, e, u) →
    ∃ t, exec (.copySegment id) s = .next t ∧ mapGet t.cmds id = none ∧ ∀ j, j ≠ id → mapGet t.cmds j = mapGet u.cmds j) ∧
  (∀ s id frame c d ds va k, mapGet s.cmds id = some c → s.fixSides c = d :: ds → s.sideLoc c.fib d.1 d.2 = .glob va →
    s.walk (s.ctxOf c.fib) va = some k → k.perms.getLsbD 2 = false → k.size = 16 → s.frameFree frame = true →
    ∃ t, exec (.fixupService id frame) s = .next t ∧ (t.frameOf (frame * 2 ^ 16)).owner = some (s.ctxOf c.fib) ∧
      t.fibres = s.fibres ∧ t.cmds = s.cmds) ∧
  (∀ s id c p n data bs u src off frame, LastRun s id c [(p, n)] → isNet c.kind = true → isGet c.kind = false → c.rel = false →
    n ≤ s.segLen c (s.cmdRun c p) n → cmdPkg c.kind ≠ Config.pkgNumber % 16384 →
    (s.ctx (s.ctxOf c.fib)).peers.any (fun e => e.1 == cmdPkg c.kind) = true → (s.cmdRun c p).src = some (src, off) →
    s.engReads (inHand c []) src 2 off n [] = (.ok bs, u) →
    ∃ t, exec (.networkSegment id (.performed data) frame) s = .next t ∧ mapGet t.cmds id = none)

/-- R105, R118, R314, R401, R430, R433, R434: CTX.CREATE, CTX.DESTROY, MAP, UNMAP and LOAD with what they ask for are done and answered OK;
the module boots, reads its monitors, plans its margins, marks an error, and moves a boundary. -/
def Sys2Proof.Claims.RequestsAndModuleEventsComplete : Prop :=
  (∀ (s : State) m r, Asked s m 2 → mapHas s.parts r.part = true → r.missingMode ≤ 1 → r.keys ≠ [] →
    (∀ k ∈ r.keys, k < 512 ∧ s.keyTaken r.tenant k = false) → 1 ≤ s.framesLeft → s.frameFree r.root = true → r.cwbase % 2 ^ 32 = 0 →
    r.cwbase < 2 ^ 52 → ∃ t, exec (.ctxCreate (m, r)) s = .next t ∧ t.ctx? s.mod.nextCtx = some (newContext s r)) ∧
  (∀ (s : State) m x, Serves s m 3 x → (s.destroyCtx m.ctx).isSome = true → ∃ t, exec (.ctxDestroy m) s = .next t ∧ answered t m 0 ∧
    ∀ y, t.ctx? m.ctx = some y → y.destroyed = true) ∧
  (∀ (s : State) m x r t, Serves s m 4 x → pageRange r.va r.len = true → (∀ a ∈ rangePages r.va r.len, s.walk m.ctx a = none) →
    (∃ k ∈ x.keys, k.1 = r.key) → (r.resident = true → r.frames.length = (rangePages r.va r.len).length) →
    (if r.resident then (rangePages r.va r.len).length else 0) + s.tablesFor m.ctx (rangePages r.va r.len) ≤ s.framesLeft →
    s.mapPages m.ctx ((rangePages r.va r.len).zipIdx.map (fun e => mapSpec m r e.1 e.2)) r.tables = some t →
    ∃ u, exec (.map (m, r)) s = .next u ∧ answered u m 0 ∧ u.dram = t.dram) ∧
  (∀ (s : State) m x va l, Serves s m 5 x → va % 2 ^ 16 = 0 → va + 2 ^ 16 ≤ 2 ^ 52 → s.walk m.ctx va = some l → s.movingAt l = none →
    (s.unmapPage m.ctx va).isSome = true → ∃ u, exec (.unmap m va (2 ^ 16)) s = .next u ∧ answered u m 0) ∧
  (∀ (s : State) m x obj pl l t, Serves s m 6 x →
    let at_ : Site := { cw := x.cwbase, text := pl.textOff, rodata := pl.rodataVa, data := pl.dataVa }
    let pages (o : Obj) : List PageSpec := objPages o at_ ((x.keys.map (·.1)).headD 0) pl.frames
    placeOk x obj at_ (pages obj) = true → linkObj x obj at_ = .ok l →
    (pages l.obj).length + s.tablesFor m.ctx ((pages l.obj).map (·.va)) ≤ s.framesLeft → (∀ g ∈ pages l.obj, g.frame.isSome = true) →
    s.mapPages m.ctx (pages l.obj) pl.tables = some t →
    ∃ u, exec (.load m obj pl) s = .next u ∧ answered u m 0 ∧ u.dram = t.dram) ∧
  (∀ (s : State) b img, s.mod.boot = .off → s.bootImage b = some img → b.linksUp = true → b.planOk = true →
    remapOk s.mod.fused b.remap = true →
    ∃ t, exec (.boot b) s = .next t ∧ t.mod.boot = if imageOk img then .running else .failed 2) ∧
  (∀ (s : State) d, s.mod.boot = .running → d < 4 → ∃ t, exec (.monitorRead d) s = .next t ∧ .monitor d ∈ t.mod.log ∧
    mapGet t.mod.monitors d = some ((List.range 48).map (Config.monitor s.tick d))) ∧
  (∀ (s : State) spares, s.mod.boot = .running →
    ∃ t, exec (.marginReplan true spares) s = .next t ∧ t.mod.plan = Config.marginPlan s.tick) ∧
  (∀ (s : State) site, (∀ c, site ≠ .data c) → (∀ c i n, site ≠ .code c i n) → ∃ t, exec (.uncorrectableError site) s = .next t ∧ site ∈ t.mod.bad) ∧
  (∀ (s : State) a p b qs, mapGet s.parts a = some p → a ≠ b → b < 16 → s.drained a = true → s.drained b = true →
    (∀ k ∈ qs, k ∈ p.quads) →
    ∃ t y, exec (.partitionBoundaryMove a b qs) s = .next t ∧ mapGet t.parts b = some y ∧ ∀ k ∈ qs, k ∈ y.quads)

/-- R105, R118, R285, R286, R293, R314, R361-R364, R401, R430, R433, R434: where the capsule instructions, the segments of commands, the
requests that make and map contexts, and the events of the module complete; LOAD with the permissions of log 73, linked as log 68 says.
Model's choices: logs 8, 14, 16, 35, 38, 50, 51, 52, 65, 68, 73. -/
def Obligations.CapsulesCommandsAndRequestsComplete : Prop :=
  CapsuleInstructionsComplete ∧ CommandSegmentsComplete ∧ RequestsAndModuleEventsComplete

/-! ### The machine as a whole -/

/-- R62, R66, R73-R78: words written out from the spec's encoding decode to the instructions they stand for. -/
def Obligations.WordsDecode : Prop :=
  (decode 0x0100202027F0000000000000#96).toOption = some (.iadd ⟨fields (.g 4) (.g 4) (.g 4) .none 0, .s32, .rn, false, 0, 0⟩) ∧
  (decode 0x13006027FFF0008000000001#96).toOption = some (.shl ⟨fields (.g 12) (.g 4) .imm .none 0, .n32, .rn, false, 0, 1⟩) ∧
  (decode 0x530060202830022000000000#96).toOption =
    some (.ffma ⟨fields (.g 12) (.g 4) (.g 5) (.g 6) 0, .f32, .rz, false, 0, 0⟩) ∧
  (decode 0x3007F7F7F7F00000FFFFFFEA#96).toOption = some (.bra ⟨fields .none .none .none .none 0, 0, 0x1FFFFFFD, 2⟩) ∧
  (decode 0x70386047F7F0024400200010#96).toOption =
    some (.ld ⟨⟨⟨3, true⟩, .g 12, .g 8, .none, .none, 0⟩, .w, .acq, .core, 0, 2, 16⟩) ∧
  (decode 0x9000A0404FF0001F00500100#96).toOption =
    some (.cpy ⟨fields (.g 20) (.g 8) (.g 9) .none 0, false, false, .lane, 0x1F, 5, 1, 0⟩) ∧
  (decode 0xA100A407F7F0001000600003#96).toOption =
    some (.mma ⟨fields (.g 20) (.k 0) .none .none 0, false, false, .lane, 0x10, 6, 0, 3⟩) ∧
  (decode 0xB500A04067F0000000600000#96).toOption = some (.launch ⟨fields (.g 20) (.g 8) (.g 12) .none 0, 0, 0x00600000⟩)

/-- R62, R66, R73-R80: decoding the word of a well-formed instruction gives it back, and a word that decodes is the word of what it
decodes to; no bit of an encoding is dropped, and no word stands for two instructions. -/
def Obligations.EncodingAndDecodingAgree : Prop :=
  (∀ i w, i.wf = true → encode? i = some w → decode w = .ok i) ∧ (∀ i w, decode w = .ok i → i.wf = true ∧ encode? i = some w)

/-- R81, R131, R145, R151, R410, R433: a module whose boot failed has no step, but that it answers a request with its failure record.
Otherwise a step counts itself, and where the batch at the head of the issue list issues, it is exec of the instruction that the batch's
slot decodes to, with the batch's lanes and word in hand; a word that no instruction has raises in each lane. With no batch formed, the
step is the head of the agenda, or the environment's choice (log 2). Model's choices: logs 2, 65. -/
def Obligations.StepRunsTheDecodedInstruction : Prop :=
  (∀ s n, s.mod.boot = .failed n → s.move.isRequest = false → step s = .fault (.moduleHalted n)) ∧
  (∀ s n i more m, s.mod.boot = .failed n → s.issue = [] → s.agenda = i :: more → requestMsg i = some m → m.again = false →
    ∃ t, step s = .next t ∧ t.mod.answers = s.mod.answers ++ [{ flow := m.flow, head := [], data := leBytes 64 n }]) ∧
  (∀ s : State, (∀ n, s.mod.boot ≠ .failed n) →
    let o : State := { s with tick := s.tick + 1, cur := none }
    (∀ b more, s.issue = b :: more → IssuesNow o b →
      let w := slotWord (o.batchLine b (o.standing b)).data (slotOf b.pc)
      ∃ u, u = o.issueBatch b (o.standing b) more ∧
        (∀ c, u.cur = some c → c.word = w ∧ c.team = b.team ∧ c.pack = b.pack ∧ c.pc = b.pc ∧ ∀ l ∈ c.lanes, l ∈ o.standing b) ∧
        u.cur ≠ none ∧ (∀ i, decode w = .ok i → step s = exec i u) ∧ (∀ r, decode w = .error r → step s = .next (State.raiseIllegal u))) ∧
    (∀ i more, s.issue = [] → s.agenda = i :: more → step s = exec i { o with agenda := more }) ∧
    (s.issue = [] → s.agenda = [] → step s = exec (Config.turn s.tick) o))

/-- R69, R154, R155, R156: a read returns a value that the latency contract allows. At position n the candidates of a register are
its last guaranteed write and every later one, or what they were where no pending write is guaranteed; p0 reads 1 and takes no
write. A Class A write is guaranteed from the second next position, a Class B one from the fourth next, and every one from a switch-
marked instruction on. (That a switch marker also guarantees Class A writes is the model's reading, log 12.) Model's choices: logs
1, 12. -/
def Obligations.ReadsKeepTheLatencyContract : Prop :=
  (∀ (s : State) f r salt, r < 160 → s.readReg f r salt ∈ (s.fibre f).cands r) ∧
  (∀ (s : State) f salt, s.readReg f 128 salt = 1) ∧ (∀ (x : Fibre) cls v, x.put cls 128 v = x) ∧
  (∀ (x : Fibre) n r, r < 160 → r ≠ 128 → let ws := x.pend.filter (fun w => w.reg == r)
    ((∀ w ∈ ws, w.guaranteed n x.mark = false) → (x.settle n).cands r = x.cands r) ∧
    (∀ a w z, ws = a ++ w :: z → w.guaranteed n x.mark = true → (∀ q ∈ z, q.guaranteed n x.mark = false) →
      (x.settle n).cands r = w.val :: z.map (·.val))) ∧
  (∀ (w : RegWrite) n mark, w.guaranteed n mark = true ↔ w.pos < mark ∨ (w.cls = .a ∧ w.pos + 2 ≤ n) ∨ (w.cls = .b ∧ w.pos + 4 ≤ n))

/-- R176, R433 and the reset values of logs 8 and 9: after reset the module is off, no context, launch, team or fibre exists, every
core's clk counter is 0, nothing is cached, in flight or mapped, and memory is in its canonical form. Model's choices: logs 9, 15.
-/
def Obligations.ResetLeavesTheModuleOff : Prop :=
  State.reset.mod.boot = .off ∧ State.reset.ctxs = [] ∧ State.reset.launches = [] ∧ State.reset.teams = [] ∧ State.reset.fibres = [] ∧
    State.reset.parts = [] ∧ State.reset.reqs = [] ∧ State.reset.cmds = [] ∧ State.reset.tlb = [] ∧
    (∀ c, (State.reset.core c).clk = 0 ∧ (State.reset.core c).l1 = [] ∧ (State.reset.core c).icache = []) ∧ Canonical State.reset

/-- The canonical forms of DRAM and of the tables of fibres and teams are kept by every step, from every state that has them.
Model's choices: log 9. -/
def Obligations.StepsKeepTheCanonicalForms : Prop := ∀ s t, Canonical s → step s = .next t → Canonical t
end

