-- ==== Sys2Proof/Laws/Maps.lean ====
section
/-!
SUPPORT. Laws of tables: what a read of a key finds after an update of it or of another key, and that updates keep keys rising.
-/
namespace Sys2Proof.Machine

variable {α : Type}

@[simp] theorem mapGet_nil (k : Nat) : mapGet ([] : Map α) k = none := rfl

@[simp] theorem mapGet_mapSet_same (m : Map α) (k : Nat) (x : α) : mapGet (mapSet m k x) k = some x := by
  induction m with
  | nil => simp [mapSet, mapGet]
  | cons e m ih =>
    obtain ⟨j, v⟩ := e
    by_cases h : j = k
    · simp [mapSet, mapGet, h]
    · by_cases h' : k < j <;> simp [mapSet, mapGet, h, h', ih]

theorem mapGet_mapSet_ne (m : Map α) {k l : Nat} (x : α) (h : l ≠ k) : mapGet (mapSet m k x) l = mapGet m l := by
  induction m with
  | nil => simp [mapSet, mapGet, Ne.symm h]
  | cons e m ih =>
    obtain ⟨j, v⟩ := e
    by_cases hj : j = k
    · subst hj; simp [mapSet, mapGet, Ne.symm h]
    · by_cases h' : k < j
      · simp [mapSet, mapGet, hj, h', Ne.symm h]
      · rw [show mapSet ((j, v) :: m) k x = (j, v) :: mapSet m k x by simp [mapSet, hj, h']]
        simp [mapGet, ih]

/-- A read after an update of the table. -/
theorem mapGet_mapSet (m : Map α) (k l : Nat) (x : α) : mapGet (mapSet m k x) l = if l = k then some x else mapGet m l := by
  by_cases h : l = k
  · subst h; simp
  · simp [h, mapGet_mapSet_ne m x h]

@[simp] theorem mapGetD_mapSet_same (m : Map α) (k : Nat) (x d : α) : mapGetD (mapSet m k x) k d = x := by simp [mapGetD]

theorem mapGetD_mapSet_ne (m : Map α) {k l : Nat} (x d : α) (h : l ≠ k) : mapGetD (mapSet m k x) l d = mapGetD m l d := by
  simp [mapGetD, mapGet_mapSet_ne m x h]

/-- A read of the key that a change names. -/
@[simp] theorem mapGet_mapMod_same (m : Map α) (k : Nat) (f : α → α) : mapGet (mapMod m k f) k = (mapGet m k).map f := by
  unfold mapMod
  cases h : mapGet m k <;> simp [h]

theorem mapGet_mapMod_ne (m : Map α) {k l : Nat} (f : α → α) (h : l ≠ k) : mapGet (mapMod m k f) l = mapGet m l := by
  unfold mapMod
  cases hk : mapGet m k <;> simp [mapGet_mapSet_ne m _ h]

@[simp] theorem mapGetD_mapModD_same (m : Map α) (k : Nat) (d : α) (f : α → α) :
    mapGetD (mapModD m k d f) k d = f (mapGetD m k d) := by simp [mapModD]

theorem mapGetD_mapModD_ne (m : Map α) {k l : Nat} (d d' : α) (f : α → α) (h : l ≠ k) :
    mapGetD (mapModD m k d f) l d' = mapGetD m l d' := by simp [mapModD, mapGetD_mapSet_ne m _ d' h]

/-- The second of two writes of a key counts. -/
theorem mapSet_mapSet (m : Map α) (k : Nat) (x y : α) : mapSet (mapSet m k x) k y = mapSet m k y := by
  induction m with
  | nil => simp [mapSet]
  | cons e m ih =>
    obtain ⟨j, v⟩ := e
    by_cases h : j = k
    · simp [mapSet, h]
    · by_cases h' : k < j <;> simp [mapSet, h, h', ih]

/-- A removed key has no entry. -/
@[simp] theorem mapGet_mapDel_same (m : Map α) (k : Nat) : mapGet (mapDel m k) k = none := by
  induction m with
  | nil => rfl
  | cons e m ih =>
    obtain ⟨j, v⟩ := e
    by_cases h : j = k
    · subst h; simpa [mapDel] using ih
    · simp [mapDel, mapGet, h] at ih ⊢; exact ih

theorem mapGet_mapDel_ne (m : Map α) {k l : Nat} (h : l ≠ k) : mapGet (mapDel m k) l = mapGet m l := by
  induction m with
  | nil => rfl
  | cons e m ih =>
    obtain ⟨j, v⟩ := e
    by_cases hj : j = k
    · subst hj; simp [mapDel, mapGet, Ne.symm h] at ih ⊢; exact ih
    · rw [show mapDel ((j, v) :: m) k = (j, v) :: mapDel m k by simp [mapDel, hj]]
      simp [mapGet, ih]

theorem sortedKeys_tail {e : Nat × α} {m : Map α} (h : sortedKeys (e :: m) = true) : sortedKeys m = true := by
  cases m with
  | nil => rfl
  | cons b m => simp [sortedKeys] at h; exact h.2

/-- The keys above a bound stay above it. -/
theorem sortedKeys_cons {e : Nat × α} {m : Map α} :
    sortedKeys (e :: m) = true ↔ (∀ b ∈ m.head?, e.1 < b.1) ∧ sortedKeys m = true := by
  cases m <;> simp [sortedKeys]

theorem head_mapSet (m : Map α) (k : Nat) (x : α) (j : Nat) (hj : j < k) (h : ∀ b ∈ m.head?, j < b.1) :
    ∀ b ∈ (mapSet m k x).head?, j < b.1 := by
  cases m with
  | nil => simpa [mapSet] using hj
  | cons e m =>
    have he : j < e.1 := by simpa using h
    unfold mapSet
    split_ifs <;> simp [hj, he]

/-- Writing an entry keeps the keys rising. -/
theorem sortedKeys_mapSet (m : Map α) (k : Nat) (x : α) (h : sortedKeys m = true) : sortedKeys (mapSet m k x) = true := by
  induction m with
  | nil => rfl
  | cons e m ih =>
    rw [sortedKeys_cons] at h
    have ih := ih h.2
    unfold mapSet
    split_ifs with h1 h2
    · rw [sortedKeys_cons]; exact ⟨by rw [← h1]; exact h.1, h.2⟩
    · rw [sortedKeys_cons, sortedKeys_cons]; exact ⟨by simpa using h2, h⟩
    · rw [sortedKeys_cons]; exact ⟨head_mapSet m k x e.1 (by omega) h.1, ih⟩

end Sys2Proof.Machine
end

