-- ==== Sys2Proof/Laws/State.lean ====
section
/-!
SUPPORT. What each named update of the state leaves alone and what it changes: one lemma per field per update, and the reads of
the parts it names.
-/
namespace Sys2Proof.Machine
namespace State

/-! ### setFibre -/

@[simp] theorem setFibre_ctxs (s : State) (f : Nat) (x : Fibre) : (s.setFibre f x).ctxs = s.ctxs := rfl
@[simp] theorem setFibre_launches (s : State) (f : Nat) (x : Fibre) : (s.setFibre f x).launches = s.launches := rfl
@[simp] theorem setFibre_teams (s : State) (f : Nat) (x : Fibre) : (s.setFibre f x).teams = s.teams := rfl
@[simp] theorem setFibre_packs (s : State) (f : Nat) (x : Fibre) : (s.setFibre f x).packs = s.packs := rfl
@[simp] theorem setFibre_cores (s : State) (f : Nat) (x : Fibre) : (s.setFibre f x).cores = s.cores := rfl
@[simp] theorem setFibre_dies (s : State) (f : Nat) (x : Fibre) : (s.setFibre f x).dies = s.dies := rfl
@[simp] theorem setFibre_parts (s : State) (f : Nat) (x : Fibre) : (s.setFibre f x).parts = s.parts := rfl
@[simp] theorem setFibre_cmds (s : State) (f : Nat) (x : Fibre) : (s.setFibre f x).cmds = s.cmds := rfl
@[simp] theorem setFibre_reqs (s : State) (f : Nat) (x : Fibre) : (s.setFibre f x).reqs = s.reqs := rfl
@[simp] theorem setFibre_tlb (s : State) (f : Nat) (x : Fibre) : (s.setFibre f x).tlb = s.tlb := rfl
@[simp] theorem setFibre_dram (s : State) (f : Nat) (x : Fibre) : (s.setFibre f x).dram = s.dram := rfl
@[simp] theorem setFibre_skeys (s : State) (f : Nat) (x : Fibre) : (s.setFibre f x).skeys = s.skeys := rfl
@[simp] theorem setFibre_frames (s : State) (f : Nat) (x : Fibre) : (s.setFibre f x).frames = s.frames := rfl
@[simp] theorem setFibre_mod (s : State) (f : Nat) (x : Fibre) : (s.setFibre f x).mod = s.mod := rfl
@[simp] theorem setFibre_ns (s : State) (f : Nat) (x : Fibre) : (s.setFibre f x).ns = s.ns := rfl
@[simp] theorem setFibre_tick (s : State) (f : Nat) (x : Fibre) : (s.setFibre f x).tick = s.tick := rfl
@[simp] theorem setFibre_ended (s : State) (f : Nat) (x : Fibre) : (s.setFibre f x).ended = s.ended := rfl
@[simp] theorem setFibre_agenda (s : State) (f : Nat) (x : Fibre) : (s.setFibre f x).agenda = s.agenda := rfl
@[simp] theorem setFibre_issue (s : State) (f : Nat) (x : Fibre) : (s.setFibre f x).issue = s.issue := rfl
@[simp] theorem setFibre_cur (s : State) (f : Nat) (x : Fibre) : (s.setFibre f x).cur = s.cur := rfl

/-! ### modFibre -/

@[simp] theorem modFibre_ctxs (s : State) (f : Nat) (g : Fibre → Fibre) : (s.modFibre f g).ctxs = s.ctxs := rfl
@[simp] theorem modFibre_launches (s : State) (f : Nat) (g : Fibre → Fibre) : (s.modFibre f g).launches = s.launches := rfl
@[simp] theorem modFibre_teams (s : State) (f : Nat) (g : Fibre → Fibre) : (s.modFibre f g).teams = s.teams := rfl
@[simp] theorem modFibre_packs (s : State) (f : Nat) (g : Fibre → Fibre) : (s.modFibre f g).packs = s.packs := rfl
@[simp] theorem modFibre_cores (s : State) (f : Nat) (g : Fibre → Fibre) : (s.modFibre f g).cores = s.cores := rfl
@[simp] theorem modFibre_dies (s : State) (f : Nat) (g : Fibre → Fibre) : (s.modFibre f g).dies = s.dies := rfl
@[simp] theorem modFibre_parts (s : State) (f : Nat) (g : Fibre → Fibre) : (s.modFibre f g).parts = s.parts := rfl
@[simp] theorem modFibre_cmds (s : State) (f : Nat) (g : Fibre → Fibre) : (s.modFibre f g).cmds = s.cmds := rfl
@[simp] theorem modFibre_reqs (s : State) (f : Nat) (g : Fibre → Fibre) : (s.modFibre f g).reqs = s.reqs := rfl
@[simp] theorem modFibre_tlb (s : State) (f : Nat) (g : Fibre → Fibre) : (s.modFibre f g).tlb = s.tlb := rfl
@[simp] theorem modFibre_dram (s : State) (f : Nat) (g : Fibre → Fibre) : (s.modFibre f g).dram = s.dram := rfl
@[simp] theorem modFibre_skeys (s : State) (f : Nat) (g : Fibre → Fibre) : (s.modFibre f g).skeys = s.skeys := rfl
@[simp] theorem modFibre_frames (s : State) (f : Nat) (g : Fibre → Fibre) : (s.modFibre f g).frames = s.frames := rfl
@[simp] theorem modFibre_mod (s : State) (f : Nat) (g : Fibre → Fibre) : (s.modFibre f g).mod = s.mod := rfl
@[simp] theorem modFibre_ns (s : State) (f : Nat) (g : Fibre → Fibre) : (s.modFibre f g).ns = s.ns := rfl
@[simp] theorem modFibre_tick (s : State) (f : Nat) (g : Fibre → Fibre) : (s.modFibre f g).tick = s.tick := rfl
@[simp] theorem modFibre_ended (s : State) (f : Nat) (g : Fibre → Fibre) : (s.modFibre f g).ended = s.ended := rfl
@[simp] theorem modFibre_agenda (s : State) (f : Nat) (g : Fibre → Fibre) : (s.modFibre f g).agenda = s.agenda := rfl
@[simp] theorem modFibre_issue (s : State) (f : Nat) (g : Fibre → Fibre) : (s.modFibre f g).issue = s.issue := rfl
@[simp] theorem modFibre_cur (s : State) (f : Nat) (g : Fibre → Fibre) : (s.modFibre f g).cur = s.cur := rfl

/-! ### modTeam -/

@[simp] theorem modTeam_ctxs (s : State) (t : Nat) (g : Team → Team) : (s.modTeam t g).ctxs = s.ctxs := rfl
@[simp] theorem modTeam_launches (s : State) (t : Nat) (g : Team → Team) : (s.modTeam t g).launches = s.launches := rfl
@[simp] theorem modTeam_packs (s : State) (t : Nat) (g : Team → Team) : (s.modTeam t g).packs = s.packs := rfl
@[simp] theorem modTeam_fibres (s : State) (t : Nat) (g : Team → Team) : (s.modTeam t g).fibres = s.fibres := rfl
@[simp] theorem modTeam_cores (s : State) (t : Nat) (g : Team → Team) : (s.modTeam t g).cores = s.cores := rfl
@[simp] theorem modTeam_dies (s : State) (t : Nat) (g : Team → Team) : (s.modTeam t g).dies = s.dies := rfl
@[simp] theorem modTeam_parts (s : State) (t : Nat) (g : Team → Team) : (s.modTeam t g).parts = s.parts := rfl
@[simp] theorem modTeam_cmds (s : State) (t : Nat) (g : Team → Team) : (s.modTeam t g).cmds = s.cmds := rfl
@[simp] theorem modTeam_reqs (s : State) (t : Nat) (g : Team → Team) : (s.modTeam t g).reqs = s.reqs := rfl
@[simp] theorem modTeam_tlb (s : State) (t : Nat) (g : Team → Team) : (s.modTeam t g).tlb = s.tlb := rfl
@[simp] theorem modTeam_dram (s : State) (t : Nat) (g : Team → Team) : (s.modTeam t g).dram = s.dram := rfl
@[simp] theorem modTeam_skeys (s : State) (t : Nat) (g : Team → Team) : (s.modTeam t g).skeys = s.skeys := rfl
@[simp] theorem modTeam_frames (s : State) (t : Nat) (g : Team → Team) : (s.modTeam t g).frames = s.frames := rfl
@[simp] theorem modTeam_mod (s : State) (t : Nat) (g : Team → Team) : (s.modTeam t g).mod = s.mod := rfl
@[simp] theorem modTeam_ns (s : State) (t : Nat) (g : Team → Team) : (s.modTeam t g).ns = s.ns := rfl
@[simp] theorem modTeam_tick (s : State) (t : Nat) (g : Team → Team) : (s.modTeam t g).tick = s.tick := rfl
@[simp] theorem modTeam_ended (s : State) (t : Nat) (g : Team → Team) : (s.modTeam t g).ended = s.ended := rfl
@[simp] theorem modTeam_agenda (s : State) (t : Nat) (g : Team → Team) : (s.modTeam t g).agenda = s.agenda := rfl
@[simp] theorem modTeam_issue (s : State) (t : Nat) (g : Team → Team) : (s.modTeam t g).issue = s.issue := rfl
@[simp] theorem modTeam_cur (s : State) (t : Nat) (g : Team → Team) : (s.modTeam t g).cur = s.cur := rfl

/-! ### modPack -/

@[simp] theorem modPack_ctxs (s : State) (p : Nat) (g : Pack → Pack) : (s.modPack p g).ctxs = s.ctxs := rfl
@[simp] theorem modPack_launches (s : State) (p : Nat) (g : Pack → Pack) : (s.modPack p g).launches = s.launches := rfl
@[simp] theorem modPack_teams (s : State) (p : Nat) (g : Pack → Pack) : (s.modPack p g).teams = s.teams := rfl
@[simp] theorem modPack_fibres (s : State) (p : Nat) (g : Pack → Pack) : (s.modPack p g).fibres = s.fibres := rfl
@[simp] theorem modPack_cores (s : State) (p : Nat) (g : Pack → Pack) : (s.modPack p g).cores = s.cores := rfl
@[simp] theorem modPack_dies (s : State) (p : Nat) (g : Pack → Pack) : (s.modPack p g).dies = s.dies := rfl
@[simp] theorem modPack_parts (s : State) (p : Nat) (g : Pack → Pack) : (s.modPack p g).parts = s.parts := rfl
@[simp] theorem modPack_cmds (s : State) (p : Nat) (g : Pack → Pack) : (s.modPack p g).cmds = s.cmds := rfl
@[simp] theorem modPack_reqs (s : State) (p : Nat) (g : Pack → Pack) : (s.modPack p g).reqs = s.reqs := rfl
@[simp] theorem modPack_tlb (s : State) (p : Nat) (g : Pack → Pack) : (s.modPack p g).tlb = s.tlb := rfl
@[simp] theorem modPack_dram (s : State) (p : Nat) (g : Pack → Pack) : (s.modPack p g).dram = s.dram := rfl
@[simp] theorem modPack_skeys (s : State) (p : Nat) (g : Pack → Pack) : (s.modPack p g).skeys = s.skeys := rfl
@[simp] theorem modPack_frames (s : State) (p : Nat) (g : Pack → Pack) : (s.modPack p g).frames = s.frames := rfl
@[simp] theorem modPack_mod (s : State) (p : Nat) (g : Pack → Pack) : (s.modPack p g).mod = s.mod := rfl
@[simp] theorem modPack_ns (s : State) (p : Nat) (g : Pack → Pack) : (s.modPack p g).ns = s.ns := rfl
@[simp] theorem modPack_tick (s : State) (p : Nat) (g : Pack → Pack) : (s.modPack p g).tick = s.tick := rfl
@[simp] theorem modPack_ended (s : State) (p : Nat) (g : Pack → Pack) : (s.modPack p g).ended = s.ended := rfl
@[simp] theorem modPack_agenda (s : State) (p : Nat) (g : Pack → Pack) : (s.modPack p g).agenda = s.agenda := rfl
@[simp] theorem modPack_issue (s : State) (p : Nat) (g : Pack → Pack) : (s.modPack p g).issue = s.issue := rfl
@[simp] theorem modPack_cur (s : State) (p : Nat) (g : Pack → Pack) : (s.modPack p g).cur = s.cur := rfl

/-! ### modLaunch -/

@[simp] theorem modLaunch_ctxs (s : State) (k : Nat) (g : Launch → Launch) : (s.modLaunch k g).ctxs = s.ctxs := rfl
@[simp] theorem modLaunch_teams (s : State) (k : Nat) (g : Launch → Launch) : (s.modLaunch k g).teams = s.teams := rfl
@[simp] theorem modLaunch_packs (s : State) (k : Nat) (g : Launch → Launch) : (s.modLaunch k g).packs = s.packs := rfl
@[simp] theorem modLaunch_fibres (s : State) (k : Nat) (g : Launch → Launch) : (s.modLaunch k g).fibres = s.fibres := rfl
@[simp] theorem modLaunch_cores (s : State) (k : Nat) (g : Launch → Launch) : (s.modLaunch k g).cores = s.cores := rfl
@[simp] theorem modLaunch_dies (s : State) (k : Nat) (g : Launch → Launch) : (s.modLaunch k g).dies = s.dies := rfl
@[simp] theorem modLaunch_parts (s : State) (k : Nat) (g : Launch → Launch) : (s.modLaunch k g).parts = s.parts := rfl
@[simp] theorem modLaunch_cmds (s : State) (k : Nat) (g : Launch → Launch) : (s.modLaunch k g).cmds = s.cmds := rfl
@[simp] theorem modLaunch_reqs (s : State) (k : Nat) (g : Launch → Launch) : (s.modLaunch k g).reqs = s.reqs := rfl
@[simp] theorem modLaunch_tlb (s : State) (k : Nat) (g : Launch → Launch) : (s.modLaunch k g).tlb = s.tlb := rfl
@[simp] theorem modLaunch_dram (s : State) (k : Nat) (g : Launch → Launch) : (s.modLaunch k g).dram = s.dram := rfl
@[simp] theorem modLaunch_skeys (s : State) (k : Nat) (g : Launch → Launch) : (s.modLaunch k g).skeys = s.skeys := rfl
@[simp] theorem modLaunch_frames (s : State) (k : Nat) (g : Launch → Launch) : (s.modLaunch k g).frames = s.frames := rfl
@[simp] theorem modLaunch_mod (s : State) (k : Nat) (g : Launch → Launch) : (s.modLaunch k g).mod = s.mod := rfl
@[simp] theorem modLaunch_ns (s : State) (k : Nat) (g : Launch → Launch) : (s.modLaunch k g).ns = s.ns := rfl
@[simp] theorem modLaunch_tick (s : State) (k : Nat) (g : Launch → Launch) : (s.modLaunch k g).tick = s.tick := rfl
@[simp] theorem modLaunch_ended (s : State) (k : Nat) (g : Launch → Launch) : (s.modLaunch k g).ended = s.ended := rfl
@[simp] theorem modLaunch_agenda (s : State) (k : Nat) (g : Launch → Launch) : (s.modLaunch k g).agenda = s.agenda := rfl
@[simp] theorem modLaunch_issue (s : State) (k : Nat) (g : Launch → Launch) : (s.modLaunch k g).issue = s.issue := rfl
@[simp] theorem modLaunch_cur (s : State) (k : Nat) (g : Launch → Launch) : (s.modLaunch k g).cur = s.cur := rfl

/-! ### modCtx -/

@[simp] theorem modCtx_launches (s : State) (c : Nat) (g : Context → Context) : (s.modCtx c g).launches = s.launches := rfl
@[simp] theorem modCtx_teams (s : State) (c : Nat) (g : Context → Context) : (s.modCtx c g).teams = s.teams := rfl
@[simp] theorem modCtx_packs (s : State) (c : Nat) (g : Context → Context) : (s.modCtx c g).packs = s.packs := rfl
@[simp] theorem modCtx_fibres (s : State) (c : Nat) (g : Context → Context) : (s.modCtx c g).fibres = s.fibres := rfl
@[simp] theorem modCtx_cores (s : State) (c : Nat) (g : Context → Context) : (s.modCtx c g).cores = s.cores := rfl
@[simp] theorem modCtx_dies (s : State) (c : Nat) (g : Context → Context) : (s.modCtx c g).dies = s.dies := rfl
@[simp] theorem modCtx_parts (s : State) (c : Nat) (g : Context → Context) : (s.modCtx c g).parts = s.parts := rfl
@[simp] theorem modCtx_cmds (s : State) (c : Nat) (g : Context → Context) : (s.modCtx c g).cmds = s.cmds := rfl
@[simp] theorem modCtx_reqs (s : State) (c : Nat) (g : Context → Context) : (s.modCtx c g).reqs = s.reqs := rfl
@[simp] theorem modCtx_tlb (s : State) (c : Nat) (g : Context → Context) : (s.modCtx c g).tlb = s.tlb := rfl
@[simp] theorem modCtx_dram (s : State) (c : Nat) (g : Context → Context) : (s.modCtx c g).dram = s.dram := rfl
@[simp] theorem modCtx_skeys (s : State) (c : Nat) (g : Context → Context) : (s.modCtx c g).skeys = s.skeys := rfl
@[simp] theorem modCtx_frames (s : State) (c : Nat) (g : Context → Context) : (s.modCtx c g).frames = s.frames := rfl
@[simp] theorem modCtx_mod (s : State) (c : Nat) (g : Context → Context) : (s.modCtx c g).mod = s.mod := rfl
@[simp] theorem modCtx_ns (s : State) (c : Nat) (g : Context → Context) : (s.modCtx c g).ns = s.ns := rfl
@[simp] theorem modCtx_tick (s : State) (c : Nat) (g : Context → Context) : (s.modCtx c g).tick = s.tick := rfl
@[simp] theorem modCtx_ended (s : State) (c : Nat) (g : Context → Context) : (s.modCtx c g).ended = s.ended := rfl
@[simp] theorem modCtx_agenda (s : State) (c : Nat) (g : Context → Context) : (s.modCtx c g).agenda = s.agenda := rfl
@[simp] theorem modCtx_issue (s : State) (c : Nat) (g : Context → Context) : (s.modCtx c g).issue = s.issue := rfl
@[simp] theorem modCtx_cur (s : State) (c : Nat) (g : Context → Context) : (s.modCtx c g).cur = s.cur := rfl

/-! ### modCore -/

@[simp] theorem modCore_ctxs (s : State) (c : Nat) (g : Core → Core) : (s.modCore c g).ctxs = s.ctxs := rfl
@[simp] theorem modCore_launches (s : State) (c : Nat) (g : Core → Core) : (s.modCore c g).launches = s.launches := rfl
@[simp] theorem modCore_teams (s : State) (c : Nat) (g : Core → Core) : (s.modCore c g).teams = s.teams := rfl
@[simp] theorem modCore_packs (s : State) (c : Nat) (g : Core → Core) : (s.modCore c g).packs = s.packs := rfl
@[simp] theorem modCore_fibres (s : State) (c : Nat) (g : Core → Core) : (s.modCore c g).fibres = s.fibres := rfl
@[simp] theorem modCore_dies (s : State) (c : Nat) (g : Core → Core) : (s.modCore c g).dies = s.dies := rfl
@[simp] theorem modCore_parts (s : State) (c : Nat) (g : Core → Core) : (s.modCore c g).parts = s.parts := rfl
@[simp] theorem modCore_cmds (s : State) (c : Nat) (g : Core → Core) : (s.modCore c g).cmds = s.cmds := rfl
@[simp] theorem modCore_reqs (s : State) (c : Nat) (g : Core → Core) : (s.modCore c g).reqs = s.reqs := rfl
@[simp] theorem modCore_tlb (s : State) (c : Nat) (g : Core → Core) : (s.modCore c g).tlb = s.tlb := rfl
@[simp] theorem modCore_dram (s : State) (c : Nat) (g : Core → Core) : (s.modCore c g).dram = s.dram := rfl
@[simp] theorem modCore_skeys (s : State) (c : Nat) (g : Core → Core) : (s.modCore c g).skeys = s.skeys := rfl
@[simp] theorem modCore_frames (s : State) (c : Nat) (g : Core → Core) : (s.modCore c g).frames = s.frames := rfl
@[simp] theorem modCore_mod (s : State) (c : Nat) (g : Core → Core) : (s.modCore c g).mod = s.mod := rfl
@[simp] theorem modCore_ns (s : State) (c : Nat) (g : Core → Core) : (s.modCore c g).ns = s.ns := rfl
@[simp] theorem modCore_tick (s : State) (c : Nat) (g : Core → Core) : (s.modCore c g).tick = s.tick := rfl
@[simp] theorem modCore_ended (s : State) (c : Nat) (g : Core → Core) : (s.modCore c g).ended = s.ended := rfl
@[simp] theorem modCore_agenda (s : State) (c : Nat) (g : Core → Core) : (s.modCore c g).agenda = s.agenda := rfl
@[simp] theorem modCore_issue (s : State) (c : Nat) (g : Core → Core) : (s.modCore c g).issue = s.issue := rfl
@[simp] theorem modCore_cur (s : State) (c : Nat) (g : Core → Core) : (s.modCore c g).cur = s.cur := rfl

/-! ### modDie -/

@[simp] theorem modDie_ctxs (s : State) (d : Nat) (g : Die → Die) : (s.modDie d g).ctxs = s.ctxs := rfl
@[simp] theorem modDie_launches (s : State) (d : Nat) (g : Die → Die) : (s.modDie d g).launches = s.launches := rfl
@[simp] theorem modDie_teams (s : State) (d : Nat) (g : Die → Die) : (s.modDie d g).teams = s.teams := rfl
@[simp] theorem modDie_packs (s : State) (d : Nat) (g : Die → Die) : (s.modDie d g).packs = s.packs := rfl
@[simp] theorem modDie_fibres (s : State) (d : Nat) (g : Die → Die) : (s.modDie d g).fibres = s.fibres := rfl
@[simp] theorem modDie_cores (s : State) (d : Nat) (g : Die → Die) : (s.modDie d g).cores = s.cores := rfl
@[simp] theorem modDie_parts (s : State) (d : Nat) (g : Die → Die) : (s.modDie d g).parts = s.parts := rfl
@[simp] theorem modDie_cmds (s : State) (d : Nat) (g : Die → Die) : (s.modDie d g).cmds = s.cmds := rfl
@[simp] theorem modDie_reqs (s : State) (d : Nat) (g : Die → Die) : (s.modDie d g).reqs = s.reqs := rfl
@[simp] theorem modDie_tlb (s : State) (d : Nat) (g : Die → Die) : (s.modDie d g).tlb = s.tlb := rfl
@[simp] theorem modDie_dram (s : State) (d : Nat) (g : Die → Die) : (s.modDie d g).dram = s.dram := rfl
@[simp] theorem modDie_skeys (s : State) (d : Nat) (g : Die → Die) : (s.modDie d g).skeys = s.skeys := rfl
@[simp] theorem modDie_frames (s : State) (d : Nat) (g : Die → Die) : (s.modDie d g).frames = s.frames := rfl
@[simp] theorem modDie_mod (s : State) (d : Nat) (g : Die → Die) : (s.modDie d g).mod = s.mod := rfl
@[simp] theorem modDie_ns (s : State) (d : Nat) (g : Die → Die) : (s.modDie d g).ns = s.ns := rfl
@[simp] theorem modDie_tick (s : State) (d : Nat) (g : Die → Die) : (s.modDie d g).tick = s.tick := rfl
@[simp] theorem modDie_ended (s : State) (d : Nat) (g : Die → Die) : (s.modDie d g).ended = s.ended := rfl
@[simp] theorem modDie_agenda (s : State) (d : Nat) (g : Die → Die) : (s.modDie d g).agenda = s.agenda := rfl
@[simp] theorem modDie_issue (s : State) (d : Nat) (g : Die → Die) : (s.modDie d g).issue = s.issue := rfl
@[simp] theorem modDie_cur (s : State) (d : Nat) (g : Die → Die) : (s.modDie d g).cur = s.cur := rfl

/-! ### modMod -/

@[simp] theorem modMod_ctxs (s : State) (g : Module → Module) : (s.modMod g).ctxs = s.ctxs := rfl
@[simp] theorem modMod_launches (s : State) (g : Module → Module) : (s.modMod g).launches = s.launches := rfl
@[simp] theorem modMod_teams (s : State) (g : Module → Module) : (s.modMod g).teams = s.teams := rfl
@[simp] theorem modMod_packs (s : State) (g : Module → Module) : (s.modMod g).packs = s.packs := rfl
@[simp] theorem modMod_fibres (s : State) (g : Module → Module) : (s.modMod g).fibres = s.fibres := rfl
@[simp] theorem modMod_cores (s : State) (g : Module → Module) : (s.modMod g).cores = s.cores := rfl
@[simp] theorem modMod_dies (s : State) (g : Module → Module) : (s.modMod g).dies = s.dies := rfl
@[simp] theorem modMod_parts (s : State) (g : Module → Module) : (s.modMod g).parts = s.parts := rfl
@[simp] theorem modMod_cmds (s : State) (g : Module → Module) : (s.modMod g).cmds = s.cmds := rfl
@[simp] theorem modMod_reqs (s : State) (g : Module → Module) : (s.modMod g).reqs = s.reqs := rfl
@[simp] theorem modMod_tlb (s : State) (g : Module → Module) : (s.modMod g).tlb = s.tlb := rfl
@[simp] theorem modMod_dram (s : State) (g : Module → Module) : (s.modMod g).dram = s.dram := rfl
@[simp] theorem modMod_skeys (s : State) (g : Module → Module) : (s.modMod g).skeys = s.skeys := rfl
@[simp] theorem modMod_frames (s : State) (g : Module → Module) : (s.modMod g).frames = s.frames := rfl
@[simp] theorem modMod_ns (s : State) (g : Module → Module) : (s.modMod g).ns = s.ns := rfl
@[simp] theorem modMod_tick (s : State) (g : Module → Module) : (s.modMod g).tick = s.tick := rfl
@[simp] theorem modMod_ended (s : State) (g : Module → Module) : (s.modMod g).ended = s.ended := rfl
@[simp] theorem modMod_agenda (s : State) (g : Module → Module) : (s.modMod g).agenda = s.agenda := rfl
@[simp] theorem modMod_issue (s : State) (g : Module → Module) : (s.modMod g).issue = s.issue := rfl
@[simp] theorem modMod_cur (s : State) (g : Module → Module) : (s.modMod g).cur = s.cur := rfl

/-! ### Reads of the parts -/

@[simp] theorem fibre?_setFibre (s : State) (f : Nat) (x : Fibre) : (s.setFibre f x).fibre? f = some x := by
  simp [State.fibre?, State.setFibre]

theorem fibre?_setFibre_ne (s : State) {f g : Nat} (x : Fibre) (h : g ≠ f) : (s.setFibre f x).fibre? g = s.fibre? g := by
  simp [State.fibre?, State.setFibre, mapGet_mapSet_ne _ _ h]

@[simp] theorem fibre?_modFibre (s : State) (f : Nat) (g : Fibre → Fibre) : (s.modFibre f g).fibre? f = (s.fibre? f).map g := by
  simp [State.fibre?, State.modFibre]

theorem fibre?_modFibre_ne (s : State) {f e : Nat} (g : Fibre → Fibre) (h : e ≠ f) : (s.modFibre f g).fibre? e = s.fibre? e := by
  simp [State.fibre?, State.modFibre, mapGet_mapMod_ne _ _ h]

theorem fibre_eq (s : State) {f : Nat} {x : Fibre} (h : s.fibre? f = some x) : s.fibre f = x := by
  simp [State.fibre, mapGetD, show mapGet s.fibres f = some x from h]

@[simp] theorem fibre_modFibre (s : State) {f : Nat} {x : Fibre} (g : Fibre → Fibre) (h : s.fibre? f = some x) :
    (s.modFibre f g).fibre f = g x := fibre_eq _ (by simp [h])

theorem fibre_modFibre_ne (s : State) {f e : Nat} (g : Fibre → Fibre) (h : e ≠ f) : (s.modFibre f g).fibre e = s.fibre e := by
  simp [State.fibre, State.modFibre, mapGetD, mapGet_mapMod_ne _ _ h]

@[simp] theorem team?_modTeam (s : State) (t : Nat) (g : Team → Team) : (s.modTeam t g).team? t = (s.team? t).map g := by
  simp [State.team?, State.modTeam]

theorem team_modTeam_ne (s : State) {t u : Nat} (g : Team → Team) (h : u ≠ t) : (s.modTeam t g).team u = s.team u := by
  simp [State.team, State.modTeam, mapGetD, mapGet_mapMod_ne _ _ h]

@[simp] theorem pack_modPack (s : State) (p : Nat) (g : Pack → Pack) : (s.modPack p g).pack p = g (s.pack p) := by
  simp [State.pack, State.modPack]

theorem pack_modPack_ne (s : State) {p q : Nat} (g : Pack → Pack) (h : q ≠ p) : (s.modPack p g).pack q = s.pack q := by
  simp [State.pack, State.modPack, mapGetD_mapModD_ne _ _ _ _ h]

@[simp] theorem core_modCore (s : State) (c : Nat) (g : Core → Core) : (s.modCore c g).core c = g (s.core c) := by
  simp [State.core, State.modCore]

theorem core_modCore_ne (s : State) {c d : Nat} (g : Core → Core) (h : d ≠ c) : (s.modCore c g).core d = s.core d := by
  simp [State.core, State.modCore, mapGetD_mapModD_ne _ _ _ _ h]

@[simp] theorem die_modDie (s : State) (d : Nat) (g : Die → Die) : (s.modDie d g).die d = g (s.die d) := by
  simp [State.die, State.modDie]

@[simp] theorem ctx?_modCtx (s : State) (c : Nat) (g : Context → Context) : (s.modCtx c g).ctx? c = (s.ctx? c).map g := by
  simp [State.ctx?, State.modCtx]

theorem ctx_modCtx_ne (s : State) {c d : Nat} (g : Context → Context) (h : d ≠ c) : (s.modCtx c g).ctx d = s.ctx d := by
  simp [State.ctx, State.modCtx, mapGetD, mapGet_mapMod_ne _ _ h]

@[simp] theorem launch?_modLaunch (s : State) (k : Nat) (g : Launch → Launch) :
    (s.modLaunch k g).launch? k = (s.launch? k).map g := by
  simp [State.launch?, State.modLaunch]

@[simp] theorem modMod_mod (s : State) (g : Module → Module) : (s.modMod g).mod = g s.mod := rfl

/-- Two changes of one fibre are one change. -/
theorem modFibre_modFibre (s : State) (f : Nat) (g h : Fibre → Fibre) :
    (s.modFibre f g).modFibre f h = s.modFibre f (fun x => h (g x)) := by
  have e : mapMod (mapMod s.fibres f g) f h = mapMod s.fibres f (fun x => h (g x)) := by
    unfold mapMod
    cases hk : mapGet s.fibres f with
    | none => simp [hk]
    | some v => simp [mapSet_mapSet]
  simp [State.modFibre, e]

end State
end Sys2Proof.Machine
end

