-- ==== Sys2Proof/Laws/Run.lean ====
section
/-!
SUPPORT. What running an instruction over its batch does (R64, R65, R83), said once: over one lane, and over many lanes when the
instruction changes nothing but the fibre of each lane.
-/
namespace Sys2Proof.Machine

/-! ### Lanes and fibres -/

theorem Batch.fib_inj (b : Batch) {l m : Nat} (h : b.fib l = b.fib m) : l = m := by
  simp [Batch.fib, fibKey] at h; omega

theorem Batch.fibs_nodup (b : Batch) {ls : List Nat} (h : ls.Nodup) : (ls.map b.fib).Nodup :=
  h.map (fun _ _ e => b.fib_inj e)

theorem past_eq (s : State) (b : Batch) (l : Nat) : s.pass (b.fib l) b.pc = past s b l := rfl

theorem State.pass_eq (s : State) (f : Nat) (pc : Word) : s.pass f pc = s.modFibre f (fun x => x.passed pc) := rfl

@[simp] theorem State.laneOf_b (s : State) (b : Batch) (l : Nat) : (s.laneOf b l).b = b := rfl
@[simp] theorem State.laneOf_l (s : State) (b : Batch) (l : Nat) : (s.laneOf b l).l = l := rfl
@[simp] theorem State.laneOf_f (s : State) (b : Batch) (l : Nat) : (s.laneOf b l).f = b.fib l := rfl

/-! ### Changes of one fibre -/

/-- Changes of fibres alone compose. -/
theorem fibres_trans {s t u : State} (a : t = { s with fibres := t.fibres }) (b : u = { t with fibres := u.fibres }) :
    u = { s with fibres := u.fibres } := by
  generalize t.fibres = y at a
  subst a
  exact b

theorem OnlyFibre.refl (s : State) (f : Nat) : OnlyFibre s s f (fun x => x) := ⟨by simp, fun _ _ => rfl, rfl⟩

theorem OnlyFibre.trans {s t u : State} {f : Nat} {g h : Fibre → Fibre} (a : OnlyFibre s t f g) (b : OnlyFibre t u f h) :
    OnlyFibre s u f (fun x => h (g x)) := by
  refine ⟨?_, ?_, ?_⟩
  · rw [b.this_, a.this_, Option.map_map]; rfl
  · intro e he; rw [b.others e he, a.others e he]
  · exact fibres_trans a.rest b.rest

theorem OnlyFibre.of_modFibre (s : State) (f : Nat) (g : Fibre → Fibre) : OnlyFibre s (s.modFibre f g) f g :=
  ⟨by simp, fun _ he => State.fibre?_modFibre_ne _ _ he, rfl⟩

theorem State.put1_only (s : State) (ln : Ln) (cls : Cls) (sp : Spec) (v : Word) (h : namesK sp = false) :
    OnlyFibre s (s.put1 ln cls sp v) ln.f (fun x => x.put1 cls sp v) := by
  cases sp <;> first | exact OnlyFibre.of_modFibre _ _ _ | exact OnlyFibre.refl _ _ | simp [namesK] at h

theorem State.putFrom_only (s : State) (ln : Ln) (cls : Cls) (sp : Spec) (i : Nat) (ws : List Word) (h : namesK sp = false) :
    OnlyFibre s (s.putFrom ln cls sp i ws) ln.f (fun x => x.putFrom cls sp i ws) := by
  induction ws generalizing s i with
  | nil => exact OnlyFibre.refl _ _
  | cons w ws ih =>
    simp only [State.putFrom, Fibre.putFrom]
    refine OnlyFibre.trans (State.put1_only _ _ _ _ _ ?_) (ih _ _)
    cases sp <;> simp only [] <;> first | rfl | (split <;> rfl) | simp [namesK] at h

/-- dst(F, L, ty, v) changes nothing but the lane's fibre, when D is no k register. -/
theorem State.putD_only (s : State) (ln : Ln) (cls : Cls) (sp : Spec) (n v : Nat) (h : namesK sp = false) :
    OnlyFibre s (s.putD ln cls sp n v) ln.f (fun x => x.putD cls sp n v) := by
  cases sp with
  | p i => exact State.put1_only s ln cls (.p i) _ rfl
  | _ => exact State.putFrom_only s ln cls _ 0 _ h

/-- A change of each of several fibres, where each change may use that only fibres have changed since, and its own not. -/
theorem foldl_onlyFibre {ι : Type} (ls : List ι) (key : ι → Nat) (h : ι → Fibre → Fibre) (F : State → ι → State) (s₀ s : State)
    (hF : ∀ t, t = { s₀ with fibres := t.fibres } → ∀ i ∈ ls, t.fibre? (key i) = s₀.fibre? (key i) →
      OnlyFibre t (F t i) (key i) (h i))
    (hs : s = { s₀ with fibres := s.fibres }) (hk : ∀ i ∈ ls, s.fibre? (key i) = s₀.fibre? (key i)) (hn : (ls.map key).Nodup) :
    (∀ i ∈ ls, (ls.foldl F s).fibre? (key i) = (s.fibre? (key i)).map (h i)) ∧
    (∀ f, f ∉ ls.map key → (ls.foldl F s).fibre? f = s.fibre? f) ∧
    ls.foldl F s = { s with fibres := (ls.foldl F s).fibres } := by
  induction ls generalizing s with
  | nil => simp
  | cons j ls ih =>
    simp only [List.map_cons, List.nodup_cons] at hn
    have hj := hF s hs j (by simp) (hk j (by simp))
    have ne : ∀ i ∈ ls, key i ≠ key j := fun i hi e => hn.1 (e ▸ List.mem_map_of_mem hi)
    have hs' : F s j = { s₀ with fibres := (F s j).fibres } := fibres_trans hs hj.rest
    obtain ⟨h1, h2, h3⟩ := ih (F s j) (fun t ht i hi => hF t ht i (by simp [hi])) hs'
      (fun i hi => by rw [hj.others _ (ne i hi), hk i (by simp [hi])]) hn.2
    refine ⟨?_, ?_, ?_⟩
    · intro i hi
      rcases List.mem_cons.mp hi with rfl | hi
      · rw [List.foldl_cons, h2 _ hn.1, hj.this_]
      · rw [List.foldl_cons, h1 i hi, hj.others _ (ne i hi)]
    · intro f hf
      simp only [List.map_cons, List.mem_cons, not_or] at hf
      rw [List.foldl_cons, h2 f hf.2, hj.others _ hf.1]
    · rw [List.foldl_cons]
      exact fibres_trans hj.rest h3

/-- A change of each of several fibres, each by a function of its own. -/
theorem foldl_modFibre {ι : Type} (ls : List ι) (key : ι → Nat) (h : ι → Fibre → Fibre) (s : State)
    (hn : (ls.map key).Nodup) :
    (∀ i ∈ ls, (ls.foldl (fun s i => s.modFibre (key i) (h i)) s).fibre? (key i) = (s.fibre? (key i)).map (h i)) ∧
    (∀ f, f ∉ ls.map key → (ls.foldl (fun s i => s.modFibre (key i) (h i)) s).fibre? f = s.fibre? f) ∧
    ls.foldl (fun s i => s.modFibre (key i) (h i)) s =
      { s with fibres := (ls.foldl (fun s i => s.modFibre (key i) (h i)) s).fibres } :=
  foldl_onlyFibre ls key h (fun s i => s.modFibre (key i) (h i)) s s (fun _ _ _ _ _ => OnlyFibre.of_modFibre _ _ _) rfl
    (fun _ _ => rfl) hn

/-! ### Tokens -/

theorem State.tokenAcquires_none (s : State) (n : Need) (f : Nat) (h : (s.fibre f).tokAcq = []) : s.tokenAcquires n f = s := by
  simp [State.tokenAcquires, h, mapHas]

/-! ### One lane -/

/-- An instruction over a batch of one lane that passes the checks: its body over that lane, moved on. -/
theorem runBatch_lone {s : State} {n : Need} {b : Batch} {l : Nat} {x : Fibre} (h : Lone s n b l x)
    (body : List (Ln × Vals) → State → State) :
    runBatch n body s = body [(s.laneOf b l, s.readVals n b l)] (past s b l) := by
  rw [← past_eq]
  have ht : (((s.pass (b.fib l) b.pc)).fibre (b.fib l)).tokAcq = [] := by
    rw [State.pass_eq, State.fibre_modFibre s _ h.fibre]; exact h.token
  have := State.tokenAcquires_none (s.pass (b.fib l) b.pc) n (b.fib l) ht
  simp [runBatch, h.cur, h.lanes, h.fate, State.settleLane,  this]

theorem runLanes_lone {s : State} {n : Need} {b : Batch} {l : Nat} {x : Fibre} (h : Lone s n b l x)
    (body : Ln → Vals → State → State) :
    runLanes n body s = body (s.laneOf b l) (s.readVals n b l) (past s b l) := by
  simp [runLanes, runBatch_lone h]

/-- The same for an instruction with checks of its own, which the lane passes. -/
theorem runChecked_lone {α : Type} {s : State} {n : Need} {b : Batch} {l : Nat} {x : Fibre} (h : Lone s n b l x)
    {prep : Ln → Vals → State → Prep α} {body : Ln → Vals → α → State → State} {a : α}
    (hp : prep (s.laneOf b l) (s.readVals n b l) (past s b l) = .ok a) :
    runChecked n prep body s = body (s.laneOf b l) (s.readVals n b l) a (past s b l) := by
  simp [runChecked, runBatch_lone h, hp]

/-! ### Many lanes -/

/-- The lanes of a quiet batch with their operands, as the body of an instruction receives them. -/
def runners (s : State) (n : Need) (b : Batch) : List (Ln × Vals) :=
  (goers s n b).map (fun l =>
    (s.laneOf b l, s.readVals n b l))

theorem movedOn_go {s : State} {n : Need} {b : Batch} {l : Nat} (h : s.fate n b l = .go) :
    movedOn s n b l = fun x => x.passed b.pc := by
  funext x; simp [movedOn, h]

theorem movedOn_skip {s : State} {n : Need} {b : Batch} {l : Nat} (h : s.fate n b l ≠ .go) :
    movedOn s n b l = fun x => x.skipped b.pc := by
  funext x; simp [movedOn, h]

theorem settle_fold (s : State) (n : Need) (b : Batch) (ls : List Nat) (t : State)
    (h : ∀ l ∈ ls, s.fate n b l = .go ∨ s.fate n b l = .off ∨ s.fate n b l = .nop) :
    (ls.map (fun l => (l, s.fate n b l))).foldl
        (fun u e => u.settleLane (s.laneOf b e.1) e.2) t =
      ls.foldl (fun t l => t.modFibre (b.fib l) (movedOn s n b l)) t := by
  induction ls generalizing t with
  | nil => rfl
  | cons l ls ih =>
    have hl := h l (by simp)
    simp only [List.map_cons, List.foldl_cons]
    rw [show (State.settleLane t (s.laneOf b l) (s.fate n b l)) =
      t.modFibre (b.fib l) (movedOn s n b l) by
        rcases hl with e | e | e
        · rw [e, movedOn_go e]; rfl
        all_goals rw [e, movedOn_skip (by simp [e])]; rfl]
    exact ih _ (fun m hm => h m (by simp [hm]))

theorem tokenAcquires_fold (n : Need) (ls : List (Ln × Vals)) (t : State) (h : ∀ e ∈ ls, (t.fibre e.1.f).tokAcq = []) :
    ls.foldl (fun s e => s.tokenAcquires n e.1.f) t = t := by
  induction ls with
  | nil => rfl
  | cons e ls ih =>
    rw [List.foldl_cons, State.tokenAcquires_none _ _ _ (h e (by simp))]
    exact ih (fun d hd => h d (by simp [hd]))

theorem goers_eq (s : State) (n : Need) (b : Batch) (ls : List Nat) :
    (((ls.map (fun l => (l, s.fate n b l))).filter (fun e => e.2 == .go)).map (·.1)) = ls.filter (fun l => s.fate n b l == .go) := by
  induction ls with
  | nil => rfl
  | cons l ls ih =>
    by_cases h : (s.fate n b l == Fate.go) = true <;> simp [h, ih]

/-- An instruction over a quiet batch: its body over the lanes that run it, after every lane has moved on. -/
theorem runBatch_quiet {s : State} {n : Need} {b : Batch} (h : Quiet s n b) (body : List (Ln × Vals) → State → State) :
    runBatch n body s = body (runners s n b) (settled s n b) := by
  obtain ⟨h1, h2, h3⟩ := foldl_modFibre b.lanes b.fib (movedOn s n b) s (b.fibs_nodup h.once)
  have ht : ∀ e ∈ runners s n b, ((settled s n b).fibre e.1.f).tokAcq = [] := by
    intro e he
    simp only [runners, List.mem_map] at he
    obtain ⟨l, hl, rfl⟩ := he
    have hl' : l ∈ b.lanes := (List.mem_filter.mp hl).1
    have hf : s.fate n b l = .go := by simpa using (List.mem_filter.mp hl).2
    obtain ⟨x, hx, hx'⟩ := h.live l hl'
    have : (settled s n b).fibre? (b.fib l) = some (x.passed b.pc) := by
      have := h1 l hl'; rw [hx, movedOn_go hf] at this; exact this
    rw [show (s.laneOf b l).f = b.fib l from rfl, State.fibre_eq _ this]; exact hx'
  simp only [runBatch, h.cur, goers_eq]
  rw [settle_fold s n b b.lanes s h.fates]
  have := tokenAcquires_fold n (runners s n b) (settled s n b) ht
  simp only [runners, goers, settled] at this ⊢
  rw [this]

/-- A run over a quiet batch whose body changes nothing but the fibre of each lane that runs it: `g` gives the change. The change
of a lane may use that nothing but fibres has changed since the instruction began, and that its own fibre has but moved on. -/
theorem runBatch_local {s : State} {n : Need} {b : Batch} (h : Quiet s n b) (step : Ln × Vals → State → State)
    (g : Nat → Fibre → Fibre)
    (hb : ∀ e ∈ runners s n b, ∀ t, t = { s with fibres := t.fibres } →
      t.fibre? e.1.f = (s.fibre? e.1.f).map (fun x => x.passed b.pc) → OnlyFibre t (step e t) e.1.f (g e.1.l)) :
    LaneResult s (runBatch n (fun lns s => lns.foldl (fun s e => step e s) s) s) n b g := by
  rw [runBatch_quiet h]
  generalize hu : (runners s n b).foldl (fun s e => step e s) (settled s n b) = u
  obtain ⟨a1, a2, a3⟩ := foldl_modFibre b.lanes b.fib (movedOn s n b) s (b.fibs_nodup h.once)
  have hg : (goers s n b).Nodup := h.once.filter _
  have mem : ∀ l, l ∈ goers s n b ↔ l ∈ b.lanes ∧ s.fate n b l = .go := by intro l; simp [goers]
  have hk : (runners s n b).map (fun e => e.1.f) = (goers s n b).map b.fib := by simp [runners, Function.comp_def]
  have hs : settled s n b = { s with fibres := (settled s n b).fibres } := a3
  have hset : ∀ e ∈ runners s n b, (settled s n b).fibre? e.1.f = (s.fibre? e.1.f).map (fun x => x.passed b.pc) := by
    intro e he
    simp only [runners, List.mem_map] at he
    obtain ⟨l, hl, rfl⟩ := he
    rw [← movedOn_go ((mem l).mp hl).2]
    exact a1 l ((mem l).mp hl).1
  obtain ⟨b1, b2, b3⟩ := foldl_onlyFibre (runners s n b) (fun e => e.1.f) (fun e => g e.1.l) (fun s e => step e s) (settled s n b)
    (settled s n b)
    (fun t ht e he hf => hb e he t (fibres_trans hs ht) (by rw [hf]; exact hset e he)) rfl (fun _ _ => rfl)
    (by rw [hk]; exact b.fibs_nodup hg)
  rw [hu] at b1 b2 b3
  rw [hk] at b2
  refine ⟨?_, ?_, ?_, ?_⟩
  · intro l hl hf
    have := b1 (s.laneOf b l, s.readVals n b l)
      (by simp only [runners, List.mem_map]; exact ⟨l, (mem l).mpr ⟨hl, hf⟩, rfl⟩)
    simp only [State.laneOf_f, State.laneOf_l] at this
    rw [this, settled, a1 l hl, movedOn_go hf, Option.map_map]; rfl
  · intro l hl hf
    rw [b2 _ (by
      intro hm
      obtain ⟨m, hm', he⟩ := List.mem_map.mp hm
      have := b.fib_inj he; subst this
      exact hf ((mem _).mp hm').2)]
    rw [← movedOn_skip hf]
    exact a1 l hl
  · intro f hf
    rw [b2 _ (by
      intro hm
      obtain ⟨m, hm, he⟩ := List.mem_map.mp hm
      exact hf m ((mem _).mp hm).1 he.symm)]
    exact a2 f (by
      intro hm
      obtain ⟨m, hm, he⟩ := List.mem_map.mp hm
      exact hf m hm he.symm)
  · exact fibres_trans hs b3

/-- An instruction run lane by lane over a quiet batch, whose body changes nothing but the lane's fibre: `g` gives the change from
the lane and its operands. -/
theorem runLanes_local {s : State} {n : Need} {b : Batch} (h : Quiet s n b) (body : Ln → Vals → State → State)
    (g : Nat → Vals → Fibre → Fibre)
    (hb : ∀ (ln : Ln) (v : Vals) (t : State), ln.b = b → ln.f = b.fib ln.l → ln.l ∈ b.lanes → t = { s with fibres := t.fibres } →
      t.fibre? ln.f = (s.fibre? ln.f).map (fun x => x.passed b.pc) → OnlyFibre t (body ln v t) ln.f (g ln.l v)) :
    LaneResult s (runLanes n body s) n b (fun l x => g l (s.readVals n b l) x) := by
  refine runBatch_local h (fun e => body e.1 e.2) _ ?_
  intro e he t ht hf
  simp only [runners, List.mem_map] at he
  obtain ⟨l, hl, rfl⟩ := he
  exact hb _ _ _ rfl rfl (List.mem_filter.mp hl).1 ht hf

end Sys2Proof.Machine
end

