-- ==== Sys2Proof/Laws/Home.lean ====
section
/-!
SUPPORT. What the shared operations on home, on on-chip places and on the registers of a pack and a team can change: each lemma names the
fields of State that its operation writes, so that a proof about another field need not unfold it.
-/
namespace Sys2Proof.Machine
namespace State

/-! ### Home (R255-R257, R268) -/

/-- A write of DRAM changes DRAM and the record of the sectors' keys. -/
theorem dramWrite_frame (s : State) (key pa : Nat) (bs : List Byte) :
    s.dramWrite key pa bs = { s with dram := (s.dramWrite key pa bs).dram, skeys := (s.dramWrite key pa bs).skeys } := by
  induction bs generalizing s pa with
  | nil => rfl
  | cons b bs ih => rw [dramWrite, ih]; rfl

/-- A remote copy that takes a write in, or becomes as new as home, or is read past, is part of its die. -/
theorem copyUpdate_frame (s : State) (die pa key : Nat) (bs : List Byte) :
    s.copyUpdate die pa key bs = { s with dies := (s.copyUpdate die pa key bs).dies } := by
  unfold copyUpdate; split <;> rfl

theorem copyRenew_frame (s : State) (die pa key : Nat) (bs : List Byte) :
    s.copyRenew die pa key bs = { s with dies := (s.copyRenew die pa key bs).dies } := by
  unfold copyRenew; split <;> rfl

theorem seeHome_frame (s : State) (f pa key : Nat) : s.seeHome f pa key = { s with dies := (s.seeHome f pa key).dies } := rfl

/-- A write to a range wakes watch slots, which belong to cores. -/
theorem touchWatch_frame (s : State) (sp sec : Nat) : s.touchWatch sp sec = { s with cores := (s.touchWatch sp sec).cores } := rfl

theorem touchRange_frame (s : State) (sp off n : Nat) : s.touchRange sp off n = { s with cores := (s.touchRange sp off n).cores } := by
  unfold touchRange
  generalize List.range' (off / 64) _ = ks
  induction ks generalizing s with
  | nil => rfl
  | cons k ks ih => rw [List.foldl_cons, ih]; rfl

/-- The parts of the state that what is done at home may change. -/
def HomeOnly (s t : State) : Prop := t = { s with cores := t.cores, dies := t.dies, dram := t.dram, skeys := t.skeys }

theorem HomeOnly.refl (s : State) : s.HomeOnly s := rfl

theorem HomeOnly.trans {s t u : State} (a : s.HomeOnly t) (b : t.HomeOnly u) : s.HomeOnly u := by
  unfold HomeOnly at a b ⊢
  generalize t.cores = c at a
  generalize t.dies = d at a
  generalize t.dram = m at a
  generalize t.skeys = k at a
  subst a
  exact b

theorem HomeOnly.ctxs {s t : State} (h : s.HomeOnly t) : t.ctxs = s.ctxs := by rw [h]
theorem HomeOnly.launches {s t : State} (h : s.HomeOnly t) : t.launches = s.launches := by rw [h]
theorem HomeOnly.teams {s t : State} (h : s.HomeOnly t) : t.teams = s.teams := by rw [h]
theorem HomeOnly.packs {s t : State} (h : s.HomeOnly t) : t.packs = s.packs := by rw [h]
theorem HomeOnly.fibres {s t : State} (h : s.HomeOnly t) : t.fibres = s.fibres := by rw [h]
theorem HomeOnly.cmds {s t : State} (h : s.HomeOnly t) : t.cmds = s.cmds := by rw [h]
theorem HomeOnly.reqs {s t : State} (h : s.HomeOnly t) : t.reqs = s.reqs := by rw [h]
theorem HomeOnly.tlb {s t : State} (h : s.HomeOnly t) : t.tlb = s.tlb := by rw [h]
theorem HomeOnly.frames {s t : State} (h : s.HomeOnly t) : t.frames = s.frames := by rw [h]
theorem HomeOnly.mod {s t : State} (h : s.HomeOnly t) : t.mod = s.mod := by rw [h]
theorem HomeOnly.issue {s t : State} (h : s.HomeOnly t) : t.issue = s.issue := by rw [h]
theorem HomeOnly.cur {s t : State} (h : s.HomeOnly t) : t.cur = s.cur := by rw [h]

theorem dramWrite_homeOnly (s : State) (key pa : Nat) (bs : List Byte) : s.HomeOnly (s.dramWrite key pa bs) := by
  rw [dramWrite_frame]; rfl

theorem copyUpdate_homeOnly (s : State) (die pa key : Nat) (bs : List Byte) : s.HomeOnly (s.copyUpdate die pa key bs) := by
  rw [copyUpdate_frame]; rfl

theorem touchWatch_homeOnly (s : State) (sp sec : Nat) : s.HomeOnly (s.touchWatch sp sec) := rfl

theorem combine_homeOnly (s : State) (key sector n : Nat) (xs : List (Nat × Comm)) : s.HomeOnly (s.combine key sector n xs) := by
  induction n generalizing s xs with
  | zero => exact .refl s
  | succ n ih =>
    unfold combine
    split
    · exact .refl s
    · exact ((dramWrite_homeOnly ..).trans (copyUpdate_homeOnly ..)).trans (ih ..)

/-- A recall, a read and a write at home change cores (what they hold Update-only, and watch slots), dies (their remote copies) and
DRAM. -/
theorem recallSector_homeOnly (s : State) (pa key : Nat) : s.HomeOnly (s.recallSector pa key) := by
  unfold recallSector
  dsimp only
  split
  · exact .refl s
  · refine HomeOnly.trans ?_ (touchWatch_homeOnly _ _ _)
    exact HomeOnly.trans (by rfl) (combine_homeOnly _ _ _ _ _)

theorem homeRead_homeOnly (s : State) (pa key n : Nat) : s.HomeOnly (s.homeRead pa key n).2 := recallSector_homeOnly s pa key

theorem homeWrite_homeOnly (s : State) (die pa key : Nat) (bs : List Byte) : s.HomeOnly (s.homeWrite die pa key bs) :=
  ((recallSector_homeOnly _ _ _).trans (dramWrite_homeOnly _ _ _ _)).trans ((copyUpdate_homeOnly _ _ _ _ _).trans (touchWatch_homeOnly _ _ _))

/-! ### On-chip places (R247) -/

/-- A write of on-chip bytes changes cores, dies or, where its team is saved, the team. -/
theorem placeWrite_frame (s : State) (bs : List Byte) (p : Place) : s.placeWrite bs p =
    { s with cores := (s.placeWrite bs p).cores, dies := (s.placeWrite bs p).dies, teams := (s.placeWrite bs p).teams } := by
  cases p with
  | scratch c off => rw [placeWrite, touchRange_frame]; rfl
  | tundish d off => rw [placeWrite, touchRange_frame]; rfl
  | saved t tun off => rfl

/-! ### k and m registers (R162, R184) -/

/-- A change of fibres, one after another, is a change of fibres. -/
theorem foldl_fibres {ι : Type} (F : State → ι → State) (h : ∀ s i, F s i = { s with fibres := (F s i).fibres }) (ls : List ι) (s : State) :
    ls.foldl F s = { s with fibres := (ls.foldl F s).fibres } := by
  induction ls generalizing s with
  | nil => rfl
  | cons l ls ih => exact fibres_trans (h s l) (ih (F s l))

/-- The rival of a k write is a write that stands in the team's history, of another pack and of the batch's clk. -/
theorem kRival_some {s : State} {b : Batch} {i : Nat} {w : KWrite} (h : s.kRival b i = some w) :
    (s.kHist b.team i).getLast? = some w ∧ w.clk = some b.clk ∧ w.pack ≠ b.pack := by
  simpa [kRival, Option.filter_eq_some_iff] using h

theorem putK_frame (s : State) (b : Batch) (f : Nat) (cls : Cls) (i : Nat) (v : Word) :
    s.putK b f cls i v = { s with teams := (s.putK b f cls i v).teams, fibres := (s.putK b f cls i v).fibres } := by
  unfold putK
  dsimp only
  rw [foldl_fibres _ (fun _ _ => rfl)]
  rfl

theorem putM_frame (s : State) (b : Batch) (i : Nat) (v : Word) :
    s.putM b i v = { s with packs := (s.putM b i v).packs, fibres := (s.putM b i v).fibres } := by
  unfold putM
  dsimp only
  rw [foldl_fibres _ (fun _ _ => rfl)]
  rfl

end State

/-! ### Room (R126) -/

/-- A range that is taken leaves none of its units free. -/
theorem Gaps.cut_apart (g : Gaps) (a n : Nat) : ∀ e ∈ g.cut a n, e.1 + e.2 ≤ a ∨ a + n ≤ e.1 := by
  intro e he
  simp only [Gaps.cut, List.mem_filter, List.mem_flatMap] at he
  obtain ⟨⟨x, -, hx⟩, hn⟩ := he
  simp only [List.mem_cons, List.not_mem_nil, or_false, bne_iff_ne, ne_eq] at hx hn
  rcases hx with rfl | rfl <;> simp only at hn ⊢ <;> omega

end Sys2Proof.Machine
end

