-- ==== Sys2Proof/Laws/Mem.lean ====
section
/-!
SUPPORT. Laws of memory (log 9): what a read finds after a write, and that every operation keeps the canonical form.
-/
namespace Sys2Proof.Machine

/-! ### The canonical form -/

/-- The form of a memory with a first entry. -/
theorem Memory.wf_cons {c : Host.Cell} {m : Memory} :
    Memory.wf (c :: m) = true ↔ c.2 ≠ unlisted ∧ (∀ d ∈ m.head?, c.1 < d.1) ∧ Memory.wf m = true := by
  cases m with
  | nil => simp [Memory.wf]
  | cons d m => simp [Memory.wf]; tauto

/-- Every listed address lies above the first. -/
theorem Memory.lt_of_wf {c : Host.Cell} {m : Memory} (h : Memory.wf (c :: m) = true) : ∀ d ∈ m, c.1 < d.1 := by
  induction m generalizing c with
  | nil => simp
  | cons e m ih =>
    rw [Memory.wf_cons] at h
    have he : c.1 < e.1 := by simpa using h.2.1
    intro d hd
    rcases List.mem_cons.mp hd with rfl | hd
    · exact he
    · exact lt_trans he (ih h.2.2 d hd)

/-- An address below every listed one reads as unlisted. -/
theorem Memory.read_below {m : Memory} {a : Nat} (h : ∀ c ∈ m, a < c.1) : Memory.read m a = unlisted := by
  induction m with
  | nil => rfl
  | cons c m ih =>
    have hc : a < c.1 := h c (by simp)
    simp only [Memory.read]
    rw [if_neg (by omega)]
    exact ih (fun d hd => h d (by simp [hd]))

/-- A byte written reads back. -/
theorem Memory.read_write_same {m : Memory} (h : m.wf = true) (a : Nat) (x : Byte) : (Memory.write m a x).read a = x := by
  induction m with
  | nil => by_cases hx : x = unlisted <;> simp [Memory.write, Memory.read, hx]
  | cons c m ih =>
    obtain ⟨b, v⟩ := c
    have hlt := Memory.lt_of_wf h
    rw [Memory.wf_cons] at h
    unfold Memory.write
    split_ifs with h1 h2 h3 h4
    · subst h1; rw [Memory.read_below hlt, h2]
    · simp [Memory.read]
    · subst h4
      refine Memory.read_below ?_
      intro d hd
      rcases List.mem_cons.mp hd with rfl | hd
      · exact h3
      · exact lt_trans h3 (hlt d hd)
    · simp [Memory.read]
    · simp only [Memory.read, h1, if_false]; exact ih h.2.2

/-- A write leaves every other address alone. -/
theorem Memory.read_write_ne (m : Memory) {a b : Nat} (x : Byte) (h : b ≠ a) : (Memory.write m a x).read b = m.read b := by
  induction m with
  | nil => by_cases hx : x = unlisted <;> simp [Memory.write, Memory.read, hx, Ne.symm h]
  | cons c m ih =>
    obtain ⟨j, v⟩ := c
    unfold Memory.write
    split_ifs with h1 h2 h3 h4
    · subst h1; simp [Memory.read, Ne.symm h]
    · subst h1; simp [Memory.read, Ne.symm h]
    · rfl
    · simp [Memory.read, Ne.symm h]
    · simp only [Memory.read, ih]

/-- The first address after a write lies above a bound that the write and the memory lie above. -/
theorem Memory.head_write (m : Memory) (a : Nat) (x : Byte) (j : Nat) (hj : j < a) (h : ∀ d ∈ m, j < d.1) :
    ∀ d ∈ Memory.write m a x, j < d.1 := by
  induction m with
  | nil => unfold Memory.write; split_ifs <;> simp [hj]
  | cons c m ih =>
    obtain ⟨b, v⟩ := c
    have hb : j < b := h (b, v) (by simp)
    have ht : ∀ d ∈ m, j < d.1 := fun d hd => h d (by simp [hd])
    unfold Memory.write
    split_ifs <;> intro d hd
    · exact ht d hd
    · rcases List.mem_cons.mp hd with rfl | hd
      · exact hj
      · exact ht d hd
    · exact h d hd
    · rcases List.mem_cons.mp hd with rfl | hd
      · exact hj
      · exact h d hd
    · rcases List.mem_cons.mp hd with rfl | hd
      · exact hb
      · exact ih ht d hd

theorem Memory.mem_head {m : Memory} {d : Host.Cell} (h : d ∈ m.head?) : d ∈ m := List.mem_of_mem_head? h

/-- A write keeps the canonical form. -/
theorem Memory.wf_write {m : Memory} (h : m.wf = true) (a : Nat) (x : Byte) : (Memory.write m a x).wf = true := by
  induction m with
  | nil => by_cases hx : x = unlisted <;> simp [Memory.write, Memory.wf, hx]
  | cons c m ih =>
    obtain ⟨b, v⟩ := c
    have hlt := Memory.lt_of_wf h
    have h0 := h
    rw [Memory.wf_cons] at h
    unfold Memory.write
    split_ifs with h1 h2 h3 h4
    · exact h.2.2
    · rw [Memory.wf_cons]; exact ⟨h2, by subst h1; exact h.2.1, h.2.2⟩
    · exact h0
    · rw [Memory.wf_cons]; exact ⟨h4, by simpa using h3, h0⟩
    · rw [Memory.wf_cons]
      exact ⟨h.1, fun d hd => Memory.head_write m a x b (by omega) hlt d (Memory.mem_head hd), ih h.2.2⟩

/-- Writing bytes keeps the canonical form. -/
theorem Memory.wf_writes {m : Memory} (h : m.wf = true) (a : Nat) (bs : List Byte) : (Memory.writes m a bs).wf = true := by
  induction bs generalizing m a with
  | nil => exact h
  | cons b bs ih => exact ih (Memory.wf_write h a b) (a + 1)

/-- Keeping some of the entries keeps the canonical form. -/
theorem Memory.wf_filter {m : Memory} (h : m.wf = true) (p : Host.Cell → Bool) : Memory.wf (m.filter p) = true := by
  induction m with
  | nil => rfl
  | cons c m ih =>
    have hlt := Memory.lt_of_wf h
    rw [Memory.wf_cons] at h
    have ih := ih h.2.2
    by_cases hp : p c = true
    · simp only [List.filter_cons_of_pos hp]
      rw [Memory.wf_cons]
      exact ⟨h.1, fun d hd => hlt d (List.mem_filter.mp (Memory.mem_head hd)).1, ih⟩
    · simpa [List.filter_cons_of_neg hp] using ih

/-- Zeroing keeps the canonical form. -/
theorem Memory.wf_zero {m : Memory} (h : m.wf = true) (a n : Nat) : (Memory.zero m a n).wf = true := Memory.wf_filter h _

/-- Shifting every address down by a bound below them keeps the canonical form. -/
theorem Memory.wf_shift {m : Memory} (h : m.wf = true) (a : Nat) (ha : ∀ c ∈ m, a ≤ c.1) :
    Memory.wf (m.map (fun c => (c.1 - a, c.2))) = true := by
  induction m with
  | nil => rfl
  | cons c m ih =>
    have hlt := Memory.lt_of_wf h
    rw [Memory.wf_cons] at h
    rw [List.map_cons, Memory.wf_cons]
    refine ⟨h.1, ?_, ih h.2.2 (fun d hd => ha d (by simp [hd]))⟩
    intro d hd
    have hc := ha c (by simp)
    obtain ⟨e, he, rfl⟩ := List.mem_map.mp (List.mem_of_mem_head? hd)
    have := hlt e he
    simp only
    omega

/-- A cut is canonical. -/
theorem Memory.wf_cut {m : Memory} (h : m.wf = true) (a n : Nat) : (Memory.cut m a n).wf = true := by
  apply Memory.wf_shift (Memory.wf_filter h _)
  intro c hc
  have := (List.mem_filter.mp hc).2
  simp at this
  exact this.1

/-- Putting a cut back keeps the canonical form. -/
theorem Memory.wf_paste {m : Memory} (h : m.wf = true) (a n : Nat) (c : Memory) : (Memory.paste m a n c).wf = true := by
  unfold Memory.paste
  generalize hz : Memory.zero m a n = z
  have hw : z.wf = true := hz ▸ Memory.wf_zero h a n
  clear hz
  induction c generalizing z with
  | nil => exact hw
  | cons e c ih => exact ih _ (Memory.wf_write hw _ _)

/-- Reading below the bytes that are set to 0. -/
theorem Memory.read_zero_below (m : Memory) {a n x : Nat} (h : x < a) : (Memory.zero m a n).read x = m.read x := by
  induction m with
  | nil => rfl
  | cons c m ih =>
    unfold Memory.zero at ih ⊢
    by_cases hc : c.1 = x
    · rw [List.filter_cons_of_pos (by simp; omega)]
      simp [Memory.read, hc]
    · by_cases hp : (decide (c.1 < a) || decide (a + n ≤ c.1)) = true
      · rw [List.filter_cons_of_pos (by simpa using hp)]
        simp [Memory.read, hc, ih]
      · rw [List.filter_cons_of_neg (by simpa using hp)]
        simp [Memory.read, hc, ih]

/-- Reading below the bytes that a cut is put back over. -/
theorem Memory.read_paste_below (m : Memory) {a n x : Nat} (c : Memory) (h : x < a) : (Memory.paste m a n c).read x = m.read x := by
  unfold Memory.paste
  rw [← Memory.read_zero_below m (n := n) h]
  generalize Memory.zero m a n = z
  induction c generalizing z with
  | nil => rfl
  | cons e c ih => rw [List.foldl_cons, ih, Memory.read_write_ne _ _ (by omega)]

/-- Writing bytes leaves every address outside them alone. -/
theorem Memory.read_writes_ne (m : Memory) (a : Nat) (bs : List Byte) {b : Nat} (h : b < a ∨ a + bs.length ≤ b) :
    (Memory.writes m a bs).read b = m.read b := by
  induction bs generalizing m a with
  | nil => rfl
  | cons x bs ih =>
    simp only [List.length_cons] at h
    rw [Memory.writes, ih _ _ (by omega), Memory.read_write_ne _ _ (by omega)]

/-- Bytes written read back. -/
theorem Memory.reads_writes {m : Memory} (h : m.wf = true) (a : Nat) (bs : List Byte) :
    (Memory.writes m a bs).reads a bs.length = bs := by
  induction bs generalizing m a with
  | nil => rfl
  | cons x bs ih =>
    simp only [Memory.writes, List.length_cons, Memory.reads]
    rw [ih (Memory.wf_write h a x), Memory.read_writes_ne _ _ _ (by omega), Memory.read_write_same h]

end Sys2Proof.Machine
end

