-- ==== Sys2Proof/Tests/Slice0.lean ====
section
/-!
SUPPORT. Tests: ill-formed terms that each check refuses, words of the manual's encoding, single steps on a small state, and for
every statement a witness of its hypotheses.
-/
namespace Sys2Proof.Tests

set_option Elab.async false

open Sys2Proof Sys2Proof.Machine Sys2Proof.Claims

/-! ### A small state: team 1 of context 1 on core 0 of die 0, one fibre (key 1024) with 128 registers, and its batch in hand -/

def b0 : Batch := Batch.formed 1 0 0 [0] 0 0

def base : State := { State.reset.placeLine [] with issue := [], cur := some b0 }

/-- The fibre of the small state. -/
def fib0 : Fibre := State.placedFibre []

/-- The small state with its fibre changed. -/
def onFib (g : Fibre → Fibre) : State := base.modFibre 1024 g

/-- The small state with g registers. -/
def regs (r : Map Word) : State := onFib (fun x => { x with regs := r })

/-- The fibre of the small state in a state made from it, as the checks of `Lone` find it. -/
theorem lone (s : State) (n : Need) (h : (decide (s.cur = some b0) && s.fate n b0 0 == .go && decide (s.fibre? 1024 = some (s.fibre 1024)) &&
    (s.fibre 1024).tokAcq.isEmpty) = true) : Lone s n b0 0 (s.fibre 1024) := by
  simp only [Bool.and_eq_true, decide_eq_true_eq, beq_iff_eq, List.isEmpty_iff] at h
  exact ⟨h.1.1.1, rfl, h.1.1.2, h.1.2, h.2⟩

/-- The first four facts of a conjunction at once. -/
theorem join4 {a b c d e : Prop} (h : a ∧ b ∧ c ∧ d) (k : e) : a ∧ b ∧ c ∧ d ∧ e := ⟨h.1, h.2.1, h.2.2.1, h.2.2.2, k⟩

theorem quiet_of_lone {s : State} {n : Need} {b : Batch} {l : Nat} {x : Fibre} (h : Lone s n b l x) : Quiet s n b := by
  refine ⟨h.cur, by rw [h.lanes]; simp, ?_, ?_⟩
  · rw [h.lanes]; simp [h.fate]
  · rw [h.lanes]; simpa using ⟨x, h.fibre, h.token⟩

theorem quiet (s : State) (n : Need) (h : (decide (s.cur = some b0) && s.fate n b0 0 == .go && decide (s.fibre? 1024 = some (s.fibre 1024)) &&
    (s.fibre 1024).tokAcq.isEmpty) = true) : Quiet s n b0 := quiet_of_lone (lone s n h)

/-- Operands d, a, b, c with a type. -/
def al (d a b c : Spec) (ty : Ty) : AL := ⟨fields d a b c 0, ty, .rn, false, 0, 0⟩

/-- The SY fields. -/
def sy (d a b c : Spec) (fn : BitVec 8) (mod : BitVec 11) (imm : Word) : SY := ⟨fields d a b c fn, mod, imm⟩

/-- The BR fields with a target. -/
def br (d : Spec) (line : BitVec 29) (slot : BitVec 3) : BR := ⟨fields d .none .none .none 0, 0, line, slot⟩

/-- The ME fields of a plain access. -/
def me (d a b c : Spec) (sz : Sz) (hnd : BitVec 12) (off : BitVec 20) : ME := ⟨fields d a b c 0, sz, .plain, .lane, 0, hnd, off⟩

theorem okE {ε α : Type} {e : Except ε α} {a : α} (h : e.toOption = some a) : e = .ok a := by
  cases e with
  | error x => cases h
  | ok b => cases h; rfl

/-- The error of a result. -/
def errOf {ε α : Type} : Except ε α → Option ε
  | .error x => some x
  | .ok _ => none

theorem erE {ε α : Type} {e : Except ε α} {x : ε} (h : errOf e = some x) : e = .error x := by
  cases e with
  | error y => cases h; rfl
  | ok b => cases h

theorem okP {ε α : Type} {e : Except ε α × State} {a : α} {u : State} (h : e.1.toOption = some a) (k : e.2 = u) : e = (.ok a, u) :=
  Prod.ext (okE h) k

/-! ### Ill-formed terms, one for each check -/

theorem test_badType : (Instr.iadd (al (.g 4) (.g 4) (.g 4) .none .f32)).check = some .badType := by decide
theorem test_badRound : (Instr.iadd { al (.g 4) (.g 4) (.g 4) .none .s32 with rm := .rz }).check = some .badRound := by decide
theorem test_badSat : (Instr.and { al (.g 4) (.g 4) (.g 4) .none .n32 with sat := true }).check = some .badSat := by decide
theorem test_badFn : (Instr.iadd { al (.g 4) (.g 4) (.g 4) .none .s32 with fn := 1 }).check = some .badFn := by decide
theorem test_badMod : (Instr.iadd { al (.g 4) (.g 4) (.g 4) .none .s32 with x := 1 }).check = some .badMod := by decide
theorem test_badD : (Instr.iadd (al (.m 4) (.g 4) (.g 4) .none .s32)).check = some .badD := by decide
theorem test_oddPair : (Instr.iadd (al (.g 5) (.g 4) (.g 4) .none .s64)).check = some .badD := by decide
theorem test_badA : (Instr.iadd (al (.g 4) (.q 1) (.g 4) .none .s32)).check = some .badA := by decide
theorem test_badB : (Instr.iadd (al (.g 4) (.g 4) .none .none .s32)).check = some .badB := by decide
theorem test_badC : (Instr.iadd (al (.g 4) (.g 4) (.g 4) (.g 4) .s32)).check = some .badC := by decide
theorem test_badImm : (Instr.exit (sy .none .none .none .none 0 0 1)).check = some .badImm := by decide
theorem test_badSlot : (Instr.bra (br .none 0 5)).check = some .badSlot := by decide

/-- The error of a word. -/
def wordError (w : IWord) : Option Reject := errOf (decode w)

/-- Opcode 0xD0 is unassigned (R79). -/
theorem test_unassigned : wordError 0xD007F7F7F7F0000000000000 = some .unassignedOp := by decide +kernel
/-- A NOP word has no other bit (R80). -/
theorem test_nopBits : wordError 0x000000000000000000000001 = some .nopBits := by decide +kernel
/-- Specifier 0xFD is reserved (R66). -/
theorem test_reservedSpec : wordError 0x010027E82FF0000000000000 = some .reservedSpec := by decide +kernel
/-- `TY` 12 is reserved (R78). -/
theorem test_reservedMod : wordError 0x0100202027F0060000000000 = some .reservedMod := by decide +kernel

/-! ### Words of the encodings, beside those of `Obligations.WordsDecode` -/

/-- MOV.n32 g13, g1: opcode 0x20, `TY` 1 in MOD[42:39] (R62, R73, R78). -/
theorem test_word_mov : (decode 0x2000680FF7F0008000000000).toOption =
    some (.mov (al (.g 13) (.g 1) .none .none .n32)) := by decide +kernel
/-- IPRED.lt p1, g4, g5: D 0xC1, `FN` 2; the manual writes this word out (R173). -/
theorem test_word_ipred : (decode 0x220608202FF0100000000000).toOption =
    some (.ipred { al (.p 1) (.g 4) (.g 5) .none .s32 with fn := 2 }) := by decide +kernel
/-- RET g13 (R182). -/
theorem test_word_ret : (decode 0x3407F06FF7F0000000000000).toOption =
    some (.ret (sy .none (.g 13) .none .none 0 0 0)) := by decide +kernel
/-- BSYNC of point 3, token in g12 (R77). -/
theorem test_word_bsync : (decode 0x490067F7F7F0000300000000).toOption =
    some (.bsync (sy (.g 12) .none .none .none 0 3 0)) := by decide +kernel
/-- LDQ.w q1, [g8, 64] while p3: D 0xDD, C 0xC3, `FN` 1, SZ 2, handle 5 (R74, R78). -/
theorem test_word_ldq : (decode 0x7306E847F6180A0000500040).toOption =
    some (.ldq ⟨⟨⟨0, false⟩, .q 1, .g 8, .none, .p 3, 1⟩, .w, .plain, .lane, 0, 5, 64⟩) := by decide +kernel
/-- ATOM.add.w.acq.die g12, [g8], g9, handle 5: SZ 2, ORD 2, SC 3 (R74, R78, R345). -/
theorem test_word_atom : (decode 0x800060404FF0024C00500000).toOption =
    some (.atom ⟨fields (.g 12) (.g 8) (.g 9) .none 0, .w, .acq, .die, 0, 5, 0⟩) := by decide +kernel
/-- CAPENTER g12, [g8], g10, scope die, handle 5: SZ 0, ORD 2, SC 3 (R74, R78, R360). -/
theorem test_word_capenter : (decode 0x8500604057F0004C00500000).toOption =
    some (.capenter ⟨fields (.g 12) (.g 8) (.g 10) .none 0, .b, .acq, .die, 0, 5, 0⟩) := by decide +kernel
/-- CPYT.scl g20, g4, g4, g8: MOD 1, handles 5 and 8, IMM[7:0] 0x80 (R76, R290). -/
theorem test_word_cpyt : (decode 0x9100A0202040000100500880).toOption =
    some (.cpyt ⟨fields (.g 20) (.g 4) (.g 4) (.g 8) 0, false, false, .lane, 1, 5, 8, 0x80⟩) := by decide +kernel
/-- PUBLISH g12 with MOD 4 (R77, R136). -/
theorem test_word_publish : (decode 0xB00067F7F7F0000400900000).toOption =
    some (.publish (sy (.g 12) .none .none .none 0 4 0x900000)) := by decide +kernel
/-- PERFORM g12, 0x123, g8 (R77, R386). -/
theorem test_word_perform : (decode 0xBA006047F7F0000000000123).toOption =
    some (.perform (sy (.g 12) (.g 8) .none .none 0 0 0x123)) := by decide +kernel
/-- BKPT 42 (R77, R414). -/
theorem test_word_bkpt : (decode 0xC207F7F7F7F000000000002A).toOption =
    some (.bkpt (sy .none .none .none .none 0 0 42)) := by decide +kernel
/-- ERRQ.pop g12: `FN` 0 (R77, R413). -/
theorem test_word_errq : (decode 0xC10067F7F7F0000000000000).toOption =
    some (.errqPop (sy (.g 12) .none .none .none 0 0 0)) := by decide +kernel
/-- SHFL.n32 g12, g8, g9 with `FN` 0 (R73). -/
theorem test_word_shfl : (decode 0x420060404FF0008000000000).toOption =
    some (.shfl (al (.g 12) (.g 8) (.g 9) .none .n32)) := by decide +kernel

/-! ### Single steps on the small state; the expected values are worked by hand from the manual's tables -/

/-- The state after an instruction. -/
def out (i : Instr) (s : State) : State :=
  match exec i s with
  | .next t => t
  | _ => s

/-- What register g[n] of the fibre holds, or will hold when the pending result lands. -/
def reads (n : Nat) (s : State) : Option Word :=
  match ((s.fibre 1024).pend.find? (fun w => w.reg == n)).map (fun w => w.val) with
  | some v => some v
  | none => mapGet (s.fibre 1024).regs n

/-- ISUB.s32 0 - 1 wraps to all ones (R166, R167). -/
theorem test_isub : reads 12 (out (.isub (al (.g 12) (.g 8) (.g 9) .none .s32)) (regs [(8, 0), (9, 1)])) = some 0xFFFFFFFF := by
  decide +kernel
/-- IADD.s32.sat stops at 2^31 - 1 (R166). -/
theorem test_iadd_sat : reads 12 (out (.iadd { al (.g 12) (.g 8) (.g 9) .none .s32 with sat := true })
    (regs [(8, 0x7FFFFFFF), (9, 1)])) = some 0x7FFFFFFF := by decide +kernel
/-- IMULH.s32 of -1 and -1 is 0; under .n32 it would be 0xFFFFFFFE (R167). -/
theorem test_imulh : reads 12 (out (.imulh (al (.g 12) (.g 8) (.g 9) .none .s32)) (regs [(8, 0xFFFFFFFF), (9, 0xFFFFFFFF)])) = some 0 := by
  decide +kernel
/-- IDIV by zero gives all ones (R169). -/
theorem test_idiv_zero : reads 12 (out (.idiv (al (.g 12) (.g 8) (.g 9) .none .s32)) (regs [(8, 5), (9, 0)])) = some 0xFFFFFFFF := by
  decide +kernel
/-- IREM -7 by 2 takes the dividend's sign (R169). -/
theorem test_irem_sign : reads 12 (out (.irem (al (.g 12) (.g 8) (.g 9) .none .s32)) (regs [(8, 0xFFFFFFF9), (9, 2)])) = some 0xFFFFFFFF := by
  decide +kernel
/-- SHL by the width gives 0 (R167). -/
theorem test_shl_wide : reads 12 (out (.shl (al (.g 12) (.g 8) (.g 9) .none .n32)) (regs [(8, 1), (9, 32)])) = some 0 := by decide +kernel
/-- SAR of a negative number by 40 gives -1 (R167). -/
theorem test_sar_wide : reads 12 (out (.sar (al (.g 12) (.g 8) (.g 9) .none .s32)) (regs [(8, 0x80000000), (9, 40)])) = some 0xFFFFFFFF := by
  decide +kernel
/-- ROT.n32 by 36 rotates by 4 (R167). -/
theorem test_rot : reads 12 (out (.rot (al (.g 12) (.g 8) (.g 9) .none .n32)) (regs [(8, 0x80000001), (9, 36)])) = some 0x18 := by
  decide +kernel
/-- FSH.r of 1 and 0x80000000 by 4 (R167). -/
theorem test_fsh : reads 12 (out (.fsh (al (.g 12) (.g 8) (.g 9) (.g 10) .n32)) (regs [(8, 1), (9, 0x80000000), (10, 4)])) =
    some 0x18000000 := by decide +kernel
/-- BFX.s32 of 4 bits at 4 sign-extends 0xF (R170). -/
theorem test_bfx : reads 12 (out (.bfx (al (.g 12) (.g 8) (.g 9) .none .s32)) (regs [(8, 0xF0), (9, 0x0404)])) = some 0xFFFFFFFF := by
  decide +kernel
/-- BFI replaces the 8 bits at 8 (R170). -/
theorem test_bfi : reads 12 (out (.bfi (al (.g 12) (.g 8) (.g 9) (.g 10) .n32)) (regs [(8, 0xAB), (9, 0x0808), (10, 0x11223344)])) =
    some 0x1122AB44 := by decide +kernel
/-- PRMB with selectors 7, 0, 12, 1: byte 7 is b's top byte, 12 asks the sign of byte 4 (R171). -/
theorem test_prmb : reads 12 (out (.prmb (al (.g 12) (.g 8) (.g 9) (.g 10) .n32)) (regs [(8, 0x44332211), (9, 0x88776685), (10, 0x1C07)])) =
    some 0x22FF1188 := by decide +kernel
/-- CLZ of 0 is the width (R167). -/
theorem test_clz_zero : reads 12 (out (.clz (al (.g 12) (.g 8) .none .none .n32)) (regs [(8, 0)])) = some 32 := by decide +kernel
/-- LEA.n32 with scale 3 (R171). -/
theorem test_lea : reads 12 (out (.lea { al (.g 12) (.g 8) (.g 9) .none .n32 with x := 3 }) (regs [(8, 100), (9, 0xFFFFFFFF)])) =
    some 92 := by decide +kernel
/-- FADD.f32 1.0 + 2.0 = 3.0 (R231). -/
theorem test_fadd : reads 12 (out (.fadd (al (.g 12) (.g 8) (.g 9) .none .f32)) (regs [(8, 0x3F800000), (9, 0x40000000)])) =
    some 0x40400000 := by decide +kernel
/-- FMUL.f32 of 2^127 and 2.0 overflows to infinity under RN (R231). -/
theorem test_fmul_overflow : reads 12 (out (.fmul (al (.g 12) (.g 8) (.g 9) .none .f32)) (regs [(8, 0x7F000000), (9, 0x40000000)])) =
    some 0x7F800000 := by decide +kernel
/-- IDOT4.s8 of four -1 and four 2 onto 10 (R243). -/
theorem test_idot4 : reads 12 (out (.idot4 (al (.g 12) (.g 8) (.g 9) (.g 10) .s8)) (regs [(8, 0xFFFFFFFF), (9, 0x02020202), (10, 10)])) =
    some 2 := by decide +kernel
/-- PRDW has bit 0 set and bit i is p[i] (R172). -/
theorem test_prdw : reads 12 (out (.prdw (al (.g 12) .none .none .none .s32)) base) = some 1 := by decide +kernel
/-- RET to g13 = 24 moves the pc there (R182). -/
theorem test_ret : ((out (.ret (sy .none (.g 13) .none .none 0 0 0)) (regs [(13, 24)])).fibre 1024).pc = 24 := by decide +kernel
/-- With no handler, BKPT raises an unhandled DEBUG, which kills the fibre (R394, R414). -/
theorem test_bkpt : ((out (.bkpt (sy .none .none .none .none 0 0 42)) base).fibre 1024).st = .exited := by decide +kernel
/-- The placed word `IADD g4, g4, g5` is what the next step runs: the pc moves to slot 1 (R56, R81). -/
theorem test_step_iadd : (match step (State.reset.withFetchWord 96 0x0100202027F0000000000000) with
    | .next t => some ((t.fibre 1024).pc)
    | _ => none) = some 12 := by decide +kernel

/-! ### Witnesses -/

theorem wit_registerResults :
    (∃ i op s b, arithmetic i = some op ∧ Quiet s op.need b ∧ namesK op.need.head.d = false) ∧
    (∃ i op s b, logic i = some op ∧ Quiet s op.need b ∧ namesK op.need.head.d = false) ∧
    (∃ i op s b, moves i = some op ∧ Quiet s op.need b ∧ namesK op.need.head.d = false) :=
  ⟨⟨.iadd (al (.g 12) (.g 4) (.g 5) .none .s32), _, base, b0, rfl, quiet _ _ (by decide +kernel), rfl⟩,
   ⟨.shl (al (.g 12) (.g 4) (.g 5) .none .n64), _, base, b0, rfl, quiet _ _ (by decide +kernel), rfl⟩,
   ⟨.mov (al (.g 127) (.g 4) .none .none .s32), _, base, b0, rfl, quiet _ _ (by decide +kernel), rfl⟩⟩


/-- A 64-bit pair from c6, an `IMM` of 64 bits, p15 and m11; k62 and `%lane` beside them. -/
def mixed : Need := { head := fields (.m 11) (.g 6) .imm (.p 15) 0, imm := 0x80000000, sgn := true, na := 2, nb := 2, nc := 1, nd := 1 }
def mixedK : Need := { head := fields .none (.g 126) (.k 62) (.sp .lane) 0, imm := 0, na := 2, nb := 2, nc := 1 }

/-- The small state in capsule mode, with 5 in c6 and 7 in g6. -/
def capsuled : State := onFib (fun x => { x with capMode := true, regs := [(6, 7), (150, 5)] })

theorem wit_operandsAreRead :
    (mixed.head.a = .g 6 ∧ (capsuled.fibre 1024).capMode = true ∧ (capsuled.readVals mixed b0 0).a[1]? = some 0) ∧
    (mixed.head.b = .imm ∧ 0 < mixed.nb ∧ mixed.sgn = true) ∧ (mixed.head.c = .p 15 ∧ 0 < mixed.nc) ∧
    (mixed.head.d = .m 11 ∧ 0 < mixed.nd) ∧
    (mixedK.head.a = .g 126 ∧ (base.readVals mixedK b0 0).a[1]? = some 0) ∧
    (mixedK.head.b = .k 62 ∧ (base.readVals mixedK b0 0).b[1]? = some 0) ∧ (mixedK.head.c = .sp .lane ∧ 0 < mixedK.nc) := by
  decide +kernel

/-- R66, R71: c6 in capsule mode, and `IMM` sign-extended into a pair. -/
theorem test_operands : (capsuled.readVals mixed b0 0).a = [5, 0] ∧ (capsuled.readVals mixed b0 0).b = [0x80000000, 0xFFFFFFFF] := by
  decide +kernel
theorem wit_floatingPointResults :
    (∃ i op s b, floats i = some op ∧ Quiet s op.need b ∧ namesK op.need.head.d = false) ∧
    (∃ i op s b, functions i = some op ∧ Quiet s op.need b ∧ namesK op.need.head.d = false) ∧
    (∃ i op s b, packed i = some op ∧ Quiet s op.need b ∧ namesK op.need.head.d = false) :=
  ⟨⟨.fadd (al (.g 12) (.g 4) (.g 5) .none .f32), _, base, b0, rfl, quiet _ _ (by decide +kernel), rfl⟩,
   ⟨.frcp (al (.g 12) (.g 4) .none .none .f32), _, base, b0, rfl, quiet _ _ (by decide +kernel), rfl⟩,
   ⟨.v2add (al (.g 12) (.g 4) (.g 5) .none .f16), _, base, b0, rfl, quiet _ _ (by decide +kernel), rfl⟩⟩

theorem wit_crossLaneResults : ∃ i op s b, cross i = some op ∧ Quiet s op.need b ∧ namesK op.need.head.d = false :=
  ⟨.ballot (al (.g 12) (.p 1) .none .none .s32), _, base, b0, rfl, quiet _ _ (by decide +kernel), rfl⟩

/-- PRDW, FSTAT and CLOCK to k registers, the last in 64 bits. -/
def prdwK : AL := al (.k 63) .none .none .none .s32
def clockK : AL := { prdwK with fn := 1 }

theorem wit_kDestination :
    (∃ i op j l ls s b, laneOp i = some op ∧ op.need.head.d = .k j ∧ Quiet s op.need b ∧
      goers s op.need b = l :: ls ∧ (s.team? b.team).isSome ∧ j.val + op.wd ≤ 64) ∧
    (∃ i op j l ls s b, cross i = some op ∧ op.need.head.d = .k j ∧ Quiet s op.need b ∧
      goers s op.need b = l :: ls ∧ (s.team? b.team).isSome ∧ j.val + op.wd ≤ 64) ∧
    ((base.team? b0.team).isSome ∧ Quiet base (prdwNeed prdwK) b0 ∧ goers base (prdwNeed prdwK) b0 = 0 :: [] ∧
      Quiet base (fstatNeed prdwK) b0 ∧ goers base (fstatNeed prdwK) b0 = 0 :: [] ∧
      Quiet base (clockNeed clockK) b0 ∧ goers base (clockNeed clockK) b0 = 0 :: [] ∧ 62 + (clockNeed clockK).wd ≤ 64) :=
  ⟨⟨.iadd (al (.k 62) (.g 4) (.g 6) .none .s64), _, 62, 0, [], base, b0, rfl, rfl, quiet _ _ (by decide +kernel), by decide +kernel, rfl,
    by decide +kernel⟩,
   ⟨.ballot (al (.k 63) (.p 1) .none .none .s32), _, 63, 0, [], base, b0, rfl, rfl, quiet _ _ (by decide +kernel), by decide +kernel, rfl,
    by decide +kernel⟩,
   rfl, quiet _ _ (by decide +kernel), by decide +kernel, quiet _ _ (by decide +kernel), by decide +kernel,
   quiet _ _ (by decide +kernel), by decide +kernel, by decide +kernel⟩

theorem wit_predicateFlagAndClock :
    Quiet base nopNeed b0 ∧ Quiet base (prdwNeed (al (.g 12) .none .none .none .s32)) b0 ∧
    Quiet base (pwrwNeed (al .none (.g 4) (.g 5) .none .s32)) b0 ∧
    Quiet base (fstatNeed (al .none .imm .none .none .s32)) b0 ∧ Quiet base (clockNeed (al (.g 12) .none .none .none .n32)) b0 :=
  ⟨quiet _ _ (by decide +kernel), quiet _ _ (by decide +kernel), quiet _ _ (by decide +kernel), quiet _ _ (by decide +kernel),
   quiet _ _ (by decide +kernel)⟩


/-- The special registers of the small state: role 0 holds its only pack. -/
theorem wit_specialRegisters :
    base.team? b0.team = some (base.team 1) ∧ base.launch? (launchKey (base.team 1).ctx (base.team 1).lid) = some (base.launchOfTeam 1) ∧
      b0.pack < 32 ∧ (((base.launchOfTeam 1).blk.roles.take 0).map (·.packs)).sum ≤ b0.pack ∧
      b0.pack < (((base.launchOfTeam 1).blk.roles.take 1).map (·.packs)).sum ∧ (base.launchOfTeam 1).shape = [0, 0, 0, 0] ∧
      ∀ k ∈ b0.lanes, k < 32 := by decide +kernel
/-- A fibre in capsule mode. -/
def capsule : State := onFib (fun x => { x with capMode := true })

theorem wit_branchesAndTheCapsuleLimit :
    (Quiet base (braNeed (br .none 1 0)) b0 ∧
      ∀ l ∈ b0.lanes, (base.fibre (b0.fib l)).capMode = true → b0.pc.toNat < (brTarget (br .none 1 0) b0.pc).toNat) ∧
    Quiet base (jumpNeed (sy .none (.g 1) .none .none 0 0 0)) b0 ∧ (Quiet base (callNeed (br .none 1 0)) b0 ∧
      ∀ l ∈ b0.lanes, (base.fibre (b0.fib l)).loads = []) ∧
    Lone base (callNeed (br .none 1 0)) b0 0 (base.fibre 1024) ∧
    Quiet base (brdecNeed (br (.g 4) 1 0)) b0 ∧
    (Lone capsule (braNeed (br .none 0 0)) b0 0 (capsule.fibre 1024) ∧ (capsule.fibre 1024).capMode = true ∧
      (brTarget (br .none 0 0) b0.pc).toNat ≤ b0.pc.toNat) :=
  ⟨⟨quiet _ _ (by decide +kernel), by decide +kernel⟩, quiet _ _ (by decide +kernel), ⟨quiet _ _ (by decide +kernel), by decide +kernel⟩,
   lone _ _ (by decide +kernel), quiet _ _ (by decide +kernel), lone _ _ (by decide +kernel), by decide +kernel, by decide +kernel⟩

/-- A code region of context 1 under handle 5, published at pkg scope, with an entry for it. -/
def region5 : Region := { base := 0, lines := 4, gen := 1, state := .published, pscope := 4, pdie := 0, punit := 0 }

/-- A valid code entry for that region (R92). -/
def entry5 : List Byte := leBytes 8 0 ++ leBytes 6 256 ++ [0x76, 0] ++ leBytes 4 0 ++ leBytes 4 4 ++ List.replicate 8 0

/-- The small state with the region in its context. -/
def withRegion (r : Region) : State :=
  base.modCtx 1 (fun c => { c with table := [(5, entry5)], regions := [(5, r)] })

/-- Bytes in the scratchpad of core 0. -/
def withScratch (m : Memory) (s : State) : State := s.modCore 0 (fun c => { c with scratch := m })

/-- A function descriptor at offset 0 of CORE space: offset 64, region 5 (R94). -/
def descState : State := withScratch [(0, 64), (4, 5)] (withRegion region5)

/-- CALLX through h2. -/
def callx2 : SY := sy .none .none .none .none 0 0 0x00200000

theorem wit_callx :
    let n : Need := { head := callx2.toHead, imm := callx2.imm, na := baseRegs (immHandle callx2.imm) callx2.a, also := [1] }
    ∃ x a d u, Lone descState n b0 0 x ∧ (past descState b0 0).acqHeld (b0.fib 0) = false ∧
      (past descState b0 0).check (b0.fib 0) (immHandle callx2.imm).toNat (eaOff (immOffset callx2.imm) (descState.readVals n b0 0).a)
        { spaces := [1, 2, 3, 4, 5], n := 16, align := 16, rd := true } = .ok a ∧
      (past descState b0 0).kindErr (b0.fib 0) (immHandle callx2.imm).toNat (eaOff (immOffset callx2.imm) (descState.readVals n b0 0).a)
        [1, 2, 3, 4, 5] = none ∧
      ((past descState b0 0).touchHandle (b0.fib 0) a.hnd).readLoc (b0.fib 0) a 16 (plainHow a) = (.ok d, u) ∧
      u.descOk (b0.fib 0) d = true :=
  ⟨_, { loc := .core 0, pol := 0, rc := false, code := none, hnd := 2, final := 0 }, leBytes 16 (64 + 5 * 2 ^ 32), past descState b0 0,
    lone _ _ (by decide +kernel), by decide +kernel, okE (by decide +kernel), by decide +kernel,
    okP (by decide +kernel) (by decide +kernel), by decide +kernel⟩

/-- The small state with masks in its pack. -/
def withMasks (m : Map Word) (s : State) : State := s.modPack 32 (fun p => { p with masks := m })

/-- The small state with a second READY fibre in lane 1. -/
def two : State := base.setFibre 1025 fib0

theorem wit_masksAndJoins :
    (∃ o : SY, ∃ l ls, let n := msetNeed o
      Quiet base n b0 ∧ goers base n b0 = l :: ls) ∧
    (∃ o : SY, ∃ l ls, let n := maskUse o
      Quiet base n b0 ∧ goers base n b0 = l :: ls) ∧
    (∃ o : SY, ∃ s x, let n := maskUse o
      Lone s n b0 0 x ∧ x.st = .ready ∧ s.flying (b0.fib 0) = [] ∧ x.sfaults = [] ∧
      (s.maskOfBatch b0 (maskIx o.a)).getLsbD 0 = false) ∧
    (∃ o : SY, ∃ s x, let n := maskUse o
      Lone s n b0 0 x ∧ x.st = .ready ∧ s.flying (b0.fib 0) = [] ∧ x.sfaults = [] ∧
      s.maskOfBatch b0 (maskIx o.a) = BitVec.ofNat 32 (2 ^ 0)) ∧
    (∃ o : SY, ∃ s x k y, let n := maskUse o
      Lone s n b0 0 x ∧ x.st = .ready ∧ s.flying (b0.fib 0) = [] ∧ x.sfaults = [] ∧
      (s.maskOfBatch b0 (maskIx o.a)).getLsbD 0 = true ∧ (s.maskOfBatch b0 (maskIx o.a)).getLsbD k = true ∧ k < 32 ∧ k ≠ 0 ∧
      s.fibre? (b0.fib k) = some y ∧ y.st = .ready) :=
  ⟨⟨sy (.m 11) .none .none .none 0 0 0, 0, [], quiet _ _ (by decide +kernel), by decide +kernel⟩,
   ⟨sy .none (.m 0) .none .none 0 0 0, 0, [], quiet _ _ (by decide +kernel), by decide +kernel⟩,
   ⟨sy .none (.m 0) .none .none 0 0 0, base, _, lone _ _ (by decide +kernel), by decide +kernel⟩,
   ⟨sy .none (.m 0) .none .none 0 0 0, withMasks [(0, 1)] base, _, lone _ _ (by decide +kernel), by decide +kernel⟩,
   ⟨sy .none (.m 0) .none .none 0 0 0, withMasks [(0, 3)] two, _, 1, fib0, lone _ _ (by decide +kernel), by decide +kernel⟩⟩


/-- Two lanes of a mask, the second at the same JOIN, or in a WAITM on the mask. -/
def lastOfTwo (why : Wait) : State := withMasks [(0, 3)] (two.modFibre 1025 (fun x => { x with st := .waiting why }))

theorem wit_lastArrival :
    (∃ o : SY, let n := maskUse o
      let s := lastOfTwo (.join 0)
      Lone s n b0 0 (s.fibre 1024) ∧ (s.fibre 1024).st = .ready ∧ s.flying (b0.fib 0) = [] ∧ (s.fibre 1024).sfaults = [] ∧
      (s.maskOfBatch b0 (maskIx o.a)).getLsbD 0 = true ∧
      (s.packFibres (packOf b0)).filter (fun e => e.1 != b0.fib 0) = [(1025, s.fibre 1025)] ∧
      (s.fibre 1025).st = .waiting (.join (maskIx o.a)) ∧ (s.fibre 1025).pc = b0.pc ∧ s.fibre? 1025 = some (s.fibre 1025)) ∧
    (∃ o : SY, let n := maskUse o
      let s := lastOfTwo (.waitm 0)
      Lone s n b0 0 (s.fibre 1024) ∧ (s.fibre 1024).st = .ready ∧ s.flying (b0.fib 0) = [] ∧ (s.fibre 1024).sfaults = [] ∧
      (s.maskOfBatch b0 (maskIx o.a)).getLsbD 0 = true ∧
      (s.packFibres (packOf b0)).filter (fun e => e.1 != b0.fib 0) = [(1025, s.fibre 1025)] ∧
      (s.fibre 1025).st = .waiting (.waitm (maskIx o.a)) ∧ s.fibre? 1025 = some (s.fibre 1025)) :=
  ⟨⟨sy .none (.m 0) .none .none 0 0 0, lone _ _ (by decide +kernel), by decide +kernel⟩,
   ⟨sy .none (.m 0) .none .none 0 0 0, lone _ _ (by decide +kernel), by decide +kernel⟩⟩
/-- The fibre of the small state as a helper. -/
def helper : State := onFib (fun x => { x with helper := true })

/-- Where every lane of the pack is taken. -/
def fullPack : State := (List.range 32).foldl (fun s l => s.setFibre (1024 + l) fib0) base

theorem wit_fibresStartAndEnd :
    Lone helper (spawnNeed (br (.g 12) 1 0)) b0 0 (helper.fibre 1024) ∧ (helper.fibre 1024).helper = true ∧
    Lone fullPack (spawnNeed (br (.g 12) 1 0)) b0 0 (fullPack.fibre 1024) ∧ (past fullPack b0 0).freeLane (b0.fib 0) = none ∧
    (∃ u, Lone base (spawnNeed (br (.g 12) 1 0)) b0 0 (base.fibre 1024) ∧ (base.fibre 1024).helper = false ∧
      (past base b0 0).freeLane (b0.fib 0) = some 1025 ∧ (past base b0 0).release (b0.fib 0) .core = (.done, u) ∧
      (u.fibre 1025).sfaults = []) ∧
    (∃ o, Lone base (plainNeed o) b0 0 (base.fibre 1024) ∧ sortedKeys base.fibres = true ∧ (base.fibre 1024).st = .ready ∧
      (base.fibre 1024).helper = false ∧
      ∀ k y, k < 32 → k ≠ 0 → base.fibre? (b0.fib k) = some y → y.st = .exited ∨ y.helper = true) ∧
    (∃ o, Lone two (plainNeed o) b0 0 (two.fibre 1024) ∧ sortedKeys two.fibres = true ∧ (two.fibre 1024).st = .ready ∧
      (two.fibre 1024).helper = false ∧
      ∃ k y, k < 32 ∧ k ≠ 0 ∧ two.fibre? (b0.fib k) = some y ∧ y.st ≠ .exited ∧ y.helper = false) ∧
    (∃ o l ls, Quiet base (plainNeed o) b0 ∧ goers base (plainNeed o) b0 = l :: ls) :=
  ⟨lone _ _ (by decide +kernel), by decide +kernel, lone _ _ (by decide +kernel), by decide +kernel,
   ⟨past base b0 0, lone _ _ (by decide +kernel), by decide +kernel⟩,
   ⟨sy .none .none .none .none 0 0 0, lone _ _ (by decide +kernel), by decide +kernel, by decide +kernel, by decide +kernel, by
      intro k y hk h0 hy
      have hn : ∀ k, k < 32 → k ≠ 0 → base.fibre? (b0.fib k) = none := by decide +kernel
      rw [hn k hk h0] at hy
      cases hy⟩,
   ⟨sy .none .none .none .none 0 0 0, lone _ _ (by decide +kernel), by decide +kernel, by decide +kernel, by decide +kernel, 1, fib0,
      by decide +kernel⟩,
   ⟨sy .none .none .none .none 0 0 0, 0, [], quiet _ _ (by decide +kernel), by decide +kernel⟩⟩

/-- A rendezvous point of the team, initialised for n arrivals, one of which has come. -/
def withPoint (b n : Nat) (s : State) : State := s.setPoint 1 b { RvPoint.start with init := true, expect := n, arrivedN := 1 }

/-- A point number 23 in MOD, the last one. -/
def pt (d a : Spec) : SY := sy d a .none .none 0 23 0

theorem wit_rendezvousPoints :
    Lone base (binitNeed (pt (.g 12) (.g 4))) b0 0 (base.fibre 1024) ∧
    (∃ u, (u.point b0.team 23).arrivedN + 1 ≠ (u.point b0.team 23).expect ∧
      ((withPoint 23 3 base).point b0.team (rvPointOf (pt (.g 12) .none))).init = true ∧
      (past (withPoint 23 3 base) b0 0).release (b0.fib 0) .core = (.done, u) ∧ (u.team? b0.team).isSome ∧
      ((withPoint 23 3 base).fibre 1024).st ≠ .exited ∧
      Lone (withPoint 23 3 base) (arriveNeed (pt (.g 12) .none)) b0 0 ((withPoint 23 3 base).fibre 1024)) ∧
    (∃ u, (u.point b0.team 23).arrivedN + 1 = (u.point b0.team 23).expect ∧
      ((withPoint 23 2 base).point b0.team (rvPointOf (pt (.g 12) .none))).init = true ∧
      (past (withPoint 23 2 base) b0 0).release (b0.fib 0) .core = (.done, u) ∧ (u.team? b0.team).isSome ∧
      ((withPoint 23 2 base).fibre 1024).st ≠ .exited ∧
      Lone (withPoint 23 2 base) (arriveNeed (pt (.g 12) .none)) b0 0 ((withPoint 23 2 base).fibre 1024)) ∧
    (Lone (withPoint 23 2 base) (bwaitNeed (pt .none .imm)) b0 0 ((withPoint 23 2 base).fibre 1024) ∧
      ((withPoint 23 2 base).point b0.team 23).phase =
        (((withPoint 23 2 base).readVals (bwaitNeed (pt .none .imm)) b0 0).a.headD 0).getLsbD 0) ∧
    (∃ o : SY, Lone base (bwaitNeed o) b0 0 (base.fibre 1024) ∧
      (base.point b0.team 23).phase ≠ ((base.readVals (bwaitNeed o) b0 0).a.headD 0).getLsbD 0) ∧
    (Lone base (arriveNeed (pt .none .none)) b0 0 (base.fibre 1024) ∧ Lone base (bwaitNeed (pt .none .imm)) b0 0 (base.fibre 1024) ∧
      (base.fibre 1024).st ≠ .exited ∧ (base.point b0.team 23).init = false ∧
      (base.point b0.team 23).phase = ((base.readVals (bwaitNeed (pt .none .imm)) b0 0).a.headD 0).getLsbD 0) :=
  ⟨lone _ _ (by decide +kernel),
   ⟨past (withPoint 23 3 base) b0 0, join4 (by decide +kernel) ⟨by decide +kernel, lone _ _ (by decide +kernel)⟩⟩,
   ⟨past (withPoint 23 2 base) b0 0, join4 (by decide +kernel) ⟨by decide +kernel, lone _ _ (by decide +kernel)⟩⟩,
   ⟨lone _ _ (by decide +kernel), by decide +kernel⟩,
   ⟨sy .none .imm .none .none 0 23 1, lone _ _ (by decide +kernel), by decide +kernel⟩,
   lone _ _ (by decide +kernel), lone _ _ (by decide +kernel), by decide +kernel⟩

/-- The small state's launch as a whole one, with no dependencies. -/
def wholeLaunch (s : State) : State := s.modLaunch (launchKey 1 1) (fun L => { L with whole := true })

/-- HBAR at quad scope. -/
def hbarQuad : SY := sy .none .none .none .none 0 8 0

theorem wit_hbarRounds :
    (Lone base (hbarNeed hbarQuad) b0 0 (base.fibre 1024) ∧ (base.launchOfTeam b0.team).whole = false) ∧
    (∀ s, s = wholeLaunch two ∨ s = wholeLaunch base → ∃ u y, Lone s (hbarNeed hbarQuad) b0 0 (s.fibre 1024) ∧
      (s.launchOfTeam b0.team).whole = true ∧ (s.launchOfTeam b0.team).blk.deps = [] ∧
      (past s b0 0).release (b0.fib 0) (modScope hbarQuad.mod) = (.done, u) ∧ (u.team? b0.team).isSome ∧
      sortedKeys u.fibres = true ∧ sortedKeys u.teams = true ∧ u.fibre? (b0.fib 0) = some y ∧ y.helper = false ∧ y.st ≠ .exited ∧
      let w := u.waitAt (s.laneOf b0 0) (.hbar .quad (u.hbarRoundOf b0.team .quad))
      (s = wholeLaunch two → ∃ e ∈ w.hbarMembers b0.team .quad, State.inHbar .quad e.2 = false) ∧
      (s = wholeLaunch base → (∀ e ∈ w.hbarMembers b0.team .quad, State.inHbar .quad e.2 = true) ∧
        ∀ k ∈ w.hbarTeams b0.team .quad, (w.team k).phase = .running)) :=
  ⟨⟨lone _ _ (by decide +kernel), by decide +kernel⟩, by
    intro s hs
    rcases hs with rfl | rfl
    · exact ⟨past (wholeLaunch two) b0 0, (past (wholeLaunch two) b0 0).fibre 1024, lone _ _ (by decide +kernel), by decide +kernel⟩
    · exact ⟨past (wholeLaunch base) b0 0, (past (wholeLaunch base) b0 0).fibre 1024, lone _ _ (by decide +kernel), by decide +kernel⟩⟩

/-- An ME operand with an order and a scope. -/
def meOrd (o : ME) (m : MOrd) (sc : Scope) : ME := { o with ord := m, sc := sc }

/-- The small state with a read-only GLOBAL entry at h6. -/
def readOnly : State := base.modCtx 1 (fun c => { c with table := [(6, entryBytes 0 4096 0x11 0)] })

/-- Page tables at physical 0: a leaf of 256 MiB at virtual 0 with physical 0x10000000, key 0, every permission, resident. -/
def tables : Memory := [(0, 1), (2, 1), (65536, 0x7F), (65539, 0x10)]

/-- The small state with those tables and the first 1 KiB of the page written under its key. -/
def mapped : State :=
  { base with dram := tables, skeys := (List.range 16).map (fun i => (0x400000 + i, { key := 0, mask := BitVec.allOnes 64, base := 0, ver := 1 })) }

/-- What the check of an access answers. -/
def acc (loc : Loc) (hnd : Nat) (final : Int) : Acc := { loc := loc, pol := 0, rc := false, code := none, hnd := hnd, final := final }

/-- LD.w, ST.w and the others at h6, which names nothing in the small state. -/
def lostMe : ME := me .none .none .none .none .w 6 0

theorem wit_accessChecks :
    ((State.entry base 1024 6).spaceOf = none) ∧
    ((State.entry base 1024 0).spaceOf = some 1 ∧ 1 ∉ [2, 3, 4, 5]) ∧
    ((State.entry base 1024 2).spaceOf = some 3 ∧ 3 ∈ [2, 3, 4, 5] ∧
      base.finalAddr 1024 2 (State.entry base 1024 2) 3 3 % ((4 : Nat) : Int) ≠ 0) ∧
    ((State.entry readOnly 1024 6).spaceOf = some 1 ∧ (State.entry readOnly 1024 6).canWrite = false) ∧
    (base.check 1024 2 65532 { spaces := [3], n := 4, align := 4 } = .ok (acc (.core 65532) 2 65532)) ∧
    (∃ e, (past base b0 0).acqHeld (b0.fib 0) = false ∧
      Lone base (ldNeed lostMe) b0 0 (base.fibre 1024) ∧
        checked lostMe base (ldNeed lostMe) b0 0 (wantRead lostMe [2, 3, 4, 5]) = .error e ∧
      Lone base (stNeed lostMe) b0 0 (base.fibre 1024) ∧
        checked lostMe base (stNeed lostMe) b0 0 (wantWrite lostMe.sz.bytes) = .error e ∧
      Lone base (stlNeed lostMe) b0 0 (base.fibre 1024) ∧ checked lostMe base (stlNeed lostMe) b0 0 (wantWrite 64) = .error e ∧
      Lone base (ldqNeed lostMe) b0 0 (base.fibre 1024) ∧
        checked lostMe base (ldqNeed lostMe) b0 0 (wantRead lostMe [1, 2, 3, 4, 5]) = .error e ∧
      Lone base (atomNeed lostMe 0) b0 0 (base.fibre 1024) ∧
        checked lostMe base (atomNeed lostMe 0) b0 0 (wantAtom lostMe) = .error e ∧
      Lone base (atomNeed lostMe lostMe.sz.regs) b0 0 (base.fibre 1024) ∧
        checked lostMe base (atomNeed lostMe lostMe.sz.regs) b0 0 (wantAtom lostMe) = .error e ∧
      checked lostMe base (stNeed lostMe) b0 0 (wantAtom lostMe) = .error e ∧
      Lone base (wlineNeed lostMe) b0 0 (base.fibre 1024) ∧
        checked lostMe base (wlineNeed lostMe) b0 0 (wantRead lostMe [1, 2, 3, 4, 5]) = .error e) :=
  ⟨by decide +kernel, by decide +kernel, by decide +kernel, by decide +kernel, okE (by decide +kernel),
   { eff := 0x027, arg := marg 6 0 }, by decide +kernel,
   lone _ _ (by decide +kernel), erE (by decide +kernel), lone _ _ (by decide +kernel), erE (by decide +kernel),
   lone _ _ (by decide +kernel), erE (by decide +kernel), lone _ _ (by decide +kernel), erE (by decide +kernel),
   lone _ _ (by decide +kernel), erE (by decide +kernel), lone _ _ (by decide +kernel), erE (by decide +kernel),
   erE (by decide +kernel), lone _ _ (by decide +kernel), erE (by decide +kernel)⟩

/-- An access of the small state, by the checks. -/
theorem access (o : ME) (s : State) (n : Need) (w : Want) (a : Acc)
    (h : (decide (s.cur = some b0) && s.fate n b0 0 == .go && decide (s.fibre? 1024 = some (s.fibre 1024)) &&
      (s.fibre 1024).tokAcq.isEmpty) = true)
    (hq : (past s b0 0).acqHeld (b0.fib 0) = false) (hc : (checked o s n b0 0 w).toOption = some a) : Access o s n b0 0 (s.fibre 1024) w a :=
  ⟨lone s n h, hq, okE hc⟩

/-- LD.w g12, h2[65532], the last word of the 64 KiB of CORE space. -/
def lastWord : ME := me (.g 12) .none (.g 4) .none .w 2 65532

/-- A fibre whose g12 waits for the read of an LD of the last word of CORE space. -/
def reading : State := onFib (fun x => { x.putLoads (rG 12) 0 0 [0] with
  loads := [(0, { loc := .core 65532, n := 4, sx := false })]
  qseq := 1 })

theorem wit_loads :
    (Access lastWord base (ldNeed lastWord) b0 0 (base.fibre 1024) (wantRead lastWord [2, 3, 4, 5]) (acc (.core 65532) 2 65532) ∧
      lastWord.ord = .plain ∧ lastWord.d = .g 12 ∧
      (reaching base b0 0 (acc (.core 65532) 2 65532)).issuedPlace (b0.fib 0) (.core 65532) = some (.scratch 0 65532)) ∧
    (∃ x ld w, reading.fibre? 1024 = some x ∧ mapGet x.loads 0 = some ld ∧ reading.issuedPlace 1024 ld.loc = some (.scratch 0 65532) ∧
      w ∈ x.pend ∧ w.load = some 0) ∧
    (let o := meOrd lastWord .acq .quad
     let u := (reaching base b0 0 (acc (.core 65532) 2 65532)).arriveAt (b0.fib 0) (.core 65532)
     Access o base (ldNeed o) b0 0 (base.fibre 1024) (wantRead o [2, 3, 4, 5]) (acc (.core 65532) 2 65532) ∧ o.ord ≠ .sc ∧ o.ord ≠ .plain ∧
      o.ord ≠ .rlx ∧ u.behind (b0.fib 0) (.core 65532) = false ∧
      u.issuedPlace (b0.fib 0) (.core 65532) = some (.scratch 0 65532)) ∧
    (let o := meOrd lastWord .sc .quad
     ∃ u, Access o base (ldNeed o) b0 0 (base.fibre 1024) (wantRead o [2, 3, 4, 5]) (acc (.core 65532) 2 65532) ∧ o.ord = .sc ∧
      (past base b0 0).releaseActs (b0.fib 0) o.sc = u ∧ u.releaseWaits (b0.fib 0) o.sc = false ∧
      (u.touchHandle (b0.fib 0) 2).issuedPlace (b0.fib 0) (.core 65532) = some (.scratch 0 65532)) :=
  ⟨⟨access _ _ _ _ _ (by decide +kernel) (by decide +kernel) (by decide +kernel), by decide +kernel⟩,
   ⟨reading.fibre 1024, { loc := .core 65532, n := 4, sx := false }, (reading.fibre 1024).pend.headD default, by decide +kernel⟩,
   ⟨access _ _ _ _ _ (by decide +kernel) (by decide +kernel) (by decide +kernel), by decide +kernel⟩,
   past base b0 0, access _ _ _ _ _ (by decide +kernel) (by decide +kernel) (by decide +kernel), by decide +kernel⟩

/-- ST of 64 bytes at the start of LANE space, from g16 on. -/
def stl16 : ME := me .none .none (.g 16) .none .b 1 0

theorem wit_stores :
    (lastWord.ord = .plain ∧ (past base b0 0).place (b0.fib 0) (.core 65532) = some (.scratch 0 65532) ∧
      (reaching base b0 0 (acc (.core 65532) 2 65532)).mustHold (b0.fib 0) (.core 65532) = false ∧
      Access lastWord base (stNeed lastWord) b0 0 (base.fibre 1024) (wantWrite lastWord.sz.bytes) (acc (.core 65532) 2 65532)) ∧
    ((past base b0 0).place (b0.fib 0) (.lane 0) = some (.scratch 0 65536) ∧
      (reaching base b0 0 (acc (.lane 0) 1 0)).mustHold (b0.fib 0) (.lane 0) = false ∧ (∃ j, stl16.b = .g j) ∧
      Access stl16 base (stlNeed stl16) b0 0 (base.fibre 1024) (wantWrite 64) (acc (.lane 0) 1 0)) ∧
    (let o := meOrd lastWord .rel .quad
     ∃ v r u, releasedAt o base b0 0 (acc (.core 65532) 2 65532) v ∧
      Access o base (stNeed o) b0 0 (base.fibre 1024) (wantWrite o.sz.bytes) (acc (.core 65532) 2 65532) ∧
      v.writeLoc (b0.fib 0) (acc (.core 65532) 2 65532) { ord := .rel, sc := .quad, cv := false, rc := false, hint := .normal }
        (leBytes o.sz.bytes (wordsNat (base.readVals (stNeed o) b0 0).b)) = (r, u)) :=
  ⟨⟨by decide +kernel, by decide +kernel, by decide +kernel, access _ _ _ _ _ (by decide +kernel) (by decide +kernel) (by decide +kernel)⟩,
   ⟨by decide +kernel, by decide +kernel, ⟨16, rfl⟩, access _ _ _ _ _ (by decide +kernel) (by decide +kernel) (by decide +kernel)⟩,
   past base b0 0, _, _, by
     rw [releasedAt, if_pos (by decide +kernel)]
     exact ⟨past base b0 0, by decide +kernel, by decide +kernel⟩,
   access _ _ _ _ _ (by decide +kernel) (by decide +kernel) (by decide +kernel), rfl⟩

theorem wit_l1 : ∃ (s : State) (xl : Xl) (bs : List Byte), bs.length + xl.pa % 64 ≤ 64 ∧
    (∀ y, s.l1 0 (sectorKey xl.pa xl.key) = some y → ∃ data, y = .clean data ∧ data.length = 64 ∨
      ∃ bm full acq cx v g w, y = .dirty bm full acq data cx v g w ∧ data.length = 64) ∧ (s.l1 0 (sectorKey xl.pa xl.key)).isSome :=
  ⟨base.setL1 0 (sectorKey 0x10000000 0) (.clean (List.replicate 64 0)), ⟨0x10000000, 0, 0⟩, List.replicate 64 1, by decide +kernel, by
    intro y hy
    rw [show State.l1 _ 0 _ = some (L1.clean (List.replicate 64 0)) from by decide +kernel] at hy
    cases hy
    exact ⟨_, .inl ⟨rfl, rfl⟩⟩, by decide +kernel⟩

/-- ATOM.w.add g12, h0[0], g4 under g8:g9. -/
def atomGlob : ME := me (.g 12) (.g 8) (.g 4) .none .w 0 0

theorem wit_atomics :
    (let v := (reaching base b0 0 (acc (.core 65532) 2 65532)).arriveAt (b0.fib 0) (.core 65532)
     releasedAt lastWord base b0 0 (acc (.core 65532) 2 65532) (reaching base b0 0 (acc (.core 65532) 2 65532)) ∧
      v.behind (b0.fib 0) (.core 65532) = false ∧ v.place (b0.fib 0) (.core 65532) = some (.scratch 0 65532) ∧
      Access lastWord base (atomNeed lastWord 0) b0 0 (base.fibre 1024) (wantAtom lastWord) (acc (.core 65532) 2 65532) ∧
      Access lastWord base (atomNeed lastWord lastWord.sz.regs) b0 0 (base.fibre 1024) (wantAtom lastWord)
        (acc (.core 65532) 2 65532) ∧
      Access lastWord base (stNeed lastWord) b0 0 (base.fibre 1024) (wantAtom lastWord) (acc (.core 65532) 2 65532)) ∧
    (∃ r u xl, releasedAt atomGlob mapped b0 0 (acc (.glob 0) 0 0) r ∧
      (let v := r.arriveAt (b0.fib 0) (.glob 0)
       v.behind (b0.fib 0) (.glob 0) = false ∧
      v.translate (.core (v.coreOf (b0.fib 0))) (v.ctxOf (b0.fib 0)) 0 .atomic = (.ok xl, u) ∧
      u.resolve (.core (u.coreOf (b0.fib 0))) (u.ctxOf (b0.fib 0)) 0 .atomic xl = (.ok xl, u) ∧ u.frozen xl.pa = false ∧
      u.l1 (u.coreOf (b0.fib 0)) (sectorKey xl.pa xl.key) = none) ∧ atomGlob.ch ≠ 1 ∧
      Access atomGlob mapped (atomNeed atomGlob 0) b0 0 (mapped.fibre 1024) (wantAtom atomGlob) (acc (.glob 0) 0 0)) :=
  ⟨⟨by rw [releasedAt, if_neg (by decide +kernel)], by decide +kernel, by decide +kernel,
    access _ _ _ _ _ (by decide +kernel) (by decide +kernel) (by decide +kernel),
    access _ _ _ _ _ (by decide +kernel) (by decide +kernel) (by decide +kernel),
    access _ _ _ _ _ (by decide +kernel) (by decide +kernel) (by decide +kernel)⟩,
   reaching mapped b0 0 (acc (.glob 0) 0 0), (((reaching mapped b0 0 (acc (.glob 0) 0 0)).arriveAt 1024 (.glob 0)).translate (.core 0) 1 0 .atomic).2, ⟨0x10000000, 0, 0⟩,
   by rw [releasedAt, if_neg (by decide +kernel)], ⟨by decide +kernel, okP (by decide +kernel) (by decide +kernel),
   okP (by decide +kernel) (by decide +kernel), by decide +kernel, by decide +kernel⟩, by decide +kernel,
   access _ _ _ _ _ (by decide +kernel) (by decide +kernel) (by decide +kernel)⟩


/-- Its ATOM.comm, and a fibre whose ACAS compares with 1. -/
def atomComm : ME := { atomGlob with ch := 1 }
def expects1 : State := mapped.modFibre 1024 (fun x => { x with regs := [(4, 1)] })

/-- Where the page of its access has translated. -/
def translated (s : State) : State :=
  (((reaching s b0 0 (acc (.glob 0) 0 0)).arriveAt 1024 (.glob 0)).translate (.core 0) 1 0 .atomic).2

theorem wit_globalAtomics (s : State) (e : Bool) (hs : s = mapped ∧ e = true ∨ s = expects1 ∧ e = false) :
    ∃ r u xl w, releasedAt atomGlob s b0 0 (acc (.glob 0) 0 0) r ∧ releasedAt atomComm s b0 0 (acc (.glob 0) 0 0) r ∧
      (let v := r.arriveAt (b0.fib 0) (.glob 0)
       v.behind (b0.fib 0) (.glob 0) = false ∧
       v.translate (.core (v.coreOf (b0.fib 0))) (v.ctxOf (b0.fib 0)) 0 .atomic = (.ok xl, w) ∧
       w.resolve (.core (w.coreOf (b0.fib 0))) (w.ctxOf (b0.fib 0)) 0 .atomic xl = (.ok xl, u) ∧ u.frozen xl.pa = false ∧
       u.l1 (u.coreOf (b0.fib 0)) (sectorKey xl.pa xl.key) = none) ∧
      Access atomComm s (atomNeed atomComm 0) b0 0 (s.fibre 1024) (wantAtom atomComm) (acc (.glob 0) 0 0) ∧
      Access atomGlob s (atomNeed atomGlob 1) b0 0 (s.fibre 1024) (wantAtom atomGlob) (acc (.glob 0) 0 0) ∧
      decide (leNat (u.homeRead xl.pa xl.key 4).1 = wordsNat (s.readVals (atomNeed atomGlob 1) b0 0).b % 2 ^ 32) = e := by
  obtain ⟨rfl, rfl⟩ | ⟨rfl, rfl⟩ := hs
  · exact ⟨_, translated mapped, ⟨0x10000000, 0, 0⟩, translated mapped,
      by rw [releasedAt, if_neg (by decide +kernel)], by rw [releasedAt, if_neg (by decide +kernel)],
      ⟨by decide +kernel, okP (by decide +kernel) (by decide +kernel), okP (by decide +kernel) (by decide +kernel), by decide +kernel⟩,
      access _ _ _ _ _ (by decide +kernel) (by decide +kernel) (by decide +kernel),
      access _ _ _ _ _ (by decide +kernel) (by decide +kernel) (by decide +kernel), by decide +kernel⟩
  · exact ⟨_, translated expects1, ⟨0x10000000, 0, 0⟩, translated expects1,
      by rw [releasedAt, if_neg (by decide +kernel)], by rw [releasedAt, if_neg (by decide +kernel)],
      ⟨by decide +kernel, okP (by decide +kernel) (by decide +kernel), okP (by decide +kernel) (by decide +kernel), by decide +kernel⟩,
      access _ _ _ _ _ (by decide +kernel) (by decide +kernel) (by decide +kernel),
      access _ _ _ _ _ (by decide +kernel) (by decide +kernel) (by decide +kernel), by decide +kernel⟩

/-- A core that gathers an update of the page's first sector. -/
def gathers : State := mapped.setL1 0 (sectorKey 0x10000000 0) (.updateOnly [{ off := 4, n := 4, fn := 0, val := 1 }])

theorem wit_globalReductions :
    (∃ w, atomGlob.ch ≠ 1 ∧ releasedAt atomGlob mapped b0 0 (acc (.glob 0) 0 0) (reaching mapped b0 0 (acc (.glob 0) 0 0)) ∧
      Access atomGlob mapped (stNeed atomGlob) b0 0 (mapped.fibre 1024) (wantAtom atomGlob) (acc (.glob 0) 0 0) ∧
      (reaching mapped b0 0 (acc (.glob 0) 0 0)).translate (.core 0) 1 0 .atomic = (.ok ⟨0x10000000, 0, 0⟩, w)) ∧
    (∃ w u ops, (reaching gathers b0 0 (acc (.glob 0) 0 0)).translate (.core 0) 1 0 .atomic = (.ok ⟨0x10000000, 0, 0⟩, w) ∧
      releasedAt atomComm gathers b0 0 (acc (.glob 0) 0 0) (reaching gathers b0 0 (acc (.glob 0) 0 0)) ∧ atomComm.ch = 1 ∧
      Access atomComm gathers (stNeed atomComm) b0 0 (gathers.fibre 1024) (wantAtom atomComm) (acc (.glob 0) 0 0) ∧
      (let z := w.arriveAt (b0.fib 0) (.glob 0)
       z.behind (b0.fib 0) (.glob 0) = false ∧
       z.resolve (.core (z.coreOf (b0.fib 0))) (z.ctxOf (b0.fib 0)) 0 .atomic ⟨0x10000000, 0, 0⟩ = (.ok ⟨0x10000000, 0, 0⟩, u)) ∧
      u.l1 (u.coreOf (b0.fib 0)) (sectorKey 0x10000000 0) = some (.updateOnly ops)) ∧
    (∃ w u, (reaching mapped b0 0 (acc (.glob 0) 0 0)).translate (.core 0) 1 0 .atomic = (.ok ⟨0x10000000, 0, 0⟩, w) ∧
      (let z := w.arriveAt (b0.fib 0) (.glob 0)
       z.behind (b0.fib 0) (.glob 0) = false ∧
       z.resolve (.core (z.coreOf (b0.fib 0))) (z.ctxOf (b0.fib 0)) 0 .atomic ⟨0x10000000, 0, 0⟩ = (.ok ⟨0x10000000, 0, 0⟩, u)) ∧
      u.l1 (u.coreOf (b0.fib 0)) (sectorKey 0x10000000 0) = none ∧ u.unsent (u.coreOf (b0.fib 0)) (sectorKey 0x10000000 0) = false ∧
      ∃ t, u.allocate (u.coreOf (b0.fib 0)) (sectorKey 0x10000000 0) .normal = some t) :=
  ⟨⟨_, by decide +kernel, by rw [releasedAt, if_neg (by decide +kernel)],
     access _ _ _ _ _ (by decide +kernel) (by decide +kernel) (by decide +kernel), okP (by decide +kernel) rfl⟩,
   ⟨translated gathers, translated gathers, _, okP (by decide +kernel) (by decide +kernel), by rw [releasedAt, if_neg (by decide +kernel)], rfl,
     access _ _ _ _ _ (by decide +kernel) (by decide +kernel) (by decide +kernel),
     ⟨by decide +kernel, okP (by decide +kernel) (by decide +kernel)⟩, rfl⟩,
   ⟨translated mapped, translated mapped, okP (by decide +kernel) (by decide +kernel),
     ⟨by decide +kernel, okP (by decide +kernel) (by decide +kernel)⟩, by decide +kernel, by decide +kernel,
     Option.isSome_iff_exists.1 (by decide +kernel)⟩⟩
theorem wit_handleAddresses :
    (∃ o : ME, Lone base (haddrNeed o) b0 0 (base.fibre 1024) ∧ o.hnd = 0) ∧
    (∃ o : ME, Lone readOnly (haddrNeed o) b0 0 (readOnly.fibre 1024) ∧ o.hnd ≠ 0 ∧
      ((past readOnly b0 0).entry (b0.fib 0) o.hnd.toNat).spaceOf = some 1 ∧
      0 ≤ eaOff o.off (readOnly.readVals (haddrNeed o) b0 0).a ∧
      eaOff o.off (readOnly.readVals (haddrNeed o) b0 0).a + o.sz.bytes ≤ ((past readOnly b0 0).entry (b0.fib 0) o.hnd.toNat).len) :=
  ⟨⟨me (.g 12) (.g 8) .none .none .w 0 0, lone _ _ (by decide +kernel), rfl⟩,
   ⟨me (.g 12) .none .none .none .w 6 4092, lone _ _ (by decide +kernel), by decide +kernel⟩⟩


/-- HADDR.w through h6, and the small state with an entry of one kind there. -/
def h6 (off : BitVec 20) : ME := me (.g 12) .none .none .none .w 6 off
def kindAt (kind start len : Nat) : State := base.modCtx 1 (fun c => { c with table := [(6, entryBytes start len (0x30 + kind) 0)] })

/-- The same where the team's launch exports 256 bytes to its quad, reserves 256 of Tundish and, in the second, spills at 4096. -/
def exporting (kind start len : Nat) : State :=
  { kindAt kind start len with
    launches := [(launchKey 1 1, { base.launchOfTeam 1 with blk := { placedBlock with quadexp := 256, tundish := 256 } })] }
def spilling (kind start len : Nat) : State := (kindAt kind start len).modTeam 1 (fun t => { t with spill := some (4096, 4) })

/-- A code entry of one line there. -/
def codeLine : State := base.modCtx 1 (fun c => { c with
  table := [(6, (entryBytes 0 64 0x76 0).take 20 ++ leBytes 4 1 ++ List.replicate 8 0)] })

/-- What HADDR finds at h6: the space, whether the span lies inside `LEN`, and the final address. -/
def Finds (s : State) (off : BitVec 20) (sp : Option Nat) (inside : Bool) (fin : Int) : Prop :=
  Lone s (haddrNeed (h6 off)) b0 0 (s.fibre 1024) ∧
    let e := (past s b0 0).entry 1024 6
    let v := eaOff off (s.readVals (haddrNeed (h6 off)) b0 0).a
    e.spaceOf = sp ∧ decide (0 ≤ v ∧ v + 4 ≤ e.len) = inside ∧ (e.base : Int) + v = fin

/-- Every kind at h6, on both sides of each bound. -/
theorem wit_handleKinds :
    Finds (kindAt 0 0 64) 0 none true 0 ∧ Finds (kindAt 1 0 64) 61 (some 1) false 61 ∧
    Finds (kindAt 2 0 64) 0xFFFFF (some 2) false (-1) ∧ Finds (kindAt 2 0 64) 61 (some 2) false 61 ∧
    (Finds (kindAt 2 8189 64) 0 (some 2) true 8189 ∧ ((past (kindAt 2 8189 64) b0 0).blockOf 1024).lane = 8192) ∧
    (Finds (kindAt 2 8188 64) 0 (some 2) true 8188 ∧ ((past (kindAt 2 8188 64) b0 0).blockOf 1024).lane = 8192) ∧
    Finds (kindAt 3 0 64) 61 (some 3) false 61 ∧
    (Finds (kindAt 3 65533 64) 0 (some 3) true 65533 ∧ ((past (kindAt 3 65533 64) b0 0).blockOf 1024).scratch = 65536) ∧
    (Finds (spilling 3 4096 64) 28 (some 3) true 4124 ∧ (past (spilling 3 4096 64) b0 0).inSpill 1 4124 4 = true) ∧
    (Finds (spilling 3 4096 64) 32 (some 3) true 4128 ∧ (past (spilling 3 4096 64) b0 0).inSpill 1 4128 4 = false) ∧
    Finds (kindAt 4 0 64) 61 (some 4) false 61 ∧ Finds (kindAt 4 0x100000 64) 0 (some 4) true 0x100000 ∧
    (Finds (kindAt 4 0xFFFFC 64) 0 (some 4) true 0xFFFFC ∧ (past (kindAt 4 0xFFFFC 64) b0 0).member 1 3 = none) ∧
    (Finds (exporting 4 0 0x100000) 253 (some 4) true 253 ∧ (past (exporting 4 0 0x100000) b0 0).member 1 0 = some 1 ∧
      ((past (exporting 4 0 0x100000) b0 0).launchOfTeam 1).blk.quadexp = 256) ∧
    (Finds (exporting 4 0 0x100000) 252 (some 4) true 252 ∧ (past (exporting 4 0 0x100000) b0 0).member 1 0 = some 1 ∧
      ((past (exporting 4 0 0x100000) b0 0).launchOfTeam 1).blk.quadexp = 256) ∧
    Finds (kindAt 5 0 64) 61 (some 5) false 61 ∧
    (Finds (exporting 5 0 1024) 253 (some 5) true 253 ∧ ((past (exporting 5 0 1024) b0 0).blockOf 1024).tundish = 256) ∧
    (Finds (exporting 5 0 1024) 252 (some 5) true 252 ∧ ((past (exporting 5 0 1024) b0 0).blockOf 1024).tundish = 256) ∧
    Finds codeLine 60 (some 6) true 60 := by
  refine ⟨?_, ?_, ?_, ?_, ⟨?_, ?_⟩, ⟨?_, ?_⟩, ?_, ⟨?_, ?_⟩, ⟨?_, ?_⟩, ⟨?_, ?_⟩, ?_, ?_, ⟨?_, ?_⟩, ⟨?_, ?_, ?_⟩, ⟨?_, ?_, ?_⟩, ?_, ⟨?_, ?_⟩,
    ⟨?_, ?_⟩, ?_⟩
  all_goals first | decide +kernel | exact ⟨lone _ _ (by decide +kernel), by decide +kernel⟩
/-- A queue entry of the last word of CORE space. -/
def qe (g : QGot) : QEntry :=
  { sz := .w, sx := false, nr := true, pr := 3, loc := .core 65532, how := { ord := .plain, sc := .lane, cv := false, rc := false, hint := .normal },
    hnd := 2, at_ := g, seq := 0 }

/-- The small state with entries in queue 1. -/
def withQueue (es : List QEntry) : State := onFib (fun x => { x with queues := [(1, es)] })

/-- LDQ of the last word into q1, and QPOP.w of q1. -/
def ldq1 : ME := me (.q 1) .none .none (.p 3) .w 2 65532
def qpop1 : SY := sy (.g 31) (.q 1) .none .none 0 (2 * 256) 0

theorem wit_queueReads :
    (let s := withQueue (List.replicate 8 (qe .flight))
     Lone s (ldqNeed ldq1) b0 0 (s.fibre 1024) ∧ 8 ≤ (queueOf (s.fibre 1024) (qOf ldq1.d)).length) ∧
    (Lone base (ldqNeed ldq1) b0 0 (base.fibre 1024) ∧ (queueOf (base.fibre 1024) (qOf ldq1.d)).length < 8 ∧
      (past base b0 0).acqHeld (b0.fib 0) = false ∧ ldq1.ord ≠ .sc ∧
      checked ldq1 base (ldqNeed ldq1) b0 0 (wantRead ldq1 [1, 2, 3, 4, 5]) = .ok (acc (.core 65532) 2 65532)) ∧
    (let o := meOrd ldq1 .sc .quad
     Lone base (ldqNeed o) b0 0 (base.fibre 1024) ∧ o.ord = .sc ∧
      checked o base (ldqNeed o) b0 0 (wantRead o [1, 2, 3, 4, 5]) = .ok (acc (.core 65532) 2 65532)) ∧
    (let s := withQueue [qe .flight]
     s.fibre? 1024 = some (s.fibre 1024) ∧ (s.fibre 1024).halted = false ∧ (queueOf (s.fibre 1024) 1)[0]? = some (qe .flight) ∧
      ((s.flying 1024).filter (fun y => decide (y.seq < (qe .flight).seq) && y.block == locBlock (qe .flight).loc)) = [] ∧
      s.issuedPlace 1024 (qe .flight).loc = some (.scratch 0 65532)) :=
  ⟨⟨lone _ _ (by decide +kernel), by decide +kernel⟩,
   ⟨lone _ _ (by decide +kernel), by decide +kernel, by decide +kernel, by decide +kernel, okE (by decide +kernel)⟩,
   ⟨lone _ _ (by decide +kernel), by decide +kernel, okE (by decide +kernel)⟩, by decide +kernel⟩

/-- A token with one command open. -/
def tok1 : Tok := { count := 1, bytes := 0, nrz := false, errs := [], launches := [], engine := false, wrote := [], acq := [] }

theorem wit_queueResults :
    (Lone base (qpopNeed qpop1) b0 0 (base.fibre 1024) ∧ queueOf (base.fibre 1024) (qOf qpop1.a) = []) ∧
    (∀ g ∈ [QGot.flight, .bytes [1, 2, 3, 0x84] true, .fault 0x021 7 none, .fault 0x023 7 none], let s := withQueue [qe g]
      Lone s (qpopNeed qpop1) b0 0 (s.fibre 1024) ∧ queueOf (s.fibre 1024) (qOf qpop1.a) = qe g :: [] ∧ (qe g).sz = qpopSz qpop1) ∧
    (let s := withQueue [qe (.bytes [1, 2, 3, 0x84] true)]
     ∃ o, Lone s (qpopNeed o) b0 0 (s.fibre 1024) ∧ queueOf (s.fibre 1024) (qOf o.a) = qe (.bytes [1, 2, 3, 0x84] true) :: [] ∧
       (qe (.bytes [1, 2, 3, 0x84] true)).at_ ≠ .flight ∧ (qe (.bytes [1, 2, 3, 0x84] true)).sz ≠ qpopSz o) ∧
    (∃ o, Quiet base (qstatNeed o) b0 ∧ namesK o.d = false) ∧
    (let o : SY := sy (.g 4) (.g 3) .none .none 0 0 0
     Lone capsule (tktestNeed o) b0 0 (capsule.fibre 1024) ∧ o.a = .g 3 ∧ (capsule.fibre 1024).capMode = true) ∧
    (∀ m, m = [] ∨ m = [(9, tok1)] → ∃ o : SY, let s := onFib (fun x => { x with tok := m })
      Lone s (tktestNeed o) b0 0 (s.fibre 1024) ∧ o.a = .g 9 ∧ (s.fibre 1024).capMode = false ∧ mapHas (s.fibre 1024).tok 9 = !m.isEmpty) :=
  ⟨⟨lone _ _ (by decide +kernel), by decide +kernel⟩,
   by
    intro g hg
    simp only [List.mem_cons, List.not_mem_nil, or_false] at hg
    rcases hg with rfl | rfl | rfl | rfl <;> exact ⟨lone _ _ (by decide +kernel), by decide +kernel, by decide +kernel⟩,
   ⟨sy (.g 31) (.q 1) .none .none 0 (3 * 256) 0, lone _ _ (by decide +kernel), by decide +kernel, by decide +kernel,
    by decide +kernel⟩,
   ⟨sy (.g 31) (.q 1) .none .none 0 0 0, quiet _ _ (by decide +kernel), by decide +kernel⟩,
   ⟨lone _ _ (by decide +kernel), by decide +kernel⟩,
   by
    rintro m (rfl | rfl) <;> exact ⟨sy (.g 31) (.g 9) .none .none 0 0 0, lone _ _ (by decide +kernel), by decide +kernel⟩⟩

/-- PREF and HRES at h0 with A = g8:g9. -/
def glob8 : ME := me (.g 12) (.g 8) (.g 4) .none .w 0 0

/-- The mapped state with the page's leaf not resident. -/
def away : State := { mapped with dram := mapped.dram.write 65536 0x7B }

theorem wit_hints :
    (∃ e, Lone base (prefNeed lostMe) b0 0 (base.fibre 1024) ∧ (past base b0 0).acqHeld (b0.fib 0) = false ∧
      (past base b0 0).check (b0.fib 0) lostMe.hnd.toNat (offOf lostMe base (prefNeed lostMe) b0 0)
        { spaces := [1], n := 1, align := 1, rd := true } = .error e) ∧
    (∀ r s, (r, s) ∈ [(State.Residence.unmapped, base), (.resident, mapped), (.absent, away)] →
      Lone s (hresNeed glob8) b0 0 (s.fibre 1024) ∧ (past s b0 0).acqHeld (b0.fib 0) = false ∧ glob8.hnd = 0 ∧
        offOf glob8 s (hresNeed glob8) b0 0 = ((0 : Nat) : Int) ∧ (past s b0 0).residence ((past s b0 0).ctxOf (b0.fib 0)) 0 = r) :=
  ⟨⟨{ eff := 0x027, arg := marg 6 0 }, lone _ _ (by decide +kernel), by decide +kernel, erE (by decide +kernel)⟩, by
    intro r s h
    simp only [List.mem_cons, List.not_mem_nil, or_false, Prod.mk.injEq] at h
    rcases h with ⟨rfl, rfl⟩ | ⟨rfl, rfl⟩ | ⟨rfl, rfl⟩ <;> exact ⟨lone _ _ (by decide +kernel), by decide +kernel⟩⟩

/-- The mapped state with a Dirty sector of the page in the core's L1. -/
def dirtied : State :=
  mapped.setL1 0 (sectorKey 0x10000000 0) (.dirty 1 false false (5 :: List.replicate 63 0) 1 0 0 [{ fib := 1024, life := 0, arg := marg 0 0, mask := 1 }])

/-- That state with the page's frame frozen, and with g4 = 64. -/
def frozenPage (s : State) : State :=
  { s with frames := mapSet s.frames 0x1000 { gen := 0, moving := some (0x1001, 1), frozen := true, owner := some 1 } }
def range64 (s : State) : State := s.modFibre 1024 (fun x => { x with regs := [(4, 64)] })

/-- A store of the fibre on its way to page 0. -/
def req0 : HomeReq :=
  { fib := 1024, life := 0, team := 1, core := 0, ctx := 1, cxgen := 0, loc := .glob 0, pa := 0x10000000, key := 0, gen := 0, hnd := 0,
    op := .write [7], through := true, unp := false, sc := none, hint := .normal, seq := 0, issued := 0, replay := false }

/-- The state after the fibre's own accesses of the 64 bytes at virtual 0, the pieces of the range, and the sectors they cover. -/
def ranged (s : State) : State := (past s b0 0).arriveBefore (b0.fib 0) (fun y => inBlocks 0 64 y.block)
def pieces64 (s : State) : List (Nat × Nat) := (ranged s).rangePieces ((ranged s).ctxOf (b0.fib 0)) 0 64
def sectors64 (s : State) : List Nat := (pieces64 s).flatMap (fun e => (ranged s).sectorsOver 0 e.1 e.2)

theorem wit_rangeInstructions :
    (Lone base (rangeNeed lastWord) b0 0 (base.fibre 1024) ∧ (past base b0 0).acqHeld (b0.fib 0) = false ∧
      ((past base b0 0).entry (b0.fib 0) lastWord.hnd.toNat).spaceOf = some 3) ∧
    (let s := range64 dirtied
     ∃ t u, Lone s (rangeNeed glob8) b0 0 (s.fibre 1024) ∧ (past s b0 0).acqHeld (b0.fib 0) = false ∧ glob8.hnd = 0 ∧
      ((past s b0 0).entry (b0.fib 0) 0).spaceOf = some 1 ∧ offOf glob8 s (rangeNeed glob8) b0 0 = ((0 : Nat) : Int) ∧
      wordsNat (s.readVals (rangeNeed glob8) b0 0).b = 64 ∧ (∀ k ∈ sectors64 s, (ranged s).heldBack 0 k = false) ∧ sectors64 s ≠ [] ∧
      (∀ y ∈ (ranged s).flying 1024, inBlocks 0 64 y.block = false) ∧
      t = (sectors64 s).foldl (fun s k => s.writeBack 0 k true) (ranged s) ∧ (∀ k ∈ sectors64 s, t.unsent 0 k = false) ∧
      u = (pieces64 s).foldl (fun s e => s.dropCopies 0 e.1 e.2)
        ((sectors64 s).foldl (fun s k => s.flushSector 0 (k / 512 * 64) (k % 512) true) (ranged s)) ∧
      ∀ k ∈ sectors64 s, u.unsent 0 k = false) ∧
    (let s := frozenPage (range64 dirtied)
     Lone s (rangeNeed glob8) b0 0 (s.fibre 1024) ∧ (past s b0 0).acqHeld (b0.fib 0) = false ∧
      ∃ k ∈ sectors64 s, (ranged s).heldBack 0 k = true) ∧
    (let s : State := { frozenPage (range64 mapped) with reqs := [(0, req0)] }
     Lone s (rangeNeed glob8) b0 0 (s.fibre 1024) ∧ (past s b0 0).acqHeld (b0.fib 0) = false ∧
      ∃ y ∈ (ranged s).flying 1024, inBlocks 0 64 y.block = true) :=
  ⟨⟨lone _ _ (by decide +kernel), by decide +kernel⟩,
   ⟨_, _, lone _ _ (by decide +kernel), join4 (by decide +kernel) (join4 (by decide +kernel) ⟨rfl, by decide +kernel, rfl, by decide +kernel⟩)⟩,
   ⟨lone _ _ (by decide +kernel), by decide +kernel, by decide +kernel⟩,
   lone _ _ (by decide +kernel), by decide +kernel, by decide +kernel⟩
/-- FENCE with an order and a scope. -/
def fence (m : MOrd) (sc : Scope) : ME := meOrd (me .none .none .none .none .w 0 0) m sc

/-- The small state with a network command of the fibre on its way. -/
def netting : State := { base with cmds := [(0, { (default : Cmd) with kind := .xput 0 1 0 4, team := 1, fib := 1024 })] }

/-- The small state with a fault that a store of the fibre left. -/
def faulted : State := onFib (fun x => { x with sfaults := [9] })

theorem wit_fencesOrder :
    (∃ o, Lone base (fenceNeed o) b0 0 (base.fibre 1024) ∧ ¬(o.ord = .rel ∨ o.ord = .ar ∨ o.ord = .sc)) ∧
    (∃ u, Lone base (fenceNeed (fence .sc .die)) b0 0 (base.fibre 1024) ∧ (past base b0 0).release (b0.fib 0) .die = (.done, u)) ∧
     (∃ u, Lone netting (fenceNeed (fence .rel .sys)) b0 0 (netting.fibre 1024) ∧
      (past netting b0 0).release (b0.fib 0) .sys = (.wait, u)) ∧
    (∃ u, Lone faulted (fenceNeed (fence .ar .die)) b0 0 (faulted.fibre 1024) ∧
      (past faulted b0 0).release (b0.fib 0) .die = (.fault 9, u)) :=
  ⟨⟨fence .acq .die, lone _ _ (by decide +kernel), by decide +kernel⟩,
   ⟨((past base b0 0).release 1024 .die).2, lone _ _ (by decide +kernel), by decide +kernel⟩,
   ⟨((past netting b0 0).release 1024 .sys).2, lone _ _ (by decide +kernel), by decide +kernel⟩,
   ⟨((past faulted b0 0).release 1024 .die).2, lone _ _ (by decide +kernel), by decide +kernel⟩⟩

/-- WLINE on the last word of CORE space, which compares with g4. -/
def watching : State := onFib (fun x => { x with st := .waiting (.wline 5) }) |>.modCore 0 (fun c => { c with
  watch := [(5, { fib := 1024, sector := 1023, space := 3, changed := true })] })

/-- The small state with every watch slot of its core taken. -/
def noSlots : State := base.modCore 0 (fun c => { c with
  watch := (List.range 64).map (fun i => (i, { fib := 9, sector := 0, space := 0, changed := false })) })

theorem wit_watchSlots :
    (∀ s ∈ [regs [(4, 1)], base, noSlots], ∃ sec, Access lastWord s (wlineNeed lastWord) b0 0 (s.fibre 1024)
        (wantRead lastWord [1, 2, 3, 4, 5]) (acc (.core 65532) 2 65532) ∧
      let u := (reaching s b0 0 (acc (.core 65532) 2 65532)).arriveAt (b0.fib 0) (.core 65532)
      u.behind (b0.fib 0) (.core 65532) = false ∧ u.issuedPlace (b0.fib 0) (.core 65532) = some (.scratch 0 65532) ∧ u.slotOfFibre (b0.fib 0) = none ∧
      u.watchSector (b0.fib 0) (.core 65532) = some sec) ∧
    (let v (s : State) := (reaching s b0 0 (acc (.core 65532) 2 65532)).arriveAt (b0.fib 0) (.core 65532)
     let same (s : State) : Prop := leNat ((v s).placeRead lastWord.sz.bytes (.scratch 0 65532)) =
       wordsNat (s.readVals (wlineNeed lastWord) b0 0).b
     ¬same (regs [(4, 1)]) ∧ same base ∧ mapFree ((v base).core 0).watch 64 = some 0 ∧ same noSlots ∧
       mapFree ((v noSlots).core 0).watch 64 = none) ∧
    (∃ x w, watching.fibre? 1024 = some x ∧ x.st = .waiting (.wline 5) ∧ x.halted = false ∧ (5, w) ∈ (watching.core 0).watch ∧
      w.fib = 1024 ∧ w.changed = true) :=
  ⟨by
    intro s hs
    simp only [List.mem_cons, List.not_mem_nil, or_false] at hs
    rcases hs with rfl | rfl | rfl <;> exact ⟨(scratchSpace 0, 1023),
      access _ _ _ _ _ (by decide +kernel) (by decide +kernel) (by decide +kernel), by decide +kernel⟩,
   by decide +kernel, watching.fibre 1024, { fib := 1024, sector := 1023, space := 3, changed := true }, by decide +kernel⟩

/-- The small state with a slot that watches one sector. -/
def slotAt (space sector : Nat) : State := base.modCore 0 (fun c => { c with
  watch := [(5, { fib := 1024, sector := sector, space := space, changed := false })] })

/-- A write of two bytes over the end of sector 1 is one of both sectors, on the chip and in Tundish; a write at home is in its sector. -/
theorem wit_watchMarks :
    (∃ w pa, mapGet ((slotAt 0 0x400001).core 0).watch 5 = some w ∧ w.space = 0 ∧ w.sector = pa / 64) ∧
    (∀ i ∈ [1, 2], ∃ w, mapGet ((slotAt 1 i).core 0).watch 5 = some w ∧ w.space = 1 + 0 ∧ 127 / 64 ≤ w.sector ∧ w.sector ≤ (127 + 2 - 1) / 64) ∧
    (∀ i ∈ [1, 2], ∃ w, mapGet ((slotAt 100007 i).core 0).watch 5 = some w ∧ w.space = 100000 + 7 ∧ 127 / 64 ≤ w.sector ∧
      w.sector ≤ (127 + 2 - 1) / 64) := by
  refine ⟨⟨{ fib := 1024, sector := 0x400001, space := 0, changed := false }, 0x10000040, by decide +kernel⟩, ?_, ?_⟩ <;> intro i hi
  · exact ⟨{ fib := 1024, sector := i, space := 1, changed := false }, by revert i; decide +kernel⟩
  · exact ⟨{ fib := 1024, sector := i, space := 100007, changed := false }, by revert i; decide +kernel⟩
/-- A capsule block at virtual 0 of the mapped state, with a LOCK and its entry at slot 0 of line 2. -/
def block (lock : Nat) : State :=
  { mapped with dram := (mapped.dram.writes 0x10000000 (leBytes 8 lock)).writes 0x10000008 (leBytes 4 256) }

theorem blockAt (o : ME) (s : State) (n : Need) (a : Acc) (xl : Xl) (u : State)
    (h : (decide (s.cur = some b0) && s.fate n b0 0 == .go && decide (s.fibre? 1024 = some (s.fibre 1024)) &&
      (s.fibre 1024).tokAcq.isEmpty) = true)
    (hs : (past s b0 0).acqHeld 1024 = false ∧ ((past s b0 0).entry 1024 o.hnd.toNat).kind = 1 ∧
      (checked o s n b0 0 { spaces := [1], n := 1024, align := 1024, rd := true, wr := true, at_ := true }).toOption = some a ∧
      (((reaching s b0 0 a).arriveAt 1024 a.loc).capXl 1024 (locVa a.loc)).1.toOption = some xl)
    (hu : (((reaching s b0 0 a).arriveAt 1024 a.loc).capXl 1024 (locVa a.loc)).2 = u) : BlockAt o s n b0 0 (s.fibre 1024) a xl u :=
  ⟨lone s n h, hs.1, hs.2.1, okE hs.2.2.1, okP hs.2.2.2 hu⟩

/-- CAPENTER g12, h0[g8:g9], mailbox g4:g5, and CAPRESET likewise. -/
def cap0 : ME := { me (.g 12) (.g 8) (.g 4) .none .d 0 0 with sc := .sys }

/-- The state after the translation of the block, and after the mailbox's. -/
def capU (s : State) : State := (((reaching s b0 0 (acc (.glob 0) 0 0)).arriveAt 1024 (.glob 0)).capXl 1024 0).2
def capV (s : State) : State := (mailboxErr (capU s) 1024 (wordsNat (s.readVals (capenterNeed cap0) b0 0).b)).2

theorem wit_capsuleEntry : ∀ st ∈ [0, 2, 3], let s := block (lockWord st 3 9 77)
    BlockAt cap0 s (capenterNeed cap0) b0 0 (s.fibre 1024) (acc (.glob 0) 0 0) ⟨0x10000000, 0, 0⟩ (capU s) ∧
    mailboxErr (capU s) 1024 (wordsNat (s.readVals (capenterNeed cap0) b0 0).b) = (none, capV s) ∧
    (capV s).capHeld 1024 0 ⟨0x10000000, 0, 0⟩ = false ∧
    ∃ blk w, (capV s).capRead 1024 ⟨0x10000000, 0, 0⟩ = (blk, w) ∧
    fieldAt blk 12 4 = 0 ∧ isSlot (BitVec.ofNat 32 (fieldAt blk 8 4)) = true ∧ lockState (fieldAt blk 0 8) = st := by
  intro st h
  simp only [List.mem_cons, List.not_mem_nil, or_false] at h
  rcases h with rfl | rfl | rfl <;> exact ⟨
    blockAt _ _ _ _ _ _ (by decide +kernel) (by decide +kernel) rfl,
    by decide +kernel, by decide +kernel, _, _, rfl, by decide +kernel, by decide +kernel, by decide +kernel⟩

/-- A tenure of the block with n steps behind it. -/
def held0 (n : Nat) : Held := ⟨0, base.ownerOf 1024, 77, n, 64, 12, false, some 512, 0⟩

/-- The block of a running tenure of the fibre, which is in capsule mode with n steps behind it. -/
def inTenure (n : Nat) : State :=
  (block (lockWord 1 n (base.ownerOf 1024) 77)).modFibre 1024 (fun x => { x with
    capMode := true
    held := some (held0 n) })

/-- The state in which the LOCK of a block is read for an access at an offset. -/
def lockState0 (s : State) (h : Held) (off : Nat) : Except XErr Xl × State :=
  (((past s b0 0).arriveAt (b0.fib 0) (.glob h.block)).arriveAt (b0.fib 0) (.glob (h.block + off))).capXl (b0.fib 0) h.block

theorem fstE {α β : Type} {r : α × β} {a : α} (h : r.1 = a) : r = (a, r.2) := by rw [← h]

theorem tenure (s : State) (n : Need) (h : Held) (off : Nat) (xl : Xl)
    (hl : (decide (s.cur = some b0) && s.fate n b0 0 == .go && decide (s.fibre? 1024 = some (s.fibre 1024)) &&
      (s.fibre 1024).tokAcq.isEmpty) = true)
    (hs : (s.fibre 1024).capMode = true ∧ (s.fibre 1024).held = some h ∧ (past s b0 0).acqHeld (b0.fib 0) = false ∧
      (lockState0 s h off).1.toOption = some xl ∧ (lockState0 s h off).2.capHeld (b0.fib 0) h.block xl = false ∧
      (lockState0 s h off).2.behind (b0.fib 0) (.glob (h.block + off)) = false)
    (ho : (lockState (fieldAt ((lockState0 s h off).2.capRead (b0.fib 0) xl).1 0 8) = 1 ∨
      lockState (fieldAt ((lockState0 s h off).2.capRead (b0.fib 0) xl).1 0 8) = 2) ∧
      lockOwner (fieldAt ((lockState0 s h off).2.capRead (b0.fib 0) xl).1 0 8) = h.owner ∧
      lockOgen (fieldAt ((lockState0 s h off).2.capRead (b0.fib 0) xl).1 0 8) = h.ogen ∧
      lockStep (fieldAt ((lockState0 s h off).2.capRead (b0.fib 0) xl).1 0 8) = h.step) :
    InTenure s n b0 0 (s.fibre 1024) h off xl ((lockState0 s h off).2.capRead (b0.fib 0) xl).2 ((lockState0 s h off).2.capRead (b0.fib 0) xl).1 :=
  ⟨lone s n hl, hs.1, hs.2.1, hs.2.2.1, ⟨(lockState0 s h off).2, okP hs.2.2.2.1 rfl, hs.2.2.2.2.1, hs.2.2.2.2.2, (Prod.eta _).symm⟩, ho⟩

/-- A tenure that the fibre adopted, whose holder's mailbox the block names. -/
def adopted0 : State :=
  (block (lockWord 1 0 (base.ownerOf 1024) 77)).modFibre 1024 (fun x => { x with
    capMode := true
    held := some { held0 0 with adopter := true, hmbx := none } })

/-- CSTEP.w at an offset of the block. -/
def cstepAt (off : BitVec 20) : ME := me .none .none (.g 4) .none .w 0 off

theorem wit_capsuleSteps :
    (Lone base (cstepNeed (cstepAt 0x3FC)) b0 0 (base.fibre 1024) ∧
      Lone base (capexitNeed (sy .none (.g 4) .none .none 0 0 0)) b0 0 (base.fibre 1024) ∧ (base.fibre 1024).capMode = false) ∧
    (∀ n ∈ [0, 31, 32], ∃ h u blk, h.step = n ∧ InTenure (inTenure n) (cstepNeed (cstepAt 0x3FC)) b0 0 ((inTenure n).fibre 1024) h 0x3FC
      ⟨0x10000000, 0, 0⟩ u blk ∧ (0x80 : Int) ≤ eaOff (cstepAt 0x3FC).off ((inTenure n).readVals (cstepNeed (cstepAt 0x3FC)) b0 0).a ∧
        eaOff (cstepAt 0x3FC).off ((inTenure n).readVals (cstepNeed (cstepAt 0x3FC)) b0 0).a + 4 ≤ 0x400 ∧
        eaOff (cstepAt 0x3FC).off ((inTenure n).readVals (cstepNeed (cstepAt 0x3FC)) b0 0).a % 4 = 0) ∧
    (∃ h u blk, InTenure (inTenure 0) (cstepNeed (cstepAt 0x400)) b0 0 ((inTenure 0).fibre 1024) h 0x400 ⟨0x10000000, 0, 0⟩ u blk ∧
      0x400 < eaOff (cstepAt 0x400).off ((inTenure 0).readVals (cstepNeed (cstepAt 0x400)) b0 0).a + (cstepAt 0x400).sz.bytes) ∧
    (∃ h u blk v, InTenure (inTenure 0) (capexitNeed (sy .none (.g 4) .none .none 0 0 0)) b0 0 ((inTenure 0).fibre 1024) h 0
      ⟨0x10000000, 0, 0⟩ u blk ∧ u.leaveWaits 1024 h = [] ∧ u.release 1024 (blockScope blk) = (.done, v) ∧ h.adopter = false) ∧
    (∃ u blk v w, let h : Held := { held0 0 with adopter := true, hmbx := none }
      InTenure adopted0 (capexitNeed (sy .none (.g 4) .none .none 0 0 0)) b0 0 (adopted0.fibre 1024) h 0
      ⟨0x10000000, 0, 0⟩ u blk ∧ u.leaveWaits 1024 h = [] ∧ u.release 1024 (blockScope blk) = (.done, v) ∧ h.adopter = true ∧
      exitAnswer 1024 h (fieldAt blk 0x30 8) ((adopted0.readVals (capexitNeed (sy .none (.g 4) .none .none 0 0 0)) b0 0).a.headD 0) v =
        some w) ∧
    (∀ st ∈ [0, 3], ∃ u v blk, let s := block (lockWord st 3 9 77)
      BlockAt cap0 s (capresetNeed cap0) b0 0 (s.fibre 1024) (acc (.glob 0) 0 0) ⟨0x10000000, 0, 0⟩ u ∧
      u.capHeld 1024 0 ⟨0x10000000, 0, 0⟩ = false ∧ u.capRead 1024 ⟨0x10000000, 0, 0⟩ = (blk, v) ∧ lockState (fieldAt blk 0 8) = st) :=
  ⟨⟨lone _ _ (by decide +kernel), lone _ _ (by decide +kernel), by decide +kernel⟩,
   by
    intro n h
    simp only [List.mem_cons, List.not_mem_nil, or_false] at h
    rcases h with rfl | rfl | rfl <;> exact ⟨held0 _, _, _, rfl,
      tenure _ _ _ _ _ (by decide +kernel) (by decide +kernel) (by decide +kernel), by decide +kernel, by decide +kernel, by decide +kernel⟩,
   ⟨_, _, _, tenure _ _ (held0 0) _ _ (by decide +kernel) (by decide +kernel) (by decide +kernel), by decide +kernel⟩,
   ⟨_, _, _, _, tenure _ _ (held0 0) _ _ (by decide +kernel) (by decide +kernel) (by decide +kernel), by decide +kernel, fstE (by decide +kernel), rfl⟩,
   ⟨_, _, _, (exitAnswer 1024 { held0 0 with adopter := true, hmbx := none } 0 0
      (((lockState0 adopted0 (held0 0) 0).2.capRead (b0.fib 0) ⟨0x10000000, 0, 0⟩).2.release 1024 .sys).2).getD default,
    tenure _ _ { held0 0 with adopter := true, hmbx := none } 0 _ (by decide +kernel) (by decide +kernel) (by decide +kernel), by decide +kernel, fstE (by decide +kernel), rfl,
    by decide +kernel⟩,
   by
    intro st h
    simp only [List.mem_cons, List.not_mem_nil, or_false] at h
    rcases h with rfl | rfl <;> exact ⟨_, _, _,
      blockAt _ _ _ _ _ _ (by decide +kernel) (by decide +kernel) rfl,
      by decide +kernel, rfl, by decide +kernel⟩⟩

/-- EN fields: token, A, B, C, the handles, and the low bits. -/
def en (d a b c : Spec) (x : BitVec 6) (hx hy : BitVec 12) (lo : BitVec 8) : EN :=
  ⟨fields d a b c 0, false, false, .core, x, hx, hy, lo⟩

/-- CPY of 32 bytes of CORE space from 0 to the offset in g4, with token g9. -/
def cpy32 : EN := en (.g 9) .none (.g 4) .none 31 2 2 0

/-- The small state with g4 = 64. -/
def at64 : State := regs [(4, 64)]

/-- A command of the fibre. -/
def cmd0 (k : CmdKind) : Cmd := { (default : Cmd) with kind := k, team := 1, fib := 1024, begun := true }

/-- A state with n commands of a kind. -/
def withCmds (n : Nat) (k : CmdKind) (s : State) : State := { s with cmds := (List.range n).map (fun i => (i, cmd0 k)) }

/-- CPY from h6, which the small context does not have. -/
def cpyBad : EN := en (.g 9) .none (.g 4) .none 31 6 2 0

/-- A need of CPY. -/
def cpyNeed (o : EN) : Need :=
  { head := o.toHead, imm := 0, na := offRegs o.hx o.a, nb := offRegs o.hy o.b, nc := if o.c.isNone then 0 else 1, live := true, tokD := true }

/-- The small state with a full token table. -/
def tokensFull : State := at64.modFibre 1024 (fun x => { x with tok := (List.range 16).map (fun i => (20 + i, tok1)) })

/-- The checks of CPY find its command in a state, whose table and engine are full or not. -/
def CpyIssues (s : State) (table engine : Bool) : Prop :=
  Lone s (cpyNeed cpy32) b0 0 (s.fibre 1024) ∧
    cpyPrep cpy32 (s.laneOf b0 0) (s.readVals (cpyNeed cpy32) b0 0) (past s b0 0) = .ok (.cpy 0 64 32 32) ∧
    tokFull ((past s b0 0).fibre (b0.fib 0)) ((past s b0 0).cmdOf (s.laneOf b0 0) cpy32 (.cpy 0 64 32 32)).tok = table ∧
    (past s b0 0).engineFull ((past s b0 0).coreOf (b0.fib 0)) (.cpy 0 64 32 32) = engine

theorem wit_engineCommandsIssue :
    (∃ op, engineOp (.cpy cpy32) = some op ∧ op.need = cpyNeed cpy32 ∧ op.prep = cpyPrep cpy32 ∧ op.copy = true) ∧
    (∃ op e, engineOp (.cpy cpyBad) = some op ∧ op.need = cpyNeed cpyBad ∧ op.prep = cpyPrep cpyBad ∧
      Lone base (cpyNeed cpyBad) b0 0 (base.fibre 1024) ∧
      cpyPrep cpyBad (base.laneOf b0 0) (base.readVals (cpyNeed cpyBad) b0 0) (past base b0 0) = .err e) ∧
    CpyIssues tokensFull true false ∧ CpyIssues (withCmds 64 (.cpy 0 0 1 1) at64) false true ∧ CpyIssues at64 false false ∧
    ∃ u, (past at64 b0 0).release (b0.fib 0) .core = (.done, u) ∧ (u.fibre? (b0.fib 0)).isSome :=
  ⟨⟨_, rfl, rfl, rfl, rfl⟩, ⟨_, { eff := 0x027, arg := marg 6 0 }, rfl, rfl, rfl, lone _ _ (by decide +kernel), by decide +kernel⟩,
   ⟨lone _ _ (by decide +kernel), by decide +kernel, by decide +kernel, by decide +kernel⟩,
   ⟨lone _ _ (by decide +kernel), by decide +kernel, by decide +kernel, by decide +kernel⟩,
   ⟨lone _ _ (by decide +kernel), by decide +kernel, by decide +kernel, by decide +kernel⟩,
   _, fstE (by decide +kernel), by decide +kernel⟩

/-- A copy with one run left, of 4 bytes of CORE space, whose token g9 counts it alone. -/
def copying : Cmd :=
  { cmd0 (.cpy 0 64 32 32) with tok := some 9, hx := 2, hy := 2, ex := (base.entry 1024 2).raw, ey := (base.entry 1024 2).raw,
                                left := [[(28, 4)]] }

/-- The small state with that copy, and with it in a global handle that names nothing there. -/
def copyState (c : Cmd) : State := { (onFib (fun x => { x with tok := [(9, tok1)] })) with cmds := [(0, c)] }

/-- The same copy from global address 0, and to it under a handle that bypasses the L1. -/
def copyFar : Cmd := { copying with hx := 0, ex := (base.entry 1024 0).raw }
def copyOut : Cmd := { copying with hy := 6, ey := leBytes 8 0 ++ leBytes 6 4096 ++ [0x31, 2] ++ leBytes 16 0 }

/-- The copies in the state where page 0 is mapped but absent, and where its frame is frozen. -/
def copyAway : State := { copyState copyFar with dram := away.dram }
def copyFrozen : State := frozenPage { mapped with cmds := [(0, copyOut)] }

theorem trip {α β γ : Type} {r : α × β × γ} {a : α} (h : r.1 = a) : r = (a, r.2.1, r.2.2) := by rw [← h]

/-- A copy's last segment, the runs of it that go now, those that stay, and what becomes of it. -/
def Segment (s : State) (c : Cmd) (seg now rest : List (Nat × Nat)) (d : Did) : Prop :=
  LastRun s 0 c seg ∧ (s.team c.team).halted = false ∧ isCopy c.kind = true ∧ s.cutSeg c seg = (now, rest) ∧
    ∃ e u, s.doSegment (inHand c rest) now = (d, e, u)

/-- A copy with 40 bytes left, of which the next 4 lie in one block of each side, and one with a follow-on. -/
def copyTwo : Cmd := { copying with kind := .cpy 0 0 128 128, left := [[(60, 40)]] }
def copyNext : Cmd := { copying with follow := some 3 }

theorem wit_copySegmentsRun :
    Segment copyFrozen copyOut [(28, 4)] [(28, 4)] [] .busy ∧
    Segment copyAway copyFar [(28, 4)] [(28, 4)] [] .absent ∧
    Segment (copyState copyTwo) copyTwo [(60, 40)] [(60, 4)] [(64, 36)] (.wrote 4 false) ∧
    (Segment (copyState copyNext) copyNext [(28, 4)] [(28, 4)] [] (.wrote 4 false) ∧ copyNext.rel = false ∧ copyNext.errs = []) ∧
    (Segment (copyState copyFar) copyFar [(28, 4)] [(28, 4)] [] (.failed (2 ^ 31 + 2 ^ 24)) ∧ copyFar.rel = false ∧
      copyFar.follow = none) ∧
    (Segment (copyState copying) copying [(28, 4)] [(28, 4)] [] (.wrote 4 false) ∧ copying.rel = false ∧ copying.follow = none ∧
      LastOf ((copyState copying).doSegment (inHand copying []) [(28, 4)]).2.2
        (took ((copyState copying).doSegment (inHand copying []) [(28, 4)]).2.1 (.wrote 4 false)) 9
        (((copyState copying).doSegment (inHand copying []) [(28, 4)]).2.2.fibre 1024) tok1) :=
  ⟨⟨⟨rfl, rfl, rfl, rfl, by decide +kernel⟩, by decide +kernel, rfl, by decide +kernel, _, _, trip (by decide +kernel)⟩,
   ⟨⟨rfl, rfl, rfl, rfl, by decide +kernel⟩, by decide +kernel, rfl, by decide +kernel, _, _, trip (by decide +kernel)⟩,
   ⟨⟨rfl, rfl, rfl, rfl, by decide +kernel⟩, by decide +kernel, rfl, by decide +kernel, _, _, trip (by decide +kernel)⟩,
   ⟨⟨⟨rfl, rfl, rfl, rfl, by decide +kernel⟩, by decide +kernel, rfl, by decide +kernel, _, _, trip (by decide +kernel)⟩, rfl, rfl⟩,
   ⟨⟨⟨rfl, rfl, rfl, rfl, by decide +kernel⟩, by decide +kernel, rfl, by decide +kernel, _, _, trip (by decide +kernel)⟩, rfl, rfl⟩,
   ⟨⟨rfl, rfl, rfl, rfl, by decide +kernel⟩, by decide +kernel, rfl, by decide +kernel, _, _, trip (by decide +kernel)⟩, rfl, rfl,
   by decide +kernel, by decide +kernel, by decide, by decide +kernel, rfl, rfl, rfl⟩


/-- What a run of a copy command's bytes meets (R288): its source reads, no byte of its own source overlaps it, and its destination takes it. -/
def moves (s : State) (c : Cmd) (n : Nat) (src : Option (Side × Int)) (dst : State → Side × Int) (g : List Byte → List Byte) : Bool :=
  let r : Seg (List Byte) × State := match src with
    | some (x, off) => s.engRead c x off n
    | none => (.ok (List.replicate n 0), s)
  match r with
  | (.ok bs, u) =>
    let clear (rs : List (Nat × Nat)) : Bool := (List.range (max n (g bs).length)).all (fun (q : Nat) =>
      ((u.sidePlace c.fib (dst u).1 ((dst u).2 + (q : Nat))).map (fun pl => (readersOf (u.sourcePlaces c rs) pl).isEmpty)).getD true)
    (!c.mayMeet (dst u).1 || clear (u.cmdRuns c).flatten && clear (c.left.flatten ++ c.fix.flatten)) &&
      decide ((u.engWrite c (dst u).1 (dst u).2 (g bs)).1 = .ok ())
  | _ => false

theorem moves_hyps {s : State} {c : Cmd} {n : Nat} {src : Option (Side × Int)} {dst : State → Side × Int} {g : List Byte → List Byte}
    (h : moves s c n src dst g = true) : ∃ bs u v,
    (match src with
      | some (x, off) => s.engRead c x off n = (.ok bs, u)
      | none => bs = List.replicate n 0 ∧ u = s) ∧
    (let clear (rs : List (Nat × Nat)) : Prop := ∀ q, q < n ∨ q < (g bs).length → ∀ pl,
      u.sidePlace c.fib (dst u).1 ((dst u).2 + (q : Nat)) = some pl → readersOf (u.sourcePlaces c rs) pl = []
     c.mayMeet (dst u).1 = false ∨ (clear (u.cmdRuns c).flatten ∧ clear (c.left.flatten ++ c.fix.flatten))) ∧
    u.engWrite c (dst u).1 (dst u).2 (g bs) = (.ok (), v) := by
  simp only [moves] at h
  split at h
  · rename_i bs u hr
    simp only [Bool.and_eq_true, Bool.or_eq_true, Bool.not_eq_true', decide_eq_true_eq, List.all_eq_true, List.mem_range] at h
    refine ⟨bs, u, (u.engWrite c (dst u).1 (dst u).2 (g bs)).2, ?_, ?_, Prod.ext h.2 rfl⟩
    · cases src with
      | none => cases hr; exact ⟨rfl, rfl⟩
      | some x => exact hr
    · have k {rs : List (Nat × Nat)} (h : ∀ q : Nat, q < max n (g bs).length →
          ((u.sidePlace c.fib (dst u).1 ((dst u).2 + (q : Nat))).map (fun pl => (readersOf (u.sourcePlaces c rs) pl).isEmpty)).getD true = true)
          (q : Nat) (hq : q < n ∨ q < (g bs).length) (pl : Nat × Nat)
          (hp : u.sidePlace c.fib (dst u).1 ((dst u).2 + (q : Nat)) = some pl) : readersOf (u.sourcePlaces c rs) pl = [] := by
        have := h q (by omega)
        rw [hp] at this
        simpa using this
      exact h.1.imp_right (fun a => ⟨k a.1, k a.2⟩)
  · cases h

/-- The two entries of an int8 tensor of 128 rows of 64 in CORE space, whose scales are in h2 (R89). -/
def boxBytes : List Byte × List Byte :=
  (leBytes 8 0 ++ leBytes 6 8192 ++ [0x37, 0, 1, 0x32, 2, 0] ++ leBytes 4 128 ++ leBytes 4 64 ++ leBytes 4 0,
   leBytes 14 0 ++ [8, 0] ++ leBytes 4 64 ++ leBytes 4 1 ++ leBytes 8 0)

/-- Its second half zeros; a box of four elements with its scales, on the int8 tensor of CORE space; lists of one index, 0 or past `LEN`. -/
def copyZeros : Cmd := { copying with kind := .cpy 0 64 32 28 }
def copyBox : Cmd :=
  { copying with kind := .cpyt [0, 0] [64, 0] [1, 4] true, ex := boxBytes.1, ey := boxBytes.1, ex1 := boxBytes.2, ey1 := boxBytes.2,
                 sx := (base.entry 1024 2).raw, sy := (base.entry 1024 2).raw, left := [[(0, 6)]] }
def gather : Cmd := { copying with kind := .gath 64 512 1 4, left := [[(0, 4)]] }
def scatter : Cmd := { gather with kind := .scat 64 512 1 4 }

/-- The state with a command whose list, at 512, holds the index that puts an element of 4 bytes past CORE space. -/
def listed (c : Cmd) : State := (copyState c).modCore 0 (fun x => { x with scratch := [(513, 64)] })

theorem wit_segmentsMoveBytes :
    (copying.got = [] ∧ copying.kind = .cpy 0 64 32 32 ∧ moves (copyState copying) copying 4 (some (copying.x, 28)) (fun _ => (copying.y, 92)) id ∧
      moves { mapped with cmds := [(0, copyFar)] } copyFar 4 (some (copyFar.x, 28)) (fun _ => (copyFar.y, 92)) id) ∧
    (copyZeros.kind = .cpy 0 64 32 28 ∧ moves (copyState copyZeros) copyZeros 4 none (fun _ => (copyZeros.y, 92)) id) ∧
    (copyBox.kind = .cpyt [0, 0] [64, 0] [1, 4] true ∧ copyBox.x.e.elem = 1 ∧
      moves (copyState copyBox) copyBox 1 (some (copyBox.x, tensorOff copyBox.x.e (List.zipWith (· + ·) [0, 0] (boxIndex [1, 4] 3))))
        (fun _ => (copyBox.y, tensorOff copyBox.y.e (List.zipWith (· + ·) [64, 0] (boxIndex [1, 4] 3)))) id ∧
      moves (copyState copyBox) copyBox 2
        (some (copyBox.xs, (scaleOff copyBox.x.e (List.zipWith (· + ·) [0, 0] (boxIndex [1, 4] (0 * 32))) : Nat)))
        (fun _ => (copyBox.ys, (scaleOff copyBox.y.e (List.zipWith (· + ·) [64, 0] (boxIndex [1, 4] (0 * 32))) : Nat)))
        (fun bs => bs.zipIdx.map (fun x => if x.2 % 2 = 1 then x.1 &&& 1 else x.1))) ∧
    (gather.kind = .gath 64 512 1 4 ∧ (listed gather).indexBad gather gather.x ((listed gather).listIndex gather 512 (0 / 4) * 4) 4 = true ∧
      (copyState gather).indexBad gather gather.x ((copyState gather).listIndex gather 512 (0 / 4) * 4) 4 = false ∧
      moves (copyState gather) gather 4 (some (gather.x, ((copyState gather).listIndex gather 512 (0 / 4) * 4 + 0 % 4 : Nat)))
        (fun _ => (gather.y, 64)) id) ∧
    (scatter.kind = .scat 64 512 1 4 ∧
      (listed scatter).indexBad scatter scatter.y ((listed scatter).listIndex scatter 512 (0 / 4) * 4) 4 = true ∧
      (copyState scatter).indexBad scatter scatter.y ((copyState scatter).listIndex scatter 512 (0 / 4) * 4) 4 = false ∧
      moves (copyState scatter) scatter 4 (some (scatter.x, 64))
        (fun u => (scatter.y, (u.listIndex scatter 512 (0 / 4) * 4 + 0 % 4 : Nat))) id) := by
  decide +kernel
/-- The copy from the absent page with its segment on its fix-up list. -/
def copyFix : Cmd := { copyFar with left := [], fix := [[(28, 4)]] }

theorem wit_fixup : let s := { copyAway with cmds := [(0, copyFix)] }
    mapGet s.cmds 0 = some copyFix ∧ ∃ d ds, s.fixSides copyFix = [] ++ d :: ds ∧ s.sideLoc copyFix.fib d.1 d.2 = .glob 28 ∧
      s.residence (s.ctxOf copyFix.fib) 28 = .absent :=
  ⟨rfl, ({ copyAway with cmds := [(0, copyFix)] }.fixSides copyFix).headD (default, 0),
   ({ copyAway with cmds := [(0, copyFix)] }.fixSides copyFix).tail, by decide +kernel, by decide +kernel, by decide +kernel⟩

/-- Network commands with 8 bytes left: XGET to CORE space from handle 6 of package 5, and XPUT from it. -/
def getting : Cmd := { cmd0 (.xget 0 5 0 8) with hx := 6, hy := 2, ey := (base.entry 1024 2).raw, left := [[(0, 8)]] }
def putting : Cmd := { cmd0 (.xput 0 5 0 8) with hx := 2, hy := 6, ex := (base.entry 1024 2).raw, left := [[(0, 8)]] }

/-- The small state with that command, and with package 5 as a peer or not. -/
def netState (c : Cmd) (peer : Bool) : State :=
  { base with cmds := [(0, c)] }.modCtx 1 (fun c => { c with peers := if peer then [(5, 0)] else [] })

theorem wit_networkSegmentsRun :
    (∀ c ∈ [getting, putting], ∀ b ∈ [true, false], LastRun (netState c b) 0 c [(0, 8)] ∧ isNet c.kind = true ∧ c.rel = false ∧
      8 ≤ (netState c b).segLen c ((netState c b).cmdRun c 0) 8 ∧
      ((netState c b).ctx ((netState c b).ctxOf c.fib)).peers.any (fun e => e.1 == cmdPkg c.kind) = b) ∧
    (let r := (netState getting true).cmdRun getting 0
     ∃ u, isGet getting.kind = true ∧
      (netState getting true).engWrite (inHand getting []) r.dst.1 r.dst.2 (byteSlice [1, 2, 3, 4, 5, 6, 7, 8] 0 8) = (.ok (), u)) ∧
    (let s := netState putting true
     ∃ src off bs u, isGet putting.kind = false ∧ (s.cmdRun putting 0).src = some (src, off) ∧
      s.engReads (inHand putting []) src 2 off 8 [] = (.ok bs, u)) :=
  ⟨by
    intro c hc b hb
    simp only [List.mem_cons, List.not_mem_nil, or_false] at hc hb
    rcases hc with rfl | rfl <;> rcases hb with rfl | rfl <;>
      exact ⟨⟨rfl, rfl, rfl, rfl, by decide +kernel⟩, rfl, rfl, by decide +kernel, by decide +kernel⟩,
   ⟨_, rfl, fstE (by decide +kernel)⟩,
   ⟨putting.x, 0, List.replicate 8 0, _, rfl, by decide +kernel, fstE (by decide +kernel)⟩⟩

/-- The two entries of a rank-2 tensor with scale handle 2 (R89). -/
def tens (fmt space d0 d1 st0 st1 len : Nat) : List (Nat × List Byte) :=
  [(0, leBytes 8 0 ++ leBytes 6 len ++ [0x37, 0] ++ leBytes 1 fmt ++ leBytes 1 (space * 16 + 2) ++ leBytes 2 2 ++ leBytes 4 d0 ++
      leBytes 4 d1 ++ leBytes 4 0),
   (1, leBytes 14 0 ++ [8, 0] ++ leBytes 4 st0 ++ leBytes 4 st1 ++ leBytes 8 0)]

/-- The small state where the team has tiles 1 and 2 of its core and weight slots from 8 on, a loaded set at its slot 1, an int8
tensor at h6 and a float one at h8. -/
def mat : State :=
  (((base.modCtx 1 (fun x => { x with
      table := (tens 1 3 128 64 64 1 8192).map (fun e => (6 + e.1, e.2)) ++ (tens 4 3 128 128 512 4 65536).map (fun e => (8 + e.1, e.2)) }))
    |>.modLaunch (launchKey 1 1) (fun L => { L with blk := { L.blk with acc := 2, wslots := 40 } }))
    |>.modTeam 1 (fun t => { t with brec := { t.brec with accMap := 6, wsBase := 8 } }))
    |>.modCore 0 (fun c => { c with tags := [(9, .head 1 128 1 19)] })

/-- WLOAD of the smallest int8 image from h2 to slot 2, with token g9. -/
def wload1 : EN := en (.g 9) .none .none .none 16 2 2 0
/-- MMA of tile 1 and slot 1 on the tensor at h6, K = 64. -/
def mma1 : EN := en (.g 9) (.g 4) .none .none 25 6 1 1

/-- A weight load with 8 bytes left. -/
def loading : Cmd :=
  { cmd0 (.wload 0 2 1 16 1) with hx := 2, hy := 2, ex := (mat.entry 1024 2).raw, ey := (mat.entry 1024 2).raw, left := [[(0, 8)]] }

/-- The state with that load, and with the same load from global memory that is not mapped. -/
def loadState (c : Cmd) : State := { mat with cmds := [(0, c)] }
def loadingFar : Cmd := { loading with hx := 0, ex := (mat.entry 1024 0).raw }

theorem wit_weightLoads :
    (∃ k u, let n : Need := { head := wload1.toHead, imm := 0, na := offRegs wload1.hx wload1.a, live := true, tokD := true }
      Lone mat n b0 0 (mat.fibre 1024) ∧ wloadPrep wload1 (mat.laneOf b0 0) (mat.readVals n b0 0) (past mat b0 0) = .ok k ∧
      tokFull ((past mat b0 0).fibre (b0.fib 0)) ((past mat b0 0).cmdOf (mat.laneOf b0 0) wload1 k).tok = false ∧
      (past mat b0 0).engineFull ((past mat b0 0).coreOf (b0.fib 0)) k = false ∧
      (past mat b0 0).release (b0.fib 0) .core = (.done, u)) ∧
    (∀ c ∈ [loading, loadingFar], LastRun (loadState c) 0 c [(0, 8)] ∧ c.kind = .wload 0 2 1 16 1 ∧ (loadState c).mayMove c = true ∧
      8 ≤ (loadState c).segLen c ((loadState c).cmdRun c 0) 8) ∧
    (∃ u, (loadState loading).engRead (inHand loading []) loading.x ((0 + 0 : Nat) : Int) 8 = (.ok (List.replicate 8 0), u)) ∧
    (∃ u, (loadState loadingFar).engRead (inHand loadingFar []) loadingFar.x ((0 + 0 : Nat) : Int) 8 = (.err 1, u)) :=
  ⟨⟨.wload 0 2 1 16 1, _, lone _ _ (by decide +kernel), by decide +kernel, by decide +kernel, by decide +kernel,
    fstE (by decide +kernel)⟩, by
    intro c hc
    simp only [List.mem_cons, List.not_mem_nil, or_false] at hc
    rcases hc with rfl | rfl <;> exact ⟨⟨rfl, rfl, rfl, rfl, by decide +kernel⟩, rfl, by decide +kernel, by decide +kernel⟩,
   ⟨_, fstE (by decide +kernel)⟩, ⟨_, fstE (by decide +kernel)⟩⟩

/-- An integer MMA of two groups, the second of which is next, all its elements of A still to be read, and with all read. -/
def mmaCmd : Cmd :=
  { cmd0 (.mma 1 0 0 64 1 128 true true) with hx := 6, ex := (mat.entry 1024 6).raw, ex1 := (mat.entry 1024 6).ext, at_ := 1,
                                              left := [[(4095, 1)]] }
def mmaRead : Cmd := { mmaCmd with left := [], got := (List.range 4096).map (fun i => (i, 1)) }

theorem wit_matrixGroups :
    (∀ c ∈ [mmaCmd, mmaRead], mapGet (loadState c).cmds 0 = some c ∧ c.kind = .mma 1 0 0 64 1 128 true true ∧ c.begun = true ∧
      (loadState c).mayMove c = true ∧ (loadState c).mod.bad = []) ∧
    (mmaCmd.left[(loadState mmaCmd).pickRun mmaCmd]? = some [(4095, 1)] ∧
      (loadState mmaCmd).issuedPlace mmaCmd.fib ((loadState mmaCmd).sideLoc mmaCmd.fib mmaCmd.x
        (tensorOff mmaCmd.x.e [0 + 4095 / 32, 0 + 32 * mmaCmd.at_ + 4095 % 32])) = some (.scratch 0 8191)) ∧
    mmaRead.left = [] ∧ mmaRead.got.length = 4096 :=
  ⟨by
    intro c hc
    simp only [List.mem_cons, List.not_mem_nil, or_false] at hc
    rcases hc with rfl | rfl <;> exact ⟨rfl, rfl, rfl, by decide +kernel, by decide +kernel⟩,
   by decide +kernel, rfl, by simp [mmaRead]⟩


/-- A floating MMA on the mf8 tensor of CORE space at h6, with a scale container to read next: from CORE space, or from global memory that is
not mapped; and with all read. -/
def mmaScale : Cmd :=
  { copying with kind := .mma 1 0 0 64 1 128 true false, tok := none, hx := 6, ex := boxBytes.1.set 16 0, ex1 := boxBytes.2,
                 sx := (mat.entry 1024 2).raw, at_ := 1, left := [[(4096 + 127, 1)]] }
def mmaNoScale : Cmd := { mmaScale with sx := (mat.entry 1024 0).raw }
def mmaFloat : Cmd := { mmaScale with left := [], got := (List.range 4224).map (fun i => (i, 1)) }

theorem wit_matrixScales :
    (∀ c ∈ [mmaScale, mmaNoScale, mmaFloat], mapGet (loadState c).cmds 0 = some c ∧ c.kind = .mma 1 0 0 64 1 128 true false ∧ c.begun = true ∧
      (loadState c).mayMove c = true ∧ (loadState c).mod.bad = []) ∧
    (∀ c ∈ [mmaScale, mmaNoScale], c.left[(loadState c).pickRun c]? = some [(4223, 1)] ∧ (loadState c).mayStart c [(4223, 1)] = true) ∧
    (∃ bs u, (loadState mmaScale).engReads mmaScale mmaScale.xs 2 (scaleOff mmaScale.x.e [0 + (4223 - 4096), 0 + 32 * 1]) 2 [] = (.ok bs, u)) ∧
    (∃ u, (loadState mmaNoScale).engReads mmaNoScale mmaNoScale.xs 2 (scaleOff mmaNoScale.x.e [0 + (4223 - 4096), 0 + 32 * 1]) 2 [] = (.err 1, u)) ∧
    mmaFloat.left = [] ∧ mmaFloat.x.e.fmt ≤ 1 ∧ mmaFloat.got.length = 4224 :=
  ⟨by
    intro c hc
    simp only [List.mem_cons, List.not_mem_nil, or_false] at hc
    rcases hc with rfl | rfl | rfl <;> exact ⟨rfl, rfl, rfl, by decide +kernel, by decide +kernel⟩,
   by
    intro c hc
    simp only [List.mem_cons, List.not_mem_nil, or_false] at hc
    rcases hc with rfl | rfl <;> decide +kernel,
   ⟨[0, 0], _, fstE (by decide +kernel)⟩, ⟨_, fstE (by decide +kernel)⟩, rfl, by decide +kernel, by simp [mmaFloat]⟩
theorem wit_stagedCommands :
    (∃ k, Lone mat { mmaNeed mma1 with live := true } b0 0 (mat.fibre 1024) ∧
      mmaPrep mma1 (mat.laneOf b0 0) (mat.readVals (mmaNeed mma1) b0 0) (past mat b0 0) = .ok k) ∧
    (∃ o : EN, Lone mat { head := o.toHead, imm := 0, live := true } b0 0 (mat.fibre 1024)) :=
  ⟨⟨.mma 1 0 0 64 1 0 true true, lone _ _ (by decide +kernel), by decide +kernel⟩,
   ⟨en .none .none .none .none 0 0 0 0, lone _ _ (by decide +kernel)⟩⟩

/-- ACCLD.x4 of the last words of row 127 of tile 1: g12 to g15 from row g4 and column g5. -/
def accld4 : EN := en (.g 12) (.g 4) (.g 5) .none 9 0 0 0

/-- The state with the registers of that ACCLD. -/
def matRow : State := mat.modFibre 1024 (fun x => { x with regs := [(4, 127), (5, 124)] })

/-- An ACCST of tile 1 to the tensor at h8, whose row n is next, or has its words and a write left. -/
def storing (n : Nat) (got : Map Nat) (left : List (List (Nat × Nat))) : Cmd :=
  { cmd0 (.accst 1 0 0 .rn) with hy := 8, ey := (mat.entry 1024 8).raw, ey1 := (mat.entry 1024 8).ext, at_ := n, got := got, left := left }

/-- The words of a row of zeros. -/
def zeros : Map Nat := (List.range 128).map (fun j => (j, 0))

/-- The engine is busy with the tile, or holds all the commands that it can. -/
def accBusy : State := { matRow with cmds := [(0, cmd0 (.accz 1))] }
def accFull : State := withCmds 64 (.accz 0) matRow

/-- What ACCLD.x4 needs. -/
def accldNeed4 : Need := { head := accld4.toHead, imm := 0, na := 1, nb := 1, wd := 4 }

/-- ACCSTAT of tile 1. -/
def accstat1 : EN := en (.g 12) .none .none .none 1 0 0 0

theorem wit_accumulatorTiles :
    (∀ s ∈ [matRow, accBusy, accFull], Lone s accldNeed4 b0 0 (s.fibre 1024) ∧ wordsNat (s.readVals accldNeed4 b0 0).a = 127 ∧
      wordsNat (s.readVals accldNeed4 b0 0).b = 124 ∧ tileField accld4 < ((past s b0 0).blockOf (b0.fib 0)).acc) ∧
    (past accBusy b0 0).tileBusy b0.team (tileField accld4) = true ∧
    (past accFull b0 0).engineFull ((past accFull b0 0).coreOf (b0.fib 0)) (.accz 0) = true ∧
    ((past matRow b0 0).tileBusy b0.team (tileField accld4) = false ∧
      (past matRow b0 0).engineFull ((past matRow b0 0).coreOf (b0.fib 0)) (.accz 0) = false ∧
      ∃ u, (past matRow b0 0).release (b0.fib 0) .core = (.done, u) ∧ u.mod.bad = []) ∧
    (Lone mat { head := accstat1.toHead, imm := 0, wd := 1 } b0 0 (mat.fibre 1024) ∧ (mat.fibre 1024).helper = false ∧
      tileField accstat1 < ((past mat b0 0).blockOf (b0.fib 0)).acc ∧ (past mat b0 0).tileBusy b0.team (tileField accstat1) = false ∧
      (past mat b0 0).engineFull ((past mat b0 0).coreOf (b0.fib 0)) (.accz 0) = false ∧
      ∃ p, (past mat b0 0).release (b0.fib 0) .core = (.done, p)) ∧
    (mapGet (loadState (cmd0 (.accz 1))).cmds 0 = some (cmd0 (.accz 1)) ∧
      (loadState (cmd0 (.accz 1))).mayMove (cmd0 (.accz 1)) = true) ∧
    (∀ c ∈ [storing 128 [] [], storing 127 [] [], storing 127 zeros [[(0, 1)]]],
      mapGet (loadState c).cmds 0 = some c ∧ (loadState c).mayMove c = true ∧ c.rel = false ∧ (loadState c).mod.bad = []) ∧
    (let c := storing 127 zeros [[(0, 1)]]
     ∃ d off bs u, c.got ≠ [] ∧ c.left[(loadState c).pickRun c]? = some [(0, 1)] ∧ (loadState c).mayStart c [(0, 1)] = true ∧
      (accstWrites c 0 0 c.at_ (accstRow c.y.e.fmt .rn (c.got.map (fun e => BitVec.ofNat 32 e.2))))[0]? = some (d, off, bs) ∧
      (loadState c).engWrites c d 2 off bs = (.ok (), u)) :=
  ⟨by
    intro s hs
    simp only [List.mem_cons, List.not_mem_nil, or_false] at hs
    rcases hs with rfl | rfl | rfl <;> exact ⟨lone _ _ (by decide +kernel), by decide +kernel⟩,
   by decide +kernel, by decide +kernel, ⟨by decide +kernel, by decide +kernel, _, fstE (by decide +kernel), by decide +kernel⟩,
   ⟨lone _ _ (by decide +kernel), by decide +kernel, by decide +kernel, by decide +kernel, by decide +kernel, _,
    fstE (by decide +kernel)⟩,
   by decide +kernel, by decide +kernel,
   (storing 127 zeros [[(0, 1)]]).y, _, _, _, by decide, by decide +kernel, by decide +kernel, rfl, fstE (by decide +kernel)⟩

/-- A code instruction on h5: PUBLISH.pkg g12, h5 and the like. -/
def code5 : SY := sy (.g 12) .none .none .none 0 16 0x00500000

/-- The mapped state with region 5 in its context, of one line that stands at physical 0x10000000 under key 0. -/
def codeState (r : Region) (line : List Byte) : State :=
  { mapped with dram := mapped.dram.writes 0x10000000 line }.modCtx 1 (fun c => { c with table := [(5, entry5)], regions := [(5, r)] })

/-- Region 5 with one line. -/
def line5 : Region := { region5 with lines := 1 }

/-- A line that passes line_ok, and one that does not. -/
def goodLine : List Byte := oneSlotLine 0xC000007F7F7F0000000000000
def badLine : List Byte := List.replicate 64 1

theorem codeAt (s : State) (n : Need) (w : Bool) (r : Region)
    (h : (decide (s.cur = some b0) && s.fate n b0 0 == .go && decide (s.fibre? 1024 = some (s.fibre 1024)) &&
      (s.fibre 1024).tokAcq.isEmpty) = true)
    (hk : decide (codePrep code5 w (s.laneOf b0 0) (s.readVals n b0 0) (past s b0 0) = .ok (5, r)) = true) :
    CodeAt code5 s n b0 0 (s.fibre 1024) w 5 r := ⟨lone s n h, of_decide_eq_true hk⟩

/-- A copy of the team to the region's bytes. -/
def copyIn : Cmd := { cmd0 (.cpy 0 0 1 1) with hx := 2, ex := (base.entry 1024 2).raw, hy := 0, ey := (base.entry 1024 0).raw }

/-- The state in which PUBLISH looks at the lines. -/
def pubAt (ln : List Byte) : State :=
  ((past (codeState line5 ln) b0 0).arriveBefore (b0.fib 0) (fun _ => true)).regionHome (b0.fib 0) line5

theorem wit_publish :
    (let s := { codeState line5 goodLine with cmds := [(0, copyIn)] }
     CodeAt code5 s (publishNeed code5) b0 0 (s.fibre 1024) true 5 line5 ∧ line5.gen ≤ 0xFFFF ∧
      (past s b0 0).copyInto b0.team (((past s b0 0).ctx (ctxHere s b0 0)).cwbase + line5.base) (64 * line5.lines) = true) ∧
    (∀ ln ∈ [goodLine, badLine], let s := codeState line5 ln
     ∃ u v, CodeAt code5 s (publishNeed code5) b0 0 (s.fibre 1024) true 5 line5 ∧
      (past s b0 0).copyInto b0.team (((past s b0 0).ctx (ctxHere s b0 0)).cwbase + line5.base) (64 * line5.lines) = false ∧ (pubAt ln).flying (b0.fib 0) = [] ∧
      (∀ k ∈ (pubAt ln).regionSectors (b0.fib 0) line5, (pubAt ln).unsent ((pubAt ln).coreOf (b0.fib 0)) k = false) ∧
      (pubAt ln).release (b0.fib 0) (modScope code5.mod) = (.done, u) ∧
      u.badLine (b0.fib 0) 5 line5 line5.lines 0 = (.ok (if ln = goodLine then none else some 0), v) ∧
      v.coreOf (b0.fib 0) = coreHere s b0 0 ∧ (v.ctx? (ctxHere s b0 0)).isSome) :=
  ⟨⟨codeAt _ _ _ _ (by decide +kernel) (by decide +kernel), by decide +kernel⟩, by
    intro ln h
    simp only [List.mem_cons, List.not_mem_nil, or_false] at h
    rcases h with rfl | rfl <;> exact ⟨_, _, codeAt _ _ _ _ (by decide +kernel) (by decide +kernel), by decide +kernel,
      by decide +kernel, by decide +kernel, fstE (by decide +kernel), okP (by decide +kernel) rfl, by decide +kernel, by decide +kernel⟩⟩

/-- A team whose sixteen adopted entries are current in `regions`, so that it has no place for another. -/
def fullTeam : State :=
  ((codeState line5 goodLine).modCtx 1 (fun c => { c with
      regions := (5, line5) :: (List.range 16).map (fun i => (20 + i, line5)) })).modTeam 1 (fun t => { t with
    adopted := (List.range 16).map (fun i => (i, 20 + i, 1)) })

/-- ADOPT.spill of 4 entries at offset 8. -/
def spill8 : SY := sy (.g 12) (.g 4) .none .none 0 3 0

theorem wit_adoption :
    (∀ r ∈ [{ line5 with state := .retracted }, { line5 with pscope := 1, punit := 9 }, line5], let s := codeState r goodLine
     CodeAt code5 s (publishNeed code5) b0 0 (s.fibre 1024) false 5 r ∧
      ((r.state = .published ∧ insideRegion r (coreHere s b0 0) = true) ∨ r ≠ line5) ∧
      (adoptInto ((past s b0 0).ctx (ctxHere s b0 0)).regions ((past s b0 0).team b0.team) 5 r.gen).isSome) ∧
    ({ line5 with state := .retracted }.state ≠ RState.published ∧ { line5 with pscope := 1, punit := 9 }.state = .published ∧
      insideRegion { line5 with pscope := 1, punit := 9 } 0 = false ∧ coreHere (codeState line5 goodLine) b0 0 = 0) ∧
    (CodeAt code5 fullTeam (publishNeed code5) b0 0 (fullTeam.fibre 1024) false 5 line5 ∧
      adoptInto ((past fullTeam b0 0).ctx (ctxHere fullTeam b0 0)).regions ((past fullTeam b0 0).team b0.team) 5 1 = none) ∧
    (∀ a ∈ [8, 65504, 65512], let s := regs [(4, a)]
      let n := { plainNeed spill8 with na := 1, wd := 1, live := true }
      Lone s n b0 0 (s.fibre 1024) ∧ ((past s b0 0).team b0.team).spill = none ∧ ((past s b0 0).blockOf 1024).scratch = 65536 ∧
        eaOff (immOffset spill8.imm) (s.readVals n b0 0).a = a.toNat) :=
  ⟨by
    intro r h
    simp only [List.mem_cons, List.not_mem_nil, or_false] at h
    rcases h with rfl | rfl | rfl <;> exact ⟨codeAt _ _ _ _ (by decide +kernel) (by decide +kernel), by decide +kernel⟩,
   by decide +kernel, ⟨codeAt _ _ _ _ (by decide +kernel) (by decide +kernel), by decide +kernel⟩, by
    intro a h
    simp only [List.mem_cons, List.not_mem_nil, or_false] at h
    rcases h with rfl | rfl | rfl <;> exact ⟨lone _ _ (by decide +kernel), by decide +kernel⟩⟩

/-- The state with a second fibre that holds a line of the region. -/
def holding (st : FState) : State :=
  (codeState line5 goodLine).setFibre 1025 { fib0 with
    st := st
    fbuf := some { (default : FLine) with region := 5, gen := 1, last := false } }

theorem wit_retractAndFbar :
    (∀ r ∈ [{ line5 with state := .retracted }, { line5 with pscope := 4 }], let s := codeState r goodLine
     CodeAt code5 s (publishNeed code5) b0 0 (s.fibre 1024) true 5 r ∧ (s.fibre 1024).retracting = none ∧ r.gen ≤ 0xFFFF) ∧
    (∃ o : SY, let s := codeState line5 goodLine
     CodeAt o s (publishNeed o) b0 0 (s.fibre 1024) true 5 line5 ∧ containsRegion (codeScopeOf o) (coreHere s b0 0) line5 = false) ∧
    (∀ st ∈ [FState.ready, .exited], let s := holding st
     CodeAt code5 s (publishNeed code5) b0 0 (s.fibre 1024) true 5 line5 ∧ (s.fibre 1024).retracting = none ∧
      containsRegion (codeScopeOf code5) (coreHere s b0 0) line5 = true ∧ ((past s b0 0).ctx? (ctxHere s b0 0)).isSome ∧
      (oldHolders (past s b0 0) (b0.fib 0) 5 (bumped line5.gen) (codeScopeOf code5)).map (fun e => waitedFor e.2) = [st == .ready]) ∧
    (∀ p ∈ [(base, false), (frozenPage dirtied, true)], ∃ o u, Lone p.1 { plainNeed o with live := true } b0 0 (p.1.fibre 1024) ∧
      (past p.1 b0 0).releaseActs (b0.fib 0) .quad = u ∧ u.releaseWaits (b0.fib 0) .quad = p.2) :=
  ⟨by
    intro r h
    simp only [List.mem_cons, List.not_mem_nil, or_false] at h
    rcases h with rfl | rfl <;> exact ⟨codeAt _ _ _ _ (by decide +kernel) (by decide +kernel), by decide +kernel⟩,
   ⟨sy (.g 12) .none .none .none 0 4 0x00500000, ⟨lone _ _ (by decide +kernel), by decide +kernel⟩, by decide +kernel⟩, by
    intro st h
    simp only [List.mem_cons, List.not_mem_nil, or_false] at h
    rcases h with rfl | rfl <;> exact ⟨codeAt _ _ _ _ (by decide +kernel) (by decide +kernel), by decide +kernel⟩, by
    intro p h
    simp only [List.mem_cons, List.not_mem_nil, or_false] at h
    rcases h with rfl | rfl <;> exact ⟨sy .none .none .none .none 0 0 0, _, lone _ _ (by decide +kernel), rfl, by decide +kernel⟩⟩

theorem wit_regionQuery : let s := codeState line5 goodLine
    CodeAt code5 s (rgnqNeed code5) b0 0 (s.fibre 1024) false 5 line5 := codeAt _ _ _ _ (by decide +kernel) (by decide +kernel)

/-- An instruction with destination g12. -/
def plain12 : SY := sy (.g 12) .none (.g 5) .none 0 0 0

/-- The state with an entry of the context in the core's data-error log. -/
def logged : State := base.modCore 0 (fun c => { c with dlog := [(2, 7), (1, 8)], dover := 3 })

/-- The state whose context may write system registers. -/
def privileged : State := logged.modCtx 1 (fun c => { c with priv := true })

theorem wit_systemRegisters :
    ((privileged.fibre 1024).helper = false ∧ Lone privileged (swriteNeed plain12) b0 0 (privileged.fibre 1024)) ∧
    (Lone logged (errqNeed plain12 2) b0 0 (logged.fibre 1024) ∧
      ((past logged b0 0).core (coreHere logged b0 0)).dlog.find? (fun e => e.1 == ctxHere logged b0 0) = some (1, 8)) ∧
    (Lone base (errqNeed plain12 2) b0 0 (base.fibre 1024) ∧
      ((past base b0 0).core (coreHere base b0 0)).dlog.find? (fun e => e.1 == ctxHere base b0 0) = none) ∧
    Lone logged (errqNeed plain12 1) b0 0 (logged.fibre 1024) :=
  ⟨⟨by decide +kernel, lone _ _ (by decide +kernel)⟩, ⟨lone _ _ (by decide +kernel), by decide +kernel⟩,
   ⟨lone _ _ (by decide +kernel), by decide +kernel⟩, lone _ _ (by decide +kernel)⟩

theorem wit_unprivilegedWrites : OneLane logged plain12.guard b0 0 (logged.fibre 1024) ∧ (logged.fibre 1024).capMode = false ∧
    (logged.ctx (logged.team b0.team).ctx).priv = false ∧
    (swriteNeed plain12).limits (logged.fibre 1024) (logged.budget 1024) b0.word = none :=
  ⟨⟨rfl, rfl, by decide +kernel, by decide +kernel, by decide +kernel⟩, by decide +kernel⟩

/-- The small state whose fibre is a helper. -/
def helps : State := onFib (fun x => { x with helper := true })

theorem wit_breakpointsAndMissing :
    (∃ o, Lone base { plainNeed o with live := true } b0 0 (base.fibre 1024)) ∧
    (∃ w : IWord, OneLane base { gp := (w.extractLsb' 84 4).toFin, gn := w.getLsbD 83 } b0 0 (base.fibre 1024)) ∧
    (∃ w : IWord, base.guard b0 0 { gp := (w.extractLsb' 84 4).toFin, gn := w.getLsbD 83 } = false) ∧
    (base.cur = some b0 ∧ b0.lanes = [0] ∧ (helps.fibre (b0.fib 0)).helper = true) ∧
    (∃ o, base.fate { plainNeed o with live := true } b0 0 = .off) ∧ (∃ o, helps.fate { plainNeed o with live := true } b0 0 = .nop) :=
  ⟨⟨sy .none .none .none .none 0 0 42, lone _ _ (by decide +kernel)⟩,
   ⟨0xE00000000000000000000000, rfl, rfl, by decide +kernel, by decide +kernel, by decide +kernel⟩,
   ⟨0xE01000000000000000000000, by decide +kernel⟩, by decide +kernel,
   ⟨{ sy .none .none .none .none 0 0 42 with guard := ⟨1, false⟩ }, by decide +kernel⟩, ⟨sy .none .none .none .none 0 0 42, by decide +kernel⟩⟩

/-- The small state with registers, the newest handler record, and words of the lane slice. -/
def lane (r : Map Word) (hsp : Word) (ws : List (Nat × Nat)) : State :=
  (onFib (fun x => { x with regs := r, hsp := hsp })).modCore 0 (fun c => { c with
    scratch := ws.foldl (fun m e => m.writes (65536 + e.1) (leBytes 4 e.2)) c.scratch })

/-- The slice at 8192 with nothing pushed. -/
def laneTop (g2 : Word) : State := lane [(2, g2)] 0xFFFFFFFF []

/-- HANDLE of the effect in g5, with its handler 2 lines on and its exit at slot 1. -/
def handle1 : SY := sy .none .none (.g 5) .none 0 0 0x00100001

theorem wit_handlersPush : ∀ g2 ∈ [8184, 48, 8208, 64, 8192], let s := laneTop g2
    Lone s (handleNeed handle1) b0 0 (s.fibre 1024) ∧ (past s b0 0).readSp (s.laneOf b0 0) = g2.toNat ∧
      ((past s b0 0).blockOf 1024).lane = 8192 := by
  intro g2 h
  simp only [List.mem_cons, List.not_mem_nil, or_false] at h
  rcases h with rfl | rfl | rfl | rfl | rfl <;> exact ⟨lone _ _ (by decide +kernel), by decide +kernel, by decide +kernel⟩

/-- A handler record at 8128 without a return record, or with one at 8000. -/
def pushed (q : Nat) : State :=
  lane [(2, 8000), (4, 77)] 8128 [(8128, 512), (8132, 1024), (8136, 8192), (8140, 0xFFFFFFFF), (8144, 0x0FFF0300), (8148, 3), (8152, q),
    (8000, 256), (8004, 8128), (8008, 8128), (8016, 20), (8020, 0xFFFFFFFF)]

theorem wit_unhandlePops :
    (∀ h ∈ [0xFFFFFFFF, 0xFFFFFFFE, 8129], let s := lane [] h []
      Lone s (unhandleNeed plain12) b0 0 (s.fibre 1024) ∧ mapHas (s.fibre 1024).tok 2 = false ∧
      ((s.fibre 1024).hsp.toNat = 0xFFFFFFFF ∨ (s.fibre 1024).hsp.toNat = 0xFFFFFFFE ∨
        ((past s b0 0).blockOf 1024).lane < (s.fibre 1024).hsp.toNat + 64)) ∧
    (∀ q ∈ [0xFFFFFFFF, 8000], let s := pushed q
      Lone s (unhandleNeed plain12) b0 0 (s.fibre 1024) ∧ (s.fibre 1024).tok = [] ∧ (s.fibre 1024).hsp.toNat = 8128 ∧
      8128 + 64 ≤ ((past s b0 0).blockOf 1024).lane ∧ (past s b0 0).laneNat 1024 (8128 + 24) 4 = q) :=
  ⟨by
    intro g2 h
    simp only [List.mem_cons, List.not_mem_nil, or_false] at h
    rcases h with rfl | rfl | rfl <;> exact ⟨lone _ _ (by decide +kernel), by decide +kernel⟩, by
    intro q h
    simp only [List.mem_cons, List.not_mem_nil, or_false] at h
    rcases h with rfl | rfl <;> exact ⟨lone _ _ (by decide +kernel), by decide +kernel⟩⟩

/-- PERFORM of the effect in the immediate, once. -/
def perform (e : Word) : SY := sy (.g 12) (.g 4) .none .none 0 0 e

theorem wit_performRaises : ∀ e ∈ [0xFF, 0x100], let s := pushed 0xFFFFFFFF
    Lone s (performNeed (perform e)) b0 0 (s.fibre 1024) ∧ (perform e).b.isNone = true ∧ (perform e).imm.toNat % 2 ^ 12 = e.toNat := by
  intro e h
  simp only [List.mem_cons, List.not_mem_nil, or_false] at h
  rcases h with rfl | rfl <;> exact ⟨lone _ _ (by decide +kernel), by decide +kernel⟩

/-- An effect of a PERFORM at slot 0 of line 4. -/
def userEff (e : Nat) : PendEff :=
  { eff := e, arg := 5, kind := 1, dest := 12, trap := false, rsv := 0, spc := 264, sxfer := false, simm := 0, capm := false }

/-- A state with that effect pending. -/
def pending (e : Nat) (s : State) : State := s.modFibre 1024 (fun x => { x with eff := some (userEff e) })

/-- The state once its fibre's results have arrived. -/
def arrived (s : State) : State := (s.arriveAll 1024).laneFirst 1024

/-- An effect of the fibre that has no open token. -/
theorem deliverable (s : State) (e : PendEff) (h : (decide (s.fibre? 1024 = some (s.fibre 1024)) && !(s.fibre 1024).halted &&
    decide ((s.fibre 1024).eff = some e) && !(s.fibre 1024).capMode && (s.fibre 1024).tok.isEmpty) = true) :
    Deliverable s 1024 (s.fibre 1024) e (arrived s) := by
  simp only [Bool.and_eq_true, decide_eq_true_eq, Bool.not_eq_true', List.isEmpty_iff] at h
  exact ⟨h.1.1.1.1, h.1.1.1.2, h.1.1.2, h.1.2, fun r _ _ => by rw [h.2]; rfl, rfl⟩

theorem wit_effectsReachTheirHandler :
    (∀ e s, (e, s) ∈ [(0x300, pushed 0xFFFFFFFF), (0x300, (pushed 0xFFFFFFFF).modFibre 1024 (fun x => { x with regs := [(2, 64)] })),
        (0x301, pushed 0xFFFFFFFF)] → Deliverable (pending e s) 1024 ((pending e s).fibre 1024) (userEff e) (arrived (pending e s))) ∧
    (let u := arrived (pending 0x300 (pushed 0xFFFFFFFF))
     u.findHandler 1024 (u.blockOf 1024).lane 0x300 513 (u.fibre 1024).hsp.toNat = .record 8128 ∧
      suspAt (u.fibre 1024) (userEff 0x300) = 7872) ∧
    (let u := arrived (pending 0x300 ((pushed 0xFFFFFFFF).modFibre 1024 (fun x => { x with regs := [(2, 64)] })))
     u.findHandler 1024 (u.blockOf 1024).lane 0x300 513 (u.fibre 1024).hsp.toNat = .record 8128 ∧
      suspAt (u.fibre 1024) (userEff 0x300) < 0) ∧
    (let u := arrived (pending 0x301 (pushed 0xFFFFFFFF))
     u.findHandler 1024 (u.blockOf 1024).lane 0x301 513 (u.fibre 1024).hsp.toNat = .bottom 0xFFFFFFFF ∧ (u.blockOf 1024).hrgn = 0) ∧
    (let s := pending 0x300 (lane [(2, 8000)] 8180 [])
     Deliverable s 1024 (s.fibre 1024) (userEff 0x300) (arrived s) ∧
      (arrived s).findHandler 1024 ((arrived s).blockOf 1024).lane 0x300 513 ((arrived s).fibre 1024).hsp.toNat = .bad 8180) :=
  ⟨by
    intro e s h
    simp only [List.mem_cons, List.not_mem_nil, or_false, Prod.mk.injEq] at h
    rcases h with ⟨rfl, rfl⟩ | ⟨rfl, rfl⟩ | ⟨rfl, rfl⟩ <;> exact deliverable _ _ (by decide +kernel),
   by decide +kernel, by decide +kernel, by decide +kernel, deliverable _ _ (by decide +kernel), by decide +kernel⟩

/-- A suspension record at 7872 under the handler record at 8128: its kind, destination and handler record, and the token of
generation 3 for it in g4:g5. -/
def suspended (kind shrec : Nat) : State :=
  ((pushed 0xFFFFFFFF).modFibre 1024 (fun x => { x with regs := [(2, 7872), (4, 7872), (5, 0x30000), (6, 99)] })).modCore 0 (fun c =>
    { c with scratch := [(7872, 264), (7876, 8128), (7880, 8000), (7888, 3 + kind * 2 ^ 16 + 12 * 2 ^ 24), (7892, shrec),
        (7896, 0x300)].foldl (fun m e => m.writes (65536 + e.1) (leBytes 4 e.2)) c.scratch })

/-- RESUME.once, UNWIND and EFFQ with the token in g4:g5 and the value in g6. -/
def resume1 : SY := sy (.g 12) (.g 4) (.g 6) .none 0 0 0

/-- The token there. -/
def tok3 : Nat := 3 * 2 ^ 48 + 7872

theorem wit_deadTokens :
    (let s := suspended 1 8128
     Lone s (resumeNeed resume1) b0 0 (s.fibre 1024) ∧ wordsNat (s.readVals (resumeNeed resume1) b0 0).a = tok3 ∧
      (past s b0 0).tokReason 1024 tok3 true false = some 1 ∧ (past s b0 0).tokReason 1024 tok3 false false = some 1) :=
  ⟨lone _ _ (by decide +kernel), by decide +kernel⟩

theorem wit_tokensContinue :
    (let s := suspended 9 8128
     Lone s (resumeNeed resume1) b0 0 (s.fibre 1024) ∧ resume1.fn = 0 ∧ (s.fibre 1024).tok = [] ∧
      wordsNat (s.readVals (resumeNeed resume1) b0 0).a = tok3 ∧ (past s b0 0).tokReason 1024 tok3 true false = none ∧
      (past s b0 0).tokReason 1024 tok3 false false = none ∧
      bit (((past s b0 0).killToken 1024 7872).laneNat 1024 (7872 + 18) 1) 2 = false ∧
      ((past s b0 0).killToken 1024 7872).laneNat 1024 (7872 + 18) 1 % 4 = 1 ∧
      ((past s b0 0).killToken 1024 7872).laneNat 1024 (7872 + 19) 1 = 12 ∧
      (past s b0 0).laneNat 1024 (7872 + 20) 4 ≠ 0xFFFFFFFE) ∧
    (let s := suspended 9 0xFFFFFFFE
     Lone s (resumeNeed resume1) b0 0 (s.fibre 1024) ∧ (s.fibre 1024).tok = [] ∧
      wordsNat (s.readVals (resumeNeed resume1) b0 0).a = tok3 ∧ (past s b0 0).tokReason 1024 tok3 false false = none ∧
      (past s b0 0).laneNat 1024 (7872 + 20) 4 = 0xFFFFFFFE ∧ sortedKeys s.fibres = true) ∧
    (∀ k ∈ [1, 9], let s := suspended k 8128
     Lone s (effqNeed resume1) b0 0 (s.fibre 1024) ∧ resume1.d = .g 12 ∧ wordsNat (s.readVals (effqNeed resume1) b0 0).a = tok3 ∧
      (past s b0 0).tokReason 1024 tok3 false false = if k = 9 then none else some 1) :=
  ⟨⟨lone _ _ (by decide +kernel), by decide +kernel⟩, ⟨lone _ _ (by decide +kernel), by decide +kernel⟩, by
    intro k h
    simp only [List.mem_cons, List.not_mem_nil, or_false] at h
    rcases h with rfl | rfl <;> exact ⟨lone _ _ (by decide +kernel), by decide +kernel⟩⟩

/-- A launch block of one team with one pack of one lane, at slot 0 of line 4 of region 5, in queue q (R95). -/
def launchBytes (version q : Byte) : List Byte :=
  [version, 0, q, 3, 0, 0, 0, 0] ++ leBytes 2 1 ++ leBytes 2 1 ++ leBytes 2 1 ++ List.replicate 22 0 ++ leBytes 2 256 ++ List.replicate 10 0 ++
    leBytes 4 64 ++ leBytes 2 5 ++ [16, 1, 1] ++ List.replicate 391 0

/-- The small state with region 5 and a launch block at offset 64 of CORE space. -/
def withBlock (bs : List Byte) : State := withScratch (Memory.writes [] 64 bs) (withRegion region5)

/-- LAUNCH of the block at h2[64], with token g9. -/
def launch64 : SY := sy (.g 9) .none .none .none 0 0 0x00200040

/-- The block as LAUNCH reads it. -/
def blk1 : Block := blockOfBytes (launchBytes 1 0)

/-- A launch that a context hands over. -/
def submit1 (b : Block) : Submit := ⟨none, none, b, [0, 0, 0, 0], false, false, none, .none⟩

/-- The state with n launches handed over. -/
def submitted (n : Nat) : State :=
  (withBlock (launchBytes 1 0)).modCtx 1 (fun c => { c with submits := List.replicate n (submit1 blk1) })

/-- The state with a LAUNCH that has waited with its block. -/
def launching (s : State) : State := s.modFibre 1024 (fun x => { x with launching := some (7, launchBytes 1 0) })

/-- A LAUNCH that has waited, with a full queue, with a full token table, and with room. -/
def launchWaits : State := launching (submitted 63)
def launchTok : State := (launching (submitted 62)).modFibre 1024 (fun x => { x with tok := (List.range 16).map (fun i => (20 + i, tok1)) })
def launchGoes : State := launching (submitted 62)

theorem wit_launchesAreHandedOver :
    (∀ bs ∈ [launchBytes 2 0, launchBytes 1 0], let s := withBlock bs
      ∃ v, Lone s (launchNeed launch64) b0 0 (s.fibre 1024) ∧
        launchPrep launch64 (s.laneOf b0 0) (s.readVals (launchNeed launch64) b0 0) (past s b0 0) = .ok (some (acc (.core 64) 2 64)) ∧
        ((past s b0 0).touchHandle (b0.fib 0) 2).readLoc (b0.fib 0) (acc (.core 64) 2 64) 448 (plainHow (acc (.core 64) 2 64)) = (.ok bs, v) ∧
        (blockOk (v.codeEntry (v.ctxOf (b0.fib 0))) bs = true ↔ bs = launchBytes 1 0)) ∧
    (∀ s ∈ [launchWaits, launchTok, launchGoes], Lone s (launchNeed launch64) b0 0 (s.fibre 1024) ∧
      (s.fibre 1024).launching = some (7, launchBytes 1 0) ∧
      (64 ≤ (past s b0 0).queueLoad ((past s b0 0).ctxOf (b0.fib 0)) blk1.queue ↔ s = launchWaits) ∧
      (tokFull ((past s b0 0).fibre (b0.fib 0)) (gOf launch64.d) = true ↔ s = launchTok)) ∧
    ∃ u, (past launchGoes b0 0).release (b0.fib 0) (scopeAt blk1.scope) = (.done, u) :=
  ⟨by
    intro bs h
    simp only [List.mem_cons, List.not_mem_nil, or_false] at h
    rcases h with rfl | rfl <;>
      exact ⟨_, lone _ _ (by decide +kernel), by decide +kernel, okP (by decide +kernel) rfl, by decide +kernel⟩, by
    intro s h
    simp only [List.mem_cons, List.not_mem_nil, or_false] at h
    rcases h with rfl | rfl | rfl <;> exact ⟨lone _ _ (by decide +kernel), by decide +kernel⟩,
   _, fstE (by decide +kernel)⟩


/-- The fibre waits for room in queue 0, which is full, or has room. -/
def launchAsleep (n : Nat) : State := (submitted n).modFibre 1024 (fun x => { x with st := .waiting (.launchRoom 0) })

theorem wit_launchesTryAgain (n : Nat) (h : n = 63 ∨ n = 62) : let s := launchAsleep n
    s.fibre? 1024 = some (s.fibre 1024) ∧ (s.fibre 1024).halted = false ∧ (s.fibre 1024).st = .waiting (.launchRoom 0) ∧
      decide (64 ≤ s.queueLoad (s.ctxOf 1024) 0) = decide (n = 63) := by
  obtain rfl | rfl := h <;> decide +kernel
/-- A partition of quads 0 of die 0 with 16 units of Tundish, and a state with it. -/
def withPart (s : State) : State :=
  { s with parts := [(0, { quads := [(0, 0)], tun := [(0, (0, 16))], fifo := true, served := [], turn := none, since := 0, slice := 1000 })] }

/-- The state in which the context has handed over one launch; the state that its acceptance judges. -/
def accepting (x : Submit) : State := withPart ((withRegion region5).modCtx 1 (fun c => { c with submits := [x] }))

/-- That state once the context has its ASIDs, and the state that the acceptance judges. -/
def given (x : Submit) : State := ((accepting x).giveAsids 1).getD default
def judged (x : Submit) : State :=
  ((given x).modCtx 1 (fun y => { y with
    submits := []
    lidNext := if ((accepting x).ctx 1).lidNext + 1 = 2 ^ 32 then 1 else ((accepting x).ctx 1).lidNext + 1 })).modMod (fun m => { m with
      nextOrder := m.nextOrder + 1 })

/-- The state of a context without ASIDs whose die 0 has none left. -/
def noAsids : State :=
  let s := (accepting (submit1 blk1)).modCtx 1 (fun y => { y with asids := [] })
  { s with ctxs := s.ctxs ++ [(9, { (s.ctx 1) with asids := (List.range 512).map (fun a => (0, a)) })] }

theorem noAsids_gives : noAsids.giveAsids 1 = none := by
  have h : noAsids.asidsLeft 0 = [] := by
    simp only [State.asidsLeft, List.filter_eq_nil_iff, List.all_eq_true]
    intro a ha hc
    have hm := hc (9, { (((accepting (submit1 blk1)).modCtx 1 (fun y => { y with asids := [] })).ctx 1) with
      asids := (List.range 512).map (fun a => (0, a)) }) (by simp [noAsids])
    simp only [Bool.not_eq_true', List.contains_eq_mem, decide_eq_false_iff_not] at hm
    exact hm (List.mem_map.mpr ⟨a, ha, rfl⟩)
  have h0 : (noAsids.ctx 1).asids.isEmpty = true := by decide +kernel
  simp [State.giveAsids, h0, List.range_succ, h]

theorem wit_acceptanceDecides :
    (∀ e ∈ [(blk1, none), ({ blk1 with tundish := 4096 * 17 }, some 3)], let x := submit1 e.1
      let s := accepting x
      s.ctx? 1 = some (s.ctx 1) ∧ (s.ctx 1).submits = [x] ∧ (s.ctx 1).cold = false ∧ (s.ctx 1).destroyed = false ∧
        s.giveAsids 1 = some (given x) ∧ (judged x).rejects 1 x = e.2) ∧
    (noAsids.ctx? 1 = some (noAsids.ctx 1) ∧ (noAsids.ctx 1).submits ≠ [] ∧ (noAsids.ctx 1).cold = false ∧
      (noAsids.ctx 1).destroyed = false) ∧ noAsids.giveAsids 1 = none ∧
    (base.ctx? 1 = some (base.ctx 1) ∧ (base.ctx 1).submits = [] ∧ (base.ctx 1).cold = false ∧ (base.ctx 1).destroyed = false) :=
  ⟨by decide +kernel, by decide +kernel, noAsids_gives, by decide +kernel⟩

/-- A launch that is released and waits for its one team to be bound. -/
def bindable1 : State :=
  withPart ((withRegion region5).modLaunch (launchKey 1 1) (fun L => { L with blk := blk1, bound := [], coreCnt := [], quadCnt := [], dieCnt := [], home := none }))

/-- The place that the environment names for it. -/
def place1 : BindRes := ⟨3, 0, 0, 0, 0, 0, 4⟩

/-- The launch with its team bound there, halted since and saved. -/
def halted1 : State :=
  (bindable1.bindOne 0 (launchKey 1 1) 0 1 place1).modTeam 2 (fun t => { t with
    phase := .running
    halted := true
    saved := some default })

theorem wit_teamsAreBound :
    base.chooseLaunch 0 = none ∧ halted1.chooseLaunch 0 = some (launchKey 1 1, .again [2]) ∧
    (bindable1.chooseLaunch 0 = some (launchKey 1 1, .fresh [(0, 1)]) ∧ bindable1.slotUsed 1 place1.slot = false ∧
      (bindable1.launch? (launchKey 1 1)).isSome) := by decide +kernel

/-- The state with the team bound on core 1, its record naming pack entries from n on. -/
def bound1 (n : Nat) : State := bindable1.bindOne 0 (launchKey 1 1) 0 1 { place1 with pkBase := n }

/-- The state with that team claimed until clk 2. -/
def claimed1 : State := (bound1 4).modTeam 2 (fun t => { t with phase := .claimed 2 })

theorem wit_dispatchStartsTeams :
    (∀ n ∈ [63, 64], (bound1 n).teamAtSlot 1 3 = some 2 ∧ ((bound1 n).team 2).phase = .bound ∧ ((bound1 n).team 2).halted = false ∧ (bound1 n).groupValid 2 = true ∧
      ((bound1 n).team? 2).isSome ∧ (bound1 n).namesFree 2 ((bound1 n).team 2).brec = (n == 63) ∧
      coreKey ((bound1 n).team 2).die ((bound1 n).team 2).core = 1 ∧ ((bound1 n).team 2).again = false) ∧
    (let s := (bound1 64).modTeam 2 (fun t => { t with again := true })
     s.teamAtSlot 1 3 = some 2 ∧ (s.team 2).phase = .bound ∧ (s.team 2).halted = false ∧ s.groupValid 2 = true ∧ (s.team? 2).isSome ∧
      s.namesFree 2 (s.team 2).brec = false ∧ (s.team 2).again = true) ∧
    (∀ k ∈ [1, 2], let s := claimed1.modCore 1 (fun c => { c with clk := k })
      s.teamAtSlot 1 3 = some 2 ∧ (s.team 2).phase = .claimed 2 ∧ (s.team? 2).isSome ∧
      (∀ r ∈ (s.launchOfTeam 2).blk.roles, r.lanes ≤ 32) ∧ (s.launchOfTeam 2).blk.packs ≤ 32 ∧ (s.core 1).clk = k ∧ s.groupClaimed 2 = true) := by
  decide +kernel

/-- A state whose fibre has ended, and whose launch has a root of r. -/
def endedOf (s : State) (r : Nat) : State :=
  (s.modFibre 1024 (fun x => { x with st := .exited })).modLaunch (launchKey 1 1) (fun L => { L with root := r, failed := 3 })
def ended (r : Nat) : State := endedOf base r

/-- The fibre was killed with a capsule held, whose page's frame is frozen. -/
def parks : State := endedOf (frozenPage (inTenure 0)) 1

/-- The fibre has bytes of a frozen frame in the L1, under a launch of device scope. -/
def releases : State := (endedOf (frozenPage dirtied) 1).modLaunch (launchKey 1 1) (fun L => { L with blk := { L.blk with scope := 4 } })

/-- The launch mirrors its scoreboard at virtual 0, whose frame is frozen. -/
def mirrors : State :=
  ((endedOf (frozenPage mapped) 1).modLaunch (launchKey 1 1) (fun L => { L with blk := { L.blk with sbh := 6 } })).modCtx 1 (fun c => { c with
    table := [(6, entryBytes 0 4096 0x31 0)] })

/-- The state after the locks of the killed fibres are parked, and after the release. -/
def parked1 (s : State) : State := (s.parkLeft 1).2
def released1 (s : State) : State := ((parked1 s).releaseTeam 1).reportFaults 1

theorem wit_teamsRetire :
    base.mayRetire 1 = false ∧
    (parks.mayRetire 1 = true ∧ parks.parkLeft 1 = (false, parked1 parks)) ∧
    (releases.mayRetire 1 = true ∧ releases.parkLeft 1 = (true, parked1 releases) ∧ ((parked1 releases).releaseTeam 1).teamWaits 1 = true) ∧
    (mirrors.mayRetire 1 = true ∧ mirrors.parkLeft 1 = (true, parked1 mirrors) ∧ ((parked1 mirrors).releaseTeam 1).teamWaits 1 = false ∧
      (released1 mirrors).setScore 1 = none) ∧
    ((ended 1).mayRetire 1 = true ∧ (ended 1).parkLeft 1 = (true, parked1 (ended 1)) ∧
      ((parked1 (ended 1)).releaseTeam 1).teamWaits 1 = false ∧ ((released1 (ended 1)).setScore 1).isSome) ∧
    (∃ L, (ended 0).launch? (launchKey 1 1) = some L ∧ L.root = 0 ∧ L.done = false ∧ L.parent = none ∧
      ((ended 0).ctx? L.ctx).isSome ∧ (ended 0).childDue L.ctx (launchKey 1 1) = false ∧
      ((ended 0).releasePart ((ended 0).ctx L.ctx).part (scopeAt L.blk.scope)).partWaits ((ended 0).ctx L.ctx).part
        (scopeAt L.blk.scope) = false ∧ launchKey 1 1 = launchKey L.ctx L.lid) :=
  ⟨by decide +kernel, ⟨by decide +kernel, fstE (by decide +kernel)⟩,
   ⟨by decide +kernel, fstE (by decide +kernel), by decide +kernel⟩,
   ⟨by decide +kernel, fstE (by decide +kernel), by decide +kernel, by decide +kernel⟩,
   ⟨by decide +kernel, fstE (by decide +kernel), by decide +kernel, by decide +kernel⟩,
   (ended 0).launch (launchKey 1 1), by decide +kernel⟩

theorem wit_coresIssueBatches :
    (∃ (s u : State) (c : Nat), s.enterPending c = u ∧ ((s.core c).clk, s.fibres.length) = (0, 2)) ∧
    (∀ f x, base.fibre? f = some x → onTheWay x ≠ [] → base.holdsLine f = true) :=
  ⟨⟨two, _, 0, rfl, by decide +kernel⟩, by
    intro f x h hw
    have hb : base.fibre? f = if 1024 = f then some (base.fibre 1024) else none := rfl
    rw [hb] at h
    split at h
    · simp only [Option.some.injEq] at h
      subst h
      exact absurd (by decide +kernel) hw
    · simp at h⟩

/-- Line 1 of the region in an I-cache. -/
def line1 : ILine := { ctx := 1, asid := 0, key := 0, off := 64, gen := 1, pa := 0x10000040, data := goodLine }

/-- The state with region 5, its fibre at line 1 and no line, its entry for the region, and the line in the I-cache. -/
def fetching (own : List (Nat × Nat × Nat)) (gen : Nat) (pc : Word) : State :=
  ((codeState { line5 with lines := 4, gen := gen } goodLine).modFibre 1024 (fun x => { x with pc := pc, fbuf := none })).modTeam 1 (fun t => { t with
    adopted := own }) |>.modCore 0 (fun c => { c with icache := [line1] })

theorem wit_linesAreFetched :
    (∀ e ∈ [fetching [] 1 64, fetching [(0, 5, 1)] 2 64, fetching [(0, 5, 1)] 1 64, fetching [] 1 320],
      Issuing e 1024 (e.fibre 1024) ∧ e.holdsLine 1024 = false) ∧
    ((fetching [] 1 320).regionAt 1 320 = none ∧
      (∀ e ∈ [fetching [] 1 64, fetching [(0, 5, 1)] 2 64, fetching [(0, 5, 1)] 1 64], ((e.regionAt 1 64).map (·.1)) = some 5) ∧
      adoptedGen ((fetching [] 1 64).teamOf 1024) 5 = none ∧ adoptedGen ((fetching [(0, 5, 1)] 2 64).teamOf 1024) 5 = some 1) ∧
    (let s := fetching [(0, 5, 1)] 1 64
     ∃ r xl u, s.fetchCheck 1024 64 = .ok (5, r) ∧ adoptedGen (s.teamOf 1024) 5 = some r.gen ∧ r.state = .published ∧
      insideRegion r (s.coreOf 1024) = true ∧ (s.fillLook (s.coreOf 1024) (s.ctxOf 1024) 5).lineXlate 1024 64 5 = (.ok xl, u) ∧
      u.fibre? 1024 = some (s.fibre 1024) ∧ (u.core (u.coreOf 1024)).icache.find? (fun y => y.ctx == u.ctxOf 1024 &&
        y.asid == u.asidOf (u.ctxOf 1024) (u.coreOf 1024 / 128) && y.key == xl.key && y.off == 64 / 64 * 64 && y.gen == r.gen) = some line1 ∧
      parityOk line1.data 64 = true) ∧
    (∃ e, (fetching [(0, 5, 1)] 2 64).fetchCheck 1024 64 = .error e) :=
  ⟨by
    intro e h
    simp only [List.mem_cons, List.not_mem_nil, or_false] at h
    rcases h with rfl | rfl | rfl | rfl <;> exact ⟨⟨by decide +kernel, by decide +kernel, by decide +kernel⟩, by decide +kernel⟩,
   by decide +kernel, ⟨{ line5 with lines := 4 }, { pa := 0x10000040, key := 0, gen := 0 }, _, okE (by decide +kernel), by decide +kernel, by decide +kernel,
    by decide +kernel, okP (by decide +kernel) rfl, by decide +kernel, by decide +kernel, by decide +kernel⟩,
   ⟨{ eff := 0x011, arg := codeArg 64 5 2 }, erE (by decide +kernel)⟩⟩

/-- The small state with a result on its way, or two. -/
def parked (n : Nat) : State :=
  onFib (fun x => { x with st := .parked, pend := (List.range n).map (fun i => { reg := 20 + i, val := 7, pos := i, cls := .b, arrived := false, serial := i, old := 0, load := none }) })

/-- A fibre that waits for the tokens of g9 and g10. -/
def waiting (m : Map Tok) : State := onFib (fun x => { x with st := .waiting (.token [9, 10]), tok := m })

/-- A read of the fibre behind that write, which its frozen frame holds. -/
def loadWaits : State :=
  { (frozenPage mapped).modFibre 1024 (fun x => { x.putLoads (rG 12) 1 0 [0] with
      st := .parked
      loads := [(1, { loc := .glob 0, n := 4, sx := false })]
      qseq := 2 }) with reqs := [(0, req0)] }

/-- A fibre that waits at a point. -/
def waitsAt (ph : Bool) (src : Option Nat) : State := onFib (fun x => { x with st := .waiting (.rendezvous 23 ph none src) })

theorem wit_fibresWakeUp :
    (∀ n ∈ [1, 2], (parked n).fibre? 1024 = some ((parked n).fibre 1024) ∧ ((parked n).fibre 1024).halted = false ∧
      (∀ w ∈ ((parked n).fibre 1024).pend, w.load = none) ∧ onTheWay ((parked n).fibre 1024) ≠ []) ∧
    (∃ w ld, loadWaits.fibre? 1024 = some (loadWaits.fibre 1024) ∧ (loadWaits.fibre 1024).halted = false ∧
      onTheWay (loadWaits.fibre 1024) = [w] ∧ w.load = some 1 ∧ mapGet (loadWaits.fibre 1024).loads 1 = some ld ∧
      mapHas ((loadWaits.arriveBefore 1024 (fun y => decide (y.seq ≤ 1) && y.block == locBlock ld.loc)).fibre 1024).loads 1 = true) ∧
    (∀ m ∈ [[(10, tok1)], []], let s := waiting m
      s.fibre? 1024 = some (s.fibre 1024) ∧ (s.fibre 1024).halted = false ∧ (s.fibre 1024).st = .waiting (.token [9, 10]) ∧
      ((∃ r ∈ [9, 10], mapHas (s.fibre 1024).tok r = true) ↔ m ≠ [])) ∧
    (let s := waitsAt true none
     s.fibre? 1024 = some (s.fibre 1024) ∧ (s.fibre 1024).halted = false ∧ (s.fibre 1024).st = .waiting (.rendezvous 23 true none none) ∧
      (s.point (1024 / 1024) 23).phase ≠ s.waitPhase 1024 true none) :=
  ⟨by decide +kernel, ⟨(onTheWay (loadWaits.fibre 1024)).headD default, { loc := .glob 0, n := 4, sx := false }, by decide +kernel⟩,
   by decide +kernel, by decide +kernel⟩

/-- A fibre that waits for the service of a word, in a context of mode m. -/
def missing (m : Nat) : State :=
  (onFib (fun x => { x with missing := some 0xE00000000000000000000000 })).modCtx 1 (fun c => { c with missingMode := m })

theorem wit_missingServices : ∀ m ∈ [0, 1], sortedKeys (missing m).fibres = true ∧
    (missing m).missingAt 1024 m = some ((missing m).fibre 1024, 0xE00000000000000000000000) := by decide +kernel

/-- A fibre that waits at a point whose phase is still the one it waits to end. -/
def stuck : State := onFib (fun x => { x with st := .waiting (.rendezvous 23 false none none) })

/-- Two fibres in HBARs of two scopes. -/
def crossed : State :=
  ((wholeLaunch two).modFibre 1024 (fun x => { x with st := .waiting (.hbar .quad 0) })).modFibre 1025 (fun x => { x with
    st := .waiting (.hbar .die 0) })

theorem wit_deadlocksRaise :
    base.stuck 1 = false ∧ (∃ x, stuck.stuck 1 = true ∧ stuck.teamFibres 1 = [(1024, x)] ∧ stuckObj x = some 23) ∧
    base.hbarStuck 1 1 = [] ∧ (∃ x y, crossed.hbarStuck 1 1 = [(1024, x), (1025, y)]) :=
  ⟨by decide +kernel, ⟨stuck.fibre 1024, by decide +kernel⟩, by decide +kernel, crossed.fibre 1024, crossed.fibre 1025,
    by decide +kernel⟩

/-- Two fibres of a stuck team, at two points. -/
def stuckTwo : State := stuck.setFibre 1025 { fib0 with st := .waiting (.rendezvous 5 false none none) }

theorem wit_everyFibreRaises :
    (stuckTwo.stuck 1 = true ∧ (stuckTwo.teamFibres 1).map (fun e => (e.1, stuckObj e.2)) = [(1024, some 23), (1025, some 5)]) ∧
    crossed.team? 1 = some (crossed.team 1) ∧ crossed.hbarDead 1 .quad = true ∧ (crossed.hbarMembers 1 .quad).map (·.1) = [1024, 1025] := by
  decide +kernel
/-- A 64 KiB page at virtual 0 and physical 0x10000000 with permissions. -/
def paged (perms : Byte) : State :=
  { base with dram := [(0, 1), (2, 1), (65536, 1), (65538, 2), (131072, perms), (131075, 0x10)] }

/-- The page with a request of the fibre, in a frame of a generation that is frozen or not. -/
def homeState (perms : Byte) (gen : BitVec 12) (frozen : Bool) (r : HomeReq) : State :=
  { paged perms with reqs := [(0, r)], frames := [(0x1000, { gen := gen, moving := none, frozen := frozen, owner := some 1 })] }

/-- A plain write of the fibre, and an update. -/
def reqPlain : HomeReq := { req0 with through := false }
def reqRed : HomeReq := { req0 with op := .red 0 4 9 }

/-- What home finds for a request of its frame's generation. -/
def found (s : State) (w : XFor) : Except XErr Xl × State := s.resolve (.core 0) 1 0 w { pa := 0x10000000, key := 0, gen := 0 }

/-- A request stands first, and its translation stands or fails. -/
def First (s : State) (r : HomeReq) : Prop := mapGet s.reqs 0 = some r ∧ s.reqFree 0 r = true ∧ r.replay = false ∧ r.loc = .glob 0

/-- A line of the L1 of one Clean sector; and a sector that only the die's L2 holds a copy of. -/
def cleanKey : Nat := 5 * 512 + 3
def cleanLine : State := base.setL1 0 cleanKey (.clean [1])

theorem wit_homeAndCachesMove :
    (let s := { homeState 0x7F 0 true req0 with reqs := [(0, req0), (1, { req0 with seq := 1 })] }
     mapGet s.reqs 1 = some { req0 with seq := 1 } ∧ s.reqFree 1 { req0 with seq := 1 } = false) ∧
    (let r := { req0 with replay := true }
     mapGet (homeState 0x7F 0 false r).reqs 0 = some r ∧ r.replay = true) ∧
    (∀ z ∈ [false, true], let s := homeState 0x7F 0 z req0
      First s req0 ∧ req0.op = .write [7] ∧ req0.through = true ∧
        ∃ xl u, found s .write = (.ok xl, u) ∧ u.homeHeld 0 xl.pa xl.key true = z) ∧
    (let s := homeState 0x7F 0 false reqPlain
     First s reqPlain ∧ reqPlain.op = .write [7] ∧ reqPlain.through = false ∧
      ∃ xl u w, found s .write = (.ok xl, u) ∧ u.l1Held 0 xl.pa xl.key 1 true = false ∧
        u.allocate 0 (sectorKey xl.pa xl.key) reqPlain.hint = some w) ∧
    (∀ z ∈ [false, true], let s := homeState 0x7F 0 z reqRed
      First s reqRed ∧ reqRed.op = .red 0 4 9 ∧ ∃ xl u, found s .atomic = (.ok xl, u) ∧ u.homeHeld 0 xl.pa xl.key true = z) ∧
    (First (homeState 0x7F 5 false req0) req0 ∧ ∃ u, found (homeState 0x7F 5 false req0) .write = (.error .held, u)) ∧
    (First (homeState 0x7B 5 false req0) req0 ∧ ∃ u, found (homeState 0x7B 5 false req0) .write = (.error .nonres, u)) ∧
    (lineOfKey cleanKey ∈ cleanLine.evictable 0 ∧ (cleanLine.core 0).sectorsOf (lineOfKey cleanKey) = [cleanKey] ∧
      cleanLine.l1 0 cleanKey = some (.clean [1])) ∧
    (lineOfKey cleanKey ∉ base.evictable 0 ∧ base.l1 0 cleanKey = none) ∧
    (∀ p ∈ [0x7F, 0x00], let s := paged p
      s.ctx? 1 = some (s.ctx 1) ∧ (s.ctx 1).cold = false ∧ (s.ctx 1).destroyed = false ∧ (s.ctx 1).asids ≠ [] ∧
        ((s.walk 1 0).isSome ↔ p = 0x7F)) := by
  refine ⟨by decide +kernel, by decide +kernel, ?_, ⟨⟨by decide +kernel, by decide +kernel, rfl, rfl⟩, rfl, rfl, { pa := 0x10000000, key := 0, gen := 0 },
      (found (homeState 0x7F 0 false reqPlain) .write).2, ((found (homeState 0x7F 0 false reqPlain) .write).2.allocate 0
        (sectorKey 0x10000000 0) reqPlain.hint).getD default, okP (by decide +kernel) rfl, by decide +kernel, by decide +kernel⟩, ?_,
    ⟨⟨by decide +kernel, by decide +kernel, rfl, rfl⟩, _, Prod.ext (erE (by decide +kernel)) rfl⟩,
    ⟨⟨by decide +kernel, by decide +kernel, rfl, rfl⟩, _, Prod.ext (erE (by decide +kernel)) rfl⟩,
    by decide +kernel, by decide +kernel, by decide +kernel⟩
  · intro z h
    simp only [List.mem_cons, List.not_mem_nil, or_false] at h
    rcases h with rfl | rfl <;> exact ⟨⟨by decide +kernel, by decide +kernel, rfl, rfl⟩, rfl, rfl, { pa := 0x10000000, key := 0, gen := 0 },
      _, okP (by decide +kernel) rfl, by decide +kernel⟩
  · intro z h
    simp only [List.mem_cons, List.not_mem_nil, or_false] at h
    rcases h with rfl | rfl <;> exact ⟨⟨by decide +kernel, by decide +kernel, rfl, rfl⟩, rfl, { pa := 0x10000000, key := 0, gen := 0 },
      _, okP (by decide +kernel) rfl, by decide +kernel⟩

/-- The leaf of a page. -/
def leaf0 (s : State) : Leaf := (s.walk 1 0).getD default

/-- The page with a migration to frame 5 in round n under way, its frame frozen or not, or with none. -/
def pageMoves (perms : Byte) (m : Option (Nat × Nat)) (z : Bool) : State :=
  { paged perms with frames := [(0x1000, { gen := 0, moving := m, frozen := z, owner := some 1 })] }

/-- What `PagesMove` supposes of its state. -/
def PageHere (s : State) : Prop :=
  s.ctx? 1 = some (s.ctx 1) ∧ (s.ctx 1).cold = false ∧ (s.ctx 1).destroyed = false ∧ s.walk 1 0 = some (leaf0 s)

/-- The page with its first sector written under its key. -/
def written : State := { paged 0x7F with skeys := [(0x400000, { key := 0, mask := BitVec.allOnes 64, base := 0, ver := 1 })] }

/-- The page in a frozen frame. -/
def pageFrozen : State := pageMoves 0x7F (some (5, 1)) true

/-- What `PortsAccess` supposes of its state. -/
def PortHere (s : State) (v : State) : Prop :=
  s.mod.boot = .running ∧ s.ctx? 1 = some (s.ctx 1) ∧ (s.ctx 1).cold = false ∧ (s.ctx 1).destroyed = false ∧ s.giveAsids 1 = some v

theorem portHere (s : State) (h : (decide (s.mod.boot = .running) && decide (s.ctx? 1 = some (s.ctx 1)) && !(s.ctx 1).cold &&
    !(s.ctx 1).destroyed && !(s.ctx 1).asids.isEmpty) = true) : PortHere s s := by
  simp only [Bool.and_eq_true, decide_eq_true_eq, Bool.not_eq_true'] at h
  exact ⟨h.1.1.1.1, h.1.1.1.2, h.1.1.2, h.1.2, by simp [State.giveAsids, h.2]⟩

theorem wit_portsAccess :
    (base.mod.boot = .running ∧ base.ctx? 9 = none ∧ rmaOk (.reduce 6 0 0) = false) ∧
    (PortHere written written ∧ rmaOk (.read 8) = true ∧ (∃ bs u, written.portAccess .control 1 0 (.read 8) = (.performed bs, u)) ∧
      rmaOk (.write [1, 2]) = true ∧ ∃ bs u, written.portAccess .port 1 0 (.write [1, 2]) = (.performed bs, u)) ∧
    (PortHere (paged 0x7B) (paged 0x7B) ∧ ∃ u, (paged 0x7B).portAccess .port 1 0 (.write [1, 2]) = (.absent, u)) ∧
    (PortHere pageFrozen pageFrozen ∧ ∃ u, pageFrozen.portAccess .port 1 0 (.write [1, 2]) = (.busy, u)) ∧
    (PortHere (paged 0x6F) (paged 0x6F) ∧ ∃ perm u, (paged 0x6F).portAccess .port 1 0 (.write [1, 2]) = (.failed perm, u)) ∧
    (∀ out ∈ [true, false], let op : StoreReq := { ns := 1, off := 0, len := 8, out := out }
      let what (s : State) : RmaOp := if op.out then .read op.len else .write (s.storeBytes op.ns op.off op.len)
      (∃ bs u, written.portAccess .port 1 0 (what written) = (.performed bs, u)) ∧
        (∃ u, (paged 0x7B).portAccess .port 1 0 (what (paged 0x7B)) = (.absent, u)) ∧
        ∃ perm u, (paged 0x00).portAccess .port 1 0 (what (paged 0x00)) = (.failed perm, u)) := by
  refine ⟨by decide +kernel, ⟨portHere _ (by decide +kernel), rfl, ⟨List.replicate 8 0, _, fstE (by decide +kernel)⟩, rfl,
      [], _, fstE (by decide +kernel)⟩, ⟨portHere _ (by decide +kernel), _, fstE (by decide +kernel)⟩,
    ⟨portHere _ (by decide +kernel), _, fstE (by decide +kernel)⟩, ⟨portHere _ (by decide +kernel), true, _, fstE (by decide +kernel)⟩, ?_⟩
  intro out h
  simp only [List.mem_cons, List.not_mem_nil, or_false] at h
  rcases h with rfl | rfl
  · exact ⟨⟨List.replicate 8 0, _, fstE (by decide +kernel)⟩, ⟨_, fstE (by decide +kernel)⟩, false, _,
      fstE (by decide +kernel)⟩
  · exact ⟨⟨[], _, fstE rfl⟩, ⟨_, fstE (by decide +kernel)⟩, false, _, fstE (by decide +kernel)⟩

/-- The page with a GLOBAL entry of 64 bytes at h6, with a permission byte. -/
def farEntry (perm : Nat) : State := written.modCtx 1 (fun c => { c with table := [(6, entryBytes 0 64 perm 0)] })

/-- A peer's segment through a handle: 8 bytes read, or 2 written. -/
def farReq (op : RmaOp) : RmaReq := { op := op, own := false, far := some 6 }

/-- What `PortsAccess` finds of a peer's handle. -/
def FarHere (s : State) (r : RmaReq) (va : Nat) (global may fits : Bool) : Prop :=
  PortHere s s ∧ rmaOk r.op = true ∧ r.far = some 6 ∧ let e := s.entryIn 1 6
    decide (e.spaceOf = some 1) = global ∧ (if r.op = .read (rmaLen r.op) then e.canRead else e.canWrite) = may ∧
    decide (va + rmaLen r.op ≤ e.len) = fits

theorem wit_farSegments :
    FarHere (farEntry 0x33) (farReq (.read 8)) 0 false true true ∧ FarHere (farEntry 0x11) (farReq (.write [1, 2])) 0 true false true ∧
    FarHere (farEntry 0x21) (farReq (.read 8)) 0 true false true ∧ FarHere (farEntry 0x31) (farReq (.read 8)) 57 true true false ∧
    (FarHere (farEntry 0x31) (farReq (.read 8)) 56 true true true ∧
      (farEntry 0x31).rmaPlace 1 56 (farReq (.read 8)) = .ok (((farEntry 0x31).entryIn 1 6).base + 56)) ∧
    (base.ctx? 9 = none ∧ (farReq (.read 8)).far.isSome) := by
  refine ⟨⟨portHere _ (by decide +kernel), ?_⟩, ⟨portHere _ (by decide +kernel), ?_⟩, ⟨portHere _ (by decide +kernel), ?_⟩,
    ⟨portHere _ (by decide +kernel), ?_⟩, ⟨⟨portHere _ (by decide +kernel), ?_⟩, okE ?_⟩, ?_⟩ <;> decide +kernel
/-- The state of a second context that shares the partition of the first. -/
def shared : State :=
  { withPart base with
    ns := 1000
    ctxs := (withPart base).ctxs ++ [(2, (base.ctx 1))]
    parts := [(0, { quads := [(0, 0)], tun := [(0, (0, 16))], fifo := true, served := [], turn := some 1, since := 0, slice := 1000 })] }

/-- The state with a reply of a halt generation. -/
def withReply (g : BitVec 8) : State := base.modMod (fun m => { m with replies := [⟨1, g⟩] })

/-- What a halt of the small team supposes of its state. -/
def HaltsNow (s : State) : Prop :=
  ∃ T x, s.team? 1 = some T ∧ T.halted = false ∧ T.phase = .running ∧ s.redsOf 1 = [] ∧ s.ctx? T.ctx = some x

theorem wit_haltsStopTeams :
    (HaltsNow base ∧ (∀ r ∈ base.mod.replies, r.ctx = 1 → r.cxgen = (base.ctx 1).cxgen) ∧ base.reqs = [] ∧
      ∃ y, base.fibre? 1024 = some y ∧ y.st ≠ .exited) ∧
    (HaltsNow (withReply 9) ∧ ∃ r ∈ (withReply 9).mod.replies, r.ctx = 1 ∧ r.cxgen ≠ ((withReply 9).ctx 1).cxgen) ∧
    (base.partOf 1).turn ≠ some 1 ∧
    (∃ x, shared.ctx? 1 = some x ∧ x.cold = false ∧ x.destroyed = false ∧ (shared.partOf 1).turn = some 1 ∧
      2 ≤ (shared.sharers 1).length ∧ (shared.partOf 1).since + (shared.partOf 1).slice ≤ shared.ns) ∧
    (∀ r ∈ (withReply 0).mod.replies, r.ctx = 1 → r.cxgen = ((withReply 0).ctx 1).cxgen) ∧
    (∀ e ∈ (base.saveReqs 1).reqs, e.2.ctx = 1 → e.2.through = true → e.2.replay = false → e.2.cxgen = (base.ctx 1).cxgen) ∧
    (∃ r, (withReply 9).mod.replies = r :: [] ∧ r.ctx = 1 ∧ r.cxgen ≠ ((withReply 9).ctx 1).cxgen) :=
  ⟨⟨⟨base.team 1, base.ctx 1, by decide +kernel⟩, by decide +kernel, by decide +kernel, base.fibre 1024, by decide +kernel⟩,
   ⟨⟨(withReply 9).team 1, (withReply 9).ctx 1, by decide +kernel⟩, by decide +kernel⟩, by decide +kernel,
   ⟨shared.ctx 1, by decide +kernel⟩, by decide +kernel, by decide +kernel, ⟨⟨1, 9⟩, by decide +kernel⟩⟩

/-- The small state with its team halted at 5 ns, saved or not, at a package time. -/
def haltedAt (v : Option Saved) (ns : Nat) : State :=
  { base.modTeam 1 (fun t => { t with halted := true, haltAsked := some 5, saved := v }) with ns := ns }

/-- The record that brings a team back to its place at a pack entry, and whether it is written with RESUME on the team's own slot. -/
def again1 (T : Team) (n : Nat) : BindRec :=
  State.recordOf (halted1.launchOfTeam 2) ((halted1.launchOfTeam 2).blk.teamNo T.x T.y T.z) { place1 with pkBase := n } (T.phase == .running)

/-- A WHOLE launch whose two teams are halted and saved, to be bound again together. -/
def halted2 : State :=
  let s := bindable1.modLaunch (launchKey 1 1) (fun L => { L with whole := true, blk := { blk1 with gx := 2 } })
  let back (s : State) (t : Nat) : State := s.modTeam t (fun T => { T with phase := .running, halted := true, saved := some default })
  back (back ((s.bindOne 0 (launchKey 1 1) 0 1 place1).bindOne 0 (launchKey 1 1) 1 2 place1) 2) 3

theorem wit_wholeLaunchResumes :
    halted2.chooseLaunch (halted2.ctx (halted2.team 2).ctx).part = some (launchKey 1 1, .again [2, 3]) ∧
      [place1, place1].map (·.slot) = [2, 3].map (fun e => (halted2.team e).brec.slot) ∧ (halted2.team? 2).isSome := by decide +kernel

theorem wit_haltsSaveAndRestore :
    (∃ T, (haltedAt none 7).team? 1 = some T ∧ T.halted = true ∧ T.saved = none ∧ T.haltAsked = some 5 ∧
      (haltedAt none 7).ns + 100 - 5 < 50000 ∧ (haltedAt none 7).redsOf 1 = [] ∧ (∀ e ∈ (haltedAt none 7).allFibres 1, e.2.capMode = false) ∧ T.phase = .running ∧
      (haltedAt none 7).dividing 1 = false ∧ ((haltedAt none 7).ctx T.ctx).due = 0) ∧
    (∀ n ∈ [50004, 50005], ∃ T, (haltedAt none n).team? 1 = some T ∧ T.haltAsked = some 5 ∧ T.halted = true ∧ T.saved = none ∧
      (50000 ≤ (haltedAt none n).ns - 5 ↔ n = 50005)) ∧
    (let s := haltedAt (some (base.saveOf 1)) 7
     ∃ T, s.team? 1 = some T ∧ T.saved = some (base.saveOf 1) ∧ ∀ k ts, s.chooseLaunch (s.ctx T.ctx).part = some (k, .again ts) → 1 ∉ ts) ∧
    (∀ n ∈ [63, 64], ∃ T, halted1.team? 2 = some T ∧ T.saved = some default ∧ place1.slot = T.brec.slot ∧
      halted1.chooseLaunch (halted1.ctx T.ctx).part = some (launchKey 1 1, .again [2]) ∧
      (halted1.namesFree 2 (again1 T n) = true ↔ n = 63)) := by
  refine ⟨⟨(haltedAt none 7).team 1, by decide +kernel⟩, ?_, ⟨(haltedAt (some (base.saveOf 1)) 7).team 1, by decide +kernel, by decide +kernel, ?_⟩, ?_⟩
  · intro n h
    simp only [List.mem_cons, List.not_mem_nil, or_false] at h
    rcases h with rfl | rfl
    · exact ⟨(haltedAt none 50004).team 1, by decide +kernel⟩
    · exact ⟨(haltedAt none 50005).team 1, by decide +kernel⟩
  · have h : (haltedAt (some (base.saveOf 1)) 7).chooseLaunch ((haltedAt (some (base.saveOf 1)) 7).ctx
        ((haltedAt (some (base.saveOf 1)) 7).team 1).ctx).part = none := by decide +kernel
    intro k ts hc; rw [h] at hc; cases hc
  · intro n h
    simp only [List.mem_cons, List.not_mem_nil, or_false] at h
    rcases h with rfl | rfl <;> exact ⟨halted1.team 2, by decide +kernel⟩

/-- A message of a type for a context, with flags (R429). -/
def msgOf (rtype ctx flags : Nat) : Msg :=
  { flow := 1, head := leBytes 2 rtype ++ leBytes 2 flags ++ leBytes 4 ctx ++ leBytes 8 77 ++ List.replicate 16 0, again := false, len := 0 }

theorem asked (s : State) (m : Msg) (t : Nat) (h : (decide (s.mod.boot = .running) && decide (m.head.length = 32) && !badHead m &&
    decide (m.rtype = t) && !m.again && (s.waitingOn m).isEmpty) = true) : Asked s m t := by
  simp only [Bool.and_eq_true, decide_eq_true_eq, Bool.not_eq_true', List.isEmpty_iff] at h
  exact ⟨h.1.1.1.1.1, ⟨h.1.1.1.1.2, h.1.1.1.2, h.1.1.2⟩, h.1.2, h.2⟩

theorem serves (s : State) (m : Msg) (t : Nat) (h : (decide (s.mod.boot = .running) && decide (m.head.length = 32) && !badHead m &&
      decide (m.rtype = t) && !m.again && (s.waitingOn m).isEmpty) = true)
    (hc : decide (s.ctx? m.ctx = some (s.ctx m.ctx) ∧ (s.ctx m.ctx).destroyed = false ∧ (s.ctx m.ctx).cold = false ∧ s.startDue m = false) = true) :
    Serves s m t (s.ctx m.ctx) :=
  ⟨asked s m t h, (of_decide_eq_true hc).1, ⟨(of_decide_eq_true hc).2.1, (of_decide_eq_true hc).2.2.1⟩, (of_decide_eq_true hc).2.2.2⟩

/-- A halt point of the team at slot 0 of line 0, on all its context's teams, named by block, or by the launch of an identifier. -/
def point (byName : Bool) (lid : Nat) : HaltAt := ⟨1, true, byName, lid, "a", 0, 0, 0, 0, 0⟩

/-- The state with an armed point at the head of its issue list. -/
def armed : State :=
  { base with issue := [b0] }.modCtx 1 (fun c => { c with point := some ⟨point true 1, some 1⟩ })

/-- The state with a named block. -/
def named (bs : List Byte) : State :=
  withPart ((withRegion region5).modCtx 1 (fun c => { c with blocks := [⟨0, "a", bs⟩] }))

theorem wit_haltPoints :
    (∃ x, Serves (named []) (msgOf 10 1 0) 10 x ∧ (point true 1).ctx = (msgOf 10 1 0).ctx ∧ (point true 1).byName = true ∧
      x.blocks.any (fun y => y.name == (point true 1).lname) = true) ∧
    (∃ x L, Serves base (msgOf 10 1 0) 10 x ∧ (point false 1).byName = false ∧ base.launch? (launchKey 1 1) = some L ∧ L.done = false) ∧
    (∃ x, Serves base (msgOf 10 1 0) 10 x ∧ (point false 7).byName = false ∧ base.launch? (launchKey 1 7) = none) ∧
    (∃ b rest p, armed.issue = b :: rest ∧ (armed.ctx 1).point = some p ∧ armed.pointAt b (armed.standing b) = true ∧
      (armed.team b.team).ctx = 1) :=
  ⟨⟨_, serves _ _ _ (by decide +kernel) (by decide +kernel), by decide +kernel⟩,
   ⟨_, base.launch (launchKey 1 1), serves _ _ _ (by decide +kernel) (by decide +kernel), by decide +kernel⟩,
   ⟨_, serves _ _ _ (by decide +kernel) (by decide +kernel), by decide +kernel⟩,
   b0, [], ⟨point true 1, some 1⟩, by decide +kernel⟩

/-- A context that CTX.CREATE makes for tenant 8 with a key, and the frame of its root. -/
def create (k : Nat) : CtxCreateReq :=
  { tenant := 8, part := 0, keys := [k], missingMode := 0, peers := [], root := 9, cwbase := 0 }

/-- The state with a partition, and the same with every frame given out. -/
def roomy : State := withPart base
def framesGone (n : Nat) : State :=
  { roomy with frames := List.replicate n (0, { gen := 0, moving := none, frozen := false, owner := some 1 }) }

theorem framesGone_left (n : Nat) : (framesGone n).framesLeft = 4 * 192 * 2 ^ 14 - n := by
  simp [State.framesLeft, framesGone]

/-- MAP of one page at virtual 64 KiB with key 0. -/
def map1 : MapReq :=
  { va := 65536, len := 65536, r := true, w := true, x := false, at_ := false, key := 0, resident := true, frames := [20],
    tables := [21, 22, 23] }

/-- An object with 64 bytes of text and nothing else, and a place for it. -/
def obj1 : Obj :=
  { text := List.replicate 64 0, rodata := [], data := [], textAlign := 64, rodataAlign := 1, dataAlign := 1, handles := [], launches := [],
    syms := [], relocs := [], entry := none, others := [] }
def plc1 : LoadPlace := { textOff := 0, rodataVa := 0, dataVa := 0, frames := [(0, 30)], tables := [31, 32, 33] }
def site1 : Site := { cw := 0, text := plc1.textOff, rodata := plc1.rodataVa, data := plc1.dataVa }
def pages1 (o : Obj) : List PageSpec := objPages o site1 0 plc1.frames

/-- An object with a relocation to a symbol that it does not have. -/
def badObj : Obj := { obj1 with relocs := [⟨.text, 0, .code32, 0, 0⟩] }

/-- What the link of an object leaves, and its report. -/
def loaded (o : Obj) : Loaded := (linkObj (base.ctx 1) o site1).toOption.getD default
def report (o : Obj) : List Byte := (errOf (linkObj (base.ctx 1) o site1)).getD []

/-- A context 3 that is cold. -/
def coldState : State := { base with ctxs := base.ctxs ++ [(3, { base.ctx 1 with cold := true, asids := [], queues := [] })] }

/-- A START of the flow waits for its acceptance. -/
def startWaits : State := base.modCtx 1 (fun c => { c with submits := [{ submit1 blk1 with msg := some (msgOf 7 1 0) }] })

/-- A request for the page is behind one to a frozen frame. -/
def unmapWaits : State :=
  { homeState 0x7F 0 false req0 with
    reqs := [(0, { req0 with pa := 0x20000000 }), (1, { req0 with seq := 1 })]
    frames := [(0x2000, { gen := 0, moving := some (0x2001, 1), frozen := true, owner := some 1 })] }

/-- The state with no team. -/
def teamless : State := { base with teams := [], fibres := [], packs := [] }

theorem wit_contextsComeAndGo :
    (∀ k ∈ [0, 5], Asked roomy (msgOf 2 0 0) 2 ∧ mapHas roomy.parts (create k).part = true ∧ (create k).missingMode ≤ 1 ∧
      (create k).keys ≠ [] ∧ (∀ j ∈ (create k).keys, j < 512) ∧ ((∃ j ∈ (create k).keys, roomy.keyTaken 8 j = true) ↔ k = 0)) ∧
    (∃ n, Asked (framesGone n) (msgOf 2 0 0) 2 ∧ (∀ j ∈ (create 5).keys, (framesGone n).keyTaken 8 j = false) ∧
      (framesGone n).framesLeft < 1) ∧
    (1 ≤ roomy.framesLeft ∧ roomy.frameFree (create 5).root = true ∧ (create 5).cwbase % 2 ^ 32 = 0 ∧ (create 5).cwbase < 2 ^ 52) ∧
    (∀ t ∈ [3, 4, 5, 6], Asked base (msgOf t 2 0) t ∧ base.ctx? (msgOf t 2 0).ctx = none) ∧
    (∀ t ∈ [3, 5], Asked coldState (msgOf t 3 0) t ∧ ∃ x, coldState.ctx? (msgOf t 3 0).ctx = some x ∧ x.destroyed = false ∧ x.cold = true) ∧
    (∀ t ∈ [3, 5], Asked startWaits (msgOf t 1 0) t ∧ ∃ x, startWaits.ctx? (msgOf t 1 0).ctx = some x ∧ x.destroyed = false ∧
      startWaits.startDue (msgOf t 1 0) = true) ∧
    (∃ x u, Serves base (msgOf 3 1 0) 3 x ∧ base.destroyCtx 1 = some u) ∧
    (∃ x, Serves mirrors (msgOf 3 1 0) 3 x ∧ mirrors.destroyCtx 1 = none) ∧
    (∃ x, Serves teamless (msgOf 3 1 0) 3 x ∧ teamless.teamsOf 1 = []) := by
  refine ⟨?_, ⟨4 * 192 * 2 ^ 14, asked _ _ _ (by decide +kernel), by decide +kernel, ?_⟩, by decide +kernel, ?_, ?_, ?_,
    ⟨_, (base.destroyCtx 1).getD default, serves _ _ _ (by decide +kernel) (by decide +kernel), by decide +kernel⟩,
    ⟨_, serves _ _ _ (by decide +kernel) (by decide +kernel), by decide +kernel⟩,
    ⟨_, serves _ _ _ (by decide +kernel) (by decide +kernel), by decide +kernel⟩⟩
  · intro k h
    simp only [List.mem_cons, List.not_mem_nil, or_false] at h
    rcases h with rfl | rfl <;> exact ⟨asked _ _ _ (by decide +kernel), by decide +kernel⟩
  · rw [framesGone_left, Nat.sub_self]; exact Nat.zero_lt_one
  · intro t h
    simp only [List.mem_cons, List.not_mem_nil, or_false] at h
    rcases h with rfl | rfl | rfl | rfl <;> exact ⟨asked _ _ _ (by decide +kernel), by decide +kernel⟩
  · intro t h
    simp only [List.mem_cons, List.not_mem_nil, or_false] at h
    rcases h with rfl | rfl <;> exact ⟨asked _ _ _ (by decide +kernel), coldState.ctx 3, by decide +kernel⟩
  · intro t h
    simp only [List.mem_cons, List.not_mem_nil, or_false] at h
    rcases h with rfl | rfl <;> exact ⟨asked _ _ _ (by decide +kernel), startWaits.ctx 1, by decide +kernel⟩

theorem wit_pagesAreMapped :
    (Serves base (msgOf 4 1 0) 4 (base.ctx 1) ∧ pageRange map1.va map1.len = true ∧
      (∀ a ∈ rangePages map1.va map1.len, base.walk 1 a = none) ∧ (∃ k ∈ (base.ctx 1).keys, k.1 = map1.key) ∧
      map1.frames.length = (rangePages map1.va map1.len).length ∧
      (if map1.resident then (rangePages map1.va map1.len).length else 0) + base.tablesFor 1 (rangePages map1.va map1.len) ≤
        base.framesLeft ∧
      ∃ t, base.mapPages 1 ((rangePages map1.va map1.len).zipIdx.map (fun e => mapSpec (msgOf 4 1 0) map1 e.1 e.2)) map1.tables = some t) ∧
    (Serves base (msgOf 5 1 0) 5 (base.ctx 1) ∧ pageRange 65536 65536 = true ∧ ∀ a ∈ rangePages 65536 65536, base.walk 1 a = none) ∧
    (∃ l, Serves (paged 0x7F) (msgOf 5 1 0) 5 ((paged 0x7F).ctx 1) ∧ (paged 0x7F).walk 1 0 = some l ∧ (paged 0x7F).movingAt l = none ∧
      ((paged 0x7F).unmapPage 1 0).isSome = true) ∧
    (∃ l, Serves unmapWaits (msgOf 5 1 0) 5 (unmapWaits.ctx 1) ∧ unmapWaits.walk 1 0 = some l ∧ unmapWaits.movingAt l = none ∧
      unmapWaits.unmapPage 1 0 = none) ∧
    (Serves base (msgOf 6 1 0) 6 (base.ctx 1) ∧ (base.ctx 1).cwbase = 0 ∧ ((base.ctx 1).keys.map (·.1)).headD 0 = 0 ∧
      (∀ o ∈ [obj1, badObj], placeOk (base.ctx 1) o site1 (pages1 o) = true) ∧ linkObj (base.ctx 1) badObj site1 = .error (report badObj) ∧
      linkObj (base.ctx 1) obj1 site1 = .ok (loaded obj1) ∧
      (pages1 (loaded obj1).obj).length + base.tablesFor 1 ((pages1 (loaded obj1).obj).map (·.va)) ≤ base.framesLeft ∧
      (∀ g ∈ pages1 (loaded obj1).obj, g.frame.isSome = true) ∧
      ∃ t, base.mapPages 1 (pages1 (loaded obj1).obj) plc1.tables = some t) :=
  ⟨⟨serves _ _ _ (by decide +kernel) (by decide +kernel), by decide +kernel, by decide +kernel, by decide +kernel, by decide +kernel,
    by decide +kernel, Option.isSome_iff_exists.mp (by decide +kernel)⟩,
   ⟨serves _ _ _ (by decide +kernel) (by decide +kernel), by decide +kernel⟩,
   ⟨leaf0 (paged 0x7F), serves _ _ _ (by decide +kernel) (by decide +kernel), by decide +kernel⟩,
   ⟨leaf0 unmapWaits, serves _ _ _ (by decide +kernel) (by decide +kernel), by decide +kernel⟩,
   serves _ _ _ (by decide +kernel) (by decide +kernel), by decide +kernel, by decide +kernel, by decide +kernel, erE (by decide +kernel),
   okE (by decide +kernel), by decide +kernel, by decide +kernel, Option.isSome_iff_exists.mp (by decide +kernel)⟩

/-- The state whose launch is done. -/
def doneState : State := base.modLaunch (launchKey 1 1) (fun L => { L with done := true })

/-- The state with a named block, and a full queue. -/
def queueFull : State := (named (launchBytes 1 0)).modCtx 1 (fun c => { c with submits := List.replicate 63 (submit1 blk1) })

theorem wit_launchRequests :
    (∃ x, Serves (named (launchBytes 1 0)) (msgOf 7 1 3) 7 x ∧ startBlock x (some "b") = none ∧
      ∃ nb, startBlock x (some "a") = some nb ∧ blockOk ((named (launchBytes 1 0)).codeEntry 1) nb.bytes = true ∧
        (named (launchBytes 1 0)).queueLoad 1 (blockOfBytes nb.bytes).queue < 64) ∧
    (∃ x nb, Serves queueFull (msgOf 7 1 0) 7 x ∧ startBlock x (some "a") = some nb ∧ blockOk (queueFull.codeEntry 1) nb.bytes = true ∧
      64 ≤ queueFull.queueLoad 1 (blockOfBytes nb.bytes).queue) ∧
    (∀ t ∈ [8, 9], ∃ x, Serves base (msgOf t 1 0) t x ∧ base.launch? (launchKey 1 9) = none ∧
      ∃ L, base.launch? (launchKey 1 1) = some L ∧ L.done = false) ∧
    (∀ t ∈ [8, 9], ∃ x L, Serves doneState (msgOf t 1 0) t x ∧ doneState.launch? (launchKey 1 1) = some L ∧ L.done = true) ∧
    (∃ y, base.mod.boot = .running ∧ base.ctx? 1 = some (base.ctx 1) ∧ (base.ctx 1).destroyed = false ∧ (base.ctx 1).cold = false ∧
      writeEntry (base.ctx 1) 4094 (entryBytes 0 64 0x31 0) = some y ∧ (entryBytes 0 64 0x31 0).length = 32) := by
  refine ⟨⟨_, serves _ _ _ (by decide +kernel) (by decide +kernel), by decide +kernel, ⟨0, "a", launchBytes 1 0⟩, by decide +kernel⟩,
    ⟨_, ⟨0, "a", launchBytes 1 0⟩, serves _ _ _ (by decide +kernel) (by decide +kernel), by decide +kernel⟩, ?_, ?_,
    (writeEntry (base.ctx 1) 4094 (entryBytes 0 64 0x31 0)).getD default, by decide +kernel⟩
  · intro t h
    simp only [List.mem_cons, List.not_mem_nil, or_false] at h
    rcases h with rfl | rfl <;> exact ⟨_, serves _ _ _ (by decide +kernel) (by decide +kernel), by decide +kernel,
      base.launch (launchKey 1 1), by decide +kernel⟩
  · intro t h
    simp only [List.mem_cons, List.not_mem_nil, or_false] at h
    rcases h with rfl | rfl <;> exact ⟨_, doneState.launch (launchKey 1 1), serves _ _ _ (by decide +kernel) (by decide +kernel),
      by decide +kernel⟩

/-- A cold context that has work, one that has none, and a cold one for which a request waits. -/
def coldWork : State := coldState.modCtx 3 (fun c => { c with submits := [submit1 blk1] })
def coldAsked : State := coldState.modMod (fun m => { m with inbox := [.ctxDestroy (msgOf 3 3 0)] })

/-- An image as it was written, and one with another HMAC. -/
def goodImage : Image := imageFor 0 7
def badImage : Image := { goodImage with mac := goodImage.mac + 1 }

/-- A state whose context 3 has that image, and the state as it is restored. -/
def imaged (g : Image) (s : State) : State := s.modCtx 3 (fun y => { y with tenant := 7, image := some g })
def warmed (s : State) : State := s.modCtx 3 (fun y => { y with cold := false, image := none })

/-- The cold context of such a state. -/
def ColdHere (g : Image) (s : State) : Prop :=
  (imaged g s).ctx? 3 = some ((imaged g s).ctx 3) ∧ ((imaged g s).ctx 3).cold = true ∧ ((imaged g s).ctx 3).destroyed = false ∧
    ((imaged g s).ctx 3).image = some g ∧ ((imaged g s).ctx 3).tenant = 7

theorem wit_coldContexts :
    base.mayCool 1 = false ∧ teamless.mayCool 1 = true ∧
    ((goodImage.read []).ok 7 = true ∧ (badImage.read []).ok 7 = false) ∧
    (∀ g ∈ [goodImage, badImage], ∀ s ∈ [coldState, coldWork, coldAsked], ColdHere g s) ∧
    ((imaged badImage coldState).mod.inbox = [] ∧ ((imaged badImage coldState).destroyCtx 3).isSome = true) ∧
    ((imaged badImage coldAsked).mod.inbox = .ctxDestroy (msgOf 3 3 0) :: [] ∧
      requestMsg (.ctxDestroy (msgOf 3 3 0)) = some (msgOf 3 3 0) ∧ (msgOf 3 3 0).ctx = 3 ∧
      ((replied ((imaged badImage coldAsked).modMod (fun y => { y with inbox := [] })) (msgOf 3 3 0) 5 []).destroyCtx 3).isSome = true) ∧
    (warmed (imaged goodImage coldState)).hasWork 3 = false ∧
    ((warmed (imaged goodImage coldWork)).hasWork 3 = true ∧
      (∀ as ∈ [[9, 9, 9, 9], []], ((warmed (imaged goodImage coldWork)).giveThese 3 as).isSome = true) ∧
      ((imaged goodImage coldWork).ctx 3).asids = []) ∧
    (Asked base (msgOf 1 0 0) 1 ∧ (msgOf 1 0 0).ctx = 0) ∧ (Serves base (msgOf 1 1 0) 1 (base.ctx 1) ∧ (msgOf 1 1 0).ctx ≠ 0) :=
  ⟨by decide +kernel, by decide +kernel, by simp [goodImage, badImage, imageFor, Image.read, Image.ok],
   by
    intro g hg s hs
    simp only [List.mem_cons, List.not_mem_nil, or_false] at hs
    rcases hs with rfl | rfl | rfl <;> exact ⟨rfl, rfl, rfl, rfl, rfl⟩,
   by decide +kernel, by decide +kernel, by decide +kernel, by decide +kernel,
   ⟨asked _ _ _ (by decide +kernel), by decide +kernel⟩, serves _ _ _ (by decide +kernel) (by decide +kernel), by decide +kernel⟩

/-- Two partitions that hold no team. -/
def part0 (qs : List (Nat × Nat)) (tun : Map (Nat × Nat)) : Partition :=
  { quads := qs, tun := tun, fifo := true, served := [], turn := none, since := 0, slice := 1000 }
def parted : State :=
  { teamless with parts := [(0, part0 [(0, 0), (0, 1)] [(0, (0, 16))]), (1, part0 [(0, 2)] [(0, (16, 16))])] }

/-- What the boot ROM finds, with an image of 8 bytes or none. -/
def bootWith (img : Option (List Byte)) : BootInput :=
  { nvme := none, uet := img, linksUp := true, planOk := true, plan := 0, remap := [] }

/-- A line of an I-cache. -/
def line0 : ILine := { ctx := 1, asid := 1, key := 0, off := 0, gen := 1, pa := 0x10000000, data := List.replicate 64 0 }

theorem wit_moduleEvents :
    (State.reset.mod.boot = .off ∧ bootFailure State.reset.mod.fused (State.reset.bootImage (bootWith none)) (bootWith none) ≠ none) ∧
    (base.mod.boot ≠ .off ∧ base.mod.boot = .running) ∧ (∃ x, base.ctx? 1 = some x ∧ x.destroyed = false) ∧
    (∃ site, (∀ c, site ≠ EccSite.data c) ∧ ∀ c i n, site ≠ EccSite.code c i n) ∧
    (∃ ln, ((base.modCore 0 (fun c => { c with icache := [line0] })).core 0).icache[0]? = some ln) ∧
    (∃ x v, base.ctx? 1 = some x ∧ x.destroyed = false ∧ base.destroyCtx 1 = some v) ∧
    (∃ p q, mapGet parted.parts 0 = some p ∧ mapGet parted.parts 1 = some q ∧ parted.drained 0 = true ∧ parted.drained 1 = true ∧
      (∀ k ∈ [(0, 1)], k ∈ p.quads) ∧ [(0, 1)].Nodup) :=
  ⟨by decide +kernel, by decide +kernel, ⟨base.ctx 1, by decide +kernel⟩, ⟨.aByte 0 0, by simp⟩, ⟨line0, rfl⟩,
   ⟨base.ctx 1, (base.destroyCtx 1).getD default, by decide +kernel⟩,
   part0 [(0, 0), (0, 1)] [(0, (0, 16))], part0 [(0, 2)] [(0, (16, 16))], by decide +kernel⟩

theorem wit_marginReplanRetires :
    let v := parted.modMod (fun m => { m with failing := [(0, 1)] })
    v.mod.boot = .running ∧ v.mod.failing = [(0, 1)] ∧ v.partWith (0, 1) = some (0, part0 [(0, 0), (0, 1)] [(0, (0, 16))]) ∧ v.stopped 0 = true ∧
      ((State.quadCores (0, 1)).foldl State.writeBackAll v).quadWaits (0, 1) = false :=
  ⟨by decide +kernel, by decide +kernel, by decide +kernel, by decide +kernel, by decide +kernel⟩

/-! ### Where capsule instructions, command segments, requests and module events complete -/

theorem wit_capsuleInstructionsComplete :
    (∀ st ∈ [0, 2], let s := block (lockWord st 3 9 77)
      BlockAt cap0 s (capenterNeed cap0) b0 0 (s.fibre 1024) (acc (.glob 0) 0 0) ⟨0x10000000, 0, 0⟩ (capU s) ∧
      mailboxErr (capU s) 1024 (wordsNat (s.readVals (capenterNeed cap0) b0 0).b) = (none, capV s) ∧
      (capV s).capHeld 1024 0 ⟨0x10000000, 0, 0⟩ = false ∧ ∃ blk w, (capV s).capRead 1024 ⟨0x10000000, 0, 0⟩ = (blk, w) ∧
        fieldAt blk 12 4 = 0 ∧ isSlot (BitVec.ofNat 32 (fieldAt blk 8 4)) = true ∧ lockState (fieldAt blk 0 8) = st) ∧
    (∀ n ∈ [0, 31], ∃ h u blk, h.step = n ∧ InTenure (inTenure n) (cstepNeed (cstepAt 0x3FC)) b0 0 ((inTenure n).fibre 1024) h 0x3FC
      ⟨0x10000000, 0, 0⟩ u blk ∧ (0x80 : Int) ≤ eaOff (cstepAt 0x3FC).off ((inTenure n).readVals (cstepNeed (cstepAt 0x3FC)) b0 0).a ∧
        eaOff (cstepAt 0x3FC).off ((inTenure n).readVals (cstepNeed (cstepAt 0x3FC)) b0 0).a + 4 ≤ 0x400 ∧
        eaOff (cstepAt 0x3FC).off ((inTenure n).readVals (cstepNeed (cstepAt 0x3FC)) b0 0).a % 4 = 0) ∧
    (∃ h u blk v, InTenure (inTenure 0) (capexitNeed (sy .none (.g 4) .none .none 0 0 0)) b0 0 ((inTenure 0).fibre 1024) h 0
      ⟨0x10000000, 0, 0⟩ u blk ∧ u.leaveWaits 1024 h = [] ∧ u.release 1024 (blockScope blk) = (.done, v) ∧ h.adopter = false) ∧
    (∃ u v blk, let s := block (lockWord 3 3 9 77)
      BlockAt cap0 s (capresetNeed cap0) b0 0 (s.fibre 1024) (acc (.glob 0) 0 0) ⟨0x10000000, 0, 0⟩ u ∧
      u.capHeld 1024 0 ⟨0x10000000, 0, 0⟩ = false ∧ u.capRead 1024 ⟨0x10000000, 0, 0⟩ = (blk, v) ∧ lockState (fieldAt blk 0 8) = 3) :=
  ⟨fun st h => wit_capsuleEntry st (by
      simp only [List.mem_cons, List.not_mem_nil, or_false] at h ⊢
      exact h.elim .inl (fun h => .inr (.inl h))),
   fun n h => wit_capsuleSteps.2.1 n (by
      simp only [List.mem_cons, List.not_mem_nil, or_false] at h ⊢
      exact h.elim .inl (fun h => .inr (.inl h))),
   wit_capsuleSteps.2.2.2.1, wit_capsuleSteps.2.2.2.2.2 3 (by decide)⟩

/-- A package that is not this one, and an XPUT to it. -/
def otherPkg : Nat := (Config.pkgNumber % 16384 + 1) % 16384
def puttingThere : Cmd := { putting with kind := .xput 0 otherPkg 0 8 }

/-- The small state with that command, and its package as a peer. -/
def putState : State := { base with cmds := [(0, puttingThere)] }.modCtx 1 (fun c => { c with peers := [(otherPkg, 0)] })

theorem wit_commandSegmentsComplete :
    (∃ c seg now m z e u, LastRun (copyState copying) 0 c seg ∧ ((copyState copying).team c.team).halted = false ∧ isCopy c.kind = true ∧
      c.rel = false ∧ c.follow = none ∧ (copyState copying).cutSeg c seg = (now, []) ∧
      (copyState copying).doSegment (inHand c []) now = (.wrote m z, e, u)) ∧
    (let s : State := { paged 0x7B with cmds := [(0, copyFix)] }
     ∃ d ds k, s.fixSides copyFix = d :: ds ∧ s.sideLoc copyFix.fib d.1 d.2 = .glob 28 ∧ s.walk (s.ctxOf copyFix.fib) 28 = some k ∧
      k.perms.getLsbD 2 = false ∧ k.size = 16 ∧ s.frameFree 9 = true) ∧
    (∃ bs u src off, LastRun putState 0 puttingThere [(0, 8)] ∧ isNet puttingThere.kind = true ∧ isGet puttingThere.kind = false ∧
      puttingThere.rel = false ∧ 8 ≤ putState.segLen puttingThere (putState.cmdRun puttingThere 0) 8 ∧
      cmdPkg puttingThere.kind ≠ Config.pkgNumber % 16384 ∧
      (putState.ctx (putState.ctxOf puttingThere.fib)).peers.any (fun e => e.1 == cmdPkg puttingThere.kind) = true ∧
      (putState.cmdRun puttingThere 0).src = some (src, off) ∧
      putState.engReads (inHand puttingThere []) src 2 off 8 [] = (.ok bs, u)) :=
  ⟨⟨copying, [(28, 4)], [(28, 4)], 4, false, _, _, ⟨rfl, rfl, rfl, rfl, by decide +kernel⟩, by decide +kernel, rfl, rfl, rfl, by decide +kernel,
    trip (by decide +kernel)⟩,
   ⟨({ paged 0x7B with cmds := [(0, copyFix)] }.fixSides copyFix).headD (default, 0),
    ({ paged 0x7B with cmds := [(0, copyFix)] }.fixSides copyFix).tail, ({ paged 0x7B with cmds := [(0, copyFix)] }.walk 1 28).getD default, by decide +kernel⟩,
   List.replicate 8 0, _, putting.x, 0, ⟨rfl, rfl, rfl, rfl, by decide +kernel⟩, rfl, rfl, rfl, by decide +kernel,
    (by show otherPkg ≠ _; unfold otherPkg; omega),
    (by show ([(otherPkg, 0)] : List (Nat × Nat)).any (fun e => e.1 == otherPkg) = true; simp), rfl,
    fstE (by decide +kernel)⟩

/-- CTX.DESTROY, MAP and LOAD are met by `wit_contextsComeAndGo` and `wit_pagesAreMapped`. -/
theorem wit_requestsAndModuleEventsComplete :
    (Asked roomy (msgOf 2 0 0) 2 ∧ mapHas roomy.parts (create 5).part = true ∧ (create 5).missingMode ≤ 1 ∧ (create 5).keys ≠ [] ∧
      (∀ k ∈ (create 5).keys, k < 512 ∧ roomy.keyTaken (create 5).tenant k = false) ∧ 1 ≤ roomy.framesLeft ∧
      roomy.frameFree (create 5).root = true ∧ (create 5).cwbase % 2 ^ 32 = 0 ∧ (create 5).cwbase < 2 ^ 52) ∧
    (∃ l, Serves (paged 0x7F) (msgOf 5 1 0) 5 ((paged 0x7F).ctx 1) ∧ (paged 0x7F).walk 1 0 = some l ∧ (paged 0x7F).movingAt l = none ∧
      ((paged 0x7F).unmapPage 1 0).isSome = true) ∧
    (State.reset.mod.boot = .off ∧ State.reset.bootImage (bootWith (some (leBytes 8 1))) = some (leBytes 8 1) ∧
      remapOk State.reset.mod.fused (List.replicate 4 (List.range 32)) = true) ∧
    base.mod.boot = .running ∧
    (∃ p, mapGet parted.parts 0 = some p ∧ parted.drained 0 = true ∧ parted.drained 1 = true ∧ ∀ k ∈ [(0, 1)], k ∈ p.quads) :=
  ⟨⟨asked _ _ _ (by decide +kernel), by decide +kernel⟩,
   ⟨leaf0 (paged 0x7F), serves _ _ _ (by decide +kernel) (by decide +kernel), by decide +kernel⟩,
   by decide +kernel, by decide +kernel, part0 [(0, 0), (0, 1)] [(0, (0, 16))], by decide +kernel⟩

/-! ### The machine as a whole -/

theorem wit_encodingAndDecoding : ∃ i w, Instr.wf i = true ∧ encode? i = some w ∧ decode w = .ok i :=
  ⟨.iadd (al (.g 4) (.g 4) (.g 4) .none .s32), 0x0100202027F0000000000000, by decide +kernel, by decide +kernel, okE (by decide +kernel)⟩

/-- The state with one instruction placed. -/
def placed (w : Nat) : State := State.reset.withFetchWord 96 w

/-- A module whose boot failed, with a request at the head of its agenda, and without. -/
def bootFailed (a : List Instr) : State := { State.reset with mod := { Module.reset with boot := .failed 1 }, agenda := a }

theorem wit_stepRuns :
    ((bootFailed [.halt []]).mod.boot = .failed 1 ∧ (bootFailed [.halt []]).move.isRequest = false) ∧
    (let s := bootFailed [.ctxDestroy (msgOf 3 1 0)]
     s.mod.boot = .failed 1 ∧ s.issue = [] ∧ s.agenda = .ctxDestroy (msgOf 3 1 0) :: [] ∧
      requestMsg (.ctxDestroy (msgOf 3 1 0)) = some (msgOf 3 1 0) ∧ (msgOf 3 1 0).again = false) ∧
    (let s := placed 0x0100202027F0000000000000
     let o : State := { s with tick := s.tick + 1, cur := none }
     s.mod.boot = .running ∧ s.issue = [b0] ∧ IssuesNow o b0 ∧
      slotWord (o.batchLine b0 (o.standing b0)).data (slotOf b0.pc) = 0x0100202027F0000000000000#96) ∧
    (∃ s i, State.issue s = [] ∧ State.agenda s = [i] ∧ State.mod s = Module.reset) ∧
    (State.reset.issue = [] ∧ State.reset.agenda = [] ∧ State.reset.mod.boot = .off) :=
  ⟨⟨rfl, by decide +kernel⟩, by decide +kernel,
   ⟨by decide +kernel, by decide +kernel, ⟨by decide +kernel, by decide +kernel, by decide +kernel⟩, by decide +kernel⟩,
   ⟨{ State.reset with agenda := [.halt []] }, .halt [], rfl, rfl, rfl⟩, rfl, rfl, rfl⟩

/-- A write of g20. -/
def write20 (v : Word) (n : Nat) : RegWrite := { reg := 20, val := v, pos := n, cls := .b, arrived := false, serial := n, old := 0, load := none }

theorem wit_latencyContract : ∃ (x : Fibre) (a : List RegWrite) (w : RegWrite) (z : List RegWrite),
    x.pend.filter (fun v => v.reg == 20) = a ++ w :: z ∧ w.guaranteed 4 x.mark = true ∧ ∀ q ∈ z, q.guaranteed 4 x.mark = false :=
  ⟨{ fib0 with pend := [write20 7 0, write20 8 1] }, [], write20 7 0, [write20 8 1], by decide +kernel⟩

theorem wit_canonical : Canonical (placed 0x0100202027F0000000000000) ∧
    (match step (placed 0x0100202027F0000000000000) with
      | .next _ => true
      | _ => false) = true :=
  ⟨⟨by decide +kernel, by decide +kernel, by decide +kernel⟩, by decide +kernel⟩

/-! ### A page that moves -/

/-- A number of DRAM below the frames that a page is copied to, while no L1 holds a sector. -/
theorem copyFrames_pte (s : State) (key from_ size pte : Nat) (hc : s.cores.all (fun e => e.2.l1.isEmpty) = true)
    (hp : pte + 16 ≤ 5 * 2 ^ 16) : (s.copyFrames key from_ (5 * 2 ^ 16) size).dram.nat pte 16 = s.dram.nat pte 16 := by
  have hr : ∀ pa, s.recallSector pa key = s := by
    intro pa
    have : s.heldComm (sectorKey pa key) = [] := by
      simp only [State.heldComm, List.flatMap_eq_nil_iff]
      intro e he
      rw [List.isEmpty_iff.mp (List.all_eq_true.mp hc e he)]
      rfl
    simp [State.recallSector, this]
  have hf : s.recallFrames key from_ size = s := by
    unfold State.recallFrames
    generalize List.range' (from_ / 64) (2 ^ size / 64) = l
    induction l with
    | nil => rfl
    | cons k l ih => rw [List.foldl_cons, hr, ih]
  have hm : ∀ (n a : Nat) (m c : Memory), a + n ≤ 5 * 2 ^ 16 → (m.paste (5 * 2 ^ 16) (2 ^ size) c).reads a n = m.reads a n := by
    intro n
    induction n with
    | zero => intros; rfl
    | succ n ih => intro a m c h; simp only [Memory.reads]; rw [Memory.read_paste_below _ _ (by omega), ih _ _ _ (by omega)]
  simp only [State.copyFrames, hf, State.fillFrames, Memory.nat, hm _ _ _ _ hp]

theorem wit_pagesMove :
    (∀ p ∈ [0x7F, 0x7B], let s := pageMoves p none false
      PageHere s ∧ ((leaf0 s).perms.getLsbD 2 = (p == 0x7F)) ∧ (leaf0 s).size = 16 ∧ s.movingAt (leaf0 s) = none ∧
        5 % 2 ^ ((leaf0 s).size - 16) = 0 ∧ (∀ i, i < 2 ^ ((leaf0 s).size - 16) → s.frameFree (5 + i) = true)) ∧
    (∀ z ∈ [false, true], ∀ n ∈ [1, 7], let s := pageMoves 0x7F (some (5, n)) z
      PageHere s ∧ (leaf0 s).perms.getLsbD 2 = true ∧ s.movingAt (leaf0 s) = some (5, n) ∧
        s.frozen (State.leafFrame (leaf0 s) * 2 ^ 16) = z) ∧
    (∀ p ∈ [0x7F, 0xFF], let s := pageMoves p (some (5, 0)) false
      PageHere s ∧ (leaf0 s).perms.getLsbD 2 = true ∧ s.movingAt (leaf0 s) = some (5, 0) ∧ s.frozen (State.leafFrame (leaf0 s) * 2 ^ 16) = false ∧
        ((s.copyFrames (leaf0 s).key (State.leafFrame (leaf0 s) * 2 ^ 16) (5 * 2 ^ 16) (leaf0 s).size).dram.nat (leaf0 s).pte 16).testBit 7 =
          (p == 0xFF)) ∧ 0 ≤ Config.migrationRounds := by
  simp only [PageHere]
  refine ⟨by decide +kernel, by decide +kernel, fun p h => ⟨?_, ?_⟩, Nat.zero_le _⟩
  · simp only [List.mem_cons, List.not_mem_nil, or_false] at h
    rcases h with rfl | rfl <;> decide +kernel
  · simp only [List.mem_cons, List.not_mem_nil, or_false] at h
    rcases h with rfl | rfl <;> (rw [copyFrames_pte _ _ _ _ _ (by decide +kernel) (by decide +kernel)]; decide +kernel)

end Sys2Proof.Tests
end

/-!
# O60: every step keeps the canonical forms

`Canonical` speaks of three fields of the state: DRAM, the table of fibres and the table of teams. The development has one lemma
for each operation of the model, `Canonical.<operation>`, in the order of the model's files, which says that the operation keeps
the canonical forms. An operation that gives a result with the state is spoken of through the pair's second part, one that may give
no state through `Option.elim`, and the outcome of an instruction through `Kept`. The proof of a lemma follows the body of its
operation, so the facts about an operation composed of others chain: from `h : Canonical s`, `h.modPack.recheckMasks.putD` is the
fact about the state after these three operations. Only the operations that write one of the three fields themselves (registers and
fibres, teams, DRAM) have an argument of their own; a helper that is given a continuation asks that the continuation keeps the
forms.
-/

namespace Sys2Proof.Claims
open Machine

/-- The states that an instruction's outcome may lead to are canonical. -/
def Kept : Out → Prop
  | .next t => Canonical t
  | _ => True

/-! ### Maps whose keys rise -/

theorem sortedKeys_iff_pairwise {α : Type} {m : Map α} : sortedKeys m = true ↔ m.Pairwise (fun a b => a.1 < b.1) := by
  rw [← List.isChain_iff_pairwise]
  induction m with
  | nil => simp [sortedKeys]
  | cons a m ih =>
    cases m with
    | nil => simp [sortedKeys]
    | cons b m => simp [sortedKeys, ih]

theorem sortedKeys_filter {α : Type} {m : Map α} (h : sortedKeys m = true) (p : Nat × α → Bool) :
    sortedKeys (m.filter p) = true :=
  sortedKeys_iff_pairwise.2 ((sortedKeys_iff_pairwise.1 h).filter p)

theorem sortedKeys_mapAll {α : Type} {m : Map α} (h : sortedKeys m = true) (f : Nat → α → α) :
    sortedKeys (mapAll m f) = true :=
  sortedKeys_iff_pairwise.2 (List.pairwise_map.2 (sortedKeys_iff_pairwise.1 h))

theorem sortedKeys_mapMod {α : Type} (m : Map α) (k : Nat) (f : α → α) (h : sortedKeys m = true) :
    sortedKeys (mapMod m k f) = true := by
  unfold mapMod
  split
  · exact h
  · exact sortedKeys_mapSet _ _ _ h

/-! ### Results that carry a state -/

theorem of_pair {α : Type} {p : α × State} {a : α} {t : State} (h : Canonical p.2) (e : p = (a, t)) : Canonical t := by
  subst e; exact h

theorem of_pair2 {α β : Type} {p : α × β × State} {a : α} {b : β} {t : State} (h : Canonical p.2.2) (e : p = (a, b, t)) :
    Canonical t := by
  subst e; exact h

theorem of_some {α : Type} {o : Option α} {P : α → Prop} {a : α} (h : o.elim True P) (e : o = some a) : P a := by
  subst e; exact h

theorem elim_map {α β : Type} {o : Option α} {P : α → Prop} {Q : β → Prop} {f : α → β} (h : o.elim True P)
    (hf : ∀ a, P a → Q (f a)) : (o.map f).elim True Q := by
  cases o
  · exact trivial
  · exact hf _ h

theorem elim_bind {α β : Type} {o : Option α} {P : α → Prop} {Q : β → Prop} {f : α → Option β} (h : o.elim True P)
    (hf : ∀ a, P a → (f a).elim True Q) : (o.bind f).elim True Q := by
  cases o
  · exact trivial
  · exact hf _ h

theorem elim_ite {α : Type} {x y : Option α} {P : α → Prop} {p : Prop} {d : Decidable p} (hx : x.elim True P)
    (hy : y.elim True P) : (if p then x else y).elim True P := by
  split
  · exact hx
  · exact hy

theorem getD_of {o : Option State} {d : State} (h : o.elim True Canonical) (hd : Canonical d) : Canonical (o.getD d) := by
  cases o
  · exact hd
  · exact h

/-! ### Updates of single fields -/

/-- A state that agrees with a canonical one on the three fields is canonical; for an update of other fields by computation. -/
theorem Canonical.frame {s t : State} (h : Canonical s)
    (e : (t.dram, t.fibres, t.teams) = (s.dram, s.fibres, s.teams) := by rfl) : Canonical t := by
  simp only [Prod.mk.injEq] at e
  obtain ⟨hd, hf, ht⟩ := e
  exact ⟨by rw [hd]; exact h.dram, by rw [hf]; exact h.fibres, by rw [ht]; exact h.teams⟩

theorem Canonical.setCtxs {s : State} (h : Canonical s) {x} : Canonical { s with ctxs := x } := h.frame

theorem Canonical.setLaunches {s : State} (h : Canonical s) {x} : Canonical { s with launches := x } := h.frame

theorem Canonical.setPacks {s : State} (h : Canonical s) {x} : Canonical { s with packs := x } := h.frame

theorem Canonical.setEnded {s : State} (h : Canonical s) {x} : Canonical { s with ended := x } := h.frame

theorem Canonical.setCores {s : State} (h : Canonical s) {x} : Canonical { s with cores := x } := h.frame

theorem Canonical.setDies {s : State} (h : Canonical s) {x} : Canonical { s with dies := x } := h.frame

theorem Canonical.setParts {s : State} (h : Canonical s) {x} : Canonical { s with parts := x } := h.frame

theorem Canonical.setCmds {s : State} (h : Canonical s) {x} : Canonical { s with cmds := x } := h.frame

theorem Canonical.setReqs {s : State} (h : Canonical s) {x} : Canonical { s with reqs := x } := h.frame

theorem Canonical.setTlb {s : State} (h : Canonical s) {x} : Canonical { s with tlb := x } := h.frame

theorem Canonical.setSkeys {s : State} (h : Canonical s) {x} : Canonical { s with skeys := x } := h.frame

theorem Canonical.setFrames {s : State} (h : Canonical s) {x} : Canonical { s with frames := x } := h.frame

theorem Canonical.setMod {s : State} (h : Canonical s) {x} : Canonical { s with mod := x } := h.frame

theorem Canonical.setNs {s : State} (h : Canonical s) {x} : Canonical { s with ns := x } := h.frame

theorem Canonical.setAgenda {s : State} (h : Canonical s) {x} : Canonical { s with agenda := x } := h.frame

theorem Canonical.setIssue {s : State} (h : Canonical s) {x} : Canonical { s with issue := x } := h.frame

theorem Canonical.mapFibres {s : State} (h : Canonical s) {f} : Canonical { s with fibres := mapAll s.fibres f } :=
  ⟨h.dram, sortedKeys_mapAll h.fibres f, h.teams⟩

theorem Canonical.mapTeams {s : State} (h : Canonical s) {f} : Canonical { s with teams := mapAll s.teams f } :=
  ⟨h.dram, h.fibres, sortedKeys_mapAll h.teams f⟩

theorem Canonical.delTeam {s : State} (h : Canonical s) {t} : Canonical { s with teams := mapDel s.teams t } :=
  ⟨h.dram, h.fibres, sortedKeys_filter h.teams _⟩

theorem Canonical.zeroDram {s : State} (h : Canonical s) {a n} : Canonical { s with dram := s.dram.zero a n } :=
  ⟨Memory.wf_zero h.dram a n, h.fibres, h.teams⟩

/-! ### Loops and choices -/

theorem Canonical.foldl {ι : Type} {s : State} (h : Canonical s) {F : State → ι → State} {l : List ι}
    (hF : ∀ s i, Canonical s → Canonical (F s i)) : Canonical (l.foldl F s) := by
  induction l generalizing s with
  | nil => exact h
  | cons i l ih => exact ih (hF _ _ h)

theorem Canonical.foldlSnd {ι α : Type} {p : α × State} (h : Canonical p.2) {F : α × State → ι → α × State}
    {l : List ι} (hF : ∀ p i, Canonical p.2 → Canonical (F p i).2) : Canonical (l.foldl F p).2 := by
  induction l generalizing p with
  | nil => exact h
  | cons i l ih => exact ih (hF _ _ h)

theorem Canonical.ite {s t : State} {p : Prop} {d : Decidable p} (h : Canonical s) (h' : Canonical t) :
    Canonical (if p then s else t) := by
  split
  · exact h
  · exact h'

/-- Two ways on from one state. With `thenDo` and `elseDo`, it keeps a proof about that state from being written once for each way. -/
theorem Canonical.branch {s t u : State} {p : Prop} {d : Decidable p} (h : Canonical s) (ht : Canonical s → Canonical t)
    (hu : Canonical s → Canonical u) : Canonical (if p then t else u) :=
  (ht h).ite (hu h)

theorem Canonical.thenDo {s t : State} {p : Prop} {d : Decidable p} (h : Canonical s) (ht : Canonical s → Canonical t) :
    Canonical (if p then t else s) :=
  (ht h).ite h

theorem Canonical.elseDo {s t : State} {p : Prop} {d : Decidable p} (h : Canonical s) (ht : Canonical s → Canonical t) :
    Canonical (if p then s else t) :=
  h.ite (ht h)

theorem Canonical.iteSnd {α : Type} {x y : α × State} {p : Prop} {d : Decidable p} (h : Canonical x.2) (h' : Canonical y.2) :
    Canonical (if p then x else y).2 := by
  split
  · exact h
  · exact h'

section
variable {s : State}

/-! ### Machine/Regs.lean -/

theorem Canonical.setFibre (h : Canonical s) {f x} : Canonical (s.setFibre f x) :=
  { h with fibres := sortedKeys_mapSet _ _ _ h.fibres }

theorem Canonical.modFibre (h : Canonical s) {f g} : Canonical (s.modFibre f g) :=
  { h with fibres := sortedKeys_mapMod _ _ _ h.fibres }

theorem Canonical.modTeam (h : Canonical s) {t g} : Canonical (s.modTeam t g) :=
  { h with teams := sortedKeys_mapMod _ _ _ h.teams }

theorem Canonical.modPack (h : Canonical s) {p g} : Canonical (s.modPack p g) := h.setPacks

theorem Canonical.modLaunch (h : Canonical s) {k g} : Canonical (s.modLaunch k g) := h.setLaunches

theorem Canonical.modCtx (h : Canonical s) {c g} : Canonical (s.modCtx c g) := h.setCtxs

theorem Canonical.modCore (h : Canonical s) {c g} : Canonical (s.modCore c g) := h.setCores

theorem Canonical.modDie (h : Canonical s) {d g} : Canonical (s.modDie d g) := h.setDies

theorem Canonical.modMod (h : Canonical s) {g} : Canonical (s.modMod g) := h.setMod

theorem Canonical.logCtx (h : Canonical s) {c r} : Canonical (s.logCtx c r) := h.modCtx

theorem Canonical.failTeam (h : Canonical s) {t} : Canonical (s.failTeam t) := h.ite h.modTeam.modLaunch

theorem Canonical.putK (h : Canonical s) {b f cls i v} : Canonical (s.putK b f cls i v) := h.modTeam.foldl fun _ _ h => h.modFibre

theorem Canonical.putM (h : Canonical s) {b i v} : Canonical (s.putM b i v) := h.modPack.foldl fun _ _ h => h.modFibre

/-! ### Machine/Access.lean -/

theorem Canonical.touchHandle (h : Canonical s) {f hnd} : Canonical (s.touchHandle f hnd) := h.ite (h.ite h.modCore)

theorem Canonical.touchWatch (h : Canonical s) {space sector} : Canonical (s.touchWatch space sector) := h.setCores

theorem Canonical.touchRange (h : Canonical s) {space off n} : Canonical (s.touchRange space off n) :=
  h.foldl fun _ _ h => h.touchWatch

theorem Canonical.placeWrite (h : Canonical s) {bs a} : Canonical (s.placeWrite bs a) := by
  unfold State.placeWrite
  split
  · exact h.modCore.touchRange
  · exact h.modDie.touchRange
  · exact h.modTeam

theorem Canonical.laneWrite (h : Canonical s) {f off bs} : Canonical (s.laneWrite f off bs) := h.placeWrite

theorem Canonical.tlbFill (h : Canonical s) {t} : Canonical (s.tlbFill t) := h.setTlb

theorem Canonical.tlbDrop (h : Canonical s) {c va} : Canonical (s.tlbDrop c va) := h.setTlb

theorem Canonical.tableWrite (h : Canonical s) {pa bs} : Canonical (s.tableWrite pa bs) :=
  { h with dram := Memory.wf_writes h.dram pa bs }

theorem Canonical.setAccessed (h : Canonical s) {c va wr} : Canonical (s.setAccessed c va wr) := by
  unfold State.setAccessed
  dsimp only
  split
  · exact h
  · exact h.tableWrite

theorem Canonical.translate (h : Canonical s) {u c va w} : Canonical (s.translate u c va w).2 := by
  unfold State.translate
  cases s.tlbFind u c va with
  | some t => dsimp only; split; exacts [h, h.setAccessed]
  | none =>
    cases s.walk c va with
    | none => exact h
    | some l => dsimp only; split; exacts [h.tlbFill, h.tlbFill.setAccessed]

theorem Canonical.markKey (h : Canonical s) {key pa} : Canonical (s.markKey key pa) := h.setSkeys

theorem Canonical.dramWrite (h : Canonical s) {key pa bs} : Canonical (s.dramWrite key pa bs) := by
  induction bs generalizing s pa with
  | nil => exact h
  | cons b bs ih =>
    have hb : Canonical { s with dram := s.dram.write pa b } := { h with dram := Memory.wf_write h.dram pa b }
    exact ih hb.markKey

theorem Canonical.copyUpdate (h : Canonical s) {die pa key bs} : Canonical (s.copyUpdate die pa key bs) := by
  unfold State.copyUpdate
  split
  · exact h
  · exact h.modDie

theorem Canonical.combine (h : Canonical s) {key sector n xs} : Canonical (s.combine key sector n xs) := by
  induction n generalizing s xs with
  | zero => exact h
  | succ n ih =>
    unfold State.combine
    split
    · exact h
    · exact ih h.dramWrite.copyUpdate

theorem Canonical.recallSector (h : Canonical s) {pa key} : Canonical (s.recallSector pa key) :=
  h.ite h.setCores.combine.touchWatch

theorem Canonical.homeRead (h : Canonical s) {pa key n} : Canonical (s.homeRead pa key n).2 := h.recallSector

theorem Canonical.homeWrite (h : Canonical s) {die pa key bs} : Canonical (s.homeWrite die pa key bs) :=
  h.recallSector.dramWrite.copyUpdate.touchWatch

theorem Canonical.resolve (h : Canonical s) {u c va w x} : Canonical (s.resolve u c va w x).2 := by
  unfold State.resolve
  split
  · exact h
  · split
    · next e1 => split <;> exact of_pair h.tlbDrop.translate e1
    · next e1 => exact of_pair h.tlbDrop.translate e1

theorem Canonical.setL1 (h : Canonical s) {c k x} : Canonical (s.setL1 c k x) := h.modCore

theorem Canonical.delL1 (h : Canonical s) {c k} : Canonical (s.delL1 c k) := h.modCore

theorem Canonical.writeMasked (h : Canonical s) {die pa key m data} : Canonical (s.writeMasked die pa key m data) :=
  (h.recallSector.foldl fun _ _ h => h.dramWrite.copyUpdate.ite h).elseDo fun h => h.touchWatch

theorem Canonical.storeFault (h : Canonical s) {f life ctx arg} : Canonical (s.storeFault f life ctx arg) :=
  h.modFibre.ite h.logCtx.failTeam

theorem Canonical.copyRenew (h : Canonical s) {die pa key bs} : Canonical (s.copyRenew die pa key bs) := by
  unfold State.copyRenew
  split
  · exact h
  · exact h.modDie

theorem Canonical.cleaned (h : Canonical s) {c k pa key bm full acq data} : Canonical (s.cleaned c k pa key bm full acq data) :=
  (h.copyRenew.setL1.ite h.setL1).ite h.delL1

theorem Canonical.sectorFault (h : Canonical s) {l ctx ws} : Canonical (s.sectorFault l ctx ws) := by
  unfold State.sectorFault
  dsimp only
  split
  · exact (h.foldl fun _ _ h => h.storeFault).elseDo fun h => h.storeFault
  · exact h.foldl fun _ _ h => h.storeFault

theorem Canonical.writeBackBy (h : Canonical s) {c k keep l} : Canonical (s.writeBackBy c k keep l) := by
  unfold State.writeBackBy
  dsimp only
  split
  · split
    · exact h.cleaned.ite h.delL1
    · split
      · next e2 => exact of_pair h.resolve e2
      · next e2 => exact (of_pair h.resolve e2).delL1.sectorFault
      · next e2 =>
        replace h := of_pair h.resolve e2
        exact h.ite (h.writeMasked.cleaned.ite h.writeMasked.delL1)
  · exact h

theorem Canonical.writeBack (h : Canonical s) {c k keep} : Canonical (s.writeBack c k keep) := h.writeBackBy

theorem Canonical.flushSector (h : Canonical s) {c pa key inval} : Canonical (s.flushSector c pa key inval) := by
  unfold State.flushSector
  dsimp only
  split
  · exact h.writeBack
  · exact h.ite h.recallSector
  · exact h.delL1.ite h
  · exact h

theorem Canonical.evictLine (h : Canonical s) {c line} : Canonical (s.evictLine c line) := h.foldl fun _ _ h => h.flushSector

theorem Canonical.allocate (h : Canonical s) {c k hnd} : (s.allocate c k hnd).elim True Canonical := by
  unfold State.allocate
  dsimp only
  split
  · exact h.modCore
  · split
    · exact h.modCore
    · split
      · exact trivial
      · exact h.evictLine.modCore

theorem Canonical.keepCopy (h : Canonical s) {die k bs} : Canonical (s.keepCopy die k bs) := h.modDie

theorem Canonical.fillBytes (h : Canonical s) {die pa key rc} : Canonical (s.fillBytes die pa key rc).2 := by
  unfold State.fillBytes
  dsimp only
  split
  · split
    · exact h
    · exact h.homeRead.keepCopy
  · exact h.homeRead.copyRenew

theorem Canonical.seeHome (h : Canonical s) {f pa key} : Canonical (s.seeHome f pa key) := h.modDie

theorem Canonical.l1Read (h : Canonical s) {c pa key n rc hnd} : Canonical (s.l1Read c pa key n rc hnd).2 := by
  unfold State.l1Read
  extract_lets k u
  have hu : Canonical u := by
    unfold u
    split
    · exact h.recallSector
    · exact h
  split
  · exact getD_of hu.allocate hu
  · dsimp only
    split
    · exact getD_of hu.allocate hu
    · exact (getD_of hu.allocate hu).fillBytes.setL1
  · dsimp only
    split
    · next e => exact (of_some hu.fillBytes.allocate e).setL1
    · exact hu.fillBytes

theorem Canonical.homeReadBy (h : Canonical s) {c pa key n how} : Canonical (s.homeReadBy c pa key n how).2 := by
  unfold State.homeReadBy
  dsimp only
  split
  · exact h.flushSector.fillBytes
  · exact h.flushSector.homeRead

theorem Canonical.l1Write (h : Canonical s) {f life c ctx va arg x bs} : Canonical (s.l1Write f life c ctx va arg x bs) := by
  unfold State.l1Write
  refine Canonical.setL1 ?_
  split
  · exact h.recallSector
  · exact h

theorem Canonical.cvWrite (h : Canonical s) {c x bs} : Canonical (s.cvWrite c x bs) := by
  unfold State.cvWrite
  extract_lets k i m u w
  have hw : Canonical w := by
    refine Canonical.homeWrite ?_
    unfold u
    split
    · exact h.recallSector
    · exact h
  split
  · exact hw.setL1
  · exact hw.setL1
  · exact hw

theorem Canonical.homeAtom (h : Canonical s) {c x n g} : Canonical (s.homeAtom c x n g).2 := by
  unfold State.homeAtom
  dsimp only
  split
  · dsimp only
    exact h.flushSector.homeRead
  · exact h.flushSector.homeRead.homeWrite

theorem Canonical.acquireCore (h : Canonical s) {c sc own} : Canonical (s.acquireCore c sc own) :=
  ((h.elseDo fun h => h.modDie).thenDo fun h => h.modCore).thenDo fun h => h.modDie

theorem Canonical.globRead1 (h : Canonical s) {f x n how} : (s.globRead1 f x n how).elim True (Canonical ·.2) := by
  unfold State.globRead1
  dsimp only
  split
  · split
    · exact trivial
    · exact h.homeReadBy.ite h.homeReadBy.seeHome
  · split
    · exact trivial
    · exact h.l1Read

theorem Canonical.globRead (h : Canonical s) {f hnd how fuel va n acc} : Canonical (s.globRead f hnd how fuel va n acc).2 := by
  induction fuel generalizing s va n acc with
  | zero => exact h
  | succ fuel ih =>
    unfold State.globRead
    dsimp only
    split
    · exact h
    · split
      · next e => exact of_pair h.translate e
      · next e =>
        have ht := of_pair h.translate e
        split
        · next e' => exact of_pair ht.resolve e'
        · next e' =>
          have hr := of_pair ht.resolve e'
          split
          · exact hr
          · next e'' => exact ih (of_some (P := fun p => Canonical p.2) hr.globRead1 e'')

theorem Canonical.translateRange (h : Canonical s) {u c hnd w fuel va n acc} :
    Canonical (s.translateRange u c hnd w fuel va n acc).2 := by
  induction fuel generalizing s va n acc with
  | zero => exact h
  | succ fuel ih =>
    unfold State.translateRange
    dsimp only
    split
    · exact h
    · split
      · next e => exact of_pair h.translate e
      · next e =>
        have ht := of_pair h.translate e
        split
        · next e' => exact of_pair ht.resolve e'
        · next e' => exact ih (of_pair ht.resolve e')

theorem Canonical.readNow (h : Canonical s) {f a n how} : Canonical (s.readNow f a n how).2 := by
  unfold State.readNow
  split
  · exact h.globRead
  · split <;> exact h

theorem Canonical.arriveEntry (h : Canonical s) {f q i} : Canonical (s.arriveEntry f q i) := by
  unfold State.arriveEntry
  dsimp only
  split
  · exact h
  · split
    · exact h
    · split
      · next e2 =>
        replace h := of_pair h.readNow e2
        exact h.modFibre.acquireCore.ite h.modFibre
      · next e2 => exact of_pair h.readNow e2
      · next e2 =>
        replace h := of_pair h.readNow e2
        exact (h.modFibre.acquireCore.ite h.modFibre).ite h.modFibre

theorem Canonical.performLoad (h : Canonical s) {f seq} : Canonical (s.performLoad f seq) := by
  unfold State.performLoad
  dsimp only
  split
  · exact h
  · exact h.modFibre

theorem Canonical.coreWrite (h : Canonical s) {r va x bs} : (s.coreWrite r va x bs).elim True Canonical := by
  unfold State.coreWrite
  split
  · exact trivial
  · split
    · next e1 => exact (of_some h.allocate e1).l1Write
    · split
      · exact trivial
      · exact h.cvWrite

theorem Canonical.perform (h : Canonical s) {r va x} : (s.perform r va x).elim True Canonical := by
  unfold State.perform
  split
  · split
    · split
      · exact trivial
      · exact h.cvWrite
    · exact h.coreWrite
  · split
    · exact trivial
    · exact h.homeAtom

theorem Canonical.dropReq (h : Canonical s) {id} : Canonical (s.dropReq id) := h.setReqs

theorem Canonical.afterSc (h : Canonical s) {r} : Canonical (s.afterSc r) := by
  unfold State.afterSc
  split
  · exact h
  · exact h.acquireCore

theorem Canonical.performReq (h : Canonical s) {id} : Canonical (s.performReq id) := by
  unfold State.performReq
  split
  · exact h
  · split
    · split
      · next e2 => exact of_pair h.resolve e2
      · next e2 => exact (of_pair h.resolve e2).dropReq.storeFault
      · next e2 =>
        replace h := of_pair h.resolve e2
        split
        · exact h
        · next e3 => exact (of_some h.perform e3).dropReq.afterSc
    · split
      · exact h.placeWrite.dropReq
      · exact h.dropReq

theorem Canonical.performOwn (h : Canonical s) {f req xs stuck} (hreq : ∀ s id, Canonical s → Canonical (req s id)) :
    Canonical (s.performOwn f req xs stuck) := by
  induction xs generalizing s stuck with
  | nil => exact h
  | cons x xs ih =>
    unfold State.performOwn
    split
    · exact ih h
    · apply ih
      split
      · exact h.arriveEntry
      · exact h.performLoad
      · exact hreq _ _ h

theorem Canonical.settleReq (h : Canonical s) {n id} : Canonical (s.settleReq n id) := by
  induction n generalizing s id with
  | zero => exact h
  | succ n ih =>
    unfold State.settleReq
    split
    · exact h
    · next r _ =>
      have perform : ∀ u : State, Canonical u → Canonical (if u.reqFree id r then u.performReq id else u) :=
        fun _ h => h.performReq.ite h
      have before : ∀ l : List (Nat × HomeReq),
          Canonical (l.foldl (fun s e => if e.2.fib = r.fib then s else State.settleReq s n e.1) s) :=
        fun _ => h.foldl fun _ _ h => h.ite (ih h)
      refine perform _ ?_
      split
      · exact before _
      · exact (before _).performOwn fun _ _ h => ih h

theorem Canonical.settleId (h : Canonical s) {id} : Canonical (s.settleId id) := h.settleReq

theorem Canonical.arriveBefore (h : Canonical s) {f p} : Canonical (s.arriveBefore f p) := h.performOwn fun _ _ h => h.settleId

theorem Canonical.arriveAt (h : Canonical s) {f loc} : Canonical (s.arriveAt f loc) := h.arriveBefore

theorem Canonical.performReqs (h : Canonical s) {ids} : Canonical (s.performReqs ids) := h.foldl fun _ _ h => h.settleId

theorem Canonical.sendReq (h : Canonical s) {r} : Canonical (s.sendReq r) := h.setReqs.modMod.modFibre

theorem Canonical.readLoc (h : Canonical s) {f a n how} : Canonical (s.readLoc f a n how).2 := by
  unfold State.readLoc
  dsimp only
  split
  · exact h.arriveAt
  · exact h.arriveAt.readNow

theorem Canonical.noteCodeStore (h : Canonical s) {c code} : Canonical (s.noteCodeStore c code) := by
  unfold State.noteCodeStore
  split
  · exact h
  · split
    · exact h.modCtx.ite h
    · exact h

theorem Canonical.storePieces (h : Canonical s) {f a how xs bs} : Canonical (s.storePieces f a how xs bs) := by
  induction xs generalizing s bs with
  | nil => exact h
  | cons x xs ih =>
    unfold State.storePieces
    apply ih
    split
    · exact h.sendReq
    · split
      · next e => exact of_some h.coreWrite e
      · exact h.sendReq

theorem Canonical.writeLoc (h : Canonical s) {f a how bs} : Canonical (s.writeLoc f a how bs).2 := by
  unfold State.writeLoc
  split
  · split
    · next e1 => exact of_pair h.translateRange e1
    · next e1 => exact (of_pair h.translateRange e1).storePieces.noteCodeStore
  · split
    · exact h
    · split
      · exact h.sendReq
      · exact h.placeWrite

theorem Canonical.writeBackFor (h : Canonical s) {c l} : Canonical (s.writeBackFor c l) := h.foldl fun _ _ h => h.writeBackBy

theorem Canonical.writeBackAll (h : Canonical s) {c} : Canonical (s.writeBackAll c) := h.writeBackFor

theorem Canonical.acquire (h : Canonical s) {f sc} : Canonical (s.acquire f sc) := h.acquireCore

theorem Canonical.releaseActs (h : Canonical s) {f sc} : Canonical (s.releaseActs f sc) :=
  h.arriveBefore.writeBackFor.ite h.arriveBefore

theorem Canonical.release (h : Canonical s) {f sc} : Canonical (s.release f sc).2 := by
  unfold State.release
  dsimp only
  split
  · exact h.releaseActs.modFibre
  · split <;> exact h.releaseActs

/-! ### Machine/Ops.lean -/

theorem Canonical.tokOpen (h : Canonical s) {f r} : Canonical (s.tokOpen f r) := by
  unfold State.tokOpen
  split
  · exact h
  · exact h.modFibre

theorem Canonical.tokClose (h : Canonical s) {f r g} : Canonical (s.tokClose f r g) := by
  unfold State.tokClose
  dsimp only
  split
  · exact h
  · split
    · exact h
    · exact h.modFibre.ite h.modFibre

theorem Canonical.completeWhere (h : Canonical s) {p q} : Canonical (s.completeWhere p q) := h.foldl fun _ _ h => h.modFibre.ite h

theorem Canonical.recheckMask (h : Canonical s) {p i} : Canonical (s.recheckMask p i) :=
  (h.foldl fun _ _ h => h.completeWhere.ite h).thenDo fun h => h.completeWhere

theorem Canonical.recheckMasks (h : Canonical s) {p} : Canonical (s.recheckMasks p) := h.foldl fun _ _ h => h.recheckMask

theorem Canonical.setPoint (h : Canonical s) {t b x} : Canonical (s.setPoint t b x) := h.modTeam

theorem Canonical.rvDone (h : Canonical s) {f kdone ph sync} : Canonical (s.rvDone f kdone ph sync) := h.modFibre

theorem Canonical.rvComplete (h : Canonical s) {t b} : Canonical (s.rvComplete t b) := by
  unfold State.rvComplete
  refine h.setPoint.foldl fun _ _ h => ?_
  split
  · exact h.rvDone.ite h
  · exact h

theorem Canonical.rvArrive (h : Canonical s) {f b drop} : Canonical (s.rvArrive f b drop).2 :=
  h.setPoint.rvComplete.ite h.setPoint

theorem Canonical.lateArrive (h : Canonical s) {f b} : Canonical (s.lateArrive f b) :=
  h.releaseActs.modFibre.ite h.releaseActs.rvArrive

theorem Canonical.rvEnd (h : Canonical s) {f b} : Canonical (s.rvEnd f b) := h.ite (h.ite (h.setPoint.ite h.lateArrive))

theorem Canonical.recheckHbar (h : Canonical s) {t sc} : Canonical (s.recheckHbar t sc) :=
  ((h.foldl (fun _ _ h => h.modTeam)).foldl (fun _ _ h => h.acquire.modFibre)).ite h

theorem Canonical.endOne (h : Canonical s) {f} : Canonical (s.endOne f) := h.modFibre.modPack.modCore.foldl fun _ _ h => h.rvEnd

theorem Canonical.endFibre (h : Canonical s) {f} : Canonical (s.endFibre f) :=
  (h.endOne.ite (h.endOne.foldl (fun _ _ h => h.endOne))).recheckMasks.foldl fun _ _ h => h.recheckHbar

theorem Canonical.escalate (h : Canonical s) {f outcome eff pc arg} : Canonical (s.escalate f outcome eff pc arg) := h.modLaunch

theorem Canonical.killFibre (h : Canonical s) {f eff pc arg} : Canonical (s.killFibre f eff pc arg) :=
  h.escalate.failTeam.endFibre

theorem Canonical.lockXl (h : Canonical s) {f va} : Canonical (s.lockXl f va).2 := by
  unfold State.lockXl
  dsimp only
  split
  · next e => exact of_pair h.translate e
  · next e =>
    replace h := of_pair h.translate e
    split
    · next e1 => exact of_pair h.translate e1
    · next e1 => exact (of_pair h.translate e1).resolve

theorem Canonical.capXl (h : Canonical s) {f va} : Canonical (s.capXl f va).2 := by
  unfold State.capXl
  split
  · next e => exact of_pair h.translate e
  · next e => exact (of_pair h.translate e).lockXl

theorem Canonical.capFirst (h : Canonical s) {f va} : Canonical (s.capFirst f va) := h.ite h.arriveAt

theorem Canonical.capRead (h : Canonical s) {f x} : Canonical (s.capRead f x).2 := h.flushSector.seeHome.homeRead

theorem Canonical.capWrite (h : Canonical s) {f x off bs} : Canonical (s.capWrite f x off bs) := h.flushSector.homeWrite

theorem Canonical.changeLock (h : Canonical s) {f hnd st} : Canonical (s.changeLock f hnd st).2 := by
  unfold State.changeLock
  dsimp only
  split
  · next e => exact of_pair h.capFirst.lockXl e
  · next e => exact of_pair h.capFirst.lockXl e
  · next e => exact (of_pair h.capFirst.lockXl e).logCtx
  · next e =>
    replace h := of_pair h.capFirst.lockXl e
    split
    · exact h
    · split
      · exact h.capRead.capWrite
      · exact h.capRead

theorem Canonical.mailboxWrite (h : Canonical s) {f block mb result status} :
    Canonical (s.mailboxWrite f block mb result status).2 := by
  unfold State.mailboxWrite
  split
  · next e => exact of_pair h.arriveAt.translate e
  · next e => exact of_pair h.arriveAt.translate e
  · next e => exact (of_pair h.arriveAt.translate e).logCtx
  · next e =>
    replace h := of_pair h.arriveAt.translate e
    split
    · exact h
    · exact h.flushSector.homeWrite

theorem Canonical.parkLock (h : Canonical s) {f} : Canonical (s.parkLock f).2 := by
  unfold State.parkLock
  split
  · exact h
  · exact h.changeLock

theorem Canonical.leaveBroken (h : Canonical s) {f hnd} : Canonical (s.leaveBroken f hnd) := h.modFibre

theorem Canonical.breakLock (h : Canonical s) {f} : Canonical (s.breakLock f).2 := by
  unfold State.breakLock
  dsimp only
  split
  · exact h
  · split
    · next e1 => exact of_pair h.arriveAt.lockXl e1
    · next e1 => exact of_pair h.arriveAt.lockXl e1
    · next e1 => exact (of_pair h.arriveAt.lockXl e1).logCtx.leaveBroken
    · next e1 =>
      replace h := of_pair h.arriveAt.lockXl e1
      split
      · exact h
      · split
        · exact h.capRead.leaveBroken
        · split
          · split
            · exact h.capRead.mailboxWrite
            · exact h.capRead.mailboxWrite.capWrite.leaveBroken
          · split
            · exact h.capRead
            · exact h.capRead.capWrite.leaveBroken

theorem Canonical.writeSusp (h : Canonical s) {f at_ x e kind tgen shrec} : Canonical (s.writeSusp f at_ x e kind tgen shrec) :=
  (h.laneWrite.thenDo fun h => h.laneWrite).laneWrite.thenDo fun h => h.laneWrite

theorem Canonical.haltMissing (h : Canonical s) {f e} : Canonical (s.haltMissing f e) :=
  (h.foldl fun _ _ h => h.modFibre).modFibre.thenDo fun h => h.escalate.logCtx

theorem Canonical.unhandled (h : Canonical s) {f e} : Canonical (s.unhandled f e) :=
  ((h.foldl fun _ _ h => h.releaseActs).elseDo fun h => h.haltMissing).ite h.killFibre

theorem Canonical.deliverTo (h : Canonical s) {f e team r} : Canonical (s.deliverTo f e team r) :=
  h.killFibre.ite (h.writeSusp.escalate.ite h.writeSusp).modFibre

theorem Canonical.arriveAll (h : Canonical s) {f} : Canonical (s.arriveAll f) := h.arriveBefore.modFibre

theorem Canonical.arriveAfterHalt (h : Canonical s) {f} : Canonical (s.arriveAfterHalt f) := h.arriveAll.modFibre

theorem Canonical.laneFirst (h : Canonical s) {f} : Canonical (s.laneFirst f) := h.arriveBefore

theorem Canonical.deliver (h : Canonical s) {f e} : Canonical (s.deliver f e) := by
  have hl : Canonical ((s.arriveAll f).laneFirst f) := h.arriveAll.laneFirst
  unfold State.deliver
  dsimp only
  split
  · exact hl
  · exact hl.killFibre
  · exact hl.deliverTo
  · exact hl.deliverTo.ite hl.unhandled

theorem Canonical.tryDeliver (h : Canonical s) {f} : Canonical (s.tryDeliver f) := by
  unfold State.tryDeliver
  dsimp only
  split
  · exact h
  · split
    · exact h
    · split
      · exact h.deliver.ite h
      · split
        · exact h.breakLock.deliver.ite h.breakLock
        · exact h.parkLock.deliver.ite h.parkLock

theorem Canonical.raiseAt (h : Canonical s) {f err pc simm} : Canonical (s.raiseAt f err pc simm) := h.ite h.setFibre.tryDeliver

theorem Canonical.resumeFrom (h : Canonical s) {f rec v} : Canonical (s.resumeFrom f rec v) := h.arriveAll.modFibre

theorem Canonical.unwindTo (h : Canonical s) {f rec v} : Canonical (s.unwindTo f rec v) :=
  h.laneWrite.laneWrite.arriveAll.modFibre

/-! ### Machine/Operands.lean -/

theorem Canonical.put1 (h : Canonical s) {ln cls sp v} : Canonical (s.put1 ln cls sp v) := by
  unfold State.put1
  split
  · exact h.ite h.putK
  · exact h.modFibre
  · exact h.modFibre
  · exact h

theorem Canonical.putFrom (h : Canonical s) {ln cls sp i ws} : Canonical (s.putFrom ln cls sp i ws) := by
  induction ws generalizing s i with
  | nil => exact h
  | cons w ws ih => exact ih h.put1

theorem Canonical.putD (h : Canonical s) {ln cls sp n v} : Canonical (s.putD ln cls sp n v) := by
  unfold State.putD
  split
  · exact h.put1
  · exact h.putFrom

theorem Canonical.raise (h : Canonical s) {ln e} : Canonical (s.raise ln e) := h.modFibre.raiseAt

theorem Canonical.waitAt (h : Canonical s) {ln w} : Canonical (s.waitAt ln w) := h.modFibre

theorem Canonical.stall (h : Canonical s) {ln} : Canonical (s.stall ln) := h.modFibre

theorem Canonical.stop (h : Canonical s) {ln a} : Canonical (s.stop ln a) := by
  unfold State.stop
  split
  · exact h.raise
  · exact h.stall

theorem Canonical.pass (h : Canonical s) {f pc} : Canonical (s.pass f pc) := h.modFibre

theorem Canonical.tokenAcquires (h : Canonical s) {n f} : Canonical (s.tokenAcquires n f) := by
  unfold State.tokenAcquires
  refine h.foldl fun _ _ h => ?_
  split
  · exact h
  · exact (h.foldl (fun _ _ h => h.acquire)).modFibre

theorem Canonical.skip (h : Canonical s) {f pc} : Canonical (s.skip f pc) := h.modFibre

theorem Canonical.settleLane (h : Canonical s) {ln a} : Canonical (s.settleLane ln a) := by
  unfold State.settleLane
  split
  · exact h.skip
  · exact h.skip
  · exact h.pass
  · exact h.raise
  · exact h.waitAt

theorem Canonical.runBatch (h : Canonical s) {n body} (hbody : ∀ ls s, Canonical s → Canonical (body ls s)) :
    Canonical (runBatch n body s) := by
  unfold Machine.runBatch
  dsimp only
  split
  · exact h
  · exact hbody _ _ ((h.foldl (fun _ _ h => h.settleLane)).foldl (fun _ _ h => h.tokenAcquires))

theorem Canonical.runLanes (h : Canonical s) {n body} (hbody : ∀ ln v s, Canonical s → Canonical (body ln v s)) :
    Canonical (runLanes n body s) :=
  h.runBatch fun _ _ h => h.foldl fun _ _ h => hbody _ _ _ h

theorem Canonical.runChecked (h : Canonical s) {α : Type} {n : Need} {prep : Ln → Vals → State → Prep α}
    {body : Ln → Vals → α → State → State} (hbody : ∀ ln v x s, Canonical s → Canonical (body ln v x s)) :
    Canonical (runChecked n prep body s) := by
  refine h.runBatch fun _ _ h => h.foldl fun _ _ h => ?_
  split
  · exact h.raise
  · exact h.stall
  · exact h.waitAt
  · exact hbody _ _ _ _ h

/-! ### Machine/Issue.lean -/

theorem Canonical.enterFibre (h : Canonical s) {f mk w} : Canonical (s.enterFibre f mk w) := h.modFibre

theorem Canonical.park (h : Canonical s) {f} : Canonical (s.park f) := by
  unfold State.park
  dsimp only
  split
  · exact h
  · exact h.modFibre.ite h

theorem Canonical.issueBatch (h : Canonical s) {b lanes rest} : Canonical (s.issueBatch b lanes rest) :=
  ((((h.foldl fun _ _ h => h.modFibre).foldl fun _ _ h => h.raiseAt).foldl fun _ _ h => h.modFibre).foldl
    fun _ _ h => h.enterFibre).frame

theorem Canonical.raiseIllegal (h : Canonical s) : Canonical s.raiseIllegal := by
  unfold State.raiseIllegal
  dsimp only
  split
  · exact h
  · exact h.foldl fun _ _ h => h.raise.ite h.pass

theorem Canonical.issueNext (h : Canonical s) {b rest} : (s.issueNext b rest).elim (fun _ => True) Canonical := by
  unfold State.issueNext
  dsimp only
  split
  · exact h.frame
  · split
    · exact trivial
    · split
      · exact trivial
      · exact h.issueBatch

theorem Canonical.formBatch (h : Canonical s) {clk p} : Canonical (s.formBatch clk p).2 := by
  unfold State.formBatch
  dsimp only
  split
  · exact h
  · exact h.modPack

theorem Canonical.parkAll (h : Canonical s) {core} : Canonical (s.parkAll core) := h.foldl fun _ _ h => h.park

theorem Canonical.coreTurn (h : Canonical s) {core} : Canonical (s.coreTurn core) := by
  refine h.parkAll.modCore.foldl fun _ _ h => ?_
  split
  · next e => exact of_pair h.formBatch e
  · next e => exact (of_pair h.formBatch e).modPack.setIssue

/-! ### Machine/Flags.lean -/

theorem Canonical.flag (h : Canonical s) {f fl} : Canonical (s.flag f fl) := h.modFibre

theorem Canonical.clearFlags (h : Canonical s) {f m} : Canonical (s.clearFlags f m) := h.modFibre

/-! ### Machine/IntOps.lean -/

theorem Canonical.intRun (h : Canonical s) {o cls na nb nc v} : Canonical (intRun o cls na nb nc v s) :=
  h.runLanes fun _ _ _ h => h.putD

theorem Canonical.patRun (h : Canonical s) {o cls na nb nc wd v} : Canonical (patRun o cls na nb nc wd v s) :=
  h.runLanes fun _ _ _ h => h.putD

theorem Canonical.int1 (h : Canonical s) {o cls v} : Canonical (int1 o cls v s) := h.intRun

theorem Canonical.int2 (h : Canonical s) {o cls v} : Canonical (int2 o cls v s) := h.intRun

theorem Canonical.int3 (h : Canonical s) {o cls v} : Canonical (int3 o cls v s) := h.intRun

theorem Canonical.execNop (h : Canonical s) : Kept (execNop s) := h.runLanes fun _ _ _ h => h

theorem Canonical.execIadd (h : Canonical s) {o} : Kept (execIadd o s) := h.int2

theorem Canonical.execIsub (h : Canonical s) {o} : Kept (execIsub o s) := h.int2

theorem Canonical.execImul (h : Canonical s) {o} : Kept (execImul o s) := h.int2

theorem Canonical.execImulh (h : Canonical s) {o} : Kept (execImulh o s) := h.int2

theorem Canonical.execImad (h : Canonical s) {o} : Kept (execImad o s) := h.int3

theorem Canonical.execImadw (h : Canonical s) {o} : Kept (execImadw o s) := h.runLanes fun _ _ _ h => h.putD

theorem Canonical.execIdiv (h : Canonical s) {o} : Kept (execIdiv o s) := h.int2

theorem Canonical.execIrem (h : Canonical s) {o} : Kept (execIrem o s) := h.int2

theorem Canonical.execImin (h : Canonical s) {o} : Kept (execImin o s) := h.int2

theorem Canonical.execImax (h : Canonical s) {o} : Kept (execImax o s) := h.int2

theorem Canonical.execIabs (h : Canonical s) {o} : Kept (execIabs o s) := h.int1

theorem Canonical.execIneg (h : Canonical s) {o} : Kept (execIneg o s) := h.int1

theorem Canonical.execIsad (h : Canonical s) {o} : Kept (execIsad o s) := h.int3

theorem Canonical.execAnd (h : Canonical s) {o} : Kept (execAnd o s) := h.patRun

theorem Canonical.execOr (h : Canonical s) {o} : Kept (execOr o s) := h.patRun

theorem Canonical.execXor (h : Canonical s) {o} : Kept (execXor o s) := h.patRun

theorem Canonical.execNot (h : Canonical s) {o} : Kept (execNot o s) := h.patRun

theorem Canonical.execAndn (h : Canonical s) {o} : Kept (execAndn o s) := h.patRun

theorem Canonical.execShl (h : Canonical s) {o} : Kept (execShl o s) := h.patRun

theorem Canonical.execShr (h : Canonical s) {o} : Kept (execShr o s) := h.patRun

theorem Canonical.execSar (h : Canonical s) {o} : Kept (execSar o s) := h.runLanes fun _ _ _ h => h.putD

theorem Canonical.execRot (h : Canonical s) {o} : Kept (execRot o s) := h.patRun

theorem Canonical.execFsh (h : Canonical s) {o} : Kept (execFsh o s) := h.patRun

theorem Canonical.execBfx (h : Canonical s) {o} : Kept (execBfx o s) := h.runLanes fun _ _ _ h => h.putD

theorem Canonical.execBfi (h : Canonical s) {o} : Kept (execBfi o s) := h.patRun

theorem Canonical.execBrev (h : Canonical s) {o} : Kept (execBrev o s) := h.patRun

theorem Canonical.execPopc (h : Canonical s) {o} : Kept (execPopc o s) := h.patRun

theorem Canonical.execClz (h : Canonical s) {o} : Kept (execClz o s) := h.patRun

theorem Canonical.execCtz (h : Canonical s) {o} : Kept (execCtz o s) := h.patRun

theorem Canonical.execPrmb (h : Canonical s) {o} : Kept (execPrmb o s) := h.patRun

theorem Canonical.execLea (h : Canonical s) {o} : Kept (execLea o s) := h.patRun

/-! ### Machine/Moves.lean -/

theorem Canonical.execMov (h : Canonical s) {o} : Kept (execMov o s) := h.patRun

theorem Canonical.execSel (h : Canonical s) {o} : Kept (execSel o s) := h.patRun

theorem Canonical.execIpred (h : Canonical s) {o} : Kept (execIpred o s) := h.runLanes fun _ _ _ h => h.putD

theorem Canonical.execPlut (h : Canonical s) {o} : Kept (execPlut o s) := h.runLanes fun _ _ _ h => h.putD

theorem Canonical.execPrdw (h : Canonical s) {o} : Kept (execPrdw o s) := h.runBatch fun _ _ h => h.foldl fun _ _ h => h.putD

theorem Canonical.execPwrw (h : Canonical s) {o} : Kept (execPwrw o s) :=
  h.runLanes fun _ _ _ h => h.foldl fun _ _ h => h.modFibre.ite h

theorem Canonical.execHaddr (h : Canonical s) {o} : Kept (execHaddr o s) := h.runChecked fun _ _ _ _ h => h.touchHandle.putD

theorem Canonical.execClock (h : Canonical s) {o} : Kept (execClock o s) := h.runLanes fun _ _ _ h => h.putD

/-! ### Machine/Control.lean -/

theorem Canonical.afterRelease (h : Canonical s) {ln sc k} (hk : ∀ s, Canonical s → Canonical (k s)) :
    Canonical (afterRelease s ln sc k) := by
  unfold Machine.afterRelease
  split
  · next e => exact hk _ (of_pair h.release e)
  · next e => exact (of_pair h.release e).stall
  · next e => exact (of_pair h.release e).raise

theorem Canonical.callTo (h : Canonical s) {ln t other} : Canonical (s.callTo ln t other) :=
  (h.modFibre.arriveAll.ite h.modFibre).modFibre

theorem Canonical.execBra (h : Canonical s) {o} : Kept (execBra o s) := h.runLanes fun _ _ _ h => h.raise.ite h.modFibre

theorem Canonical.jumpA (h : Canonical s) {o} : Canonical (jumpA o s) := h.runLanes fun _ _ _ h => h.modFibre

theorem Canonical.execBrx (h : Canonical s) {o} : Kept (execBrx o s) := h.jumpA

theorem Canonical.execRet (h : Canonical s) {o} : Kept (execRet o s) := h.jumpA

theorem Canonical.execCall (h : Canonical s) {o} : Kept (execCall o s) := h.runLanes fun _ _ _ h => h.callTo

theorem Canonical.execCallx (h : Canonical s) {o} : Kept (execCallx o s) := by
  refine h.runChecked fun _ _ _ _ h => ?_
  split
  · next e => exact (of_pair h.touchHandle.readLoc e).stop
  · next e =>
    have hr := of_pair h.touchHandle.readLoc e
    exact hr.raise.ite hr.callTo

theorem Canonical.execBrdec (h : Canonical s) {o} : Kept (execBrdec o s) := h.runLanes fun _ _ _ h => h.put1.ite h.put1.modFibre

theorem Canonical.execMset (h : Canonical s) {o} : Kept (execMset o s) := by
  unfold Machine.execMset
  refine h.runBatch fun _ _ h => ?_
  dsimp only
  split
  · exact h
  · exact h.putM.recheckMask

theorem Canonical.execLeave (h : Canonical s) {o} : Kept (execLeave o s) := by
  unfold Machine.execLeave
  refine h.runBatch fun _ _ h => ?_
  dsimp only
  split
  · exact h
  · exact h.putM.recheckMask

theorem Canonical.execJoin (h : Canonical s) {o} : Kept (execJoin o s) := by
  unfold Machine.execJoin
  refine h.runBatch fun _ _ h => ?_
  dsimp only
  split
  · exact h.foldl fun _ _ h => h.waitAt.ite h
  · exact (h.foldl (fun _ _ h => h.waitAt.ite h)).recheckMask

theorem Canonical.execWaitm (h : Canonical s) {o} : Kept (execWaitm o s) := by
  unfold Machine.execWaitm
  refine h.runBatch fun _ _ h => ?_
  dsimp only
  split
  · exact h.foldl fun _ _ h => (h.afterRelease (fun _ h => h.waitAt)).ite h
  · exact (h.foldl (fun _ _ h => (h.afterRelease (fun _ h => h.waitAt)).ite h)).recheckMask

theorem Canonical.logOldFaults (h : Canonical s) {f} : Canonical (s.logOldFaults f) := h.foldl fun _ _ h => h.logCtx.failTeam

theorem Canonical.execSpawn (h : Canonical s) {o} : Kept (execSpawn o s) := by
  unfold Machine.execSpawn
  refine h.runLanes fun _ _ _ h => ?_
  dsimp only
  split
  · exact h.putD
  · split
    · exact h.putD
    · exact h.afterRelease fun _ h => h.logOldFaults.setFibre.modPack.recheckMasks.putD

theorem Canonical.execExit (h : Canonical s) {o} : Kept (execExit o s) := h.runLanes fun _ _ _ h => h.ite h.endFibre

theorem Canonical.execDemote (h : Canonical s) {o} : Kept (execDemote o s) :=
  h.runLanes fun _ _ _ h =>
    h.ite ((h.modFibre.elseDo fun h => h.foldl fun _ _ h => h.endOne).recheckMasks.foldl fun _ _ h => h.recheckHbar)

theorem Canonical.execYield (h : Canonical s) {o} : Kept (execYield o s) := by
  unfold Machine.execYield
  refine h.runBatch fun _ _ h => ?_
  split
  · exact h
  · exact h.modPack

/-! ### Machine/CrossLane.lean -/

theorem Canonical.crossRun (h : Canonical s) {o na nb wd g} : Canonical (crossRun o na nb wd g s) :=
  h.runBatch fun _ _ h => h.foldl fun _ _ h => h.flag.putD

theorem Canonical.execBallot (h : Canonical s) {o} : Kept (execBallot o s) := h.crossRun

theorem Canonical.execAgree (h : Canonical s) {o} : Kept (execAgree o s) := h.crossRun

theorem Canonical.execShfl (h : Canonical s) {o} : Kept (execShfl o s) := h.crossRun

theorem Canonical.execPrdx (h : Canonical s) {o} : Kept (execPrdx o s) := h.crossRun

theorem Canonical.execPscan (h : Canonical s) {o} : Kept (execPscan o s) := h.crossRun

theorem Canonical.execMatch (h : Canonical s) {o} : Kept (execMatch o s) := h.crossRun

/-! ### Machine/Rendezvous.lean -/

theorem Canonical.rvInit (h : Canonical s) {t b count drop roles} : Canonical (s.rvInit t b count drop roles).2 := by
  unfold State.rvInit
  dsimp only
  split
  · exact h
  · split
    · exact h
    · exact h.setPoint

theorem Canonical.execBinit (h : Canonical s) {o} : Kept (execBinit o s) := by
  refine h.runBatch fun _ _ h => ?_
  split
  · exact h
  · exact h.rvInit.foldl fun _ _ h => h.putD

theorem Canonical.arriveThen (h : Canonical s) {ln b drop k} (hk : ∀ ph s, Canonical s → Canonical (k ph s)) :
    Canonical (arriveThen s ln b drop k) :=
  h.ite (h.raise.ite (h.afterRelease fun _ h => hk _ _ (h.setPoint.rvComplete.ite h.setPoint)))

theorem Canonical.execArrive (h : Canonical s) {o} : Kept (execArrive o s) :=
  h.runLanes fun _ _ _ h => h.arriveThen fun _ _ h => h.putD

theorem Canonical.rvObserve (h : Canonical s) {f b} : Canonical (s.rvObserve f b) := h.acquire.modFibre

theorem Canonical.execBwait (h : Canonical s) {o} : Kept (execBwait o s) :=
  h.runLanes fun _ _ _ h => h.rvObserve.ite (h.raise.ite h.waitAt)

theorem Canonical.execBsync (h : Canonical s) {o} : Kept (execBsync o s) :=
  h.runLanes fun _ _ _ h => h.arriveThen fun _ _ h => h.rvObserve.putD.ite h.waitAt

theorem Canonical.execBtest (h : Canonical s) {o} : Kept (execBtest o s) :=
  h.runLanes fun _ _ _ h => h.rvObserve.putD.ite (h.raise.ite h.putD)

theorem Canonical.execHbar (h : Canonical s) {o} : Kept (execHbar o s) :=
  h.runLanes fun _ _ _ h => h.raise.ite (h.afterRelease (fun _ h => h.waitAt.recheckHbar))

/-! ### Machine/Float.lean -/

theorem Canonical.fpRun (h : Canonical s) {o cls nb nc g} : Canonical (fpRun o cls nb nc g s) :=
  h.runLanes fun _ _ _ h => h.flag.putD

theorem Canonical.execFadd (h : Canonical s) {o} : Kept (execFadd o s) := h.fpRun

theorem Canonical.execFsub (h : Canonical s) {o} : Kept (execFsub o s) := h.fpRun

theorem Canonical.execFmul (h : Canonical s) {o} : Kept (execFmul o s) := h.fpRun

theorem Canonical.execFfma (h : Canonical s) {o} : Kept (execFfma o s) := h.fpRun

theorem Canonical.execFmin (h : Canonical s) {o} : Kept (execFmin o s) := h.fpRun

theorem Canonical.execFmax (h : Canonical s) {o} : Kept (execFmax o s) := h.fpRun

theorem Canonical.execFpred (h : Canonical s) {o} : Kept (execFpred o s) := h.fpRun

theorem Canonical.execFclass (h : Canonical s) {o} : Kept (execFclass o s) := h.fpRun

theorem Canonical.execFrcp (h : Canonical s) {o} : Kept (execFrcp o s) := h.fpRun

theorem Canonical.execFrsq (h : Canonical s) {o} : Kept (execFrsq o s) := h.fpRun

theorem Canonical.execFsqrt (h : Canonical s) {o} : Kept (execFsqrt o s) := h.fpRun

theorem Canonical.execFex2 (h : Canonical s) {o} : Kept (execFex2 o s) := h.fpRun

theorem Canonical.execFlg2 (h : Canonical s) {o} : Kept (execFlg2 o s) := h.fpRun

theorem Canonical.execFtanh (h : Canonical s) {o} : Kept (execFtanh o s) := h.fpRun

theorem Canonical.execV2add (h : Canonical s) {o} : Kept (execV2add o s) := h.fpRun

theorem Canonical.execV2mul (h : Canonical s) {o} : Kept (execV2mul o s) := h.fpRun

theorem Canonical.execV2fma (h : Canonical s) {o} : Kept (execV2fma o s) := h.fpRun

theorem Canonical.execFdot4 (h : Canonical s) {o} : Kept (execFdot4 o s) := h.runLanes fun _ _ _ h => h.flag.putD

theorem Canonical.execIdot4 (h : Canonical s) {o} : Kept (execIdot4 o s) := h.fpRun

theorem Canonical.execFstat (h : Canonical s) {o} : Kept (execFstat o s) := h.runLanes fun _ _ _ h => h.putD.clearFlags

/-! ### Machine/Convert.lean -/

theorem Canonical.execFcvt (h : Canonical s) {o} : Kept (execFcvt o s) := h.fpRun

theorem Canonical.execIcvt (h : Canonical s) {o} : Kept (execIcvt o s) := h.runLanes fun _ _ _ h => h.flag.putD

theorem Canonical.execScaleq (h : Canonical s) {o} : Kept (execScaleq o s) := h.runBatch fun _ _ h => h.foldl fun _ _ h => h.putD

theorem Canonical.execMfpack (h : Canonical s) {o} : Kept (execMfpack o s) := h.runLanes fun _ _ _ h => h.flag.putD

theorem Canonical.execMfunpk (h : Canonical s) {o} : Kept (execMfunpk o s) := h.fpRun

/-! ### Machine/Paging.lean -/

theorem Canonical.modFrame (h : Canonical s) {n g} : Canonical (s.modFrame n g) := h.setFrames

theorem Canonical.setPte (h : Canonical s) {pte v} : Canonical (s.setPte pte v) := h.tableWrite

theorem Canonical.drain (h : Canonical s) {base size} : Canonical (s.drain base size) :=
  h.performReqs.foldl fun _ _ h => h.foldl fun _ _ h => h.flushSector

theorem Canonical.discardLines (h : Canonical s) {base size} : Canonical (s.discardLines base size) := h.frame

theorem Canonical.dropLines (h : Canonical s) {ctx va size} : Canonical (s.dropLines ctx va size) := h.setCores

theorem Canonical.releaseFrames (h : Canonical s) {l} : Canonical (s.releaseFrames l) :=
  h.discardLines.foldl fun _ _ h => h.modFrame

theorem Canonical.shoot (h : Canonical s) {ctx va l} : Canonical (s.shoot ctx va l) := h.tlbDrop.drain.dropLines

theorem Canonical.fillFrames (h : Canonical s) {key base size m} : Canonical (s.fillFrames key base size m) :=
  { h with dram := Memory.wf_paste h.dram _ _ _ }

theorem Canonical.recallFrames (h : Canonical s) {key base size} : Canonical (s.recallFrames key base size) :=
  h.foldl fun _ _ h => h.recallSector

theorem Canonical.copyFrames (h : Canonical s) {key from_ dest size} : Canonical (s.copyFrames key from_ dest size) :=
  h.recallFrames.fillFrames

theorem Canonical.claimFrames (h : Canonical s) {ctx frames} : Canonical (s.claimFrames ctx frames) :=
  h.foldl fun _ _ h => h.modFrame

theorem Canonical.makeResident (h : Canonical s) {ctx va frame} : Canonical (s.makeResident ctx va frame) := by
  unfold State.makeResident
  dsimp only
  split
  · exact h
  · exact h.ite h.claimFrames.fillFrames.setPte.tlbDrop

/-! ### Machine/MemInstr.lean -/

theorem Canonical.beforeRead (h : Canonical s) {ln o k} (hk : ∀ s, Canonical s → Canonical (k s)) :
    Canonical (beforeRead s ln o k) :=
  (h.releaseActs.stall.ite (hk _ h.releaseActs)).ite (hk _ h)

theorem Canonical.beforeWrite (h : Canonical s) {ln o k} (hk : ∀ s, Canonical s → Canonical (k s)) :
    Canonical (beforeWrite s ln o k) :=
  (h.afterRelease (fun _ h => hk _ h)).ite (hk _ h)

theorem Canonical.afterAccess (h : Canonical s) {ln o} : Canonical (afterAccess s ln o) :=
  (h.arriveBefore.ite h).thenDo fun h => h.acquire

theorem Canonical.startLoad (h : Canonical s) {ln o loc r bs} : Canonical (s.startLoad ln o loc r bs) := h.modFibre

theorem Canonical.execLd (h : Canonical s) {o} : Kept (execLd o s) := by
  refine h.runChecked fun _ _ _ _ h => ?_
  split
  · split
    · next e => exact (of_pair h.touchHandle.readNow e).stop
    · next e => exact (of_pair h.touchHandle.readNow e).startLoad
  · refine h.beforeRead fun _ h => ?_
    split
    · next e => exact (of_pair h.touchHandle.readLoc e).stop
    · next e => exact (of_pair h.touchHandle.readLoc e).afterAccess.putD

theorem Canonical.storeAt (h : Canonical s) {o ln a how bs} : Canonical (storeAt o ln a how bs s) := by
  unfold Machine.storeAt
  refine h.beforeWrite fun _ h => ?_
  split
  · next e1 => exact (of_pair h.touchHandle.writeLoc e1).stop
  · next e1 => exact (of_pair h.touchHandle.writeLoc e1).afterAccess

theorem Canonical.execSt (h : Canonical s) {o} : Kept (execSt o s) := h.runChecked fun _ _ _ _ h => h.storeAt

theorem Canonical.execStl (h : Canonical s) {o} : Kept (execStl o s) := h.runChecked fun _ _ _ _ h => h.storeAt

theorem Canonical.execLdq (h : Canonical s) {o} : Kept (execLdq o s) :=
  h.runChecked fun _ _ _ _ h => (h.touchHandle.releaseActs.stall.ite h.touchHandle.releaseActs.modFibre).ite h.touchHandle.modFibre

theorem Canonical.prefAt (h : Canonical s) {o f hnd off} : Canonical (prefAt o f hnd off s) := by
  unfold Machine.prefAt
  dsimp only
  split
  · exact h
  · split
    · split
      · exact h
      · split
        · exact h
        · split
          · exact h.fillBytes
          · split
            · exact h.l1Read
            · exact h
    · exact h

theorem Canonical.execPref (h : Canonical s) {o} : Kept (execPref o s) := h.runLanes fun _ _ _ h => h.stall.ite h.prefAt

theorem Canonical.hresAt (h : Canonical s) {f fin} : Canonical (s.hresAt f fin).2 := by
  unfold State.hresAt
  dsimp only
  split
  · exact h
  · exact h
  · split
    · exact h
    · split
      · exact h
      · split
        · exact h.makeResident
        · exact h

theorem Canonical.execHres (h : Canonical s) {o} : Kept (execHres o s) :=
  h.runChecked fun _ _ _ _ h => h.hresAt.putD

theorem Canonical.rangeRun (h : Canonical s) {o act after} (hact : ∀ c k s, Canonical s → Canonical (act c k s))
    (hafter : ∀ c pa n s, Canonical s → Canonical (after c pa n s)) : Canonical (rangeRun o act after s) := by
  unfold Machine.rangeRun
  refine h.runChecked fun _ _ _ _ h => ?_
  dsimp only
  split
  · exact h.putD
  · exact h.arriveBefore.stall.ite
      (((h.arriveBefore.foldl fun _ _ h => hact _ _ _ h).foldl fun _ _ h => hafter _ _ _ _ h).branch (fun h => h.stall)
        fun h => h.putD)

theorem Canonical.execWbr (h : Canonical s) {o} : Kept (execWbr o s) := h.rangeRun (fun _ _ _ h => h.writeBack) fun _ _ _ _ h => h

theorem Canonical.dropCopies (h : Canonical s) {d pa n} : Canonical (s.dropCopies d pa n) := h.modDie

theorem Canonical.execInvr (h : Canonical s) {o} : Kept (execInvr o s) :=
  h.rangeRun (fun _ _ _ h => h.flushSector) fun _ _ _ _ h => h.dropCopies

/-! ### Machine/Queues.lean -/

theorem Canonical.execQueueEntryArrival (h : Canonical s) {fib q index} : Kept (execQueueEntryArrival fib q index s) := by
  unfold Machine.execQueueEntryArrival
  dsimp only
  split
  · exact h
  · exact h.ite (h.arriveBefore.ite h.arriveBefore.arriveEntry)

theorem Canonical.markRaised (h : Canonical s) {ln q} : Canonical (s.markRaised ln q) := h.modFibre

theorem Canonical.execQpop (h : Canonical s) {o} : Kept (execQpop o s) := by
  unfold Machine.execQpop
  refine h.runBatch fun _ _ h => h.foldl fun _ _ h => ?_
  dsimp only
  split
  · exact (h.markRaised.ite h).raise
  · exact h.stall
  · exact h.waitAt
  · exact h.modFibre.putD.modFibre.ite h.modFibre.putD

theorem Canonical.execQstat (h : Canonical s) {o} : Kept (execQstat o s) := h.runLanes fun _ _ _ h => h.putD

theorem Canonical.execTktest (h : Canonical s) {o} : Kept (execTktest o s) := by
  unfold Machine.execTktest
  refine h.runLanes fun _ _ _ h => ?_
  split
  · exact h
  · exact h.putD.ite h.acquire.putD

/-! ### Machine/Atomics.lean -/

theorem Canonical.retryFibre (h : Canonical s) {f} : Canonical (s.retryFibre f) := h.modFibre.setIssue

theorem Canonical.retryLaunch (h : Canonical s) {f} : Canonical (s.retryLaunch f) := (h.foldl (fun _ _ h => h.modFibre)).setIssue

theorem Canonical.atomOnchip (h : Canonical s) {n g p} : Canonical (atomOnchip n g p s).2 := by
  unfold Machine.atomOnchip
  dsimp only
  split
  · exact h
  · exact h.placeWrite

theorem Canonical.atomHome (h : Canonical s) {c x n comm g} : Canonical (atomHome c x n comm g s).2 := by
  unfold Machine.atomHome
  dsimp only
  split
  · split
    · split
      · exact h
      · exact h.flushSector
    · refine (Canonical.dramWrite ?_).copyUpdate.touchWatch
      split
      · exact h
      · exact h.flushSector
  · exact h.homeAtom

theorem Canonical.atomAt (h : Canonical s) {f a n comm g} : Canonical (atomAt f a n comm g s).2 := by
  unfold Machine.atomAt
  dsimp only
  split
  · exact h.arriveAt
  · split
    · split
      · next e2 => exact of_pair h.arriveAt.translate e2
      · next e2 =>
        replace h := of_pair h.arriveAt.translate e2
        split
        · next e3 => exact of_pair h.resolve e3
        · next e3 => exact (of_pair h.resolve e3).storeFault
        · next e3 =>
          replace h := of_pair h.resolve e3
          split
          · exact h
          · exact h.atomHome.seeHome
    · split
      · exact h.arriveAt
      · exact h.arriveAt.atomOnchip

theorem Canonical.atomRun (h : Canonical s) {o nc comm g} : Canonical (atomRun o nc comm g s) := by
  refine h.runChecked fun _ _ _ _ h => h.beforeWrite fun _ h => ?_
  split
  · next e => exact (of_pair h.touchHandle.atomAt e).stop
  · next e => exact (of_pair h.touchHandle.atomAt e).afterAccess.putD

theorem Canonical.execAtom (h : Canonical s) {o} : Kept (execAtom o s) := h.atomRun

theorem Canonical.execAcas (h : Canonical s) {o} : Kept (execAcas o s) := h.atomRun

theorem Canonical.commGather (h : Canonical s) {c x op} : (commGather c x op s).elim True Canonical := by
  unfold Machine.commGather
  dsimp only
  split
  · exact h.setL1
  · split
    · exact trivial
    · split
      · next e2 => exact (of_some h.flushSector.allocate e2).setL1
      · split
        · exact trivial
        · exact h.flushSector.homeAtom

theorem Canonical.redGlob (h : Canonical s) {o ln a va x v} : Canonical (redGlob o ln a va x v s) := by
  unfold Machine.redGlob
  dsimp only
  split
  · split
    · exact h.arriveAt.stall
    · split
      · next e2 => exact (of_pair h.arriveAt.resolve e2).stall
      · next e2 => exact (of_pair h.arriveAt.resolve e2).storeFault
      · next e2 =>
        replace h := of_pair h.arriveAt.resolve e2
        split
        · next e3 => exact of_some h.commGather e3
        · exact h.stall
  · exact h.sendReq

theorem Canonical.redAt (h : Canonical s) {o ln a v} : Canonical (redAt o ln a v s) := by
  unfold Machine.redAt
  dsimp only
  split
  · split
    · next e1 => exact (of_pair h.translate e1).stop
    · next e1 => exact (of_pair h.translate e1).redGlob
  · split
    · exact h.arriveAt.stall
    · split
      · exact h.arriveAt.raise
      · exact h.arriveAt.atomOnchip

theorem Canonical.execRed (h : Canonical s) {o} : Kept (execRed o s) :=
  h.runChecked fun _ _ _ _ h => h.beforeWrite fun _ h => h.touchHandle.redAt

theorem Canonical.execFence (h : Canonical s) {o} : Kept (execFence o s) := by
  refine h.runLanes fun ln _ s h => ?_
  extract_lets acq
  have hacq : ∀ s, Canonical s → Canonical (acq s) := fun _ h => (h.arriveBefore.stall.ite h.arriveBefore.acquire).ite h
  exact (h.afterRelease hacq).ite (hacq _ h)

theorem Canonical.freeWatch (h : Canonical s) {f} : Canonical (s.freeWatch f) := h.modCore

theorem Canonical.wlineAt (h : Canonical s) {o ln a e} : Canonical (wlineAt o ln a e s) := by
  unfold Machine.wlineAt
  split
  · next hr => exact (of_pair h.readLoc hr).stall
  · next hr => exact (of_pair h.readLoc hr).freeWatch.raise
  · next hr =>
    have hr := of_pair h.readLoc hr
    refine .ite hr.freeWatch.afterAccess.putD ?_
    dsimp only
    split
    · exact hr.modCore.waitAt
    · exact hr.putD

theorem Canonical.execWline (h : Canonical s) {o} : Kept (execWline o s) := h.runChecked fun _ _ _ _ h => h.touchHandle.wlineAt

theorem Canonical.execWatchSlotTrigger (h : Canonical s) {core fib} : Kept (execWatchSlotTrigger core fib s) :=
  h.modCore.retryFibre.ite h

/-! ### Machine/Capsules.lean -/

theorem Canonical.mailboxErr (h : Canonical s) {f mb} : Canonical (mailboxErr s f mb).2 := by
  unfold Machine.mailboxErr
  split
  · exact h
  · split <;> next e1 => exact of_pair h.arriveAt.translate e1

theorem Canonical.enterCapsule (h : Canonical s) {f hnd ckpt pc} : Canonical (s.enterCapsule f hnd ckpt pc) := h.modFibre

theorem Canonical.capenterAt (h : Canonical s) {o ln va mb x} : Canonical (capenterAt o ln va mb x s) := by
  unfold Machine.capenterAt
  dsimp only
  split
  · exact h.stall
  · split
    · exact h.capRead.raise
    · split
      · exact h.capRead.capWrite.capWrite.mailboxWrite.acquire.modFibre.enterCapsule
      · exact h.capRead.capWrite.acquire.enterCapsule
      · exact h.capRead.modFibre

theorem Canonical.execCapenter (h : Canonical s) {o} : Kept (execCapenter o s) := by
  refine h.runChecked fun _ _ _ _ h => ?_
  dsimp only
  split
  · next e => exact (of_pair h.touchHandle.arriveAt.capXl e).stop
  · next e =>
    have hx := of_pair h.touchHandle.arriveAt.capXl e
    split
    · next e' => exact (of_pair hx.mailboxErr e').stop
    · next e' => exact (of_pair hx.mailboxErr e').capenterAt

theorem Canonical.leaveCapsule (h : Canonical s) {f hnd r st} : Canonical (s.leaveCapsule f hnd r st) := h.modFibre

theorem Canonical.mailboxRead (h : Canonical s) {f hnd} : Canonical (s.mailboxRead f hnd).2 := by
  unfold State.mailboxRead
  split
  · exact h
  · split
    · next e1 => exact of_pair h.arriveAt.translate e1
    · next e1 =>
      replace h := of_pair h.arriveAt.translate e1
      split
      · exact h
      · split
        · next e3 => split <;> exact of_pair h.flushSector.seeHome.homeRead e3

theorem Canonical.displacedDone (h : Canonical s) {f hnd} : (s.displacedDone f hnd).elim True Canonical := by
  unfold State.displacedDone
  split
  · exact h.leaveCapsule
  · split
    · exact trivial
    · split
      · exact trivial
      · next e2 =>
        replace h := of_pair h.mailboxRead e2
        refine (Canonical.acquire ?_).leaveCapsule
        split
        · next e4 =>
          replace h := of_pair h.capXl e4
          split
          · exact h
          · exact h.flushSector.seeHome.recallSector
        · next e4 => exact of_pair h.capXl e4

theorem Canonical.displaced (h : Canonical s) {ln hnd} : Canonical (s.displaced ln hnd) := by
  unfold State.displaced
  split
  · next e => exact of_some h.displacedDone e
  · exact h.waitAt

theorem Canonical.leaveThen (h : Canonical s) {ln hnd k} (hk : ∀ s, Canonical s → Canonical (k s)) :
    Canonical (leaveThen ln hnd k s) := by
  unfold Machine.leaveThen
  split
  · exact hk _ h
  · exact h.waitAt

theorem Canonical.tenureRun (h : Canonical s) {ln held off k} (hk : ∀ x w bs s, Canonical s → Canonical (k x w bs s)) :
    Canonical (tenureRun ln held off k s) := by
  unfold Machine.tenureRun
  refine h.stall.ite ?_
  split
  · next e => exact (of_pair h.arriveAt.arriveAt.capXl e).stop
  · next e =>
    have hx := of_pair h.arriveAt.arriveAt.capXl e
    refine hx.stall.ite ?_
    split
    next e' =>
      have hr := of_pair hx.capRead e'
      dsimp only
      split
      · exact hr.leaveThen fun _ h => h.leaveCapsule
      · exact hr.leaveThen fun _ h => h.displaced
      · exact hk _ _ _ _ hr

theorem Canonical.execCstep (h : Canonical s) {o} : Kept (execCstep o s) := by
  unfold Machine.execCstep
  refine h.runLanes fun _ _ _ h => ?_
  dsimp only
  split
  · exact h.raise.ite (h.tenureRun (fun _ _ _ _ h => h.raise.ite h.capWrite.capWrite.capWrite.capWrite.modFibre))
  · exact h.raise

theorem Canonical.exitAnswer (h : Canonical s) {f hnd mb r} : (exitAnswer f hnd mb r s).elim True Canonical := by
  unfold Machine.exitAnswer
  split
  · next e => exact (of_pair h.arriveAt.translate e).logCtx
  · next e =>
    split
    · exact trivial
    · exact (of_pair h.arriveAt.translate e).mailboxWrite

theorem Canonical.execCapexit (h : Canonical s) {o} : Kept (execCapexit o s) := by
  refine h.runLanes fun _ _ _ h => ?_
  split
  · refine h.tenureRun fun _ _ _ _ h => h.leaveThen fun _ h => h.afterRelease fun _ h => ?_
    split
    · exact h.stall
    · next e =>
      refine .leaveCapsule (.capWrite ?_)
      split at e
      · exact of_some h.exitAnswer e
      · cases e; exact h
  · exact h.raise

theorem Canonical.execCapreset (h : Canonical s) {o} : Kept (execCapreset o s) := by
  refine h.runChecked fun _ _ _ _ h => ?_
  dsimp only
  split
  · next e => exact (of_pair h.touchHandle.arriveAt.capXl e).stop
  · next e =>
    have hx := of_pair h.touchHandle.arriveAt.capXl e
    exact hx.stall.ite (hx.capRead.capWrite.putD.ite hx.capRead.putD)

/-! ### Machine/Engine.lean -/

theorem Canonical.runElect (h : Canonical s) {n body} (hbody : ∀ ln v s, Canonical s → Canonical (body ln v s)) :
    Canonical (runElect n body s) := by
  unfold Machine.runElect
  dsimp only
  split
  · exact h
  · exact ((h.foldl (fun _ _ h => h.settleLane)).foldl (fun _ _ h => h.tokenAcquires)).foldl fun _ _ h => hbody _ _ _ h

theorem Canonical.runElectChecked (h : Canonical s) {α : Type} {n : Need} {prep : Ln → Vals → State → Prep α}
    {body : Ln → Vals → α → State → State} (hbody : ∀ ln v x s, Canonical s → Canonical (body ln v x s)) :
    Canonical (runElectChecked n prep body s) := by
  refine h.runElect fun _ _ _ h => ?_
  split
  · exact h.raise
  · exact h.stall
  · exact h.waitAt
  · exact hbody _ _ _ _ h

theorem Canonical.addCmd (h : Canonical s) {c} : Canonical (s.addCmd c) := h.setCmds.modMod

theorem Canonical.issueThen (h : Canonical s) {ln c act} (hact : ∀ s, Canonical s → Canonical (act s)) :
    Canonical (issueThen s ln c act) :=
  h.waitAt.ite (h.stall.ite (h.afterRelease (fun _ h => hact _ h.touchHandle.touchHandle.tokOpen)))

theorem Canonical.issueCmd (h : Canonical s) {ln c} : Canonical (issueCmd s ln c) := h.issueThen fun _ h => h.addCmd

theorem Canonical.engXlate (h : Canonical s) {u ctx va w} : Canonical (s.engXlate u ctx va w).2 := by
  unfold State.engXlate
  split
  · next e => exact of_pair h.translate e
  · next e => exact (of_pair h.translate e).resolve

theorem Canonical.freshFor (h : Canonical s) {c core pa key} : Canonical (freshFor s c core pa key) := by
  unfold Machine.freshFor
  split
  · exact h.delL1.ite h
  · exact h

theorem Canonical.engRead (h : Canonical s) {c d off n} : Canonical (s.engRead c d off n).2 := by
  unfold State.engRead
  dsimp only
  split
  · split
    · next e1 => exact of_pair h.engXlate e1
    · next e1 =>
      replace h := of_pair h.engXlate e1
      split
      · split
        · exact h
        · dsimp only
          exact h.homeRead
      · split
        · split
          · exact h
          · exact h.homeReadBy
        · split
          · exact h.freshFor
          · exact h.freshFor.l1Read
  · split <;> exact h

theorem Canonical.engWrite (h : Canonical s) {c d off bs} : Canonical (s.engWrite c d off bs).2 := by
  unfold State.engWrite
  dsimp only
  split
  · split
    · next e1 => exact of_pair h.engXlate e1
    · next e1 =>
      replace h := of_pair h.engXlate e1
      split
      · split
        · exact h
        · exact h.flushSector.homeWrite.modDie
      · split
        · exact h
        · next e3 => exact (of_some h.perform e3).noteCodeStore
  · split
    · exact h
    · exact h.placeWrite

theorem Canonical.engReads (h : Canonical s) {c d fuel off n acc} : Canonical (s.engReads c d fuel off n acc).2 := by
  induction fuel generalizing s off n acc with
  | zero => exact h
  | succ fuel ih =>
    unfold State.engReads
    dsimp only
    split
    · exact h
    · split
      · next e => exact ih (of_pair h.engRead e)
      · exact h.engRead

theorem Canonical.engWrites (h : Canonical s) {c d fuel off bs} : Canonical (s.engWrites c d fuel off bs).2 := by
  induction fuel generalizing s off bs with
  | zero => exact h
  | succ fuel ih =>
    unfold State.engWrites
    dsimp only
    split
    · exact h
    · split
      · next e => exact ih (of_pair h.engWrite e)
      · exact h.engWrite

theorem Canonical.cmdRelease (h : Canonical s) {c} : Canonical (s.cmdRelease c) := h.writeBackAll.ite h

theorem Canonical.endCmd (h : Canonical s) {id c} : Canonical (s.endCmd id c) := h.setCmds.tokClose

theorem Canonical.setCmd (h : Canonical s) {id c} : Canonical (s.setCmd id c) := h.setCmds

theorem Canonical.beginCmd (h : Canonical s) {c} : Canonical (s.beginCmd c) := h.acquireCore.ite h

theorem Canonical.fixPage (h : Canonical s) {c d off frame} : Canonical (s.fixPage c d off frame) := by
  unfold State.fixPage
  split
  · split
    · exact h.makeResident
    · exact h
  · exact h

/-! ### Machine/Copy.lean -/

theorem Canonical.execCpy (h : Canonical s) {o} : Kept (execCpy o s) := h.runChecked fun _ _ _ _ h => h.issueCmd

theorem Canonical.execCpyt (h : Canonical s) {o} : Kept (execCpyt o s) := h.runElectChecked fun _ _ _ _ h => h.issueCmd

theorem Canonical.execGath (h : Canonical s) {o} : Kept (execGath o s) := h.runElectChecked fun _ _ _ _ h => h.issueCmd

theorem Canonical.execScat (h : Canonical s) {o} : Kept (execScat o s) := h.runElectChecked fun _ _ _ _ h => h.issueCmd

theorem Canonical.readAhead (h : Canonical s) {c ps} : Canonical (s.readAhead c ps).2 := by
  induction ps generalizing s c with
  | nil => exact h
  | cons p ps ih =>
    unfold State.readAhead
    split
    · exact ih h
    · split
      · exact ih h
      · split <;> next e => exact ih (of_pair h.engRead e)

theorem Canonical.readRuns (h : Canonical s) {c rs acc z} : Canonical (s.readRuns c rs acc z).2 := by
  induction rs generalizing s acc z with
  | nil => exact h
  | cons r rs ih =>
    unfold State.readRuns
    dsimp only
    split
    · exact ih h
    · split
      · next e => exact ih (of_pair h.engRead e)
      · next e =>
        replace h := of_pair h.engRead e
        split
        · exact ih h
        · exact h
      · next e => exact of_pair h.engRead e
      · next e => exact of_pair h.engRead e

theorem Canonical.writeRuns (h : Canonical s) {c rs n z} : Canonical (s.writeRuns c rs n z).2 := by
  induction rs generalizing s n z with
  | nil => exact h
  | cons r rs ih =>
    unfold State.writeRuns
    dsimp only
    split
    · next e => exact ih (of_pair h.engWrite e)
    all_goals next e => exact of_pair h.engWrite e

theorem Canonical.doSegment (h : Canonical s) {c rs} : Canonical (s.doSegment c rs).2.2 := by
  unfold State.doSegment
  split
  · exact h
  · split
    · next e1 => exact of_pair h.readRuns e1
    · next e1 => exact (of_pair h.readRuns e1).readAhead.writeRuns

theorem Canonical.fire (h : Canonical s) {t n} : (s.fire t n).elim True (Canonical ·.2) := by
  unfold State.fire
  dsimp only
  split
  · exact h
  · split
    · split
      · exact h
      · split
        · exact trivial
        · exact h.addCmd
    · exact h

theorem Canonical.finishCopy (h : Canonical s) {id c} : Canonical (s.finishCopy id c) := by
  unfold State.finishCopy
  dsimp only
  split
  · exact h.cmdRelease.setCmd
  · split
    · exact h.cmdRelease.endCmd
    · split
      · exact h.cmdRelease.setCmd
      · next e2 => exact (of_some h.cmdRelease.fire e2).endCmd

theorem Canonical.segStep (h : Canonical s) {act : SegAct} (hact : ∀ c now s, Canonical s → Canonical (act c now s).2.2) {c} :
    Canonical (s.segStep act c).2 := by
  unfold State.segStep
  split
  · dsimp only
    split
    · exact h
    · split
      · exact h
      · split <;> next e => exact of_pair2 (hact _ _ _ h) e
  · split
    · exact h
    · dsimp only
      split <;> next e => exact of_pair2 (hact _ _ _ h) e

theorem Canonical.startCmd (h : Canonical s) {c} : Canonical (s.startCmd c).2 := by
  unfold State.startCmd
  split
  · exact h
  · exact h.beginCmd

theorem Canonical.execCopySegment (h : Canonical s) {cmd} : Kept (execCopySegment cmd s) := by
  unfold Machine.execCopySegment
  split
  · exact h
  · split
    · exact h
    · split
      · next e2 =>
        replace h := of_pair h.startCmd e2
        split
        · next e3 =>
          replace h := of_pair (h.segStep (fun _ _ _ h => h.doSegment)) e3
          exact h.finishCopy.ite h.setCmd

/-! ### Machine/Network.lean -/

theorem Canonical.execXput (h : Canonical s) {o} : Kept (execXput o s) := h.runChecked fun _ _ _ _ h => h.issueCmd

theorem Canonical.execXget (h : Canonical s) {o} : Kept (execXget o s) := h.runChecked fun _ _ _ _ h => h.issueCmd

theorem Canonical.execXred (h : Canonical s) {o} : Kept (execXred o s) := h.runChecked fun _ _ _ _ h => h.issueCmd

theorem Canonical.combineAt (h : Canonical s) {c pieces n g} : Canonical (s.combineAt c pieces n g) := by
  unfold State.combineAt
  refine Canonical.foldlSnd (p := (0, _)) (Canonical.foldlSnd (p := ([], _)) (h.foldl fun _ _ h => h.flushSector) fun _ _ h => ?_)
    fun _ _ h => ?_
  · exact h.recallSector
  · exact h.homeWrite.modDie

theorem Canonical.doReduce (h : Canonical s) {c p op ty} : Canonical (s.doReduce c p op ty).2.2 := by
  unfold State.doReduce
  dsimp only
  split
  · next e => exact of_pair h.engReads e
  · next e => exact of_pair h.engReads e
  · next e => exact of_pair h.engReads e
  · next e =>
    replace h := of_pair h.engReads e
    split
    · split
      · next e2 => split <;> exact of_pair h.translateRange e2
      · next e2 =>
        replace h := of_pair h.translateRange e2
        split
        · exact h
        · dsimp only
          exact h.readAhead.combineAt
    · exact h

theorem Canonical.nearSegment (h : Canonical s) {frame c rs} : Canonical (s.nearSegment frame c rs).2.2 := by
  unfold State.nearSegment
  dsimp only
  split
  · exact h
  · split
    · split
      · next e2 =>
        replace h := of_pair h.fixPage.translateRange e2
        split
        · exact h.logCtx
        · exact h
      · next e2 =>
        replace h := of_pair h.fixPage.translateRange e2
        split
        · exact h.doReduce
        · exact h.doSegment
    · exact h.fixPage

theorem Canonical.farSegment (h : Canonical s) {reply c rs} : Canonical (s.farSegment reply c rs).2.2 := by
  unfold State.farSegment
  dsimp only
  split
  · exact h
  · split
    · exact h
    · exact h
    · exact h
    · exact h
    · split
      · split <;> next e3 => exact of_pair h.engWrite e3
      · split <;> next e3 => exact of_pair h.engReads e3

theorem Canonical.execNetworkSegment (h : Canonical s) {cmd reply frame} : Kept (execNetworkSegment cmd reply frame s) := by
  have hact : ∀ c rs s, Canonical s → Canonical
      (if cmdPkg c.kind = Config.pkgNumber % 16384 then s.nearSegment frame c rs else s.farSegment reply c rs).2.2 := by
    intro c rs s h
    split
    · exact h.nearSegment
    · exact h.farSegment
  unfold Machine.execNetworkSegment
  dsimp only
  split
  · exact h
  · split
    · exact h
    · split
      · exact (h.startCmd.segStep hact).cmdRelease.branch (fun h => h.setCmd) fun h => h.endCmd
      · exact (h.startCmd.segStep hact).setCmd

/-! ### Machine/Matrix.lean -/

theorem Canonical.setAcc (h : Canonical s) {t tile ws} : Canonical (s.setAcc t tile ws) := h.modCore

theorem Canonical.contain (h : Canonical s) {t tile src k i j} : Canonical (s.contain t tile src k i j) := h.modMod.modCore

theorem Canonical.clearBad (h : Canonical s) {site} : Canonical (s.clearBad site) := h.modMod

theorem Canonical.readAcc (h : Canonical s) {t tile i j} : Canonical (s.readAcc t tile i j).2 := by
  unfold State.readAcc
  dsimp only
  split
  · exact h.contain.clearBad
  · exact h

theorem Canonical.execWload (h : Canonical s) {o} : Kept (execWload o s) :=
  h.runElectChecked fun _ _ _ _ h => h.issueThen fun _ h => h.modCore.addCmd

theorem Canonical.wloadSegment (h : Canonical s) {c rs} : Canonical (s.wloadSegment c rs).2 := by
  unfold State.wloadSegment
  dsimp only
  split
  · next e => exact (of_pair h.engRead e).modCore
  · next e => exact of_pair h.engRead e
  · next e => exact of_pair h.engRead e
  · next e => exact (of_pair h.engRead e).modCore

theorem Canonical.execWloadCommand (h : Canonical s) {cmd} : Kept (execWloadCommand cmd s) := by
  unfold Machine.execWloadCommand
  dsimp only
  split
  · exact h
  · split
    · exact h.ite ((h.startCmd.segStep fun _ _ _ h => h.wloadSegment).branch (fun h => h.endCmd) fun h => h.setCmd)
    · exact h

theorem Canonical.execMma (h : Canonical s) {o} : Kept (execMma o s) := h.runElectChecked fun _ _ _ _ h => h.issueCmd

theorem Canonical.execMmas (h : Canonical s) {o} : Kept (execMmas o s) := h.runElectChecked fun _ _ _ _ h => h.touchHandle.modTeam

theorem Canonical.execMmasClr (h : Canonical s) {o} : Kept (execMmasClr o s) := h.runElect fun _ _ _ h => h.modTeam

theorem Canonical.elemA (h : Canonical s) {c tile row k kcmd i} : Canonical (s.elemA c tile row k kcmd i).2 := by
  unfold State.elemA
  dsimp only
  split
  · exact h
  · split
    · exact h.contain.foldl fun _ _ h => h.clearBad
    · exact h

theorem Canonical.colB (h : Canonical s) {c tile slot fmt n g j} : Canonical (s.colB c tile slot fmt n g j).2 := by
  unfold State.colB
  dsimp only
  refine Canonical.foldlSnd (p := ([], s)) h fun _ _ h => .iteSnd ?_ h
  dsimp only
  exact h.contain.foldl fun _ _ h => h.clearBad

theorem Canonical.setDerr (h : Canonical s) {t tile} : Canonical (s.setDerr t tile) := h.modCore

theorem Canonical.gather (h : Canonical s) {α : Type} {n : Nat} {f : State → Nat → α × State}
    (hf : ∀ s i, Canonical s → Canonical (f s i).2) : Canonical (gather n s f).2 :=
  h.foldlSnd fun _ _ h => hf _ _ h

theorem Canonical.groupRead (h : Canonical s) {c k} : Canonical (s.groupRead c k).2 := by
  unfold State.groupRead
  dsimp only
  split
  · split
    · exact h.elemA
    · split
      · exact h
      · split
        · next e3 => exact of_pair h.engReads e3
        · next e3 => exact (of_pair h.engReads e3).setDerr
        · next e3 => exact of_pair h.engReads e3
        · next e3 => exact of_pair h.engReads e3
  · exact h

theorem Canonical.mmaGroup (h : Canonical s) {c} : Canonical (s.mmaGroup c) := by
  have hcols : ∀ f, (∀ s i, Canonical s → Canonical (f s i).2) →
      Canonical (Machine.gather (α := List BElem × Nat) 128 s f).2 := fun _ hf => h.gather hf
  unfold State.mmaGroup
  generalize Machine.gather 128 s = cols at hcols ⊢
  revert cols
  refine id fun cols hcols => ?_
  dsimp only
  split
  · refine (hcols _ fun _ _ h => h.colB).foldl fun _ _ h => ?_
    split
    · exact h.contain.clearBad.setAcc.ite h.setAcc
    · exact h.readAcc.contain.clearBad.setAcc.ite h.readAcc.setAcc
  · exact h

theorem Canonical.execMmaCommand (h : Canonical s) {cmd} : Kept (execMmaCommand cmd s) := by
  unfold Machine.execMmaCommand
  dsimp only
  split
  · exact h
  · split
    · split
      · exact h
      · split
        · exact (h.ite h.beginCmd).groupRead.setCmd
        · exact (h.ite h.beginCmd).mmaGroup.setCmd.ite (h.ite h.beginCmd).mmaGroup.endCmd
    · exact h

theorem Canonical.execAccz (h : Canonical s) {o} : Kept (execAccz o s) := h.runElectChecked fun _ _ _ _ h => h.issueCmd

theorem Canonical.execAcczCommand (h : Canonical s) {cmd} : Kept (execAcczCommand cmd s) := by
  unfold Machine.execAcczCommand
  dsimp only
  split
  · exact h
  · split
    · exact h.ite h.modCore.endCmd
    · exact h

theorem Canonical.execAccld (h : Canonical s) {o} : Kept (execAccld o s) := by
  unfold Machine.execAccld
  refine h.runChecked fun _ _ _ _ h => ?_
  dsimp only
  split
  · exact h.stall
  · exact h.afterRelease fun _ h => (h.gather (fun _ _ h => h.readAcc)).putFrom

theorem Canonical.execAccstat (h : Canonical s) {o} : Kept (execAccstat o s) := by
  unfold Machine.execAccstat
  refine h.runBatch fun _ _ h => ?_
  dsimp only
  split
  · exact h
  · split
    · exact h.raise
    · split
      · exact h.foldl fun _ _ h => h.stall
      · split
        · next e4 => exact (of_pair h.release e4).foldl fun _ _ h => h.stall
        · next e4 => exact (of_pair h.release e4).raise
        · next e4 => exact (of_pair h.release e4).modCore.foldl fun _ _ h => h.putD

theorem Canonical.execAccst (h : Canonical s) {o} : Kept (execAccst o s) := h.runElectChecked fun _ _ _ _ h => h.issueCmd

theorem Canonical.rowWrite (h : Canonical s) {c k} : Canonical (s.rowWrite c k).2 := by
  unfold State.rowWrite
  dsimp only
  split
  · exact h
  · split
    · exact h
    · split <;> next e2 => exact of_pair h.engWrites e2

theorem Canonical.finishAccst (h : Canonical s) {cmd c} : Canonical (s.finishAccst cmd c) :=
  h.cmdRelease.setCmd.ite h.cmdRelease.endCmd

theorem Canonical.execAccstCommand (h : Canonical s) {cmd} : Kept (execAccstCommand cmd s) := by
  unfold Machine.execAccstCommand
  dsimp only
  split
  · exact h
  · split
    · exact h.ite (h.finishAccst.ite
        ((h.gather fun _ _ h => h.readAcc).setCmd.ite (h.rowWrite.branch (fun h => h.finishAccst) fun h => h.setCmd)))
    · exact h

theorem Canonical.execFixupService (h : Canonical s) {cmd frame} : Kept (execFixupService cmd frame s) := by
  unfold Machine.execFixupService
  split
  · exact h
  · split
    · exact h
    · exact h.fixPage

/-! ### Machine/Code.lean -/

theorem Canonical.setRegion (h : Canonical s) {c hnd r} : Canonical (s.setRegion c hnd r) := h.modCtx

theorem Canonical.dropLook (h : Canonical s) {c hnd} : Canonical (s.dropLook c hnd) := h.setCores

theorem Canonical.badLine (h : Canonical s) {f hnd r fuel i} : Canonical (s.badLine f hnd r fuel i).2 := by
  induction fuel generalizing s i with
  | zero => exact h
  | succ fuel ih =>
    unfold State.badLine
    dsimp only
    split
    · next e => exact of_pair h.engXlate e
    · next e =>
      have hx := of_pair h.engXlate e
      split
      · exact hx
      · split
        · exact ih hx.recallSector
        · exact hx.recallSector

theorem Canonical.regionHome (h : Canonical s) {f r} : Canonical (s.regionHome f r) := h.foldl fun _ _ h => h.writeBack

theorem Canonical.publishAt (h : Canonical s) {o ln hnd} : Canonical (publishAt o ln hnd s) := by
  unfold Machine.publishAt
  dsimp only
  split
  · exact h.putD
  · split
    · exact h.arriveBefore.regionHome.stall
    · refine h.arriveBefore.regionHome.afterRelease fun _ h => ?_
      split
      · next e3 => exact (of_pair h.badLine e3).stop
      · next e3 => exact (of_pair h.badLine e3).putD
      · next e3 => exact (of_pair h.badLine e3).setRegion.dropLook.putD

theorem Canonical.execPublish (h : Canonical s) {o} : Kept (execPublish o s) := by
  unfold Machine.execPublish
  refine h.runLanes fun _ _ _ h => ?_
  split
  · exact h.publishAt
  · exact h.raise
  · exact h

theorem Canonical.adoptAt (h : Canonical s) {o ln hnd} : Canonical (adoptAt o ln hnd s) := by
  unfold Machine.adoptAt
  dsimp only
  split
  · exact h.putD
  · split
    · exact h.putD
    · split
      · exact h.putD
      · exact h.modTeam.modCore.acquire.putD

theorem Canonical.execAdopt (h : Canonical s) {o} : Kept (execAdopt o s) := by
  unfold Machine.execAdopt
  refine h.runLanes fun _ _ _ h => ?_
  split
  · exact h.adoptAt
  · exact h.raise
  · exact h

theorem Canonical.execAdoptSpill (h : Canonical s) {o} : Kept (execAdoptSpill o s) :=
  h.runLanes fun _ _ _ h => h.modTeam.putD.ite h.putD

theorem Canonical.retractWait (h : Canonical s) {o ln hnd} : Canonical (retractWait o ln hnd s) :=
  (h.foldl fun _ _ h => h.ite h.modFibre).branch (fun h => h.stall) fun h => h.modFibre.putD

theorem Canonical.retractAt (h : Canonical s) {o ln hnd} : Canonical (retractAt o ln hnd s) := by
  unfold Machine.retractAt
  dsimp only
  split
  · exact h.putD
  · split
    · exact h.putD
    · exact h.setRegion.dropLook.setCores.modFibre.retractWait

theorem Canonical.execRetract (h : Canonical s) {o} : Kept (execRetract o s) := by
  unfold Machine.execRetract
  refine h.runLanes fun _ _ _ h => ?_
  split
  · exact h.retractWait
  · split
    · exact h.retractAt
    · exact h.raise
    · exact h

theorem Canonical.execFbar (h : Canonical s) {o} : Kept (execFbar o s) :=
  h.runLanes fun _ _ _ h => h.releaseActs.stall.ite h.releaseActs.modCore.modFibre

theorem Canonical.execRgnq (h : Canonical s) {o} : Kept (execRgnq o s) := by
  unfold Machine.execRgnq
  refine h.runLanes fun _ _ _ h => ?_
  split
  · exact h.putD
  · exact h.raise
  · exact h

/-! ### Machine/Effects.lean -/

theorem Canonical.dstCode (h : Canonical s) {f code v} : Canonical (s.dstCode f code v) := by
  unfold State.dstCode
  split
  · exact h.modFibre
  · exact h.modFibre
  · exact h

theorem Canonical.recordsFirst (h : Canonical s) : Canonical s.recordsFirst := by
  unfold State.recordsFirst
  split
  · exact h
  · exact h.foldl fun _ _ h => h.laneFirst

theorem Canonical.execHandle (h : Canonical s) {o} : Kept (execHandle o s) :=
  h.recordsFirst.runChecked fun _ _ _ _ h => h.laneWrite.modFibre

theorem Canonical.returnRegion (h : Canonical s) {f r q v} : Canonical (s.returnRegion f r q v) :=
  h.laneWrite.modFibre.dstCode.modFibre

theorem Canonical.popRecord (h : Canonical s) {f r} : Canonical (s.popRecord f r) := h.laneWrite.modFibre

theorem Canonical.execUnhandle (h : Canonical s) {o} : Kept (execUnhandle o s) := by
  unfold Machine.execUnhandle
  refine h.recordsFirst.runChecked fun _ _ _ _ h => ?_
  split
  · exact h.popRecord
  · exact h.returnRegion

theorem Canonical.execPerform (h : Canonical s) {o} : Kept (execPerform o s) :=
  h.runLanes fun _ _ _ h => h.raise.ite h.modFibre.tryDeliver

theorem Canonical.killToken (h : Canonical s) {f rec_} : Canonical (s.killToken f rec_) := h.laneWrite

theorem Canonical.pushReturn (h : Canonical s) {ln o rec_ q g2} : Canonical (s.pushReturn ln o rec_ q g2) :=
  h.laneWrite.ite h.laneWrite.laneWrite

theorem Canonical.execResume (h : Canonical s) {o} : Kept (execResume o s) := by
  unfold Machine.execResume
  refine h.recordsFirst.runChecked fun _ _ _ _ h => (Canonical.resumeFrom ?_)
  split
  · exact h.pushReturn.killToken.ite h.pushReturn
  · exact h.killToken.ite h

theorem Canonical.execUnwind (h : Canonical s) {o} : Kept (execUnwind o s) :=
  h.recordsFirst.runChecked fun _ _ _ _ h => h.killToken.escalate.endFibre.ite h.killToken.unwindTo

theorem Canonical.execEffq (h : Canonical s) {o} : Kept (execEffq o s) := h.recordsFirst.runLanes fun _ _ _ h => h.dstCode

/-! ### Machine/System.lean -/

theorem Canonical.electAll (h : Canonical s) {o n need} {act : Ln → Vals → State → Nat × State}
    (hact : ∀ ln v s, Canonical s → Canonical (act ln v s).2) : Canonical (electAll o n need act s) := by
  unfold Machine.electAll
  refine h.runBatch fun _ _ h => ?_
  split
  · exact h
  · exact (hact _ _ _ h).foldl fun _ _ h => h.putD

theorem Canonical.execSwriteElogclr (h : Canonical s) {o} : Kept (execSwriteElogclr o s) := h.electAll fun _ _ _ h => h.modCore

theorem Canonical.execSwriteLogmark (h : Canonical s) {o} : Kept (execSwriteLogmark o s) := h.electAll fun _ _ _ h => h.logCtx

theorem Canonical.execSwrite (h : Canonical s) {o} : Kept (execSwrite o s) := h.electAll fun _ _ _ h => h

theorem Canonical.execErrqPop (h : Canonical s) {o} : Kept (execErrqPop o s) := by
  unfold Machine.execErrqPop
  refine h.electAll fun _ _ _ h => ?_
  dsimp only
  split
  · exact h
  · exact h.modCore

theorem Canonical.execErrqPeek (h : Canonical s) {o} : Kept (execErrqPeek o s) := h.electAll fun _ _ _ h => h

theorem Canonical.execErrqCnt (h : Canonical s) {o} : Kept (execErrqCnt o s) := h.electAll fun _ _ _ h => h

theorem Canonical.execBkpt (h : Canonical s) {o} : Kept (execBkpt o s) := h.runLanes fun _ _ _ h => h.raise

theorem Canonical.execIsaMissing (h : Canonical s) {w} : Kept (execIsaMissing w s) := by
  unfold Machine.execIsaMissing
  dsimp only
  split
  · exact h
  · exact h.foldl fun _ _ h => h.raise.ite h.pass

/-! ### Machine/Launch.lean -/

theorem Canonical.answer (h : Canonical s) {m rstat data} : Canonical (s.answer m rstat data) := h.modMod

theorem Canonical.submit (h : Canonical s) {c x} : Canonical (s.submit c x) := h.modCtx

theorem Canonical.launchWith (h : Canonical s) {o ln shape blk} : Canonical (launchWith o ln shape blk s) :=
  h.waitAt.ite (h.waitAt.ite (h.afterRelease (fun _ h => h.tokOpen.modFibre.submit)))

theorem Canonical.launchRead (h : Canonical s) {ln a} : Canonical (launchRead ln a s).2 := by
  unfold Machine.launchRead
  split
  · next e => exact (of_pair h.touchHandle.readLoc e).stop
  · next e =>
    have hr := of_pair h.touchHandle.readLoc e
    split
    · exact hr.raise
    · exact hr.modFibre

theorem Canonical.execLaunch (h : Canonical s) {o} : Kept (execLaunch o s) := by
  refine h.runChecked fun _ _ a _ h => ?_
  cases a with
  | none =>
    dsimp only
    split
    · next e => exact of_pair (p := (_, _)) h e
    · next e => exact (of_pair (p := (_, _)) h e).launchWith
  | some a =>
    dsimp only
    split
    · next e => exact of_pair h.launchRead e
    · next e => exact (of_pair h.launchRead e).launchWith

theorem Canonical.mirrorHome (h : Canonical s) {c lid va b} : (s.mirrorHome c lid va b).elim True Canonical := by
  have hput : ∀ (s : State) (x : Xl), Canonical s →
      (if s.frozen x.pa then none else some (s.homeWrite (paDie x.pa) x.pa x.key [b])).elim True Canonical := by
    intro s x h
    split
    · exact trivial
    · exact h.homeWrite
  have hgo : ∀ s : State, Canonical s → Canonical (match s.translate .port c va .write with
      | (.ok x, s) => s.resolve .port c va .write x
      | r => r).2 := by
    intro s h
    split
    · next e => exact (of_pair h.translate e).resolve
    · exact h.translate
  unfold State.mirrorHome
  dsimp only
  split
  · next e => exact hput _ _ (of_pair (hgo _ h) e)
  · exact trivial
  · next e =>
    have hs := of_pair (hgo _ h) e
    split
    · exact hs.logCtx
    · split
      · next e' => exact hput _ _ (of_pair (hgo _ hs.makeResident) e')
      · exact trivial
      · next e' => exact (of_pair (hgo _ hs.makeResident) e').logCtx
  · next e => exact (of_pair (hgo _ h) e).logCtx

theorem Canonical.mirrorByte (h : Canonical s) {c lid i} : (s.mirrorByte c lid i).elim True Canonical := by
  unfold State.mirrorByte
  dsimp only
  split
  · exact h.foldl fun _ _ h => h.placeWrite
  · split
    · exact h.mirrorHome
    · exact h.logCtx

theorem Canonical.mirrorWrite (h : Canonical s) {c lid is} : (s.mirrorWrite c lid is).elim True Canonical := by
  induction is generalizing s with
  | nil => exact h
  | cons i is ih =>
    unfold State.mirrorWrite
    split
    · exact h
    · split
      · exact trivial
      · next e => exact ih (of_some h.mirrorByte e)

theorem Canonical.mirrorInto (h : Canonical s) {t} : Canonical (s.mirrorInto t) := h.placeWrite.ite h

theorem Canonical.releaseNew (h : Canonical s) {c lid} : Canonical (s.releaseNew c lid) := by
  unfold State.releaseNew
  exact h.modLaunch.modMod

theorem Canonical.releaseLaunch (h : Canonical s) {c lid} : Canonical (s.releaseLaunch c lid) := by
  unfold State.releaseLaunch
  dsimp only
  split
  · exact h.releaseNew
  · split
    · exact h
    · next e1 => exact (of_some h.modLaunch.mirrorWrite e1).releaseNew

theorem Canonical.releaseAll (h : Canonical s) {c} : Canonical (s.releaseAll c) :=
  h.foldl fun _ _ h => h.foldl fun _ _ h => h.releaseLaunch

theorem Canonical.writeLaunchToken (h : Canonical s) {hnd v acq} : Canonical (s.writeLaunchToken hnd v acq) := by
  unfold State.writeLaunchToken
  split
  · exact h.tokClose
  · exact h

theorem Canonical.answerWaits (h : Canonical s) {c lid v} : Canonical (s.answerWaits c lid v) :=
  h.modMod.foldl fun _ _ h => h.answer

theorem Canonical.acquirePart (h : Canonical s) {p sc} : Canonical (s.acquirePart p sc) := h.foldl fun _ _ h => h.acquireCore

theorem Canonical.releasePart (h : Canonical s) {p sc} : Canonical (s.releasePart p sc) :=
  (h.foldl (fun _ _ h => h.writeBackAll)).ite h

theorem Canonical.restAsids (h : Canonical s) {c} : Canonical (s.restAsids c) := h.ite h.modCtx

theorem Canonical.freeEntry (h : Canonical s) {c lid} : Canonical (s.freeEntry c lid) := by
  unfold State.freeEntry
  dsimp only
  split
  · exact h.modCtx
  · exact h.modCtx.modLaunch.acquirePart.ite h.modCtx

theorem Canonical.dropPoint (h : Canonical s) {c lid} : Canonical (s.dropPoint c lid) := h.modCtx

theorem Canonical.complete (h : Canonical s) {fuel k} : Canonical (s.complete fuel k) := by
  induction fuel generalizing s k with
  | zero => exact h
  | succ fuel ih =>
    unfold State.complete
    split
    · exact h
    · dsimp only
      split
      · exact h
      · split
        · exact h.releasePart
        · split
          · exact h.releasePart.modLaunch.modMod.writeLaunchToken.freeEntry.dropPoint.answerWaits.restAsids
          · exact ih h.releasePart.modLaunch.modMod.writeLaunchToken.freeEntry.dropPoint.answerWaits.modLaunch

theorem Canonical.catchUp (h : Canonical s) {c} : Canonical (s.catchUp c) := (h.foldl (fun _ _ h => h.complete)).releaseAll

theorem Canonical.treeIn (h : Canonical s) {k core} : Canonical (s.treeIn k core) := h.modLaunch

theorem Canonical.treeOut (h : Canonical s) {k core} : Canonical (s.treeOut k core) := h.modLaunch

theorem Canonical.treeUndo (h : Canonical s) {k core} : Canonical (s.treeUndo k core) := h.treeOut.modLaunch

theorem Canonical.attachPoint (h : Canonical s) {c lid name} : Canonical (s.attachPoint c lid name) := h.modCtx

theorem Canonical.answerStart (h : Canonical s) {lid a} : Canonical (s.answerStart lid a) := by
  unfold State.answerStart
  split
  · exact h.answer
  · exact h

theorem Canonical.dropAsids (h : Canonical s) {as} : Canonical (s.dropAsids as) := h.setTlb

theorem Canonical.takeAsids (h : Canonical s) {c as} : Canonical (s.takeAsids c as) := h.dropAsids.modCtx

theorem Canonical.giveAsids (h : Canonical s) {c} : (s.giveAsids c).elim True Canonical := by
  unfold State.giveAsids
  generalize List.range 4 = dies
  exact elim_ite h (elim_ite trivial h.takeAsids)

theorem Canonical.giveThese (h : Canonical s) {c as} : (s.giveThese c as).elim True Canonical := by
  unfold State.giveThese
  split
  · exact h.takeAsids
  · exact h.giveAsids

theorem Canonical.acceptOne (h : Canonical s) {c x rest} : Canonical (s.acceptOne c x rest) := by
  unfold State.acceptOne
  dsimp only
  split
  · refine .restAsids ?_
    split
    · exact h.modCtx.modMod.setLaunches.writeLaunchToken.answerStart.complete
    · exact h.modCtx.modMod.setLaunches.writeLaunchToken.answerStart
  · refine .releaseAll (.answerStart (.attachPoint ?_))
    split
    · exact h.modCtx.modMod.setLaunches.modCtx.modLaunch
    · exact h.modCtx.modMod.setLaunches.modCtx

theorem Canonical.execLaunchAccept (h : Canonical s) {ctx} : Kept (execLaunchAccept ctx s) := by
  unfold Machine.execLaunchAccept
  split
  · exact h
  · split
    · exact h
    · split
      · exact h.catchUp
      · split
        · exact h
        · next e3 => exact (of_some h.giveAsids e3).acceptOne

/-! ### Machine/CoreEvents.lean -/

theorem Canonical.fillLook (h : Canonical s) {core c hnd} : Canonical (s.fillLook core c hnd) := h.modCore

theorem Canonical.fillIcache (h : Canonical s) {core l} : Canonical (s.fillIcache core l) := h.modCore

theorem Canonical.lineXlate (h : Canonical s) {f o hnd} : Canonical (s.lineXlate f o hnd).2 := by
  unfold State.lineXlate
  dsimp only
  split <;> next e => exact of_pair h.engXlate e

theorem Canonical.readLine (h : Canonical s) {f o r x} : Canonical (s.readLine f o r x).2 := by
  unfold State.readLine
  dsimp only
  split
  · exact h
  · exact h.homeRead.fillIcache

theorem Canonical.fetchHome (h : Canonical s) {f o hnd r} : Canonical (s.fetchHome f o hnd r).2 := by
  unfold State.fetchHome
  split
  · next e => exact of_pair h.lineXlate e
  · next e => exact (of_pair h.lineXlate e).readLine

theorem Canonical.fetchLine (h : Canonical s) {f o hnd r} : Canonical (s.fetchLine f o hnd r).2 := by
  unfold State.fetchLine
  split
  · next e => exact of_pair h.lineXlate e
  · next e =>
    replace h := of_pair h.lineXlate e
    split
    · exact h
    · exact h.readLine

theorem Canonical.setFetch (h : Canonical s) {f o hnd r d} : Canonical (s.setFetch f o hnd r d) := h.modFibre.park

theorem Canonical.fetchStop (h : Canonical s) {f a} : Canonical (s.fetchStop f a) := by
  unfold State.fetchStop
  split
  · exact h.raiseAt
  · exact h

theorem Canonical.enterLine (h : Canonical s) {f} : Canonical (s.enterLine f) := by
  unfold State.enterLine
  dsimp only
  split
  · exact h.raiseAt
  · split
    · next e1 => exact (of_pair h.fillLook.fetchLine e1).fetchStop
    · next e1 =>
      replace h := of_pair h.fillLook.fetchLine e1
      split
      · exact h.setFetch
      · split
        · next e3 => exact (of_pair h.fetchHome e3).fetchStop
        · next e3 =>
          replace h := of_pair h.fetchHome e3
          exact h.setFetch.ite h.raiseAt

theorem Canonical.refetchLine (h : Canonical s) {f ln} : Canonical (s.refetchLine f ln) := by
  unfold State.refetchLine
  dsimp only
  split
  · exact h.raiseAt
  · split
    · next e1 => exact (of_pair h.fetchHome e1).fetchStop
    · next e1 =>
      replace h := of_pair h.fetchHome e1
      exact h.modFibre.park.ite h.raiseAt

theorem Canonical.specFetch (h : Canonical s) {f} : Canonical (s.specFetch f) := by
  unfold State.specFetch
  dsimp only
  split
  · exact h
  · exact h.fillLook.fetchLine

theorem Canonical.runAhead (h : Canonical s) {f} : Canonical (s.runAhead f) := by
  unfold State.runAhead
  dsimp only
  split
  · exact h
  · split
    · exact h.specFetch
    · exact h.prefAt

theorem Canonical.execLineFetch (h : Canonical s) {fib} : Kept (execLineFetch fib s) := by
  unfold Machine.execLineFetch
  split
  · exact h
  · split
    · exact h
    · split
      · split
        · exact h.runAhead
        · exact h.runAhead
        · exact h
      · split
        · exact h.enterLine
        · split
          · exact h.specFetch.ite h.refetchLine
          · exact h

theorem Canonical.enterPending (h : Canonical s) {core} : Canonical (s.enterPending core) :=
  h.foldl fun _ _ h => h.enterLine.ite h

theorem Canonical.execCoreIssue (h : Canonical s) {core} : Kept (execCoreIssue core s) := h.enterPending.coreTurn.setNs

theorem Canonical.arriveResult (h : Canonical s) {f n} : Canonical (s.arriveResult f n) := by
  unfold State.arriveResult
  dsimp only
  split
  · exact h.modFibre
  · exact h.arriveBefore.ite h.arriveBefore.modFibre

theorem Canonical.execResultArrival (h : Canonical s) {fib} : Kept (execResultArrival fib s) := by
  unfold Machine.execResultArrival
  split
  · exact h
  · exact h.ite h.arriveResult.modFibre

theorem Canonical.arriveLate (h : Canonical s) {f} : Canonical (s.arriveLate f) := h.modFibre.foldl fun _ _ h => h.lateArrive

theorem Canonical.rewatch (h : Canonical s) {f} : Canonical (s.rewatch f) := by
  unfold State.rewatch
  dsimp only
  split
  · exact h.ite h.retryFibre
  · exact h

theorem Canonical.execWaitConditionMet (h : Canonical s) {fib} : Kept (execWaitConditionMet fib s) := by
  unfold Machine.execWaitConditionMet
  split
  · exact h
  · split
    · exact h
    · split
      · exact h.arriveLate
      · exact h.ite h.retryFibre
      · exact h.ite h.retryFibre
      · exact h.retryFibre.ite h
      · split
        · exact h.retryFibre.ite h
        · exact h.retryFibre
      · exact h.retryLaunch.ite h
      · split
        · exact getD_of h.displacedDone h
        · exact h
      · exact h.acquire.rvDone.ite h
      · exact h.recheckMask
      · exact h.recheckMask
      · exact h.recheckHbar
      · exact h

theorem Canonical.execEffectDelivery (h : Canonical s) {fib} : Kept (execEffectDelivery fib s) := by
  unfold Machine.execEffectDelivery
  split
  · exact h
  · exact h.ite h.tryDeliver

theorem Canonical.restartPack (h : Canonical s) {f} : Canonical (s.restartPack f) :=
  h.acquire.ite ((h.acquire.foldl (fun _ _ h => h.arriveAfterHalt.modFibre)).foldl (fun _ _ h => h.rewatch))

theorem Canonical.killMissing (h : Canonical s) {f x w} : Canonical (s.killMissing f x w) := h.killFibre.restartPack

theorem Canonical.execMissingEmulation (h : Canonical s) {fib} : Kept (execMissingEmulation fib s) := by
  unfold Machine.execMissingEmulation
  split
  · exact h
  · exact h.killMissing

theorem Canonical.serviceWrite (h : Canonical s) {c es} : (s.serviceWrite c es).elim True Canonical := by
  induction es generalizing s with
  | nil => exact h
  | cons e es ih =>
    unfold State.serviceWrite
    split
    · next hx =>
      split
      · exact trivial
      · exact ih (of_pair h.engXlate hx).homeWrite
    · exact trivial
    · next hx => exact ih (of_pair h.engXlate hx)

theorem Canonical.setK (h : Canonical s) {t i v} : Canonical (s.setK t i v) := h.modTeam.mapFibres

theorem Canonical.setM (h : Canonical s) {p i v} : Canonical (s.setM p i v) := h.modPack.mapFibres

theorem Canonical.serviceReg (h : Canonical s) {p e} : Canonical (s.serviceReg p e) := h.modFibre.ite (h.setK.ite (h.setM.ite h))

theorem Canonical.serve (h : Canonical s) {f rs m g} : Canonical (s.serve f rs m g) := by
  unfold State.serve
  dsimp only
  split
  · exact h
  · next e => exact ((of_some h.serviceWrite e).foldl (fun _ _ h => h.serviceReg)).modFibre.restartPack

theorem Canonical.execMissingSignalAnswer (h : Canonical s) {fib answer} : Kept (execMissingSignalAnswer fib answer s) := by
  unfold Machine.execMissingSignalAnswer
  split
  · exact h
  · split
    · exact h.killMissing
    · exact h.serve
    · exact h.serve

theorem Canonical.execStuckDeadlock (h : Canonical s) {team} : Kept (execStuckDeadlock team s) := by
  unfold Machine.execStuckDeadlock
  split
  · refine h.foldl fun _ _ h => ?_
    split
    · exact h.raiseAt
    · exact h
  · exact h

theorem Canonical.execHbarDeadlock (h : Canonical s) {ctx lid} : Kept (execHbarDeadlock ctx lid s) :=
  h.foldl fun _ _ h => h.raiseAt

/-! ### Machine/Teams.lean -/

theorem Canonical.beginTurn (h : Canonical s) {p c} : Canonical (s.beginTurn p c) := h.ite h.setParts.modCtx

theorem Canonical.serveQueue (h : Canonical s) {p L} : Canonical (s.serveQueue p L) :=
  h.setParts.modMod.beginTurn.ite h.setParts.modMod

theorem Canonical.bindOne (h : Canonical s) {p k t core r} : Canonical (s.bindOne p k t core r) := by
  have ht (x : Team) : Canonical { s with teams := mapSet s.teams s.mod.nextTeam x } :=
    { h with teams := sortedKeys_mapSet _ _ _ h.teams }
  exact (ht _).modMod.modLaunch.serveQueue.treeIn

theorem Canonical.bindMany (h : Canonical s) {p k es} : (s.bindMany p k es).elim True Canonical := by
  induction es generalizing s with
  | nil => exact h
  | cons e es ih =>
    unfold State.bindMany
    split
    · exact trivial
    · exact ih h.bindOne

theorem Canonical.execBindTeam (h : Canonical s) {part res} : Kept (execBindTeam part res s) := by
  unfold Machine.execBindTeam
  split
  · exact h
  · exact h
  · split
    · exact h
    · split
      · exact h
      · next e2 => exact (of_some h.bindMany e2).releaseAll

theorem Canonical.withdraw (h : Canonical s) {t} : Canonical (s.withdraw t) := by
  unfold State.withdraw
  exact h.treeUndo.modLaunch.delTeam

theorem Canonical.keepHalted (h : Canonical s) {t} : Canonical (s.keepHalted t) := h.modTeam

theorem Canonical.refuseBind (h : Canonical s) {t} : Canonical (s.refuseBind t) := by
  unfold State.refuseBind
  exact .modMod (.ite h.keepHalted (h.foldl fun _ _ h => h.withdraw))

theorem Canonical.ownUnits (h : Canonical s) {t} : Canonical (s.ownUnits t) := h.modCore.modDie

theorem Canonical.clearTags (h : Canonical s) {t} : Canonical (s.clearTags t) := h.modCore

theorem Canonical.zeroTeam (h : Canonical s) {t} : Canonical (s.zeroTeam t) := h.modCore.modDie.ownUnits.clearTags

theorem Canonical.adoptStart (h : Canonical s) {t} : Canonical (s.adoptStart t) := by
  unfold State.adoptStart
  refine h.foldl fun _ _ h => ?_
  split
  · exact h
  · exact h.modTeam

theorem Canonical.takeOver (h : Canonical s) {t} : Canonical (s.takeOver t) := h.setEnded

theorem Canonical.claimTeam (h : Canonical s) {t} : Canonical (s.claimTeam t) :=
  h.takeOver.acquireCore.zeroTeam.adoptStart.modTeam.mirrorInto

theorem Canonical.execDispatch (h : Canonical s) {core slot} : Kept (execDispatch core slot s) := by
  unfold Machine.execDispatch
  split
  · exact h
  · exact h.ite (h.refuseBind.ite h.claimTeam)

theorem Canonical.startTeam (h : Canonical s) {t} : Canonical (s.startTeam t) :=
  (h.foldl (fun _ _ h => h.setFibre)).setPacks.modTeam

theorem Canonical.execDispatchReady (h : Canonical s) {core slot} : Kept (execDispatchReady core slot s) := by
  unfold Machine.execDispatchReady
  split
  · exact h
  · split
    · exact h.startTeam.ite h
    · exact h

theorem Canonical.reportFaults (h : Canonical s) {t} : Canonical (s.reportFaults t) :=
  h.foldl fun _ _ h => (h.foldl (fun _ _ h => h.failTeam.escalate.logCtx)).modFibre

theorem Canonical.freeTeam (h : Canonical s) {t} : Canonical (s.freeTeam t) :=
  ⟨h.dram, sortedKeys_filter h.fibres _, sortedKeys_filter h.teams _⟩

theorem Canonical.setScore (h : Canonical s) {t} : (s.setScore t).elim True Canonical := h.modLaunch.modMod.mirrorWrite

theorem Canonical.retireTeam (h : Canonical s) {t} : Canonical (s.retireTeam t) := by
  unfold State.retireTeam
  dsimp only
  split
  · exact h
  · next e => exact (of_some h.setScore e).treeOut.freeTeam.complete.releaseAll

theorem Canonical.releaseTeam (h : Canonical s) {t} : Canonical (s.releaseTeam t) := h.foldl fun _ _ h => h.releaseActs

theorem Canonical.parkLeft (h : Canonical s) {t} : Canonical (s.parkLeft t).2 := by
  unfold State.parkLeft
  refine h.foldlSnd fun _ _ h => ?_
  split
  · next e1 => exact (of_pair h.parkLock e1).modFibre
  · next e1 => exact of_pair h.parkLock e1

theorem Canonical.execTeamRetire (h : Canonical s) {team} : Kept (execTeamRetire team s) := by
  unfold Machine.execTeamRetire
  dsimp only
  split
  · exact h
  · split
    · next e1 => exact of_pair h.parkLeft e1
    · next e1 =>
      replace h := of_pair h.parkLeft e1
      exact h.releaseTeam.ite h.releaseTeam.reportFaults.retireTeam

/-! ### Machine/HomeEvents.lean -/

theorem Canonical.execHomeAccess (h : Canonical s) {req} : Kept (execHomeAccess req s) := by
  unfold Machine.execHomeAccess
  split
  · exact h
  · exact h.performReq.ite h

theorem Canonical.execL1Eviction (h : Canonical s) {core sector key} : Kept (execL1Eviction core sector key s) :=
  h.evictLine.ite (h.ite h.modDie)

theorem Canonical.execTableWalk (h : Canonical s) {unit ctx va} : Kept (execTableWalk unit ctx va s) := by
  unfold Machine.execTableWalk
  dsimp only
  split
  · exact h
  · split
    · exact h.setTlb
    · exact h.setTlb.tlbFill

theorem Canonical.execMakeResident (h : Canonical s) {ctx va frame} : Kept (execMakeResident ctx va frame s) :=
  h.makeResident.ite h

theorem Canonical.wakeFrame (h : Canonical s) {l} : Canonical (s.wakeFrame l) := h.setCores

theorem Canonical.modFrames (h : Canonical s) {l g} : Canonical (s.modFrames l g) := h.foldl fun _ _ h => h.modFrame

theorem Canonical.beginRound (h : Canonical s) {ctx va dest round l} : Canonical (s.beginRound ctx va dest round l) :=
  h.modFrame.setPte.tlbDrop.drain

theorem Canonical.startMove (h : Canonical s) {ctx va dest l} : Canonical (s.startMove ctx va dest l) := h.claimFrames.beginRound

theorem Canonical.nextRound (h : Canonical s) {ctx va dest round l} : Canonical (s.nextRound ctx va dest round l) :=
  h.copyFrames.beginRound.ite h.copyFrames.modFrames

theorem Canonical.movePage (h : Canonical s) {ctx va dest l} : Canonical (s.movePage ctx va dest l) :=
  h.copyFrames.setPte.tlbDrop.modFrames.drain.wakeFrame.releaseFrames

theorem Canonical.execPageMigration (h : Canonical s) {ctx va frame} : Kept (execPageMigration ctx va frame s) := by
  unfold Machine.execPageMigration
  split
  · exact h
  · split
    · exact h
    · split
      · exact h.movePage.ite h.nextRound
      · exact h.startMove.ite h

theorem Canonical.storePage (h : Canonical s) {ctx va l} : Canonical (s.storePage ctx va l) :=
  h.shoot.ite h.shoot.modCtx.setPte.tlbDrop.wakeFrame.releaseFrames

theorem Canonical.execPageEviction (h : Canonical s) {ctx va} : Kept (execPageEviction ctx va s) := by
  unfold Machine.execPageEviction
  split
  · exact h
  · exact h.storePage.ite h

theorem Canonical.execIcacheEviction (h : Canonical s) {core index} : Kept (execIcacheEviction core index s) := h.modCore

/-! ### Machine/Halt.lean -/

theorem Canonical.saveReqs (h : Canonical s) {t} : Canonical (s.saveReqs t) := h.setReqs

theorem Canonical.haltOne (h : Canonical s) {dbg sliced t} : Canonical (s.haltOne dbg sliced t) :=
  h.performReqs.saveReqs.mapFibres.modCore.modTeam

theorem Canonical.settleCxgen (h : Canonical s) {c} : Canonical (s.settleCxgen c) := h.modCtx.ite h

theorem Canonical.bumpCxgen (h : Canonical s) {c n} : Canonical (s.bumpCxgen c n) := h.modMod.modCtx.settleCxgen

theorem Canonical.haltTeams (h : Canonical s) {ts dbg sliced} : Canonical (s.haltTeams ts dbg sliced) :=
  (h.foldl (fun _ _ h => h.haltOne)).foldl fun _ _ h => h.bumpCxgen

theorem Canonical.setTurn (h : Canonical s) {p c} : Canonical (s.setTurn p c) := h.setParts

theorem Canonical.execHalt (h : Canonical s) {teams} : Kept (execHalt teams s) := h.haltTeams

theorem Canonical.execSliceEnd (h : Canonical s) {ctx} : Kept (execSliceEnd ctx s) := h.ite h.haltTeams.beginTurn

theorem Canonical.execStaleReplyDrop (h : Canonical s) {ctx} : Kept (execStaleReplyDrop ctx s) := by
  unfold Machine.execStaleReplyDrop
  split
  · exact h
  · exact h.modMod.settleCxgen

theorem Canonical.parkTeam (h : Canonical s) {t} : Canonical (s.parkTeam t).2 := by
  unfold State.parkTeam
  refine h.foldlSnd fun _ _ h => ?_
  split
  · next e1 => exact of_pair h.parkLock e1

theorem Canonical.chargeDebt (h : Canonical s) {c asked sliced} : Canonical (s.chargeDebt c asked sliced) := h.modCtx.ite h

theorem Canonical.execHaltComplete (h : Canonical s) {team ns} : Kept (execHaltComplete team ns s) := by
  unfold Machine.execHaltComplete
  dsimp only
  split
  · exact h
  · exact h.ite (h.performReqs.settleCxgen.parkTeam.ite h.performReqs.settleCxgen.parkTeam.setNs.modTeam.chargeDebt)

theorem Canonical.parkKill (h : Canonical s) {f} : Canonical (s.parkKill f) := by
  unfold State.parkKill
  dsimp only
  split
  · next e => exact (of_pair h.parkLock e).modFibre
  · next e =>
    replace h := of_pair h.parkLock e
    split
    · exact h
    · split
      · exact h
      · split
        · split
          · next e4 => exact (of_pair h.makeResident.parkLock e4).modFibre
          · next e4 => exact of_pair h.makeResident.parkLock e4
        · exact h.logCtx.modFibre

theorem Canonical.killTeam (h : Canonical s) {t} : Canonical (s.killTeam t) := by
  unfold State.killTeam
  refine .foldl (.failTeam (.modTeam (.modCore ?_))) fun _ _ h => h.recheckHbar
  exact .frame (Canonical.mapFibres (h.foldl fun _ _ h => h.parkKill.ite h.modFibre))

theorem Canonical.killAll (h : Canonical s) {c} : Canonical (s.killAll c) := h.foldl fun _ _ h => h.killTeam.ite h

theorem Canonical.execHaltWatchdog (h : Canonical s) {team} : Kept (execHaltWatchdog team s) := by
  unfold Machine.execHaltWatchdog
  split
  · exact h
  · exact h.killAll.logCtx.ite h

theorem Canonical.restoreTeam (h : Canonical s) {t v} : Canonical (s.restoreTeam t v) := h.ownUnits.clearTags.modCore.modDie

theorem Canonical.wakeFibres (h : Canonical s) {t} : Canonical (s.wakeFibres t) := by
  unfold State.wakeFibres
  refine ⟨h.dram, ?_, h.teams⟩
  dsimp only
  apply sortedKeys_mapAll
  exact h.fibres

theorem Canonical.retest (h : Canonical s) {t} : Canonical (s.retest t) := by
  unfold State.retest
  refine ((h.foldl (fun _ _ h => h.recheckMasks)).foldl (fun _ _ h => ?_)).foldl fun _ _ h => h.recheckHbar
  split
  · exact h.rvDone.ite h
  · exact h

theorem Canonical.retag (h : Canonical s) {t} : Canonical (s.retag t) := by
  unfold State.retag
  refine ⟨h.dram, ?_, h.teams⟩
  dsimp only
  apply sortedKeys_mapAll
  exact h.fibres

theorem Canonical.arriveTeam (h : Canonical s) {t} : Canonical (s.arriveTeam t) := h.foldl fun _ _ h => h.arriveAfterHalt

theorem Canonical.resumeTeam (h : Canonical s) {t r v} : Canonical (s.resumeTeam t r v) :=
  h.modTeam.ite (h.modTeam.takeOver.restoreTeam.mirrorInto.retag.arriveTeam.wakeFibres.retest.foldl (fun _ _ h => h.rewatch))

theorem Canonical.logSys (h : Canonical s) {e} : Canonical (s.logSys e) := h.modMod

theorem Canonical.resumeOne (h : Canonical s) {t r} : Canonical (s.resumeOne t r) := h.resumeTeam.serveQueue.logSys

theorem Canonical.resumeAll (h : Canonical s) {es u} (e : s.resumeAll es = .ok u) : Canonical u := by
  induction es generalizing s with
  | nil => cases e; exact h
  | cons x es ih =>
    unfold State.resumeAll at e
    split at e
    · exact ih h.resumeOne e
    · cases e

theorem Canonical.execTeamResume (h : Canonical s) {team res} : Kept (execTeamResume team res s) := by
  unfold Machine.execTeamResume
  refine h.ite ?_
  split
  · next e => exact h.resumeAll e
  · exact h.logSys

theorem Canonical.execHaltPointFire (h : Canonical s) {ctx} : Kept (execHaltPointFire ctx s) := by
  unfold Machine.execHaltPointFire
  dsimp only
  split
  · exact h.ite h.haltTeams.modCtx.logCtx
  · exact h

/-! ### Machine/Load.lean -/

theorem Canonical.takeFrame (h : Canonical s) {c n} : (s.takeFrame c n).elim True Canonical := by
  unfold State.takeFrame
  split
  · exact h.modFrame
  · exact trivial

theorem Canonical.tableBelow (h : Canonical s) {c pte level tables} :
    (s.tableBelow c pte level tables).elim True (Canonical ·.2.2) := by
  unfold State.tableBelow
  dsimp only
  split
  · split
    · exact trivial
    · exact h
  · split
    · exact trivial
    · exact elim_map h.takeFrame fun _ h => h.zeroDram.setPte

theorem Canonical.leafPlace (h : Canonical s) {c va tables} : (s.leafPlace c va tables).elim True (Canonical ·.2.2) := by
  unfold State.leafPlace
  split
  · exact trivial
  · next e =>
    have ht := of_some (P := fun p => Canonical p.2.2) h.tableBelow e
    split
    · exact trivial
    · next e' => exact of_some (P := fun p => Canonical p.2.2) ht.tableBelow e'

theorem Canonical.mapPage (h : Canonical s) {c g tables} : (s.mapPage c g tables).elim True (Canonical ·.2) := by
  unfold State.mapPage
  split
  · exact trivial
  · next e =>
    have hl := of_some (P := fun p => Canonical p.2.2) h.leafPlace e
    split
    · exact trivial
    · split
      · exact hl.setPte
      · refine elim_map hl.takeFrame fun _ h => .setPte ?_
        split
        · exact h.fillFrames
        · exact h

theorem Canonical.mapPages (h : Canonical s) {c gs tables} : (s.mapPages c gs tables).elim True Canonical := by
  induction gs generalizing s tables with
  | nil => exact h
  | cons g gs ih =>
    unfold State.mapPages
    split
    · exact trivial
    · next e => exact ih (of_some (P := fun p => Canonical p.2) h.mapPage e)

theorem Canonical.dropHandles (h : Canonical s) {c hs} : Canonical (s.dropHandles c hs) := h.setCores

theorem Canonical.dropCode (h : Canonical s) {c base lines} : Canonical (s.dropCode c base lines) := h.setCores

theorem Canonical.install (h : Canonical s) {c at_ l} : Canonical (s.install c at_ l) := h.modCtx.modMod.dropHandles

theorem Canonical.holdRequest (h : Canonical s) {i} : Canonical (s.holdRequest i) := h.modMod

theorem Canonical.inTurn (h : Canonical s) {m i ready act} (hact : ∀ s, Canonical s → (act s).elim True Canonical) :
    Canonical (s.inTurn m i ready act) := by
  unfold State.inTurn
  split
  · exact .ite (getD_of (hact _ h.modMod) h) h
  · exact h.holdRequest.ite (getD_of (hact _ h) h.holdRequest)

theorem Canonical.received (h : Canonical s) {rtype m act} (hact : Canonical act) : Canonical (s.received rtype m act) := by
  unfold State.received
  dsimp only
  split
  · exact h
  · exact h.ite h.modMod
  · exact h.ite (.ite (h.ite h.answer) (h.ite hact))

theorem Canonical.request (h : Canonical s) {rtype m i act} (hact : ∀ x s, Canonical s → (act x s).elim True Canonical) :
    Canonical (s.request rtype m i act) := by
  refine h.received ?_
  split
  · exact h.ite h.answer
  · exact .ite (h.ite h.answer) (h.inTurn (hact _))

theorem Canonical.withFrames (h : Canonical s) {m n done} (hdone : done.elim True Canonical) :
    (s.withFrames m n done).elim True Canonical := by
  unfold State.withFrames
  split
  · exact h.answer
  · exact hdone

theorem Canonical.execLoad (h : Canonical s) {m obj place} : Kept (execLoad m obj place s) := by
  unfold Machine.execLoad
  refine h.request fun _ _ h => ?_
  dsimp only
  split
  · exact trivial
  · split
    · exact h.answer
    · refine h.withFrames ?_
      split
      · exact trivial
      · exact elim_map h.mapPages fun _ h => h.install.answer

/-! ### Machine/Cupola.lean -/

theorem Canonical.execCtxCreate (h : Canonical s) {q} : Kept (execCtxCreate q s) := by
  obtain ⟨m, r⟩ := q
  refine h.received (h.inTurn fun s h => elim_ite h.answer (elim_ite h.answer (h.withFrames (elim_ite trivial ?_))))
  have hz : Canonical { s with
      dram := s.dram.zero (r.root * 2 ^ 16) (2 ^ 16), ctxs := mapSet s.ctxs s.mod.nextCtx (newContext s r) } :=
    h.zeroDram.setCtxs
  exact hz.modFrame.modMod.answer

theorem Canonical.freeFrames (h : Canonical s) {c} : Canonical (s.freeFrames c) := h.foldl fun _ _ h => h.discardLines.modFrame

theorem Canonical.forgetCtx (h : Canonical s) {c} : Canonical (s.forgetCtx c) := h.frame

theorem Canonical.clearWork (h : Canonical s) {c} : Canonical (s.clearWork c) :=
  ⟨h.dram, sortedKeys_filter h.fibres _, sortedKeys_filter h.teams _⟩

theorem Canonical.failRequests (h : Canonical s) {c} : Canonical (s.failRequests c) := h.modMod.foldl fun _ _ h => h.answer

theorem Canonical.retireKilled (h : Canonical s) {t} : (s.retireKilled t).elim True Canonical := by
  unfold State.retireKilled
  dsimp only
  split
  · exact trivial
  · next e =>
    split
    · exact trivial
    · split
      · exact trivial
      · exact (of_pair h.performReqs.parkLeft e).releaseTeam.reportFaults.retireTeam

theorem Canonical.retireAll (h : Canonical s) {ts} : (s.retireAll ts).elim True Canonical := by
  induction ts generalizing s with
  | nil => exact h
  | cons t ts ih => exact elim_bind h.retireKilled fun _ h => ih h

theorem Canonical.endTeams (h : Canonical s) {c} : (s.endTeams c).elim True Canonical := by
  unfold State.endTeams
  dsimp only
  split
  · exact h
  · exact h.killAll.retireAll

theorem Canonical.destroyCtx (h : Canonical s) {c} : (s.destroyCtx c).elim True Canonical :=
  elim_map h.failRequests.modCtx.endTeams fun _ h => (h.clearWork.freeFrames.forgetCtx.thenDo fun h => h.setTurn).modCtx

theorem Canonical.execCtxDestroy (h : Canonical s) {m} : Kept (execCtxDestroy m s) :=
  h.request fun _ _ h => elim_map h.destroyCtx fun _ h => h.answer

theorem Canonical.execMap (h : Canonical s) {q} : Kept (execMap q s) := by
  unfold Machine.execMap
  refine h.request fun _ _ h => ?_
  dsimp only
  split
  · exact h.answer
  · split
    · exact h.answer
    · refine h.withFrames ?_
      split
      · exact trivial
      · exact elim_map h.mapPages fun _ h => h.answer

theorem Canonical.unmapPage (h : Canonical s) {c va} : (s.unmapPage c va).elim True Canonical := by
  unfold State.unmapPage
  dsimp only
  split
  · exact h
  · split
    · split
      · exact trivial
      · exact h.shoot.setPte.tlbDrop.wakeFrame.releaseFrames.modCtx
    · split
      · exact trivial
      · exact h.tlbDrop.dropLines.setPte.tlbDrop.modCtx

theorem Canonical.unmapPages (h : Canonical s) {c vas} : (s.unmapPages c vas).elim True Canonical := by
  induction vas generalizing s with
  | nil => exact h
  | cons va vas ih => exact elim_bind h.unmapPage fun _ h => ih h

theorem Canonical.execUnmap (h : Canonical s) {m va len} : Kept (execUnmap m va len s) := by
  unfold Machine.execUnmap
  refine h.request fun _ _ h => ?_
  dsimp only
  split
  · exact h.answer
  · split
    · exact trivial
    · exact elim_map h.unmapPages fun _ h => h.answer

theorem Canonical.execStart (h : Canonical s) {q} : Kept (execStart q s) := by
  unfold Machine.execStart
  refine h.request fun _ _ h => ?_
  dsimp only
  split
  · exact h.answer
  · split
    · exact h.answer
    · split
      · exact trivial
      · exact h.submit

theorem Canonical.execWait (h : Canonical s) {m lid} : Kept (execWait m lid s) := by
  unfold Machine.execWait
  refine h.request fun _ _ h => ?_
  split
  · exact h.answer
  · split
    · exact h.answer
    · exact h.modMod

theorem Canonical.execQuery (h : Canonical s) {m lid escalations} : Kept (execQuery m lid escalations s) := by
  unfold Machine.execQuery
  refine h.request fun _ _ h => ?_
  split <;> exact h.answer

theorem Canonical.execHaltatArm (h : Canonical s) {q} : Kept (execHaltatArm q s) :=
  h.request fun _ _ h => h.answer.ite h.modCtx.answer

theorem Canonical.execHaltatRelease (h : Canonical s) {q} : Kept (execHaltatRelease q s) := by
  obtain ⟨m, p⟩ := q
  exact h.request fun _ _ h => h.answer.ite h.mapTeams.answer

theorem Canonical.execHaltatDisarm (h : Canonical s) {m} : Kept (execHaltatDisarm m s) := h.request fun _ _ h => h.modCtx.answer

theorem Canonical.execHandleEntryWrite (h : Canonical s) {ctx index entry} : Kept (execHandleEntryWrite ctx index entry s) := by
  unfold Machine.execHandleEntryWrite
  dsimp only
  split
  · exact h
  · split
    · exact h.answer
    · split
      · exact h.answer
      · split
        · exact h
        · split
          · exact h.answer
          · split
            · exact h.answer
            · exact h.modCtx.dropHandles.dropCode.answer

theorem Canonical.portRead (h : Canonical s) {xs n} : Canonical (s.portRead xs n).2 := by
  induction xs generalizing s n with
  | nil => exact h
  | cons x xs ih => exact ih (n := n - min n (64 - x.1 % 64)) (h.homeRead (n := min n (64 - x.1 % 64)))

theorem Canonical.portWrite (h : Canonical s) {xs bs} : Canonical (s.portWrite xs bs) := by
  induction xs generalizing s bs with
  | nil => exact h
  | cons x xs ih => exact ih h.homeWrite

theorem Canonical.portAccess (h : Canonical s) {u c va op} : Canonical (s.portAccess u c va op).2 := by
  unfold State.portAccess
  dsimp only
  split
  · next e => exact of_pair h.translateRange e
  · next e => exact of_pair h.translateRange e
  · next e =>
    replace h := of_pair h.translateRange e
    split
    · exact h
    · split
      · exact h.portRead
      · exact h.portWrite
      · exact h.portRead.portWrite

theorem Canonical.portAnswer (h : Canonical s) {r} : Canonical (s.portAnswer r) := h.modMod

theorem Canonical.portStep (h : Canonical s) {u c va frame op done failed}
    (hdone : ∀ bs s, Canonical s → Canonical (done bs s)) (hfailed : ∀ e s, Canonical s → Canonical (failed e s)) :
    Canonical (s.portStep u c va frame op done failed) := by
  unfold State.portStep
  split
  · exact h
  · next e =>
    have hg := of_some h.giveAsids e
    split
    · exact h
    · exact h.makeResident
    · next e1 => exact (hfailed _ _ (of_pair hg.portAccess e1)).restAsids
    · next e1 => exact (hdone _ _ (of_pair hg.portAccess e1)).restAsids

theorem Canonical.storeWrite (h : Canonical s) {ns off bs} : Canonical (s.storeWrite ns off bs) := h.modMod

theorem Canonical.execRmaAccess (h : Canonical s) {ctx va r frame} : Kept (execRmaAccess ctx va r frame s) := by
  unfold Machine.execRmaAccess
  dsimp only
  split
  · exact h
  · split
    · exact h.portAnswer
    · split
      · exact h
      · split
        · exact h.portAnswer
        · exact h.portStep (fun _ _ h => h.portAnswer) fun _ _ h => (h.ite h.logCtx).portAnswer

theorem Canonical.execStorageTransfer (h : Canonical s) {ctx va op frame} : Kept (execStorageTransfer ctx va op frame s) :=
  h.ite ((h.portStep (fun _ _ h => h.storeWrite.portAnswer) fun _ _ h => h.portAnswer).ite
    (h.portStep (fun _ _ h => h.portAnswer) fun _ _ h => h.portAnswer))

theorem Canonical.coolPage (h : Canonical s) {c va} : Canonical (s.coolPage c va) := by
  unfold State.coolPage
  split
  · exact h
  · exact h.storePage.ite h

theorem Canonical.execMakeCold (h : Canonical s) {ctx pages} : Kept (execMakeCold ctx pages s) :=
  h.ite ((h.foldl fun _ _ h => h.coolPage).setTlb.thenDo fun h => h.setTurn).modCtx

theorem Canonical.failRestore (h : Canonical s) {c} : Canonical (s.failRestore c) := by
  unfold State.failRestore
  refine getD_of (Canonical.destroyCtx ?_) h
  split
  · exact h
  · exact h.modMod.answer

theorem Canonical.execContextRestore (h : Canonical s) {ctx altered asids} : Kept (execContextRestore ctx altered asids s) := by
  unfold Machine.execContextRestore
  dsimp only
  split
  · exact h
  · exact h.ite (h.failRestore.ite ((getD_of h.modCtx.giveThese h).ite h.modCtx))

theorem Canonical.execAttest (h : Canonical s) {m nonce} : Kept (execAttest m nonce s) :=
  .ite (h.received (h.inTurn fun _ h => h.answer)) (h.request fun _ _ h => h.answer)

/-! ### Machine/Platform.lean -/

theorem Canonical.execBoot (h : Canonical s) {b} : Kept (execBoot b s) := by
  unfold Machine.execBoot
  dsimp only
  split
  · exact h
  · split
    · exact h.modMod
    · exact h.setParts.modMod

theorem Canonical.execMonitorRead (h : Canonical s) {die} : Kept (execMonitorRead die s) := h.ite h.modMod

theorem Canonical.killQuad (h : Canonical s) {q} : Canonical (s.killQuad q) := h.foldl fun _ _ h => h.killTeam.ite h

theorem Canonical.retireQuad (h : Canonical s) {q spare} : Canonical (s.retireQuad q spare) := by
  unfold State.retireQuad
  split
  · exact h
  · refine h.ite ?_
    have hw : Canonical ((State.quadCores q).foldl State.writeBackAll s) := h.foldl fun _ _ h => h.writeBackAll
    exact hw.ite (hw.killQuad.setCores.modMod.ite hw.killQuad.setCores.setParts).modMod

theorem Canonical.replan (h : Canonical s) : Canonical s.replan := by
  unfold State.replan
  exact h.modMod

theorem Canonical.execMarginReplan (h : Canonical s) {anew spares} : Kept (execMarginReplan anew spares s) :=
  h.ite ((h.replan.ite h).foldl (fun _ _ h => h.retireQuad))

theorem Canonical.softError (h : Canonical s) {core i bit} : Canonical (s.softError core i bit) := h.modCore

theorem Canonical.execUncorrectableError (h : Canonical s) {site} : Kept (execUncorrectableError site s) := by
  unfold Machine.execUncorrectableError
  split
  · exact h.softError
  · split
    · exact h
    · exact h.ite (getD_of h.destroyCtx h)
  · exact h.modMod

theorem Canonical.execPartitionBoundaryMove (h : Canonical s) {outOf into_ quads} :
    Kept (execPartitionBoundaryMove outOf into_ quads s) := by
  unfold Machine.execPartitionBoundaryMove
  dsimp only
  split
  · exact h
  · exact h.ite h.setParts

/-! ### Machine/Dispatch.lean -/

theorem Canonical.exec (h : Canonical s) {i} : Kept (exec i s) := by
  unfold Machine.exec
  cases i with
  | nop => exact h.execNop
  | iadd => exact h.execIadd
  | isub => exact h.execIsub
  | imul => exact h.execImul
  | imulh => exact h.execImulh
  | imad => exact h.execImad
  | imadw => exact h.execImadw
  | idiv => exact h.execIdiv
  | irem => exact h.execIrem
  | imin => exact h.execImin
  | imax => exact h.execImax
  | iabs => exact h.execIabs
  | ineg => exact h.execIneg
  | isad => exact h.execIsad
  | and => exact h.execAnd
  | or => exact h.execOr
  | xor => exact h.execXor
  | not => exact h.execNot
  | andn => exact h.execAndn
  | shl => exact h.execShl
  | shr => exact h.execShr
  | sar => exact h.execSar
  | rot => exact h.execRot
  | fsh => exact h.execFsh
  | bfx => exact h.execBfx
  | bfi => exact h.execBfi
  | brev => exact h.execBrev
  | popc => exact h.execPopc
  | clz => exact h.execClz
  | ctz => exact h.execCtz
  | prmb => exact h.execPrmb
  | lea => exact h.execLea
  | mov => exact h.execMov
  | sel => exact h.execSel
  | ipred => exact h.execIpred
  | plut => exact h.execPlut
  | prdw => exact h.execPrdw
  | pwrw => exact h.execPwrw
  | haddr => exact h.execHaddr
  | clock => exact h.execClock
  | bra => exact h.execBra
  | brx => exact h.execBrx
  | call => exact h.execCall
  | callx => exact h.execCallx
  | ret => exact h.execRet
  | brdec => exact h.execBrdec
  | join => exact h.execJoin
  | leave => exact h.execLeave
  | waitm => exact h.execWaitm
  | mset => exact h.execMset
  | spawn => exact h.execSpawn
  | exit => exact h.execExit
  | demote => exact h.execDemote
  | yield => exact h.execYield
  | ballot => exact h.execBallot
  | agree => exact h.execAgree
  | shfl => exact h.execShfl
  | prdx => exact h.execPrdx
  | pscan => exact h.execPscan
  | matchLanes => exact h.execMatch
  | binit => exact h.execBinit
  | arrive => exact h.execArrive
  | bwait => exact h.execBwait
  | bsync => exact h.execBsync
  | btest => exact h.execBtest
  | hbar => exact h.execHbar
  | fadd => exact h.execFadd
  | fsub => exact h.execFsub
  | fmul => exact h.execFmul
  | ffma => exact h.execFfma
  | fmin => exact h.execFmin
  | fmax => exact h.execFmax
  | fpred => exact h.execFpred
  | fclass => exact h.execFclass
  | frcp => exact h.execFrcp
  | frsq => exact h.execFrsq
  | fsqrt => exact h.execFsqrt
  | fex2 => exact h.execFex2
  | flg2 => exact h.execFlg2
  | ftanh => exact h.execFtanh
  | v2add => exact h.execV2add
  | v2mul => exact h.execV2mul
  | v2fma => exact h.execV2fma
  | fcvt => exact h.execFcvt
  | icvt => exact h.execIcvt
  | scaleq => exact h.execScaleq
  | mfpack => exact h.execMfpack
  | mfunpk => exact h.execMfunpk
  | fdot4 => exact h.execFdot4
  | idot4 => exact h.execIdot4
  | fstat => exact h.execFstat
  | ld => exact h.execLd
  | st => exact h.execSt
  | stl => exact h.execStl
  | ldq => exact h.execLdq
  | queueEntryArrival => exact h.execQueueEntryArrival
  | qpop => exact h.execQpop
  | qstat => exact h.execQstat
  | pref => exact h.execPref
  | hres => exact h.execHres
  | wbr => exact h.execWbr
  | invr => exact h.execInvr
  | atom => exact h.execAtom
  | acas => exact h.execAcas
  | red => exact h.execRed
  | fence => exact h.execFence
  | wline => exact h.execWline
  | watchSlotTrigger => exact h.execWatchSlotTrigger
  | capenter => exact h.execCapenter
  | cstep => exact h.execCstep
  | capexit => exact h.execCapexit
  | capreset => exact h.execCapreset
  | cpy => exact h.execCpy
  | cpyt => exact h.execCpyt
  | gath => exact h.execGath
  | scat => exact h.execScat
  | xput => exact h.execXput
  | xget => exact h.execXget
  | xred => exact h.execXred
  | tktest => exact h.execTktest
  | copySegment => exact h.execCopySegment
  | fixupService => exact h.execFixupService
  | networkSegment => exact h.execNetworkSegment
  | wload => exact h.execWload
  | wloadCommand => exact h.execWloadCommand
  | mma => exact h.execMma
  | mmaCommand => exact h.execMmaCommand
  | mmas => exact h.execMmas
  | mmasClr => exact h.execMmasClr
  | accz => exact h.execAccz
  | accld => exact h.execAccld
  | accst => exact h.execAccst
  | accstCommand => exact h.execAccstCommand
  | accstat => exact h.execAccstat
  | publish => exact h.execPublish
  | adopt => exact h.execAdopt
  | adoptSpill => exact h.execAdoptSpill
  | retract => exact h.execRetract
  | fbar => exact h.execFbar
  | rgnq => exact h.execRgnq
  | launch => exact h.execLaunch
  | launchAccept => exact h.execLaunchAccept
  | handle => exact h.execHandle
  | unhandle => exact h.execUnhandle
  | perform => exact h.execPerform
  | resume => exact h.execResume
  | unwind => exact h.execUnwind
  | effq => exact h.execEffq
  | swriteElogclr => exact h.execSwriteElogclr
  | swriteLogmark => exact h.execSwriteLogmark
  | swrite => exact h.execSwrite
  | errqPop => exact h.execErrqPop
  | errqPeek => exact h.execErrqPeek
  | errqCnt => exact h.execErrqCnt
  | bkpt => exact h.execBkpt
  | isaMissing => exact h.execIsaMissing
  | lineFetch => exact h.execLineFetch
  | coreIssue => exact h.execCoreIssue
  | resultArrival => exact h.execResultArrival
  | waitConditionMet => exact h.execWaitConditionMet
  | effectDelivery => exact h.execEffectDelivery
  | missingEmulation => exact h.execMissingEmulation
  | missingSignalAnswer => exact h.execMissingSignalAnswer
  | stuckDeadlock => exact h.execStuckDeadlock
  | hbarDeadlock => exact h.execHbarDeadlock
  | bindTeam => exact h.execBindTeam
  | dispatch => exact h.execDispatch
  | dispatchReady => exact h.execDispatchReady
  | teamRetire => exact h.execTeamRetire
  | homeAccess => exact h.execHomeAccess
  | l1Eviction => exact h.execL1Eviction
  | tableWalk => exact h.execTableWalk
  | makeResident => exact h.execMakeResident
  | pageMigration => exact h.execPageMigration
  | sliceEnd => exact h.execSliceEnd
  | halt => exact h.execHalt
  | haltComplete => exact h.execHaltComplete
  | haltWatchdog => exact h.execHaltWatchdog
  | staleReplyDrop => exact h.execStaleReplyDrop
  | teamResume => exact h.execTeamResume
  | haltPointFire => exact h.execHaltPointFire
  | makeCold => exact h.execMakeCold
  | contextRestore => exact h.execContextRestore
  | attest => exact h.execAttest
  | ctxCreate => exact h.execCtxCreate
  | ctxDestroy => exact h.execCtxDestroy
  | map => exact h.execMap
  | unmap => exact h.execUnmap
  | load => exact h.execLoad
  | start => exact h.execStart
  | wait => exact h.execWait
  | query => exact h.execQuery
  | haltatArm => exact h.execHaltatArm
  | haltatRelease => exact h.execHaltatRelease
  | haltatDisarm => exact h.execHaltatDisarm
  | handleEntryWrite => exact h.execHandleEntryWrite
  | rmaAccess => exact h.execRmaAccess
  | storageTransfer => exact h.execStorageTransfer
  | boot => exact h.execBoot
  | monitorRead => exact h.execMonitorRead
  | marginReplan => exact h.execMarginReplan
  | uncorrectableError => exact h.execUncorrectableError
  | acczCommand => exact h.execAcczCommand
  | pageEviction => exact h.execPageEviction
  | icacheEviction => exact h.execIcacheEviction
  | partitionBoundaryMove => exact h.execPartitionBoundaryMove

/-! ### Machine/Placing.lean -/

theorem Canonical.opened (h : Canonical s) : Canonical s.opened := h.frame

theorem Canonical.dropAgenda (h : Canonical s) : Canonical s.dropAgenda := h.setAgenda

/-! ### Machine/Step.lean -/

/-- A batch that issues: what its slot decodes to is executed, or its lanes raise ISA.ILLEGAL, or the state is left as formed. -/
theorem Canonical.runIssueMove (h : Canonical s) {b more} : Kept (State.runMove (s.issueMove b more)) := by
  unfold State.issueMove
  split
  · exact h.exec
  · next u e =>
    have hu : Canonical u := by
      have := h.issueNext (b := b) (rest := more)
      rwa [e] at this
    split
    · exact hu
    · split
      · exact hu.exec
      · exact hu.raiseIllegal

theorem Canonical.step (h : Canonical s) : Kept (step s) := by
  have hm : Kept (State.runMove s.move) := by
    unfold State.move
    split
    · exact h.opened.runIssueMove
    · exact h.opened.dropAgenda.exec
    · exact h.opened.exec
  unfold Machine.step
  split
  · split
    · exact hm
    · exact trivial
  · exact hm

end

/-- Settles O60: every operation of the model keeps the canonical forms, and a step is one move of them. -/
theorem stepsKeepTheCanonicalForms : Obligations.StepsKeepTheCanonicalForms := by
  intro s t h e
  have hk := h.step
  rw [e] at hk
  exact hk

end Sys2Proof.Claims

/-!
# O7 and O23: a lone lane that calls through a descriptor or hands a command to an engine
-/

namespace Sys2Proof.Claims
open Machine

variable {s : State} {n : Need} {b : Batch} {l : Nat} {x : Fibre}

/-! ### One lane that fails its own checks, and the elected lane (R83, R250) -/

theorem maskOf_single {l : Nat} (h : l < 32) : (maskOf [l]).toNat = 2 ^ l := by
  have : 2 ^ l < 2 ^ 32 := Nat.pow_lt_pow_right (by omega) h
  simp [maskOf]
  omega

/-- `SMASK` of a batch of one lane names that lane (R250). -/
theorem withSmask_lone {α : Type} {ln : Ln} (h : ln.l < 32) (e : Err) :
    withSmask (smaskOf [(ln, (Prep.err e : Prep α))]) e = withLane ln.l e := by
  unfold withSmask withLane
  by_cases he : e.eff = Eff.memScratch
  · simp [smaskOf, he, maskOf_single h, show Eff.memScratch = 0x021 from rfl]
  · simp [he, show e.eff ≠ 0x021 from he]

/-- A lone lane whose own checks raise (R248, R250). -/
theorem runChecked_lone_err {α : Type} (h : Lone s n b l x) (hl : l < 32) {prep : Ln → Vals → State → Prep α}
    {body : Ln → Vals → α → State → State} {e : Err}
    (hp : prep (s.laneOf b l) (s.readVals n b l) (past s b l) = .err e) :
    runChecked n prep body s = raised s b l (withLane l e) := by
  have hm := withSmask_lone (α := α) (ln := s.laneOf b l) hl e
  simp only [State.laneOf_l] at hm
  simp only [runChecked, runBatch_lone h, List.map_cons, List.map_nil, hp, List.foldl_cons, List.foldl_nil, hm]
  rfl

/-- A lane that runs an instruction has a true guard, and where the instruction needs a live fibre is no helper (R64, R164). -/
theorem fate_go (h : s.fate n b l = .go) :
    s.guard b l n.head.guard = true ∧ (n.live = true → (s.fibre (b.fib l)).helper = false) := by
  unfold State.fate at h
  constructor
  · by_contra hg
    rw [Bool.not_eq_true] at hg
    simp [hg] at h
  · intro hn
    by_contra hh
    simp only [Bool.not_eq_false] at hh
    simp only [hh, hn, Bool.and_self, if_true] at h
    repeat' split at h
    all_goals cases h

theorem Lone.elected {m : Need} (h : Lone s { m with live := true } b l x) : s.elect m.head.guard b = some l := by
  obtain ⟨hg, hh⟩ := fate_go h.fate
  simp [State.elect, h.lanes, show s.guard b l m.head.guard = true from hg, hh rfl]

/-- An instruction that the elected lane performs, over a batch of that lane alone (R83). -/
theorem runElect_lone {m : Need} (h : Lone s { m with live := true } b l x) (body : Ln → Vals → State → State) :
    runElect m body s = body (s.laneOf b l) (s.readVals m b l) (past s b l) := by
  have ht : ((past s b l).fibre (b.fib l)).tokAcq = [] := by
    rw [past, State.fibre_modFibre s _ h.fibre]
    exact h.token
  have := State.tokenAcquires_none (past s b l) m (b.fib l) ht
  simp [runElect, h.cur, h.lanes, h.fate, Lone.elected h, State.settleLane, past_eq, this]

/-! ### CALLX (R94, R157, R183) -/

/-- CALLX before its read finds the place of the descriptor where its checks pass (R183, R275). -/
theorem callxPrep_ok {o : SY} {ln : Ln} {v : Vals} {a : Acc} (hh : s.acqHeld ln.f = false)
    (hc : s.check ln.f (immHandle o.imm).toNat (eaOff (immOffset o.imm) v.a)
      { spaces := [1, 2, 3, 4, 5], n := 16, align := 16, rd := true } = .ok a)
    (hk : s.kindErr ln.f (immHandle o.imm).toNat (eaOff (immOffset o.imm) v.a) [1, 2, 3, 4, 5] = none) :
    callxPrep o ln v s = .ok a := by
  simp [callxPrep, hh, hk, hc]

/-- Settles O7: the checks pass, the descriptor is read and is valid, so the call that is left is the transfer. -/
theorem callxEntersTheDescribedFunction : Obligations.CallxEntersTheDescribedFunction := by
  intro o s b l x a d u n h hh hc hk hr hd
  have hp : callxPrep o (s.laneOf b l) (s.readVals n b l) (past s b l) = .ok a := callxPrep_ok hh hc hk
  show execCallx o s = _
  unfold execCallx
  rw [runChecked_lone h hp]
  simp only [State.laneOf_f, State.laneOf_b, hr, hd, Bool.not_true, Bool.false_eq_true, if_false]
  rfl

/-! ### The instructions that hand a command to an engine (R284) -/

/-- Each of them runs its checks lane by lane, or in the elected lane, and then issues its command. -/
theorem exec_engineOp {i : Instr} {op : EngineOp} (h : engineOp i = some op) :
    (∀ s, exec i s = .next (runChecked op.need op.prep (fun ln _ k s => issueCmd s ln (op.cmd s ln k)) s)) ∨
    ∃ m : Need, op.need = { m with live := true } ∧
      ∀ s, exec i s = .next (runElectChecked m op.prep (fun ln _ k s => issueCmd s ln (op.cmd s ln k)) s) := by
  unfold engineOp at h
  split at h
  case h_1 | h_5 | h_6 | h_7 => cases h; exact .inl fun _ => rfl
  case h_2 | h_3 | h_4 | h_9 | h_10 => cases h; exact .inr ⟨_, rfl, fun _ => rfl⟩
  case h_8 o => cases h; exact .inr ⟨mmaNeed o, rfl, fun _ => rfl⟩
  case h_11 => cases h

theorem engineOp_raises {i : Instr} {op : EngineOp} (h : engineOp i = some op) (hL : Lone s op.need b l x) (hl : l < 32) {e : Err}
    (hp : op.prep (s.laneOf b l) (s.readVals op.need b l) (past s b l) = .err e) :
    exec i s = .next (raised s b l (withLane l e)) := by
  rcases exec_engineOp h with hx | ⟨m, hm, hx⟩
  · rw [hx, runChecked_lone_err hL hl hp]
  · rw [hm] at hL hp
    rw [hx, runElectChecked, runElect_lone hL]
    simp only [show op.prep (s.laneOf b l) (s.readVals m b l) (past s b l) = .err e from hp]
    rfl

theorem engineOp_issues {i : Instr} {op : EngineOp} (h : engineOp i = some op) (hL : Lone s op.need b l x) {k : CmdKind}
    (hp : op.prep (s.laneOf b l) (s.readVals op.need b l) (past s b l) = .ok k) :
    exec i s = .next (issueCmd (past s b l) (s.laneOf b l) (op.cmd (past s b l) (s.laneOf b l) k)) := by
  rcases exec_engineOp h with hx | ⟨m, hm, hx⟩
  · rw [hx, runChecked_lone hL hp]
  · rw [hm] at hL hp
    rw [hx, runElectChecked, runElect_lone hL]
    simp only [show op.prep (s.laneOf b l) (s.readVals m b l) (past s b l) = .ok k from hp]

@[simp] theorem EngineOp.cmd_kind (op : EngineOp) (s : State) (ln : Ln) (k : CmdKind) : (op.cmd s ln k).kind = k := by
  unfold EngineOp.cmd
  split <;> rfl

/-! ### What issuing a command leaves (R284, R285) -/

theorem touchHandle_frame (s : State) (f h : Nat) : s.touchHandle f h = { s with cores := (s.touchHandle f h).cores } := by
  unfold State.touchHandle
  split
  · rfl
  · dsimp only
    split <;> rfl

@[simp] theorem touchHandle_mod (s : State) (f h : Nat) : (s.touchHandle f h).mod = s.mod := by rw [touchHandle_frame]
@[simp] theorem touchHandle_fibre? (s : State) (f h g : Nat) : (s.touchHandle f h).fibre? g = s.fibre? g := by
  rw [touchHandle_frame]; rfl

@[simp] theorem tokOpen_mod (s : State) (f : Nat) (r : Option Nat) : (s.tokOpen f r).mod = s.mod := by cases r <;> rfl

/-- An opened token is pending on its register (R285). -/
theorem tokOpen_tokPending {f r : Nat} {y : Fibre} (h : s.fibre? f = some y) :
    ((s.tokOpen f (some r)).fibre f).tokPending r = true := by
  simp [State.tokOpen, State.fibre_modFibre s _ h, Fibre.tokPending, mapHas, mapModD]

/-- A command handed over stands in the table under the next number, in the next place of the order. -/
theorem mapGet_addCmd_nextCmd (s : State) (c : Cmd) :
    mapGet (s.addCmd c).cmds s.mod.nextCmd = some { c with order := s.mod.nextOrder } := by
  simp [State.addCmd]

section
variable {ln : Ln} {c : Cmd}

theorem issueCmd_tokFull (h : tokFull (s.fibre ln.f) c.tok = true) : issueCmd s ln c = s.waitAt ln .tokTable := by
  simp [issueCmd, issueThen, h]

theorem issueCmd_engineFull (h : tokFull (s.fibre ln.f) c.tok = false) (he : s.engineFull (s.coreOf ln.f) c.kind = true) :
    issueCmd s ln c = s.stall ln := by
  simp [issueCmd, issueThen, h, he]

theorem issueCmd_done {u : State} (h : tokFull (s.fibre ln.f) c.tok = false) (he : s.engineFull (s.coreOf ln.f) c.kind = false)
    (hr : s.release ln.f (if isNet c.kind then .die else .core) = (.done, u)) :
    issueCmd s ln c = (((u.touchHandle ln.f c.hx).touchHandle ln.f c.hy).tokOpen ln.f c.tok).addCmd c := by
  simp [issueCmd, issueThen, h, he, afterRelease, hr]

end

/-- Settles O23: the checks decide between the raise and the issue, and the issue waits, stalls, or opens the token and hands over. -/
theorem engineCommandsIssue : Obligations.EngineCommandsIssue := by
  intro i op h s b l x hL p f v
  refine ⟨fun e hl hp => engineOp_raises h hL hl hp, ?_⟩
  intro k hp c
  have hk : c.kind = k := op.cmd_kind ..
  have hx : exec i s = .next (issueCmd p (s.laneOf b l) c) := engineOp_issues h hL hp
  clear_value c p
  subst hk
  rw [hx]
  refine ⟨fun ht => ?_, fun ht hf => ?_, fun u ht hf hr => ⟨_, ?_, rfl, ?_, fun r y hr' hy => ?_⟩⟩
  · exact congrArg _ (issueCmd_tokFull ht)
  · exact congrArg _ (issueCmd_engineFull ht hf)
  · exact congrArg _ (issueCmd_done ht hf hr)
  · simpa using mapGet_addCmd_nextCmd (((u.touchHandle f c.hx).touchHandle f c.hy).tokOpen f c.tok) c
  · show (State.fibre (((u.touchHandle f c.hx).touchHandle f c.hy).tokOpen f c.tok) f).tokPending r = true
    rw [hr']
    exact tokOpen_tokPending (by simpa using hy)

end Sys2Proof.Claims

/-!
# Requests to Cupola (R429-R431), with O50 and O51

A request that reaches a running module first in its flow takes effect at once: `Serves.request` says so once for every request for a
context, and what is left of each statement is what the request itself does.
-/

namespace Sys2Proof.Claims
open Machine

variable {s : State} {m : Msg} {rtype : Nat} {i : Instr}

/-! ### A request in its turn -/

theorem answer_eq_replied (s : State) (m : Msg) (rstat : Nat) (data : List Byte) : s.answer m rstat data = replied s m rstat data := rfl

theorem Asked.received (h : Asked s m rtype) (act : State) : s.received rtype m act = act := by
  obtain ⟨hl, hb, ht⟩ := h.head
  simp [State.received, h.boot, hl, hb, ht]

/-- A request that nothing waits before and that must not wait itself takes effect, or waits where what it asks for cannot be done yet. -/
theorem Asked.inTurn (h : Asked s m rtype) (act : State → Option State) : s.inTurn m i true act = (act s).getD (s.holdRequest i) := by
  obtain ⟨ha, hw⟩ := h.first
  simp [State.inTurn, ha, hw]

theorem Serves.request {x : Context} (h : Serves s m rtype x) (act : Context → State → Option State) :
    s.request rtype m i act = (act x s).getD (s.holdRequest i) := by
  obtain ⟨hd, hc⟩ := h.live
  rw [State.request, h.asked.received]
  simp only [h.here, hd, hc, h.calm, Bool.false_eq_true, if_false, Bool.not_false, Bool.and_self]
  exact h.asked.inTurn _

/-- A request for a context that does not exist is answered NOCTX (R430). -/
theorem Asked.request_noctx (h : Asked s m rtype) (hn : s.ctx? m.ctx = none) (act : Context → State → Option State) :
    s.request rtype m i act = replied s m 2 [] := by
  obtain ⟨ha, -⟩ := h.first
  simp [State.request, h.received, hn, ha, answer_eq_replied]

/-- A request for a cold context, or behind a START of its flow that is not accepted, waits (R409, R431). -/
theorem Asked.request_waits {x : Context} (h : Asked s m rtype) (hx : s.ctx? m.ctx = some x) (hd : x.destroyed = false)
    (hw : x.cold = true ∨ s.startDue m = true) (act : Context → State → Option State) :
    s.request rtype m i act = s.holdRequest i := by
  obtain ⟨ha, -⟩ := h.first
  have hr : (!x.cold && !s.startDue m) = false := by rcases hw with e | e <;> simp [e]
  simp [State.request, h.received, hx, hd, hr, State.inTurn, ha]

/-- A message that has not waited is held as it came. -/
theorem Asked.sent (h : Asked s m rtype) : { m with again := false } = m := by
  obtain ⟨ha, -⟩ := h.first
  cases m
  simp_all

theorem holdRequest_asSent (he : asSent i = i) :
    s.holdRequest i = s.modMod (fun y => { y with inbox := y.inbox ++ [i] }) := by
  rw [State.holdRequest, he]

/-! ### Frames that Cupola has, and frames that it lacks (R429) -/

theorem withFrames_enough {k : Nat} {done : Option State} (h : k ≤ s.framesLeft) : s.withFrames m k done = done := by
  simp [State.withFrames, Nat.not_lt.2 h]

theorem withFrames_lacking {k : Nat} {done : Option State} (h : s.framesLeft < k) : s.withFrames m k done = some (replied s m 4 []) := by
  simp [State.withFrames, h, answer_eq_replied]

/-! ### CTX.CREATE (R401, R402, R430) -/

/-- What CTX.CREATE leaves where it is done, but for its answer: the context under the next number, and its table empty. -/
def created (s : State) (r : CtxCreateReq) : State :=
  (({ s with dram := s.dram.zero (r.root * 2 ^ 16) (2 ^ 16), ctxs := mapSet s.ctxs s.mod.nextCtx (newContext s r) }).modFrame r.root
    (fun x => { x with owner := some s.mod.nextCtx })).modMod (fun x => { x with nextCtx := s.mod.nextCtx + 1 })

theorem created_ctx? (s : State) (r : CtxCreateReq) : (created s r).ctx? s.mod.nextCtx = some (newContext s r) := by
  simp [created, State.ctx?, State.modFrame]

section
variable {r : CtxCreateReq} (ha : Asked s m 2) (hp : mapHas s.parts r.part = true) (hm : r.missingMode ≤ 1) (hk : r.keys ≠ [])
  (hl : ∀ k ∈ r.keys, k < 512)
include ha hp hm hk hl

/-- CTX.CREATE with fields in range: DENIED where a key is taken, else it needs one frame (R401, R402). -/
theorem ctxCreate_inRange : exec (.ctxCreate (m, r)) s = .next
    ((if r.keys.any (s.keyTaken r.tenant) then some (replied s m 3 [])
      else s.withFrames m 1 (if !s.frameFree r.root || r.cwbase % 2 ^ 32 != 0 || decide (2 ^ 52 ≤ r.cwbase) then none
        else some (replied (created s r) m 0 (leBytes 4 s.mod.nextCtx)))).getD (s.holdRequest (.ctxCreate (m, r)))) := by
  have hl' : r.keys.any (fun k => decide (512 ≤ k)) = false := by simpa using hl
  show execCtxCreate (m, r) s = _
  rw [execCtxCreate]
  simp only [ha.received, ha.inTurn, hp, hl', List.isEmpty_eq_false_iff.2 hk, show ¬ 1 < r.missingMode by omega, decide_false,
    Bool.not_true, Bool.or_self, Bool.false_eq_true, if_false]
  rfl

theorem ctxCreate_denied (h : ∃ k ∈ r.keys, s.keyTaken r.tenant k = true) :
    exec (.ctxCreate (m, r)) s = .next (replied s m 3 []) := by
  rw [ctxCreate_inRange ha hp hm hk hl, if_pos (List.any_eq_true.2 h)]
  rfl

theorem ctxCreate_nores (h : ∀ k ∈ r.keys, s.keyTaken r.tenant k = false) (hf : s.framesLeft < 1) :
    exec (.ctxCreate (m, r)) s = .next (replied s m 4 []) := by
  rw [ctxCreate_inRange ha hp hm hk hl, if_neg (by simpa using h), withFrames_lacking hf]
  rfl

theorem ctxCreate_done (h : ∀ k ∈ r.keys, s.keyTaken r.tenant k = false) (hf : 1 ≤ s.framesLeft) (hr : s.frameFree r.root = true)
    (ho : r.cwbase % 2 ^ 32 = 0) (hw : r.cwbase < 2 ^ 52) :
    exec (.ctxCreate (m, r)) s = .next (replied (created s r) m 0 (leBytes 4 s.mod.nextCtx)) := by
  have hc : ¬(!s.frameFree r.root || r.cwbase % 2 ^ 32 != 0 || decide (2 ^ 52 ≤ r.cwbase)) = true := by
    simp only [hr, ho, Nat.not_le.2 hw]
    decide
  rw [ctxCreate_inRange ha hp hm hk hl, if_neg (by simpa using h), withFrames_enough hf, if_neg hc]
  rfl

end

/-! ### CTX.DESTROY (R406, R430) -/

theorem freeFrames_frame (s : State) (c : Nat) :
    s.freeFrames c = { s with cores := (s.freeFrames c).cores, dies := (s.freeFrames c).dies, frames := (s.freeFrames c).frames } := by
  unfold State.freeFrames
  generalize s.framesOf c = ns
  induction ns generalizing s with
  | nil => rfl
  | cons n ns ih =>
    rw [List.foldl_cons, ih]
    rfl

@[simp] theorem freeFrames_teams (s : State) (c : Nat) : (s.freeFrames c).teams = s.teams := by rw [freeFrames_frame]

@[simp] theorem failRequests_teams (s : State) (c : Nat) : (s.failRequests c).teams = s.teams := by
  unfold State.failRequests
  dsimp only
  generalize (_ ++ _ ++ _ : List Msg) = late
  have h (t : State) : (late.foldl (fun s n => s.answer n 2 []) t).teams = t.teams := by
    induction late generalizing t with
    | nil => rfl
    | cons n ns ih => rw [List.foldl_cons, ih]; rfl
  rw [h]
  rfl

/-- What a destroyed context keeps (R406): no ASID, no queue, no work. -/
def emptied (x : Context) : Context :=
  { x with asids := [], queues := [], point := none, stored := [], flask := [], image := none, destroyed := true }

/-- The state once a context's teams have retired: its work, frames and cached copies go, and its turn with them. -/
def torndown (s : State) (p c : Nat) : State :=
  let v := ((s.clearWork c).freeFrames c).forgetCtx c
  (if (v.partOf c).turn = some c then v.setTurn p none else v).modCtx c emptied

theorem destroyCtx_eq (s : State) (c : Nat) : s.destroyCtx c =
    (((s.failRequests c).modCtx c (fun x => { x with submits := [] })).endTeams c).map (fun v => torndown v (s.ctx c).part c) := rfl

theorem torndown_ctx? {p c : Nat} {y : Context} (h : (torndown s p c).ctx? c = some y) : y.destroyed = true ∧ y.asids = [] := by
  rw [torndown, State.ctx?_modCtx, Option.map_eq_some_iff] at h
  obtain ⟨x, -, rfl⟩ := h
  exact ⟨rfl, rfl⟩

theorem torndown_teams (s : State) (p c : Nat) : ∀ e ∈ (torndown s p c).teams, e.2.ctx ≠ c := by
  have h : (torndown s p c).teams = (s.clearWork c).teams := by
    unfold torndown
    dsimp only
    split <;> simp [State.setTurn, State.forgetCtx]
  rw [h]
  intro e he
  simpa using (List.mem_filter.1 he).2

theorem torndown_tlb (s : State) (p c : Nat) : ∀ e ∈ (torndown s p c).tlb, e.ctx ≠ c := by
  have h : (torndown s p c).tlb = (((s.clearWork c).freeFrames c).forgetCtx c).tlb := by
    unfold torndown
    dsimp only
    split <;> rfl
  rw [h]
  intro e he
  simpa using (List.mem_filter.1 he).2

/-- A context is destroyed only once its teams have retired: then nothing of it is bound or cached. -/
theorem destroyCtx_some {c : Nat} {u : State} (h : s.destroyCtx c = some u) : ∃ v p, u = torndown v p c := by
  rw [destroyCtx_eq, Option.map_eq_some_iff] at h
  obtain ⟨v, -, rfl⟩ := h
  exact ⟨v, _, rfl⟩

/-- A context without bound teams has none to wait for. -/
theorem destroyCtx_isSome {c : Nat} (h : s.teamsOf c = []) : (s.destroyCtx c).isSome = true := by
  have ht : ((s.failRequests c).modCtx c (fun x => { x with submits := [] })).teamsOf c = [] := by
    simpa [State.teamsOf] using h
  rw [destroyCtx_eq, Option.isSome_map, State.endTeams]
  split
  · rfl
  · simp [State.killAll, ht, State.retireAll]

section
variable {x : Context} (h : Serves s m 3 x)
include h

theorem ctxDestroy_waits (hd : s.destroyCtx m.ctx = none) :
    exec (.ctxDestroy m) s = .next (s.modMod (fun y => { y with inbox := y.inbox ++ [.ctxDestroy m] })) := by
  show execCtxDestroy _ _ = _
  rw [execCtxDestroy, h.request, hd, holdRequest_asSent (by simp [asSent, h.asked.sent])]
  rfl

theorem ctxDestroy_done {u : State} (hd : s.destroyCtx m.ctx = some u) : exec (.ctxDestroy m) s = .next (replied u m 0 []) := by
  show execCtxDestroy _ _ = _
  rw [execCtxDestroy, h.request, hd]
  rfl

end

/-- R401, R402, R406, R409, R430, R431: contexts are made, destroyed, refused and waited for. -/
theorem contextsComeAndGo : ContextsComeAndGo := by
  refine ⟨?_, ?_, ?_, ?_⟩
  · intro s m r ha hp hm hk hl
    refine ⟨ctxCreate_denied ha hp hm hk hl, ctxCreate_nores ha hp hm hk hl, fun hn hf hr ho hw => ?_⟩
    exact ⟨_, ctxCreate_done ha hp hm hk hl hn hf hr ho hw, created_ctx? s r, rfl, rfl, rfl⟩
  · intro s m hn
    refine ⟨fun h => ?_, fun h r => ?_, fun h va n => ?_, fun h o p => ?_⟩ <;> exact congrArg _ (h.request_noctx hn _)
  · intro s m x hx hd hw
    refine ⟨fun h => ?_, fun h va n => ?_⟩
    · rw [← holdRequest_asSent (i := .ctxDestroy m) (by simp [asSent, h.sent])]
      exact congrArg _ (h.request_waits hx hd hw _)
    · rw [← holdRequest_asSent (i := .unmap m va n) (by simp [asSent, h.sent])]
      exact congrArg _ (h.request_waits hx hd hw _)
  · intro s m x h
    refine ⟨ctxDestroy_waits h, fun u hu => ⟨ctxDestroy_done h hu, ?_⟩, destroyCtx_isSome⟩
    obtain ⟨v, p, rfl⟩ := destroyCtx_some hu
    exact ⟨fun y => torndown_ctx?, torndown_teams v p _, torndown_tlb v p _⟩

/-! ### MAP (R430) -/

/-- MAP of a range of pages that are not mapped, under a key of the context, with enough frames. -/
theorem map_done {x : Context} {r : MapReq} {t : State} (h : Serves s m 4 x) (hr : pageRange r.va r.len = true)
    (hn : ∀ a ∈ rangePages r.va r.len, s.walk m.ctx a = none) (hk : ∃ k ∈ x.keys, k.1 = r.key)
    (hf : r.resident = true → r.frames.length = (rangePages r.va r.len).length)
    (hl : (if r.resident then (rangePages r.va r.len).length else 0) + s.tablesFor m.ctx (rangePages r.va r.len) ≤ s.framesLeft)
    (hm : s.mapPages m.ctx ((rangePages r.va r.len).zipIdx.map (fun e => mapSpec m r e.1 e.2)) r.tables = some t) :
    exec (.map (m, r)) s = .next (replied t m 0 []) := by
  have hw : (rangePages r.va r.len).any (fun va => (s.walk m.ctx va).isSome) = false := by
    simpa using hn
  have hk' : x.keys.any (fun k => k.1 == r.key) = true := by simpa using hk
  have hf' : (r.resident && r.frames.length != (rangePages r.va r.len).length) = false := by
    cases e : r.resident
    · rfl
    · simp [hf e]
  show execMap (m, r) s = _
  rw [execMap, h.request]
  simp only [hr, hw, hk', hf', withFrames_enough hl, hm, Bool.not_true, Bool.or_self, Bool.false_eq_true, if_false, Option.map_some,
    Option.getD_some, answer_eq_replied]

/-! ### UNMAP (R264, R430) -/

theorem unmapPages_unmapped {c : Nat} {vas : List Nat} (h : ∀ a ∈ vas, s.walk c a = none) : s.unmapPages c vas = some s := by
  induction vas with
  | nil => rfl
  | cons a vas ih =>
    obtain ⟨ha, hv⟩ := List.forall_mem_cons.1 h
    simp [State.unmapPages, State.unmapPage, ha, ih hv]

/-- UNMAP of a range in which no page is migrating: it waits where a page's accesses have not drained. -/
theorem unmap_still {x : Context} {va len : Nat} (h : Serves s m 5 x) (hr : pageRange va len = true)
    (hm : ∀ a ∈ rangePages va len, ∀ l, s.walk m.ctx a = some l → s.movingAt l = none) :
    exec (.unmap m va len) s = .next (((s.unmapPages m.ctx (rangePages va len)).map (fun t => replied t m 0 [])).getD
      (s.modMod (fun y => { y with inbox := y.inbox ++ [.unmap m va len] }))) := by
  have hm' : (rangePages va len).any (fun a => match s.walk m.ctx a with
      | some l => (s.movingAt l).isSome
      | none => false) = false := by
    rw [List.any_eq_false]
    intro a ha
    cases hw : s.walk m.ctx a with
    | none => simp
    | some l => simp [hm a ha l hw]
  show execUnmap _ _ _ _ = _
  rw [execUnmap, h.request, holdRequest_asSent (by simp [asSent, h.asked.sent])]
  simp only [hr, Bool.not_true, Bool.false_eq_true, if_false]
  split
  · next e => exact absurd (hm'.symm.trans e) (by decide)
  · rfl

theorem unmap_unmapped {x : Context} {va n : Nat} (h : Serves s m 5 x) (hr : pageRange va n = true)
    (hn : ∀ a ∈ rangePages va n, s.walk m.ctx a = none) : exec (.unmap m va n) s = .next (replied s m 0 []) := by
  rw [unmap_still h hr (fun a ha l hl => by simp [hn a ha] at hl), unmapPages_unmapped hn]
  rfl

theorem rangePages_one (va : Nat) : rangePages va (2 ^ 16) = [va] := by simp [rangePages]

theorem unmap_page {x : Context} {va : Nat} {l : Leaf} (h : Serves s m 5 x) (ha : va % 2 ^ 16 = 0) (hb : va + 2 ^ 16 ≤ 2 ^ 52)
    (hl : s.walk m.ctx va = some l) (hm : s.movingAt l = none) :
    exec (.unmap m va (2 ^ 16)) s = .next (((s.unmapPage m.ctx va).map (fun t => replied t m 0 [])).getD
      (s.modMod (fun y => { y with inbox := y.inbox ++ [.unmap m va (2 ^ 16)] }))) := by
  have hr : pageRange va (2 ^ 16) = true := by simp only [pageRange, ha, hb]; decide
  rw [unmap_still h hr]
  · rw [rangePages_one, State.unmapPages]
    cases s.unmapPage m.ctx va <;> rfl
  · intro a ha' l' hl'
    rw [rangePages_one, List.mem_singleton] at ha'
    subst ha'
    rw [hl] at hl'
    cases hl'
    exact hm

/-! ### LOAD (R105) -/

/-- Where the loader puts an object (R105, step 1), and its pages there under the context's first key. -/
def siteOf (x : Context) (pl : LoadPlace) : Site := { cw := x.cwbase, text := pl.textOff, rodata := pl.rodataVa, data := pl.dataVa }
def pagesOf (x : Context) (pl : LoadPlace) (o : Obj) : List PageSpec :=
  objPages o (siteOf x pl) ((x.keys.map (·.1)).headD 0) pl.frames

section
variable {x : Context} {obj : Obj} {pl : LoadPlace} (h : Serves s m 6 x) (hp : placeOk x obj (siteOf x pl) (pagesOf x pl obj) = true)
include h hp

theorem load_fails {report : List Byte} (hl : linkObj x obj (siteOf x pl) = .error report) :
    exec (.load m obj pl) s = .next (replied s m 1 report) := by
  show execLoad _ _ _ _ = _
  rw [execLoad, h.request]
  unfold siteOf at hl
  unfold pagesOf siteOf at hp
  simp only [hp, hl, Bool.not_true, Bool.false_eq_true, if_false, Option.getD_some, answer_eq_replied]

theorem load_done {l : Loaded} {t : State} (hl : linkObj x obj (siteOf x pl) = .ok l)
    (hn : (pagesOf x pl l.obj).length + s.tablesFor m.ctx ((pagesOf x pl l.obj).map (·.va)) ≤ s.framesLeft)
    (hf : ∀ g ∈ pagesOf x pl l.obj, g.frame.isSome = true) (ht : s.mapPages m.ctx (pagesOf x pl l.obj) pl.tables = some t) :
    exec (.load m obj pl) s = .next (replied (t.install m.ctx (siteOf x pl) l) m 0 []) := by
  have hf' : (pagesOf x pl l.obj).all (fun g => g.frame.isSome) = true := List.all_eq_true.2 hf
  show execLoad _ _ _ _ = _
  rw [execLoad, h.request]
  unfold siteOf at hl
  unfold pagesOf siteOf at hp hn hf' ht
  simp only [hp, hl, hf', ht, withFrames_enough hn, Bool.not_true, Bool.false_eq_true, if_false, Option.map_some, Option.getD_some,
    answer_eq_replied]
  rfl

end

/-- R105, R264, R430: pages are mapped, unmapped and loaded. -/
theorem pagesAreMapped : PagesAreMapped := by
  refine ⟨?_, ?_, ?_⟩
  · intro s m x r t h hr hn hk hf hl hm
    exact map_done h hr hn hk hf hl hm
  · intro s m x h
    refine ⟨fun va n => unmap_unmapped h, fun va l ha hb hl hm => ?_⟩
    rw [unmap_page h ha hb hl hm]
    refine ⟨fun u hu => ?_, fun hu => ?_⟩ <;> rw [hu] <;> rfl
  · intro s m x obj pl h at_ pages hp
    exact ⟨fun report => load_fails h hp, fun l t hl hn hf => load_done h hp hl hn hf⟩

/-- Settles O50: contexts come and go, and their pages are mapped. -/
theorem contextsAreManaged : Obligations.ContextsAreManaged := ⟨contextsComeAndGo, pagesAreMapped⟩

end Sys2Proof.Claims

/-!
# O51: START, WAIT, QUERY and the write of a handle entry (R106, R108, R424, R427)
-/

namespace Sys2Proof.Claims
open Machine

variable {s : State} {m : Msg} {x : Context}

/-! ### START (R108) -/

section
variable {r : StartReq} (h : Serves s m 7 x)
include h

theorem start_unnamed (hb : startBlock x r.name = none) : exec (.start (m, r)) s = .next (replied s m 1 []) := by
  show execStart (m, r) s = _
  rw [execStart, h.request, hb]
  rfl

variable {nb : NamedBlock} (hb : startBlock x r.name = some nb) (hk : blockOk (s.codeEntry m.ctx) nb.bytes = true)
include hb hk

/-- START waits while its queue is full (R113). -/
theorem start_waits (hq : 64 ≤ s.queueLoad m.ctx (blockOfBytes nb.bytes).queue) :
    exec (.start (m, r)) s = .next (s.modMod (fun y => { y with inbox := y.inbox ++ [.start (m, r)] })) := by
  show execStart (m, r) s = _
  rw [execStart, h.request, holdRequest_asSent (by simp [asSent, h.asked.sent])]
  simp only [hb, hk, hq, Bool.not_true, Bool.false_eq_true, if_false, if_true, Option.getD_none]

/-- START hands the block's launch over (R108, R114). -/
theorem start_submits (hq : s.queueLoad m.ctx (blockOfBytes nb.bytes).queue < 64) :
    exec (.start (m, r)) s = .next (s.submit m.ctx
      { name := some nb.id, msg := some m, blk := blockOfBytes nb.bytes, shape := r.shape,
        after := m.flags.testBit 0, whole := m.flags.testBit 1, parent := none, holder := .cupola }) := by
  show execStart (m, r) s = _
  rw [execStart, h.request]
  simp only [hb, hk, Nat.not_le.2 hq, Bool.not_true, Bool.false_eq_true, if_false, Option.getD_some]
  rfl

end

/-! ### WAIT (R424) and QUERY (R396, R427) -/

theorem wait_unknown {lid : Nat} (h : Serves s m 8 x) (hl : s.launch? (launchKey m.ctx lid) = none) :
    exec (.wait m lid) s = .next (replied s m 1 []) := by
  show execWait _ _ _ = _
  rw [execWait, h.request, hl]
  rfl

/-- WAIT for a launch: its token where it has completed, else the wait is kept until it does. -/
theorem wait_known {lid : Nat} {L : Launch} (h : Serves s m 8 x) (hl : s.launch? (launchKey m.ctx lid) = some L) :
    exec (.wait m lid) s = .next (if L.done then replied s m 0 (leBytes 4 L.value)
      else s.modMod (fun y => { y with waits := y.waits ++ [(m, lid)] })) := by
  show execWait _ _ _ = _
  rw [execWait, h.request, hl]
  dsimp only
  split <;> rfl

theorem query_unknown {lid : Nat} {e : Bool} (h : Serves s m 9 x) (hl : s.launch? (launchKey m.ctx lid) = none) :
    exec (.query m lid e) s = .next (replied s m 1 []) := by
  show execQuery _ _ _ _ = _
  rw [execQuery, h.request, hl]
  rfl

theorem query_known {lid : Nat} {e : Bool} {L : Launch} (h : Serves s m 9 x) (hl : s.launch? (launchKey m.ctx lid) = some L) :
    exec (.query m lid e) s = .next (replied s m 0 (if e then escalData L else queryData L)) := by
  show execQuery _ _ _ _ = _
  rw [execQuery, h.request, hl]
  rfl

/-! ### A handle entry outside a load (R106) -/

theorem mapGet_mapAll {α : Type} (m : Map α) (k : Nat) (f : Nat → α → α) : mapGet (mapAll m f) k = (mapGet m k).map (f k) := by
  induction m with
  | nil => rfl
  | cons e m ih =>
    obtain ⟨j, v⟩ := e
    by_cases h : j = k
    · subst h; simp [mapAll, mapGet]
    · simpa [mapAll, mapGet, h] using ih

theorem dropHandles_ctxs (s : State) (c : Nat) (hs : List Nat) : (s.dropHandles c hs).ctxs = s.ctxs := rfl
theorem dropCode_ctxs (s : State) (c base lines : Nat) : (s.dropCode c base lines).ctxs = s.ctxs := rfl

/-- No core's handle cache keeps an entry that is dropped. -/
theorem dropHandles_hcache (s : State) {c h : Nat} {hs : List Nat} (hh : h ∈ hs) (k : Nat) :
    (c, h) ∉ ((s.dropHandles c hs).core k).hcache := by
  unfold State.core mapGetD State.dropHandles
  rw [mapGet_mapAll]
  cases mapGet s.cores k with
  | none => simp [Core.reset]
  | some x => simp [hh]

/-- What goes of a core's I-cache leaves its handle cache alone. -/
theorem dropCode_hcache (s : State) (c base lines k : Nat) : ((s.dropCode c base lines).core k).hcache = (s.core k).hcache := by
  unfold State.core mapGetD State.dropCode
  rw [mapGet_mapAll]
  cases mapGet s.cores k <;> rfl

section
variable {c i : Nat} {e : List Byte} (hb : s.mod.boot = .running) (hx : s.ctx? c = some x) (hd : x.destroyed = false)
  (hc : x.cold = false)
include hb hx hd hc

/-- An index that is no user entry's, or an entry that is not 32 bytes long, is answered BADREQ. -/
theorem handleEntryWrite_refused (hi : i < 5 ∨ 4094 < i ∨ e.length ≠ 32) :
    exec (.handleEntryWrite c i e) s = .next (replied s (Msg.own c) 1 []) := by
  have hbad : (!decide (5 ≤ i ∧ i ≤ 4094) || e.length != 32) = true := by
    by_cases h5 : 5 ≤ i ∧ i ≤ 4094
    · have : e.length ≠ 32 := by omega
      simp [this]
    · simp [h5]
  show execHandleEntryWrite _ _ _ _ = _
  rw [execHandleEntryWrite]
  simp only [hb, hx, hd, hc, hbad, ne_eq, not_true_eq_false, Bool.false_eq_true, if_false, if_true]
  rfl

/-- The state once an entry has been written: its context's table and directory, and no cached copy of the entry or of its code. -/
def entryWritten (s : State) (c i : Nat) (old : Region) (y : Context) : State :=
  ((s.modCtx c (fun _ => y)).dropHandles c [i]).dropCode c old.base old.lines

theorem handleEntryWrite_written {y : Context} (h5 : 5 ≤ i) (hn : i ≤ 4094) (he : e.length = 32) (hw : writeEntry x i e = some y) :
    exec (.handleEntryWrite c i e) s =
      .next (replied (entryWritten s c i (mapGetD x.regions i default) y) (Msg.own c) 0 []) := by
  show execHandleEntryWrite _ _ _ _ = _
  rw [execHandleEntryWrite]
  simp only [hb, hx, hd, hc, h5, hn, he, hw, ne_eq, not_true_eq_false, and_self, decide_true, Bool.not_true, bne_self_eq_false,
    Bool.or_self, Bool.false_eq_true, if_false]
  rfl

end

theorem entryWritten_ctx? {c : Nat} (hx : s.ctx? c = some x) (i : Nat) (old : Region) (y : Context) :
    (entryWritten s c i old y).ctx? c = some y := by
  rw [entryWritten, State.ctx?, dropCode_ctxs, dropHandles_ctxs]
  exact (State.ctx?_modCtx ..).trans (by rw [hx]; rfl)

theorem entryWritten_hcache (s : State) (c i : Nat) (old : Region) (y : Context) (k : Nat) :
    (c, i) ∉ ((entryWritten s c i old y).core k).hcache := by
  rw [entryWritten, dropCode_hcache]
  exact dropHandles_hcache _ (List.mem_singleton.2 rfl) k

/-- Settles O51: each request acts, is refused or waits, and a handle entry is written whole. -/
theorem launchRequests : Obligations.LaunchRequests := by
  refine ⟨?_, ?_, ?_, ?_⟩
  · intro s m x r h
    exact ⟨start_unnamed h, fun nb hb hk => ⟨start_waits h hb hk, start_submits h hb hk⟩⟩
  · intro s m x lid h
    refine ⟨wait_unknown h, fun L hl => ?_⟩
    rw [wait_known h hl]
    exact ⟨fun hd => by rw [if_pos hd], fun hd => by rw [if_neg (by simp [hd])]⟩
  · intro s m x lid h
    exact ⟨fun hl e => query_unknown h hl, fun L hl => ⟨query_known h hl, query_known h hl⟩⟩
  · intro s c x i e hb hx hd hc
    refine ⟨handleEntryWrite_refused hb hx hd hc, fun y h5 hn he hw => ?_⟩
    let old := mapGetD x.regions i default
    exact ⟨_, handleEntryWrite_written hb hx hd hc h5 hn he hw, entryWritten_ctx? hx i old y, entryWritten_hcache s c i old y, rfl⟩

end Sys2Proof.Claims

/-!
# O54 refuted: a capsule instruction can change a launch

Before an operation on a capsule block, a fibre's earlier accesses of the block are performed (R331), and those on their way from its lane
count as its own, a store of the lane's earlier fibre (R191) with them. Where home refuses that store for good, and its fibre is gone, its
team is failed (R263), and the team's launch counts it (R427). So CAPRESET completes, and a launch has changed.
-/

namespace Sys2Proof.Claims
open Machine

/-- CAPRESET g12, h0. -/
def resetBlock : ME := ⟨fields (.g 12) .none .none .none 0, .b, .plain, .lane, 0, 0, 0⟩

/-- The batch of the lone fibre 1024, of team 1. -/
def loneBatch : Batch := Batch.formed 1 0 0 [0] 0 0

/-- A store of the fibre that ended in the lane before (life 0), to virtual 2^28, which nothing maps any more, under an old `GEN` of its
frame. -/
def lostStore : HomeReq :=
  { fib := 1024, life := 0, team := 1, core := 0, ctx := 1, cxgen := 0, loc := .glob (2 ^ 28), pa := 0x20000000, key := 0, gen := 0,
    hnd := 0, op := .write (leBytes 8 7), through := true, unp := false, sc := none, hint := .normal, seq := 0, issued := 0,
    replay := false }

/-- A fibre of life 1 at a CAPRESET of a broken capsule block at virtual 0, in a page of 256 MiB at frame 0x1000 whose tables are frames 0
and 1, and the lost store still on its way. -/
def lostStoreState : State :=
  { (State.reset.placeLine []).bumpGen 0x2000 with
      issue := []
      cur := some loneBatch
      dram := [(0, 1), (2, 1), (0x10000, 0x7F), (0x10003, 0x10), (0x10000000, BitVec.ofNat 8 (lockWord 3 0 0 0))]
      skeys := [(0x400000, { key := 0, mask := BitVec.allOnes 64, base := 0, ver := 1 })]
      reqs := [(0, lostStore)] }.modFibre 1024 (fun x => { x with life := 1 })

/-- The block as the checks find it, and as it translates. -/
def brokenBlock : Acc := { loc := .glob 0, pol := 0, rc := false, code := none, hnd := 0, final := 0 }
def brokenXl : Xl := { pa := 0x10000000, key := 0, gen := 0 }

/-- The state after the block's translation. -/
def lostStoreMet : State :=
  (((reaching lostStoreState loneBatch 0 brokenBlock).arriveAt (loneBatch.fib 0) brokenBlock.loc).capXl (loneBatch.fib 0)
    (locVa brokenBlock.loc)).2

theorem lostStoreState_lone : Lone lostStoreState (capresetNeed resetBlock) loneBatch 0 (lostStoreState.fibre 1024) :=
  ⟨rfl, rfl, by decide +kernel, by decide +kernel, by decide +kernel⟩

theorem toOption_eq_some {ε α : Type} {e : Except ε α} {a : α} (h : e.toOption = some a) : e = .ok a := by
  cases e with
  | error _ => cases h
  | ok _ => cases h; rfl

theorem eq_ok_snd {ε α β : Type} {r : Except ε α × β} {a : α} (h : r.1.toOption = some a) : r = (.ok a, r.2) :=
  Prod.ext (toOption_eq_some h) rfl

theorem lostStoreState_blockAt :
    BlockAt resetBlock lostStoreState (capresetNeed resetBlock) loneBatch 0 (lostStoreState.fibre 1024) brokenBlock brokenXl
      lostStoreMet where
  lone := lostStoreState_lone
  calm := by decide +kernel
  kind := by decide +kernel
  ok := toOption_eq_some (by decide +kernel)
  translated := eq_ok_snd (by decide +kernel)

/-- The failed teams that an outcome's launch 1 of context 1 counts (R427). -/
def failedAfter : Out → Nat
  | .next t => (t.launch (launchKey 1 1)).failed
  | _ => 0

theorem lostStore_counted : failedAfter (exec (.capreset resetBlock) lostStoreState) = 1 := by decide +kernel

/-- Refutes O54: CAPRESET of a broken block performs the lost store before it, whose team is failed, and the launch counts it. -/
theorem not_capsulesCommandsAndRequestsComplete : ¬ Obligations.CapsulesCommandsAndRequestsComplete := by
  rintro ⟨⟨-, -, -, hreset⟩, -, -⟩
  obtain ⟨t, ht, hl, -, -⟩ := hreset resetBlock lostStoreState loneBatch 0 _ brokenBlock brokenXl lostStoreMet _ _ lostStoreState_blockAt
    (by decide +kernel) rfl (by decide +kernel)
  have hn := lostStore_counted
  rw [ht, failedAfter, State.launch, hl] at hn
  exact absurd hn (by decide +kernel)

end Sys2Proof.Claims

/-!
# O28, O29 and O30: the code instructions of a lone lane (R132-R142)

Once the checks of R136 have found a region's record, each instruction is its body over that lane: `CodeAt.publish` and its like. What
D receives then leaves contexts, cores and DRAM alone, and every fibre where it stands.
-/

namespace Sys2Proof.Claims
open Machine

section
variable {s : State} {n : Need} {b : Batch} {l : Nat} {x : Fibre} {o : SY} {w : Bool} {h : Nat} {r : Region}

/-! ### What the checks of R136 find -/

theorem past_fibre? (hL : Lone s n b l x) : (past s b l).fibre? (b.fib l) = some (x.passed b.pc) := by
  simp [past, hL.fibre]

/-- The record is the one that the context's directory holds. -/
theorem codePrep_region {ln : Ln} {v : Vals} (hp : codePrep o w ln v s = .ok (h, r)) :
    mapGet (s.ctx (s.ctxOf ln.f)).regions h = some r := by
  unfold codePrep at hp
  dsimp only at hp
  split at hp
  · cases hp
  · split at hp
    · cases hp
    · cases hp
    next hr =>
      split at hp
      · cases hp
      · cases hp; exact hr

theorem CodeAt.region (hc : CodeAt o s n b l x w h r) : mapGet ((past s b l).ctx (ctxHere s b l)).regions h = some r :=
  codePrep_region hc.ok

theorem CodeAt.publish (hc : CodeAt o s (publishNeed o) b l x true h r) :
    exec (.publish o) s = .next (publishAt o (s.laneOf b l) h (past s b l)) := by
  show execPublish o s = _
  rw [execPublish, runLanes_lone (n := codeNeed o 1 true) hc.lone]
  simp only [show codePrep o true (s.laneOf b l) (s.readVals (codeNeed o 1 true) b l) (past s b l) = .ok (h, r) from hc.ok]

theorem CodeAt.adopt (hc : CodeAt o s (publishNeed o) b l x false h r) :
    exec (.adopt o) s = .next (adoptAt o (s.laneOf b l) h (past s b l)) := by
  show execAdopt o s = _
  rw [execAdopt, runLanes_lone (n := codeNeed o 1 true) hc.lone]
  simp only [show codePrep o false (s.laneOf b l) (s.readVals (codeNeed o 1 true) b l) (past s b l) = .ok (h, r) from hc.ok]

theorem CodeAt.retract (hc : CodeAt o s (publishNeed o) b l x true h r) (hx : x.retracting = none) :
    exec (.retract o) s = .next (retractAt o (s.laneOf b l) h (past s b l)) := by
  have hn : ((past s b l).fibre (s.laneOf b l).f).retracting = none := by
    rw [State.laneOf_f, State.fibre_eq _ (past_fibre? hc.lone)]; exact hx
  show execRetract o s = _
  rw [execRetract, runLanes_lone (n := codeNeed o 1 true) hc.lone]
  simp only [hn, show codePrep o true (s.laneOf b l) (s.readVals (codeNeed o 1 true) b l) (past s b l) = .ok (h, r) from hc.ok]

theorem CodeAt.rgnq (hc : CodeAt o s (rgnqNeed o) b l x false h r) :
    exec (.rgnq o) s = .next ((past s b l).putD (s.laneOf b l) .v o.d 2
      (rgnqWord r (adoptedGen ((past s b l).team b.team) h) (coreHere s b l))) := by
  show execRgnq o s = _
  rw [execRgnq, runLanes_lone (n := codeNeed o 2 false) hc.lone]
  simp only [show codePrep o false (s.laneOf b l) (s.readVals (codeNeed o 2 false) b l) (past s b l) = .ok (h, r) from hc.ok]
  rfl

end

/-! ### What a destination leaves alone (R69, R84) -/

theorem put1_frame (s : State) (ln : Ln) (cls : Cls) (sp : Spec) (v : Word) :
    s.put1 ln cls sp v = { s with teams := (s.put1 ln cls sp v).teams, fibres := (s.put1 ln cls sp v).fibres } := by
  cases sp with
  | k i =>
    unfold State.put1
    dsimp only
    split
    · rfl
    · exact State.putK_frame ..
  | _ => rfl

theorem putFrom_frame (s : State) (ln : Ln) (cls : Cls) (sp : Spec) (i : Nat) (ws : List Word) :
    s.putFrom ln cls sp i ws =
      { s with teams := (s.putFrom ln cls sp i ws).teams, fibres := (s.putFrom ln cls sp i ws).fibres } := by
  induction ws generalizing s i with
  | nil => rfl
  | cons w ws ih => simp only [State.putFrom]; rw [ih, put1_frame]

theorem putD_frame (s : State) (ln : Ln) (cls : Cls) (sp : Spec) (n v : Nat) :
    s.putD ln cls sp n v = { s with teams := (s.putD ln cls sp n v).teams, fibres := (s.putD ln cls sp n v).fibres } := by
  unfold State.putD
  split
  · exact put1_frame ..
  · exact putFrom_frame ..

section
variable (s : State) (ln : Ln) (cls : Cls) (sp : Spec) (n v : Nat)

@[simp] theorem putD_ctxs : (s.putD ln cls sp n v).ctxs = s.ctxs := by rw [putD_frame]
@[simp] theorem putD_cores : (s.putD ln cls sp n v).cores = s.cores := by rw [putD_frame]
@[simp] theorem putD_dram : (s.putD ln cls sp n v).dram = s.dram := by rw [putD_frame]
@[simp] theorem putD_ctx (c : Nat) : (s.putD ln cls sp n v).ctx c = s.ctx c := by rw [State.ctx, putD_ctxs]; rfl
@[simp] theorem putD_core (k : Nat) : (s.putD ln cls sp n v).core k = s.core k := by rw [State.core, putD_cores]; rfl

end

/-- Where a fibre stands: whether in a RETRACT, and its PC. -/
def stand (y : Fibre) : Option (Nat × Nat) × Word := (y.retracting, y.pc)

/-- A change of a fibre that leaves it where it stands leaves every fibre where it stands. -/
theorem modFibre_stand (s : State) (e f : Nat) {g : Fibre → Fibre} (hg : ∀ y, stand (g y) = stand y) :
    ((s.modFibre e g).fibre? f).map stand = (s.fibre? f).map stand := by
  by_cases he : f = e
  · subst he
    cases hf : s.fibre? f <;> simp [hf, hg]
  · rw [State.fibre?_modFibre_ne _ _ he]

theorem foldl_stand {ι : Type} (f : Nat) {F : State → ι → State} (hF : ∀ s i, ((F s i).fibre? f).map stand = (s.fibre? f).map stand)
    (ls : List ι) (s : State) : ((ls.foldl F s).fibre? f).map stand = (s.fibre? f).map stand := by
  induction ls generalizing s with
  | nil => rfl
  | cons i ls ih => rw [List.foldl_cons, ih, hF]

theorem stand_put (y : Fibre) (cls : Cls) (q : Nat) (v : Word) : stand (y.put cls q v) = stand y := by
  unfold Fibre.put
  split <;> rfl

theorem put1_stand (s : State) (ln : Ln) (cls : Cls) (sp : Spec) (v : Word) (f : Nat) :
    ((s.put1 ln cls sp v).fibre? f).map stand = (s.fibre? f).map stand := by
  cases sp with
  | g i => exact modFibre_stand _ _ _ fun y => stand_put ..
  | p i => exact modFibre_stand _ _ _ fun y => stand_put ..
  | k i =>
    unfold State.put1
    dsimp only
    split
    · rfl
    · exact foldl_stand f (fun s l => modFibre_stand _ _ _ fun y => by rfl) _ _
  | _ => rfl

theorem putFrom_stand (s : State) (ln : Ln) (cls : Cls) (sp : Spec) (i : Nat) (ws : List Word) (f : Nat) :
    ((s.putFrom ln cls sp i ws).fibre? f).map stand = (s.fibre? f).map stand := by
  induction ws generalizing s i with
  | nil => rfl
  | cons w ws ih => simp only [State.putFrom]; rw [ih, put1_stand]

theorem putD_stand (s : State) (ln : Ln) (cls : Cls) (sp : Spec) (n v f : Nat) :
    ((s.putD ln cls sp n v).fibre? f).map stand = (s.fibre? f).map stand := by
  unfold State.putD
  split
  · exact put1_stand ..
  · exact putFrom_stand ..

/-! ### The record and what the cores keep of it (R132) -/

theorem setRegion_region {s : State} {c h : Nat} (r : Region) (hc : (s.ctx? c).isSome) :
    mapGet ((s.setRegion c h r).ctx c).regions h = some r := by
  obtain ⟨y, hy⟩ := Option.isSome_iff_exists.1 hc
  have hy : mapGet s.ctxs c = some y := hy
  simp [State.setRegion, State.ctx, State.modCtx, mapGetD, hy]

/-- A change of every core that leaves a core at reset as it is. -/
theorem core_mapAll (s : State) (g : Nat → Core → Core) (hg : ∀ k, g k Core.reset = Core.reset) (k : Nat) :
    ({ s with cores := mapAll s.cores g } : State).core k = g k (s.core k) := by
  unfold State.core mapGetD
  rw [mapGet_mapAll]
  cases mapGet s.cores k with
  | none => exact (hg k).symm
  | some y => rfl

/-- No core's lookaside keeps an entry that is dropped. -/
theorem dropLook_look (s : State) (c h k : Nat) : ∀ e ∈ ((s.dropLook c h).core k).look, e ≠ (c, h) := by
  rw [State.dropLook, core_mapAll _ _ fun _ => rfl]
  simp

theorem bumpGen16_eq {g : Nat} (hg : g ≤ 0xFFFF) : bumpGen16 g = bumped g := by
  unfold bumpGen16 bumped
  split <;> split <;> omega

/-! ### PUBLISH (R137) -/

/-- The record published for the instance of its scope that holds a core, and out of every lookaside. -/
def published (s : State) (o : SY) (c core h : Nat) (r : Region) : State :=
  (s.setRegion c h { r with
    gen := bumpGen16 r.gen, state := .published, pscope := codeScopeOf o, pdie := core / 128,
    punit := if codeScopeOf o = 2 then core % 128 / 4 else core % 128 }).dropLook c h

section
variable {s u v : State} {o : SY} {ln : Ln} {h : Nat} {r : Region} (hr : mapGet (s.ctx (s.ctxOf ln.f)).regions h = some r)
include hr

theorem publishAt_busy (hb : s.copyInto ln.b.team ((s.ctx (s.ctxOf ln.f)).cwbase + r.base) (64 * r.lines) = true) :
    publishAt o ln h s = s.putD ln .v o.d 1 2 := by
  simp [publishAt, hr, hb]

section
variable {q : State} (hb : s.copyInto ln.b.team ((s.ctx (s.ctxOf ln.f)).cwbase + r.base) (64 * r.lines) = false)
  (hq : q = (s.arriveBefore ln.f (fun _ => true)).regionHome ln.f r) (hf : q.flying ln.f = [])
  (hs : (q.regionSectors ln.f r).any (q.unsent (q.coreOf ln.f)) = false) (hu : q.release ln.f (modScope o.mod) = (.done, u))
include hb hq hf hs hu

theorem publishAt_badLine {i : Nat} (hi : u.badLine ln.f h r r.lines 0 = (.ok (some i), v)) :
    publishAt o ln h s = v.putD ln .v o.d 1 (1 + i * 2 ^ 16) := by
  subst hq
  simp [publishAt, hr, hb, hf, hs, afterRelease, hu, hi]

theorem publishAt_published (hi : u.badLine ln.f h r r.lines 0 = (.ok none, v)) :
    publishAt o ln h s = (published v o (s.ctxOf ln.f) (v.coreOf ln.f) h r).putD ln .v o.d 1 0 := by
  subst hq
  simp [publishAt, hr, hb, hf, hs, afterRelease, hu, hi, published]

end

end

/-- Settles O28: a busy region, a bad line, and the record that is published. -/
theorem publishChecksThenPublishes : Obligations.PublishChecksThenPublishes := by
  intro o s b l x h r hc hg p f c
  have hr : mapGet (p.ctx (p.ctxOf (s.laneOf b l).f)).regions h = some r := hc.region
  rw [hc.publish]
  refine ⟨fun hb => congrArg _ (publishAt_busy hr hb), fun u v q hb hq hf hs hu => ?_⟩
  have hs : (q.regionSectors f r).any (q.unsent (q.coreOf f)) = false := by simpa using hs
  refine ⟨fun i hi => ?_, fun hi hcore hctx => ?_⟩
  · exact congrArg _ (publishAt_badLine hr hb hq hf hs hu hi)
  · refine ⟨_, congrArg _ (publishAt_published hr hb hq hf hs hu hi), ?_, fun k => ?_, ?_⟩
    · rw [putD_ctx, State.laneOf_f, hcore, ← bumpGen16_eq hg]
      exact setRegion_region _ hctx
    · rw [putD_core]
      exact dropLook_look _ c h k
    · rw [putD_dram]
      rfl

/-! ### ADOPT (R134, R138) -/

/-- An entry written over a team's first entry for the same region, or where the team has none, is its entry for the region. -/
theorem find_mapSet {m : Map (Nat × Nat)} {h g k : Nat} (hk : ∀ e, m.find? (fun e => e.2.1 == h) = some e → e.1 = k) :
    (mapSet m k (h, g)).find? (fun e => e.2.1 == h) = some (k, (h, g)) := by
  induction m with
  | nil => simp [mapSet]
  | cons e m ih =>
    obtain ⟨j, v⟩ := e
    unfold mapSet
    split_ifs with h1 h2
    · simp
    · simp
    · have hv : (v.1 == h) = false := by
        by_contra hv
        exact h1 (hk (j, v) (by simp [show (v.1 == h) = true by simpa using hv]))
      simp only [List.find?_cons, hv] at hk ⊢
      exact ih hk

/-- The entry for a region in the spill area, once it is set. -/
theorem find_spilled {m : List (Nat × Nat)} {h g : Nat} (hm : m.any (fun e => e.1 == h) = true) :
    (m.map (fun e => if e.1 = h then (h, g) else e)).find? (fun e => e.1 == h) = some (h, g) := by
  rw [← List.isSome_find?] at hm
  obtain ⟨e, he⟩ := Option.isSome_iff_exists.1 hm
  have hh : e.1 = h := by simpa using List.find?_some he
  have hf : ∀ d : Nat × Nat, ((if d.1 = h then (h, g) else d).1 == h) = (d.1 == h) := by
    intro d
    by_cases hd : d.1 = h <;> simp [hd]
  simp only [List.find?_map, Function.comp_def, hf, he, Option.map_some, if_pos hh]

section
variable {t : Team} {h g : Nat}

theorem adoptedGen_of_adopted {k : Nat} (hf : t.adopted.find? (fun e => e.2.1 == h) = some (k, (h, g))) :
    adoptedGen t h = some g := by
  simp [adoptedGen, hf]

theorem adoptedGen_of_spilled (hn : t.adopted.find? (fun e => e.2.1 == h) = none)
    (hf : t.spilled.find? (fun e => e.1 == h) = some (h, g)) : adoptedGen t h = some g := by
  simp [adoptedGen, hn, hf]

/-- The `GEN` that ADOPT sets is that of the team's entry, wherever it finds a place (R134). -/
theorem adoptedGen_adoptInto {regions : Map Region} {T : Team} (ha : adoptInto regions t h g = some T) : adoptedGen T h = some g := by
  unfold adoptInto at ha
  split at ha
  next e he =>
    cases ha
    exact adoptedGen_of_adopted (find_mapSet fun d hd => by rw [he] at hd; cases hd; rfl)
  next hn =>
    have free : ∀ k, (mapSet t.adopted k (h, g)).find? (fun e => e.2.1 == h) = some (k, (h, g)) :=
      fun k => find_mapSet fun d hd => by rw [hn] at hd; cases hd
    split at ha
    next hs => cases ha; exact adoptedGen_of_spilled hn (find_spilled hs)
    next hs =>
      split at ha
      next k _ => cases ha; exact adoptedGen_of_adopted (free k)
      next =>
        split at ha
        next e _ => cases ha; exact adoptedGen_of_adopted (free e.1)
        next =>
          split at ha
          next =>
            split at ha
            next =>
              cases ha
              rw [← List.isSome_find?, Option.not_isSome_iff_eq_none] at hs
              exact adoptedGen_of_spilled hn (by simp [hs])
            next => cases ha
          next => cases ha

end

section
variable {s : State} {o : SY} {ln : Ln} {h : Nat} {r : Region} (hr : mapGet (s.ctx (s.ctxOf ln.f)).regions h = some r)
include hr

theorem adoptAt_unpublished (hp : r.state ≠ .published) : adoptAt o ln h s = s.putD ln .v o.d 1 1 := by
  simp [adoptAt, hr, hp]

variable (hp : r.state = .published)
include hp

theorem adoptAt_outside (hi : insideRegion r (s.coreOf ln.f) = false) : adoptAt o ln h s = s.putD ln .v o.d 1 2 := by
  simp [adoptAt, hr, hp, hi]

theorem adoptAt_full (hi : insideRegion r (s.coreOf ln.f) = true)
    (ha : adoptInto (s.ctx (s.ctxOf ln.f)).regions (s.team ln.b.team) h r.gen = none) : adoptAt o ln h s = s.putD ln .v o.d 1 3 := by
  simp [adoptAt, hr, hp, hi, ha]

theorem adoptAt_adopted (hi : insideRegion r (s.coreOf ln.f) = true) {T : Team}
    (ha : adoptInto (s.ctx (s.ctxOf ln.f)).regions (s.team ln.b.team) h r.gen = some T) :
    adoptAt o ln h s = (((s.modTeam ln.b.team (fun _ => T)).modCore (s.coreOf ln.f) (fun y => { y with
      icache := y.icache.filter (fun k => !(inRegion (s.ctxOf ln.f) r k && k.gen != r.gen)) })).acquire ln.f
      ((scopeOfCode r.pscope).getD .pkg)).putD ln .v o.d 1 (r.gen * 2 ^ 16) := by
  simp [adoptAt, hr, hp, hi, ha]

end

/-- The check of R139. -/
theorem spillFits_iff {e : Option (Nat × Nat)} {off n size : Int} :
    (e.isNone && off % 8 == 0 && decide (0 ≤ off) && decide (off + n ≤ size)) = true ↔
      e = none ∧ off % 8 = 0 ∧ 0 ≤ off ∧ off + n ≤ size := by
  simp [and_assoc]

theorem adoptionStatuses : AdoptionStatuses := by
  constructor
  · intro o s b l x h r hc p
    have hr : mapGet (p.ctx (p.ctxOf (s.laneOf b l).f)).regions h = some r := hc.region
    rw [hc.adopt]
    exact ⟨fun hp => congrArg _ (adoptAt_unpublished hr hp), fun hp hi => congrArg _ (adoptAt_outside hr hp hi),
      fun hp hi ha => congrArg _ (adoptAt_full hr hp hi ha),
      fun T hp hi ha => ⟨adoptedGen_adoptInto ha, congrArg _ (adoptAt_adopted hr hp hi ha)⟩⟩
  · intro o s b l x n hL p k off good
    show (good → (.next (runLanes n _ s) : Out) = _) ∧ (¬good → (.next (runLanes n _ s) : Out) = _)
    rw [runLanes_lone hL]
    exact ⟨fun hg => congrArg _ (if_pos (spillFits_iff.2 hg)), fun hg => congrArg _ (if_neg (mt spillFits_iff.1 hg))⟩

/-! ### RETRACT (R140) -/

/-- The I-caches of a scope instance without a region's lines. -/
def dropLines (s : State) (sc c core : Nat) (r : Region) : State :=
  { s with cores := mapAll s.cores (fun k y =>
      if sameUnit sc core k then { y with icache := y.icache.filter (fun ln => !inRegion c r ln) } else y) }

/-- A RETRACT that has begun: the record has changed, the lookasides and I-caches have lost the region, and the fibre is in it. -/
def retractBegun (s : State) (sc c core f h : Nat) (r : Region) : State :=
  (dropLines ((s.setRegion c h { r with gen := bumpGen16 r.gen, state := .retracted }).dropLook c h) sc c core r).modFibre f
    (fun y => { y with retracting := some (h, r.gen) })

section
variable {s : State} {o : SY} {ln : Ln} {h : Nat} {r : Region} (hr : mapGet (s.ctx (s.ctxOf ln.f)).regions h = some r)
include hr

theorem retractAt_unpublished (hp : r.state ≠ .published) : retractAt o ln h s = s.putD ln .v o.d 1 1 := by
  simp [retractAt, hr, hp]

theorem retractAt_outside (hp : r.state = .published) (hi : containsRegion (codeScopeOf o) (s.coreOf ln.f) r = false) :
    retractAt o ln h s = s.putD ln .v o.d 1 2 := by
  simp [retractAt, hr, hp, hi]

theorem retractAt_begins (hp : r.state = .published) (hi : containsRegion (codeScopeOf o) (s.coreOf ln.f) r = true) :
    retractAt o ln h s = retractWait o ln h (retractBegun s (codeScopeOf o) (s.ctxOf ln.f) (s.coreOf ln.f) ln.f h r) := by
  simp [retractAt, hr, hp, hi, retractBegun, dropLines]

end

section
variable (s : State) (sc c core f h : Nat) (r : Region)

theorem retractBegun_region (hc : (s.ctx? c).isSome) :
    mapGet ((retractBegun s sc c core f h r).ctx c).regions h = some { r with gen := bumpGen16 r.gen, state := .retracted } :=
  setRegion_region _ hc

theorem retractBegun_icache {k : Nat} (hk : sameUnit sc core k = true) :
    ∀ y ∈ ((retractBegun s sc c core f h r).core k).icache, inRegion c r y = false := by
  show ∀ y ∈ ((dropLines _ sc c core r).core k).icache, _
  rw [dropLines, core_mapAll _ _ fun k => by split <;> rfl]
  simp [hk]

theorem retractBegun_fibre? : (retractBegun s sc c core f h r).fibre? f =
    (s.fibre? f).map (fun y => { y with retracting := some (h, r.gen) }) :=
  State.fibre?_modFibre ..

end

theorem filter_mapSet {α : Type} (m : Map α) (k : Nat) (y : α) (p : Nat × α → Bool) :
    (mapSet m k y).filter (fun e => e.1 != k && p e) = m.filter (fun e => e.1 != k && p e) := by
  induction m with
  | nil => simp [mapSet]
  | cons e m ih =>
    obtain ⟨j, v⟩ := e
    unfold mapSet
    split_ifs with h1 h2
    · simp [h1]
    · simp
    · simp only [List.filter_cons, ih]

/-- A change of one entry is not seen among the others. -/
theorem filter_mapMod {α : Type} (m : Map α) (k : Nat) (g : α → α) (p : Nat × α → Bool) :
    (mapMod m k g).filter (fun e => e.1 != k && p e) = m.filter (fun e => e.1 != k && p e) := by
  unfold mapMod
  split
  · rfl
  · exact filter_mapSet ..

/-- The fibres that RETRACT looks at, once it has begun, are those that hold a line under an old `GEN`. -/
theorem lineHolders_retractBegun (s : State) (sc f h : Nat) (r : Region) (hc : (s.ctx? (s.ctxOf f)).isSome) :
    (retractBegun s sc (s.ctxOf f) (s.coreOf f) f h r).lineHolders f h sc = oldHolders s f h (bumpGen16 r.gen) sc := by
  have hr := retractBegun_region s sc (s.ctxOf f) (s.coreOf f) f h r hc
  generalize hu : retractBegun s sc (s.ctxOf f) (s.coreOf f) f h r = u at hr
  have hf : u.fibres = mapMod s.fibres f (fun y => { y with retracting := some (h, r.gen) }) := by rw [← hu]; rfl
  have hctx : ∀ e, u.ctxOf e = s.ctxOf e := fun e => by rw [← hu]; rfl
  have hcore : ∀ e, u.coreOf e = s.coreOf e := fun e => by rw [← hu]; rfl
  simp only [State.lineHolders, oldHolders, hctx, hcore, hr, hf, Bool.and_assoc, filter_mapMod]
  refine List.filter_congr fun e _ => ?_
  cases e.2.fbuf <;> simp [bne]

/-! ### The wait of RETRACT (R140) -/

/-- The fibres of a list that RETRACT does not wait for give up their lines. -/
def discarded (s : State) (hs : List (Nat × Fibre)) : State :=
  hs.foldl (fun s e => if waitedFor e.2 then s else s.modFibre e.1 Fibre.discard) s

theorem discarded_frame (s : State) (hs : List (Nat × Fibre)) : discarded s hs = { s with fibres := (discarded s hs).fibres } :=
  State.foldl_fibres _ (fun s e => by split <;> rfl) hs s

theorem discarded_fibre? (s : State) {hs : List (Nat × Fibre)} {f : Nat} (hf : ∀ e ∈ hs, e.1 ≠ f) :
    (discarded s hs).fibre? f = s.fibre? f := by
  unfold discarded
  induction hs generalizing s with
  | nil => rfl
  | cons e hs ih =>
    rw [List.foldl_cons, ih _ fun d hd => hf d (by simp [hd])]
    split
    · rfl
    · exact State.fibre?_modFibre_ne _ _ (hf e (by simp)).symm

section
variable (s : State) (o : SY) (ln : Ln) (h : Nat)

theorem lineHolders_ne (f sc : Nat) : ∀ e ∈ s.lineHolders f h sc, e.1 ≠ f := by
  intro e he
  simp only [State.lineHolders, List.mem_filter, Bool.and_eq_true, bne_iff_ne] at he
  exact he.2.1.1.1

theorem retractWait_over (hw : ∀ e ∈ s.lineHolders ln.f h (codeScopeOf o), waitedFor e.2 = false) :
    retractWait o ln h s = ((discarded s (s.lineHolders ln.f h (codeScopeOf o))).modFibre ln.f
      (fun y => { y with retracting := none })).putD ln .v o.d 1 0 :=
  if_neg (by simpa using hw)

theorem retractWait_stays (hw : ∃ e ∈ s.lineHolders ln.f h (codeScopeOf o), waitedFor e.2 = true) :
    retractWait o ln h s = (discarded s (s.lineHolders ln.f h (codeScopeOf o))).stall ln :=
  if_pos (by simpa using hw)

/-- Whether it is over or stays, it leaves contexts and cores alone. -/
theorem retractWait_ctxs_cores : (retractWait o ln h s).ctxs = s.ctxs ∧ (retractWait o ln h s).cores = s.cores := by
  by_cases hw : ∃ e ∈ s.lineHolders ln.f h (codeScopeOf o), waitedFor e.2 = true
  · rw [retractWait_stays _ _ _ _ hw, discarded_frame]
    exact ⟨rfl, rfl⟩
  · rw [retractWait_over _ _ _ _ (by simpa using hw), putD_ctxs, putD_cores, discarded_frame]
    exact ⟨rfl, rfl⟩

theorem retractWait_ctx (c : Nat) : (retractWait o ln h s).ctx c = s.ctx c := by
  rw [State.ctx, (retractWait_ctxs_cores s o ln h).1]
  rfl

theorem retractWait_core (k : Nat) : (retractWait o ln h s).core k = s.core k := by
  rw [State.core, (retractWait_ctxs_cores s o ln h).2]
  rfl

variable {s ln} {y : Fibre} (hy : s.fibre? ln.f = some y)
include hy

theorem retractWait_over_stand (hw : ∀ e ∈ s.lineHolders ln.f h (codeScopeOf o), waitedFor e.2 = false) :
    ((retractWait o ln h s).fibre? ln.f).map stand = some (none, y.pc) := by
  rw [retractWait_over _ _ _ _ hw, putD_stand, State.fibre?_modFibre, discarded_fibre? _ (lineHolders_ne s h ln.f (codeScopeOf o)), hy]
  rfl

theorem retractWait_stays_stand (hw : ∃ e ∈ s.lineHolders ln.f h (codeScopeOf o), waitedFor e.2 = true) :
    ((retractWait o ln h s).fibre? ln.f).map stand = some (y.retracting, ln.b.pc) := by
  rw [retractWait_stays _ _ _ _ hw, State.stall, State.fibre?_modFibre, discarded_fibre? _ (lineHolders_ne s h ln.f (codeScopeOf o)), hy]
  rfl

end

/-- FBAR waits for its writes to go home, and then drops the context's lines of the core and the fibre's fetch buffer (R141). -/
theorem fbar_lone {s u : State} {b : Batch} {l : Nat} {x : Fibre} (o : SY) (hL : Lone s { plainNeed o with live := true } b l x)
    (hu : (past s b l).releaseActs (b.fib l) .quad = u) :
    exec (.fbar o) s = .next (if u.releaseWaits (b.fib l) .quad then u.stall (s.laneOf b l)
      else (u.modCore (u.coreOf (b.fib l)) (fun y => { y with
        icache := y.icache.filter (fun ln => ln.ctx != u.ctxOf (b.fib l)) })).modFibre (b.fib l) (fun y => { y with fbuf := none })) := by
  show (.next (runLanes { plainNeed o with live := true } _ s) : Out) = _
  rw [runLanes_lone hL, State.laneOf_f, hu]

theorem retractAndFbar : RetractAndFbar := by
  constructor
  · intro o s b l x h r hc hx hg p c core sc
    have hr : mapGet (p.ctx (p.ctxOf (s.laneOf b l).f)).regions h = some r := hc.region
    rw [hc.retract hx]
    refine ⟨fun hp => congrArg _ (retractAt_unpublished hr hp), fun hp hi => congrArg _ (retractAt_outside hr hp hi),
      fun hp hi hctx => ⟨_, congrArg _ (retractAt_begins hr hp hi), ?_⟩⟩
    have hf : (retractBegun p sc c core (b.fib l) h r).fibre? (b.fib l) = some { x.passed b.pc with retracting := some (h, r.gen) } := by
      rw [retractBegun_fibre?, past_fibre? hc.lone]
      rfl
    have hh : (retractBegun p sc c core (b.fib l) h r).lineHolders (b.fib l) h sc = oldHolders p (b.fib l) h (bumpGen16 r.gen) sc :=
      lineHolders_retractBegun p sc (b.fib l) h r hctx
    rw [← bumpGen16_eq hg, ← hh, retractWait_ctx]
    simp only [retractWait_core]
    exact ⟨retractBegun_region _ _ _ _ _ _ _ hctx, fun k y hk => retractBegun_icache _ _ _ _ _ _ _ hk y,
      retractWait_over_stand o h (ln := s.laneOf b l) hf, retractWait_stays_stand o h (ln := s.laneOf b l) hf⟩
  · intro o s b l x u hL hu
    rw [fbar_lone o hL hu]
    exact ⟨fun hw => congrArg _ (if_pos hw), fun hw => congrArg _ (if_neg (by simp [hw]))⟩

/-- Settles O29: the statuses of ADOPT and RETRACT, and what each of the four leaves. -/
theorem regionsAreAdoptedAndRetracted : Obligations.RegionsAreAdoptedAndRetracted := ⟨adoptionStatuses, retractAndFbar⟩

/-! ### RGNQ (R142) -/

theorem b2n_mul (c : Bool) (k : Nat) : b2n c * k = if c = true then k else 0 := by cases c <;> simp [b2n]

/-- Settles O30: the word that RGNQ writes is the layout's. -/
theorem regionQueryWord : Obligations.RegionQueryWord := by
  intro o s b l x h r hc own st
  have hs : rsCode r.state = st := by
    show _ = (match r.state with | .empty => 0 | .writable => 1 | .published => 2 | .retracted => 3)
    cases r.state <;> rfl
  rw [hc.rgnq, rgnqWord, hs]
  refine congrArg (fun v => Host.Outcome.next ((past s b l).putD (s.laneOf b l) .v o.d 2 v)) ?_
  simp only [b2n_mul, Bool.and_eq_true, bne_iff_ne, beq_iff_eq]
  ac_rfl

end Sys2Proof.Claims

/-!
# O40 and O41: a clk of a core, and the fetch of a line (R131, R133, R151-R154)

A clk forms its batches pack by pack. Each pack's turn writes the pack and adds to the issue list, so the fibres that a batch takes are
those that parking has left, which `parkAll` alone changes.
-/

namespace Sys2Proof.Claims
open Machine

/-! ### Fibres that must wait (R154) -/

/-- A fibre that must wait for its results. -/
def parked (x : Fibre) : Fibre := { x with st := .parked }

section
variable (s : State)

/-- Parking looks at one fibre, and parks it or leaves it. -/
theorem park_eq (f : Nat) : s.park f = s ∨ s.park f = s.modFibre f parked := by
  unfold State.park
  dsimp only
  split
  · exact .inl rfl
  · split
    · exact .inr rfl
    · exact .inl rfl

theorem park_frame (f : Nat) : s.park f = { s with fibres := (s.park f).fibres } := by
  rcases park_eq s f with h | h
  · rw [h]
  · rw [h]
    rfl

theorem park_fibre?_ne {f g : Nat} (h : g ≠ f) : (s.park f).fibre? g = s.fibre? g := by
  rcases park_eq s f with e | e <;> rw [e]
  exact State.fibre?_modFibre_ne _ _ h

theorem park_fibre? (f g : Nat) : (s.park f).fibre? g = s.fibre? g ∨ (s.park f).fibre? g = (s.fibre? g).map parked := by
  by_cases h : g = f
  · subst h
    rcases park_eq s g with e | e <;> rw [e]
    · exact .inl rfl
    · exact .inr (State.fibre?_modFibre ..)
  · exact .inl (park_fibre?_ne s h)

theorem foldl_park_fibre? (fs : List Nat) (g : Nat) :
    (fs.foldl State.park s).fibre? g = s.fibre? g ∨ (fs.foldl State.park s).fibre? g = (s.fibre? g).map parked := by
  induction fs generalizing s with
  | nil => exact .inl rfl
  | cons f fs ih =>
    rw [List.foldl_cons]
    rcases ih (s.park f) with h | h <;> rw [h]
    · exact park_fibre? s f g
    · right
      rcases park_fibre? s f g with h' | h' <;> rw [h']
      rw [Option.map_map]
      rfl

theorem parkAll_fibre? (c g : Nat) : (s.parkAll c).fibre? g = s.fibre? g ∨ (s.parkAll c).fibre? g = (s.fibre? g).map parked :=
  foldl_park_fibre? ..

theorem parkAll_frame (c : Nat) : s.parkAll c = { s with fibres := (s.parkAll c).fibres } :=
  State.foldl_fibres _ park_frame _ _

theorem parkAll_cores (c : Nat) : (s.parkAll c).cores = s.cores := by rw [parkAll_frame]
theorem parkAll_issue (c : Nat) : (s.parkAll c).issue = s.issue := by rw [parkAll_frame]
theorem parkAll_dram (c : Nat) : (s.parkAll c).dram = s.dram := by rw [parkAll_frame]
theorem parkAll_core (c d : Nat) : (s.parkAll c).core d = s.core d := by rw [State.core, parkAll_cores]; rfl

end

/-! ### The grouping stage (R151) -/

/-- A batch has a lane, and each of its fibres is READY at its PC. -/
def Gathered (s : State) (b : Batch) : Prop :=
  b.lanes ≠ [] ∧ ∀ l ∈ b.lanes, (s.fibre (b.fib l)).pc = b.pc ∧ (s.fibre (b.fib l)).st = .ready

theorem Gathered.congr {s t : State} {b : Batch} (h : t.fibres = s.fibres) (hb : Gathered s b) : Gathered t b := by
  unfold Gathered State.fibre at hb ⊢
  rwa [h]

theorem chosenLane_mem {lanes : List Nat} {ptr l : Nat} (h : State.chosenLane lanes ptr = some l) : l ∈ lanes := by
  unfold State.chosenLane at h
  split at h
  next hf => cases h; exact List.mem_of_find?_eq_some hf
  next => exact List.mem_of_mem_head? h

theorem readyLanes_ready {s : State} {p l : Nat} (h : l ∈ s.readyLanes p) : (s.fibre (p * 32 + l)).st = .ready := by
  have h : l ∈ (List.range 32).filter (fun l => match s.fibre? (p * 32 + l) with
      | some x => x.issues
      | none => false) := by
    unfold State.readyLanes at h
    dsimp only at h
    split at h
    · exact h
    · exact List.mem_of_mem_filter h
  have h := (List.mem_filter.1 h).2
  split at h
  next x hx =>
    rw [State.fibre_eq _ hx]
    simp only [Fibre.issues, Bool.and_eq_true, beq_iff_eq] at h
    exact h.1.1.1
  next => cases h

theorem formed_fib (p l : Nat) (pc : Word) (lanes : List Nat) (chosen clk : Nat) :
    (Batch.formed (p / 32) (p % 32) pc lanes chosen clk).fib l = p * 32 + l := by
  simp only [Batch.fib, Batch.formed, fibKey]
  omega

/-- The batch that a pack forms is of fibres that are READY at its PC. -/
theorem formBatch_gathered {s t : State} {clk p : Nat} {b : Batch} (h : s.formBatch clk p = (some b, t)) : Gathered s b := by
  unfold State.formBatch at h
  dsimp only at h
  split at h
  · cases h
  next l hl =>
    cases h
    refine ⟨List.ne_nil_of_mem (List.mem_filter.2 ⟨chosenLane_mem hl, by simp⟩), fun j hj => ?_⟩
    obtain ⟨hm, hpc⟩ := List.mem_filter.1 hj
    rw [formed_fib]
    exact ⟨beq_iff_eq.1 hpc, readyLanes_ready hm⟩

theorem formBatch_frame (s : State) (clk p : Nat) : (s.formBatch clk p).2 = { s with packs := (s.formBatch clk p).2.packs } := by
  unfold State.formBatch
  dsimp only
  split <;> rfl

/-! ### The packs of a clk (R152) -/

/-- A pack's turn in a clk: the batch that it forms, if any, joins the issue list. -/
def packTurn (clk : Nat) (s : State) (p : Nat) : State :=
  match s.formBatch clk p with
  | (none, s) => s
  | (some b, s) => { (s.modPack p (fun x => { x with lastIssue := some clk })) with issue := s.issue ++ [b] }

/-- What some turns of a clk leave: batches of fibres that stand as they stood, and changed packs. -/
def Formed (s t : State) (n : Nat) : Prop :=
  ∃ bs, t = { s with packs := t.packs, issue := s.issue ++ bs } ∧ bs.length ≤ n ∧ ∀ b ∈ bs, Gathered s b

theorem packTurn_formed (clk : Nat) (s : State) (p : Nat) : Formed s (packTurn clk s p) 1 := by
  have hf := formBatch_frame s clk p
  unfold packTurn
  split
  next t he =>
    rw [he] at hf
    dsimp only at hf
    exact ⟨[], by rw [List.append_nil]; exact hf, by simp, by simp⟩
  next b t he =>
    rw [he] at hf
    dsimp only at hf
    refine ⟨[b], ?_, by simp, by simpa using formBatch_gathered he⟩
    rw [hf]
    rfl

theorem Formed.trans {s t u : State} {m n : Nat} (h : Formed s t m) (h' : Formed t u n) : Formed s u (m + n) := by
  obtain ⟨as, ha, hal, hag⟩ := h
  obtain ⟨bs, hb, hbl, hbg⟩ := h'
  have hf : t.fibres = s.fibres := by rw [ha]
  refine ⟨as ++ bs, ?_, by simpa using Nat.add_le_add hal hbl, fun b hm => ?_⟩
  · generalize t.packs = ps at ha
    subst ha
    rw [← List.append_assoc]
    exact hb
  · rcases List.mem_append.1 hm with hm | hm
    · exact hag b hm
    · exact (hbg b hm).congr hf.symm

theorem foldl_packTurn_formed (clk : Nat) (s : State) (ps : List Nat) : Formed s (ps.foldl (packTurn clk) s) ps.length := by
  induction ps generalizing s with
  | nil => exact ⟨[], by simp, by simp, by simp⟩
  | cons p ps ih =>
    rw [List.foldl_cons, List.length_cons, Nat.add_comm]
    exact (packTurn_formed clk s p).trans (ih _)

theorem insByNo_length (s : State) (p : Nat) (qs : List Nat) : (s.insByNo p qs).length = qs.length + 1 := by
  induction qs with
  | nil => rfl
  | cons q qs ih =>
    unfold State.insByNo
    split
    · rfl
    · rw [List.length_cons, ih, List.length_cons]

theorem foldr_insByNo_length (s : State) (ps : List Nat) : (ps.foldr s.insByNo []).length = ps.length := by
  induction ps with
  | nil => rfl
  | cons p ps ih => rw [List.foldr_cons, insByNo_length, ih, List.length_cons]

/-- The packs that take their turn in a clk, in the order of their turns (R152, R306). -/
def turns (s : State) (c : Nat) : List Nat := (((s.readyPacks c).foldr s.insPack []).take 4).foldr s.insByNo []

theorem turns_length (s : State) (c : Nat) : (turns s c).length ≤ 4 := by
  rw [turns, foldr_insByNo_length, List.length_take]
  exact min_le_left ..

/-- One clk of a core: parking, the counter, and the turns of its packs. -/
theorem coreTurn_eq (s : State) (c : Nat) : s.coreTurn c = (turns (s.parkAll c) c).foldl (packTurn ((s.parkAll c).core c).clk)
    ((s.parkAll c).modCore c (fun y => { y with clk := y.clk + 1 })) :=
  rfl

theorem coreTurn_formed (s : State) (c : Nat) :
    Formed ((s.parkAll c).modCore c (fun y => { y with clk := y.clk + 1 })) (s.coreTurn c) 4 := by
  rw [coreTurn_eq]
  obtain ⟨bs, h, hl, hg⟩ := foldl_packTurn_formed ((s.parkAll c).core c).clk
    ((s.parkAll c).modCore c (fun y => { y with clk := y.clk + 1 })) (turns (s.parkAll c) c)
  exact ⟨bs, h, hl.trans (turns_length ..), hg⟩

/-- The core's counter advances, and no other core changes (R152, R176). -/
theorem coreTurn_cores (s : State) (c : Nat) :
    ((s.coreTurn c).core c).clk = (s.core c).clk + 1 ∧ ∀ d, d ≠ c → (s.coreTurn c).core d = s.core d := by
  obtain ⟨bs, ht, -⟩ := coreTurn_formed s c
  have hcores : (s.coreTurn c).cores = ((s.parkAll c).modCore c (fun y => { y with clk := y.clk + 1 })).cores := by rw [ht]
  have hcore : ∀ d, (s.coreTurn c).core d = ((s.parkAll c).modCore c (fun y => { y with clk := y.clk + 1 })).core d :=
    fun d => congrArg (fun m => mapGetD m d Core.reset) hcores
  refine ⟨?_, fun d hd => ?_⟩
  · rw [hcore, State.core_modCore, parkAll_core]
  · rw [hcore, State.core_modCore_ne _ _ hd, parkAll_core]

/-- Four packs at most form a batch, of fibres as the parking has left them. -/
theorem coreTurn_rest (s : State) (c : Nat) : ∃ bs, (s.coreTurn c).issue = s.issue ++ bs ∧ bs.length ≤ 4 ∧
    (∀ b ∈ bs, Gathered (s.coreTurn c) b) ∧ (s.coreTurn c).fibres = (s.parkAll c).fibres ∧ (s.coreTurn c).dram = s.dram := by
  obtain ⟨bs, ht, hl, hg⟩ := coreTurn_formed s c
  have hfibres : (s.coreTurn c).fibres = (s.parkAll c).fibres := by rw [ht]; rfl
  refine ⟨bs, ?_, hl, fun b hb => (hg b hb).congr hfibres, hfibres, ?_⟩
  · rw [ht]
    exact congrArg (· ++ bs) (parkAll_issue s c)
  · rw [ht]
    exact parkAll_dram s c

/-! ### Fibres that enter their lines first (R131) -/

/-- A fibre with outstanding results has results on the way. -/
theorem onTheWay_of_outstanding {x : Fibre} (h : x.outstanding = true) : onTheWay x ≠ [] := by
  obtain ⟨w, hw, hc⟩ := List.any_eq_true.1 h
  exact List.ne_nil_of_mem (List.mem_filter.2 ⟨hw, hc⟩)

/-- Where every fibre with results on the way holds its line, none enters one. -/
theorem enterPending_eq_self {s : State} {c : Nat} (h : ∀ f x, s.fibre? f = some x → onTheWay x ≠ [] → s.holdsLine f = true) :
    s.enterPending c = s := by
  have hf : ∀ f, ((s.fibre f).issues && (s.fibre f).outstanding && !s.holdsLine f) = false := by
    intro f
    cases hx : s.fibre? f with
    | none => simp [State.fibre, mapGetD, show mapGet s.fibres f = none from hx, Fibre.start, Fibre.outstanding]
    | some x =>
      rw [State.fibre_eq _ hx]
      cases ho : x.outstanding with
      | false => simp
      | true => simp [h f x hx (onTheWay_of_outstanding ho)]
  unfold State.enterPending
  induction ((s.readyPacks c).flatMap (fun p => (List.range 32).map (fun l => p * 32 + l))) with
  | nil => rfl
  | cons f fs ih =>
    rw [List.foldl_cons]
    simp only [hf f, Bool.false_eq_true, if_false]
    exact ih

/-- Settles O40: what the turn of a core forms, on what the parking leaves. -/
theorem coresIssueBatches : Obligations.CoresIssueBatches := by
  refine ⟨fun s u c hu => ?_, fun s c h => enterPending_eq_self h⟩
  have hx : exec (.coreIssue c) s = .next { u.coreTurn c with ns := s.ns + Config.nsStep s.tick } := by
    show execCoreIssue c s = _
    rw [execCoreIssue, hu]
  obtain ⟨hclk, hcore⟩ := coreTurn_cores u c
  obtain ⟨bs, hissue, hl, hg, hfibres, hdram⟩ := coreTurn_rest u c
  have hpark : ∀ f, mapGet (u.coreTurn c).fibres f = u.fibre? f ∨ mapGet (u.coreTurn c).fibres f = (u.fibre? f).map parked :=
    fun f => by rw [hfibres]; exact parkAll_fibre? u c f
  exact ⟨_, bs, hx, hclk, hcore, hissue, hl, hg, hpark, hdram⟩

/-! ### The fetch check (R133) -/

section
variable {s : State} {f o h g : Nat} {r : Region}

theorem fetchCheck_nowhere (hn : s.regionAt (s.ctxOf f) o = none) :
    s.fetchCheck f o = .error { eff := Eff.codeUnadopted, arg := codeArg o 0 0 } := by
  simp [State.fetchCheck, hn]

variable (hr : s.regionAt (s.ctxOf f) o = some (h, r))
include hr

theorem fetchCheck_unadopted (ha : adoptedGen (s.teamOf f) h = none) :
    s.fetchCheck f o = .error { eff := Eff.codeUnadopted, arg := codeArg o h 0 } := by
  simp [State.fetchCheck, hr, ha]

theorem fetchCheck_retracted (ha : adoptedGen (s.teamOf f) h = some g) (hg : g ≠ r.gen) :
    s.fetchCheck f o = .error { eff := Eff.codeRetracted, arg := codeArg o h r.gen } := by
  simp [State.fetchCheck, hr, ha, hg]

theorem fetchCheck_ok (ha : adoptedGen (s.teamOf f) h = some r.gen) (hp : r.state = .published)
    (hi : insideRegion r (s.coreOf f) = true) : s.fetchCheck f o = .ok (h, r) := by
  simp [State.fetchCheck, hr, ha, hp, hi]

end

/-! ### The line enters the fetch buffer (R130, R131) -/

/-- A fibre that is to issue and does not hold its line enters it. -/
theorem lineFetch_enters {s : State} {f : Nat} {x : Fibre} (hI : Issuing s f x) (hh : s.holdsLine f = false) :
    exec (.lineFetch f) s = .next (s.enterLine f) := by
  obtain ⟨hst, hhalt, heff, hmiss⟩ := hI.issues
  obtain ⟨hphase, hteam⟩ := hI.runs
  show execLineFetch f s = _
  simp [execLineFetch, hI.fibre, hphase, hteam, hhalt, Fibre.issues, hst, heff, hmiss, hh]

theorem enterLine_refused {s : State} {f : Nat} {x : Fibre} (hx : s.fibre? f = some x) {e : Err}
    (he : s.fetchCheck f x.pc.toNat = .error e) : s.enterLine f = s.raiseAt f e x.pc 0 := by
  simp [State.enterLine, State.fibre_eq _ hx, he]

/-- A line that the I-cache serves under the fetch's translation, key id and `GEN` enters the fetch buffer where its parity agrees. -/
theorem enterLine_hit {s u : State} {f h : Nat} {x : Fibre} {r : Region} {xl : Xl} {ln : ILine} (hx : s.fibre? f = some x)
    (hc : s.fetchCheck f x.pc.toNat = .ok (h, r))
    (ht : (s.fillLook (s.coreOf f) (s.ctxOf f) h).lineXlate f x.pc.toNat h = (.ok xl, u))
    (hl : (u.core (u.coreOf f)).icache.find? (u.lineHit f x.pc.toNat r.gen xl.key) = some ln)
    (hp : parityOk ln.data x.pc = true) : s.enterLine f = u.setFetch f x.pc.toNat h r ln.data := by
  simp [State.enterLine, State.fibre_eq _ hx, hc, State.fetchLine, ht, hl, hp]

/-- A fibre whose fetch buffer has the line of its PC. -/
def fetched (x : Fibre) (h : Nat) (r : Region) (d : List Byte) : Fibre :=
  { x with fbuf := some { off := x.pc.toNat / 64 * 64, data := d, region := h, gen := r.gen, last := false } }

section
variable (s : State) (f o h : Nat) (r : Region) (d : List Byte)

theorem setFetch_frame : s.setFetch f o h r d = { s with fibres := (s.setFetch f o h r d).fibres } := by
  unfold State.setFetch
  rw [park_frame]
  rfl

theorem setFetch_fibre?_ne {g : Nat} (hg : g ≠ f) : (s.setFetch f o h r d).fibre? g = s.fibre? g := by
  unfold State.setFetch
  rw [park_fibre?_ne _ hg, State.fibre?_modFibre_ne _ _ hg]

variable {s f} {x : Fibre} (hx : s.fibre? f = some x)
include hx

theorem setFetch_fibre? : (s.setFetch f x.pc.toNat h r d).fibre? f = some (fetched x h r d) ∨
    (s.setFetch f x.pc.toNat h r d).fibre? f = some (parked (fetched x h r d)) := by
  unfold State.setFetch
  have hm := State.fibre?_modFibre s f (fun y => { y with
    fbuf := some { off := x.pc.toNat / 64 * 64, data := d, region := h, gen := r.gen, last := false } })
  rw [hx] at hm
  rcases park_fibre? _ f f with hp | hp <;> rw [hp, hm]
  · exact .inl rfl
  · exact .inr rfl

end

/-- Settles O41: the fetch check decides, and a line that the I-cache serves enters the fetch buffer. -/
theorem linesAreFetched : Obligations.LinesAreFetched := by
  intro s f x hI hh
  rw [lineFetch_enters hI hh]
  refine ⟨fun e he => congrArg _ (enterLine_refused hI.fibre he), fetchCheck_nowhere,
    fun h r hr => ⟨fetchCheck_unadopted hr, fun g => fetchCheck_retracted hr, fetchCheck_ok hr⟩,
    fun h r xl u ln hc ht hx hl hp => ?_⟩
  rw [enterLine_hit hI.fibre hc ht hl hp]
  have hdram : (u.setFetch f x.pc.toNat h r ln.data).dram = u.dram := by rw [setFetch_frame]
  rcases setFetch_fibre? h r ln.data hx with hy | hy
  · exact ⟨_, _, rfl, hy, rfl, .inl hI.issues.1, hdram, fun g => setFetch_fibre?_ne _ _ _ _ _ _⟩
  · exact ⟨_, _, rfl, hy, rfl, .inr rfl, hdram, fun g => setFetch_fibre?_ne _ _ _ _ _ _⟩

end Sys2Proof.Claims

/-!
# O42: what readies a waiting fibre (R149, R154, R159, R202)

A result that arrives leaves the list of those on the way, and a PARKED fibre is READY when that list is empty. A wait whose condition is
met ends in place, or has its instruction executed again.
-/

namespace Sys2Proof.Claims
open Machine

/-! ### Results on the way (R154) -/

/-- The n-th result on the way leaves the list of those on the way. -/
theorem filter_coming_arriveNth (ws : List RegWrite) (n : Nat) :
    (arriveNth ws n).filter RegWrite.coming = (ws.filter RegWrite.coming).eraseIdx n := by
  induction ws generalizing n with
  | nil => rfl
  | cons w ws ih =>
    unfold arriveNth
    by_cases hw : w.coming = true
    · rw [if_pos hw, List.filter_cons_of_pos hw]
      cases n with
      | zero => rw [if_pos rfl, List.filter_cons_of_neg (by simp [RegWrite.coming])]; rfl
      | succ n => rw [if_neg (Nat.succ_ne_zero n), List.filter_cons_of_pos hw, ih]; rfl
    · rw [if_neg hw, List.filter_cons_of_neg hw, List.filter_cons_of_neg hw, ih]

theorem outstanding_eq_false {x : Fibre} : x.outstanding = false ↔ onTheWay x = [] := by
  simp [Fibre.outstanding, onTheWay]

/-- A PARKED fibre with nothing left on the way is READY. -/
def unparked (x : Fibre) : Fibre := if x.st = .parked ∧ onTheWay x = [] then { x with st := .ready } else x

theorem unparked_st (x : Fibre) : (unparked x).st = if x.st = .parked ∧ onTheWay x = [] then .ready else x.st := by
  unfold unparked
  split <;> rfl

@[simp] theorem unparked_regs (x : Fibre) : (unparked x).regs = x.regs := by
  unfold unparked
  split <;> rfl

@[simp] theorem onTheWay_unparked (x : Fibre) : onTheWay (unparked x) = onTheWay x := by
  unfold unparked
  split <;> rfl

/-- A fibre one of whose results on the way, the n-th, has arrived. -/
def arrivedNth (n : Nat) (x : Fibre) : Fibre := { x with pend := arriveNth x.pend n }

theorem onTheWay_arrivedNth (n : Nat) (x : Fibre) : onTheWay (arrivedNth n x) = (onTheWay x).eraseIdx n :=
  filter_coming_arriveNth ..

/-- The last arrival readies a PARKED fibre (R154). -/
theorem unparked_arrivedNth_st {n : Nat} {x : Fibre} (hn : n < (onTheWay x).length) : (unparked (arrivedNth n x)).st =
    if x.st = .parked ∧ (onTheWay x).length = 1 then .ready else x.st := by
  have he : onTheWay (arrivedNth n x) = [] ↔ (onTheWay x).length = 1 := by
    rw [onTheWay_arrivedNth, ← List.length_eq_zero_iff, List.length_eraseIdx_of_lt hn]
    omega
  simp only [unparked_st, he]
  rfl

section
variable {s : State} {f : Nat} {x : Fibre} (hx : s.fibre? f = some x)
include hx

/-- RESULT_ARRIVAL: one of the results on the way arrives, and then the fibre may be READY. -/
theorem resultArrival_eq (hh : x.halted = false) : exec (.resultArrival f) s =
    .next ((s.arriveResult f (s.pick 310 (max (onTheWay x).length 1))).modFibre f unparked) := by
  show execResultArrival f s = _
  have hu : (fun y : Fibre => if y.st = .parked ∧ !y.outstanding then { y with st := .ready } else y) = unparked := by
    funext y
    simp only [Bool.not_eq_true', outstanding_eq_false, unparked]
  simp only [execResultArrival, hx, hh, Bool.false_eq_true, if_false, hu]
  rfl

/-- A result that waits for no read arrives at once. -/
theorem arriveResult_plain {n : Nat} (hl : ∀ w ∈ x.pend, w.load = none) :
    s.arriveResult f n = s.modFibre f (arrivedNth n) := by
  have hn : ((x.pend.filter RegWrite.coming)[n]?).bind (·.load) = none := by
    cases hw : (x.pend.filter RegWrite.coming)[n]? with
    | none => rfl
    | some w => exact hl w (List.mem_of_mem_filter (List.mem_of_getElem? hw))
  simp only [State.arriveResult, State.fibre_eq _ hx, hn]
  rfl

/-- The result of an LD whose read must still wait does not arrive; the accesses before it may be performed (R321, R331). -/
theorem arriveResult_held {w : RegWrite} {q : Nat} {ld : LoadRead} (hw : onTheWay x = [w]) (hq : w.load = some q)
    (hl : mapGet x.loads q = some ld)
    (hv : mapHas ((s.arriveBefore f (fun y => decide (y.seq ≤ q) && y.block == locBlock ld.loc)).fibre f).loads q = true) :
    s.arriveResult f 0 = s.arriveBefore f (fun y => decide (y.seq ≤ q) && y.block == locBlock ld.loc) := by
  have hn : ((x.pend.filter RegWrite.coming)[0]?).bind (·.load) = some q := by
    rw [show x.pend.filter RegWrite.coming = [w] from hw]
    exact hq
  simp only [State.arriveResult, State.fibre_eq _ hx, hn, hl, Option.map_some, Option.getD_some, hv, if_true]

end

/-! ### Waits (R149, R159, R202) -/

theorem acquireCore_frame (s : State) (c : Nat) (sc : Scope) (own : Option Nat) :
    s.acquireCore c sc own = { s with cores := (s.acquireCore c sc own).cores, dies := (s.acquireCore c sc own).dies } := by
  unfold State.acquireCore
  dsimp only
  split_ifs <;> rfl

/-- An acquire changes no fibre (R326). -/
@[simp] theorem acquire_fibre? (s : State) (f : Nat) (sc : Scope) (g : Nat) : (s.acquire f sc).fibre? g = s.fibre? g := by
  unfold State.acquire
  rw [acquireCore_frame]
  rfl

theorem put_complete_st_pc (y : Fibre) (cls : Cls) (r : Nat) (v : Word) :
    ((y.put cls r v).complete.st, (y.put cls r v).complete.pc) = (.ready, nextPc y.pc) := by
  unfold Fibre.put
  split <;> rfl

/-- A fibre whose phase is over goes on at its next PC, what a BSYNC writes aside. -/
theorem rvDone_fibre? {s : State} {f : Nat} {x : Fibre} (hx : s.fibre? f = some x) (kdone : List Nat) (ph : Bool) (sync : Option Nat) :
    ((s.rvDone f kdone ph sync).fibre? f).map (fun y => (y.st, y.pc)) = some (.ready, nextPc x.pc) := by
  unfold State.rvDone
  rw [State.fibre?_modFibre, hx]
  cases sync with
  | none => rfl
  | some r => exact congrArg some (put_complete_st_pc ..)

section
variable {s : State} {f : Nat} {x : Fibre} (hx : s.fibre? f = some x) (hh : x.halted = false)
include hx hh

theorem waitConditionMet_token {rs : List Nat} (hst : x.st = .waiting (.token rs)) :
    exec (.waitConditionMet f) s = .next (if rs.any x.tokPending then s else s.retryFibre f) := by
  show execWaitConditionMet f s = _
  simp only [execWaitConditionMet, hx, hh, hst, Bool.false_eq_true, if_false]

theorem waitConditionMet_rendezvous {p : Nat} {ph : Bool} {sync src : Option Nat} (hst : x.st = .waiting (.rendezvous p ph sync src))
    (hp : (s.point (fibTeam f) p).phase ≠ s.waitPhase f ph src) : exec (.waitConditionMet f) s =
      .next ((s.acquire f .core).rvDone f (s.point (fibTeam f) p).kdone ph sync) := by
  show execWaitConditionMet f s = _
  simp only [execWaitConditionMet, hx, hh, hst, Bool.false_eq_true, if_false, bne_iff_ne, ne_eq, hp, not_false_eq_true, if_true]

end

/-- A fibre that tries its instruction again is READY, and its batch of one lane comes first. -/
theorem retryFibre_eq {s : State} {f : Nat} {x : Fibre} (hx : s.fibre? f = some x) : s.retryFibre f =
    { (s.modFibre f (fun y => { y with st := .ready })) with
      issue := Batch.formed (f / 1024) (f % 1024 / 32) x.pc [f % 32] (f % 32) (s.core (s.coreOf f)).clk :: s.issue } := by
  unfold State.retryFibre
  dsimp only
  rw [State.fibre_modFibre s _ hx]
  rfl

/-- Settles O42: what arrives leaves the list of results on the way, and a wait that is over ends or has its instruction tried again. -/
theorem fibresWakeUp : Obligations.FibresWakeUp := by
  refine ⟨fun s f x hx hh hl hw => ?_, fun s f x w q ld hx hh hw hq hl => ?_, fun s f x rs hx hh hst => ⟨?_, ?_⟩,
    fun s f x p ph sync src hx hh hst hp => ?_, fun s c i => rfl⟩
  · have hpos : 0 < (onTheWay x).length := List.length_pos_iff.2 hw
    rw [resultArrival_eq hx hh, arriveResult_plain hx hl, State.modFibre_modFibre, Nat.max_eq_left hpos]
    generalize hn : s.pick 310 (onTheWay x).length = n
    have hlt : n < (onTheWay x).length := hn ▸ Nat.mod_lt _ hpos
    refine ⟨_, unparked (arrivedNth n x), rfl, by rw [State.fibre?_modFibre, hx]; rfl, ?_, unparked_arrivedNth_st hlt, unparked_regs _, rfl,
      fun g => State.fibre?_modFibre_ne _ _⟩
    rw [onTheWay_unparked, onTheWay_arrivedNth, List.length_eraseIdx_of_lt hlt]
    omega
  · intro v hv
    have h0 : s.pick 310 (max (onTheWay x).length 1) = 0 := by
      rw [hw]
      exact Nat.mod_one _
    rw [resultArrival_eq hx hh, h0, arriveResult_held hx hw hq hl hv]
    rfl
  · rintro ⟨r, hr, ht⟩
    rw [waitConditionMet_token hx hh hst, if_pos (show rs.any x.tokPending = true from List.any_eq_true.2 ⟨r, hr, ht⟩)]
  · intro hn
    rw [waitConditionMet_token hx hh hst, if_neg (by simpa [Fibre.tokPending] using hn), retryFibre_eq hx]
    refine ⟨_, rfl, ?_, rfl⟩
    show (s.modFibre f _).fibre? f = _
    rw [State.fibre?_modFibre, hx]
    rfl
  · rw [waitConditionMet_rendezvous hx hh hst hp]
    exact ⟨_, rfl, rvDone_fibre? (by rw [acquire_fibre?, hx]) ..⟩

end Sys2Proof.Claims

/-!
# What performing accesses leaves alone (R321-R333)

A release, a read and an arrival at a rendezvous perform accesses of fibres that are still on their way, and with them the accesses that
must stand before those. `OnlyAccesses` says what that is to the fibres and the packs, and the development has one lemma for each operation
on the way, `OnlyAccesses.<operation>`: from `h : OnlyAccesses s t`, `h.flushSector` is the fact about the state after a further flush.
-/

namespace Sys2Proof.Claims
open Machine

/-- A fibre without what performing accesses changes of it: its register writes on the way, its reads, and its store faults. -/
def still (x : Fibre) : Fibre := { x with pend := [], queues := [], loads := [], sfaults := [] }

/-- From s to t accesses have been performed: no pack has changed, and of a fibre no more than `still` leaves out. -/
structure OnlyAccesses (s t : State) : Prop where
  packs : t.packs = s.packs
  sorted : sortedKeys s.fibres = true → sortedKeys t.fibres = true
  fibres : ∀ f, (t.fibre? f).map still = (s.fibre? f).map still

/-- A fact about the state that a result carries. -/
theorem snd_of_eq {α : Type} {P : State → Prop} {p : α × State} {a : α} {t : State} (h : P p.2) (e : p = (a, t)) : P t := by
  subst e; exact h

namespace OnlyAccesses

theorem refl (s : State) : OnlyAccesses s s := ⟨rfl, id, fun _ => rfl⟩

variable {s t u : State}

/-! ### Updates of single fields, loops and choices -/

/-- An update of neither fibres nor packs, by computation. -/
theorem frame (h : OnlyAccesses s t) (e : (u.fibres, u.packs) = (t.fibres, t.packs) := by rfl) : OnlyAccesses s u := by
  obtain ⟨hf, hp⟩ := Prod.mk.inj e
  exact ⟨hp.trans h.packs, hf ▸ h.sorted, fun f => by rw [State.fibre?, hf]; exact h.fibres f⟩

theorem home (h : OnlyAccesses s t) (a : t.HomeOnly u) : OnlyAccesses s u := h.frame (by rw [a.fibres, a.packs])

theorem modFibre (h : OnlyAccesses s t) {f : Nat} {k : Fibre → Fibre} (hk : ∀ x, still (k x) = still x := by intro _; rfl) :
    OnlyAccesses s (t.modFibre f k) := by
  refine ⟨h.packs, fun hs => sortedKeys_mapMod _ _ _ (h.sorted hs), fun g => ?_⟩
  rw [← h.fibres g]
  by_cases hg : g = f
  · rw [hg, State.fibre?_modFibre, Option.map_map]
    exact Option.map_congr fun x _ => hk x
  · rw [State.fibre?_modFibre_ne _ _ hg]

theorem ite {p : Prop} {d : Decidable p} (h : OnlyAccesses s t) (h' : OnlyAccesses s u) : OnlyAccesses s (if p then t else u) := by
  split
  · exact h
  · exact h'

theorem foldl {ι : Type} (h : OnlyAccesses s t) {F : State → ι → State} {l : List ι}
    (hF : ∀ t i, OnlyAccesses s t → OnlyAccesses s (F t i)) : OnlyAccesses s (l.foldl F t) :=
  List.foldlRecOn l F h fun t ht i _ => hF t i ht

theorem getD {o : Option State} (h : o.elim True (OnlyAccesses s)) (ht : OnlyAccesses s t) : OnlyAccesses s (o.getD t) := by
  cases o
  · exact ht
  · exact h

/-! ### Translation (R258-R263) -/

theorem setAccessed (h : OnlyAccesses s t) {c va wr} : OnlyAccesses s (t.setAccessed c va wr) := by
  unfold State.setAccessed
  dsimp only
  split
  · exact h
  · exact h.frame

theorem translate (h : OnlyAccesses s t) {x c va w} : OnlyAccesses s (t.translate x c va w).2 := by
  unfold State.translate
  cases t.tlbFind x c va with
  | some e => dsimp only; split; exacts [h, h.setAccessed]
  | none =>
    cases t.walk c va with
    | none => exact h
    | some l => dsimp only; split; exacts [h.frame, setAccessed h.frame]

theorem resolve (h : OnlyAccesses s t) {x c va w xl} : OnlyAccesses s (t.resolve x c va w xl).2 := by
  have hd : OnlyAccesses s (t.tlbDrop c va) := h.frame
  unfold State.resolve
  split
  · exact h
  · split
    next e => split <;> exact snd_of_eq hd.translate e
    next e => exact snd_of_eq hd.translate e

/-! ### Home and the L1 (R251-R257) -/

theorem recallSector (h : OnlyAccesses s t) {pa key} : OnlyAccesses s (t.recallSector pa key) := h.home (State.recallSector_homeOnly ..)

theorem homeRead (h : OnlyAccesses s t) {pa key n} : OnlyAccesses s (t.homeRead pa key n).2 := h.recallSector

theorem homeWrite (h : OnlyAccesses s t) {die pa key bs} : OnlyAccesses s (t.homeWrite die pa key bs) :=
  h.home (State.homeWrite_homeOnly ..)

theorem copyRenew (h : OnlyAccesses s t) {die pa key bs} : OnlyAccesses s (t.copyRenew die pa key bs) := by
  rw [State.copyRenew_frame]
  exact h.frame

theorem writeMasked (h : OnlyAccesses s t) {die pa key m data} : OnlyAccesses s (t.writeMasked die pa key m data) := by
  unfold State.writeMasked
  extract_lets v base w
  have hv : OnlyAccesses s v := h.recallSector
  have hw : OnlyAccesses s w :=
    hv.foldl fun _ _ h => ((h.home (State.dramWrite_homeOnly ..)).home (State.copyUpdate_homeOnly ..)).ite h
  exact hw.ite hw.frame

theorem storeFault (h : OnlyAccesses s t) {f life ctx arg} : OnlyAccesses s (t.storeFault f life ctx arg) := by
  have hl : OnlyAccesses s (t.logCtx ctx (.storeFault (fibTeam f) arg)) := h.frame
  exact h.modFibre.ite (hl.ite hl.frame)

theorem sectorFault (h : OnlyAccesses s t) {l ctx ws} : OnlyAccesses s (t.sectorFault l ctx ws) := by
  have hw := h.foldl (l := ws) (F := fun s w => s.storeFault w.fib w.life ctx w.arg) fun _ _ h => h.storeFault
  unfold State.sectorFault
  dsimp only
  split
  · exact hw.ite hw.storeFault
  · exact hw

theorem cleaned (h : OnlyAccesses s t) {c k pa key bm full acq data} : OnlyAccesses s (t.cleaned c k pa key bm full acq data) := by
  have hn := h.copyRenew (die := c / 128) (pa := pa) (key := key) (bs := t.homeBytes key (pa / 64 * 64) 64)
  exact (hn.frame.ite h.frame).ite h.frame

theorem writeBackBy (h : OnlyAccesses s t) {c k keep l} : OnlyAccesses s (t.writeBackBy c k keep l) := by
  unfold State.writeBackBy
  dsimp only
  split
  · split
    · exact h.cleaned.ite h.frame
    · split
      next e => exact snd_of_eq h.resolve e
      next e =>
        refine sectorFault ?_
        exact (snd_of_eq h.resolve e).frame
      next e =>
        have hr := snd_of_eq h.resolve e
        exact hr.ite (hr.writeMasked.cleaned.ite hr.writeMasked.frame)
  · exact h

theorem flushSector (h : OnlyAccesses s t) {c pa key inval} : OnlyAccesses s (t.flushSector c pa key inval) := by
  unfold State.flushSector
  dsimp only
  split
  · exact h.writeBackBy
  · exact h.ite h.recallSector
  · exact ite h.frame h
  · exact h

theorem allocate (h : OnlyAccesses s t) {c k hint} : (t.allocate c k hint).elim True (OnlyAccesses s) := by
  have he : ∀ line, OnlyAccesses s (t.evictLine c line) := fun _ => h.foldl fun _ _ h => h.flushSector
  unfold State.allocate
  dsimp only
  split
  · exact h.frame
  · split
    · exact h.frame
    · split
      · exact trivial
      · exact (he _).frame

theorem fillBytes (h : OnlyAccesses s t) {die pa key rc} : OnlyAccesses s (t.fillBytes die pa key rc).2 := by
  unfold State.fillBytes
  dsimp only
  split
  · split
    · exact h
    · exact h.homeRead.frame
  · exact h.homeRead.copyRenew

theorem l1Read (h : OnlyAccesses s t) {c pa key n rc hint} : OnlyAccesses s (t.l1Read c pa key n rc hint).2 := by
  unfold State.l1Read
  extract_lets k v
  have hv : OnlyAccesses s v := by
    unfold v
    split
    · exact h.recallSector
    · exact h
  split
  · exact getD hv.allocate hv
  · dsimp only
    split
    · exact getD hv.allocate hv
    · exact (getD hv.allocate hv).fillBytes.frame
  · dsimp only
    split
    next e => exact (of_some hv.fillBytes.allocate e).frame
    next => exact hv.fillBytes

theorem l1Write (h : OnlyAccesses s t) {f life c ctx va arg x bs} : OnlyAccesses s (t.l1Write f life c ctx va arg x bs) := by
  unfold State.l1Write
  extract_lets k i m v new
  have hv : OnlyAccesses s v := by
    unfold v
    split
    · exact h.recallSector
    · exact h
  exact hv.frame

theorem cvWrite (h : OnlyAccesses s t) {c x bs} : OnlyAccesses s (t.cvWrite c x bs) := by
  unfold State.cvWrite
  extract_lets k i m v w
  have hv : OnlyAccesses s v := by
    unfold v
    split
    · exact h.recallSector
    · exact h
  have hw : OnlyAccesses s w := hv.homeWrite
  split
  · exact hw.frame
  · exact hw.frame
  · exact hw

theorem homeReadBy (h : OnlyAccesses s t) {c pa key n how} : OnlyAccesses s (t.homeReadBy c pa key n how).2 := by
  unfold State.homeReadBy
  dsimp only
  split
  · exact h.flushSector.fillBytes
  · exact h.flushSector.homeRead

theorem homeAtom (h : OnlyAccesses s t) {c x n g} : OnlyAccesses s (t.homeAtom c x n g).2 := by
  unfold State.homeAtom
  dsimp only
  split
  · exact h.flushSector.homeRead (n := n)
  · exact h.flushSector.homeRead.homeWrite

theorem acquireCore (h : OnlyAccesses s t) {c sc own} : OnlyAccesses s (t.acquireCore c sc own) := by
  rw [acquireCore_frame]
  exact h.frame

/-! ### Reads (R321, R324) -/

theorem globRead1 (h : OnlyAccesses s t) {f x n how} : (t.globRead1 f x n how).elim True (fun p => OnlyAccesses s p.2) := by
  unfold State.globRead1
  dsimp only
  split
  · split
    · exact trivial
    · exact h.homeReadBy.ite h.homeReadBy.frame
  · split
    · exact trivial
    · exact h.l1Read

theorem globRead (h : OnlyAccesses s t) {f hnd how fuel va n acc} : OnlyAccesses s (t.globRead f hnd how fuel va n acc).2 := by
  induction fuel generalizing t va n acc with
  | zero => exact h
  | succ fuel ih =>
    unfold State.globRead
    dsimp only
    split
    · exact h
    · split
      next e => exact snd_of_eq h.translate e
      next e =>
        have ht := snd_of_eq h.translate e
        split
        next e' => exact snd_of_eq ht.resolve e'
        next e' =>
          have hr := snd_of_eq ht.resolve e'
          split
          next => exact hr
          next e'' => exact ih (of_some (P := fun p => OnlyAccesses s p.2) hr.globRead1 e'')

theorem readNow (h : OnlyAccesses s t) {f a n how} : OnlyAccesses s (t.readNow f a n how).2 := by
  unfold State.readNow
  split
  · exact h.globRead
  · split <;> exact h

theorem arriveEntry (h : OnlyAccesses s t) {f q i} : OnlyAccesses s (t.arriveEntry f q i) := by
  unfold State.arriveEntry
  dsimp only
  split
  · exact h
  · split
    · exact h
    · split
      next e =>
        have hr := snd_of_eq h.readNow e
        exact (acquireCore hr.modFibre).ite hr.modFibre
      next e => exact snd_of_eq h.readNow e
      next e =>
        have hr := snd_of_eq h.readNow e
        exact ((acquireCore hr.modFibre).ite hr.modFibre).ite hr.modFibre

theorem performLoad (h : OnlyAccesses s t) {f seq} : OnlyAccesses s (t.performLoad f seq) := by
  unfold State.performLoad
  split
  · exact h
  · exact h.modFibre

/-! ### Writes, and all that stands before them (R263, R271, R331) -/

theorem coreWrite (h : OnlyAccesses s t) {r va x bs} : (t.coreWrite r va x bs).elim True (OnlyAccesses s) := by
  unfold State.coreWrite
  split
  · exact trivial
  · split
    next e => exact (of_some h.allocate e).l1Write
    next =>
      split
      · exact trivial
      · exact h.cvWrite

theorem perform (h : OnlyAccesses s t) {r va x} : (t.perform r va x).elim True (OnlyAccesses s) := by
  unfold State.perform
  split
  · split
    · split
      · exact trivial
      · exact h.cvWrite
    · exact h.coreWrite
  · split
    · exact trivial
    · exact h.homeAtom

theorem afterSc (h : OnlyAccesses s t) {r} : OnlyAccesses s (t.afterSc r) := by
  unfold State.afterSc
  split
  · exact h
  · exact h.acquireCore

theorem performReq (h : OnlyAccesses s t) {id} : OnlyAccesses s (t.performReq id) := by
  have hdrop : ∀ {v : State}, OnlyAccesses s v → OnlyAccesses s (v.dropReq id) := fun h => h.frame
  unfold State.performReq
  split
  · exact h
  · split
    · split
      next e => exact snd_of_eq h.resolve e
      next e => exact (hdrop (snd_of_eq h.resolve e)).storeFault
      next e =>
        have hr := snd_of_eq h.resolve e
        split
        next => exact hr
        next e' => exact (hdrop (of_some hr.perform e')).afterSc
    · split
      · rw [State.placeWrite_frame]
        exact h.frame
      · exact hdrop h

theorem performOwn (h : OnlyAccesses s t) {f req xs stuck} (hreq : ∀ v id, OnlyAccesses s v → OnlyAccesses s (req v id)) :
    OnlyAccesses s (t.performOwn f req xs stuck) := by
  induction xs generalizing t stuck with
  | nil => exact h
  | cons x xs ih =>
    unfold State.performOwn
    split
    · exact ih h
    · apply ih
      split
      · exact h.arriveEntry
      · exact h.performLoad
      · exact hreq _ _ h

theorem settleReq (h : OnlyAccesses s t) {n id} : OnlyAccesses s (t.settleReq n id) := by
  induction n generalizing t id with
  | zero => exact h
  | succ n ih =>
    unfold State.settleReq
    split
    · exact h
    next r _ =>
      extract_lets v w
      have hv : OnlyAccesses s v := h.foldl fun _ _ h => h.ite (ih h)
      have hw : OnlyAccesses s w := hv.ite (hv.performOwn fun _ _ h => ih h)
      exact hw.performReq.ite hw

theorem arriveBefore (h : OnlyAccesses s t) {f p} : OnlyAccesses s (t.arriveBefore f p) := h.performOwn fun _ _ h => h.settleReq

/-! ### Releases (R325) -/

theorem releaseActs (h : OnlyAccesses s t) {f sc} : OnlyAccesses s (t.releaseActs f sc) :=
  ite (h.arriveBefore.foldl fun _ _ h => h.writeBackBy) h.arriveBefore

theorem release (h : OnlyAccesses s t) {f sc} : OnlyAccesses s (t.release f sc).2 := by
  unfold State.release
  dsimp only
  split
  · exact h.releaseActs.modFibre
  · split <;> exact h.releaseActs

end OnlyAccesses

end Sys2Proof.Claims

/-!
# O9: fibres start, end and pass their turn over (R164, R191-R194)

The ending of one fibre lets others go on: at the rendezvous points that it leaves, in the masks of its pack, and at barriers. None of that
touches a fibre that has ended, removes a fibre, or puts a lane back into a mask, which is what `Dwindles` says of two states; it has a lemma for
each operation that an ending goes through. Tables have rising keys throughout, so that each fibre has one entry.
-/

namespace Sys2Proof.Claims
open Machine

/-! ### Entries of tables -/

theorem mapGet_of_mem {α : Type} {m : Map α} (hs : sortedKeys m = true) {e : Nat × α} (he : e ∈ m) : mapGet m e.1 = some e.2 := by
  induction m with
  | nil => cases he
  | cons a m ih =>
    have hp := List.pairwise_cons.1 (sortedKeys_iff_pairwise.1 hs)
    rcases List.mem_cons.1 he with rfl | hm
    · simp [mapGet]
    · simp [mapGet, (hp.1 e hm).ne, ih (sortedKeys_iff_pairwise.2 hp.2) hm]

/-- A mask after a lane has left every mask of its pack (R192). -/
theorem getLsbD_leave (ms : Map Word) (i k l : Nat) :
    (mapGetD (mapAll ms (fun _ m => m &&& ~~~BitVec.ofNat 32 (2 ^ k))) i 0).getLsbD l =
      ((mapGetD ms i 0).getLsbD l && (!decide (l = k) || !decide (l < 32))) := by
  have hk : (BitVec.ofNat 32 (2 ^ k)).getLsbD l = (decide (l < 32) && decide (k = l)) := by
    rw [BitVec.getLsbD_ofNat, Nat.testBit_two_pow]
  simp only [mapGetD, mapGet_mapAll]
  cases mapGet ms i with
  | none => simp
  | some w =>
    simp only [Option.map_some, Option.getD_some, BitVec.getLsbD_and, BitVec.getLsbD_not, hk]
    by_cases hl : l < 32
    · simp [hl, eq_comm]
    · simp [hl, BitVec.getLsbD_of_ge _ _ (not_lt.1 hl)]

/-! ### What endings leave alone (R164, R192) -/

/-- A fibre has ended. -/
def Exited (s : State) (f : Nat) : Prop := (s.fibre? f).map (·.st) = some .exited

/-- The lane's bit is 0 in every mask of the pack. -/
def Unmasked (s : State) (p l : Nat) : Prop := ∀ i, (mapGetD (s.pack p).masks i 0).getLsbD l = false

/-- From s to t fibres have ended or gone on, but no fibre is gone, none that had ended has gone on, and no lane has entered a mask. -/
structure Dwindles (s t : State) : Prop where
  sorted : sortedKeys t.fibres = true
  present : ∀ f, (s.fibre? f).isSome → (t.fibre? f).isSome
  exited : ∀ f, Exited s f → Exited t f
  masks : ∀ p l, Unmasked s p l → Unmasked t p l

theorem Exited.of_still {s t : State} {f : Nat} (h : (t.fibre? f).map still = (s.fibre? f).map still) (he : Exited s f) : Exited t f := by
  have hst : ∀ o : Option Fibre, (o.map still).map (·.st) = o.map (·.st) := fun o => by cases o <;> rfl
  unfold Exited at he ⊢
  rw [← hst, h, hst, he]

theorem Exited.st {s : State} {f : Nat} {x : Fibre} (h : Exited s f) (hx : s.fibre? f = some x) : x.st = .exited := by
  simpa [Exited, hx] using h

namespace Dwindles

theorem refl {s : State} (h : sortedKeys s.fibres = true) : Dwindles s s := ⟨h, fun _ => id, fun _ => id, fun _ _ => id⟩

variable {s t u : State}

/-- An update of neither fibres nor packs, by computation. -/
theorem frame (h : Dwindles s t) (e : (u.fibres, u.packs) = (t.fibres, t.packs) := by rfl) : Dwindles s u := by
  obtain ⟨hf, hp⟩ := Prod.mk.inj e
  have hf' : ∀ f, u.fibre? f = t.fibre? f := fun f => by rw [State.fibre?, hf]; rfl
  have hp' : ∀ p, u.pack p = t.pack p := fun p => by rw [State.pack, hp]; rfl
  refine ⟨hf ▸ h.sorted, fun f => hf' f ▸ h.present f, fun f he => ?_, fun p l hm i => hp' p ▸ h.masks p l hm i⟩
  unfold Exited
  rw [hf']
  exact h.exited f he

theorem accesses (h : Dwindles s t) (a : OnlyAccesses t u) : Dwindles s u := by
  refine ⟨a.sorted h.sorted, fun f hf => ?_, fun f he => (h.exited f he).of_still (a.fibres f), fun p l hm i => ?_⟩
  · have hs := congrArg Option.isSome (a.fibres f)
    simp only [Option.isSome_map] at hs
    rw [hs]
    exact h.present f hf
  · rw [State.pack, a.packs]
    exact h.masks p l hm i

/-- A change of a fibre that, if it has ended, stays so. -/
theorem modFibre (h : Dwindles s t) {f : Nat} {k : Fibre → Fibre} (hk : Exited s f → ∀ x, x.st = .exited → (k x).st = .exited) :
    Dwindles s (t.modFibre f k) := by
  refine ⟨sortedKeys_mapMod _ _ _ h.sorted, fun g hg => ?_, fun g hg => ?_, h.masks⟩
  · by_cases e : g = f
    · subst e
      rw [State.fibre?_modFibre, Option.isSome_map]
      exact h.present g hg
    · rw [State.fibre?_modFibre_ne _ _ e]
      exact h.present g hg
  · unfold Exited
    by_cases e : g = f
    · subst e
      obtain ⟨x, hx, hst⟩ := Option.map_eq_some_iff.1 (h.exited g hg)
      rw [State.fibre?_modFibre, hx]
      exact congrArg some (hk hg x hst)
    · rw [State.fibre?_modFibre_ne _ _ e]
      exact h.exited g hg

/-- A change of a fibre that runs. -/
theorem modLive (h : Dwindles s t) {f : Nat} {k : Fibre → Fibre} (hf : ¬ Exited s f) : Dwindles s (t.modFibre f k) :=
  h.modFibre fun he => absurd he hf

theorem leave (h : Dwindles s t) {p k : Nat} : Dwindles s (t.modPack p (fun x => { x with
    masks := mapAll x.masks (fun _ m => m &&& ~~~BitVec.ofNat 32 (2 ^ k)) })) := by
  refine ⟨h.sorted, h.present, h.exited, fun q l hm i => ?_⟩
  have hi := h.masks q l hm i
  by_cases e : q = p
  · subst e
    rw [State.pack_modPack, getLsbD_leave, hi, Bool.false_and]
  · rw [State.pack_modPack_ne _ _ e, hi]

theorem ite {p : Prop} {d : Decidable p} (h : Dwindles s t) (h' : Dwindles s u) : Dwindles s (if p then t else u) := by
  split
  · exact h
  · exact h'

theorem foldl {ι : Type} (h : Dwindles s t) {l : List ι} {F : State → ι → State}
    (hF : ∀ t, ∀ i ∈ l, Dwindles s t → Dwindles s (F t i)) : Dwindles s (l.foldl F t) :=
  List.foldlRecOn l F h fun t ht i hi => hF t i hi ht

/-! ### Fibres that run -/

theorem live (h : Dwindles s t) {f : Nat} {x : Fibre} (hx : t.fibre? f = some x) (hst : x.st ≠ .exited) : ¬ Exited s f :=
  fun he => hst ((h.exited f he).st hx)

theorem live_of_teamFibres (h : Dwindles s t) {k : Nat} {e : Nat × Fibre} (he : e ∈ t.teamFibres k) : ¬ Exited s e.1 := by
  obtain ⟨hm, hp⟩ := List.mem_filter.1 he
  simp only [Bool.and_eq_true, bne_iff_ne, ne_eq] at hp
  exact h.live (mapGet_of_mem h.sorted hm) hp.2

end Dwindles

theorem mem_packFibres {s : State} {p : Nat} {e : Nat × Fibre} :
    e ∈ s.packFibres p ↔ ∃ l < 32, e.1 = p * 32 + l ∧ s.fibre? e.1 = some e.2 ∧ e.2.st ≠ .exited := by
  simp only [State.packFibres, List.mem_filterMap, List.mem_range]
  refine exists_congr fun l => and_congr_right fun _ => ?_
  obtain ⟨f, x⟩ := e
  cases hx : s.fibre? (p * 32 + l) with
  | none => exact ⟨nofun, fun ⟨hf, hs, _⟩ => by rw [hf, hx] at hs; cases hs⟩
  | some y =>
    dsimp only
    split_ifs with hy
    · exact ⟨nofun, fun ⟨hf, hs, hn⟩ => by rw [hf, hx] at hs; cases hs; exact absurd hy hn⟩
    · constructor
      · intro h
        cases h
        exact ⟨rfl, hx, hy⟩
      · rintro ⟨rfl, hs, -⟩
        rw [hx] at hs
        cases hs
        rfl

theorem hasNonHelper_iff {s : State} {p : Nat} : s.hasNonHelper p = true ↔
    ∃ l < 32, ∃ x, s.fibre? (p * 32 + l) = some x ∧ x.st ≠ .exited ∧ x.helper = false := by
  simp only [State.hasNonHelper, List.any_eq_true, mem_packFibres, Bool.not_eq_true']
  constructor
  · rintro ⟨⟨f, x⟩, ⟨l, hl, rfl, hx, hst⟩, hh⟩
    exact ⟨l, hl, x, hx, hst, hh⟩
  · rintro ⟨l, hl, x, hx, hst, hh⟩
    exact ⟨(p * 32 + l, x), ⟨l, hl, rfl, hx, hst⟩, hh⟩

namespace Dwindles

variable {s t : State}

/-! ### Rendezvous points, masks and barriers (R187, R201, R204, R206) -/

theorem rvComplete (h : Dwindles s t) {k b} : Dwindles s (t.rvComplete k b) := by
  unfold State.rvComplete
  extract_lets x expect ph v
  have hv : Dwindles s v := h.frame
  refine hv.foldl fun w e he hw => ?_
  split
  · exact ite (hw.modLive (hv.live_of_teamFibres he)) hw
  · exact hw

theorem rvArrive (h : Dwindles s t) {f b drop} : Dwindles s (t.rvArrive f b drop).2 := by
  have hp : ∀ x, Dwindles s (t.setPoint (fibTeam f) b x) := fun _ => h.frame
  exact (hp _).rvComplete.ite (hp _)

theorem lateArrive (h : Dwindles s t) {f b} : Dwindles s (t.lateArrive f b) := by
  have hr : Dwindles s (t.releaseActs f .core) := h.accesses (.releaseActs (.refl t))
  exact ite (hr.modFibre fun _ _ hx => hx) hr.rvArrive

theorem rvEnd (h : Dwindles s t) {f b} : Dwindles s (t.rvEnd f b) := h.ite (h.ite (ite h.frame h.lateArrive))

theorem endOne (h : Dwindles s t) {f} : Dwindles s (t.endOne f) := by
  refine foldl ?_ fun _ _ _ h => h.rvEnd
  exact (leave (h.modFibre fun _ _ _ => rfl)).frame

theorem completeWhere (h : Dwindles s t) {p q} : Dwindles s (t.completeWhere p q) := by
  refine h.foldl fun w e he hw => ite (hw.modLive ?_) hw
  obtain ⟨l, -, -, hx, hst⟩ := mem_packFibres.1 he
  exact h.live hx hst

theorem recheckMask (h : Dwindles s t) {p i} : Dwindles s (t.recheckMask p i) := by
  unfold State.recheckMask
  extract_lets m atPc pcs v w
  have hv : Dwindles s v := h.foldl fun _ _ _ h => ite h.completeWhere h
  exact ite hv.completeWhere hv

theorem recheckMasks (h : Dwindles s t) {p} : Dwindles s (t.recheckMasks p) := h.foldl fun _ _ _ h => h.recheckMask

theorem recheckHbar (h : Dwindles s t) {k sc} : Dwindles s (t.recheckHbar k sc) := by
  refine ite (foldl (h.foldl fun _ _ _ h => h.frame) fun w e he hw => ?_) h
  obtain ⟨u, -, hu⟩ := List.mem_flatMap.1 he
  exact modLive (hw.accesses (.acquireCore (.refl w))) (h.live_of_teamFibres (List.mem_of_mem_filter hu))

end Dwindles

/-! ### The fibre that ends (R192) -/

/-- The state in which a fibre has ended and left the masks, and not yet its watch slots and rendezvous points. -/
def departed (s : State) (f : Nat) : State :=
  (s.modFibre f (fun x =>
    { x with st := .exited, queues := [], loads := [], eff := none, held := none, capMode := false, missing := none, retracting := none,
             launching := none })).modPack (fibPack f) (fun x => { x with
    masks := mapAll x.masks (fun _ m => m &&& ~~~BitVec.ofNat 32 (2 ^ fibLane f)) })

section
variable {s : State} {f : Nat} (hs : sortedKeys s.fibres = true) (hf : (s.fibre? f).isSome)
include hs hf

theorem endOne_exits : Exited (s.endOne f) f ∧ Unmasked (s.endOne f) (fibPack f) (fibLane f) := by
  obtain ⟨x, hx⟩ := Option.isSome_iff_exists.1 hf
  have hv : sortedKeys (departed s f).fibres = true := sortedKeys_mapMod _ _ _ hs
  have hd : Dwindles (departed s f) (s.endOne f) := by
    refine Dwindles.foldl ?_ fun _ _ _ h => h.rvEnd
    exact (Dwindles.refl hv).frame
  refine ⟨hd.exited f ?_, hd.masks _ _ fun i => ?_⟩
  · show ((s.modFibre f _).fibre? f).map _ = _
    rw [State.fibre?_modFibre, hx]
    rfl
  · rw [departed, State.pack_modPack, getLsbD_leave]
    simp [fibLane, Nat.mod_lt]

/-- A fibre that ends has ended when all is done that its ending lets go on (R164, R192). -/
theorem endFibre_exits : Exited (s.endFibre f) f ∧ Unmasked (s.endFibre f) (fibPack f) (fibLane f) := by
  have hd : Dwindles (s.endOne f) (s.endFibre f) := by
    unfold State.endFibre
    extract_lets u v
    have hu : Dwindles u u := .refl (Dwindles.refl hs).endOne.sorted
    have hv : Dwindles u v := hu.ite (hu.foldl fun _ _ _ h => h.endOne)
    exact hv.recheckMasks.foldl fun _ _ _ h => h.recheckHbar
  obtain ⟨he, hm⟩ := endOne_exits hs hf
  exact ⟨hd.exited f he, hd.masks _ _ hm⟩

/-- Of the fibres that end together each has ended in the end (R164). -/
theorem foldl_endOne_exits {es : List (Nat × Fibre)} (hm : ∃ e ∈ es, e.1 = f) :
    Exited (es.foldl (fun s e => s.endOne e.1) s) f := by
  induction es generalizing s with
  | nil => simp at hm
  | cons e es ih =>
    have hd : Dwindles s (s.endOne e.1) := (Dwindles.refl hs).endOne
    rw [List.foldl_cons]
    by_cases he : e.1 = f
    · subst he
      obtain ⟨hx, -⟩ := endOne_exits hs hf
      generalize s.endOne e.1 = u at hd hx
      have hes : Dwindles u (es.foldl (fun s e => s.endOne e.1) u) := .foldl (.refl hd.sorted) fun _ _ _ h => h.endOne
      exact hes.exited _ hx
    · refine ih hd.sorted (hd.present f hf) ?_
      obtain ⟨d, hd, hdf⟩ := hm
      rcases List.mem_cons.1 hd with rfl | hd
      · exact absurd hdf he
      · exact ⟨d, hd, hdf⟩

end

/-! ### A READY fibre, and a helper, among what goes on (R187, R189, R206) -/

section
variable {s : State} {f : Nat} {x : Fibre} (hx : s.fibre? f = some x)
include hx

theorem completeWhere_fibre? {p : Nat} {q : Fibre → Bool} (hq : q x = false) : (s.completeWhere p q).fibre? f = some x := by
  refine List.foldlRecOn (motive := fun t : State => t.fibre? f = some x) _ _ hx fun t ht e he => ?_
  split
  next h =>
    obtain ⟨l, -, -, hs, -⟩ := mem_packFibres.1 he
    have hne : f ≠ e.1 := by
      rintro rfl
      rw [hx] at hs
      cases hs
      simp [h] at hq
    rw [State.fibre?_modFibre_ne _ _ hne, ht]
  next => exact ht

theorem recheckMask_fibre? {p i : Nat} (hst : x.st = .ready) : (s.recheckMask p i).fibre? f = some x := by
  unfold State.recheckMask
  extract_lets m atPc pcs v w
  have hv : v.fibre? f = some x := by
    refine List.foldlRecOn (motive := fun t : State => t.fibre? f = some x) _ _ hx fun t ht pc _ => ?_
    split
    · exact completeWhere_fibre? ht (by simp [atPc, hst])
    · exact ht
  split
  · exact completeWhere_fibre? hv (by simp [w, hst])
  · exact hv

/-- A READY fibre waits in no mask. -/
theorem recheckMasks_fibre? {p : Nat} (hst : x.st = .ready) : (s.recheckMasks p).fibre? f = some x := by
  unfold State.recheckMasks
  exact List.foldlRecOn (motive := fun t : State => t.fibre? f = some x) _ _ hx fun _ ht _ _ => recheckMask_fibre? ht hst

/-- A helper is no member of a barrier (R206). -/
theorem recheckHbar_fibre? (hs : sortedKeys s.fibres = true) {k : Nat} {sc : Scope} (hh : x.helper = true) :
    (s.recheckHbar k sc).fibre? f = some x := by
  unfold State.recheckHbar
  extract_lets ms r v
  split
  · have hv : v.fibre? f = some x := List.foldlRecOn (motive := fun t : State => t.fibre? f = some x) _ _ hx fun _ ht _ _ => ht
    refine List.foldlRecOn (motive := fun t : State => t.fibre? f = some x) _ _ hv fun t ht e he => ?_
    obtain ⟨u, -, hu⟩ := List.mem_flatMap.1 he
    obtain ⟨hu, hn⟩ := List.mem_filter.1 hu
    have hm := mapGet_of_mem hs (List.mem_of_mem_filter hu)
    have hne : f ≠ e.1 := by
      rintro rfl
      rw [show mapGet s.fibres e.1 = some x from hx] at hm
      cases hm
      simp [hh] at hn
    rw [State.fibre?_modFibre_ne _ _ hne, acquire_fibre?, ht]
  · exact hx

end

/-! ### The lanes of a batch -/

theorem fib_eq (b : Batch) (l : Nat) : b.fib l = packOf b * 32 + l := by
  simp only [Batch.fib, fibKey, packOf]
  omega

theorem fibPack_fib (b : Batch) {l : Nat} (h : l < 32) : fibPack (b.fib l) = packOf b := by
  rw [fib_eq, fibPack]
  omega

theorem fibLane_fib (b : Batch) {l : Nat} (h : l < 32) : fibLane (b.fib l) = l := by
  rw [fib_eq, fibLane]
  omega

theorem past_fibre?_ne (s : State) (b : Batch) {l k : Nat} (h : k ≠ l) : (past s b l).fibre? (b.fib k) = s.fibre? (b.fib k) :=
  State.fibre?_modFibre_ne _ _ fun e => h (b.fib_inj e)

/-! ### EXIT and DEMOTE (R164, R192, R193) -/

/-- What a fibre that becomes a helper leaves (R164, R193). -/
def demoted (s : State) (f : Nat) : State :=
  let v := s.modFibre f (fun x => { x with helper := true })
  let w := if v.hasNonHelper (fibPack f) then v else (v.packFibres (fibPack f)).foldl (fun s e => s.endOne e.1) v
  [Scope.quad, .die, .pkg, .pod].foldl (fun s sc => s.recheckHbar (fibTeam f) sc) (w.recheckMasks (fibPack f))

section
variable {s : State} {o : SY} {b : Batch} {l : Nat} {x : Fibre} (hL : Lone s (plainNeed o) b l x)
include hL

theorem exit_lone (hst : x.st ≠ .exited) : exec (.exit o) s = .next ((past s b l).endFibre (b.fib l)) := by
  show Host.Outcome.next (runLanes (plainNeed o) _ s) = _
  have hy : ((past s b l).fibre (b.fib l)).st ≠ .exited := by rwa [State.fibre_eq _ (past_fibre? hL)]
  rw [runLanes_lone hL]
  simp only [State.laneOf_f, beq_iff_eq, hy, if_false]

theorem demote_lone (hst : x.st ≠ .exited) (hh : x.helper = false) : exec (.demote o) s = .next (demoted (past s b l) (b.fib l)) := by
  show Host.Outcome.next (runLanes (plainNeed o) _ s) = _
  have hy : (((past s b l).fibre (b.fib l)).helper || ((past s b l).fibre (b.fib l)).st == .exited) = false := by
    rw [State.fibre_eq _ (past_fibre? hL)]
    simp [Fibre.passed, Fibre.flow, hh, hst]
  rw [runLanes_lone hL]
  simp only [State.laneOf_f, hy, Bool.false_eq_true, if_false]
  rfl

end

section
variable {s : State} {f : Nat} {x : Fibre} (hs : sortedKeys s.fibres = true) (hx : s.fibre? f = some x)
include hs hx

/-- In a pack with another live fibre, the helper goes on (R193). -/
theorem demoted_goesOn (hst : x.st = .ready) {k : Nat} {y : Fibre} (hk : k < 32) (hne : fibPack f * 32 + k ≠ f)
    (hy : s.fibre? (fibPack f * 32 + k) = some y) (hyst : y.st ≠ .exited) (hyh : y.helper = false) :
    (demoted s f).fibre? f = some { x with helper := true } := by
  unfold demoted
  extract_lets v w
  have hv : v.fibre? f = some { x with helper := true } := by rw [State.fibre?_modFibre, hx]; rfl
  have hvs : sortedKeys v.fibres = true := sortedKeys_mapMod _ _ _ hs
  have hw : w = v := if_pos (hasNonHelper_iff.2 ⟨k, hk, y, by rw [State.fibre?_modFibre_ne _ _ hne, hy], hyst, hyh⟩)
  rw [hw]
  refine (List.foldlRecOn (motive := fun t : State => sortedKeys t.fibres = true ∧ t.fibre? f = some { x with helper := true }) _ _
    ⟨(Dwindles.refl hvs).recheckMasks.sorted, recheckMasks_fibre? hv hst⟩ fun t ht sc _ => ?_).2
  exact ⟨(Dwindles.refl ht.1).recheckHbar.sorted, recheckHbar_fibre? ht.2 ht.1 rfl⟩

/-- In a pack without, it ends with the pack's other helpers (R164). -/
theorem demoted_exits (hst : x.st ≠ .exited) (ho : ∀ k < 32, fibPack f * 32 + k ≠ f → ∀ y, s.fibre? (fibPack f * 32 + k) = some y →
    y.st = .exited ∨ y.helper = true) : Exited (demoted s f) f := by
  unfold demoted
  extract_lets v w
  have hv : v.fibre? f = some { x with helper := true } := by rw [State.fibre?_modFibre, hx]; rfl
  have hvs : sortedKeys v.fibres = true := sortedKeys_mapMod _ _ _ hs
  have hn : ¬ v.hasNonHelper (fibPack f) = true := by
    intro h
    obtain ⟨k, hk, y, hy, hyst, hyh⟩ := hasNonHelper_iff.1 h
    by_cases hkf : fibPack f * 32 + k = f
    · rw [hkf, hv] at hy
      simp [← Option.some.inj hy] at hyh
    · rw [State.fibre?_modFibre_ne _ _ hkf] at hy
      rcases ho k hk hkf y hy with h | h
      · exact hyst h
      · simp [h] at hyh
  have hw : w = (v.packFibres (fibPack f)).foldl (fun s e => s.endOne e.1) v := if_neg hn
  have hm : (f, { x with helper := true }) ∈ v.packFibres (fibPack f) :=
    mem_packFibres.2 ⟨f % 32, Nat.mod_lt _ (by decide), by simp only [fibPack]; omega, hv, hst⟩
  have hwx : Exited w f := hw ▸ foldl_endOne_exits hvs (by rw [hv]; rfl) ⟨_, hm, rfl⟩
  have hws : sortedKeys w.fibres = true := hw ▸ (Dwindles.foldl (.refl hvs) fun _ _ _ h => h.endOne).sorted
  have hd : Dwindles w ([Scope.quad, .die, .pkg, .pod].foldl (fun s sc => s.recheckHbar (fibTeam f) sc) (w.recheckMasks (fibPack f))) :=
    (Dwindles.refl hws).recheckMasks.foldl fun _ _ _ h => h.recheckHbar
  exact hd.exited f hwx

end

/-! ### YIELD (R194) -/

/-- A quiet batch that yields: the pack passes over the lanes that ran (R194). -/
theorem yield_quiet {s : State} {o : SY} {b : Batch} {l : Nat} {ls : List Nat} (hQ : Quiet s (plainNeed o) b)
    (hg : goers s (plainNeed o) b = l :: ls) : exec (.yield o) s =
      .next ((settled s (plainNeed o) b).modPack (packOf b) (fun p => { p with yielded := goers s (plainNeed o) b })) := by
  show Host.Outcome.next (runBatch (plainNeed o) _ s) = _
  rw [runBatch_quiet hQ]
  simp only [runners, hg, List.map_cons, List.map_map, Function.comp_def, State.laneOf_l, State.laneOf_b, List.map_id']
  rfl

/-- At its turn a pack passes over the lanes of its YIELD, or has none but them READY (R194). -/
theorem readyLanes_yielded (s : State) (p : Nat) : ((s.readyLanes p).all (fun k => (s.pack p).yielded.contains k) ||
    (s.readyLanes p).all (fun k => !(s.pack p).yielded.contains k)) = true := by
  unfold State.readyLanes
  extract_lets all fresh
  rw [Bool.or_eq_true]
  split
  next h =>
    left
    have hn := List.filter_eq_nil_iff.1 (List.isEmpty_iff.1 h)
    exact List.all_eq_true.2 fun k hk => by simpa using hn k hk
  next =>
    right
    exact List.all_eq_true.2 fun k hk => (List.mem_filter.1 hk).2

/-! ### SPAWN (R191) -/

theorem putK_fibre?_ne (s : State) (b : Batch) (f : Nat) (cls : Cls) (i : Nat) (v : Word) {g : Nat} (hg : ∀ l ∈ b.lanes, g ≠ b.fib l) :
    (s.putK b f cls i v).fibre? g = s.fibre? g := by
  unfold State.putK
  extract_lets ser lost u
  refine List.foldlRecOn (motive := fun t : State => t.fibre? g = s.fibre? g) _ _ rfl fun t ht l hl => ?_
  rw [State.fibre?_modFibre_ne _ _ (hg l hl), ht]

section
variable (s : State) {ln : Ln} {g : Nat} (hf : g ≠ ln.f) (hg : ∀ l ∈ ln.b.lanes, g ≠ ln.b.fib l) (cls : Cls) (sp : Spec)
include hf hg

theorem put1_fibre?_ne (v : Word) : (s.put1 ln cls sp v).fibre? g = s.fibre? g := by
  cases sp with
  | g i => exact State.fibre?_modFibre_ne _ _ hf
  | p i => exact State.fibre?_modFibre_ne _ _ hf
  | k i =>
    unfold State.put1
    dsimp only
    split
    · rfl
    · exact putK_fibre?_ne _ _ _ _ _ _ hg
  | _ => rfl

/-- What a destination receives leaves the fibres outside its batch alone (R69, R84). -/
theorem putD_fibre?_ne (n v : Nat) : (s.putD ln cls sp n v).fibre? g = s.fibre? g := by
  have hfrom : ∀ i ws, (s.putFrom ln cls sp i ws).fibre? g = s.fibre? g := by
    intro i ws
    induction ws generalizing s i with
    | nil => rfl
    | cons w ws ih => simp only [State.putFrom, ih, put1_fibre?_ne _ hf hg]
  unfold State.putD
  split
  · exact put1_fibre?_ne _ hf hg ..
  · exact hfrom ..

end

/-- The pack's masks, and what they let go on, after a lane is filled (R191). -/
def remasked (v : State) (m : Nat) : State :=
  (v.modPack (fibPack m) (fun p => { p with
    masks := mapAll p.masks (fun _ w => w &&& ~~~BitVec.ofNat 32 (2 ^ fibLane m)) })).recheckMasks (fibPack m)

theorem remasked_fibre? {v : State} {m : Nat} {y : Fibre} (hy : v.fibre? m = some y) (hst : y.st = .ready) :
    (remasked v m).fibre? m = some y := by
  unfold remasked
  exact recheckMasks_fibre? (show (v.modPack _ _).fibre? m = some y from hy) hst

section
variable {s : State} {o : BR} {b : Batch} {l : Nat} {x : Fibre} (hL : Lone s (spawnNeed o) b l x)
include hL

/-- A helper, and a fibre for which no lane is free, get 0xFFFFFFFF. -/
theorem spawn_none (h : x.helper = true ∨ (past s b l).freeLane (b.fib l) = none) :
    exec (.spawn o) s = .next ((past s b l).putD (s.laneOf b l) .a o.d 1 (2 ^ 32 - 1)) := by
  show Host.Outcome.next (runLanes (spawnNeed o) _ s) = _
  rw [runLanes_lone hL]
  simp only [State.laneOf_f, State.fibre_eq _ (past_fibre? hL)]
  by_cases hh : x.helper = true
  · rw [if_pos (show (x.passed b.pc).helper = true from hh)]
  · rw [if_neg (show ¬ (x.passed b.pc).helper = true from hh), h.resolve_left hh]

/-- Otherwise a fibre starts in the first free lane, once the release is done (R191). -/
theorem spawn_starts (hh : x.helper = false) {m : Nat} {u : State} (hm : (past s b l).freeLane (b.fib l) = some m)
    (hr : (past s b l).release (b.fib l) .core = (.done, u)) (hs : (u.fibre m).sfaults = []) :
    exec (.spawn o) s = .next ((remasked (u.setFibre m (spawned (u.fibre m) (u.readRegs (b.fib l) 4 (l * 128 + 80) 8) (brTarget o b.pc)
      (u.blockOf (b.fib l)).lane)) m).putD (s.laneOf b l) .a o.d 1 (fibNum m)) := by
  show Host.Outcome.next (runLanes (spawnNeed o) _ s) = _
  have hl : u.logOldFaults m = u := by simp [State.logOldFaults, hs]
  rw [runLanes_lone hL]
  simp only [State.laneOf_f, State.fibre_eq _ (past_fibre? hL)]
  rw [if_neg (show ¬ (x.passed b.pc).helper = true by simp [Fibre.passed, Fibre.flow, hh]), hm]
  simp only [afterRelease, State.laneOf_f, hr, hl]
  rfl

end

theorem spawnStartsAFibre : SpawnStartsAFibre := by
  intro o s b l x hL
  refine ⟨fun h => spawn_none hL h, fun m u hh hm hr hs => ⟨_, spawn_starts hL hh hm hr hs, rfl, fun hne => ?_⟩⟩
  rw [putD_fibre?_ne _ hne (by simpa [hL.lanes] using hne)]
  exact remasked_fibre? (State.fibre?_setFibre ..) rfl

theorem fibresEndAndYield : FibresEndAndYield := by
  refine ⟨fun o s b l x hL hs hst hl => ?_, fun o s b l x hL hs hst hh hl => ?_, fun o s b l ls hQ hg => ?_⟩
  · obtain ⟨he, hm⟩ := endFibre_exits (s := past s b l) (sortedKeys_mapMod _ _ _ hs) (by rw [past_fibre? hL]; rfl)
    rw [fibPack_fib b hl, fibLane_fib b hl] at hm
    exact ⟨_, exit_lone hL hst, he, hm⟩
  · have hp : sortedKeys (past s b l).fibres = true := sortedKeys_mapMod _ _ _ hs
    have hst' : x.st ≠ .exited := by simp [hst]
    rw [demote_lone hL hst' hh]
    have hk : ∀ k, fibPack (b.fib l) * 32 + k = b.fib k := fun k => by rw [fibPack_fib b hl, ← fib_eq]
    refine ⟨fun ⟨k, y, hk32, hne, hy, hyst, hyh⟩ => ⟨_, rfl, ?_⟩, fun ho => ⟨_, rfl, ?_⟩⟩
    · rw [demoted_goesOn hp (past_fibre? hL) hst hk32 (hk k ▸ fun e => hne (b.fib_inj e))
        (by rw [hk, past_fibre?_ne s b hne, hy]) hyst hyh]
      exact congrArg (fun st => some (true, st)) hst
    · refine demoted_exits hp (past_fibre? hL) hst' fun k hk32 hkf y hy => ?_
      rw [hk] at hkf hy
      have hkl : k ≠ l := fun e => hkf (by rw [e])
      exact ho k y hk32 hkl (by rw [← past_fibre?_ne s b hkl, hy])
  · refine ⟨_, yield_quiet hQ hg, rfl, ?_⟩
    have hr := readyLanes_yielded ((settled s (plainNeed o) b).modPack (packOf b)
      (fun p => { p with yielded := goers s (plainNeed o) b })) (packOf b)
    rwa [State.pack_modPack] at hr

/-- Settles O9: a lane is filled as R191 says, and what an ending lets go on brings back no fibre that has ended and no bit of a mask. -/
theorem fibresStartAndEnd : Obligations.FibresStartAndEnd := ⟨spawnStartsAFibre, fibresEndAndYield⟩

end Sys2Proof.Claims

/-!
# O1, O3 and O59: results of register-only and cross-lane instructions (R66-R71, R166-R173, R195-R197), and the state after reset

An instruction that gives each lane one value runs one shape of body over its batch: the flags that the value raises join the lane's, then D is
written. `flag_putD_only` says what that body changes, so what is left of each instruction is that its value is the one stated.
-/

namespace Sys2Proof.Claims
open Machine

/-! ### The state after reset (R176, R433) -/

/-- Settles O59: every table is empty, and an empty table is canonical. -/
theorem resetLeavesTheModuleOff : Obligations.ResetLeavesTheModuleOff :=
  ⟨rfl, rfl, rfl, rfl, rfl, rfl, rfl, rfl, rfl, fun _ => ⟨rfl, rfl, rfl⟩, ⟨rfl, rfl, rfl⟩⟩

/-! ### A lane's value and flags (R84, R212) -/

/-- The flags that a result raises join the lane's, and D takes the result. -/
theorem flag_putD_only (s : State) (ln : Ln) (cls : Cls) {sp : Spec} (n : Nat) (r : Nat × Nat) (h : namesK sp = false) :
    OnlyFibre s ((s.flag ln.f r.2).putD ln cls sp n r.1) ln.f
      (fun x => ({ x with flags := x.flags ||| BitVec.ofNat 5 r.2 }).putD cls sp n r.1) :=
  (OnlyFibre.of_modFibre ..).trans (State.putD_only _ _ _ _ _ _ h)

theorem joinFlags_zero (x : Fibre) : { x with flags := x.flags ||| BitVec.ofNat 5 0 } = x := by simp

/-- The same where no flag is raised. -/
theorem putD_only_of_noFlags (s : State) (ln : Ln) (cls : Cls) {sp : Spec} (n : Nat) {r : Nat × Nat} (hr : r.2 = 0)
    (h : namesK sp = false) : OnlyFibre s (s.putD ln cls sp n r.1) ln.f
      (fun x => ({ x with flags := x.flags ||| BitVec.ofNat 5 r.2 }).putD cls sp n r.1) := by
  simp only [hr, joinFlags_zero]
  exact State.putD_only _ _ _ _ _ _ h

/-- An instruction that writes each lane's value, and raises no flag. -/
theorem Computes.of_putD {i : Instr} {op : LaneOp} (hf : ∀ v, (op.out v).2 = 0)
    (hx : ∀ s, exec i s = .next (runLanes op.need (fun ln v s => s.putD ln op.cls op.need.head.d op.wd (op.out v).1) s)) :
    Computes i op := by
  intro s b hQ hk
  exact ⟨_, hx s, runLanes_local hQ _ (fun _ v => op.act v) fun ln v t _ _ _ _ _ => putD_only_of_noFlags t ln _ _ (hf v) hk⟩

/-- An instruction whose result is a pattern, computed as `w` does. -/
theorem Computes.of_patRun {i : Instr} {o : AL} {na nb nc wd : Nat} {v : Nat → Nat → Nat → Nat} (w : Nat → Nat → Nat → Nat)
    (hw : ∀ x y z, w x y z % 2 ^ (32 * wd) = v x y z % 2 ^ (32 * wd))
    (hx : ∀ s, exec i s = .next (patRun o .a na nb nc wd w s)) : Computes i (pattern o na nb nc wd v) :=
  .of_putD (fun _ => rfl) fun s => by simp only [hx, patRun, hw]; rfl

/-! ### Integer arithmetic (R167-R169) -/

theorem integerArithmeticResults : IntegerArithmeticResults := by
  intro i op h
  unfold arithmetic at h
  split at h <;> cases h <;> exact .of_putD (fun _ => rfl) fun _ => rfl

/-! ### Logic, shifts, fields and counts (R167, R170, R171) -/

theorem shl_eq (w a n : Nat) : (if w ≤ n then 0 else a * 2 ^ n) = if n < w then a <<< n else 0 := by
  by_cases h : n < w
  · rw [if_neg (not_le.2 h), if_pos h, Nat.shiftLeft_eq]
  · rw [if_pos (not_lt.1 h), if_neg h]

theorem shr_eq (w a n : Nat) : (if w ≤ n then 0 else a / 2 ^ n) = if n < w then a >>> n else 0 := by
  by_cases h : n < w
  · rw [if_neg (not_le.2 h), if_pos h, Nat.shiftRight_eq_div_pow]
  · rw [if_pos (not_lt.1 h), if_neg h]

theorem rotl_eq (w a n : Nat) : rotl w a n = a <<< (n % w) % 2 ^ w + a >>> (w - n % w) := by
  rw [rotl, Nat.shiftLeft_eq, Nat.shiftRight_eq_div_pow]

theorem fsh_mod (left : Bool) (a b n : Nat) : fsh left a b n % 2 ^ 32 =
    (if left then (a * 2 ^ 32 + b) <<< (n % 32) / 2 ^ 32 else (a * 2 ^ 32 + b) >>> (n % 32)) % 2 ^ 32 := by
  cases left <;> simp [fsh, Nat.shiftLeft_eq, Nat.shiftRight_eq_div_pow]

theorem logicAndShiftResults : LogicAndShiftResults := by
  intro i op h
  unfold logic at h
  split at h <;> cases h
  case h_6 o => exact .of_patRun _ (fun a n _ => by rw [shl_eq]) fun _ => rfl
  case h_7 o => exact .of_patRun _ (fun a n _ => by rw [shr_eq]) fun _ => rfl
  case h_9 o => exact .of_patRun _ (fun a n _ => by rw [rotl_eq]) fun _ => rfl
  case h_10 o => exact .of_patRun _ (fun a b n => fsh_mod (o.fn == 1) a b n) fun _ => rfl
  all_goals exact .of_putD (fun _ => rfl) fun _ => rfl

/-! ### Moves and predicates (R172, R173) -/

theorem moveAndPredicateResults : MoveAndPredicateResults := by
  intro i op h
  unfold moves at h
  split at h <;> cases h
  case h_2 o => exact .of_patRun (fun a b c => if c % 2 ^ 32 != 0 then a else b) (fun a b c => by simp [ite_not]) fun _ => rfl
  all_goals exact .of_putD (fun _ => rfl) fun _ => rfl

/-! ### Operands (R66, R68, R71) -/

theorem readRegs_length (s : State) (f r salt k : Nat) : (s.readRegs f r salt k).length = k := by
  induction k generalizing r salt with
  | zero => rfl
  | succ k ih => simp [State.readRegs, ih]

theorem readRegs_getElem? (s : State) (f r salt k j : Nat) {w : Word} (h : (s.readRegs f r salt k)[j]? = some w) :
    w = s.readReg f (r + j) (salt + j) := by
  induction k generalizing r salt j with
  | zero => cases h
  | succ k ih =>
    cases j with
    | zero => exact (Option.some.inj h).symm
    | succ j =>
      rw [ih _ _ _ h, Nat.add_right_comm r, Nat.add_right_comm salt]
      rfl

theorem wordsNat_zeroExtended (w : Word) (k : Nat) : wordsNat (w :: List.replicate k 0) = w.toNat := by
  have h : wordsNat (List.replicate k (0 : Word)) = 0 := by
    induction k with
    | zero => rfl
    | succ k ih => rw [List.replicate_succ, wordsNat, ih]; rfl
  rw [wordsNat, h, Nat.mul_zero, Nat.add_zero]

theorem wordsNat_replicate_ones (k : Nat) : wordsNat (List.replicate k 0xFFFFFFFF#32) + 1 = 2 ^ (32 * k) := by
  induction k with
  | zero => rfl
  | succ k ih =>
    rw [Nat.mul_succ, pow_add, ← ih]
    simp only [List.replicate_succ, wordsNat, BitVec.toNat_ofNat]
    omega

/-- `IMM` in k + 1 registers, its sign filling those above the first (R71). -/
theorem wordsNat_signExtended (w : Word) (k : Nat) :
    wordsNat (w :: List.replicate k (if w.getLsbD 31 then 0xFFFFFFFF#32 else 0)) = unsign w.toInt (32 * (k + 1)) := by
  have hw := w.isLt
  have hp : 2 ^ (32 * (k + 1)) = 2 ^ 32 * 2 ^ (32 * k) := by rw [Nat.mul_succ, pow_add, Nat.mul_comm]
  have h1 : 1 ≤ 2 ^ (32 * k) := Nat.one_le_two_pow
  have hm : w.getLsbD 31 = w.msb := by simp [BitVec.msb_eq_getLsbD_last]
  rw [unsign, hm, BitVec.toInt_eq_msb_cond]
  cases w.msb with
  | false =>
    rw [if_neg (by simp), if_neg (by simp), wordsNat_zeroExtended, Int.emod_eq_of_lt (by omega) (by omega), Int.toNat_natCast]
  | true =>
    rw [if_pos rfl, if_pos rfl]
    have ho := wordsNat_replicate_ones k
    rw [← Int.add_emod_right, Int.emod_eq_of_lt (by omega) (by omega)]
    simp only [wordsNat]
    omega

/-- What a source specifier reads is what R66, R68 and R71 give it. -/
theorem gives_readSpec (s : State) (b : Batch) (l : Nat) (imm : Word) (sgn : Bool) (salt k : Nat) (sp : Spec) :
    Gives s b l imm sgn k sp (s.readSpec b l imm sgn salt k sp) := by
  refine ⟨?_, ?_, ?_, ?_, ?_, ?_⟩
  · rintro i rfl
    refine ⟨readRegs_length .., fun j w h => ⟨salt + j, ?_⟩⟩
    rw [readRegs_getElem? _ _ _ _ _ _ h]
    simp only [rC, rG, Bool.and_eq_true, decide_eq_true_eq]
    split <;> simp
  · rintro i rfl
    exact ⟨readRegs_length .., fun j w h => ⟨salt + j, readRegs_getElem? _ _ _ _ _ _ h⟩⟩
  · rintro i rfl hk
    obtain ⟨m, rfl⟩ := Nat.exists_eq_succ_of_ne_zero hk.ne'
    exact ⟨by simp [State.readSpec], _, ⟨salt, rfl⟩, wordsNat_zeroExtended ..⟩
  · rintro i rfl hk
    obtain ⟨m, rfl⟩ := Nat.exists_eq_succ_of_ne_zero hk.ne'
    exact ⟨by simp [State.readSpec], _, ⟨salt, rfl⟩, wordsNat_zeroExtended ..⟩
  · rintro r rfl hk
    obtain ⟨m, rfl⟩ := Nat.exists_eq_succ_of_ne_zero hk.ne'
    exact ⟨by simp [State.readSpec], wordsNat_zeroExtended ..⟩
  · rintro rfl hk
    obtain ⟨m, rfl⟩ := Nat.exists_eq_succ_of_ne_zero hk.ne'
    refine ⟨by simp [State.readSpec], ?_⟩
    cases sgn
    · exact wordsNat_zeroExtended ..
    · exact wordsNat_signExtended ..

theorem operandsAreRead : OperandsAreRead := fun _ _ _ _ =>
  ⟨gives_readSpec .., gives_readSpec .., gives_readSpec .., gives_readSpec ..⟩

/-- Settles O1: the operands are what the specifiers give, and each instruction writes the value stated. -/
theorem registerResults : Obligations.RegisterResults :=
  ⟨operandsAreRead, integerArithmeticResults, logicAndShiftResults, moveAndPredicateResults⟩

/-! ### Cross-lane instructions (R195-R197, R239) -/

theorem runners_participants (s : State) (n : Need) (b : Batch) :
    (runners s n b).map (fun e => (e.1.l, e.2)) = participants s n b := by
  simp [runners, participants, Function.comp_def]

section
variable {i : Instr} {op : CrossOp} {s : State} {b : Batch} (hQ : Quiet s op.need b)
include hQ

/-- Over a quiet batch each participant gets its value of all participants' operands, and nothing else changes, where the body does to
each participant no more than that. -/
theorem crossLane (body : List (Nat × Vals) → Ln → Vals → State → State)
    (hx : exec i s = .next (runBatch op.need (fun lns t => lns.foldl (fun u e => body (lns.map fun e => (e.1.l, e.2)) e.1 e.2 u) t) s))
    (hb : ∀ all ln v t, OnlyFibre t (body all ln v t) ln.f (fun x =>
      ({ x with flags := x.flags ||| BitVec.ofNat 5 (op.out ln.l v all).2 }).putD .b op.need.head.d op.wd (op.out ln.l v all).1)) :
    ∃ t, exec i s = .next t ∧ LaneResult s t op.need b (op.act s b) := by
  have hr := runBatch_quiet hQ fun lns t => lns.foldl (fun u e => body (lns.map fun e => (e.1.l, e.2)) e.1 e.2 u) t
  rw [runners_participants] at hr
  rw [hx, hr, ← runBatch_quiet hQ fun lns t => lns.foldl (fun u e => body (participants s op.need b) e.1 e.2 u) t]
  refine ⟨_, rfl, runBatch_local hQ (fun e => body (participants s op.need b) e.1 e.2) _ fun e he t _ _ => ?_⟩
  obtain ⟨l, -, rfl⟩ := List.mem_map.1 he
  exact hb ..

variable (hk : namesK op.need.head.d = false)
include hk

/-- The instructions of R196 and R197 are of one shape. -/
theorem crossLane_crossRun (o : AL) (na nb wd : Nat) (hn : op.need = crossNeed o na nb wd) (hw : op.wd = wd)
    (hx : exec i s = .next (crossRun o na nb wd op.out s)) : ∃ t, exec i s = .next t ∧ LaneResult s t op.need b (op.act s b) := by
  subst hw
  refine crossLane hQ (fun all ln v u => (u.flag ln.f (op.out ln.l v all).2).putD ln .b op.need.head.d op.wd (op.out ln.l v all).1) ?_
    fun _ ln _ t => flag_putD_only t ln .b _ _ hk
  rw [hx, hn]
  rfl

/-- SCALEQ writes its value, and raises no flag (R239). -/
theorem crossLane_putD (hf : ∀ l v all, (op.out l v all).2 = 0) (hx : exec i s = .next (runBatch op.need (fun lns t =>
      lns.foldl (fun u e => u.putD e.1 .b op.need.head.d op.wd (op.out e.1.l e.2 (lns.map fun e => (e.1.l, e.2))).1) t) s)) :
    ∃ t, exec i s = .next t ∧ LaneResult s t op.need b (op.act s b) :=
  crossLane hQ (fun all ln v u => u.putD ln .b op.need.head.d op.wd (op.out ln.l v all).1) hx
    fun _ ln _ t => putD_only_of_noFlags t ln .b _ (hf ..) hk

end

/-- Settles O3: every operand of every participant is read before any lane writes. -/
theorem crossLaneResults : Obligations.CrossLaneResults := by
  intro i op h s b hQ hk
  unfold cross at h
  split at h <;> cases h
  case h_7 o =>
    refine crossLane_putD hQ hk (fun _ _ _ => rfl) ?_
    simp only [List.map_map, apply_ite scaleCode]
    rfl
  all_goals exact crossLane_crossRun hQ hk _ _ _ _ rfl rfl rfl

end Sys2Proof.Claims

/-!
# O17: the address of a handle (R177, R249, R250)

HADDR makes the checks of a handle without the access. What it finds for an entry of each sort is said once (`haddrPrep_…`); on chip that is what
the bounds of R249 say, so each space is left with the conditions of its own.
-/

namespace Sys2Proof.Claims
open Machine

/-! ### The bounds of the on-chip spaces (R249) -/

section
variable {s : State} {f h : Nat} {e : Entry} {off fin n : Int}

/-- On chip the address is that of the entry and the offset. -/
theorem finalAddr_onchip {sp : Nat} (hh : h ≠ 0) (h1 : 1 ≤ sp) (h5 : sp ≤ 5) : s.finalAddr f h e sp off = e.base + off := by
  have h6 : sp ≠ 6 := by omega
  simp [State.finalAddr, hh, h1, h5, h6]

/-- MEM.SCRATCH under a handle, with its cause. -/
def scratchErr (h cause : Nat) : Err := { eff := 0x021, arg := h * 2 ^ 20 + cause * 2 ^ 16 }

theorem onchipBounds_lane_below (h0 : off < 0) :
    s.onchipBounds f h 2 e off fin n = some { eff := 0x026, arg := marg h fin } := by
  simp [State.onchipBounds, h0, Eff.memStack]

theorem onchipBounds_len {sp : Nat} (hsp : sp = 3 ∨ sp = 4 ∨ sp = 5 ∨ (sp = 2 ∧ 0 ≤ off)) (hl : ¬(0 ≤ off ∧ off + n ≤ e.len)) :
    s.onchipBounds f h sp e off fin n = some (scratchErr h 0) := by
  have hl' : off < 0 ∨ (e.len : Int) < off + n := by omega
  rcases hsp with rfl | rfl | rfl | ⟨rfl, h0⟩
  · simp [State.onchipBounds, hl', scratchErr, sarg, Eff.memScratch]
  · simp [State.onchipBounds, hl', scratchErr, sarg, Eff.memScratch]
  · simp [State.onchipBounds, hl', scratchErr, sarg, Eff.memScratch]
  · simp [State.onchipBounds, hl'.resolve_left (not_lt.2 h0), not_lt.2 h0, scratchErr, sarg, Eff.memScratch]

variable (hl : 0 ≤ off ∧ off + n ≤ e.len)
include hl

theorem onchipBounds_lane : s.onchipBounds f h 2 e off fin n =
    if ((s.blockOf f).lane : Int) < fin + n then some (scratchErr h 1) else none := by
  simp only [State.onchipBounds, not_lt.2 hl.1, not_lt.2 hl.2, if_false]
  rfl

theorem onchipBounds_core : s.onchipBounds f h 3 e off fin n =
    if ((s.blockOf f).scratch : Int) < fin + n then some (scratchErr h 1)
    else if s.inSpill (fibTeam f) fin n then some (scratchErr h 2) else none := by
  simp only [State.onchipBounds, not_lt.2 hl.1, not_lt.2 hl.2, or_self, if_false]
  rfl

theorem onchipBounds_quad_past (hf : (2 ^ 20 : Int) ≤ fin) : s.onchipBounds f h 4 e off fin n = some (scratchErr h 1) := by
  simp only [State.onchipBounds, not_lt.2 hl.1, not_lt.2 hl.2, or_self, if_false, hf, if_true]
  rfl

theorem onchipBounds_quad_absent (hf : fin < 2 ^ 20) (hm : s.member (fibTeam f) (fin.toNat / 2 ^ 18) = none) :
    s.onchipBounds f h 4 e off fin n = some (scratchErr h 3) := by
  simp only [State.onchipBounds, not_lt.2 hl.1, not_lt.2 hl.2, or_self, if_false, not_le.2 hf, hm]
  rfl

theorem onchipBounds_quad_member (hf : fin < 2 ^ 20) {t : Nat} (hm : s.member (fibTeam f) (fin.toNat / 2 ^ 18) = some t) :
    s.onchipBounds f h 4 e off fin n =
      if (s.launchOfTeam t).blk.quadexp < fin.toNat % 2 ^ 18 + n.toNat then some (scratchErr h 1) else none := by
  simp only [State.onchipBounds, not_lt.2 hl.1, not_lt.2 hl.2, or_self, if_false, not_le.2 hf, hm]
  rfl

theorem onchipBounds_die : s.onchipBounds f h 5 e off fin n =
    if ((s.blockOf f).tundish : Int) < fin + n then some (scratchErr h 1) else none := by
  simp only [State.onchipBounds, not_lt.2 hl.1, not_lt.2 hl.2, or_self, if_false]
  rfl

end

/-! ### The checks of HADDR (R177) -/

section
variable {s : State} {o : ME} {ln : Ln} {v : Vals}

theorem haddrPrep_zero (h0 : o.hnd = 0) : haddrPrep o ln v s = .ok (eaOff o.off v.a % (2 ^ 64 : Nat)).toNat := by
  simp [haddrPrep, eaOf, unsign, h0]

variable (h0 : o.hnd.toNat ≠ 0)
include h0

theorem haddrPrep_unspaced (hs : (s.entry ln.f o.hnd.toNat).spaceOf = none) :
    haddrPrep o ln v s = .err { eff := 0x027, arg := s.kindArg ln.f o.hnd.toNat (eaOff o.off v.a) } := by
  simp [haddrPrep, eaOf, h0, hs, Eff.memHandle]

variable {sp : Nat} (hs : (s.entry ln.f o.hnd.toNat).spaceOf = some sp)
include hs

section
variable (hg : sp = 1 ∨ sp = 6)
include hg

theorem haddrPrep_global_inside (hi : 0 ≤ eaOff o.off v.a ∧ eaOff o.off v.a + o.sz.bytes ≤ (s.entry ln.f o.hnd.toNat).len) :
    haddrPrep o ln v s = .ok (sp * 2 ^ 56 ||| ((((s.entry ln.f o.hnd.toNat).base : Int) + eaOff o.off v.a) % (2 ^ 64 : Nat)).toNat) := by
  simp only [haddrPrep, eaOf, h0, hs, hg, if_true, if_false, not_lt.2 hi.1, not_lt.2 hi.2, or_self]
  rfl

theorem haddrPrep_global_outside (hi : ¬(0 ≤ eaOff o.off v.a ∧ eaOff o.off v.a + o.sz.bytes ≤ (s.entry ln.f o.hnd.toNat).len)) :
    haddrPrep o ln v s = .err (Err.mk 0x020 (marg o.hnd.toNat
      (s.finalAddr ln.f o.hnd.toNat (s.entry ln.f o.hnd.toNat) sp (eaOff o.off v.a)))) := by
  rw [not_and_or, not_le, not_le] at hi
  simp only [haddrPrep, eaOf, h0, hs, hg, if_true, if_false, hi]
  rfl

end

theorem haddrPrep_onchip (hc : 2 ≤ sp ∧ sp ≤ 5) {r : Option Err}
    (hb : s.onchipBounds ln.f o.hnd.toNat sp (s.entry ln.f o.hnd.toNat) (eaOff o.off v.a)
      ((s.entry ln.f o.hnd.toNat).base + eaOff o.off v.a) o.sz.bytes = r) : haddrPrep o ln v s =
    r.elim (.ok (sp * 2 ^ 56 ||| ((((s.entry ln.f o.hnd.toNat).base : Int) + eaOff o.off v.a) % (2 ^ 64 : Nat)).toNat)) .err := by
  have hg : ¬(sp = 1 ∨ sp = 6) := by omega
  simp only [haddrPrep, eaOf, h0, hs, hg, if_false, finalAddr_onchip h0 (Nat.le_of_succ_le hc.1) hc.2, hb]
  cases r <;> rfl

end

/-! ### HADDR over a lone lane -/

section
variable {s : State} {o : ME} {b : Batch} {l : Nat} {x : Fibre} (hL : Lone s (haddrNeed o) b l x)
include hL

theorem haddr_ok {a : Nat} (hp : haddrPrep o (s.laneOf b l) (s.readVals (haddrNeed o) b l) (past s b l) = .ok a) :
    exec (.haddr o) s = .next (((past s b l).touchHandle (b.fib l) o.hnd.toNat).putD (s.laneOf b l) .a o.d 2 a) :=
  congrArg Host.Outcome.next (runChecked_lone hL hp)

theorem haddr_err (hl : l < 32) {e : Err}
    (hp : haddrPrep o (s.laneOf b l) (s.readVals (haddrNeed o) b l) (past s b l) = .err e) :
    exec (.haddr o) s = .next (raised s b l (withLane l e)) :=
  congrArg Host.Outcome.next (runChecked_lone_err hL hl hp)

end

/-- Settles O17: each space has the bounds of its own, within the length of the entry. -/
theorem handleAddresses : Obligations.HandleAddresses := by
  intro o s b l x hL hl p f h e blk n off fin gives raises scratch inLen
  have hne : o.hnd ≠ 0 → o.hnd.toNat ≠ 0 := fun h0 h => h0 (BitVec.eq_of_toNat_eq h)
  refine ⟨fun h0 => ?_, fun h0 hs => ?_, fun sp h0 hs => ?_⟩
  · have hx := haddr_ok hL (haddrPrep_zero h0)
    rwa [show (past s b l).touchHandle (b.fib l) o.hnd.toNat = past s b l by simp [h0, State.touchHandle]] at hx
  · exact haddr_err hL hl (haddrPrep_unspaced (hne h0) hs)
  · have hchecks := fun hc r => haddrPrep_onchip (ln := s.laneOf b l) (v := s.readVals (haddrNeed o) b l) (hne h0) hs hc (r := r)
    have hpass : 2 ≤ sp ∧ sp ≤ 5 → p.onchipBounds f h sp e off fin n = none → gives sp := fun hc hb =>
      haddr_ok hL (hchecks hc none hb)
    have hfail : ∀ eff arg, 2 ≤ sp ∧ sp ≤ 5 → p.onchipBounds f h sp e off fin n = some ⟨eff, arg⟩ → raises eff arg :=
      fun _ _ hc hb => haddr_err hL hl (hchecks hc (some _) hb)
    have hscratch : ∀ cause, 2 ≤ sp ∧ sp ≤ 5 → p.onchipBounds f h sp e off fin n = some (scratchErr h cause) → scratch cause :=
      fun _ hc hb => hfail _ _ hc hb
    refine ⟨fun hg => ⟨fun hi => ?_, fun hi => ?_⟩, ?_, ?_, ?_, ?_⟩
    · exact haddr_ok hL (haddrPrep_global_inside (hne h0) hs hg hi)
    · exact haddr_err hL hl (haddrPrep_global_outside (hne h0) hs hg hi)
    · rintro rfl
      refine ⟨fun h => hfail _ _ (by decide) (onchipBounds_lane_below h),
        fun hz hi => hscratch 0 (by decide) (onchipBounds_len (.inr (.inr (.inr ⟨rfl, hz⟩))) hi),
        fun hi hc => hscratch 1 (by decide) ((onchipBounds_lane hi).trans (if_pos hc)),
        fun hi hc => hpass (by decide) ((onchipBounds_lane hi).trans (if_neg (not_lt.2 hc)))⟩
    · rintro rfl
      refine ⟨fun hi => hscratch 0 (by decide) (onchipBounds_len (.inl rfl) hi),
        fun hi hc => hscratch 1 (by decide) ((onchipBounds_core hi).trans (if_pos hc)),
        fun hi hc hm => hscratch 2 (by decide) ((onchipBounds_core hi).trans ((if_neg (not_lt.2 hc)).trans (if_pos hm))),
        fun hi hc hm => hpass (by decide) ((onchipBounds_core hi).trans ((if_neg (not_lt.2 hc)).trans (if_neg ?_)))⟩
      exact ne_true_of_eq_false hm
    · rintro rfl
      refine ⟨fun hi => hscratch 0 (by decide) (onchipBounds_len (.inr (.inl rfl)) hi),
        fun hi hc => hscratch 1 (by decide) (onchipBounds_quad_past hi hc),
        fun hi hc hm => hscratch 3 (by decide) (onchipBounds_quad_absent hi hc hm),
        fun t hi hc hm => ⟨fun hq => hscratch 1 (by decide) ((onchipBounds_quad_member hi hc hm).trans (if_pos hq)),
          fun hq => hpass (by decide) ((onchipBounds_quad_member hi hc hm).trans (if_neg (not_lt.2 hq)))⟩⟩
    · rintro rfl
      refine ⟨fun hi => hscratch 0 (by decide) (onchipBounds_len (.inr (.inr (.inl rfl))) hi),
        fun hi hc => hscratch 1 (by decide) ((onchipBounds_die hi).trans (if_pos hc)),
        fun hi hc => hpass (by decide) ((onchipBounds_die hi).trans (if_neg (not_lt.2 hc)))⟩

end Sys2Proof.Claims

/-!
# O10: rendezvous points (R200-R203)

The instructions on a point are short compositions of what is done to the point; what completes a phase flips it in the table of the team, and the
fibres that it lets go on, like the register that receives the phase, leave the points as they are.
-/

namespace Sys2Proof.Claims
open Machine

/-! ### The points of a team -/

section
variable (s : State) (t i : Nat)

theorem setPoint_point (h : (s.team? t).isSome) (q : RvPoint) : (s.setPoint t i q).point t i = q := by
  obtain ⟨T, hT⟩ := Option.isSome_iff_exists.1 h
  have hm : mapGet s.teams t = some T := hT
  simp [State.point, State.setPoint, State.team, State.modTeam, mapGetD, hm]

/-- A change of a team that leaves its points. -/
theorem modTeam_point {u : Nat} {g : Team → Team} (hg : ∀ T, (g T).points = T.points) : (s.modTeam u g).point t i = s.point t i := by
  by_cases e : t = u
  · subst e
    simp only [State.point, State.team, State.modTeam, mapGetD, mapGet_mapMod_same]
    cases mapGet s.teams t <;> simp [hg]
  · rw [State.point, State.team_modTeam_ne _ _ e]
    rfl

theorem foldl_modFibre_point {ι : Type} (ls : List ι) (key : ι → Nat) (g : ι → Fibre → Fibre) :
    (ls.foldl (fun s e => s.modFibre (key e) (g e)) s).point t i = s.point t i := by
  refine List.foldlRecOn (motive := fun u : State => u.point t i = s.point t i) _ _ rfl fun u hu e _ => hu

theorem putD_point (ln : Ln) (cls : Cls) (sp : Spec) (n v : Nat) : (s.putD ln cls sp n v).point t i = s.point t i := by
  have h1 : ∀ (s : State) sp w, (s.put1 ln cls sp w).point t i = s.point t i := by
    intro s sp w
    cases sp with
    | k j =>
      unfold State.put1
      dsimp only
      split
      · rfl
      · exact (foldl_modFibre_point ..).trans (modTeam_point _ _ _ fun _ => rfl)
    | _ => rfl
  have hfrom : ∀ j ws, (s.putFrom ln cls sp j ws).point t i = s.point t i := by
    intro j ws
    induction ws generalizing s j with
    | nil => rfl
    | cons w ws ih => simp only [State.putFrom, ih, h1]
  unfold State.putD
  split
  · exact h1 ..
  · exact hfrom ..

/-- What fibres that go on do leaves the points (R202, R203). -/
theorem rvComplete_point (h : (s.team? t).isSome) : (s.rvComplete t i).point t i =
    { s.point t i with
      phase := !(s.point t i).phase, arrivedN := 0, arrived := [], expect := (s.point t i).expect - (s.point t i).pend, pend := 0
      init := (s.point t i).expect - (s.point t i).pend != 0, kdone := (s.point t i).kser, kser := [] } := by
  unfold State.rvComplete
  extract_lets q expect ph v
  refine List.foldlRecOn (motive := fun u : State => u.point t i = _) _ _ (setPoint_point s t i h _) fun u hu e _ => ?_
  split
  · split
    · exact hu
    · exact hu
  · exact hu

end

/-! ### One more arrival (R201) -/

theorem fibTeam_fib (b : Batch) {l : Nat} (hl : l < 32) (hp : b.pack < 32) : fibTeam (b.fib l) = b.team := by
  simp only [fibTeam, Batch.fib, fibKey]
  omega

section
variable {s : State} {f t i : Nat} {drop : Bool} (ht : fibTeam f = t)
include ht

theorem rvArrive_eq : s.rvArrive f i drop = ((s.point t i).phase,
    if (s.point t i).arrivedN + 1 = (s.point t i).expect then (s.setPoint t i (oneMore s f drop (s.point t i))).rvComplete t i
    else s.setPoint t i (oneMore s f drop (s.point t i))) := by
  subst ht
  rfl

theorem rvArrive_more (h : (s.point t i).arrivedN + 1 ≠ (s.point t i).expect) :
    s.rvArrive f i drop = ((s.point t i).phase, s.setPoint t i (oneMore s f drop (s.point t i))) := by
  rw [rvArrive_eq ht, if_neg h]

theorem rvArrive_last (h : (s.point t i).arrivedN + 1 = (s.point t i).expect) :
    s.rvArrive f i drop = ((s.point t i).phase, (s.setPoint t i (oneMore s f drop (s.point t i))).rvComplete t i) := by
  rw [rvArrive_eq ht, if_pos h]

/-- The arrival that completes the phase flips it and applies the drops. -/
theorem rvArrive_last_point (hs : (s.team? t).isSome) (h : (s.point t i).arrivedN + 1 = (s.point t i).expect) :
    let q := oneMore s f drop (s.point t i)
    (s.rvArrive f i drop).2.point t i = { q with
      phase := !q.phase, arrivedN := 0, arrived := [], expect := q.expect - q.pend, pend := 0
      init := q.expect - q.pend != 0, kdone := q.kser, kser := [] } := by
  have hv : ((s.setPoint t i (oneMore s f drop (s.point t i))).team? t).isSome := by
    rw [State.setPoint, State.team?_modTeam, Option.isSome_map, hs]
  simp only [rvArrive_last ht h, rvComplete_point _ _ _ hv, setPoint_point _ _ _ hs]

end

/-! ### The instructions over a lone lane -/

section
variable {s : State} {o : SY} {b : Batch} {l : Nat} {x : Fibre} {n : Need} (hL : Lone s n b l x)
include hL

theorem past_hasEnded (hst : x.st ≠ .exited) : (past s b l).hasEnded (b.fib l) = false := by
  rw [State.hasEnded, State.fibre_eq _ (past_fibre? hL)]
  exact beq_false_of_ne hst

/-- A fibre arrives once its release is done, and goes on with the phase it arrived in (R201). -/
theorem arriveThen_done (hst : x.st ≠ .exited) {i : Nat} (hi : (s.point b.team i).init = true) {u : State}
    (hr : (past s b l).release (b.fib l) .core = (.done, u)) (drop : Bool) (k : Bool → State → State) :
    arriveThen (past s b l) (s.laneOf b l) i drop k = k (u.rvArrive (b.fib l) i drop).1 (u.rvArrive (b.fib l) i drop).2 := by
  have hi' : ((past s b l).point b.team i).init = true := hi
  simp only [arriveThen, State.laneOf_f, State.laneOf_b, past_hasEnded hL hst, hi', afterRelease, hr, Bool.false_eq_true, if_false,
    Bool.not_true]

theorem arriveThen_dead (hst : x.st ≠ .exited) {i : Nat} (hi : (s.point b.team i).init = false) (drop : Bool)
    (k : Bool → State → State) : arriveThen (past s b l) (s.laneOf b l) i drop k = (past s b l).raise (s.laneOf b l) (rvDead i) := by
  have hi' : ((past s b l).point b.team i).init = false := hi
  simp only [arriveThen, State.laneOf_f, State.laneOf_b, past_hasEnded hL hst, hi', Bool.false_eq_true, if_false, Bool.not_false, if_true]

end

section
variable {s : State} {o : SY} {b : Batch} {l : Nat} {x : Fibre}

theorem binit_lone (hL : Lone s (binitNeed o) b l x) :
    let p := s.point b.team (rvPointOf o)
    let c := wordsNat (s.readVals (binitNeed o) b l).a
    exec (.binit o) s = .next (
      if p.init && (decide (0 < p.arrivedN) || (past s b l).anyWaits b.team (rvPointOf o)) then (past s b l).putD (s.laneOf b l) .v o.d 1 1
      else if c < 1 ∨ 1024 < c then (past s b l).putD (s.laneOf b l) .v o.d 1 2
      else ((past s b l).setPoint b.team (rvPointOf o) { RvPoint.start with
        init := true, expect := c, drop := rvDropOf o, roles := rvRolesOf o }).putD (s.laneOf b l) .v o.d 1 0) := by
  intro p c
  show Host.Outcome.next (runBatch (binitNeed o) _ s) = _
  have hp : (past s b l).point b.team (rvPointOf o) = p := rfl
  rw [runBatch_lone hL]
  simp only [State.laneOf_b, State.rvInit, hp, List.foldl_cons, List.foldl_nil]
  split
  · rfl
  · split
    · rfl
    · rfl

section
variable (hL : Lone s (arriveNeed o) b l x)
include hL

theorem arrive_lone : exec (.arrive o) s = .next (arriveThen (past s b l) (s.laneOf b l) (rvPointOf o) (rvDropOf o)
    (fun ph u => u.putD (s.laneOf b l) .v o.d 1 (if ph then 1 else 0))) :=
  congrArg Host.Outcome.next (runLanes_lone hL ..)

theorem bsync_lone : exec (.bsync o) s = .next (arriveThen (past s b l) (s.laneOf b l) (rvPointOf o) false
    (fun ph u => if (u.point b.team (rvPointOf o)).phase != ph
      then (u.rvObserve (b.fib l) (rvPointOf o)).putD (s.laneOf b l) .v o.d 1 (if ph then 1 else 0)
      else u.waitAt (s.laneOf b l) (.rendezvous (rvPointOf o) ph (gOf o.d) none))) :=
  congrArg Host.Outcome.next (runLanes_lone hL ..)

end

theorem bwait_lone (hL : Lone s (bwaitNeed o) b l x) :
    let p := s.point b.team (rvPointOf o)
    let ph := ((s.readVals (bwaitNeed o) b l).a.headD 0).getLsbD 0
    exec (.bwait o) s = .next (
      if p.phase != ph then (past s b l).rvObserve (b.fib l) (rvPointOf o)
      else if !p.init then raised s b l (rvDead (rvPointOf o))
      else (past s b l).waitAt (s.laneOf b l) (.rendezvous (rvPointOf o) ph none (State.regOf x o.a))) := by
  have hr : State.regOf ((past s b l).fibre (b.fib l)) o.a = State.regOf x o.a := by
    rw [State.fibre_eq _ (past_fibre? hL)]
    cases o.a <;> rfl
  intro p ph
  rw [← hr]
  exact congrArg Host.Outcome.next (runLanes_lone hL ..)

theorem btest_lone (hL : Lone s (binitNeed o) b l x) :
    let p := s.point b.team (rvPointOf o)
    let ph := ((s.readVals (binitNeed o) b l).a.headD 0).getLsbD 0
    exec (.btest o) s = .next (
      if p.phase != ph then ((past s b l).rvObserve (b.fib l) (rvPointOf o)).putD (s.laneOf b l) .v o.d 1 1
      else if !p.init then raised s b l (rvDead (rvPointOf o))
      else (past s b l).putD (s.laneOf b l) .v o.d 1 0) :=
  congrArg Host.Outcome.next (runLanes_lone hL ..)

end

theorem rendezvousPoints : RendezvousPoints := by
  intro o s b l x hl hpk f i p
  have ht : fibTeam f = b.team := fibTeam_fib b hl hpk
  refine ⟨fun hL => binit_lone hL, ?_, ?_, ?_⟩
  · intro u hi hst hr hu q
    refine ⟨fun hL => ⟨fun hm => ?_, fun hm => ?_⟩, fun hL => ⟨fun hm => ?_, fun hm => ?_⟩⟩
    · rw [arrive_lone hL, arriveThen_done hL hst hi hr, rvArrive_more ht hm]
    · rw [arrive_lone hL, arriveThen_done hL hst hi hr]
      refine ⟨_, rfl, ?_⟩
      rw [putD_point, rvArrive_last_point ht hu hm]
      exact ⟨rfl, rfl, rfl, bne_iff_ne⟩
    · have hph : ((u.setPoint b.team i (oneMore u f false q)).point b.team i).phase = q.phase := by rw [setPoint_point _ _ _ hu]; rfl
      rw [bsync_lone hL, arriveThen_done hL hst hi hr, rvArrive_more ht hm]
      exact congrArg _ (if_neg (mt bne_iff_ne.1 (not_not.2 hph)))
    · have hph : ((u.rvArrive f i false).2.point b.team i).phase = !q.phase := by rw [rvArrive_last_point ht hu hm]; rfl
      have h1 : (u.rvArrive f i false).1 = q.phase := by rw [rvArrive_last ht hm]
      rw [bsync_lone hL, arriveThen_done hL hst hi hr, h1]
      exact congrArg _ (if_pos (bne_iff_ne.2 (hph.trans_ne (Bool.not_ne_self _))))
  · intro hL ph
    refine ⟨fun hp => ?_, fun hp hi => ?_⟩
    · rw [bwait_lone hL]
      exact congrArg _ (if_pos (bne_iff_ne.2 hp))
    · have hn : ¬(!p.init) = true := by simp [hi]
      rw [bwait_lone hL]
      exact congrArg _ ((if_neg (mt bne_iff_ne.1 (not_not.2 hp))).trans (if_neg hn))
  · intro hL ph
    refine ⟨fun hp => ?_, fun hp hi => ?_⟩
    · rw [btest_lone hL]
      exact congrArg _ (if_pos (bne_iff_ne.2 hp))
    · have hn : ¬(!p.init) = true := by simp [hi]
      rw [btest_lone hL]
      exact congrArg _ ((if_neg (mt bne_iff_ne.1 (not_not.2 hp))).trans (if_neg hn))

theorem uninitialisedPointRaises : UninitialisedPointRaises := by
  intro o s b l x hi e
  have he : rvDead (rvPointOf o) = e := congrArg (Err.mk 0x030) (Nat.add_comm ..)
  rw [← he]
  refine ⟨fun hL hst => ⟨?_, ?_⟩, fun hL hp => ?_, fun hL hp => ?_⟩
  · rw [arrive_lone hL, arriveThen_dead hL hst hi]
    rfl
  · rw [bsync_lone hL, arriveThen_dead hL hst hi]
    rfl
  · rw [bwait_lone hL]
    exact congrArg _ ((if_neg (mt bne_iff_ne.1 (not_not.2 hp.symm))).trans (if_pos (by simp [hi])))
  · rw [btest_lone hL]
    exact congrArg _ ((if_neg (mt bne_iff_ne.1 (not_not.2 hp.symm))).trans (if_pos (by simp [hi])))

/-- Settles O10: an arrival counts or completes the phase, and a wait compares phases. -/
theorem rendezvousPointsMeet : Obligations.RendezvousPointsMeet := ⟨rendezvousPoints, uninitialisedPointRaises⟩

end Sys2Proof.Claims

/-!
# O44: deadlocks (R205, R206)

Both events raise over a list of fibres that the state gives. What is to show is that each fibre of a stuck team has an object to raise, and that
each member of a dead barrier is on the launch's list.
-/

namespace Sys2Proof.Claims
open Machine

/-! ### A stuck team (R205) -/

theorem dlArg_zero (obj : Nat) : dlArg obj 0 = obj := by simp [dlArg]

/-- Fibres that each wait on an object raise it one after another. -/
theorem foldl_stuckObj {es : List (Nat × Fibre)} (h : ∀ e ∈ es, (stuckObj e.2).isSome) : ∃ os : List Nat,
    es.map (fun e => stuckObj e.2) = os.map some ∧ ∀ s : State,
      es.foldl (fun s e => match stuckObj e.2 with
        | some o => s.raiseAt e.1 { eff := Eff.syncDeadlock, arg := dlArg o 0 } e.2.pc 0
        | none => s) s =
      (es.zip os).foldl (fun v e => v.raiseAt e.1.1 { eff := 0x030, arg := e.2 } e.1.2.pc 0) s := by
  induction es with
  | nil => exact ⟨[], rfl, fun _ => rfl⟩
  | cons e es ih =>
    obtain ⟨os, hos, hfold⟩ := ih fun e he => h e (List.mem_cons_of_mem _ he)
    obtain ⟨o, ho⟩ := Option.isSome_iff_exists.1 (h e List.mem_cons_self)
    refine ⟨o :: os, by rw [List.map_cons, hos, ho]; rfl, fun s => ?_⟩
    simp only [List.foldl_cons, ho]
    rw [hfold, dlArg_zero]
    rfl

theorem stuck_waits {s : State} {t : Nat} (h : s.stuck t = true) : ∀ e ∈ s.teamFibres t, (stuckObj e.2).isSome := by
  simp only [State.stuck, Bool.and_eq_true, List.all_eq_true] at h
  obtain ⟨-, hall⟩ := h
  intro e he
  obtain ⟨⟨-, ho⟩, -⟩ := hall e he
  exact ho

/-! ### Barriers that can never complete (R206) -/

theorem hbarDeadlock_eq (s : State) (c lid : Nat) : exec (.hbarDeadlock c lid) s = .next ((s.hbarStuck c lid).foldl (fun v e =>
    v.raiseAt e.1 { eff := 0x030, arg := 0x80 } e.2.pc 0) s) := rfl

theorem mem_of_mapGet {α : Type} {m : Map α} {k : Nat} {v : α} (h : mapGet m k = some v) : (k, v) ∈ m := by
  induction m with
  | nil => cases h
  | cons e m ih =>
    by_cases he : e.1 = k
    · simp only [mapGet, he, if_true, Option.some.injEq] at h
      subst he h
      exact List.mem_cons_self
    · simp only [mapGet, he, if_false] at h
      exact List.mem_cons_of_mem _ (ih h)

theorem mem_hbarMembers {s : State} {t : Nat} {sc : Scope} {e : Nat × Fibre} (h : e ∈ s.hbarMembers t sc) : e ∈ s.fibres := by
  obtain ⟨u, -, hu⟩ := List.mem_flatMap.1 h
  exact List.mem_of_mem_filter (List.mem_of_mem_filter hu)

theorem hbarDead_inAnyHbar {s : State} {t : Nat} {sc : Scope} (h : s.hbarDead t sc = true) :
    ∀ e ∈ s.hbarMembers t sc, inAnyHbar e.2 = true := by
  simp only [State.hbarDead, Bool.and_eq_true, List.all_eq_true] at h
  obtain ⟨⟨-, hall⟩, -⟩ := h
  exact fun e he => (hall e he).1

/-- Every member of a barrier that can never complete is among those that raise. -/
theorem mem_hbarStuck {s : State} {t : Nat} {T : Team} {sc : Scope} (hT : s.team? t = some T) (hsc : sc ∈ [Scope.quad, .die, .pkg, .pod])
    (h : s.hbarDead t sc = true) {e : Nat × Fibre} (he : e ∈ s.hbarMembers t sc) : e ∈ s.hbarStuck T.ctx T.lid := by
  have hteam : (t, T) ∈ s.teams.filter (fun e => e.2.ctx == T.ctx && e.2.lid == T.lid) :=
    List.mem_filter.2 ⟨mem_of_mapGet hT, by simp⟩
  have hdead : (t, sc) ∈ (s.teams.filter (fun e => e.2.ctx == T.ctx && e.2.lid == T.lid)).flatMap (fun e =>
      ([Scope.quad, .die, .pkg, .pod].filter (s.hbarDead e.1)).map (fun sc => (e.1, sc))) :=
    List.mem_flatMap.2 ⟨_, hteam, List.mem_map.2 ⟨sc, List.mem_filter.2 ⟨hsc, h⟩, rfl⟩⟩
  refine List.mem_filter.2 ⟨mem_hbarMembers he, ?_⟩
  rw [hbarDead_inAnyHbar h e he, Bool.true_and]
  exact List.any_eq_true.2 ⟨_, hdead, List.any_eq_true.2 ⟨e, he, beq_self_eq_true _⟩⟩

/-- Settles O44: what raises are the fibres of the stuck team, and those that wait in an HBAR of a dead barrier. -/
theorem deadlocksRaise : Obligations.DeadlocksRaise := by
  refine ⟨fun s t h => ?_, fun s t h => ?_, fun s c lid h => ?_,
    fun s t T sc hT hsc h => ⟨fun e => mem_hbarStuck hT hsc h, hbarDeadlock_eq ..⟩⟩
  · show Host.Outcome.next (if s.stuck t then _ else s) = _
    rw [h]
    rfl
  · obtain ⟨os, hos, hfold⟩ := foldl_stuckObj (stuck_waits h)
    refine ⟨os, hos, ?_⟩
    rw [← hfold]
    exact congrArg Host.Outcome.next (if_pos h)
  · rw [hbarDeadlock_eq, h]
    rfl

end Sys2Proof.Claims

/-!
# O8: the masks of a pack (R186-R189)

A mask that is looked at again completes nothing while one of its running lanes is READY (`recheckMask_of_ready`); where all of them wait at one JOIN,
or in WAITMs, it completes every lane of the pack that waits there, and nothing before that undoes (`recheckMask_join`, `recheckMask_waitm`).
-/

namespace Sys2Proof.Claims
open Machine

/-! ### Changes of fibres one after another -/

/-- Where each step changes the fibre of its own entry alone, and the keys are distinct, each fibre has its own change in the end. -/
theorem foldl_fibre?_mem {ls : List (Nat × Fibre)} {F : State → Nat × Fibre → State} {g : Nat × Fibre → Fibre → Fibre}
    (hown : ∀ t, ∀ e ∈ ls, (F t e).fibre? e.1 = (t.fibre? e.1).map (g e))
    (hne : ∀ t, ∀ e ∈ ls, ∀ f, f ≠ e.1 → (F t e).fibre? f = t.fibre? f)
    (hn : (ls.map (·.1)).Nodup) {e : Nat × Fibre} (he : e ∈ ls) (s : State) :
    (ls.foldl F s).fibre? e.1 = (s.fibre? e.1).map (g e) := by
  induction ls generalizing s with
  | nil => cases he
  | cons d ls ih =>
    obtain ⟨hd, hn⟩ := List.nodup_cons.1 hn
    rw [List.foldl_cons]
    rcases List.mem_cons.1 he with rfl | hm
    · rw [← hown s e List.mem_cons_self]
      refine List.foldlRecOn (motive := fun t : State => t.fibre? e.1 = _) _ _ rfl fun t ht c hc => ?_
      rw [hne t c (List.mem_cons_of_mem _ hc) _ fun h => hd (List.mem_map.2 ⟨c, hc, h.symm⟩), ht]
    · rw [ih (fun t c hc => hown t c (List.mem_cons_of_mem _ hc)) (fun t c hc => hne t c (List.mem_cons_of_mem _ hc)) hn hm,
        hne s d List.mem_cons_self _ fun h => hd (List.mem_map.2 ⟨e, hm, h⟩)]

/-! ### Looking at a mask again (R187, R189) -/

theorem packFibres_nodup (s : State) (p : Nat) : ((s.packFibres p).map (·.1)).Nodup := by
  have hkey : ∀ {k d}, (match s.fibre? (p * 32 + k) with
      | some x => if x.st = .exited then none else some (p * 32 + k, x)
      | none => none) = some d → d.1 = p * 32 + k := by
    intro k d h
    split at h
    · split at h <;> cases h
      rfl
    · cases h
  rw [State.packFibres, List.Nodup, List.pairwise_map, List.pairwise_filterMap]
  refine List.nodup_range.imp fun hkl d hd e he h => hkl ?_
  exact Nat.add_left_cancel ((hkey hd).symm.trans (h.trans (hkey he)))

/-- A lane that waits where a test looks goes on. -/
theorem completeWhere_fibre?_of {s : State} {p : Nat} {q : Fibre → Bool} {e : Nat × Fibre} (he : e ∈ s.packFibres p) (hq : q e.2 = true) :
    (s.completeWhere p q).fibre? e.1 = some e.2.complete := by
  have hx : s.fibre? e.1 = some e.2 := by
    obtain ⟨l, -, -, hx, -⟩ := mem_packFibres.1 he
    exact hx
  unfold State.completeWhere
  rw [foldl_fibre?_mem (g := fun d x => if q d.2 then x.complete else x) ?_ ?_ (packFibres_nodup s p) he, hx, Option.map_some, if_pos hq]
  · intro t d _
    split
    · exact State.fibre?_modFibre ..
    · exact Option.map_id'.symm
  · intro t d _ f hf
    split
    · exact State.fibre?_modFibre_ne _ _ hf
    · rfl

/-- Whether a fibre waits at a JOIN on mask i at a PC, and whether in a WAITM on it. -/
def atJoin (i : Nat) (pc : Word) (x : Fibre) : Bool := x.st == .waiting (.join i) && x.pc == pc
def inWaitm (i : Nat) (x : Fibre) : Bool := x.st == .waiting (.waitm i)

@[simp] theorem atJoin_iff {i : Nat} {pc : Word} {x : Fibre} : atJoin i pc x = true ↔ x.st = .waiting (.join i) ∧ x.pc = pc := by
  simp [atJoin]

@[simp] theorem inWaitm_iff {i : Nat} {x : Fibre} : inWaitm i x = true ↔ x.st = .waiting (.waitm i) := by simp [inWaitm]

/-- The PCs at which lanes of a pack wait at JOINs on mask i. -/
def joinPcs (s : State) (p i : Nat) : List Word :=
  ((s.packFibres p).filter (fun e => e.2.st == .waiting (.join i))).map (fun e => e.2.pc)

/-- The joins on a mask m at one PC, and the WAITMs. -/
def recheckJoin (p i : Nat) (m : Word) (s : State) (pc : Word) : State :=
  if s.maskMet p m (atJoin i pc) then s.completeWhere p (atJoin i pc) else s
def recheckWaitm (p i : Nat) (m : Word) (s : State) : State :=
  if (s.packFibres p).any (fun e => inWaitm i e.2) && s.maskMet p m (inWaitm i) then s.completeWhere p (inWaitm i) else s

theorem recheckMask_eq (s : State) (p i : Nat) : s.recheckMask p i =
    recheckWaitm p i (mapGetD (s.pack p).masks i 0) ((joinPcs s p i).foldl (recheckJoin p i (mapGetD (s.pack p).masks i 0)) s) := rfl

theorem maskMet_iff {s : State} {p : Nat} {m : Word} {q : Fibre → Bool} : s.maskMet p m q = true ↔
    ∀ e ∈ s.packFibres p, m.getLsbD (fibLane e.1) = true → q e.2 = true := by
  simp only [State.maskMet, List.all_eq_true, Bool.or_eq_true, Bool.not_eq_true']
  refine forall₂_congr fun e _ => ?_
  cases m.getLsbD (fibLane e.1) <;> simp

/-- A mask is not met while a running lane of it fails the test. -/
theorem not_maskMet {s : State} {p : Nat} {m : Word} {q : Fibre → Bool} {e : Nat × Fibre} (he : e ∈ s.packFibres p)
    (hm : m.getLsbD (fibLane e.1) = true) (hq : q e.2 = false) : ¬ s.maskMet p m q = true := fun h => by
  simp [maskMet_iff.1 h e he hm] at hq

section
variable {s : State} {p i : Nat} {e : Nat × Fibre} (he : e ∈ s.packFibres p)
  (hm : (mapGetD (s.pack p).masks i 0).getLsbD (fibLane e.1) = true)
include he hm

/-- No JOIN on a mask completes at a PC at which a running lane of the mask does not wait. -/
theorem foldl_recheckJoin_of_not {pcs : List Word} (h : ∀ pc ∈ pcs, atJoin i pc e.2 = false) :
    pcs.foldl (recheckJoin p i (mapGetD (s.pack p).masks i 0)) s = s := by
  refine List.foldlRecOn (motive := fun t : State => t = s) _ _ rfl fun t ht pc hpc => ?_
  rw [ht]
  exact if_neg (not_maskMet he hm (h pc hpc))

/-- Nothing completes while a running lane of the mask is READY. -/
theorem recheckMask_of_ready (hst : e.2.st = .ready) : s.recheckMask p i = s := by
  have hj : ∀ pc, atJoin i pc e.2 = false := fun pc => by simp [atJoin, hst]
  have hw : inWaitm i e.2 = false := by simp [inWaitm, hst]
  rw [recheckMask_eq, foldl_recheckJoin_of_not he hm fun pc _ => hj pc]
  refine if_neg fun h => ?_
  rw [Bool.and_eq_true] at h
  exact not_maskMet he hm hw h.2

/-- Where every running lane of a mask waits at the JOIN of one of them, each lane that waits there goes on. -/
theorem recheckMask_join {pc : Word} (hst : atJoin i pc e.2 = true)
    (hall : s.maskMet p (mapGetD (s.pack p).masks i 0) (atJoin i pc) = true) {d : Nat × Fibre} (hd : d ∈ s.packFibres p)
    (hq : atJoin i pc d.2 = true) : (s.recheckMask p i).fibre? d.1 = some d.2.complete := by
  obtain ⟨hw, hpc⟩ := atJoin_iff.1 hst
  have hmem : pc ∈ joinPcs s p i := List.mem_map.2 ⟨e, List.mem_filter.2 ⟨he, by simp [hw]⟩, hpc⟩
  obtain ⟨as, bs, hsplit, has⟩ := List.eq_append_cons_of_mem hmem
  have hstay : ∀ t : State, t.fibre? d.1 = some d.2.complete → ∀ q : Fibre → Bool, q d.2.complete = false →
      (t.completeWhere p q).fibre? d.1 = some d.2.complete := fun t ht q hq => completeWhere_fibre? ht hq
  have hbefore : as.foldl (recheckJoin p i (mapGetD (s.pack p).masks i 0)) s = s :=
    foldl_recheckJoin_of_not he hm fun pc' hpc' => by
      have : pc ≠ pc' := fun h => has (h ▸ hpc')
      simp [atJoin, hpc, this]
  have hat : recheckJoin p i (mapGetD (s.pack p).masks i 0) s pc = s.completeWhere p (atJoin i pc) := if_pos hall
  rw [recheckMask_eq, hsplit, List.foldl_append, hbefore, List.foldl_cons, hat]
  have hafter : (bs.foldl (recheckJoin p i (mapGetD (s.pack p).masks i 0)) (s.completeWhere p (atJoin i pc))).fibre? d.1 =
      some d.2.complete := by
    refine List.foldlRecOn (motive := fun t : State => t.fibre? d.1 = _) _ _ (completeWhere_fibre?_of hd hq) fun t ht pc' _ => ?_
    unfold recheckJoin
    split
    · exact hstay t ht _ rfl
    · exact ht
  unfold recheckWaitm
  split
  · exact hstay _ hafter _ rfl
  · exact hafter

/-- Where every running lane of a mask waits in a WAITM on it, each lane that waits so goes on. -/
theorem recheckMask_waitm (hst : inWaitm i e.2 = true)
    (hall : s.maskMet p (mapGetD (s.pack p).masks i 0) (inWaitm i) = true) {d : Nat × Fibre} (hd : d ∈ s.packFibres p)
    (hq : inWaitm i d.2 = true) : (s.recheckMask p i).fibre? d.1 = some d.2.complete := by
  have hj : ∀ pc, atJoin i pc e.2 = false := fun pc => by simp [atJoin, inWaitm_iff.1 hst]
  have hany : (s.packFibres p).any (fun e => inWaitm i e.2) = true := List.any_eq_true.2 ⟨e, he, hst⟩
  rw [recheckMask_eq, foldl_recheckJoin_of_not he hm fun pc _ => hj pc, recheckWaitm, hany, hall]
  exact completeWhere_fibre?_of hd hq

end

/-- A fibre that waits at the instruction at pc, to which it came as it did (R60, R159). -/
def waitingAt (x : Fibre) (pc : Word) (w : Wait) : Fibre :=
  { x.passed pc with pc := pc, st := .waiting w, retry := true, xfer := x.came }

/-- A READY fibre that comes to wait, and goes on, has moved on past it (R56). -/
theorem waitingAt_complete {x : Fibre} (hst : x.st = .ready) (pc : Word) (w : Wait) : (waitingAt x pc w).complete = x.passed pc := by
  cases x
  cases hst
  rfl

/-! ### MSET and LEAVE (R186, R188) -/

theorem completeWhere_packs (s : State) (p : Nat) (q : Fibre → Bool) : (s.completeWhere p q).packs = s.packs := by
  refine List.foldlRecOn (motive := fun t : State => t.packs = s.packs) _ _ rfl fun t ht e _ => ?_
  split
  · exact ht
  · exact ht

theorem recheckMask_packs (s : State) (p i : Nat) : (s.recheckMask p i).packs = s.packs := by
  have hj : ((joinPcs s p i).foldl (recheckJoin p i (mapGetD (s.pack p).masks i 0)) s).packs = s.packs := by
    refine List.foldlRecOn (motive := fun t : State => t.packs = s.packs) _ _ rfl fun t ht pc _ => ?_
    unfold recheckJoin
    split
    · rw [completeWhere_packs, ht]
    · exact ht
  rw [recheckMask_eq, recheckWaitm]
  split
  · rw [completeWhere_packs, hj]
  · exact hj

theorem recheckMask_maskOfBatch (s : State) (p i : Nat) (b : Batch) (j : Nat) :
    (s.recheckMask p i).maskOfBatch b j = s.maskOfBatch b j := by
  rw [State.maskOfBatch, State.pack, recheckMask_packs]
  rfl

theorem putM_maskOfBatch (s : State) (b : Batch) (i j : Nat) (v : Word) :
    (s.putM b i v).maskOfBatch b j = if j = i then v else s.maskOfBatch b j := by
  have hp : (s.putM b i v).packs =
      (s.modPack (packOf b) (fun x => { x with masks := mapSet x.masks i v })).packs :=
    List.foldlRecOn (motive := fun t : State => t.packs = _) _ _ rfl fun t ht l _ => ht
  have hm : (s.putM b i v).maskOfBatch b j =
      mapGetD ((s.modPack (packOf b) (fun x => { x with masks := mapSet x.masks i v })).pack (packOf b)).masks j 0 := by
    rw [State.maskOfBatch, State.pack, hp]
    rfl
  rw [hm, State.pack_modPack, mapGetD, mapGet_mapSet]
  split
  · rfl
  · rfl

theorem settled_packs {s : State} {n : Need} {b : Batch} (hQ : Quiet s n b) : (settled s n b).packs = s.packs := by
  obtain ⟨-, -, hrest⟩ := foldl_modFibre b.lanes b.fib (movedOn s n b) s (b.fibs_nodup hQ.once)
  rw [settled, hrest]

theorem settled_maskOfBatch {s : State} {n : Need} {b : Batch} (hQ : Quiet s n b) (i : Nat) :
    (settled s n b).maskOfBatch b i = s.maskOfBatch b i := by
  rw [State.maskOfBatch, State.pack, settled_packs hQ]
  rfl

/-- What a new value of one mask leaves of the masks. -/
theorem newMask {s : State} {n : Need} {b : Batch} (hQ : Quiet s n b) {i : Nat} {v : Word} {t : State}
    (ht : t = ((settled s n b).putM b i v).recheckMask (packOf b) i) :
    t.maskOfBatch b i = v ∧ ∀ j, j ≠ i → t.maskOfBatch b j = s.maskOfBatch b j := by
  subst ht
  refine ⟨?_, fun j hj => ?_⟩
  · rw [recheckMask_maskOfBatch, putM_maskOfBatch, if_pos rfl]
  · rw [recheckMask_maskOfBatch, putM_maskOfBatch, if_neg hj, settled_maskOfBatch hQ]

/-- The lanes that run an instruction over a quiet batch, by number. -/
theorem runners_lanes (s : State) (n : Need) (b : Batch) : (runners s n b).map (fun e => e.1.l) = goers s n b := by
  simp [runners, Function.comp_def]

theorem runners_cons {s : State} {n : Need} {b : Batch} {l : Nat} {ls : List Nat} (hg : goers s n b = l :: ls) :
    ∃ es, runners s n b = (s.laneOf b l, s.readVals n b l) :: es := by
  rw [runners, hg]
  exact ⟨_, rfl⟩

theorem maskUpdates : MaskUpdates := by
  constructor
  · intro o s b l ls n hQ hg g m v
    refine ⟨_, ?_, rfl, newMask hQ rfl⟩
    obtain ⟨es, hes⟩ := runners_cons hg
    have hlanes : maskOf (((s.laneOf b l, s.readVals n b l) :: es).map (fun e => e.1.l)) = g := by rw [← hes, runners_lanes]
    show Host.Outcome.next (runBatch n _ s) = _
    rw [runBatch_quiet hQ, hes]
    dsimp only [State.laneOf_b]
    rw [hlanes, settled_maskOfBatch hQ]
    rfl
  · intro o s b l ls n hQ hg v
    refine ⟨_, ?_, rfl, newMask hQ rfl⟩
    obtain ⟨es, hes⟩ := runners_cons hg
    have hlanes : maskOf (((s.laneOf b l, s.readVals n b l) :: es).map (fun e => e.1.l)) = maskOf (goers s n b) := by
      rw [← hes, runners_lanes]
    show Host.Outcome.next (runBatch n _ s) = _
    rw [runBatch_quiet hQ, hes]
    dsimp only [State.laneOf_b]
    rw [hlanes, settled_maskOfBatch hQ]
    rfl

/-! ### JOIN and WAITM over a lone lane (R187, R189) -/

/-- The state in which a lane waits at the instruction. -/
def arrived (s : State) (b : Batch) (l : Nat) (w : Wait) : State := (past s b l).waitAt (s.laneOf b l) w

section
variable {s : State} {o : SY} {b : Batch} {l : Nat} {x : Fibre} (hL : Lone s (maskUse o) b l x)
include hL

theorem join_lone : exec (.join o) s = .next ((if (s.maskOfBatch b (maskIx o.a)).getLsbD l
    then arrived s b l (.join (maskIx o.a)) else past s b l).recheckMask (packOf b) (maskIx o.a)) :=
  congrArg Host.Outcome.next (runBatch_lone hL _)

theorem past_flying : (past s b l).flying (b.fib l) = s.flying (b.fib l) := by
  simp only [State.flying, State.flights, State.fibre_eq _ (past_fibre? hL), State.fibre_eq _ hL.fibre]
  rfl

/-- With no access on its way and no store fault, a release at core scope is done at once (R325). -/
theorem past_release_core (hfl : s.flying (b.fib l) = []) (hsf : x.sfaults = []) :
    (past s b l).release (b.fib l) .core = (.done, past s b l) := by
  have hacts : (past s b l).releaseActs (b.fib l) .core = past s b l := by
    simp only [State.releaseActs, State.arriveBefore, past_flying hL, hfl]
    rfl
  have hwaits : (past s b l).releaseWaits (b.fib l) .core = false := by
    simp only [State.releaseWaits, past_flying hL, hfl]
    rfl
  have hy : ((past s b l).fibre (b.fib l)).sfaults = [] := by rw [State.fibre_eq _ (past_fibre? hL)]; exact hsf
  simp only [State.release, hacts, hy, hwaits]
  rfl

theorem waitm_lone (hfl : s.flying (b.fib l) = []) (hsf : x.sfaults = []) : exec (.waitm o) s = .next (
    (if (s.maskOfBatch b (maskIx o.a)).getLsbD l then arrived s b l (.waitm (maskIx o.a)) else past s b l).recheckMask
      (packOf b) (maskIx o.a)) := by
  show Host.Outcome.next (runBatch (maskUse o) _ s) = _
  rw [runBatch_lone hL]
  simp only [List.foldl_cons, List.foldl_nil, afterRelease, State.laneOf_f, past_release_core hL hfl hsf]
  rfl

variable (hst : x.st = .ready) {w : Wait}
include hst

theorem arrived_fibre? : (arrived s b l w).fibre? (b.fib l) = some (waitingAt x b.pc w) := by
  show ((past s b l).modFibre (b.fib l) _).fibre? (b.fib l) = _
  have hne : (x.passed b.pc).st ≠ .exited := by simp [Fibre.passed, Fibre.flow, hst]
  rw [State.fibre?_modFibre, past_fibre? hL, Option.map_some, if_neg hne]
  rfl

theorem mem_arrived_packFibres (hl : l < 32) {e : Nat × Fibre} : e ∈ (arrived s b l w).packFibres (packOf b) ↔
    e = (b.fib l, waitingAt x b.pc w) ∨ e ∈ (s.packFibres (packOf b)).filter (fun e => e.1 != b.fib l) := by
  rw [List.mem_filter, mem_packFibres, mem_packFibres]
  obtain ⟨f, y⟩ := e
  by_cases hf : f = b.fib l
  · subst hf
    rw [arrived_fibre? hL hst]
    constructor
    · rintro ⟨k, -, -, hy, -⟩
      exact .inl (Prod.ext rfl (Option.some.inj hy).symm)
    · rintro (h | ⟨-, h⟩)
      · cases h
        exact ⟨l, hl, fib_eq b l, rfl, nofun⟩
      · simp at h
  · rw [show (arrived s b l w).fibre? f = s.fibre? f from
      (State.fibre?_modFibre_ne _ _ hf).trans (State.fibre?_modFibre_ne _ _ hf)]
    simp [hf]

/-- The arrival of the last lane of a mask: it goes on, and with it each other lane that waits where the test looks. -/
theorem arrival_completes (hl : l < 32) {i : Nat} {q : Fibre → Bool} (hq : (∃ pc, q = atJoin i pc) ∨ q = inWaitm i)
    (hw : q (waitingAt x b.pc w) = true) (hm : (s.maskOfBatch b i).getLsbD l = true)
    (hall : ∀ e ∈ (s.packFibres (packOf b)).filter (fun e => e.1 != b.fib l),
      (s.maskOfBatch b i).getLsbD (fibLane e.1) = true → q e.2 = true) :
    ((arrived s b l w).recheckMask (packOf b) i).fibre? (b.fib l) = some (x.passed b.pc) ∧
      ∀ e ∈ (s.packFibres (packOf b)).filter (fun e => e.1 != b.fib l), q e.2 = true →
        ((arrived s b l w).recheckMask (packOf b) i).fibre? e.1 = some e.2.complete := by
  have hself : (b.fib l, waitingAt x b.pc w) ∈ (arrived s b l w).packFibres (packOf b) := (mem_arrived_packFibres hL hst hl).2 (.inl rfl)
  have hbit : (mapGetD ((arrived s b l w).pack (packOf b)).masks i 0).getLsbD (fibLane (b.fib l)) = true := by
    rw [fibLane_fib b hl]
    exact hm
  have hmet : (arrived s b l w).maskMet (packOf b) (s.maskOfBatch b i) q = true := maskMet_iff.2 fun e he hbe => by
    rcases (mem_arrived_packFibres hL hst hl).1 he with rfl | ho
    · exact hw
    · exact hall e ho hbe
  have hgo : ∀ d ∈ (arrived s b l w).packFibres (packOf b), q d.2 = true →
      ((arrived s b l w).recheckMask (packOf b) i).fibre? d.1 = some d.2.complete := fun d hd hqd => by
    rcases hq with ⟨pc, rfl⟩ | rfl
    · exact recheckMask_join hself hbit hw hmet hd hqd
    · exact recheckMask_waitm hself hbit hw hmet hd hqd
  refine ⟨?_, fun e he hqe => hgo e ((mem_arrived_packFibres hL hst hl).2 (.inr he)) hqe⟩
  rw [hgo _ hself hw, waitingAt_complete hst]

/-- While another running lane of the mask is READY, the lane waits. -/
theorem arrival_waits (hl : l < 32) {i k : Nat} {y : Fibre} (hm : (s.maskOfBatch b i).getLsbD k = true) (hk : k < 32) (hkl : k ≠ l)
    (hy : s.fibre? (b.fib k) = some y) (hyst : y.st = .ready) :
    ((arrived s b l w).recheckMask (packOf b) i).fibre? (b.fib l) = some (waitingAt x b.pc w) := by
  have hne : b.fib k ≠ b.fib l := fun h => hkl (b.fib_inj h)
  have hyex : y.st ≠ .exited := by simp [hyst]
  have hmem : (b.fib k, y) ∈ (arrived s b l w).packFibres (packOf b) := by
    refine (mem_arrived_packFibres hL hst hl).2 (.inr (List.mem_filter.2 ⟨mem_packFibres.2 ⟨k, hk, fib_eq b k, hy, hyex⟩, ?_⟩))
    simpa using hne
  rw [recheckMask_of_ready hmem ?_ hyst, arrived_fibre? hL hst]
  rw [fibLane_fib b hk]
  exact hm

/-- A lane that the mask does not name goes on. -/
theorem arrival_passes {i : Nat} : ((past s b l).recheckMask (packOf b) i).fibre? (b.fib l) = some (x.passed b.pc) :=
  recheckMask_fibre? (past_fibre? hL) hst

end

/-- No other lane of the pack stands in a mask of one lane. -/
theorem single_mask {s : State} {b : Batch} {l : Nat} {e : Nat × Fibre}
    (he : e ∈ (s.packFibres (packOf b)).filter (fun e => e.1 != b.fib l)) :
    (BitVec.ofNat 32 (2 ^ l)).getLsbD (fibLane e.1) = false := by
  obtain ⟨hp, hne⟩ := List.mem_filter.1 he
  obtain ⟨k, hk, hek, -⟩ := mem_packFibres.1 hp
  rw [← fib_eq] at hek
  rw [hek, fibLane_fib b hk, BitVec.getLsbD_ofNat, Nat.testBit_two_pow]
  have hkl : l ≠ k := by
    rintro rfl
    simp [hek] at hne
  simp [hkl]

theorem joinAndWaitmMeet : JoinAndWaitmMeet := by
  intro o s b l x hL hl hst hfl hsf i m
  rw [join_lone hL, waitm_lone hL hfl hsf]
  refine ⟨fun hm => ?_, fun hm => ?_, fun k y hm hk hk32 hkl hy hyst => ?_⟩
  · rw [show (s.maskOfBatch b (maskIx o.a)).getLsbD l = false from hm]
    exact ⟨⟨_, rfl, arrival_passes hL hst⟩, ⟨_, rfl, arrival_passes hL hst⟩⟩
  · have hbit : (s.maskOfBatch b (maskIx o.a)).getLsbD l = true := by
      rw [show s.maskOfBatch b (maskIx o.a) = _ from hm, BitVec.getLsbD_ofNat, Nat.testBit_two_pow]
      simp [hl]
    have hothers : ∀ q : Fibre → Bool, ∀ e ∈ (s.packFibres (packOf b)).filter (fun e => e.1 != b.fib l),
        (s.maskOfBatch b (maskIx o.a)).getLsbD (fibLane e.1) = true → q e.2 = true := fun q e he hb => by
      rw [show s.maskOfBatch b (maskIx o.a) = _ from hm, single_mask he] at hb
      cases hb
    rw [hbit]
    exact ⟨⟨_, rfl, (arrival_completes hL hst hl (.inl ⟨b.pc, rfl⟩) (atJoin_iff.2 ⟨rfl, rfl⟩) hbit (hothers _)).1⟩,
      ⟨_, rfl, (arrival_completes hL hst hl (.inr rfl) (inWaitm_iff.2 rfl) hbit (hothers _)).1⟩⟩
  · rw [show (s.maskOfBatch b (maskIx o.a)).getLsbD l = true from hm]
    exact ⟨⟨_, rfl, arrival_waits hL hst hl hk hk32 hkl hy hyst⟩, ⟨_, rfl, arrival_waits hL hst hl hk hk32 hkl hy hyst⟩⟩

theorem lastArrivalCompletes : LastArrivalCompletes := by
  intro o s b l x hL hl hst hfl hsf i m others goesOn hm
  have hbit : (s.maskOfBatch b (maskIx o.a)).getLsbD l = true := hm
  have hgoes : ∀ {t : State} {f y}, t.fibre? f = some y.complete → goesOn t f y := fun h => by
    show Option.map _ _ = _
    rw [h]
    rfl
  rw [join_lone hL, waitm_lone hL hfl hsf, hbit]
  refine ⟨fun hall => ?_, fun hall => ?_⟩
  · obtain ⟨hself, hrest⟩ := arrival_completes hL hst hl (.inl ⟨b.pc, rfl⟩) (atJoin_iff.2 ⟨rfl, rfl⟩) hbit
      (fun e he hb => atJoin_iff.2 (hall e he hb))
    exact ⟨_, rfl, hself, fun e he _ hest hepc => hgoes (hrest e he (atJoin_iff.2 ⟨hest, hepc⟩))⟩
  · obtain ⟨hself, hrest⟩ := arrival_completes hL hst hl (.inr rfl) (inWaitm_iff.2 rfl) hbit
      (fun e he hb => inWaitm_iff.2 (hall e he hb))
    exact ⟨_, rfl, hself, fun e he _ hest => hgoes (hrest e he (inWaitm_iff.2 hest))⟩

/-- Settles O8: a mask completes when its last running lane arrives, and not before. -/
theorem masksAndJoins : Obligations.MasksAndJoins := ⟨maskUpdates, joinAndWaitmMeet, lastArrivalCompletes⟩

end Sys2Proof.Claims

/-!
# O11: rounds of hierarchical barriers (R206)

A barrier that is looked at again stays as it is while some member has not arrived (`recheckHbar_waits`). Once all have, its round advances by one in
each of its teams, and each member goes on once: with rising keys it stands once in the list of members (`recheckHbar_round`).
-/

namespace Sys2Proof.Claims
open Machine

/-! ### The members of a barrier -/

theorem sameInstance_self (s : State) (t : Nat) (sc : Scope) : s.sameInstance t t sc = true := by
  cases sc <;> simp [State.sameInstance]

theorem mem_hbarTeams_self {s : State} {t : Nat} (h : (s.team? t).isSome) (sc : Scope) : t ∈ s.hbarTeams t sc := by
  obtain ⟨T, hT⟩ := Option.isSome_iff_exists.1 h
  have hm : mapGet s.teams t = some T := hT
  have ht : s.team t = T := by simp [State.team, mapGetD, hm]
  exact List.mem_map.2 ⟨(t, T), List.mem_filter.2 ⟨mem_of_mapGet hm, by simp [ht, sameInstance_self]⟩, rfl⟩

theorem nodup_keys {α : Type} {m : Map α} (h : sortedKeys m = true) : (m.map (·.1)).Nodup :=
  List.pairwise_map.2 ((sortedKeys_iff_pairwise.1 h).imp fun hab => Nat.ne_of_lt hab)

theorem fibTeam_of_teamFibres {s : State} {u : Nat} {e : Nat × Fibre} (he : e ∈ s.teamFibres u) : fibTeam e.1 = u := by
  obtain ⟨-, hp⟩ := List.mem_filter.1 he
  simp only [Bool.and_eq_true, beq_iff_eq] at hp
  exact hp.1

/-- Each member stands once in the list of members. -/
theorem hbarMembers_nodup {s : State} (hf : sortedKeys s.fibres = true) (ht : sortedKeys s.teams = true) (t : Nat) (sc : Scope) :
    ((s.hbarMembers t sc).map (·.1)).Nodup := by
  have hteams : (s.hbarTeams t sc).Nodup := (nodup_keys ht).sublist (List.filter_sublist.map _)
  rw [State.hbarMembers, List.map_flatMap, List.nodup_flatMap]
  refine ⟨fun u _ => (nodup_keys hf).sublist ((List.filter_sublist.trans List.filter_sublist).map _), hteams.imp fun {u v} huv f hu hv => huv ?_⟩
  obtain ⟨d, hd, hdf⟩ := List.mem_map.1 hu
  obtain ⟨e, he, hef⟩ := List.mem_map.1 hv
  rw [← fibTeam_of_teamFibres (List.mem_of_mem_filter hd), ← fibTeam_of_teamFibres (List.mem_of_mem_filter he), hdf, hef]

theorem mem_hbarMembers_self {s : State} {f : Nat} {x : Fibre} (hT : (s.team? (fibTeam f)).isSome) (hx : s.fibre? f = some x)
    (hst : x.st ≠ .exited) (hh : x.helper = false) (sc : Scope) : (f, x) ∈ s.hbarMembers (fibTeam f) sc := by
  refine List.mem_flatMap.2 ⟨_, mem_hbarTeams_self hT sc, List.mem_filter.2 ⟨List.mem_filter.2 ⟨mem_of_mapGet hx, ?_⟩, ?_⟩⟩
  · simp [hst]
  · simp [hh]

/-! ### A barrier that is looked at again -/

/-- The round of a barrier set to r in one of its teams. -/
def setRound (sc : Scope) (r : Nat) (s : State) (u : Nat) : State :=
  s.modTeam u (fun x => { x with hbarRound := mapSet x.hbarRound (scopeCode sc) r })

/-- A member acquires and goes on. -/
def passBarrier (sc : Scope) (s : State) (e : Nat × Fibre) : State := (s.acquire e.1 sc).modFibre e.1 Fibre.complete

theorem recheckHbar_eq (s : State) (t : Nat) (sc : Scope) : s.recheckHbar t sc =
    if (s.hbarMembers t sc).any (fun e => State.inHbar sc e.2) && (s.hbarMembers t sc).all (fun e => State.inHbar sc e.2) &&
        (s.hbarTeams t sc).all (fun u => (s.team u).phase == .running) then
      (s.hbarMembers t sc).foldl (passBarrier sc) ((s.hbarTeams t sc).foldl (setRound sc (s.hbarRoundOf t sc + 1)) s)
    else s := rfl

theorem recheckHbar_waits {s : State} {t : Nat} {sc : Scope} (h : ∃ e ∈ s.hbarMembers t sc, State.inHbar sc e.2 = false) :
    s.recheckHbar t sc = s := by
  obtain ⟨e, he, hn⟩ := h
  rw [recheckHbar_eq, if_neg]
  simp only [Bool.and_eq_true, List.all_eq_true]
  rintro ⟨⟨-, hall⟩, -⟩
  simp [hall e he] at hn

theorem recheckHbar_passes {s : State} {t : Nat} {sc : Scope} {e : Nat × Fibre} (he : e ∈ s.hbarMembers t sc)
    (hall : ∀ e ∈ s.hbarMembers t sc, State.inHbar sc e.2 = true) (hrun : ∀ u ∈ s.hbarTeams t sc, (s.team u).phase = .running) :
    s.recheckHbar t sc =
      (s.hbarMembers t sc).foldl (passBarrier sc) ((s.hbarTeams t sc).foldl (setRound sc (s.hbarRoundOf t sc + 1)) s) := by
  rw [recheckHbar_eq, if_pos]
  simp only [Bool.and_eq_true, List.any_eq_true, List.all_eq_true, beq_iff_eq]
  exact ⟨⟨⟨e, he, hall e he⟩, hall⟩, hrun⟩

theorem setRound_hbarRoundOf {s : State} {t : Nat} (h : (s.team? t).isSome) (sc : Scope) (r : Nat) :
    (setRound sc r s t).hbarRoundOf t sc = r := by
  obtain ⟨T, hT⟩ := Option.isSome_iff_exists.1 h
  have hm : mapGet s.teams t = some T := hT
  simp [setRound, State.hbarRoundOf, State.team, State.modTeam, mapGetD, hm]

theorem setRound_team?_isSome {s : State} {t : Nat} (h : (s.team? t).isSome) (sc : Scope) (r u : Nat) :
    ((setRound sc r s u).team? t).isSome := by
  by_cases e : t = u
  · subst e
    rw [setRound, State.team?_modTeam, Option.isSome_map, h]
  · have hm : (setRound sc r s u).team? t = s.team? t := mapGet_mapMod_ne _ _ e
    rw [hm, h]

theorem foldl_setRound {ts : List Nat} {t : Nat} {sc : Scope} {r : Nat} {s : State} (h : (s.team? t).isSome)
    (ht : t ∈ ts ∨ s.hbarRoundOf t sc = r) : (ts.foldl (setRound sc r) s).hbarRoundOf t sc = r := by
  induction ts generalizing s with
  | nil => exact ht.resolve_left List.not_mem_nil
  | cons u ts ih =>
    refine ih (setRound_team?_isSome h sc r u) ?_
    by_cases e : t = u
    · exact .inr (e ▸ setRound_hbarRoundOf h sc r)
    · have hkeep : (setRound sc r s u).hbarRoundOf t sc = s.hbarRoundOf t sc := by
        rw [State.hbarRoundOf, setRound, State.team_modTeam_ne _ _ e]
        rfl
      rw [hkeep]
      exact ht.imp_left fun h => (List.mem_cons.1 h).resolve_left e

theorem foldl_setRound_fibres (ts : List Nat) (sc : Scope) (r : Nat) (s : State) : (ts.foldl (setRound sc r) s).fibres = s.fibres :=
  List.foldlRecOn (motive := fun u : State => u.fibres = s.fibres) _ _ rfl fun _ hu _ _ => hu

theorem passBarrier_teams (sc : Scope) (s : State) (e : Nat × Fibre) : (passBarrier sc s e).teams = s.teams := by
  show (s.acquire e.1 sc).teams = _
  rw [State.acquire, acquireCore_frame]

theorem foldl_passBarrier_hbarRoundOf (es : List (Nat × Fibre)) (sc : Scope) (s : State) (t : Nat) :
    (es.foldl (passBarrier sc) s).hbarRoundOf t sc = s.hbarRoundOf t sc := by
  have hteams : (es.foldl (passBarrier sc) s).teams = s.teams :=
    List.foldlRecOn (motive := fun u : State => u.teams = s.teams) _ _ rfl fun u hu e _ => (passBarrier_teams sc u e).trans hu
  rw [State.hbarRoundOf, State.team, hteams]
  rfl

/-- Once every member of a barrier has arrived its round advances, and each member goes on (R206). -/
theorem recheckHbar_round {s : State} {t : Nat} {sc : Scope} (hf : sortedKeys s.fibres = true) (ht : sortedKeys s.teams = true)
    (hT : (s.team? t).isSome) (hall : ∀ e ∈ s.hbarMembers t sc, State.inHbar sc e.2 = true)
    (hrun : ∀ u ∈ s.hbarTeams t sc, (s.team u).phase = .running) {e : Nat × Fibre} (he : e ∈ s.hbarMembers t sc) :
    (s.recheckHbar t sc).hbarRoundOf t sc = s.hbarRoundOf t sc + 1 ∧ (s.recheckHbar t sc).fibre? e.1 = some e.2.complete := by
  rw [recheckHbar_passes he hall hrun]
  constructor
  · rw [foldl_passBarrier_hbarRoundOf, foldl_setRound hT (.inl (mem_hbarTeams_self hT sc))]
  · have hx : ((s.hbarTeams t sc).foldl (setRound sc (s.hbarRoundOf t sc + 1)) s).fibre? e.1 = some e.2 := by
      rw [State.fibre?, foldl_setRound_fibres]
      exact mapGet_of_mem hf (mem_hbarMembers he)
    rw [foldl_fibre?_mem (g := fun _ => Fibre.complete) ?_ ?_ (hbarMembers_nodup hf ht t sc) he, hx]
    · rfl
    · intro v d _
      rw [passBarrier, State.fibre?_modFibre, acquire_fibre?]
    · intro v d _ f hfd
      rw [passBarrier, State.fibre?_modFibre_ne _ _ hfd, acquire_fibre?]

/-! ### HBAR over a lone lane -/

section
variable {s : State} {o : SY} {b : Batch} {l : Nat} {x : Fibre} (hL : Lone s (hbarNeed o) b l x)
include hL

theorem hbar_outside (h : (s.launchOfTeam b.team).whole = false ∨ (s.launchOfTeam b.team).blk.deps ≠ []) :
    exec (.hbar o) s = .next (raised s b l { eff := 0x030, arg := 0x280 }) := by
  have hc : (!(s.launchOfTeam b.team).whole || !(s.launchOfTeam b.team).blk.deps.isEmpty) = true := by
    simpa [List.isEmpty_iff] using h
  show Host.Outcome.next (runLanes (hbarNeed o) _ s) = _
  rw [runLanes_lone hL]
  exact congrArg _ (if_pos hc)

theorem hbar_inside (hw : (s.launchOfTeam b.team).whole = true) (hd : (s.launchOfTeam b.team).blk.deps = []) {u : State}
    (hr : (past s b l).release (b.fib l) (modScope o.mod) = (.done, u)) : exec (.hbar o) s =
      .next ((u.waitAt (s.laneOf b l) (.hbar (modScope o.mod) (u.hbarRoundOf b.team (modScope o.mod)))).recheckHbar b.team
        (modScope o.mod)) := by
  have hc : ¬(!(s.launchOfTeam b.team).whole || !(s.launchOfTeam b.team).blk.deps.isEmpty) = true := by simp [hw, hd]
  have hx : exec (.hbar o) s = .next (afterRelease (past s b l) (s.laneOf b l) (modScope o.mod) fun u =>
      (u.waitAt (s.laneOf b l) (.hbar (modScope o.mod) (u.hbarRoundOf b.team (modScope o.mod)))).recheckHbar b.team (modScope o.mod)) := by
    show Host.Outcome.next (runLanes (hbarNeed o) _ s) = _
    rw [runLanes_lone hL]
    exact congrArg _ (if_neg hc)
  rw [hx, afterRelease, State.laneOf_f, hr]

end

/-- Settles O11: the barrier is looked at again in the state in which the fibre waits, where the fibre is one of the members. -/
theorem hbarRounds : Obligations.HbarRounds := by
  intro o s b l x hL
  refine ⟨hbar_outside hL, ?_⟩
  intro u y hw hd hl hp hr hT hf ht hy hh hst sc w
  rw [hbar_inside hL hw hd hr]
  have hteam : fibTeam (b.fib l) = b.team := fibTeam_fib b hl hp
  refine ⟨fun hn => congrArg _ (recheckHbar_waits hn), fun hall hrun => ⟨_, rfl, ?_⟩⟩
  have hwy : w.fibre? (b.fib l) = some { y with pc := b.pc, st := .waiting (.hbar sc (u.hbarRoundOf b.team sc)), retry := true, xfer := y.came } := by
    show (u.modFibre (b.fib l) _).fibre? (b.fib l) = _
    rw [State.fibre?_modFibre, hy, Option.map_some, if_neg hst]
    rfl
  have hmem := mem_hbarMembers_self (s := w) (hteam.symm ▸ hT) hwy nofun hh sc
  rw [hteam] at hmem
  obtain ⟨hround, hgo⟩ := recheckHbar_round (s := w) (sortedKeys_mapMod _ _ _ hf) ht hT hall hrun hmem
  refine ⟨hround, ?_⟩
  rw [hgo]
  rfl

end Sys2Proof.Claims

/-!
# O26: the groups of an MMA (R222, R223, R306, R309)

With no uncorrectable error about, what a group reads leaves the state as it is (`elemA_of_no_error`, `colB_state`, `readAcc_of_no_error`), so a group
does nothing but write the 16384 words of the tile, one after another, each by its sum over the word that stood there (`mmaGroup_eq`). A word has a key
of its own within its tile, so these writes do not meet, and each word is summed into once, from what it held before the group (`setAccs_accWord`).
-/

namespace Sys2Proof.Claims
open Machine

/-! ### What a group reads where ECC has nothing to correct -/

section
variable {s : State} (hbad : s.mod.bad = [])
include hbad

theorem struck_of_no_error (site : EccSite) : s.struck site = false := by simp [State.struck, hbad]

theorem any_struck_of_no_error (sites : List EccSite) : sites.any s.struck = false := by
  simp [struck_of_no_error hbad]

theorem elemA_of_no_error {c : Cmd} {row k : Nat} {p : Place}
    (hp : s.issuedPlace c.fib (s.sideLoc c.fib c.x (tensorOff c.x.e [row, k])) = some p) (tile kcmd i : Nat) :
    s.elemA c tile row k kcmd i = (leNat (s.placeRead c.x.e.elem p), s) := by
  simp [State.elemA, hp, any_struck_of_no_error hbad]

theorem colB_state (c : Cmd) (tile slot fmt n g j : Nat) : (s.colB c tile slot fmt n g j).2 = s := by
  unfold State.colB
  dsimp only
  refine List.foldlRecOn (motive := fun a : List BElem × State => a.2 = s) _ _ rfl fun a ha k _ => ?_
  rw [ha, if_neg (by simp [any_struck_of_no_error hbad])]

theorem readAcc_of_no_error (t tile i j : Nat) : s.readAcc t tile i j = (s.accWord t tile i j, s) :=
  if_neg (by simp [struck_of_no_error hbad])

end

theorem gather_of_state_kept {α : Type} {s : State} {f : State → Nat → α × State} (hf : ∀ i, (f s i).2 = s) (n : Nat) :
    gather n s f = ((List.range n).map (fun i => (f s i).1), s) := by
  induction n with
  | zero => rfl
  | succ n ih =>
    simp only [gather] at ih ⊢
    simp [List.range_succ, List.foldl_append, ih, hf]

/-! ### The words of a tile -/

theorem wordKey_inj {n i j i' j' : Nat} (hj : j < 128) (hj' : j' < 128) : wordKey n i j = wordKey n i' j' ↔ i = i' ∧ j = j' := by
  unfold wordKey
  omega

theorem accWord_setAcc (s : State) (t tile : Nat) {i j i' j' : Nat} (w : Word) (hj : j < 128) (hj' : j' < 128) :
    (s.setAcc t tile [(i, j, w)]).accWord t tile i' j' = if (i', j') = (i, j) then w else s.accWord t tile i' j' := by
  show mapGetD ((s.modCore (s.teamCore t) _).core (s.teamCore t)).tiles (wordKey (s.tileOf t tile) i' j') 0 = _
  rw [State.core_modCore]
  split
  · next h =>
    obtain ⟨rfl, rfl⟩ := Prod.mk.inj h
    exact mapGetD_mapSet_same ..
  · next h => exact mapGetD_mapSet_ne _ _ _ (h ∘ Prod.ext_iff.2 ∘ (wordKey_inj hj' hj).1)

/-- Writes words of a team's tile one after another, each from what the word holds. -/
def setAccs (t tile : Nat) (g : Nat × Nat → Word → Word) (es : List (Nat × Nat)) (s : State) : State :=
  es.foldl (fun u e => u.setAcc t tile [(e.1, e.2, g e (u.accWord t tile e.1 e.2))]) s

/-- A pass is known by what it does in states without an uncorrectable error, since a write of a tile brings none. -/
theorem foldl_eq_setAccs {F : State → Nat × Nat → State} {t tile : Nat} {g : Nat × Nat → Word → Word} {es : List (Nat × Nat)} {s : State}
    (hF : ∀ u : State, u.mod.bad = [] → ∀ e ∈ es, F u e = u.setAcc t tile [(e.1, e.2, g e (u.accWord t tile e.1 e.2))])
    (hbad : s.mod.bad = []) : es.foldl F s = setAccs t tile g es s := by
  induction es generalizing s with
  | nil => rfl
  | cons e es ih =>
    obtain ⟨he, hF⟩ : _ ∧ ∀ u : State, u.mod.bad = [] → ∀ e ∈ es, F u e = _ :=
      ⟨hF s hbad e (List.mem_cons_self ..), fun u hu e he => hF u hu e (List.mem_cons_of_mem _ he)⟩
    show es.foldl F (F s e) = setAccs t tile g es (s.setAcc t tile _)
    rw [he]
    exact ih hF hbad

/-- No field but the cores changes. -/
theorem setAccs_onlyCores (t tile : Nat) (g : Nat × Nat → Word → Word) (es : List (Nat × Nat)) (s : State) :
    setAccs t tile g es s = { s with cores := (setAccs t tile g es s).cores } :=
  List.foldlRecOn (motive := fun u : State => u = { s with cores := u.cores }) es _ rfl fun u hu _ _ => by rw [hu]; rfl

/-- A word that the list names once is written once, from what it held at first. -/
theorem setAccs_accWord (t tile : Nat) (g : Nat × Nat → Word → Word) {es : List (Nat × Nat)} (hd : es.Nodup) (hlt : ∀ e ∈ es, e.2 < 128)
    (s : State) {i j : Nat} (hj : j < 128) :
    (setAccs t tile g es s).accWord t tile i j =
      if (i, j) ∈ es then g (i, j) (s.accWord t tile i j) else s.accWord t tile i j := by
  induction es generalizing s with
  | nil => rfl
  | cons e es ih =>
    obtain ⟨he, hd⟩ := List.nodup_cons.1 hd
    obtain ⟨hej, hlt⟩ := List.forall_mem_cons.1 hlt
    show (setAccs t tile g es (s.setAcc t tile [(e.1, e.2, _)])).accWord t tile i j = _
    rw [ih hd hlt, accWord_setAcc s t tile _ hej hj]
    by_cases h : (i, j) = e
    · subst h
      simp [he]
    · simp [h]

/-! ### A group -/

theorem getD_chunks {α : Type} (n fuel : Nat) (xs : List α) {i : Nat} (hi : i < fuel) :
    (chunks n fuel xs).getD i [] = (xs.drop (n * i)).take n := by
  induction fuel generalizing xs i with
  | zero => omega
  | succ fuel ih =>
    cases xs with
    | nil => simp [chunks]
    | cons x xs =>
      cases i with
      | zero => simp [chunks]
      | succ i =>
        show (chunks n fuel ((x :: xs).drop n)).getD i [] = _
        rw [ih _ (by omega), List.drop_drop, Nat.mul_succ, Nat.add_comm]

theorem groupInt_eq (acc : Word) (as_ : List Nat) (bs : List BElem) :
    groupInt acc as_ bs = acc + BitVec.ofInt 32 (List.zipWith intProduct as_ bs).sum := by
  unfold groupInt
  refine congrArg (fun f => acc + BitVec.ofInt 32 (List.zipWith f as_ bs).sum) (funext₂ fun a b => ?_)
  cases b <;> rfl

theorem elemProduct_eq (fmt sa sb : Nat) : elemProduct fmt sa sb = floatProduct fmt sa sb := by
  funext a b
  cases b <;> simp [elemProduct, floatProduct, zeroVal]

theorem groupFloat_eq (fmt : Nat) (acc : Word) (as_ : List Nat) (sa : Nat) (bs : List BElem) (sb : Nat) :
    groupFloat fmt acc as_ sa bs sb = BitVec.ofNat 32 (fAdd fmtF32 .rn (fmtF32.decode acc.toNat)
      (sumVal .rn (List.zipWith (floatProduct fmt sa sb) as_ bs))).1 := by
  rw [groupFloat, elemProduct_eq]

/-- The words of a tile. -/
def tileCells : List (Nat × Nat) := (List.range 128).flatMap fun i => (List.range 128).map fun j => (i, j)

theorem mem_tileCells {e : Nat × Nat} : e ∈ tileCells ↔ e.1 < 128 ∧ e.2 < 128 :=
  (List.mem_product (l₁ := List.range 128) (l₂ := List.range 128)).trans (by simp)

theorem tileCells_nodup : tileCells.Nodup :=
  List.Nodup.product (l₁ := List.range 128) (l₂ := List.range 128) List.nodup_range List.nodup_range

theorem aRow_eq (c : Cmd) {i : Nat} (hi : i < 128) : (chunks 32 128 ((c.got.map (·.2)).take 4096)).getD i [] = aRow c i := by
  rw [getD_chunks _ _ _ hi, aRow, List.drop_take, List.take_take, Nat.min_eq_left (by omega)]

theorem aScale_eq (c : Cmd) (i : Nat) : ((c.got.map (·.2)).drop 4096).getD i 0 = aScale c i := by
  simp [aScale, List.getD_eq_getElem?_getD]

/-- What a group makes of the word at a cell (R309): its sum from 0 in the first group under Z, otherwise from the word that stands there. -/
def groupWord (s : State) (c : Cmd) (tile slot n : Nat) (z int : Bool) (e : Nat × Nat) (old : Word) : Word :=
  let acc := if z && c.at_ == 0 then 0 else old
  let fmt := c.x.e.fmt
  let bs := bCol s c tile slot fmt n c.at_ e.2
  if int then groupInt acc (aRow c e.1) bs else groupFloat fmt acc (aRow c e.1) (aScale c e.1) bs (bScale s c tile slot fmt n c.at_ e.2)

/-- A group is one pass over the words of its tile. The columns of B are read before it; `gather 128` stands as a variable while the model's text
is reduced, so that nothing evaluates the 128 reads. -/
theorem mmaGroup_eq {s : State} {c : Cmd} {tile row korg k slot n : Nat} {z int : Bool} (hbad : s.mod.bad = [])
    (hk : c.kind = .mma tile row korg k slot n z int) :
    s.mmaGroup c = setAccs c.team tile (groupWord s c tile slot n z int) tileCells s := by
  have hcols : ∀ f : State → Nat → (List BElem × Nat) × State, (∀ j, (f s j).2 = s) →
      gather 128 s f = ((List.range 128).map (fun j => (f s j).1), s) := fun f hf => gather_of_state_kept hf 128
  unfold State.mmaGroup
  rw [hk]
  generalize gather 128 s = cols at hcols ⊢
  revert cols
  refine id fun cols hcols => ?_
  dsimp only
  rw [hcols (fun u j => u.colB c tile slot c.x.e.fmt n c.at_ j) fun j => colB_state hbad c tile slot c.x.e.fmt n c.at_ j]
  refine foldl_eq_setAccs (fun u hu e he => ?_) hbad
  obtain ⟨hi, hj⟩ := mem_tileCells.1 he
  have hread : (if (z && c.at_ == 0) = true then ((0 : Word), u) else u.readAcc c.team tile e.1 e.2) =
      (if z && c.at_ == 0 then 0 else u.accWord c.team tile e.1 e.2, u) := by
    rw [readAcc_of_no_error hu]
    split <;> rfl
  have hcol : ((List.range 128).map fun j => (s.colB c tile slot c.x.e.fmt n c.at_ j).1).getD e.2 ([], 0) =
      (s.colB c tile slot c.x.e.fmt n c.at_ e.2).1 := by
    simp [List.getD_eq_getElem?_getD, hj]
  rw [hread, if_neg (by simp [struck_of_no_error hu]), aRow_eq c hi, aScale_eq, hcol]
  rfl

theorem mmaGroup_accWord {s : State} {c : Cmd} {tile row korg k slot n : Nat} {z int : Bool} (hbad : s.mod.bad = [])
    (hk : c.kind = .mma tile row korg k slot n z int) {i j : Nat} (hi : i < 128) (hj : j < 128) :
    (s.mmaGroup c).accWord c.team tile i j = groupWord s c tile slot n z int (i, j) (s.accWord c.team tile i j) := by
  rw [mmaGroup_eq hbad hk, setAccs_accWord _ _ _ tileCells_nodup (fun e he => (mem_tileCells.1 he).2) s hj,
    if_pos (mem_tileCells.2 ⟨hi, hj⟩)]

/-! ### The command -/

theorem begun_self {c : Cmd} (hb : c.begun = true) : ({ c with begun := true } : Cmd) = c := by rw [← hb]

section
variable {s : State} {id : Nat} {c : Cmd} {tile row korg k slot n : Nat} {z int : Bool} (hc : mapGet s.cmds id = some c)
  (hk : c.kind = .mma tile row korg k slot n z int) (hb : c.begun = true) (hm : s.mayMove c = true)
include hc hk hb hm

/-- A command that has a read of the group in hand left performs the read that is picked (R306). -/
theorem mmaCommand_reads {q : Nat} (hq : c.left[s.pickRun c]? = some [(q, 1)]) :
    exec (.mmaCommand id) s = .next ((s.groupRead c q).2.setCmd id (s.groupRead c q).1) := by
  have hl : c.left.isEmpty = false := by
    cases h : c.left with
    | nil => simp [h] at hq
    | cons => rfl
  show execMmaCommand id s = _
  simp only [execMmaCommand, hc]
  split
  · simp [hm, hb, hl, begun_self hb, hq]
  · next h => exact (h _ _ _ _ _ _ _ _ hk).elim

/-- A command that has no read of the group in hand left performs the group, and goes on to the next one or ends (R309). -/
theorem mmaCommand_group (hl : c.left = []) (hg : c.got.isEmpty = false) :
    exec (.mmaCommand id) s = .next (if (c.at_ + 1) * 32 < k then (s.mmaGroup c).setCmd id { c with at_ := c.at_ + 1, got := [] }
      else (s.mmaGroup c).endCmd id { c with at_ := c.at_ + 1, got := [], bytes := 65536 }) := by
  have hs : ({ c with begun := true, left := [] } : Cmd) = c := by rw [← hl, begun_self hb]
  have hdepth : mmaK c.kind = k := by rw [hk, mmaK]
  show execMmaCommand id s = _
  simp only [execMmaCommand, hc]
  split
  · simp [hm, hb, hl, hs, hg, hdepth]
  · next h => exact (h _ _ _ _ _ _ _ _ hk).elim

end

theorem groupRead_elem {s : State} {c : Cmd} {tile row korg k slot n q : Nat} {z int : Bool} {p : Place} (hbad : s.mod.bad = [])
    (hk : c.kind = .mma tile row korg k slot n z int) (hq : q < 4096)
    (hp : s.issuedPlace c.fib (s.sideLoc c.fib c.x (tensorOff c.x.e [row + q / 32, korg + 32 * c.at_ + q % 32])) = some p) :
    s.groupRead c q = (c.gotRead q (leNat (s.placeRead c.x.e.elem p)), s) := by
  simp [State.groupRead, hk, hq, elemA_of_no_error hbad hp]

section
variable {s u : State} {c : Cmd} {tile row korg k slot n q : Nat} {z int : Bool} (hk : c.kind = .mma tile row korg k slot n z int)
  (hq : 4096 ≤ q) (hm : s.mayStart c [(q, 1)] = true)
include hk hq hm

theorem groupRead_scale {bs : List Byte}
    (hr : s.engReads c c.xs 2 (scaleOff c.x.e [row + (q - 4096), korg + 32 * c.at_]) 2 [] = (.ok bs, u)) :
    s.groupRead c q = (c.gotRead q (leNat bs % 512), u) := by
  simp [State.groupRead, hk, Nat.not_lt.2 hq, hm, hr]

theorem groupRead_scale_unreadable {e : Nat}
    (hr : s.engReads c c.xs 2 (scaleOff c.x.e [row + (q - 4096), korg + 32 * c.at_]) 2 [] = (.err e, u)) :
    s.groupRead c q = ({ c.gotRead q 511 with errs := c.errs ++ [errVal e c.xs.h] }, u.setDerr c.team tile) := by
  simp [State.groupRead, hk, Nat.not_lt.2 hq, hm, hr]

end

/-- Settles O26: a read of the group in hand is performed alone, and once none is left every word of the tile takes the group's sum. -/
theorem matrixGroupsAccumulate : Obligations.MatrixGroupsAccumulate := by
  intro s id c tile row korg k slot n z int hc hk hb hm hbad read
  refine ⟨fun q p hq hlt hp => ?_, fun q w u hq hle hst hr => ⟨?_, ?_⟩, fun hl hg => ⟨s.mmaGroup c, ?_, fun i j hi hj => ?_, ?_⟩⟩
  · rw [mmaCommand_reads hc hk hb hm hq, groupRead_elem hbad hk hlt hp]
    rfl
  · rintro bs rfl
    rw [mmaCommand_reads hc hk hb hm hq, groupRead_scale hk hle hst hr]
    rfl
  · rintro e rfl
    rw [mmaCommand_reads hc hk hb hm hq, groupRead_scale_unreadable hk hle hst hr]
    rfl
  · have hne : c.got.isEmpty = false := by
      cases h : c.got with
      | nil =>
        rw [h, List.length_nil] at hg
        split at hg <;> omega
      | cons => rfl
    rw [mmaCommand_group hc hk hb hm hl hne]
  · rw [mmaGroup_accWord hbad hk hi hj]
    simp only [groupWord, groupInt_eq, groupFloat_eq]
  · rw [mmaGroup_eq hbad hk]
    exact setAccs_onlyCores ..

end Sys2Proof.Claims

/-!
# O2: floating-point results (R231-R238, R240-R243)

Each instruction joins the flags of its result to the lane's and writes the result through D, so what is left of each is that the value it
computes is the one stated; the paired forms alone say theirs by element.
-/

namespace Sys2Proof.Claims
open Machine

/-- An instruction that joins each lane's flags and writes its value. -/
theorem Computes.of_flag_putD {i : Instr} {op : LaneOp} (hx : ∀ s, exec i s = .next (runLanes op.need (fun ln v s =>
      (s.flag ln.f (op.out v).2).putD ln op.cls op.need.head.d op.wd (op.out v).1) s)) : Computes i op := by
  intro s b hQ hk
  exact ⟨_, hx s, runLanes_local hQ _ (fun _ v => op.act v) fun ln v t _ _ _ _ _ => flag_putD_only t ln _ _ _ hk⟩

/-- An instruction whose result is one register, computed as `w` does (R230). -/
theorem Computes.of_fpRun {i : Instr} {o : AL} {cls : Cls} {nb nc : Nat} {g : Nat → Nat → Nat → Nat × Nat}
    (w : Nat → Nat → Nat → Nat × Nat) (hw : w = g) (hx : ∀ s, exec i s = .next (fpRun o cls nb nc w s)) :
    Computes i (floating o cls nb nc g) :=
  .of_flag_putD fun s => by rw [hx, hw]; rfl

/-! ### Arithmetic and comparison (R231-R234) -/

theorem floatArithmeticResults : FloatArithmeticResults := by
  intro i op h
  unfold floats at h
  split at h <;> cases h <;> exact .of_fpRun _ rfl fun _ => rfl

/-! ### Functions (R235) -/

theorem floatFunctionResults : FloatFunctionResults := by
  intro i op h
  unfold functions at h
  split at h <;> cases h <;> exact .of_fpRun _ rfl fun _ => rfl

/-! ### Paired arithmetic, conversions, packing and dot products (R236-R238, R240-R243) -/

theorem half_zero (x : Nat) : half 0 x = x % 2 ^ 16 := by rw [half, Nat.mul_zero, pow_zero, Nat.div_one]

/-- The two elements of a pair are the halves of its register (R236). -/
theorem pairOp_eq_twice (t : Ty) (g : FVal → FVal → FVal → Nat × Nat) : pairOp t g = twice t g := by
  funext a b c
  simp only [pairOp, half_zero]
  rfl

theorem packedAndConversionResults : PackedAndConversionResults := by
  intro i op h
  unfold packed at h
  split at h <;> cases h
  case h_1 | h_2 | h_3 => exact .of_fpRun _ (pairOp_eq_twice ..) fun _ => rfl
  all_goals exact .of_flag_putD fun _ => rfl

/-- Settles O2: each instruction joins its flags and writes its value, and a pair is computed half by half. -/
theorem floatingPointResults : Obligations.FloatingPointResults :=
  ⟨floatArithmeticResults, floatFunctionResults, packedAndConversionResults⟩

end Sys2Proof.Claims

/-!
# O12: the checks of an access, in their order, and the raise of what they find (R248-R250)
-/

namespace Sys2Proof.Claims
open Machine

/-! ### Steps 1 to 4 of R248 -/

/-- The permissions that an access asks for and its entry lacks (R86, R248). -/
def lacks (w : Want) (e : Entry) : Bool := (w.rd && !e.canRead) || (w.wr && !e.canWrite) || (w.at_ && !e.canAtom)

theorem lacks_iff {w : Want} {e : Entry} : lacks w e = true ↔
    (w.rd = true ∧ e.canRead = false) ∨ (w.wr = true ∧ e.canWrite = false) ∨ (w.at_ = true ∧ e.canAtom = false) := by
  simp [lacks, or_assoc]

section
variable {s : State} {f h : Nat} {off : Int} {w : Want}

theorem check_unspaced (hs : (s.entry f h).spaceOf = none) :
    s.check f h off w = .error { eff := 0x027, arg := s.kindArg f h off } := by
  simp only [State.check, hs]
  rfl

variable {sp : Nat} (hs : (s.entry f h).spaceOf = some sp)
include hs

theorem check_wrongSpace (hw : sp ∉ w.spaces) :
    s.check f h off w = .error { eff := 0x027, arg := marg h (s.finalAddr f h (s.entry f h) sp off) } := by
  simp [State.check, hs, hw, Eff.memHandle]

theorem check_misaligned (hw : sp ∈ w.spaces) (ha : s.finalAddr f h (s.entry f h) sp off % w.align ≠ 0) :
    s.check f h off w = .error { eff := 0x025, arg := marg h (s.finalAddr f h (s.entry f h) sp off) } := by
  simp [State.check, hs, hw, ha, Eff.memAlign]

theorem check_forbidden (hw : sp ∈ w.spaces) (ha : s.finalAddr f h (s.entry f h) sp off % w.align = 0) (hh : h ≠ 0)
    (hp : lacks w (s.entry f h) = true) :
    s.check f h off w = .error { eff := 0x022, arg := marg h (s.finalAddr f h (s.entry f h) sp off) } := by
  rw [lacks] at hp
  simp [State.check, hs, hw, ha, hh, hp, Eff.memPerm]

theorem check_ok_aligned {a : Acc} (hc : s.check f h off w = .ok a) : s.finalAddr f h (s.entry f h) sp off % w.align = 0 := by
  by_contra ha
  by_cases hw : sp ∈ w.spaces
  · rw [check_misaligned hs hw ha] at hc; cases hc
  · rw [check_wrongSpace hs hw] at hc; cases hc

theorem check_ok_inBounds {a : Acc} (hc : s.check f h off w = .ok a) (hg : sp = 1 ∨ sp = 6) (hh : h ≠ 0) :
    0 ≤ off ∧ off + w.n ≤ (s.entry f h).len := by
  by_contra hb
  rw [not_and_or, not_le, not_le] at hb
  have hout : (h != 0 && (decide (off < 0) || decide (((s.entry f h).len : Int) < off + w.n))) = true := by simp [hh, hb]
  simp only [State.check, hs, hg, if_true, hout] at hc
  split_ifs at hc

end

/-! ### The checks of a memory instruction over a lone lane -/

section
variable {o : ME} {s : State} {n : Need} {b : Batch} {l : Nat} {x : Fibre} {w : Want}

theorem mePrep_err (hq : (past s b l).acqHeld (b.fib l) = false) {e : Err} (hc : checked o s n b l w = .error e) :
    mePrep o w (s.laneOf b l) (s.readVals n b l) (past s b l) = .err e := by
  rw [checked] at hc
  simp [mePrep, hq, eaOf, hc]

theorem mePrep_ok (hq : (past s b l).acqHeld (b.fib l) = false) {a : Acc} (hc : checked o s n b l w = .ok a) :
    mePrep o w (s.laneOf b l) (s.readVals n b l) (past s b l) = .ok a := by
  rw [checked] at hc
  simp [mePrep, hq, eaOf, hc]

/-- An LDQ that finds a free entry in its queue goes on to the checks (R275). -/
theorem ldqPrep_free (hL : Lone s n b l x) (hq : (queueOf x (qOf o.d)).length < 8) (v : Vals) :
    ldqPrep o (s.laneOf b l) v (past s b l) = mePrep o (wantRead o [1, 2, 3, 4, 5]) (s.laneOf b l) v (past s b l) := by
  have hx : (past s b l).fibre (b.fib l) = x.passed b.pc := State.fibre_modFibre s _ hL.fibre
  have hn : ¬ 8 ≤ (queueOf (x.passed b.pc) (qOf o.d)).length := not_le.2 hq
  rw [ldqPrep, State.laneOf_f, hx, if_neg hn]
  rfl

end

/-- Settles O12: each step of R248 is one of the lemmas above, and a lone lane raises what `runChecked` finds in it. -/
theorem accessChecksRaise : Obligations.AccessChecksRaise := by
  refine ⟨fun s f h off w => ⟨fun hs => check_unspaced hs, fun sp hs => ⟨check_wrongSpace hs, check_misaligned hs,
    fun hw ha hh hp => check_forbidden hs hw ha hh (lacks_iff.2 hp),
    fun a hc => ⟨check_ok_aligned hs hc, fun hg => or_iff_not_imp_left.2 (check_ok_inBounds hs hc hg)⟩⟩⟩, ?_⟩
  intro o s b l x e hq hl r
  have raises {α : Type} {n : Need} (hL : Lone s n b l x) {prep : Ln → Vals → State → Prep α}
      (body : Ln → Vals → α → State → State) (hp : prep (s.laneOf b l) (s.readVals n b l) (past s b l) = .err e) :
      Host.Outcome.next (runChecked n prep body s) = (.next r : Out) := congrArg _ (runChecked_lone_err hL hl hp)
  refine ⟨?_, ?_, ?_, ?_, ?_, ?_, ?_, ?_⟩
  case refine_4 => exact fun hL hf hc => raises hL _ ((ldqPrep_free hL hf _).trans (mePrep_err hq hc))
  all_goals exact fun hL hc => raises hL _ (mePrep_err hq hc)

end Sys2Proof.Claims

/-!
# O13: a load reads the bytes at its place (R246, R247, R272, R321, R326, R328)
-/

namespace Sys2Proof.Claims
open Machine

/-! ### What stands before and after an access (R325, R326, R331) -/

section
variable {s : State} {f : Nat} {loc : Loc}

theorem flying_touchHandle (s : State) (f g h : Nat) : (s.touchHandle g h).flying f = s.flying f := by
  rw [touchHandle_frame]
  rfl

/-- A release that does not wait has left nothing of its fibre in flight (R325). -/
theorem flying_of_released {sc : Scope} (hw : s.releaseWaits f sc = false) : s.flying f = [] := by
  simp only [State.releaseWaits, Bool.or_eq_false_iff] at hw
  simpa using hw.1.1

theorem arriveAt_of_landed (h : s.flying f = []) (loc : Loc) : s.arriveAt f loc = s := by
  simp [State.arriveAt, State.arriveBefore, h, State.performOwn]

theorem behind_of_landed (h : s.flying f = []) (loc : Loc) : s.behind f loc = false := by simp [State.behind, h]

end

/-- What comes after an access of a lone lane (R326, R328). -/
theorem afterAccess_eq (s t : State) (o : ME) (b : Batch) (l : Nat) : afterAccess t (s.laneOf b l) o = afterwards o b l t := by
  simp only [afterAccess, afterwards, acquires, Bool.or_eq_true, beq_iff_eq, or_assoc]
  rfl

theorem afterwards_of_not_sc {o : ME} (h : o.ord ≠ .sc) (b : Batch) (l : Nat) (s : State) :
    afterwards o b l s = if o.ord = .acq ∨ o.ord = .ar then s.acquire (b.fib l) o.sc else s := by
  simp [afterwards, h]

/-! ### Reads at a place (R247) -/

section
variable {s : State} {f : Nat} {a : Acc} {p : Place}

theorem readNow_place (h : s.issuedPlace f a.loc = some p) (n : Nat) (how : How) :
    s.readNow f a n how = (.ok (s.placeRead n p), s) := by
  unfold State.readNow
  split
  · next hl => rw [hl] at h; cases h
  · simp [h]

theorem readLoc_place (hb : (s.arriveAt f a.loc).behind f a.loc = false) (h : (s.arriveAt f a.loc).issuedPlace f a.loc = some p)
    (n : Nat) (how : How) :
    s.readLoc f a n how = (.ok ((s.arriveAt f a.loc).placeRead n p), s.arriveAt f a.loc) := by
  simp [State.readLoc, hb, readNow_place h]

end

/-! ### LD over a lone lane -/

section
variable {o : ME} {s : State} {b : Batch} {l : Nat} {x : Fibre} {a : Acc} (hA : Access o s (ldNeed o) b l x (wantRead o [2, 3, 4, 5]) a)
include hA

/-- An LD that its order does not hold to its place starts its read (R321). -/
theorem ld_deferred {p : Place} {r : Nat} (hr : deferred o (x.passed b.pc) = some r)
    (hp : (reaching s b l a).issuedPlace (b.fib l) a.loc = some p) :
    exec (.ld o) s = .next ((reaching s b l a).startLoad (s.laneOf b l) o a.loc r ((reaching s b l a).placeRead o.sz.bytes p)) := by
  have hx : (past s b l).fibre (b.fib l) = x.passed b.pc := State.fibre_modFibre s _ hA.lone.fibre
  have hn := readNow_place hp o.sz.bytes (howOf o a)
  rw [reaching] at hn
  refine congrArg Host.Outcome.next ((runChecked_lone hA.lone (mePrep_ok hA.calm hA.ok)).trans ?_)
  simp only [State.laneOf_f, hx, hr, hn]
  rfl

/-- Any other LD reads at once, from the state `u` in which what comes before the read is done (R328). -/
theorem ld_ordered (hr : deferred o (x.passed b.pc) = none) {u t : State} {bs : List Byte}
    (hu : ∀ k, beforeRead (past s b l) (s.laneOf b l) o k = k u)
    (h : (u.touchHandle (b.fib l) a.hnd).readLoc (b.fib l) a o.sz.bytes (howOf o a) = (.ok bs, t)) :
    exec (.ld o) s = .next ((afterwards o b l t).putD (s.laneOf b l) .v o.d o.sz.regs (extendBytes (o.fn.getLsbD 1) bs)) := by
  have hx : (past s b l).fibre (b.fib l) = x.passed b.pc := State.fibre_modFibre s _ hA.lone.fibre
  refine congrArg Host.Outcome.next ((runChecked_lone hA.lone (mePrep_ok hA.calm hA.ok)).trans ?_)
  simp only [State.laneOf_f, hx, hr, hu, h, afterAccess_eq, sxOf]

end

theorem deferred_plain {o : ME} {j : Fin 128} (ho : o.ord = .plain ∨ o.ord = .rlx) (hd : o.d = .g j) (x : Fibre) :
    deferred o x = some (if x.capMode && decide (j.val < 8) then rC j.val else rG j.val) := by
  simp [deferred, hd, ho, State.regOf]

theorem deferred_none {o : ME} (h : (o.ord ≠ .plain ∧ o.ord ≠ .rlx) ∨ ∀ j, o.d ≠ .g j) (x : Fibre) : deferred o x = none := by
  unfold deferred
  split
  · next j hd =>
    rw [if_neg]
    rcases h with h | h
    · exact not_or.2 h
    · exact absurd hd (h j)
  · rfl

/-- The registers that wait for a read take the bytes that are at its place when it is performed (R321). -/
theorem performLoad_pend {s : State} {f q : Nat} {x : Fibre} {ld : LoadRead} {p : Place} {w : RegWrite} (hx : s.fibre? f = some x)
    (hl : mapGet x.loads q = some ld) (hp : s.issuedPlace f ld.loc = some p) (hw : w ∈ x.pend) (hq : w.load = some q) :
    { w with
      load := none
      val := (natWords (if ld.n ≤ 4 then 1 else ld.n / 4) (extendBytes ld.sx (s.placeRead ld.n p))).getD w.serial w.val } ∈
      ((s.performLoad f q).fibre f).pend := by
  simp only [State.performLoad, s.fibre_eq hx, hl, hp, State.fibre_modFibre s _ hx]
  exact List.mem_map.2 ⟨w, hw, by simp [hq]⟩

theorem loadsStartTheirRead : LoadsStartTheirRead :=
  ⟨fun _ _ _ _ _ _ _ _ hA ho hd hp => ld_deferred hA (deferred_plain ho hd _) hp,
    fun _ _ _ _ _ _ _ hx hl hp hw hq => performLoad_pend hx hl hp hw hq⟩

theorem orderedLoadsRead : OrderedLoadsRead := by
  intro o s b l x a p hA
  constructor
  · intro hsc hd u hb hp
    rw [← afterwards_of_not_sc hsc]
    exact ld_ordered hA (deferred_none hd _) (fun k => by rw [beforeRead, if_neg hsc]) (readLoc_place hb hp ..)
  · intro u hsc hu hw hp
    have hf : (u.touchHandle (b.fib l) a.hnd).flying (b.fib l) = [] := (flying_touchHandle ..).trans (flying_of_released hw)
    have ha := arriveAt_of_landed hf a.loc
    have hr := readLoc_place (by rw [ha]; exact behind_of_landed hf _) (by rw [ha]; exact hp) o.sz.bytes (howOf o a)
    rw [ha] at hr
    exact ld_ordered hA (deferred_none (.inl (by simp [hsc])) _) (fun k => by simp [beforeRead, hsc, hu, hw]) hr

/-- Settles O13: a load either starts its read or reads at once, and in both the bytes are those of the place. -/
theorem loadsGiveTheBytes : Obligations.LoadsGiveTheBytes := ⟨loadsStartTheirRead, orderedLoadsRead⟩

end Sys2Proof.Claims

/-!
# O14: a store on the chip writes its bytes and no other (R246, R247, R273, R274), and a store's release and acquire (R325, R328)
-/

namespace Sys2Proof.Claims
open Machine

/-! ### Bytes -/

@[simp] theorem leBytes_length (n v : Nat) : (leBytes n v).length = n := by
  induction n generalizing v with
  | zero => rfl
  | succ n ih => simp [leBytes, ih]

theorem bytesOf_length (ws : List Word) : (bytesOf ws).length = 4 * ws.length := by
  simp [bytesOf, List.length_flatMap, Nat.mul_comm]

/-! ### What a write at an on-chip place leaves (R247) -/

section
variable (s : State) (bs : List Byte)

theorem touchWatch_scratch (sp sec c : Nat) : ((s.touchWatch sp sec).core c).scratch = (s.core c).scratch := by
  rw [State.touchWatch, core_mapAll _ _ fun _ => rfl]

theorem touchRange_scratch (sp off n c : Nat) : ((s.touchRange sp off n).core c).scratch = (s.core c).scratch := by
  unfold State.touchRange
  generalize List.range' (off / 64) _ = ks
  induction ks generalizing s with
  | nil => rfl
  | cons k ks ih => rw [List.foldl_cons, ih, touchWatch_scratch]

theorem placeWrite_scratch (c off : Nat) : ((s.placeWrite bs (.scratch c off)).core c).scratch = (s.core c).scratch.writes off bs := by
  rw [State.placeWrite, touchRange_scratch, State.core_modCore]

theorem placeWrite_scratch_dies (c off : Nat) : (s.placeWrite bs (.scratch c off)).dies = s.dies := by
  rw [State.placeWrite, State.touchRange_frame]
  rfl

theorem placeWrite_tundish (d off : Nat) : ((s.placeWrite bs (.tundish d off)).die d).tundish = (s.die d).tundish.writes off bs := by
  have h := State.die_modDie s d (fun x => { x with tundish := x.tundish.writes off bs })
  rw [State.die] at h ⊢
  rw [State.placeWrite, State.touchRange_frame, h]

theorem placeWrite_tundish_scratch (d off c : Nat) : ((s.placeWrite bs (.tundish d off)).core c).scratch = (s.core c).scratch := by
  rw [State.placeWrite, touchRange_scratch]
  rfl

theorem placeWrite_dram (p : Place) : (s.placeWrite bs p).dram = s.dram := by rw [State.placeWrite_frame]

theorem placeWrite_fibres (p : Place) : (s.placeWrite bs p).fibres = s.fibres := by rw [State.placeWrite_frame]

theorem touchHandle_scratch (f h c : Nat) : ((s.touchHandle f h).core c).scratch = (s.core c).scratch := by
  unfold State.touchHandle
  split_ifs
  · rfl
  · dsimp only
    split_ifs
    · rfl
    · by_cases hc : c = s.coreOf f
      · rw [hc, State.core_modCore]
      · rw [State.core_modCore_ne _ _ hc]

end

/-- Every byte that bytes written at a place may touch, and every byte that they leave (R246, R247). -/
structure WritesAt (s t : State) (p : Place) (bs : List Byte) : Prop where
  scratch : ∀ c off, p = .scratch c off →
    (Memory.wf (s.core c).scratch = true → (t.core c).scratch.reads off bs.length = bs) ∧
    (∀ y, y < off ∨ off + bs.length ≤ y → (t.core c).scratch.read y = (s.core c).scratch.read y) ∧
    (∀ d, (t.die d).tundish = (s.die d).tundish)
  tundish : ∀ d off, p = .tundish d off →
    (Memory.wf (s.die d).tundish = true → (t.die d).tundish.reads off bs.length = bs) ∧
    (∀ y, y < off ∨ off + bs.length ≤ y → (t.die d).tundish.read y = (s.die d).tundish.read y) ∧
    (∀ c, (t.core c).scratch = (s.core c).scratch)

theorem placeWrite_writesAt (s : State) (p : Place) (bs : List Byte) : WritesAt s (s.placeWrite bs p) p bs := by
  constructor <;> rintro c off rfl
  · rw [placeWrite_scratch]
    refine ⟨fun hw => Memory.reads_writes hw off bs, fun y hy => Memory.read_writes_ne _ off bs hy, fun d => ?_⟩
    rw [State.die, placeWrite_scratch_dies]
    rfl
  · rw [placeWrite_tundish]
    exact ⟨fun hw => Memory.reads_writes hw off bs, fun y hy => Memory.read_writes_ne _ off bs hy, placeWrite_tundish_scratch s bs c off⟩

/-- The handle cache holds no byte of an on-chip store. -/
theorem reaching_onchip (s : State) (b : Batch) (l : Nat) (a : Acc) :
    (∀ c, ((reaching s b l a).core c).scratch = (s.core c).scratch) ∧ ∀ d, ((reaching s b l a).die d).tundish = (s.die d).tundish := by
  refine ⟨touchHandle_scratch (past s b l) _ _, fun d => ?_⟩
  rw [reaching, touchHandle_frame]
  rfl

theorem WritesAt.of_reaching {s t : State} {b : Batch} {l : Nat} {a : Acc} {p : Place} {bs : List Byte}
    (h : WritesAt (reaching s b l a) t p bs) : WritesAt s t p bs := by
  obtain ⟨hs, ht⟩ := reaching_onchip s b l a
  constructor
  · simpa only [hs, ht] using h.scratch
  · simpa only [hs, ht] using h.tundish

/-! ### Writes at a location -/

theorem place_touchHandle (s : State) (f g h : Nat) (loc : Loc) : (s.touchHandle g h).place f loc = s.place f loc := by
  rw [touchHandle_frame]
  rfl

theorem writeLoc_place {s : State} {f : Nat} {a : Acc} {p : Place} (hp : s.place f a.loc = some p) (hm : s.mustHold f a.loc = false)
    (how : How) (bs : List Byte) : s.writeLoc f a how bs = (.ok (), s.placeWrite bs p) := by
  unfold State.writeLoc
  split
  · next hl => rw [hl] at hp; cases hp
  · simp [hp, hm]

/-! ### Stores over a lone lane -/

/-- The way of an access under its instruction's hint, or under the policy of its entry (R252, R324). -/
theorem howOf_eq (o : ME) (a : Acc) : howOf o a =
    let pol := if o.ch = 0 then a.pol else o.ch.toNat
    { ord := o.ord, sc := o.sc, cv := pol == 2, rc := a.rc, hint := if pol = 1 then .stream else if pol = 3 then .keep else .normal } := by
  unfold howOf
  dsimp only
  generalize (if o.ch = 0 then a.pol else o.ch.toNat) = pol
  split
  · rfl
  · rfl
  · next h1 h3 => rw [if_neg h1, if_neg h3]

section
variable {o : ME} {s : State} {b : Batch} {l : Nat} {x : Fibre} {a : Acc} {v : State}

/-- A write goes on from the state in which its release is performed (R325), and there brings its entry into the handle cache (R105). -/
theorem beforeWrite_released (hv : releasedAt o s b l a v) :
    ∃ u, v = u.touchHandle (b.fib l) a.hnd ∧ ∀ k, beforeWrite (past s b l) (s.laneOf b l) o k = k u := by
  have hr : releases o.ord = true ↔ o.ord = .rel ∨ o.ord = .ar ∨ o.ord = .sc := by simp [releases, or_assoc]
  unfold releasedAt at hv
  by_cases ho : o.ord = .rel ∨ o.ord = .ar ∨ o.ord = .sc
  · rw [if_pos ho] at hv
    obtain ⟨u, hu, rfl⟩ := hv
    exact ⟨u, rfl, fun k => by simp [beforeWrite, hr.2 ho, afterRelease, hu]⟩
  · rw [if_neg ho] at hv
    exact ⟨past s b l, hv, fun k => by rw [beforeWrite, if_neg (fun h => ho (hr.1 h))]⟩

section
variable {how : How} {bs : List Byte} {t : State} (hv : releasedAt o s b l a v)
include hv

theorem storeAt_done {w : Unit} (hw : v.writeLoc (b.fib l) a how bs = (.ok w, t)) :
    storeAt o (s.laneOf b l) a how bs (past s b l) = afterwards o b l t := by
  obtain ⟨u, rfl, hu⟩ := beforeWrite_released hv
  simp only [storeAt, hu, State.laneOf_f, hw, afterAccess_eq]

theorem storeAt_stops {e : Stop} (hw : v.writeLoc (b.fib l) a how bs = (.error e, t)) :
    storeAt o (s.laneOf b l) a how bs (past s b l) = t.stop (s.laneOf b l) e := by
  obtain ⟨u, rfl, hu⟩ := beforeWrite_released hv
  simp only [storeAt, hu, State.laneOf_f, hw]

end

theorem st_storeAt (hA : Access o s (stNeed o) b l x (wantWrite o.sz.bytes) a) : exec (.st o) s =
    .next (storeAt o (s.laneOf b l) a (howOf o a) (leBytes o.sz.bytes (wordsNat (s.readVals (stNeed o) b l).b)) (past s b l)) :=
  congrArg Host.Outcome.next (runChecked_lone hA.lone (mePrep_ok hA.calm hA.ok))

theorem stl_storeAt (hA : Access o s (stlNeed o) b l x (wantWrite 64) a) : exec (.stl o) s =
    .next (storeAt o (s.laneOf b l) a { howOf o a with cv := true } (bytesOf (s.readVals (stlNeed o) b l).b) (past s b l)) :=
  congrArg Host.Outcome.next (runChecked_lone hA.lone (mePrep_ok hA.calm hA.ok))

theorem storesComplete : StoresComplete := by
  intro o s b l x a v hv pol how
  have hhow : howOf o a = how := howOf_eq o a
  constructor <;> intro r u hA hw
  · rw [st_storeAt hA, hhow]
    cases r with
    | ok => exact congrArg _ (storeAt_done hv hw)
    | error e => exact congrArg _ (storeAt_stops hv hw)
  · rw [stl_storeAt hA, hhow]
    cases r with
    | ok => exact congrArg _ (storeAt_done hv hw)
    | error e => exact congrArg _ (storeAt_stops hv hw)

/-- A plain store at a place that it need not wait for writes there and is over (R273). -/
theorem storeAt_place (ho : o.ord = .plain) {p : Place} (hp : (past s b l).place (b.fib l) a.loc = some p)
    (hm : (reaching s b l a).mustHold (b.fib l) a.loc = false) (how : How) (bs : List Byte) :
    storeAt o (s.laneOf b l) a how bs (past s b l) = (reaching s b l a).placeWrite bs p := by
  have hv : releasedAt o s b l a (reaching s b l a) := by simp [releasedAt, ho]
  rw [storeAt_done hv (writeLoc_place ((place_touchHandle ..).trans hp) hm how bs), afterwards_of_not_sc (by simp [ho])]
  simp [ho, reaching]

/-- The words of a line that a g specifier names (R274). -/
theorem stl_line_length {j : Fin 128} (hb : o.b = .g j) : (bytesOf (s.readVals (stlNeed o) b l).b).length = 64 := by
  have hw : (s.readVals (stlNeed o) b l).b.length = 16 := by
    show (s.readSpec b l _ _ _ 16 o.b).length = 16
    rw [hb]
    exact readRegs_length ..
  rw [bytesOf_length, hw]

theorem onChipStoresWriteTheirBytes : OnChipStoresWriteTheirBytes := by
  intro o s b l x a p good ho hp hm
  have hgood {bs : List Byte} {i : Instr} (hi : exec i s = .next ((reaching s b l a).placeWrite bs p)) : good bs.length bs i := by
    have hw := (placeWrite_writesAt (reaching s b l a) p bs).of_reaching
    refine ⟨_, hi, rfl, ⟨hw.scratch, hw.tundish⟩, ?_, ?_⟩
    · rw [placeWrite_dram, reaching, touchHandle_frame]
      rfl
    · rw [placeWrite_fibres, reaching, touchHandle_frame]
  refine ⟨fun hA => ?_, fun ⟨j, hb⟩ hA => ?_⟩
  · have h := hgood ((st_storeAt hA).trans (congrArg _ (storeAt_place ho hp hm _ _)))
    rwa [leBytes_length] at h
  · have h := hgood ((stl_storeAt hA).trans (congrArg _ (storeAt_place ho hp hm _ _)))
    rwa [stl_line_length hb] at h

end

/-- Settles O14: a store at a place is one write of its bytes there; any store is its release, its write and what comes after. -/
theorem storesWriteTheirBytes : Obligations.StoresWriteTheirBytes := ⟨onChipStoresWriteTheirBytes, storesComplete⟩

end Sys2Proof.Claims

/-!
# O15: bytes written into the L1 read back through it (R253)
-/

namespace Sys2Proof.Claims
open Machine

theorem byteSlice_putBytes {bs new : List Byte} {off : Nat} (h : off + new.length ≤ bs.length) :
    byteSlice (putBytes bs off new) off new.length = new := by
  have ht : new.take (bs.length - off) = new := List.take_of_length_le (by omega)
  have ho : (bs.take off).length = off := by rw [List.length_take]; omega
  have hd : ((putBytes bs off new).drop off).take new.length = new := by
    rw [putBytes, ht, List.append_assoc, List.drop_left' ho, List.take_left' rfl]
  simp [byteSlice, hd]

/-- No byte of a sector lies under a mask and outside a mask that holds it. -/
theorem mask_inside (bm m : BitVec 64) : m &&& ~~~(bm ||| m) = 0 := by
  ext i hi
  simp
  tauto

section
variable {s : State} {f life c ctx va arg : Nat} {xl : Xl} {bs : List Byte}

/-- A sector of an L1 that holds whole sectors of bytes, or nothing: no Update-only one (R253). -/
def HoldsBytes (s : State) (c k : Nat) : Prop := ∀ y, s.l1 c k = some y → ∃ data, y = .clean data ∧ data.length = 64 ∨
  ∃ bm full acq cx v g w, y = .dirty bm full acq data cx v g w ∧ data.length = 64

/-- A write leaves its sector Dirty, with its bytes in it and under `BM` (R253). -/
theorem l1Write_dirty (h : HoldsBytes s c (sectorKey xl.pa xl.key)) : ∃ bm full acq data cx v g w,
    s.l1Write f life c ctx va arg xl bs =
      s.setL1 c (sectorKey xl.pa xl.key) (.dirty bm full acq (putBytes data (xl.pa % 64) bs) cx v g w) ∧
    data.length = 64 ∧ sectorMask (xl.pa % 64) bs.length &&& ~~~bm = 0 := by
  have hm : sectorMask (xl.pa % 64) bs.length &&& ~~~sectorMask (xl.pa % 64) bs.length = 0 := by simp
  cases hy : s.l1 c (sectorKey xl.pa xl.key) with
  | none => exact ⟨_, _, _, _, _, _, _, _, by simp only [State.l1Write, hy]; rfl, List.length_replicate .., hm⟩
  | some y =>
    obtain ⟨data, ⟨rfl, hl⟩ | ⟨bm, full, acq, cx, v, g, w, rfl, hl⟩⟩ := h y hy
    · exact ⟨_, _, _, data, _, _, _, _, by simp only [State.l1Write, hy]; rfl, hl, hm⟩
    · exact ⟨_, _, _, data, _, _, _, _, by simp only [State.l1Write, hy]; rfl, hl, mask_inside bm _⟩

end

/-- A Dirty sector serves the bytes under its `BM` (R253). -/
theorem l1Read_dirty {s : State} {c pa key n : Nat} {bm : BitVec 64} {full acq : Bool} {data : List Byte} {cx v : Nat} {g : BitVec 12}
    {w : List Writer} (h : s.l1 c (sectorKey pa key) = some (.dirty bm full acq data cx v g w))
    (hm : sectorMask (pa % 64) n &&& ~~~bm = 0) (rc : Bool) (hint : Hint) :
    (s.l1Read c pa key n rc hint).1 = byteSlice data (pa % 64) n := by
  simp only [State.l1Read, h, hm, beq_self_eq_true, if_true]

@[simp] theorem l1_setL1 (s : State) (c k : Nat) (y : L1) : (s.setL1 c k y).l1 c k = some y := by
  simp [State.l1, State.setL1]

theorem l1_setL1_ne (s : State) (c : Nat) {k j : Nat} (y : L1) (h : j ≠ k) : (s.setL1 c k y).l1 c j = s.l1 c j := by
  simp [State.l1, State.setL1, mapGet_mapSet_ne _ _ h]

/-- Settles O15: the sector that is written becomes Dirty with the bytes in it, and serves them. -/
theorem l1GivesBackWhatWasWritten : Obligations.L1GivesBackWhatWasWritten := by
  intro s f life c ctx va arg xl bs rc hint hn hs t
  obtain ⟨bm, full, acq, data, cx, v, g, w, ht, hl, hm⟩ := l1Write_dirty (f := f) (life := life) (ctx := ctx) (va := va) (arg := arg)
    (bs := bs) hs
  simp only [t, ht]
  refine ⟨?_, rfl, fun k hk => l1_setL1_ne s c _ hk, fun d hd => State.core_modCore_ne s _ hd⟩
  rw [l1Read_dirty (l1_setL1 ..) hm]
  exact byteSlice_putBytes (by omega)

end Sys2Proof.Claims

/-!
# O16: atomics replace the value at their place and give back the old one (R254, R255, R346-R348, R351)
-/

namespace Sys2Proof.Claims
open Machine

/-! ### An atomic at its place (R254, R347) -/

section
variable {s : State} {f : Nat} {a : Acc} {n : Nat} {comm : Bool} {g : AtomFn} (hb : (s.arriveAt f a.loc).behind f a.loc = false)
include hb

theorem atomAt_place {p : Place} (hp : (s.arriveAt f a.loc).place f a.loc = some p) {old : Nat} {t : State}
    (h : atomOnchip n g p (s.arriveAt f a.loc) = (old, t)) : atomAt f a n comm g s = (.ok old, t) := by
  unfold atomAt
  dsimp only
  rw [if_neg (by simp [hb])]
  split
  · next hl => rw [hl] at hp; cases hp
  · simp only [hp, h]

theorem atomAt_glob {va : Nat} {y xl : Xl} {w u : State} (hl : a.loc = .glob va)
    (ht : (s.arriveAt f a.loc).translate (.core ((s.arriveAt f a.loc).coreOf f)) ((s.arriveAt f a.loc).ctxOf f) va .atomic = (.ok y, w))
    (hr : w.resolve (.core ((s.arriveAt f a.loc).coreOf f)) (w.ctxOf f) va .atomic y = (.ok xl, u)) (hf : u.frozen xl.pa = false) {old : Nat} {t : State}
    (h : atomHome (u.coreOf f) xl n comm g u = (old, t)) : atomAt f a n comm g s = (.ok old, t.seeHome f xl.pa xl.key) := by
  unfold atomAt
  simp only [hb, Bool.false_eq_true, if_false]
  generalize s.arriveAt f a.loc = v at ht hr
  simp only [hl, ht, hr, State.homeHeld, hf, Bool.false_and, Bool.false_eq_true, if_false, h]

end

theorem atomOnchip_some {n : Nat} {g : AtomFn} {p : Place} {s : State} {v : Nat} (h : g (leNat (s.placeRead n p)) = some v) :
    atomOnchip n g p s = (leNat (s.placeRead n p), s.placeWrite (leBytes n v) p) := by
  simp [atomOnchip, h]

theorem atomOnchip_none {n : Nat} {g : AtomFn} {p : Place} {s : State} (h : g (leNat (s.placeRead n p)) = none) :
    atomOnchip n g p s = (leNat (s.placeRead n p), s) := by
  simp [atomOnchip, h]

section
variable {s : State} {c n : Nat} {x : Xl} {g : AtomFn} (hl : s.l1 c (sectorKey x.pa x.key) = none)
include hl

theorem flushSector_absent (inval : Bool) : s.flushSector c x.pa x.key inval = s := by
  simp only [State.flushSector, hl]

theorem atomHome_some {v : Nat} (h : g (leNat (s.homeRead x.pa x.key n).1) = some v) : atomHome c x n false g s =
    (leNat (s.homeRead x.pa x.key n).1, (s.homeRead x.pa x.key n).2.homeWrite (c / 128) x.pa x.key (leBytes n v)) := by
  simp [atomHome, State.homeAtom, flushSector_absent hl, h]

theorem atomHome_none (h : g (leNat (s.homeRead x.pa x.key n).1) = none) : atomHome c x n false g s = 
    (leNat (s.homeRead x.pa x.key n).1, (s.homeRead x.pa x.key n).2) := by
  simp [atomHome, State.homeAtom, flushSector_absent hl, h]

/-- A `.comm` atomic makes no recall (R347). -/
theorem atomHome_comm {v : Nat} (h : g (leNat (s.homeBytes x.key x.pa n)) = some v) : atomHome c x n true g s =
    (leNat (s.homeBytes x.key x.pa n),
      ((s.dramWrite x.key x.pa (leBytes n v)).copyUpdate (c / 128) x.pa x.key (leBytes n v)).touchWatch 0 (x.pa / 64)) := by
  simp [atomHome, hl, flushSector_absent hl, h]

end

/-! ### ATOM, ACAS and RED over a lone lane -/

/-- The new value of an ATOM from its operands, and that of an ACAS, which is none where the old one is not the expected (R346, R348). -/
def sumFn (o : ME) (x : Vals) : AtomFn := fun old => some (atomValue o old (wordsNat x.b))
def swapFn (o : ME) (x : Vals) : AtomFn := fun old =>
  if old = wordsNat x.b % 2 ^ (8 * o.sz.bytes) then some (wordsNat x.c % 2 ^ (8 * o.sz.bytes)) else none

theorem sumFn_eq (o : ME) (x : Vals) (old : Nat) : sumFn o x old = some (atomValue o old (wordsNat x.b)) := rfl
theorem swapFn_hit {o : ME} {x : Vals} {old : Nat} (h : old = wordsNat x.b % 2 ^ (8 * o.sz.bytes)) :
    swapFn o x old = some (wordsNat x.c % 2 ^ (8 * o.sz.bytes)) := if_pos h
theorem swapFn_miss {o : ME} {x : Vals} {old : Nat} (h : old ≠ wordsNat x.b % 2 ^ (8 * o.sz.bytes)) : swapFn o x old = none := if_neg h

theorem atom_eq (o : ME) (s : State) : exec (.atom o) s = .next (atomRun o 0 (o.ch == 1) (sumFn o) s) := rfl
theorem acas_eq (o : ME) (s : State) : exec (.acas o) s = .next (atomRun o o.sz.regs false (swapFn o) s) := rfl

section
variable {o : ME} {s : State} {b : Batch} {l : Nat} {x : Fibre} {a : Acc} {r : State} (hv : releasedAt o s b l a r)
include hv

/-- An atomic that is performed gives its old value to D, after what comes after the access (R348). -/
theorem atomRun_released {nc : Nat} {comm : Bool} {g : Vals → AtomFn} (hA : Access o s (atomNeed o nc) b l x (wantAtom o) a)
    {old : Nat} {t : State} (h : atomAt (b.fib l) a o.sz.bytes comm (g (s.readVals (atomNeed o nc) b l)) r = (.ok old, t)) :
    atomRun o nc comm g s = (afterwards o b l t).putD (s.laneOf b l) .v o.d o.sz.regs old := by
  obtain ⟨u, rfl, hu⟩ := beforeWrite_released hv
  refine (runChecked_lone hA.lone (mePrep_ok hA.calm hA.ok)).trans ?_
  simp only [hu, State.laneOf_f, h, afterAccess_eq]

theorem red_released (hA : Access o s (stNeed o) b l x (wantAtom o) a) : exec (.red o) s =
    .next (redAt o (s.laneOf b l) a (wordsNat (s.readVals (stNeed o) b l).b % 2 ^ (8 * o.sz.bytes)) r) := by
  obtain ⟨u, rfl, hu⟩ := beforeWrite_released hv
  exact congrArg Host.Outcome.next ((runChecked_lone hA.lone (mePrep_ok hA.calm hA.ok)).trans (hu _))

end

theorem redAt_place {o : ME} {s : State} {ln : Ln} {a : Acc} {p : Place} (hb : (s.arriveAt ln.f a.loc).behind ln.f a.loc = false)
    (hp : (s.arriveAt ln.f a.loc).place ln.f a.loc = some p) (v : Nat) : redAt o ln a v s =
      (s.arriveAt ln.f a.loc).placeWrite
        (leBytes o.sz.bytes (atomNew o.fn.toNat o.sz.bytes (leNat ((s.arriveAt ln.f a.loc).placeRead o.sz.bytes p)) v)) p := by
  unfold redAt
  split
  · next hl => rw [hl] at hp; cases hp
  · simp [hb, hp, atomOnchip]

theorem onChipAtomics : OnChipAtomics := by
  intro o s b l x a r hv v hb p hp old
  refine ⟨fun hA => ?_, fun hA => ?_, fun hA => ?_⟩
  · rw [atom_eq, atomRun_released hv hA (atomAt_place hb hp (atomOnchip_some (sumFn_eq ..)))]
  · intro y
    by_cases he : old = wordsNat y.b % 2 ^ (8 * o.sz.bytes)
    · rw [acas_eq, atomRun_released hv hA (atomAt_place hb hp (atomOnchip_some (swapFn_hit he))), if_pos he]
    · rw [acas_eq, atomRun_released hv hA (atomAt_place hb hp (atomOnchip_none (swapFn_miss he))), if_neg he]
  · rw [red_released hv hA, redAt_place (ln := s.laneOf b l) hb hp]
    rfl

theorem globalAtomics : GlobalAtomics := by
  intro o s b l x a r va y xl w u hv hl f v hb ht hr hf hn die ends h sum
  have hat {comm : Bool} {g : AtomFn} {old : Nat} {t : State} (hg : atomHome (u.coreOf f) xl o.sz.bytes comm g u = (old, t)) :
      atomAt f a o.sz.bytes comm g r = (.ok old, t.seeHome f xl.pa xl.key) := atomAt_glob hb hl ht hr hf hg
  refine ⟨fun hA => ⟨fun hc => ?_, fun hc => ?_⟩, fun hA => ⟨fun he => ?_, fun he => ?_⟩⟩
  · have hch : (o.ch == 1) = false := by simpa using hc
    rw [atom_eq, hch, atomRun_released hv hA (hat (atomHome_some hn (sumFn_eq o _ _)))]
  · have hch : (o.ch == 1) = true := by simpa using hc
    rw [atom_eq, hch, atomRun_released hv hA (hat (atomHome_comm hn (sumFn_eq o _ _)))]
  · rw [acas_eq, atomRun_released hv hA (hat (atomHome_some hn (swapFn_hit he)))]
  · rw [acas_eq, atomRun_released hv hA (hat (atomHome_none hn (swapFn_miss he)))]

/-! ### RED in global memory (R255, R347, R351) -/

section
variable {o : ME} {s z : State} {ln : Ln} {a : Acc} {va v : Nat} {y : Xl}

theorem redAt_glob {w : State} (hl : a.loc = .glob va)
    (ht : s.translate (.core (s.coreOf ln.f)) (s.ctxOf ln.f) va .atomic = (.ok y, w)) : redAt o ln a v s = redGlob o ln a va y v w := by
  simp only [redAt, hl, ht]

theorem redGlob_sent (hc : o.ch ≠ 1) : redGlob o ln a va y v s = s.sendReq
    { s.writeReq ln.f a (atomHow o) (.glob va) y (.red o.fn.toNat o.sz.bytes v) with through := true, unp := o.ch == 2 } := by
  rw [redGlob, if_neg (by simpa using hc)]

theorem redGlob_comm {xl : Xl} {u : State} (hc : o.ch = 1) (hz : s.arriveAt ln.f a.loc = z) (hb : z.behind ln.f a.loc = false)
    (hr : z.resolve (.core (z.coreOf ln.f)) (z.ctxOf ln.f) va .atomic y = (.ok xl, u)) {t : State}
    (hg : commGather (u.coreOf ln.f) xl { off := xl.pa % 64, n := o.sz.bytes, fn := o.fn.toNat, val := v } u = some t) :
    redGlob o ln a va y v s = t := by
  simp only [redGlob, hc, beq_self_eq_true, if_true, hz, hb, Bool.false_eq_true, if_false, hr, hg]

end

theorem commGather_joins {c : Nat} {x : Xl} {op : Comm} {s : State} {ops : List Comm}
    (h : s.l1 c (sectorKey x.pa x.key) = some (.updateOnly ops)) :
    commGather c x op s = some (s.setL1 c (sectorKey x.pa x.key) (.updateOnly (ops ++ [op]))) := by
  simp only [commGather, h]

theorem commGather_begins {c : Nat} {x : Xl} {op : Comm} {s t : State} (h : s.l1 c (sectorKey x.pa x.key) = none)
    (hu : s.unsent c (sectorKey x.pa x.key) = false) (ha : s.allocate c (sectorKey x.pa x.key) .normal = some t) :
    commGather c x op s = some (t.setL1 c (sectorKey x.pa x.key) (.updateOnly [op])) := by
  simp only [commGather, h, flushSector_absent h, hu, Bool.false_eq_true, if_false, ha]

theorem globalReductions : GlobalReductions := by
  intro o s b l x a r va y w hv hl hA f val ht
  rw [red_released hv hA, redAt_glob (ln := s.laneOf b l) hl ht]
  refine ⟨fun hc => ?_, fun xl u hc => ?_⟩
  · exact congrArg Host.Outcome.next (redGlob_sent hc)
  · intro z hb hr c k op
    have joins {t : State} (hg : commGather c xl op u = some t) : redGlob o (s.laneOf b l) a va y val w = t :=
      redGlob_comm (ln := s.laneOf b l) hc rfl hb hr hg
    exact ⟨fun ops ho => congrArg _ (joins (commGather_joins ho)), fun t hn hu ha => congrArg _ (joins (commGather_begins hn hu ha))⟩

/-- Settles O16: each form is one read of its place or of home and the write of the new value there, or a request, or an update. -/
theorem atomicsReadModifyWrite : Obligations.AtomicsReadModifyWrite := ⟨onChipAtomics, globalAtomics, globalReductions⟩

end Sys2Proof.Claims

/-!
# O45: a request is performed at home or refused, a Clean sector leaves, and a walk refreshes the TLB (R251-R265, R404)
-/

namespace Sys2Proof.Claims
open Machine

theorem live_of_ctx? {s : State} {c : Nat} {x : Context} (hx : s.ctx? c = some x) (hc : x.cold = false) (hd : x.destroyed = false) :
    s.live c = true := by
  simp [State.live, hx, hc, hd]

/-! ### A request in flight (R263) -/

/-- What a request's translation is for (R261). -/
def opFor : HomeOp → XFor
  | .write _ => .write
  | .red .. => .atomic

section
variable {s : State} {id : Nat} {r : HomeReq} (hq : mapGet s.reqs id = some r)
include hq

theorem homeAccess_still (h : s.reqFree id r = false ∨ r.replay = true) : exec (.homeAccess id) s = .next s := by
  show execHomeAccess id s = _
  rcases h with h | h <;> simp [execHomeAccess, hq, h]

theorem homeAccess_performs (hf : s.reqFree id r = true) (hp : r.replay = false) :
    exec (.homeAccess id) s = .next (s.performReq id) := by
  show execHomeAccess id s = _
  simp [execHomeAccess, hq, hf, hp]

/-- How a request ends, from what its translation finds (R263): it stays, it is refused for good, or it is performed, which may still
have to wait for a frozen frame (R265). -/
def reqEnd (id : Nat) (r : HomeReq) (va : Nat) : Except XErr Xl × State → State
  | (.error .held, u) => u
  | (.error _, u) => (u.dropReq id).storeFault r.fib r.life r.ctx (marg r.hnd va)
  | (.ok x, u) => ((u.perform r va x).map (fun t => (t.dropReq id).afterSc r)).getD u

theorem performReq_eq {va : Nat} (hl : r.loc = .glob va) : s.performReq id =
    reqEnd id r va (s.resolve (.core r.core) r.ctx va (opFor r.op) { pa := r.pa, key := r.key, gen := r.gen }) := by
  unfold State.performReq
  simp only [hq, hl]
  cases r.op <;> dsimp only [opFor]
  all_goals
    split
    · next h => rw [h]; rfl
    · next e u he h =>
      rw [h]
      cases e with
      | held => exact absurd rfl he
      | _ => rfl
    · next x u h =>
      rw [h, reqEnd]
      split <;> next hp => rw [hp]; rfl

end

/-! ### What performing a request does -/

section
variable {u : State} {r : HomeReq} {va : Nat} {xl : Xl}

theorem perform_through {bs : List Byte} (ho : r.op = .write bs) (ht : r.through = true) : u.perform r va xl =
    if u.homeHeld r.core xl.pa xl.key true then none else some (u.cvWrite r.core xl bs) := by
  simp [State.perform, ho, ht]

theorem perform_l1 {bs : List Byte} (ho : r.op = .write bs) (ht : r.through = false)
    (hh : u.l1Held r.core xl.pa xl.key bs.length true = false) {w : State}
    (hw : u.allocate r.core (sectorKey xl.pa xl.key) r.hint = some w) :
    u.perform r va xl = some (w.l1Write r.fib r.life r.core r.ctx va (marg r.hnd va) xl bs) := by
  simp [State.perform, ho, ht, State.coreWrite, hh, hw]

theorem perform_red {fn n v : Nat} (ho : r.op = .red fn n v) : u.perform r va xl =
    if u.homeHeld r.core xl.pa xl.key true then none
    else some (u.homeAtom r.core xl n (fun old => some (atomNew fn n old v))).2 := by
  simp [State.perform, ho]

end

/-! ### A Clean sector leaves the L1 (R253) -/

theorem l1_delL1 (s : State) (c k : Nat) : (s.delL1 c k).l1 c k = none := by
  simp [State.l1, State.delL1, Core.trim]

theorem l1_delL1_ne (s : State) (c : Nat) {k j : Nat} (h : j ≠ k) : (s.delL1 c k).l1 c j = s.l1 c j := by
  simp [State.l1, State.delL1, Core.trim, mapGet_mapDel_ne _ h]

theorem sectorKey_of_key (k : Nat) : sectorKey (k / 512 * 64) (k % 512) = k := by
  rw [sectorKey]
  omega

theorem evictLine_clean {s : State} {c k : Nat} {data : List Byte} (hs : (s.core c).sectorsOf (lineOfKey k) = [k])
    (hk : s.l1 c k = some (.clean data)) : s.evictLine c (lineOfKey k) = s.delL1 c k := by
  simp [State.evictLine, hs, State.flushSector, sectorKey_of_key, hk]

section
variable {s : State} {c n key : Nat}

theorem l1Eviction_first (h : lineOfKey (n * 512 + key) ∈ s.evictable c) :
    exec (.l1Eviction c n key) s = .next (s.evictLine c (lineOfKey (n * 512 + key))) := by
  show execL1Eviction c n key s = _
  simp [execL1Eviction, sectorKey, h]

theorem l1Eviction_copy (h : lineOfKey (n * 512 + key) ∉ s.evictable c) (hk : s.l1 c (n * 512 + key) = none) :
    exec (.l1Eviction c n key) s =
      .next (s.modDie (c / 128) (fun d => { d with rcopy := mapDel d.rcopy (n * 512 + key) })) := by
  show execL1Eviction c n key s = _
  simp [execL1Eviction, sectorKey, h, hk]

end

/-! ### A table walk (R262) -/

/-- The state without a unit's TLB entries that cover an address of a context. -/
def unfilled (s : State) (u : XUnit) (c va : Nat) : State :=
  { s with tlb := s.tlb.filter (fun t => !(t.unit == u && t.ctx == c && t.va == va / 2 ^ t.size * 2 ^ t.size)) }

theorem unfilled_tlb {s : State} {u : XUnit} {c va : Nat} {e : Tlb} (h : e ∈ (unfilled s u c va).tlb) (hu : e.unit = u) (hc : e.ctx = c) :
    e.va ≠ va / 2 ^ e.size * 2 ^ e.size := by
  have := (List.mem_filter.1 h).2
  simpa [hu, hc] using this

section
variable {s : State} {u : XUnit} {c va : Nat} (hl : s.live c = true) (ha : (s.ctx c).asids ≠ [])
include hl ha

theorem tableWalk_unmapped (hw : s.walk c va = none) : exec (.tableWalk u c va) s = .next (unfilled s u c va) := by
  show execTableWalk u c va s = _
  unfold execTableWalk
  rw [if_neg (by simp [hl, ha])]
  dsimp only
  split
  · rfl
  · next h => cases hw.symm.trans h

theorem tableWalk_mapped {l : Leaf} (hw : s.walk c va = some l) :
    exec (.tableWalk u c va) s = .next ((unfilled s u c va).tlbFill (tlbOf s u c va l)) := by
  show execTableWalk u c va s = _
  unfold execTableWalk
  rw [if_neg (by simp [hl, ha])]
  dsimp only
  split
  · next h => cases hw.symm.trans h
  · next h => cases hw.symm.trans h; rfl

end

/-- Settles O45: a request ends as its translation and its frame decide; the sector, the remote copy and the TLB entry go alone. -/
theorem homeAndCachesMove : Obligations.HomeAndCachesMove := by
  refine ⟨fun s id r hq h => homeAccess_still hq h, fun s id r va hq hf hp hl => ?_, fun s c n key data hkey => ?_,
    fun s u c va x hx hc hd ha => ?_⟩
  · intro done at_
    rw [homeAccess_performs hq hf hp, performReq_eq hq hl]
    have ends {xl : Xl} {u t : State} (ht : u.perform r va xl = some t) : (.next (reqEnd id r va (.ok xl, u)) : Out) = .next (done t) := by
      rw [reqEnd, ht]
      rfl
    have waits {xl : Xl} {u : State} (ht : u.perform r va xl = none) : (.next (reqEnd id r va (.ok xl, u)) : Out) = .next u := by
      rw [reqEnd, ht]
      rfl
    refine ⟨fun bs xl u ho hr => ?_, fun fn n v xl u ho hr => ?_, fun bs e u ho hr => ?_⟩
    · rw [show opFor r.op = .write by rw [ho]; rfl, hr]
      exact ⟨fun ht hh => ends (by rw [perform_through ho ht, hh]; rfl), fun ht hh => waits (by rw [perform_through ho ht, hh]; rfl),
        fun w ht hh hw => ends (perform_l1 ho ht hh hw)⟩
    · rw [show opFor r.op = .atomic by rw [ho]; rfl, hr]
      exact ⟨fun hh => ends (by rw [perform_red ho, hh]; rfl), fun hh => waits (by rw [perform_red ho, hh]; rfl)⟩
    · rw [show opFor r.op = .write by rw [ho]; rfl, hr]
      cases e with
      | held => exact ⟨fun _ => rfl, fun he => absurd rfl he⟩
      | _ => exact ⟨nofun, fun _ => rfl⟩
  · intro k
    refine ⟨fun he hs hk => ⟨_, l1Eviction_first he, ?_⟩, l1Eviction_copy⟩
    rw [evictLine_clean hs hk]
    exact ⟨l1_delL1 .., rfl, fun j hj => l1_delL1_ne s c hj⟩
  · have hl := live_of_ctx? hx hc hd
    have ha' : (s.ctx c).asids ≠ [] := by rwa [show s.ctx c = x by simp [State.ctx, mapGetD, show mapGet s.ctxs c = some x from hx]]
    cases hw : s.walk c va with
    | none =>
      exact ⟨_, tableWalk_unmapped hl ha' hw, rfl, rfl, fun _ e he hu hc => unfilled_tlb he hu hc, fun l h => by cases h⟩
    | some l =>
      refine ⟨_, tableWalk_mapped hl ha' hw, rfl, rfl, fun h => by (cases h), fun l' h => ?_⟩
      cases h
      simp [State.tlbFill]

end Sys2Proof.Claims

/-!
# O46: Cupola makes pages resident, stores them, freezes and moves them (R264-R266)
-/

namespace Sys2Proof.Claims
open Machine

/-! ### The record of a frame -/

theorem frameOf_modFrame (s : State) (n : Nat) (g : Frame → Frame) :
    (s.modFrame n g).frameOf (n * 2 ^ 16) = g (s.frameOf (n * 2 ^ 16)) := by
  simp [State.frameOf, State.modFrame]

/-- A frame given to a context is its, under a new generation (R263, R264). -/
theorem claimFrames_one (s : State) (c n : Nat) : (s.claimFrames c [n]).frameOf (n * 2 ^ 16) =
    { s.frameOf (n * 2 ^ 16) with owner := some c, gen := (s.frameOf (n * 2 ^ 16)).gen + 1 } := by
  have hg : BitVec.ofNat 12 ((s.frameOf (n * 2 ^ 16)).gen.toNat + 1) = (s.frameOf (n * 2 ^ 16)).gen + 1 := by
    apply BitVec.eq_of_toNat_eq
    simp
  simp only [State.claimFrames, List.map_cons, List.map_nil, List.foldl_cons, List.foldl_nil, frameOf_modFrame, Nat.zero_max, hg]

/-! ### What the parts of a page's move write (R259, R263) -/

section
variable (s : State)

@[simp] theorem fillFrames_frames (key base size : Nat) (m : Memory) : (s.fillFrames key base size m).frames = s.frames := rfl
@[simp] theorem fillFrames_fibres (key base size : Nat) (m : Memory) : (s.fillFrames key base size m).fibres = s.fibres := rfl
@[simp] theorem setPte_frames (pte v : Nat) : (s.setPte pte v).frames = s.frames := rfl
@[simp] theorem setPte_fibres (pte v : Nat) : (s.setPte pte v).fibres = s.fibres := rfl
@[simp] theorem tlbDrop_frames (c va : Nat) : (s.tlbDrop c va).frames = s.frames := rfl
@[simp] theorem tlbDrop_fibres (c va : Nat) : (s.tlbDrop c va).fibres = s.fibres := rfl

end

section
variable {s : State} {c va frame : Nat} {l : Leaf} (hw : s.walk c va = some l)
include hw

/-! ### Residency (R266) -/

theorem makeResident_resident (hr : l.perms.getLsbD 2 = true) : s.makeResident c va frame = s := by
  simp [State.makeResident, hw, hr]

/-- A page made resident takes its frames; what it writes is DRAM and its leaf. -/
theorem makeResident_absent (hr : l.perms.getLsbD 2 = false)
    (hf : (List.range' frame (2 ^ (l.size - 16))).all s.frameFree = true) :
    (s.makeResident c va frame).frames = (s.claimFrames c (List.range' frame (2 ^ (l.size - 16)))).frames ∧
    (s.makeResident c va frame).fibres = (s.claimFrames c (List.range' frame (2 ^ (l.size - 16)))).fibres := by
  unfold State.makeResident
  simp only [hw, hr, hf, Bool.not_true, Bool.or_self, Bool.false_eq_true, if_false]
  simp only [tlbDrop_frames, tlbDrop_fibres, setPte_frames, setPte_fibres, fillFrames_frames, fillFrames_fibres, and_self]

/-! ### The steps of Cupola on a page of a live context -/

theorem pageEviction_absent (hr : l.perms.getLsbD 2 = false) : exec (.pageEviction c va) s = .next s := by
  show execPageEviction c va s = _
  simp only [execPageEviction, hw, hr, Bool.and_false, Bool.false_and, Bool.false_eq_true, if_false]

variable (hl : s.live c = true)
include hl

theorem pageEviction_stores (hr : l.perms.getLsbD 2 = true) (hm : s.movingAt l = none) :
    exec (.pageEviction c va) s = .next (s.storePage c va l) := by
  show execPageEviction c va s = _
  simp [execPageEviction, hw, hl, hr, hm]

theorem pageMigration_starts (hr : l.perms.getLsbD 2 = true) (hm : s.movingAt l = none) (ha : frame % 2 ^ (l.size - 16) = 0)
    (hf : ∀ i, i < 2 ^ (l.size - 16) → s.frameFree (frame + i) = true) :
    exec (.pageMigration c va frame) s = .next (s.startMove c va frame l) := by
  show execPageMigration c va frame s = _
  have hall : (List.range (2 ^ (l.size - 16))).all (fun i => s.frameFree (frame + i)) = true :=
    List.all_eq_true.2 fun i hi => hf i (List.mem_range.1 hi)
  simp only [execPageMigration, hw, hl, hr, hm, ha, hall, Bool.not_true, Bool.or_self, Bool.false_eq_true, if_false, and_self, if_true]

theorem pageMigration_moves (hr : l.perms.getLsbD 2 = true) {dest n : Nat} (hm : s.movingAt l = some (dest, n)) :
    exec (.pageMigration c va frame) s = .next (if s.frozen (State.leafFrame l * 2 ^ 16) then s.movePage c va dest l
      else s.nextRound c va dest n l) := by
  show execPageMigration c va frame s = _
  simp only [execPageMigration, hw, hl, hr, hm, Bool.not_true, Bool.or_self, Bool.false_eq_true, if_false]

end

/-- A round of a migration copies, and begins anew or freezes the frame (R265). -/
theorem nextRound_eq (s : State) (c va dest n : Nat) (l : Leaf) : s.nextRound c va dest n l =
    let v := s.copyFrames l.key (State.leafFrame l * 2 ^ 16) (dest * 2 ^ 16) l.size
    if (v.dram.nat l.pte 16).testBit 7 = true ∧ n ≤ Config.migrationRounds then v.beginRound c va dest (n + 1) l
    else v.modFrames l (fun y => { y with frozen := true }) := by
  simp [State.nextRound, bit]

/-- Settles O46: each step of Cupola on a page is one branch of its meaning, decided by `RES`, the frames and the migration's record. -/
theorem pagesMove : Obligations.PagesMove := by
  intro s c x va frame l hx hc hd hw
  have hl := live_of_ctx? hx hc hd
  have hmake : exec (.makeResident c va frame) s = .next (s.makeResident c va frame) := by
    show execMakeResident c va frame s = _
    rw [execMakeResident, if_pos hl]
  refine ⟨fun hr => ?_, fun hr hs hf => ?_, pageEviction_stores hw hl, pageEviction_absent hw,
    fun hr hm ha hf => pageMigration_starts hw hl hr hm ha hf, fun dest n hr hm => ?_⟩
  · rw [hmake, makeResident_resident hw hr]
  · have h1 : List.range' frame (2 ^ (l.size - 16)) = [frame] := by simp [hs]
    obtain ⟨hfr, hfib⟩ := makeResident_absent hw hr (frame := frame) (by simp [h1, hf])
    rw [h1] at hfr hfib
    have hrec : (s.makeResident c va frame).frameOf (frame * 2 ^ 16) = _ :=
      (congrArg (fun m => mapGetD m (frame * 2 ^ 16 / 2 ^ 16) _) hfr).trans (claimFrames_one s c frame)
    exact ⟨_, hmake, by rw [hrec], by rw [hrec], hfib⟩
  · rw [pageMigration_moves hw hl hr hm]
    refine ⟨fun hz => by rw [if_pos hz], fun hz => ?_⟩
    intro v
    rw [if_neg (ne_true_of_eq_false hz), nextRound_eq]
    refine ⟨fun h7 hn => by rw [if_pos ⟨h7, hn⟩], fun h => ?_⟩
    rw [if_neg]
    rintro ⟨h7, hn⟩
    rcases h with h | h
    · rw [h] at h7; cases h7
    · omega

end Sys2Proof.Claims

/-!
# O47: accesses at a port and storage transfers, and the checks of a peer's handle (R266, R284, R293-R295, R428-R432)
-/

namespace Sys2Proof.Claims
open Machine

/-! ### How an access at a port goes (R266, R402) -/

section
variable {s t u : State} {un : XUnit} {c va frame : Nat} {op : RmaOp} {done : List Byte → State → State} {failed : Bool → State → State}
  (hg : s.giveAsids c = some t)
include hg

theorem portStep_performed {bs : List Byte} (h : t.portAccess un c va op = (.performed bs, u)) :
    s.portStep un c va frame op done failed = (done bs u).restAsids c := by
  simp only [State.portStep, hg, h]

theorem portStep_absent (h : t.portAccess un c va op = (.absent, u)) :
    s.portStep un c va frame op done failed = s.makeResident c (s.absentPage c va (rmaLen op)) frame := by
  simp only [State.portStep, hg, h]

theorem portStep_busy (h : t.portAccess un c va op = (.busy, u)) : s.portStep un c va frame op done failed = s := by
  simp only [State.portStep, hg, h]

theorem portStep_failed {perm : Bool} (h : t.portAccess un c va op = (.failed perm, u)) :
    s.portStep un c va frame op done failed = (failed perm u).restAsids c := by
  simp only [State.portStep, hg, h]

end

/-! ### The handle that a peer's segment names (R284, R293) -/

/-- Whether an access only reads. -/
def isRead : RmaOp → Bool
  | .read _ => true
  | _ => false

theorem isRead_iff (op : RmaOp) : isRead op = true ↔ op = .read (rmaLen op) := by cases op <;> simp [isRead, rmaLen]

section
variable {s : State} {c va h : Nat} {r : RmaReq} (hf : r.far = some h) (h0 : h ≠ 0)
include hf h0

/-- The place behind a handle is found, or the code of the check of R293 that it fails. -/
theorem rmaPlace_far : s.rmaPlace c va r = (farBad { h := h, e := s.entryIn c h } (isRead r.op) va (rmaLen r.op)).elim
    (.ok ((s.entryIn c h).base + va)) (fun e => .error e.1) := by
  unfold State.rmaPlace
  simp only [hf, h0, if_false]
  cases r.op <;> dsimp only [isRead] <;> split <;> next hb => rw [hb]; rfl

end

section
variable {h off n : Nat} {e : Entry} {rd : Bool}

theorem farBad_notGlobal (hs : e.spaceOf ≠ some 1) : farBad { h := h, e := e } rd off n = some (5, h) := by
  simp [farBad, hs, ecRemote]

variable (hs : e.spaceOf = some 1)
include hs

theorem farBad_none (hm : (if rd then e.canRead else e.canWrite) = true) (hl : off + n ≤ e.len) :
    farBad { h := h, e := e } rd off n = none := by
  simp [farBad, hs, hm, not_lt.2 hl]

variable (h0 : h ≠ 0)
include h0

theorem farBad_forbidden (hm : (if rd then e.canRead else e.canWrite) = false) : farBad { h := h, e := e } rd off n = some (2, h) := by
  simp [farBad, hs, h0, hm, ecPerm]

theorem farBad_short (hm : (if rd then e.canRead else e.canWrite) = true) (hl : e.len < off + n) :
    farBad { h := h, e := e } rd off n = some (3, h) := by
  simp [farBad, hs, h0, hm, hl, ecBounds]

end

/-! ### RMA_ACCESS (R293, R294, R430, R431) -/

section
variable {s : State} {c va frame : Nat} {r : RmaReq} (hb : s.mod.boot = .running)
include hb

/-- An access of a context that there is not, or of no operation of R295 (R294). -/
theorem rmaAccess_unknown (h : rmaOk r.op = false ∨ s.ctx? c = none) : exec (.rmaAccess c va r frame) s = .next (s.portAnswer
    { storage := false, ctx := c, va := va, data := none, code := if r.far.isSome then 5 else 0 }) := by
  show execRmaAccess c va r frame s = _
  rcases h with h | h <;> simp [execRmaAccess, hb, h, ecRemote]

variable {x : Context} (hx : s.ctx? c = some x) (hc : x.cold = false) (hd : x.destroyed = false) (ho : rmaOk r.op = true)
include hx hc hd ho

theorem rmaAccess_badHandle {code : Nat} (hp : s.rmaPlace c va r = .error code) (hf : r.far.isSome = true) :
    exec (.rmaAccess c va r frame) s = .next (s.portAnswer
      { storage := false, ctx := c, va := va, data := none, code := code }) := by
  show execRmaAccess c va r frame s = _
  simp [execRmaAccess, hb, ho, hx, hd, live_of_ctx? hx hc hd, hp, hf]

/-- An access goes on at its place, by the walker of the control process or by the port's. -/
theorem rmaAccess_placed {a : Nat} (hp : s.rmaPlace c va r = .ok a) : exec (.rmaAccess c va r frame) s =
    .next (s.portStep (if r.own then .control else .port) c a frame r.op
      (fun bs u => u.portAnswer { storage := false, ctx := c, va := va, data := some bs, code := 0 })
      (fun perm u => (if r.own then u else u.logCtx c (.refusedAccess a perm)).portAnswer
        { storage := false, ctx := c, va := va, data := none, code := if r.far.isSome then (if perm then 2 else 1) else 0 })) := by
  show execRmaAccess c va r frame s = _
  simp [execRmaAccess, hb, ho, hx, hd, live_of_ctx? hx hc hd, hp, ecPerm, ecFault]

end

/-! ### STORAGE_TRANSFER (R432) -/

section
variable {s : State} {c va frame : Nat} {op : StoreReq} (hb : s.mod.boot = .running) (hl : s.live c = true)
include hb hl

theorem storageTransfer_out (ho : op.out = true) : exec (.storageTransfer c va op frame) s =
    .next (s.portStep .port c va frame (.read op.len)
      (fun bs u => (u.storeWrite op.ns op.off bs).portAnswer { storage := true, ctx := c, va := va, data := some [], code := 0 })
      (fun _ u => u.portAnswer { storage := true, ctx := c, va := va, data := none, code := 0 })) := by
  show execStorageTransfer c va op frame s = _
  simp [execStorageTransfer, hb, hl, ho]

theorem storageTransfer_in (ho : op.out = false) : exec (.storageTransfer c va op frame) s =
    .next (s.portStep .port c va frame (.write (s.storeBytes op.ns op.off op.len))
      (fun _ u => u.portAnswer { storage := true, ctx := c, va := va, data := some [], code := 0 })
      (fun _ u => u.portAnswer { storage := true, ctx := c, va := va, data := none, code := 0 })) := by
  show execStorageTransfer c va op frame s = _
  simp [execStorageTransfer, hb, hl, ho]

end

/-- Settles O47: what the page and the handle answer to an access decides its reply. -/
theorem portsAccess : Obligations.PortsAccess := by
  refine ⟨fun s c va r frame hb h => rmaAccess_unknown hb h, fun s c x va r frame h hb hx hc hd ho hf h0 => ?_,
    fun s c x va frame v hb hx hc hd hg => ⟨fun r a ho hp => ?_, fun op => ?_⟩⟩
  · intro e may answers
    have hmay : (if isRead r.op then e.canRead else e.canWrite) = may := if_congr (isRead_iff r.op) rfl rfl
    have bad {f : Nat × Nat} (hfar : farBad { h := h, e := e } (isRead r.op) va (rmaLen r.op) = some f) : answers f.1 :=
      rmaAccess_badHandle hb hx hc hd ho ((rmaPlace_far hf h0).trans (by rw [hfar]; rfl)) (by simp [hf])
    exact ⟨fun hs => bad (farBad_notGlobal hs), fun hs hm => bad (farBad_forbidden hs h0 (hmay.trans hm)),
      fun hs hm hl => bad (farBad_short hs h0 (hmay.trans hm) hl),
      fun hs hm hl => (rmaPlace_far hf h0).trans (by rw [farBad_none hs (hmay.trans hm) hl]; rfl)⟩
  · intro unit code
    rw [rmaAccess_placed hb hx hc hd ho hp]
    exact ⟨fun bs u h => congrArg _ (portStep_performed hg h), fun u h => congrArg _ (portStep_absent hg h),
      fun u h => congrArg _ (portStep_busy hg h), fun perm u h => congrArg _ (portStep_failed hg h)⟩
  · intro what
    have hl := live_of_ctx? hx hc hd
    cases hout : op.out with
    | true =>
      rw [storageTransfer_out hb hl hout, show what = .read op.len from if_pos hout]
      exact ⟨fun bs u h => congrArg _ (portStep_performed hg h), fun u h => congrArg _ (portStep_absent hg h),
        fun perm u h => congrArg _ (portStep_failed hg h)⟩
    | false =>
      rw [storageTransfer_in hb hl hout, show what = .write (s.storeBytes op.ns op.off op.len) from if_neg (ne_true_of_eq_false hout)]
      exact ⟨fun bs u h => congrArg _ (portStep_performed hg h), fun u h => congrArg _ (portStep_absent hg h),
        fun perm u h => congrArg _ (portStep_failed hg h)⟩

end Sys2Proof.Claims

/-!
# O18: the queues and TKTEST (R159, R275-R278, R296)
-/

namespace Sys2Proof.Claims
open Machine

/-! ### One fibre's change, and a lone lane that waits (R159) -/

theorem mapMod_congr {α : Type} {m : Map α} {k : Nat} {v : α} {f g : α → α} (hv : mapGet m k = some v) (h : f v = g v) :
    mapMod m k f = mapMod m k g := by
  simp only [mapMod, hv, h]

/-- A change of a fibre is known by what it does to that fibre. -/
theorem modFibre_congr {s : State} {f : Nat} {x : Fibre} {g h : Fibre → Fibre} (hx : s.fibre? f = some x) (hg : g x = h x) :
    s.modFibre f g = s.modFibre f h := by
  simp only [State.modFibre, mapMod_congr hx hg]

theorem onlyFibre_congr {s t : State} {f : Nat} {g h : Fibre → Fibre} (o : OnlyFibre s t f g)
    (hg : ∀ x, s.fibre? f = some x → g x = h x) : OnlyFibre s t f h :=
  ⟨o.this_.trans (Option.map_congr hg), o.others, o.rest⟩

theorem runChecked_lone_wait {α : Type} {s : State} {n : Need} {b : Batch} {l : Nat} {x : Fibre} (h : Lone s n b l x)
    {prep : Ln → Vals → State → Prep α} {body : Ln → Vals → α → State → State} {w : Wait}
    (hp : prep (s.laneOf b l) (s.readVals n b l) (past s b l) = .wait w) :
    runChecked n prep body s = (past s b l).waitAt (s.laneOf b l) w := by
  simp [runChecked, runBatch_lone h, hp]

/-- An instruction moves on past its slot, and leaves its queues. -/
theorem queueOf_past {s : State} {n : Need} {b : Batch} {l : Nat} {x : Fibre} (hL : Lone s n b l x) (q : Nat) :
    queueOf ((past s b l).fibre (b.fib l)) q = queueOf x q := by
  rw [State.fibre_eq _ (past_fibre? hL)]
  rfl

/-! ### LDQ over a lone lane (R275) -/

section
variable {o : ME} {s : State} {b : Batch} {l : Nat} {x : Fibre} (hL : Lone s (ldqNeed o) b l x)
include hL

theorem ldq_full (hq : 8 ≤ (queueOf x (qOf o.d)).length) :
    exec (.ldq o) s = .next ((past s b l).waitAt (s.laneOf b l) (.queueFree (qOf o.d))) := by
  refine congrArg Host.Outcome.next (runChecked_lone_wait hL ?_)
  rw [ldqPrep, State.laneOf_f, queueOf_past hL, if_pos hq]

/-- An LDQ of order `.sc` appends once every access of its fibre that precedes it has been performed (R328). -/
theorem ldq_appends {a : Acc} (hq : (queueOf x (qOf o.d)).length < 8) (hh : (past s b l).acqHeld (b.fib l) = false)
    (hc : checked o s (ldqNeed o) b l (wantRead o [1, 2, 3, 4, 5]) = .ok a) : exec (.ldq o) s = .next (
      if o.ord = .sc then
        if ((reaching s b l a).releaseActs (b.fib l) o.sc).releaseWaits (b.fib l) o.sc then
          ((reaching s b l a).releaseActs (b.fib l) o.sc).stall (s.laneOf b l)
        else appended ((reaching s b l a).releaseActs (b.fib l) o.sc) o b l a
      else appended (reaching s b l a) o b l a) :=
  congrArg Host.Outcome.next (runChecked_lone hL ((ldqPrep_free hL hq _).trans (mePrep_ok hh hc)))

end

/-! ### The read of an entry (R275, R331) -/

theorem arriveBefore_none {s : State} {f : Nat} {p : Flying → Bool} (h : (s.flying f).filter p = []) : s.arriveBefore f p = s := by
  rw [State.arriveBefore, h]
  rfl

/-- An entry at an on-chip place takes the bytes that are there (R275). -/
theorem arriveEntry_place {s : State} {f q i : Nat} {x : Fibre} {e : QEntry} {p : Place} (hx : s.fibre? f = some x)
    (he : (queueOf x q)[i]? = some e) (hf : e.at_ = .flight) (hp : s.issuedPlace f e.loc = some p) : s.arriveEntry f q i =
      let t := s.modFibre f (fun y => { y with
        queues := mapMod y.queues q (fun es => es.set i { e with at_ := .bytes (s.placeRead e.sz.bytes p) false }) })
      if e.how.ord = .acq ∨ e.how.ord = .sc then t.acquireCore (t.coreOf f) e.how.sc (some f) else t := by
  have he' : (mapGetD (s.fibre f).queues q [])[i]? = some e := by rw [State.fibre_eq _ hx]; exact he
  have hr := readNow_place (a := { loc := e.loc, pol := 0, rc := e.how.rc, code := none, hnd := e.hnd, final := 0 }) hp e.sz.bytes e.how
  simp [State.arriveEntry, he', hf, hr]

theorem queueReads : QueueReads := by
  refine ⟨fun o s b l x hL => ⟨ldq_full hL, fun a hq hh ho hc => ?_, fun a hq hh ho hc => ?_⟩, fun s f x q i e p hx hh he hf hn hp => ?_⟩
  · rw [ldq_appends hL hq hh hc, if_neg ho]
  · rw [ldq_appends hL hq hh hc, if_pos ho]
  · have hany : (s.flying f).any (fun y => decide (y.seq < e.seq) && y.block == locBlock e.loc) = false := by
      simpa [List.filter_eq_nil_iff] using hn
    intro t
    show execQueueEntryArrival f q i s = _
    simp only [execQueueEntryArrival, State.fibre_eq _ hx, he, QEntry.here, hf, hh, arriveBefore_none hn, hany,
      arriveEntry_place hx he hf hp, bne_self_eq_false, Bool.or_self, Bool.false_eq_true, if_false]
    rfl

/-! ### QPOP over a lone lane (R277) -/

section
variable {o : SY} {s : State} {b : Batch} {l : Nat} {x : Fibre} (hL : Lone s (qpopNeed o) b l x)
include hL

theorem qpop_err {e : Err} (hp : qpopPrep o (s.laneOf b l) (s.readVals (qpopNeed o) b l) (past s b l) = .err e) :
    exec (.qpop o) s = .next (raisedIn
      (if e.eff = 0x023 then (past s b l).markRaised (s.laneOf b l) (qOf o.a) else past s b l) b l e) := by
  refine congrArg Host.Outcome.next ((runBatch_lone hL _).trans ?_)
  simp only [List.foldl_cons, List.foldl_nil, hp]
  rfl

theorem qpop_wait {w : Wait} (hp : qpopPrep o (s.laneOf b l) (s.readVals (qpopNeed o) b l) (past s b l) = .wait w) :
    exec (.qpop o) s = .next ((past s b l).waitAt (s.laneOf b l) w) := by
  refine congrArg Host.Outcome.next ((runBatch_lone hL _).trans ?_)
  simp only [List.foldl_cons, List.foldl_nil, hp]

theorem qpop_pops {e : QEntry} {bs : List Byte} {fl : Bool} (he : e.at_ = .bytes bs fl)
    (hp : qpopPrep o (s.laneOf b l) (s.readVals (qpopNeed o) b l) (past s b l) = .ok e) :
    let t := ((past s b l).modFibre (b.fib l) (fun y => { y with queues := mapMod y.queues (qOf o.a) List.tail })).putD
      (s.laneOf b l) .a o.d (qpopSz o).regs (extendBytes e.sx bs)
    exec (.qpop o) s = .next (if e.nr then t.modFibre (b.fib l) (fun y => y.put .a (rP e.pr) (if fl then 1 else 0)) else t) := by
  refine congrArg Host.Outcome.next ((runBatch_lone hL _).trans ?_)
  simp only [List.foldl_cons, List.foldl_nil, hp, he]
  rfl

theorem qpopPrep_empty (v : Vals) (hq : queueOf x (qOf o.a) = []) :
    qpopPrep o (s.laneOf b l) v (past s b l) = .err (illegal b.word) := by
  simp only [qpopPrep, State.laneOf_f, queueOf_past hL, hq]
  rfl

variable (v : Vals) {e : QEntry} {es : List QEntry} (hq : queueOf x (qOf o.a) = e :: es)
include hq

theorem qpopPrep_flight (he : e.at_ = .flight) : qpopPrep o (s.laneOf b l) v (past s b l) = .wait (.queueArrive (qOf o.a)) := by
  simp [qpopPrep, queueOf_past hL, hq, QEntry.here, he]

theorem qpopPrep_otherSize (he : e.at_ ≠ .flight) (hz : e.sz ≠ qpopSz o) :
    qpopPrep o (s.laneOf b l) v (past s b l) = .err (illegal b.word) := by
  simp [qpopPrep, queueOf_past hL, hq, QEntry.here, he, hz]

variable (hz : e.sz = qpopSz o)
include hz

theorem qpopPrep_bytes {bs : List Byte} {fl : Bool} (he : e.at_ = .bytes bs fl) :
    qpopPrep o (s.laneOf b l) v (past s b l) = .ok e := by
  simp [qpopPrep, queueOf_past hL, hq, QEntry.here, he, hz]

theorem qpopPrep_fault {eff arg : Nat} {p : Option Nat} (he : e.at_ = .fault eff arg p) :
    qpopPrep o (s.laneOf b l) v (past s b l) = .err { eff := eff, arg := arg } := by
  simp [qpopPrep, queueOf_past hL, hq, QEntry.here, he, hz]

end

/-- The head entry of a queue keeps the PC of the QPOP that raises its fault (R277). -/
theorem markRaised_head {s : State} {ln : Ln} {q eff arg : Nat} {y : Fibre} {e : QEntry} {es : List QEntry} {p : Option Nat}
    (hy : s.fibre? ln.f = some y) (hq : queueOf y q = e :: es) (he : e.at_ = .fault eff arg p) : s.markRaised ln q =
      s.modFibre ln.f (fun y => { y with
        queues := mapMod y.queues q (fun _ => { e with at_ := .fault eff arg (some ln.b.pc.toNat) } :: es) }) := by
  have hg : mapGet y.queues q = some (e :: es) := by
    cases h : mapGet y.queues q with
    | none => simp [queueOf, mapGetD, h] at hq
    | some v => simpa [queueOf, mapGetD, h] using hq
  refine modFibre_congr hy ?_
  rw [mapMod_congr hg]
  simp only [he]

/-! ### QSTAT (R278) and TKTEST (R296) -/

theorem qstatWord_eq (es : List QEntry) : qstatWord es = queueWord es := by
  have hh : QEntry.here = fun e : QEntry => e.at_ != .flight := rfl
  cases es with
  | nil => rfl
  | cons e es => cases h : e.at_ <;> simp [qstatWord, queueWord, QEntry.failed, hh, h, b2n]

/-- A lane that runs an instruction passed the register limits (R81). -/
theorem limits_of_go {s : State} {n : Need} {b : Batch} {l : Nat} (h : s.fate n b l = .go) :
    n.limits (s.fibre (b.fib l)) (s.budget (b.fib l)) b.word = none := by
  cases hl : n.limits (s.fibre (b.fib l)) (s.budget (b.fib l)) b.word with
  | none => rfl
  | some e =>
    simp only [State.fate, hl] at h
    split_ifs at h

/-- In capsule mode A names a c register, and no other g register (R66, R365). -/
theorem lt_of_capMode {s : State} {n : Need} {b : Batch} {l : Nat} {x : Fibre} {j : Fin 128} (hL : Lone s n b l x) (ha : n.head.a = .g j)
    (hx : x.capMode = true) : j.val < 8 := by
  have h := limits_of_go hL.fate
  rw [State.fibre_eq _ hL.fibre, Need.limits] at h
  split at h
  next hn =>
    have ha' := List.findSome?_eq_none_iff.1 hn (n.head.a, n.na, 1) (by simp [Need.fields])
    simp only [ha, specErr, hx, if_true] at ha'
    split_ifs at ha'
    omega
  next => cases h

theorem tktest_lone {o : SY} {s : State} {b : Batch} {l r : Nat} {x : Fibre} (hL : Lone s (tktestNeed o) b l x)
    (hr : State.regOf x o.a = some r) : exec (.tktest o) s = .next (
      if decide (r < 128) && mapHas x.tok r then (past s b l).putD (s.laneOf b l) .a o.d 1 0
      else ((past s b l).acquire (b.fib l) .core).putD (s.laneOf b l) .a o.d 1 1) := by
  have hr' : State.regOf (x.passed b.pc) o.a = some r := by rw [← hr]; cases o.a <;> rfl
  refine congrArg Host.Outcome.next ((runLanes_lone hL _).trans ?_)
  simp only [State.laneOf_f, State.fibre_eq _ (past_fibre? hL), hr']
  rfl

theorem queueResults : QueueResults := by
  refine ⟨fun o s b l x hL => ⟨fun hq => ?_, fun e es hq => ⟨fun he => ?_, fun he hz => ?_, fun bs fl he hz => ?_, fun eff arg p he hz hn => ?_,
    fun arg p he hz => ?_⟩⟩, fun o s b hQ hk => ?_, fun o s b l x j hL ha => ⟨fun hc ht => ?_, fun h => ?_⟩⟩
  · exact qpop_err hL (qpopPrep_empty hL _ hq)
  · exact qpop_wait hL (qpopPrep_flight hL _ hq he)
  · exact qpop_err hL (qpopPrep_otherSize hL _ hq he hz)
  · exact qpop_pops hL he (qpopPrep_bytes hL _ hq hz he)
  · rw [qpop_err hL (qpopPrep_fault hL _ hq hz he), if_neg hn]
    rfl
  · rw [qpop_err hL (qpopPrep_fault hL _ hq hz he), if_pos rfl, markRaised_head (ln := s.laneOf b l) (past_fibre? hL) hq he]
    rfl
  · refine ⟨_, rfl, runLanes_local hQ _ (fun _ _ x => x.putD .a o.d 1 (queueWord (queueOf x (qOf o.a)))) fun ln v t _ _ _ _ _ => ?_⟩
    refine onlyFibre_congr (State.putD_only t ln .a o.d 1 _ hk) fun x hx => ?_
    rw [State.fibre_eq _ hx, qstatWord_eq]
  · rw [tktest_lone hL (r := j.val) (by simp [ha, State.regOf, hc, rG]), ht]
    simp
  · by_cases hc : x.capMode = true
    · have hr : ¬ rC j.val < 128 := by unfold rC; omega
      rw [tktest_lone hL (r := rC j.val) (by simp [ha, State.regOf, hc, lt_of_capMode hL ha hc])]
      simp [hr]
    · rw [tktest_lone hL (r := j.val) (by simp [ha, State.regOf, hc, rG]), h.resolve_left hc]
      simp

/-- Settles O18: an LDQ and the read of its entry are one change of the queue, and QPOP decides by the head entry. -/
theorem queuesFillAndPop : Obligations.QueuesFillAndPop := ⟨queueReads, queueResults⟩

end Sys2Proof.Claims

/-!
# O19: hints, residency and the ranges of WBR and INVR (R280-R282, R331, R336)

PREF may evict lines, whose write-backs home may refuse for good: `OnlyFaults` says that this changes no fibre but for its store faults, with one
lemma for each operation on the way, as `OnlyAccesses` has.
-/

namespace Sys2Proof.Claims
open Machine

/-! ### What fills of the L1 leave of the fibres (R253, R261-R263) -/

/-- A fibre without its store faults. -/
def unfaulted (x : Fibre) : Fibre := { x with sfaults := [] }

/-- From s to t no fibre has changed but for its store faults. -/
def OnlyFaults (s t : State) : Prop := ∀ f, (t.fibre? f).map unfaulted = (s.fibre? f).map unfaulted

/-- A page's `AC` and `D`, the TLB, DRAM and the caches are no part of a fibre. -/
theorem translate_fibres (s : State) (u : XUnit) (c va : Nat) (w : XFor) : (s.translate u c va w).2.fibres = s.fibres := by
  have ha (t : State) (wr : Bool) : (t.setAccessed c va wr).fibres = t.fibres := by
    unfold State.setAccessed
    split <;> rfl
  unfold State.translate
  cases s.tlbFind u c va with
  | some e => dsimp only; split; exacts [rfl, ha ..]
  | none =>
    cases s.walk c va with
    | none => rfl
    | some l => dsimp only; split; exacts [rfl, ha ..]

theorem resolve_fibres (s : State) (u : XUnit) (c va : Nat) (w : XFor) (x : Xl) : (s.resolve u c va w x).2.fibres = s.fibres := by
  have ht := translate_fibres (s.tlbDrop c va) u c va w
  unfold State.resolve
  split
  · rfl
  · split
    next e => rw [e] at ht; split <;> exact ht
    next e => rw [e] at ht; exact ht

theorem writeMasked_fibres (s : State) (die pa key : Nat) (m : BitVec 64) (data : List Byte) :
    (s.writeMasked die pa key m data).fibres = s.fibres := by
  unfold State.writeMasked
  extract_lets v base w
  have hw : w.fibres = s.fibres := by
    refine List.foldlRecOn (motive := fun u : State => u.fibres = s.fibres) _ _ (State.recallSector_homeOnly ..).fibres fun u hu i _ => ?_
    split
    · exact ((State.dramWrite_homeOnly ..).trans (State.copyUpdate_homeOnly ..)).fibres.trans hu
    · exact hu
  split <;> exact hw

theorem copyRenew_fibres (s : State) (die pa key : Nat) (bs : List Byte) : (s.copyRenew die pa key bs).fibres = s.fibres := by
  rw [State.copyRenew_frame]

theorem cleaned_fibres (s : State) (c k pa key : Nat) (bm : BitVec 64) (full acq : Bool) (data : List Byte) :
    (s.cleaned c k pa key bm full acq data).fibres = s.fibres := by
  unfold State.cleaned
  dsimp only
  split_ifs
  · exact copyRenew_fibres ..
  · rfl
  · rfl

theorem fillBytes_fibres (s : State) (die pa key : Nat) (rc : Bool) : (s.fillBytes die pa key rc).2.fibres = s.fibres := by
  have hr : (s.homeRead (pa / 64 * 64) key 64).2.fibres = s.fibres := (State.homeRead_homeOnly ..).fibres
  unfold State.fillBytes
  dsimp only
  split
  · split
    · rfl
    · exact hr
  · exact (copyRenew_fibres ..).trans hr

namespace OnlyFaults
variable {s t u : State}

theorem refl (s : State) : OnlyFaults s s := fun _ => rfl

theorem frame (h : OnlyFaults s t) (e : u.fibres = t.fibres) : OnlyFaults s u := fun f => by
  rw [State.fibre?, e]
  exact h f

theorem ite {p : Prop} {d : Decidable p} (h : OnlyFaults s t) (h' : OnlyFaults s u) : OnlyFaults s (if p then t else u) := by
  split
  · exact h
  · exact h'

theorem foldl {ι : Type} (h : OnlyFaults s t) {F : State → ι → State} {l : List ι}
    (hF : ∀ t i, OnlyFaults s t → OnlyFaults s (F t i)) : OnlyFaults s (l.foldl F t) :=
  List.foldlRecOn l F h fun t ht i _ => hF t i ht

theorem storeFault (h : OnlyFaults s t) {f life ctx arg} : OnlyFaults s (t.storeFault f life ctx arg) := by
  unfold State.storeFault
  split
  · intro g
    rw [← h g]
    by_cases hg : g = f
    · rw [hg, State.fibre?_modFibre, Option.map_map]
      rfl
    · rw [State.fibre?_modFibre_ne _ _ hg]
  · refine h.frame ?_
    unfold State.failTeam
    split <;> rfl

theorem sectorFault (h : OnlyFaults s t) {l ctx ws} : OnlyFaults s (t.sectorFault l ctx ws) := by
  have hw := h.foldl (l := ws) (F := fun s w => s.storeFault w.fib w.life ctx w.arg) fun _ _ h => h.storeFault
  unfold State.sectorFault
  dsimp only
  split
  · exact hw.ite hw.storeFault
  · exact hw

theorem resolve (h : OnlyFaults s t) {x c va w xl} : OnlyFaults s (t.resolve x c va w xl).2 := h.frame (resolve_fibres ..)

theorem writeMasked (h : OnlyFaults s t) {die pa key m data} : OnlyFaults s (t.writeMasked die pa key m data) :=
  h.frame (writeMasked_fibres ..)

theorem cleaned (h : OnlyFaults s t) {c k pa key bm full acq data} : OnlyFaults s (t.cleaned c k pa key bm full acq data) :=
  h.frame (cleaned_fibres ..)

theorem fillBytes (h : OnlyFaults s t) {die pa key rc} : OnlyFaults s (t.fillBytes die pa key rc).2 := h.frame (fillBytes_fibres ..)

theorem delL1 (h : OnlyFaults s t) {c k} : OnlyFaults s (t.delL1 c k) := h.frame rfl

/-- A write-back that home refuses for good is a store fault (R263); any other changes no fibre. -/
theorem writeBackBy (h : OnlyFaults s t) {c k keep l} : OnlyFaults s (t.writeBackBy c k keep l) := by
  unfold State.writeBackBy
  dsimp only
  split
  · split
    · exact h.cleaned.ite h.delL1
    · split
      next e => exact snd_of_eq h.resolve e
      next e => exact (snd_of_eq h.resolve e).delL1.sectorFault
      next e =>
        have hr := snd_of_eq h.resolve e
        exact hr.ite (hr.writeMasked.cleaned.ite hr.writeMasked.delL1)
  · exact h

theorem flushSector (h : OnlyFaults s t) {c pa key inval} : OnlyFaults s (t.flushSector c pa key inval) := by
  unfold State.flushSector
  dsimp only
  split
  · exact h.writeBackBy
  · exact h.ite (h.frame (State.recallSector_homeOnly ..).fibres)
  · exact ite h.delL1 h
  · exact h

theorem allocate (h : OnlyFaults s t) {c k hint} : (t.allocate c k hint).elim True (OnlyFaults s) := by
  unfold State.allocate
  dsimp only
  split
  · exact h.frame rfl
  · split
    · exact h.frame rfl
    · split
      · exact trivial
      · exact (h.foldl fun _ _ h => h.flushSector).frame rfl

/-- A read of a sector that the L1 does not hold fills it, where a line can make room (R253). -/
theorem l1Read_absent (h : OnlyFaults s t) {c pa key n rc hint} (hn : t.l1 c (sectorKey pa key) = none) :
    OnlyFaults s (t.l1Read c pa key n rc hint).2 := by
  have hf : OnlyFaults s (t.fillBytes (c / 128) pa key rc).2 := h.fillBytes
  simp only [State.l1Read, hn]
  split
  next ha => exact (of_some hf.allocate ha).frame rfl
  next => exact hf

end OnlyFaults

/-! ### PREF (R280) -/

section
variable (o : ME) (s : State) (f k : Nat) (off : Int)

theorem prefAt_onlyFaults : OnlyFaults s (prefAt o f k off s) := by
  have hs := OnlyFaults.refl s
  unfold prefAt
  split
  · exact hs
  · split
    · split
      · exact hs
      · dsimp only
        split
        · exact hs
        · split
          · exact hs.fillBytes
          · split
            next hn => exact hs.l1Read_absent hn
            next => exact hs
    · exact hs

theorem prefAt_refused {e : Err} (h : s.check f k off { spaces := [1], n := 1, align := 1, rd := true } = .error e) :
    prefAt o f k off s = s := by
  simp only [prefAt, h]

end

theorem pref_lone {o : ME} {s : State} {b : Batch} {l : Nat} {x : Fibre} (hL : Lone s (prefNeed o) b l x)
    (hh : (past s b l).acqHeld (b.fib l) = false) :
    exec (.pref o) s = .next (prefAt o (b.fib l) o.hnd.toNat (offOf o s (prefNeed o) b l) (past s b l)) := by
  refine congrArg Host.Outcome.next ((runLanes_lone hL _).trans ?_)
  rw [State.laneOf_f, hh]
  rfl

/-! ### HRES (R281) -/

/-- h0 names the whole virtual space (R88). -/
theorem entry_zero_spaceOf (s : State) (f : Nat) : (s.entry f 0).spaceOf = some 1 := by
  show (Entry.mk (entryBytes 0 0 0xB1 0) []).spaceOf = some 1
  decide

section
variable {o : ME} {s : State} {b : Batch} {l va : Nat} {x : Fibre}

theorem hresPrep_zero {ln : Ln} {v : Vals} (hh : s.acqHeld ln.f = false) (h0 : o.hnd = 0) :
    hresPrep o ln v s = .ok (eaOff o.off v.a) := by
  have hz : o.hnd.toNat = 0 := by rw [h0]; rfl
  simp only [hresPrep, eaOf, hz, hh, entry_zero_spaceOf, State.finalAddr, Bool.false_eq_true, if_false, if_true, ne_eq, not_true_eq_false,
    false_and]

theorem globLoc_small (h : va < 2 ^ 52) : globLoc (va : Nat) = .glob va := by
  rw [globLoc, if_pos ⟨Int.natCast_nonneg va, by exact_mod_cast h⟩, Int.toNat_natCast]

theorem hres_lone (hL : Lone s (hresNeed o) b l x) (hh : (past s b l).acqHeld (b.fib l) = false) (h0 : o.hnd = 0) {st : Nat} {t : State}
    (h : (past s b l).hresAt (b.fib l) (offOf o s (hresNeed o) b l) = (st, t)) :
    exec (.hres o) s = .next (t.putD (s.laneOf b l) .v o.d 1 st) := by
  rw [offOf] at h
  refine congrArg Host.Outcome.next ((runChecked_lone hL (hresPrep_zero (ln := s.laneOf b l) hh h0)).trans ?_)
  simp only [State.laneOf_f, h]

variable {f : Nat} {fin : Int} (hl : globLoc fin = .glob va)
include hl

theorem hresAt_unmapped (hr : s.residence (s.ctxOf f) va = .unmapped) : s.hresAt f fin = (2, s) := by
  simp only [State.hresAt, hl, hr]

theorem hresAt_resident (hr : s.residence (s.ctxOf f) va = .resident) : s.hresAt f fin = (1, s) := by
  simp only [State.hresAt, hl, hr]

/-- The frame that Cupola picks for a page, where it grants the request (R281, log 6). -/
def grantedFrame (s : State) (c va : Nat) : Option Nat :=
  if Config.hresRefuses s.tick then none else s.pickFrame 40 (s.leafPages c va)

theorem hresAt_refused (hr : s.residence (s.ctxOf f) va = .absent) (hg : grantedFrame s (s.ctxOf f) va = none) :
    s.hresAt f fin = (3, s) := by
  unfold grantedFrame at hg
  simp only [State.hresAt, hl, hr]
  split_ifs at hg ⊢
  · rfl
  · rw [hg]

theorem hresAt_granted (hr : s.residence (s.ctxOf f) va = .absent) {n : Nat} (hg : grantedFrame s (s.ctxOf f) va = some n) :
    s.hresAt f fin = if (s.makeResident (s.ctxOf f) va n).residence (s.ctxOf f) va = .resident
      then (0, s.makeResident (s.ctxOf f) va n) else (3, s) := by
  unfold grantedFrame at hg
  split_ifs at hg with hc
  simp only [State.hresAt, hl, hr, hc, hg, Bool.false_eq_true, if_false]
  cases (s.makeResident (s.ctxOf f) va n).residence (s.ctxOf f) va <;> simp

end

theorem hintsAndResidency : HintsAndResidency := by
  refine ⟨fun o s b l x hL hh => ⟨_, pref_lone hL hh, prefAt_onlyFaults _ _ _ _ _, fun e he => prefAt_refused _ _ _ _ _ he⟩,
    fun o s b l x va hL hh h0 hv hva => ?_⟩
  intro c
  have hl : globLoc (offOf o s (hresNeed o) b l) = .glob va := by rw [hv, globLoc_small hva]
  refine ⟨fun hr => hres_lone hL hh h0 (hresAt_unmapped hl hr), fun hr => hres_lone hL hh h0 (hresAt_resident hl hr), fun hr => ?_⟩
  show _ = Host.Outcome.next (match grantedFrame (past s b l) c va with | none => _ | some n => _)
  cases hg : grantedFrame (past s b l) c va with
  | none => exact hres_lone hL hh h0 (hresAt_refused hl hr hg)
  | some n =>
    have hx := hresAt_granted hl hr hg
    dsimp only
    split_ifs at hx ⊢ <;> exact hres_lone hL hh h0 hx

/-! ### WBR and INVR (R282) -/

section
variable {o : ME} {s : State} {ln : Ln} {v : Vals} (hh : s.acqHeld ln.f = false)
include hh

theorem rangePrep_onchip {sp : Nat} (hs : (s.entry ln.f o.hnd.toNat).spaceOf = some sp) (h1 : sp ≠ 1) (h6 : sp ≠ 6) :
    rangePrep o ln v s = .ok .onchip := by
  simp [rangePrep, eaOf, hh, hs, h1, h6]

theorem rangePrep_global (hs : (s.entry ln.f o.hnd.toNat).spaceOf = some 1)
    (hb : o.hnd = 0 ∨ (0 ≤ eaOff o.off v.a ∧ eaOff o.off v.a + wordsNat v.b ≤ (s.entry ln.f o.hnd.toNat).len)) :
    let r := inSpace (s.finalAddr ln.f o.hnd.toNat (s.entry ln.f o.hnd.toNat) 1 (eaOff o.off v.a)) (wordsNat v.b)
    rangePrep o ln v s = .ok (.range r.1 r.2) := by
  have hin : ¬(o.hnd.toNat ≠ 0 ∧ (eaOff o.off v.a < 0 ∨
      ((s.entry ln.f o.hnd.toNat).len : Int) < eaOff o.off v.a + wordsNat v.b)) := by
    rintro ⟨hn, ho⟩
    rcases hb with hb | hb
    · exact hn (by simp [hb])
    · omega
  simp only [rangePrep, eaOf, hh, hs, Bool.false_eq_true, if_false]
  rw [if_neg (by decide), if_neg (by decide)]
  exact if_neg hin

end

section
variable {o : ME} {s : State} {b : Batch} {l : Nat} {x : Fibre} (hL : Lone s (rangeNeed o) b l x)
  {act : Nat → Nat → State → State} {after : Nat → Nat → Nat → State → State}
include hL

theorem rangeRun_onchip (hp : rangePrep o (s.laneOf b l) (s.readVals (rangeNeed o) b l) (past s b l) = .ok .onchip) :
    rangeRun o act after s = (past s b l).putD (s.laneOf b l) .v o.d 1 0 := runChecked_lone hL hp

/-- On a range of addresses: the fibre's own accesses of the range come first, then every sector, and then every piece (R282, R331). -/
theorem rangeRun_range {va m : Nat}
    (hp : rangePrep o (s.laneOf b l) (s.readVals (rangeNeed o) b l) (past s b l) = .ok (.range va m)) :
    let c := (past s b l).coreOf (b.fib l)
    let q := (past s b l).arriveBefore (b.fib l) (fun y => inBlocks va m y.block)
    let pieces := q.rangePieces (q.ctxOf (b.fib l)) va m
    let ks := pieces.flatMap (fun e => q.sectorsOver c e.1 e.2)
    let t := pieces.foldl (fun s e => after c e.1 e.2 s) (ks.foldl (fun s k => act c k s) q)
    rangeRun o act after s =
      if ks.any (q.heldBack c) || (q.flying (b.fib l)).any (fun y => inBlocks va m y.block) then q.stall (s.laneOf b l)
      else if ks.any (t.unsent c) then t.stall (s.laneOf b l)
      else t.putD (s.laneOf b l) .v o.d 1 (changedSectors q t c ks) := runChecked_lone hL hp

end

theorem rangeInstructions : RangeInstructions := by
  intro o s b l x hL hh p f n
  refine ⟨fun sp hs h1 h6 => ?_, ?_⟩
  · have hp := rangePrep_onchip (ln := s.laneOf b l) (v := s.readVals (rangeNeed o) b l) hh hs h1 h6
    exact ⟨congrArg Host.Outcome.next (rangeRun_onchip hL hp), congrArg Host.Outcome.next (rangeRun_onchip hL hp)⟩
  · intro e off fin hs hb c va m q pieces ks waits
    have hp := rangePrep_global (ln := s.laneOf b l) (v := s.readVals (rangeNeed o) b l) hh hs hb
    have hrun (act : Nat → Nat → State → State) (after : Nat → Nat → Nat → State → State) :=
      rangeRun_range hL (act := act) (after := after) hp
    have hw : waits ↔ (ks.any (q.heldBack c) || (q.flying f).any (fun y => inBlocks va m y.block)) = true := by
      simp [waits]
    have stalls (h : waits) (act : Nat → Nat → State → State) (after : Nat → Nat → Nat → State → State) :
        Host.Outcome.next (rangeRun o act after s) = (.next (q.stall (s.laneOf b l)) : Out) :=
      congrArg _ ((hrun act after).trans (if_pos (hw.1 h)))
    have counts (h : ¬waits) (act : Nat → Nat → State → State) (after : Nat → Nat → Nat → State → State) {t : State}
        (ht : t = pieces.foldl (fun s e => after c e.1 e.2 s) (ks.foldl (fun s k => act c k s) q)) (hu : ∀ k ∈ ks, t.unsent c k = false) :
        Host.Outcome.next (rangeRun o act after s) =
          (.next (t.putD (s.laneOf b l) .v o.d 1 (ks.filter (fun k => q.l1 c k != t.l1 c k)).length) : Out) := by
      subst ht
      refine congrArg _ ((hrun act after).trans ((if_neg (h ∘ hw.2)).trans (if_neg fun hany => ?_)))
      obtain ⟨k, hk, hk'⟩ := List.any_eq_true.1 hany
      cases (hu k hk).symm.trans hk'
    refine ⟨fun h => ⟨stalls h _ _, stalls h _ _⟩, fun t h ht hu => counts h _ _ ?_ hu, fun t h ht hu => counts h _ _ ht hu⟩
    rw [ht]
    exact (List.foldl_fixed ..).symm

/-- Settles O19: PREF may only evict, HRES asks Cupola, and a range instruction passes over the sectors of its range. -/
theorem hintsAndRanges : Obligations.HintsAndRanges := ⟨hintsAndResidency, rangeInstructions⟩

end Sys2Proof.Claims

/-!
# O24: the segments of copy and network commands (R285-R294)

A segment changes nothing of its command but what the command has read ahead (`OnlyGot`), so the step of the last one is known from what the
segment did (`segStep_lastRun`). Where a run lies is said once for each kind of copy (`cmdRun_…`); a run that no other of its command's bytes
meets is read and then written whole (`doSegment_run`).
-/

namespace Sys2Proof.Claims
open Machine

/-! ### What a segment leaves of its command (R286, R288) -/

/-- Of a command nothing but the bytes that it has read has changed. -/
def OnlyGot (c e : Cmd) : Prop := e = { c with got := e.got }

theorem OnlyGot.refl (c : Cmd) : OnlyGot c c := rfl

theorem OnlyGot.trans {c d e : Cmd} (h : OnlyGot c d) (h' : OnlyGot d e) : OnlyGot c e := by
  rw [OnlyGot, h', h]

theorem OnlyGot.left {c e : Cmd} (h : OnlyGot c e) : e.left = c.left := by rw [h]
theorem OnlyGot.fix {c e : Cmd} (h : OnlyGot c e) : e.fix = c.fix := by rw [h]
theorem OnlyGot.rel {c e : Cmd} (h : OnlyGot c e) : e.rel = c.rel := by rw [h]

theorem readAhead_onlyGot (s : State) (c : Cmd) (ps : List Nat) : OnlyGot c (s.readAhead c ps).1 := by
  induction ps generalizing s c with
  | nil => exact .refl c
  | cons p ps ih =>
    unfold State.readAhead
    split
    · exact ih s c
    · split
      · exact ih s c
      · split
        · exact OnlyGot.trans (d := { c with got := _ }) rfl (ih ..)
        · exact ih ..

theorem doSegment_onlyGot (s : State) (c : Cmd) (rs : List (Nat × Nat)) : OnlyGot c (s.doSegment c rs).2.1 := by
  unfold State.doSegment
  split
  · exact .refl c
  · split
    · exact .refl c
    · exact readAhead_onlyGot ..

theorem doReduce_onlyGot (s : State) (c : Cmd) (p op ty : Nat) : OnlyGot c (s.doReduce c p op ty).2.1 := by
  unfold State.doReduce
  dsimp only
  split
  · exact .refl c
  · exact .refl c
  · exact .refl c
  · split
    · split
      · split <;> exact .refl c
      · split
        · exact .refl c
        · exact readAhead_onlyGot ..
    · exact .refl c

theorem nearSegment_onlyGot (s : State) (frame : Nat) (c : Cmd) (rs : List (Nat × Nat)) :
    OnlyGot c (s.nearSegment frame c rs).2.1 := by
  unfold State.nearSegment
  dsimp only
  split
  · exact .refl c
  · split
    · split
      · split <;> exact .refl c
      · split
        · exact doReduce_onlyGot ..
        · exact doSegment_onlyGot ..
    · exact .refl c

/-- A segment in another package changes nothing of its command itself. -/
theorem farSegment_cmd (s : State) (reply : NetReply) (c : Cmd) (rs : List (Nat × Nat)) : (s.farSegment reply c rs).2.1 = c := by
  unfold State.farSegment
  dsimp only
  split
  · rfl
  · cases reply with
    | performed data => dsimp only; split <;> split <;> rfl
    | _ => rfl

/-! ### The step of a command with one segment left (R286) -/

/-- The command after the step of a segment that was cut: the rest, and what the segment did (R286). -/
def stepped (c : Cmd) (now rest : List (Nat × Nat)) (e : Cmd) : Did → Cmd
  | .busy => c
  | .absent => { inHand c rest with fix := [now] }
  | d => took e d

theorem after_eq_took (c : Cmd) (d : Did) : c.after d = took c d := by cases d <;> rfl

theorem restAt_single (seg rest : List (Nat × Nat)) : restAt [seg] 0 rest = if rest = [] then [] else [rest] := by
  cases rest <;> rfl

section
variable {s : State} {id : Nat} {c : Cmd} {seg : List (Nat × Nat)} (h : LastRun s id c seg)
include h

theorem pickRun_lastRun : s.pickRun c = 0 := by
  unfold State.pickRun
  split
  · rfl
  · simp [h.left]

theorem scatBehind_lastRun (e : Cmd) (he : e.fix = c.fix) (p : Nat) : s.scatBehind e p = false := by
  unfold State.scatBehind
  split
  · simp [he, h.fix]
  · rfl

theorem startCmd_lastRun : s.startCmd c = (c, s) := if_pos h.begun

theorem segStep_lastRun {act : SegAct} {now rest : List (Nat × Nat)} {d : Did} {e : Cmd} {u : State}
    (hcut : s.cutSeg c seg = (now, rest)) (hact : act (inHand c rest) now s = (d, e, u)) :
    s.segStep act c = (stepped c now rest e d, u) := by
  have hrest : restAt c.left (s.pickRun c) rest = if rest = [] then [] else [rest] := by
    rw [pickRun_lastRun h, h.left, restAt_single]
  have hact : act { c with left := if rest = [] then [] else [rest] } now s = (d, e, u) := hact
  have hseg : c.left[s.pickRun c]? = some seg := by rw [pickRun_lastRun h, h.left]; rfl
  have hfix : c.fix ++ [now] = [now] := by rw [h.fix]; rfl
  unfold State.segStep
  rw [if_pos ⟨h.room, by simp [h.left]⟩]
  simp only [hseg, hcut, hrest, scatBehind_lastRun h _ rfl, hact, hfix, Bool.false_eq_true, if_false]
  cases d with
  | wrote | failed => exact congrArg (·, u) (after_eq_took ..)
  | absent | busy => rfl

theorem copySegment_stepped (hm : (s.team c.team).halted = false) (hk : isCopy c.kind = true) {now rest : List (Nat × Nat)} {d : Did}
    {e : Cmd} {u : State} (hcut : s.cutSeg c seg = (now, rest)) (hdo : s.doSegment (inHand c rest) now = (d, e, u)) :
    exec (.copySegment id) s = .next (
      let c' := stepped c now rest e d
      if c'.left.isEmpty && c'.fix.isEmpty then u.finishCopy id c' else u.setCmd id c') := by
  show execCopySegment id s = _
  simp only [execCopySegment, h.here, hk, State.cmdHeld, hm, startCmd_lastRun h,
    segStep_lastRun h (act := fun c rs s => s.doSegment c rs) hcut hdo, Bool.not_true, Bool.or_self, Bool.false_eq_true, if_false]

end

@[simp] theorem took_left (c : Cmd) (d : Did) : (took c d).left = c.left := by cases d <;> rfl
@[simp] theorem took_fix (c : Cmd) (d : Did) : (took c d).fix = c.fix := by cases d <;> rfl
@[simp] theorem took_rel (c : Cmd) (d : Did) : (took c d).rel = c.rel := by cases d <;> rfl
@[simp] theorem took_follow (c : Cmd) (d : Did) : (took c d).follow = c.follow := by cases d <;> rfl
@[simp] theorem took_team (c : Cmd) (d : Did) : (took c d).team = c.team := by cases d <;> rfl
@[simp] theorem took_fib (c : Cmd) (d : Did) : (took c d).fib = c.fib := by cases d <;> rfl

theorem stepped_performed {c e : Cmd} {now rest : List (Nat × Nat)} {d : Did} (hb : d ≠ .busy) (ha : d ≠ .absent) :
    stepped c now rest e d = took e d := by
  cases d with
  | busy => exact absurd rfl hb
  | absent => exact absurd rfl ha
  | _ => rfl

/-! ### The end of a copy command (R285, R287, R292) -/

section
variable {s : State} {id : Nat} {c : Cmd} (hr : c.rel = false)
include hr

theorem finishCopy_waits {n : Nat} (hf : c.follow = some n) (he : c.errs = []) (hn : s.fire c.team n = none) :
    s.finishCopy id c = s.setCmd id c := by
  simp only [State.finishCopy, State.cmdRelease, State.relWaits, hr, hf, he, hn, Bool.false_and, Bool.false_eq_true, if_false,
    List.isEmpty_nil, if_true]

theorem finishCopy_handsOver {n : Nat} {es : List Nat} {v : State} (hf : c.follow = some n) (he : c.errs = [])
    (hn : s.fire c.team n = some (es, v)) : s.finishCopy id c = v.endCmd id { c with errs := es, wrote := v.cmdWrites c } := by
  simp only [State.finishCopy, State.cmdRelease, State.relWaits, hr, hf, he, hn, Bool.false_and, Bool.false_eq_true, if_false,
    List.isEmpty_nil, if_true, List.nil_append]

theorem finishCopy_ends (hf : c.follow = none ∨ c.errs ≠ []) : s.finishCopy id c = s.endCmd id { c with wrote := s.cmdWrites c } := by
  have hn : (if c.errs.isEmpty then c.follow else none) = none := by
    rcases hf with hf | hf
    · simp [hf]
    · rw [if_neg (by simpa using hf)]
  simp only [State.finishCopy, State.cmdRelease, State.relWaits, hr, hn, Bool.false_and, Bool.false_eq_true, if_false]

end

theorem mapGet_endCmd (s : State) (id : Nat) (c : Cmd) : mapGet (s.endCmd id c).cmds id = none := by
  have hc : ∀ t : State, ∀ f r g, (t.tokClose f r g).cmds = t.cmds := fun t f r g => by
    unfold State.tokClose
    dsimp only
    split
    · rfl
    · split
      · rfl
      · split_ifs <;> rfl
  rw [State.endCmd, hc]
  exact mapGet_mapDel_same ..

/-- The value that the device writes into a register is its newest (R156). -/
theorem latest_force (x : Fibre) {r : Nat} (hr : r ≠ 128) (v : Word) : (x.force r v).latest r = v := by
  have hw : (x.pend.filter (fun w => w.reg != r)).filter (fun w => w.reg == r && w.load.isNone) = [] := by
    refine List.filter_eq_nil_iff.2 fun w hw => ?_
    have hne : w.reg ≠ r := by simpa using (List.mem_filter.1 hw).2
    simp [hne]
  simp [Fibre.latest, Fibre.cands, Fibre.fixedWrites, Fibre.force, hr, hw]

/-- A token whose last command is over is no longer pending, and its register takes the one value that its epoch may write (R285). -/
theorem tokClose_last {s : State} {f r : Nat} {x : Fibre} {k : Tok} (hx : s.fibre? f = some x) (hr : r < 128) (hk : mapGet x.tok r = some k)
    {g : Tok → Tok} (h0 : (g { k with count := k.count - 1 }).count = 0) :
    ((s.tokClose f (some r) g).fibre f).tokPending r = false ∧
    ∀ v, tokValues (g { k with count := k.count - 1 }) = [v] → ((s.tokClose f (some r) g).fibre f).latest r = BitVec.ofNat 32 v := by
  have hforce := latest_force x (r := rG r) (show r ≠ 128 by omega)
  simp only [State.tokClose, s.fibre_eq hx, hk, h0, ne_eq, not_true_eq_false, if_false, State.fibre_modFibre s _ hx]
  constructor
  · split <;> simp [Fibre.tokPending, mapHas]
  · intro v hv
    rw [hv]
    split <;> exact hforce _

/-- The end of the one command that held a token open (R285). -/
theorem endCmd_lastOf {s : State} {c : Cmd} {r : Nat} {x : Fibre} {k : Tok} (h : LastOf s c r x k) (id : Nat) (w : List (Nat × Nat)) :
    ((s.endCmd id { c with wrote := w }).fibre c.fib).tokPending r = false ∧
    (c.errs = [] → ((s.endCmd id { c with wrote := w }).fibre c.fib).latest r =
      BitVec.ofNat 32 ((if k.nrz || c.nrz then 2 ^ 30 else 0) + (k.bytes + c.bytes) % 2 ^ 30)) ∧
    ∀ e, c.errs = [e] → ((s.endCmd id { c with wrote := w }).fibre c.fib).latest r = BitVec.ofNat 32 e := by
  obtain ⟨hl, he⟩ := h.alone
  simp only [State.endCmd, h.tok]
  obtain ⟨hp, hv⟩ := tokClose_last (s := { s with cmds := mapDel s.cmds id }) h.fibre h.small h.open_
    (g := fun t => { t with engine := true, nrz := t.nrz || c.nrz, errs := t.errs ++ c.errs, bytes := t.bytes + c.bytes, wrote := t.wrote ++ w })
    (by simp [h.one])
  refine ⟨hp, fun hc => hv _ ?_, fun e hc => hv _ ?_⟩
  · simp [tokValues, engineValue, hl, he, hc]
  · simp [tokValues, hl, he, hc]

theorem copySegmentsRun : CopySegmentsRun := by
  intro s id c seg now rest d e u h hm hk hcut hdo c'
  have hgot : OnlyGot (inHand c rest) e := by
    have := doSegment_onlyGot s (inHand c rest) now
    rwa [hdo] at this
  have hleft : c'.left = if rest = [] then [] else [rest] := (took_left ..).trans hgot.left
  have hfix : c'.fix = [] := (took_fix ..).trans (hgot.fix.trans h.fix)
  have hrel : c'.rel = c.rel := (took_rel ..).trans hgot.rel
  have hfollow : c'.follow = c.follow := (took_follow ..).trans (by rw [hgot]; rfl)
  have hteam : c'.team = c.team := (took_team ..).trans (by rw [hgot]; rfl)
  have hfib : c'.fib = c.fib := (took_fib ..).trans (by rw [hgot]; rfl)
  have hx := copySegment_stepped h hm hk hcut hdo
  have hperf (hb : d ≠ .busy) (ha : d ≠ .absent) : stepped c now rest e d = c' := stepped_performed hb ha
  have hlast (hr : rest = []) (hb : d ≠ .busy) (ha : d ≠ .absent) : exec (.copySegment id) s = .next (u.finishCopy id c') := by
    rw [hx, hperf hb ha]
    simp [hleft, hfix, hr]
  refine ⟨?_, ?_, fun hr hb ha => ?_, fun n hr hb ha hl hf he => ?_, fun hr hb ha hl hf => ?_⟩
  · rintro rfl
    rw [hx]
    simp [stepped, h.left]
  · rintro rfl
    rw [hx]
    simp [stepped]
  · rw [hx, hperf hb ha]
    simp [hleft, hr]
  · rw [hlast hr hb ha]
    rcases hn : u.fire c.team n with - | ⟨es, v⟩
    · exact congrArg _ (finishCopy_waits (hrel.trans hl) (hfollow.trans hf) he (by rwa [hteam]))
    · exact congrArg _ (finishCopy_handsOver (hrel.trans hl) (hfollow.trans hf) he (by rwa [hteam]))
  · rw [hlast hr hb ha, finishCopy_ends (hrel.trans hl) (by rwa [hfollow])]
    refine ⟨_, rfl, rfl, mapGet_endCmd .., fun r x tok ht => ?_⟩
    rw [← hfib]
    exact endCmd_lastOf ht id _

/-! ### Bytes that nothing else of the command meets (R220, R286, R288) -/

theorem withGot_nil {c : Cmd} (h : c.got = []) (p : Nat) (bs : List Byte) : c.withGot p bs = bs := by
  simp [Cmd.withGot, h, List.zipIdx_map_fst]

theorem lowNine_zero (bs : List Byte) : lowNine 0 bs = bs.zipIdx.map (fun x => if x.2 % 2 = 1 then x.1 &&& 1 else x.1) := by
  simp only [lowNine, Nat.zero_add]

/-- The first n bytes of a side from an offset are none that runs of the command read. -/
def Apart (s : State) (c : Cmd) (d : Side × Int) (n : Nat) (rs : List (Nat × Nat)) : Prop :=
  ∀ q, q < n → ∀ pl, s.sidePlace c.fib d.1 (d.2 + (q : Nat)) = some pl → readersOf (s.sourcePlaces c rs) pl = []

section
variable {s : State} {c : Cmd} {d : Side × Int}

theorem aheadOf_apart {n : Nat} (h : c.mayMeet d.1 = false ∨ Apart s c d n (c.left.flatten ++ c.fix.flatten)) :
    s.aheadOf c d n = [] := by
  unfold State.aheadOf
  rcases h with h | h
  · simp [h]
  · split
    · rfl
    · refine List.flatMap_eq_nil_iff.2 fun q hq => ?_
      cases hp : s.sidePlace c.fib d.1 (d.2 + (q : Nat)) with
      | none => rfl
      | some pl => exact h q (List.mem_range.1 hq) pl hp

theorem overlapped_apart {bs : List Byte} (h : c.mayMeet d.1 = false ∨ Apart s c d bs.length (s.cmdRuns c).flatten) :
    s.overlapped c d bs = bs := by
  unfold State.overlapped
  rcases h with h | h
  · simp [h]
  · split
    · rfl
    · refine (List.map_congr_left fun e he => ?_).trans (List.zipIdx_map_fst 0 bs)
      have hq : e.2 < bs.length := by simpa using List.snd_lt_add_of_mem_zipIdx he
      cases hp : s.sidePlace c.fib d.1 (d.2 + e.2) with
      | none => rfl
      | some pl => simp [h e.2 hq pl hp]

end

/-! ### A segment of one run (R286) -/

section
variable {s u v : State} {c : Cmd} {p n : Nat} {bs : List Byte}

theorem readRuns_zeros (h : (s.cmdRun c p).src = none) :
    s.readRuns c [(p, n)] [] false = (.ok ([List.replicate n 0], false), s) := by
  simp [State.readRuns, h]

theorem readRuns_read {x : Side} {off : Int} (hgot : c.got = []) (h : (s.cmdRun c p).src = some (x, off))
    (hr : s.engRead c x off n = (.ok bs, u)) :
    s.readRuns c [(p, n)] [] false = (.ok ([(s.cmdRun c p).low.elim bs (lowNine · bs)], false), u) := by
  cases hl : (s.cmdRun c p).low <;> simp [State.readRuns, h, hr, hl, withGot_nil hgot]

/-- A run that the command's own source does not meet is read, and then written. -/
theorem doSegment_run {d : Side × Int} (hbad : (s.cmdRun c p).bad = none)
    (hread : s.readRuns c [(p, n)] [] false = (.ok ([bs], false), u)) (hdst : (u.cmdRun c p).dst = d)
    (hclear : c.mayMeet d.1 = false ∨
      (Apart u c d bs.length (u.cmdRuns c).flatten ∧ Apart u c d n (c.left.flatten ++ c.fix.flatten)))
    (hw : u.engWrite c d.1 d.2 bs = (.ok (), v)) : s.doSegment c [(p, n)] = (.wrote bs.length false, c, v) := by
  have hahead : u.aheadOf c d n = [] := aheadOf_apart (hclear.imp_right (·.2))
  have hover : u.overlapped c d bs = bs := overlapped_apart (hclear.imp_right (·.1))
  simp [State.doSegment, hbad, hread, hdst, hahead, State.readAhead, State.writeRuns, hover, hw]

/-- A run that lies outside what its index may name is not performed (R291). -/
theorem doSegment_bad {e : Nat × Nat} (hbad : (s.cmdRun c p).bad = some e) :
    s.doSegment c [(p, n)] = (.failed (errVal e.1 e.2), c, s) := by
  simp [State.doSegment, hbad]

theorem engWrite_place {d : Side} {off : Int} {pl : Place} (h : s.place c.fib (s.sideLoc c.fib d off) = some pl) :
    s.engWrite c d off bs = (.ok (), s.placeWrite bs pl) := by
  unfold State.engWrite
  split
  · next hl => rw [hl] at h; cases h
  · simp only [h]

/-- What is written on the chip reads back (R246, R247). -/
theorem placeRead_engWrite {d : Side} {off : Int} (hw : u.engWrite c d off bs = (.ok (), v)) {pl : Place}
    (h : u.place c.fib (u.sideLoc c.fib d off) = some pl) :
    (∀ k o, pl = .scratch k o → Memory.wf (u.core k).scratch = true → v.placeRead bs.length pl = bs) ∧
    (∀ k o, pl = .tundish k o → Memory.wf (u.die k).tundish = true → v.placeRead bs.length pl = bs) := by
  obtain rfl : u.placeWrite bs pl = v := (Prod.mk.inj ((engWrite_place h).symm.trans hw)).2
  have hpl := placeWrite_writesAt u pl bs
  constructor <;> rintro k o rfl hwf
  · exact (hpl.scratch k o rfl).1 hwf
  · exact (hpl.tundish k o rfl).1 hwf

end

section
variable {s : State} {c : Cmd} {p n : Nat} {r : State → Run} {dst : State → Side × Int} (hrun : ∀ u : State, u.cmdRun c p = r u)
  (hbad : (r s).bad = none) (hdst : ∀ u, (r u).dst = dst u)
include hrun hbad hdst

theorem movesBytes_read {x : Side} {off : Int} {g : List Byte → List Byte} (hgot : c.got = []) (hsrc : (r s).src = some (x, off))
    (hg : ∀ bs, (r s).low.elim bs (lowNine · bs) = g bs) : MovesBytes s c p n (some (x, off)) dst g := by
  simp only [← hrun] at hbad hdst hsrc hg
  intro bs u v hr clear hc hw
  have hread := readRuns_read hgot hsrc hr
  rw [hg] at hread
  exact ⟨doSegment_run hbad hread (hdst u) (hc.imp_right fun ⟨h, h'⟩ => ⟨fun q hq => h q (.inr hq), fun q hq => h' q (.inl hq)⟩) hw,
    fun pl hp => placeRead_engWrite hw hp⟩

theorem movesBytes_zeros (hsrc : (r s).src = none) : MovesBytes s c p n none dst id := by
  simp only [← hrun] at hbad hdst hsrc
  rintro bs u v ⟨rfl, rfl⟩ clear hc hw
  exact ⟨doSegment_run hbad (readRuns_zeros hsrc) (hdst u)
    (hc.imp_right fun ⟨h, h'⟩ => ⟨fun q hq => h q (.inr hq), fun q hq => h' q (.inl hq)⟩) hw,
    fun pl hp => placeRead_engWrite hw hp⟩

end

/-! ### Where a run of each kind of copy lies (R289-R291) -/

section
variable {c : Cmd} {p : Nat} (u : State)

theorem cmdRun_cpy_read {a b m k : Nat} (hk : c.kind = .cpy a b m k) (hp : p < k) :
    u.cmdRun c p = Run.mk (some (c.x, (a + p : Nat))) (c.y, (b + p : Nat)) (k - p) none none := by
  simp only [State.cmdRun, hk, if_pos hp]

theorem cmdRun_cpy_zeros {a b m k : Nat} (hk : c.kind = .cpy a b m k) (hp : k ≤ p) :
    u.cmdRun c p = Run.mk none (c.y, (b + p : Nat)) (m - p) none none := by
  simp only [State.cmdRun, hk, if_neg (not_lt.2 hp)]

section
variable {org dst ext : List Nat} {scl : Bool} (hk : c.kind = .cpyt org dst ext scl)
include hk

theorem cmdRun_cpyt_element (hp : p < ext.foldl (· * ·) 1 * c.x.e.elem) : u.cmdRun c p =
    Run.mk (some (c.x, (tensorOff c.x.e (addLists org (boxIndex ext (p / c.x.e.elem))) + p % c.x.e.elem : Nat)))
      (c.y, (tensorOff c.y.e (addLists dst (boxIndex ext (p / c.x.e.elem))) + p % c.x.e.elem : Nat))
      (c.x.e.elem - p % c.x.e.elem) none none := by
  simp only [State.cmdRun, hk, if_pos hp]

theorem cmdRun_cpyt_scale {q : Nat} (hp : ext.foldl (· * ·) 1 * c.x.e.elem ≤ p)
    (hq : (p - ext.foldl (· * ·) 1 * c.x.e.elem) / 2 = q) (h0 : (p - ext.foldl (· * ·) 1 * c.x.e.elem) % 2 = 0) : u.cmdRun c p =
    Run.mk (some (c.xs, (scaleOff c.x.e (addLists org (boxIndex ext (q * 32))) : Nat)))
      (c.ys, (scaleOff c.y.e (addLists dst (boxIndex ext (q * 32))) : Nat)) 2 none (some 0) := by
  simp only [State.cmdRun, hk, if_neg (not_lt.2 hp), hq, h0]
  rfl

end

theorem cmdRun_gath {b a m sz : Nat} (hk : c.kind = .gath b a m sz) : u.cmdRun c p =
    Run.mk (some (c.x, (u.listIndex c a (p / sz) * sz + p % sz : Nat))) (c.y, (b + p : Nat)) (sz - p % sz)
      (if u.indexBad c c.x (u.listIndex c a (p / sz) * sz) sz then some (ecBounds, c.hx) else none) none := by
  simp only [State.cmdRun, hk]

theorem cmdRun_scat {b a m sz : Nat} (hk : c.kind = .scat b a m sz) : u.cmdRun c p =
    Run.mk (some (c.x, (b + p : Nat))) (c.y, (u.listIndex c a (p / sz) * sz + p % sz : Nat)) (sz - p % sz)
      (if u.indexBad c c.y (u.listIndex c a (p / sz) * sz) sz then some (ecBounds, c.hy) else none) none := by
  simp only [State.cmdRun, hk]

end

theorem segmentsMoveBytes : SegmentsMoveBytes := by
  intro s c p n hgot hn
  refine ⟨fun a b m k hk => ⟨fun hp => ?_, fun hp _ => ?_⟩, fun org dst ext scl hk => ?_, fun b a m sz hk _ _ => ?_,
    fun b a m sz hk _ _ => ?_⟩
  · exact movesBytes_read (cmdRun_cpy_read · hk (by omega)) rfl (fun _ => rfl) hgot rfl fun _ => rfl
  · exact movesBytes_zeros (cmdRun_cpy_zeros · hk hp) rfl (fun _ => rfl) rfl
  · refine ⟨fun hp _ => movesBytes_read (cmdRun_cpyt_element · hk hp) rfl (fun _ => rfl) hgot rfl fun _ => rfl, fun hp h0 _ => ?_⟩
    exact movesBytes_read (cmdRun_cpyt_scale · hk hp rfl h0) rfl (fun _ => rfl) hgot rfl lowNine_zero
  · refine ⟨fun hb => doSegment_bad (e := (ecBounds, c.hx)) ?_, fun hb => ?_⟩
    · rw [cmdRun_gath s hk, if_pos hb]
    · exact movesBytes_read (cmdRun_gath · hk) (if_neg (ne_true_of_eq_false hb)) (fun _ => rfl) hgot rfl fun _ => rfl
  · refine ⟨fun hb => doSegment_bad (e := (ecBounds, c.hy)) ?_, fun hb => ?_⟩
    · rw [cmdRun_scat s hk, if_pos hb]
    · exact movesBytes_read (cmdRun_scat · hk) (if_neg (ne_true_of_eq_false hb)) (fun _ => rfl) hgot rfl fun _ => rfl

/-! ### FIXUP_SERVICE (R286) -/

theorem fixPage_absent {s : State} {c : Cmd} {d : Side} {off : Int} {va : Nat} (hl : s.sideLoc c.fib d off = .glob va)
    (hr : s.residence (s.ctxOf c.fib) va = .absent) (frame : Nat) :
    s.fixPage c d off frame = s.makeResident (s.ctxOf c.fib) va frame := by
  simp only [State.fixPage, hl, hr]

theorem fixupMakesResident : FixupMakesResident := by
  intro s id frame c d ds es va hc hs hl hr hes
  show execFixupService id frame s = _
  simp only [execFixupService, hc, hs]
  rw [show List.find? _ (es ++ d :: ds) = some d from
    List.find?_eq_some_iff_append.2 ⟨by simp [hl, hr], es, ds, rfl, fun e he => ?_⟩]
  · exact congrArg _ (fixPage_absent hl hr frame)
  · cases hv : s.sideLoc c.fib e.1 e.2 with
    | glob v => simpa using hes e he v hv
    | _ => rfl

/-! ### The last segment of a network command (R293, R294) -/

/-- Which segments are left does not decide where a run lies. -/
theorem cmdRun_inHand (s : State) (c : Cmd) (rest : List (Nat × Nat)) (p : Nat) : s.cmdRun (inHand c rest) p = s.cmdRun c p := rfl

/-- A segment within one block of each side is taken whole (R286). -/
theorem cutSeg_whole {s : State} {c : Cmd} {p n : Nat} (h : n ≤ s.segLen c (s.cmdRun c p) n) :
    s.cutSeg c [(p, n)] = ([(p, n)], []) := if_neg (not_lt.2 h)

section
variable {s : State} {id : Nat} {c : Cmd} {seg : List (Nat × Nat)}

/-- After its last segment a network command without L ends, or keeps the segment, or tries it again. -/
theorem networkSegment_lastSegment (h : LastRun s id c seg) (hk : isNet c.kind = true) (hl : c.rel = false)
    (hcut : s.cutSeg c seg = (seg, [])) (reply : NetReply) (frame : Nat) : exec (.networkSegment id reply frame) s = .next (
      if cmdPkg c.kind = Config.pkgNumber % 16384 then lastSegment id c seg (s.nearSegment frame (inHand c []) seg)
      else lastSegment id c seg (s.farSegment reply (inHand c []) seg)) := by
  rw [← apply_ite (lastSegment id c seg)]
  generalize hact : (if cmdPkg c.kind = Config.pkgNumber % 16384 then s.nearSegment frame (inHand c []) seg
    else s.farSegment reply (inHand c []) seg) = r
  obtain ⟨d, e, u⟩ := r
  have hgot : OnlyGot (inHand c []) e := by
    split at hact
    · have := nearSegment_onlyGot s frame (inHand c []) seg
      rwa [hact] at this
    · have := farSegment_cmd s reply (inHand c []) seg
      rw [hact] at this
      rw [show e = _ from this]
      exact .refl _
  have hleft : e.left = [] := hgot.left
  have hfix : e.fix = [] := hgot.fix.trans h.fix
  have hrel : e.rel = false := hgot.rel.trans hl
  show execNetworkSegment id reply frame s = _
  simp only [execNetworkSegment, h.here, hk, startCmd_lastRun h,
    segStep_lastRun h (act := fun c rs s => if cmdPkg c.kind = Config.pkgNumber % 16384 then s.nearSegment frame c rs
      else s.farSegment reply c rs) hcut hact, Bool.not_true, Bool.false_eq_true, if_false]
  cases d with
  | busy => simp [stepped, lastSegment, h.left]
  | absent => simp [stepped, lastSegment]
  | wrote | failed =>
    simp [stepped, lastSegment, hleft, hfix, State.cmdRelease, State.relWaits, hrel]

end

/-! ### A segment to another package (R293, R294) -/

section
variable {s u : State} {c : Cmd} {p n : Nat} {reply : NetReply}

/-- The side that a network command names there. -/
def farHandle (c : Cmd) : Nat := if isGet c.kind then c.hx else c.hy

/-- Whether the context has a peer entry for the package of a command. -/
def hasPeer (s : State) (c : Cmd) : Bool := (s.ctx (s.ctxOf c.fib)).peers.any (fun e => e.1 == cmdPkg c.kind)

theorem farSegment_noPeer (h : hasPeer s c = false) (rs : List (Nat × Nat)) :
    s.farSegment reply c rs = (.failed (errVal ecRemote (farHandle c)), c, s) := by
  rw [hasPeer] at h
  simp [State.farSegment, h, farHandle]

/-- What the other side answers for a segment that it refuses, as `ECODE` (R285, R294). -/
def refusal : NetReply → Option Nat
  | .remote => some ecRemote
  | .perm => some ecPerm
  | .bounds => some ecBounds
  | .fault => some ecFault
  | .performed _ => none

variable (h : hasPeer s c = true)
include h

theorem farSegment_refused {code : Nat} (hr : refusal reply = some code) (rs : List (Nat × Nat)) :
    s.farSegment reply c rs = (.failed (errVal code (farHandle c)), c, s) := by
  rw [hasPeer] at h
  cases reply <;> cases hr <;> simp [State.farSegment, h, farHandle]

theorem farSegment_get {data : List Byte} (hg : isGet c.kind = true)
    (hw : s.engWrite c (s.cmdRun c p).dst.1 (s.cmdRun c p).dst.2 (byteSlice data 0 n) = (.ok (), u)) :
    s.farSegment (.performed data) c [(p, n)] = (.wrote n false, c, u) := by
  rw [hasPeer] at h
  simp [State.farSegment, h, hg, hw]

theorem farSegment_put {data bs : List Byte} {src : Side} {off : Int} (hg : isGet c.kind = false)
    (hs : (s.cmdRun c p).src = some (src, off)) (hr : s.engReads c src 2 off n [] = (.ok bs, u)) :
    s.farSegment (.performed data) c [(p, n)] = (.wrote n false, c, u) := by
  rw [hasPeer] at h
  simp [State.farSegment, h, hg, hs, hr]

end

theorem networkSegmentsRun : NetworkSegmentsRun := by
  intro s id c p n reply frame hr hk hl hn h peer c' near ends
  have hx (reply : NetReply) := networkSegment_lastSegment hr hk hl (cutSeg_whole hn) reply frame
  have hends {code : Nat} (hf : s.farSegment reply c' [(p, n)] = (.failed (errVal code (farHandle c')), c', s)) : ends code := by
    show exec _ _ = _
    rw [hx, show s.farSegment reply (inHand c []) _ = _ from hf]
    rfl
  have hdone {data : List Byte} {u : State} (hf : s.farSegment (.performed data) c' [(p, n)] = (.wrote n false, c', u)) :
      exec (.networkSegment id (.performed data) frame) s = .next (
        if cmdPkg c.kind = Config.pkgNumber % 16384 then near else u.endCmd id { c' with bytes := c.bytes + n }) := by
    rw [hx, show s.farSegment _ (inHand c []) _ = _ from hf]
    simp only [lastSegment, took, Bool.or_false]
    rfl
  refine ⟨fun hp => hends (farSegment_noPeer (c := c') hp _), fun hp => ?_, fun data u hp he hg hw => ?_, fun data bs u src off hp he hg hs hw => ?_⟩
  · refine ⟨?_, ?_, ?_, ?_⟩ <;> intro he <;> exact hends (farSegment_refused (c := c') hp (by rw [he]; rfl) _)
  · rw [he]
    exact hdone (farSegment_get (c := c') hp hg (by rw [cmdRun_inHand]; exact hw))
  · rw [he]
    exact hdone (farSegment_put (c := c') hp hg (by rw [cmdRun_inHand]; exact hs) hw)

/-- Settles O24: a segment is one step of its command; its bytes are read at their source and written at their destination; and the last one
ends the command. -/
theorem commandsMoveBytes : Obligations.CommandsMoveBytes :=
  ⟨copySegmentsRun, segmentsMoveBytes, fixupMakesResident, networkSegmentsRun⟩

end Sys2Proof.Claims

/-!
# O31: SWRITE and ERRQ (R411-R413)
-/

namespace Sys2Proof.Claims
open Machine

variable {s : State} {b : Batch} {l : Nat} {x : Fibre}

/-- SWRITE and ERRQ act once, with the operands of the elected lane; of a lone lane that is no helper, with its own (R83, R412). -/
theorem electAll_lone {o : SY} {m : Need} (hL : Lone s m b l x) (hx : x.helper = false) (hg : m.head.guard = o.guard) (k : Nat)
    (act : Ln → Vals → State → Nat × State) : electAll o k m act s =
      (act (s.laneOf b l) (s.readVals m b l) (past s b l)).2.putD (s.laneOf b l) .v o.d k
        (act (s.laneOf b l) (s.readVals m b l) (past s b l)).1 := by
  have hw : s.elect o.guard b = some l := by
    simp [State.elect, hL.lanes, ← hg, (fate_go hL.fate).1, State.fibre_eq s hL.fibre, hx]
  simp [electAll, runBatch_lone hL, hL.cur, hw]

/-- ERRQ finds the context's oldest entry (R413). -/
theorem errqPop_lone {o : SY} (hL : Lone s (errqNeed o 2) b l x) (hx : x.helper = false) : exec (.errqPop o) s =
    .next (match oldestError ((past s b l).core (coreHere s b l)) (ctxHere s b l) with
      | none => (past s b l).putD (s.laneOf b l) .v o.d 2 0
      | some e => ((past s b l).modCore (coreHere s b l) (fun y => { y with dlog := y.dlog.erase e })).putD (s.laneOf b l) .v o.d 2
          e.2) := by
  show execErrqPop o s = _
  rw [execErrqPop, electAll_lone hL hx rfl]
  simp only [State.laneOf_f, ← coreHere.eq_1, ← ctxHere.eq_1]
  cases oldestError _ _ <;> rfl

theorem errqPeek_lone {o : SY} (hL : Lone s (errqNeed o 2) b l x) (hx : x.helper = false) : exec (.errqPeek o) s =
    .next ((past s b l).putD (s.laneOf b l) .v o.d 2
      (((oldestError ((past s b l).core (coreHere s b l)) (ctxHere s b l)).map (·.2)).getD 0)) :=
  congrArg _ (electAll_lone hL hx rfl 2 _)

/-- R412, R413: each form acts on its log and gives its status or entry. -/
theorem systemRegisters : SystemRegisters := by
  intro o s b l x hx p c k mine
  refine ⟨fun hL => ⟨?_, ?_, ?_⟩, fun hL => ⟨fun hm => ⟨?_, ?_⟩, fun e hm => ⟨?_, ?_⟩⟩, fun hL => ?_⟩
  · exact congrArg _ (electAll_lone hL hx rfl 1 _)
  · exact congrArg _ (electAll_lone hL hx rfl 1 _)
  · exact congrArg _ (electAll_lone hL hx rfl 1 _)
  · rw [errqPop_lone hL hx, oldestError, show List.find? _ _ = none from hm]
  · rw [errqPeek_lone hL hx, oldestError, show List.find? _ _ = none from hm]
    rfl
  · rw [errqPop_lone hL hx, oldestError, show List.find? _ _ = some e from hm]
  · rw [errqPeek_lone hL hx, oldestError, show List.find? _ _ = some e from hm]
    rfl
  · exact congrArg _ (electAll_lone hL hx rfl 1 _)

/-! ### A context without `PRIV` (R81, R412) -/

theorem fate_unprivileged {g : Guard} {m : Need} (h : OneLane s g b l x) (hg : m.head.guard = g) (hm : m.priv = true)
    (hc : x.capMode = false) (hp : (s.ctx (s.team b.team).ctx).priv = false) (hl : m.limits x (s.budget (b.fib l)) b.word = none) :
    s.fate m b l = .err { eff := 0x003, arg := b.word.toNat / 2 ^ 32 } := by
  have hx := State.fibre_eq s h.fibre
  subst hg
  simp [State.fate, h.guard, hx, hl, hc, hm, hp, h.live, wordArg, Eff.isaPriv]

/-- A lone lane that fails a check of R81 raises, and runs nothing. -/
theorem runBatch_err {m : Need} {e : Err} (hc : s.cur = some b) (hb : b.lanes = [l]) (hf : s.fate m b l = .err e)
    (body : List (Ln × Vals) → State → State) : runBatch m body s = body [] (raisedIn s b l e) := by
  simp [runBatch, hc, hb, hf, State.settleLane]
  rfl

theorem electAll_err {o : SY} {m : Need} {e : Err} (hc : s.cur = some b) (hb : b.lanes = [l]) (hf : s.fate m b l = .err e) (k : Nat)
    (act : Ln → Vals → State → Nat × State) : electAll o k m act s = raisedIn s b l e := by
  rw [electAll, runBatch_err hc hb hf]
  rfl

/-- R412: `PRIV` is checked before the register's number. -/
theorem unprivilegedWritesRaise : UnprivilegedWritesRaise := by
  intro o s b l x h hc hp hl t
  have hf := fate_unprivileged (m := swriteNeed o) h rfl rfl hc hp hl
  exact ⟨congrArg _ (electAll_err h.cur h.lanes hf 1 _), congrArg _ (electAll_err h.cur h.lanes hf 1 _),
    congrArg _ (electAll_err h.cur h.lanes hf 1 _)⟩

/-- Settles O31: the elected lane's own action on its log, and the check that stands before it. -/
theorem systemRegistersReadAndWrite : Obligations.SystemRegistersReadAndWrite := ⟨systemRegisters, unprivilegedWritesRaise⟩

end Sys2Proof.Claims

/-!
# O49: HALTAT and the firing of a halt point (R410)
-/

namespace Sys2Proof.Claims
open Machine

/-! ### HALTAT -/

section
variable {s : State} {m : Msg} {h : HaltAt} {x : Context} (hS : Serves s m 10 x) (hc : h.ctx = m.ctx)
include hS hc

/-- ARM sets the point where it names a code object of the context, or a launch of it that is not done. -/
theorem haltatArm_eq : exec (.haltatArm (m, h)) s = .next
    (if (if h.byName then x.blocks.any (fun y => y.name == h.lname)
        else (s.launch? (launchKey m.ctx h.lid)).any (fun L => !L.done)) then
      replied (s.modCtx m.ctx (fun y => { y with point := some { req := h, attached := if h.byName then none else some h.lid } })) m 0 []
    else replied s m 1 []) := by
  show execHaltatArm (m, h) s = _
  rw [execHaltatArm, hS.request]
  simp only [hc, beq_self_eq_true, Bool.true_and, Option.getD_some, answer_eq_replied]
  cases (if h.byName then x.blocks.any (fun y => y.name == h.lname)
    else (s.launch? (launchKey m.ctx h.lid)).any (fun L => !L.done)) <;> rfl

theorem haltatArm_byName (hn : h.byName = true) (hb : x.blocks.any (fun y => y.name == h.lname) = true) :
    exec (.haltatArm (m, h)) s =
      .next (replied (s.modCtx m.ctx (fun y => { y with point := some { req := h, attached := none } })) m 0 []) := by
  simp only [haltatArm_eq hS hc, hn, hb, if_true]

theorem haltatArm_byLid (hn : h.byName = false) {L : Launch} (hL : s.launch? (launchKey m.ctx h.lid) = some L)
    (hd : L.done = false) : exec (.haltatArm (m, h)) s =
      .next (replied (s.modCtx m.ctx (fun y => { y with point := some { req := h, attached := some h.lid } })) m 0 []) := by
  simp [haltatArm_eq hS hc, hn, hL, hd]

theorem haltatArm_badLid (hn : h.byName = false)
    (hL : s.launch? (launchKey m.ctx h.lid) = none ∨ (s.launch (launchKey m.ctx h.lid)).done = true) :
    exec (.haltatArm (m, h)) s = .next (replied s m 1 []) := by
  have hno : (s.launch? (launchKey m.ctx h.lid)).any (fun L => !L.done) = false := by
    rw [State.launch, mapGetD, ← State.launch?] at hL
    cases hl : s.launch? (launchKey m.ctx h.lid) with
    | none => rfl
    | some L => simpa [hl] using hL
  rw [haltatArm_eq hS hc]
  simp only [hn, hno, Bool.false_eq_true, if_false]

theorem haltatRelease_frees : exec (.haltatRelease (m, h)) s = .next (replied { s with
    teams := mapAll s.teams (fun _ T => if frees s h T then { T with debugHeld := none } else T) } m 0 []) := by
  show execHaltatRelease (m, h) s = _
  rw [execHaltatRelease, hS.request]
  simp only [hc, bne_self_eq_false, Bool.false_eq_true, if_false]
  rfl

end

/-! ### The point fires -/

theorem haltPointFire_fires {s : State} {c : Nat} {b : Batch} {rest : List Batch} {p : HaltPoint} (hi : s.issue = b :: rest)
    (hp : (s.ctx c).point = some p) (ha : s.pointAt b (s.standing b) = true) (hb : (s.team b.team).ctx = c) :
    let u := (s.haltTeams (if p.req.allTeams then s.teamsOf c else [b.team]) (some p.req.allTeams) false).modCtx c (fun y =>
      { y with point := none })
    exec (.haltPointFire c) s = .next (u.logCtx c (.haltFired (s.team b.team).lid (s.team b.team).x (s.team b.team).y (s.team b.team).z
      p.req.fib b.pc.toNat (((u.ctx c).cxgen.toNat + (u.ctx c).due) % 256))) := by
  intro u
  show execHaltPointFire c s = _
  simp only [execHaltPointFire, hi, hp, ha, hb, bne_self_eq_false, Bool.not_true, Bool.or_self, Bool.false_eq_true, if_false]
  rfl

/-- Settles O49: what each form of HALTAT leaves and answers, and the one branch of the step in which the point fires. -/
theorem haltPoints : Obligations.HaltPoints := by
  refine ⟨?_, ?_⟩
  · intro s m h x hS hc
    exact ⟨haltatArm_byName hS hc, fun L hn hL hd => haltatArm_byLid hS hc hn hL hd, haltatArm_badLid hS hc,
      haltatRelease_frees hS hc, congrArg _ (hS.request _)⟩
  · intro s c b rest p hi hp ha hb
    exact haltPointFire_fires hi hp ha hb

end Sys2Proof.Claims

/-!
# O33-O36: the records of effects in a lane slice (R376-R392)

An effect instruction decides by what it finds in the records and in the token table of its fibre, and then writes records and forces
registers. The first sections say once what forcing registers and writing a lane slice leave alone.
-/

namespace Sys2Proof.Claims
open Machine

/-! ### Registers that the device writes (R156, R383) -/

/-- Of a fibre nothing but its registers and the writes to them has changed. -/
def OnlyRegs (x y : Fibre) : Prop := y = { x with regs := y.regs, pend := y.pend, recent := y.recent }

theorem OnlyRegs.trans {x y z : Fibre} (h : OnlyRegs x y) (h' : OnlyRegs y z) : OnlyRegs x z := by
  unfold OnlyRegs at h h' ⊢
  generalize y.regs = a at h
  generalize y.pend = b at h
  generalize y.recent = c at h
  subst h
  exact h'

theorem force_onlyRegs (x : Fibre) (r : Nat) (v : Word) : OnlyRegs x (x.force r v) := by
  unfold OnlyRegs Fibre.force
  split <;> rfl

theorem forceFrom_onlyRegs (x : Fibre) (i : Nat) (ws : List Word) : OnlyRegs x (x.forceFrom i ws) := by
  induction ws generalizing x i with
  | nil => rfl
  | cons w ws ih => exact (force_onlyRegs x _ w).trans (ih _ _)

theorem setPred_onlyRegs (x : Fibre) (w : Word) : OnlyRegs x (x.setPred w) :=
  List.foldlRecOn _ _ (motive := OnlyRegs x) rfl fun _ hy _ _ => hy.trans (force_onlyRegs _ _ _)

@[simp] theorem force_hsp (x : Fibre) (r : Nat) (v : Word) : (x.force r v).hsp = x.hsp := by rw [force_onlyRegs]
@[simp] theorem forceFrom_hsp (x : Fibre) (i : Nat) (ws : List Word) : (x.forceFrom i ws).hsp = x.hsp := by rw [forceFrom_onlyRegs]
@[simp] theorem setPred_hsp (x : Fibre) (w : Word) : (x.setPred w).hsp = x.hsp := by rw [setPred_onlyRegs]
@[simp] theorem force_pc (x : Fibre) (r : Nat) (v : Word) : (x.force r v).pc = x.pc := by rw [force_onlyRegs]

theorem latest_force_ne (x : Fibre) {q r : Nat} (h : r ≠ q) (v : Word) : (x.force q v).latest r = x.latest r := by
  unfold Fibre.force
  split
  · rfl
  · have hw : (x.pend.filter (fun w => w.reg != q)).filter (fun w => w.reg == r && w.load.isNone) =
        x.pend.filter (fun w => w.reg == r && w.load.isNone) := by
      rw [List.filter_filter]
      refine List.filter_congr fun w _ => ?_
      by_cases hr : w.reg = r <;> simp [hr, h]
    simp only [Fibre.latest, Fibre.cands, Fibre.fixedWrites, hw, mapGetD_mapSet_ne _ _ _ h]

/-- A g register is no predicate. -/
theorem latest_setPred (x : Fibre) (w : Word) {r : Nat} (hr : r < 128) : (x.setPred w).latest r = x.latest r := by
  refine List.foldlRecOn _ _ (motive := fun y : Fibre => y.latest r = x.latest r) rfl fun y hy i _ => ?_
  rw [latest_force_ne _ (by simp [rP]; omega), hy]

/-! ### Records in a lane slice (R376) -/

@[simp] theorem laneWrite_fibres (s : State) (f off : Nat) (bs : List Byte) : (s.laneWrite f off bs).fibres = s.fibres :=
  placeWrite_fibres _ _ _

@[simp] theorem laneWrite_fibre? (s : State) (f off : Nat) (bs : List Byte) (g : Nat) :
    (s.laneWrite f off bs).fibre? g = s.fibre? g := by
  simp only [State.fibre?, laneWrite_fibres]

theorem killToken_fibres (s : State) (f r : Nat) : (s.killToken f r).fibres = s.fibres := laneWrite_fibres _ _ _ _

theorem killToken_fibre? (s : State) (f r g : Nat) : (s.killToken f r).fibre? g = s.fibre? g := laneWrite_fibre? _ _ _ _ _

theorem escalate_fibres (s : State) (f outcome eff : Nat) (pc : Word) (arg : Nat) :
    (s.escalate f outcome eff pc arg).fibres = s.fibres := rfl

/-- Performing accesses removes no fibre. -/
theorem OnlyAccesses.isSome {s t : State} (h : OnlyAccesses s t) {f : Nat} (hf : (s.fibre? f).isSome) : (t.fibre? f).isSome := by
  rw [← Option.isSome_map (f := still), h.fibres f, Option.isSome_map, hf]

theorem arriveAll_isSome {s : State} {f : Nat} (hf : (s.fibre? f).isSome) : ((s.arriveAll f).fibre? f).isSome := by
  rw [State.arriveAll, State.fibre?_modFibre, Option.isSome_map]
  exact (OnlyAccesses.refl s).arriveBefore.isSome hf

/-! ### A lone lane that raises, and one that waits for no token -/

/-- A lone lane whose own checks raise an effect whose argument holds no `SMASK` (R250). -/
theorem runChecked_lone_raise {α : Type} {s : State} {n : Need} {b : Batch} {l : Nat} {x : Fibre} (h : Lone s n b l x)
    {prep : Ln → Vals → State → Prep α} {body : Ln → Vals → α → State → State} {e : Err} (he : e.eff ≠ 0x021)
    (hp : prep (s.laneOf b l) (s.readVals n b l) (past s b l) = .err e) : runChecked n prep body s = raised s b l e := by
  have hm (m : Nat) : withSmask m e = e := if_neg he
  simp only [runChecked, runBatch_lone h, List.map_cons, List.map_nil, hp, List.foldl_cons, List.foldl_nil, hm]
  rfl

theorem waitTokens_free {α : Type} {x : Fibre} (h : x.tok = []) (rs : List Nat) (a : α) : waitTokens x rs a = .ok a := by
  have hn : rs.filter x.tokPending = [] := List.filter_eq_nil_iff.2 fun r _ => by simp [Fibre.tokPending, mapHas, h]
  simp [waitTokens, hn]

theorem bits_low (n k : Nat) : bits n k 0 = n % 2 ^ (k + 1) := by simp [bits]

/-! ### HANDLE (R384) -/

section
variable {o : SY} {s₀ s : State} {b : Batch} {l : Nat} {x : Fibre} (hs : s = s₀.recordsFirst) (hL : Lone s (handleNeed o) b l x)
include hs hL

theorem handle_raises (hl : l < 32) {e : Err} (hp : handlePrep (s.laneOf b l) (past s b l) = .err e) :
    exec (.handle o) s₀ = .next (raised s b l (withLane l e)) := by
  subst hs
  exact congrArg _ (runChecked_lone_err hL hl hp)

theorem handle_pushes {r : Nat} (hp : handlePrep (s.laneOf b l) (past s b l) = .ok r) :
    let p := past s b l
    let sel := ((s.readVals (handleNeed o) b l).b.headD 0).toNat
    exec (.handle o) s₀ = .next ((p.laneWrite (b.fib l) r (handlerBytes (effTarget b.pc (o.imm.toNat / 2 ^ 16))
        (effTarget b.pc (o.imm.toNat % 2 ^ 16)) (r + 64) (p.fibre (b.fib l)).hsp.toNat (sel % 2 ^ 12) (sel / 2 ^ 16 % 2 ^ 12)
        ((p.laneNat (b.fib l) (r + 20) 2 + 1) % 2 ^ 16))).modFibre (b.fib l) (fun y =>
      { (y.force (rG 2) (BitVec.ofNat 32 r)) with hsp := BitVec.ofNat 32 r })) := by
  subst hs
  intro p sel
  have hi : bits o.imm.toNat 31 16 = o.imm.toNat / 2 ^ 16 := by
    have := o.imm.isLt
    simp only [bits]
    omega
  refine congrArg _ ((runChecked_lone hL hp).trans ?_)
  simp only [hi, bits_low]
  rfl

end

/-- R376, R384: the checks of g2 in their order, and the record below it. -/
theorem handlersPush : HandlersPush := by
  intro o s₀ s b l x hs hL hl p f g2 sel r
  have hp : handlePrep (s.laneOf b l) p = if g2 % 16 ≠ 0 then .err { eff := 0x025, arg := marg 1 g2 }
      else if g2 < 64 then .err { eff := 0x026, arg := marg 1 ((g2 : Int) - 64) }
      else if (p.blockOf f).lane < g2 then .err { eff := 0x021, arg := 2 ^ 20 } else .ok (g2 - 64) := rfl
  refine ⟨fun h => ?_, fun h h1 => ?_, fun h h1 h2 => ?_, fun h h1 h2 => ?_⟩
  · exact handle_raises hs hL hl (hp.trans (if_pos h))
  · rw [if_neg (not_not.2 h), if_pos h1] at hp
    exact handle_raises hs hL hl hp
  · rw [if_neg (not_not.2 h), if_neg (Nat.not_lt.2 h1), if_pos h2] at hp
    exact handle_raises hs hL hl hp
  · rw [if_neg (not_not.2 h), if_neg (Nat.not_lt.2 h1), if_neg (Nat.not_lt.2 h2)] at hp
    have := handle_pushes hs hL hp
    rwa [Nat.sub_add_cancel h1] at this

/-! ### UNHANDLE (R385) -/

section
variable {o : SY} {s₀ s : State} {b : Batch} {l : Nat} {x : Fibre} (hs : s = s₀.recordsFirst) (hL : Lone s (unhandleNeed o) b l x)
include hs hL

/-- A chain without a record that lies in the slice (R385). -/
theorem unhandle_raises (h : x.hsp.toNat = 0xFFFFFFFF ∨ x.hsp.toNat = 0xFFFFFFFE ∨
      ((past s b l).blockOf (b.fib l)).lane < x.hsp.toNat + 64) :
    exec (.unhandle o) s₀ = .next (raised s b l { eff := 0x026, arg := marg 1 x.hsp.toNat }) := by
  subst hs
  refine congrArg _ (runChecked_lone_raise hL (show 0x026 ≠ 0x021 by decide) ?_)
  simp only [unhandlePrep, State.laneOf_f, State.fibre_eq _ (past_fibre? hL)]
  exact if_pos (h.imp id (Or.imp id fun h => by
    rw [State.inSlice, Bool.not_eq_true', decide_eq_false_iff_not]
    exact Nat.not_le.2 h))

variable (h1 : x.hsp.toNat ≠ 0xFFFFFFFF) (h2 : x.hsp.toNat ≠ 0xFFFFFFFE)
  (h3 : x.hsp.toNat + 64 ≤ ((past s b l).blockOf (b.fib l)).lane)
include h1 h2 h3

omit hs in
/-- What UNHANDLE finds at a record that lies in the slice. -/
theorem unhandlePrep_record : unhandlePrep (s.laneOf b l) (past s b l) =
    if (past s b l).laneNat (b.fib l) (x.hsp.toNat + 24) 4 = 0xFFFFFFFF then waitTokens (x.passed b.pc) [2] (x.hsp.toNat, none)
    else if !(past s b l).inSlice (b.fib l) ((past s b l).laneNat (b.fib l) (x.hsp.toNat + 24) 4) 128 then
      .err { eff := 0x026, arg := marg 1 ((past s b l).laneNat (b.fib l) (x.hsp.toNat + 24) 4) }
    else waitTokens (x.passed b.pc)
      ([2] ++ List.range' 16 16 ++ [(past s b l).laneNat (b.fib l) ((past s b l).laneNat (b.fib l) (x.hsp.toNat + 24) 4 + 16) 1])
      (x.hsp.toNat, some ((past s b l).laneNat (b.fib l) (x.hsp.toNat + 24) 4)) := by
  simp only [unhandlePrep, State.laneOf_f, State.fibre_eq _ (past_fibre? hL)]
  refine if_neg ?_
  have hi : (past s b l).inSlice (b.fib l) x.hsp.toNat 64 = true := by simpa [State.inSlice] using h3
  simp only [show (x.passed b.pc).hsp = x.hsp from rfl, hi]
  simpa [hspNone, hspTeam] using ⟨h1, h2⟩

theorem unhandle_pops (h4 : (past s b l).laneNat (b.fib l) (x.hsp.toNat + 24) 4 = 0xFFFFFFFF) (ht : mapHas x.tok 2 = false) :
    exec (.unhandle o) s₀ = .next ((past s b l).popRecord (b.fib l) x.hsp.toNat) := by
  have hp := unhandlePrep_record hL h1 h2 h3
  rw [if_pos h4] at hp
  have hw : waitTokens (x.passed b.pc) [2] (x.hsp.toNat, none) = .ok (x.hsp.toNat, (none : Option Nat)) := by
    have ht' : (x.passed b.pc).tokPending 2 = false := ht
    simp [waitTokens, ht']
  subst hs
  exact congrArg _ (runChecked_lone (prep := fun ln _ s => unhandlePrep ln s) hL (hp.trans hw))

theorem unhandle_returns {q : Nat} (h4 : (past s b l).laneNat (b.fib l) (x.hsp.toNat + 24) 4 = q) (h5 : q ≠ 0xFFFFFFFF)
    (h6 : q + 128 ≤ ((past s b l).blockOf (b.fib l)).lane) (ht : x.tok = []) :
    exec (.unhandle o) s₀ = .next ((past s b l).returnRegion (b.fib l) x.hsp.toNat q
      ((s.readVals (unhandleNeed o) b l).a.headD 0)) := by
  have hp := unhandlePrep_record hL h1 h2 h3
  have hi : (past s b l).inSlice (b.fib l) q 128 = true := by simpa [State.inSlice] using h6
  rw [h4, if_neg h5, hi, if_neg (by decide), waitTokens_free (x := x.passed b.pc) ht] at hp
  subst hs
  exact congrArg _ (runChecked_lone (prep := fun ln _ s => unhandlePrep ln s) hL hp)

end

theorem dstCode_keeps (s : State) (f code : Nat) (v : Word) {x : Fibre} (hx : s.fibre? f = some x) :
    ∃ y, (s.dstCode f code v).fibre? f = some y ∧ OnlyRegs x y := by
  unfold State.dstCode
  split
  · exact ⟨_, by rw [State.fibre?_modFibre, hx]; rfl, force_onlyRegs _ _ _⟩
  · exact ⟨_, by rw [State.fibre?_modFibre, hx]; rfl, force_onlyRegs _ _ _⟩
  · exact ⟨x, hx, rfl⟩

/-- The fibre whose region has ended, but for the result's register and the PC: what RESUME saved in its return record (R385). -/
def returned (s : State) (f q : Nat) (x : Fibre) : Fibre :=
  { (((x.force (rG 2) (laneWord s f (q + 4))).setPred (laneWord s f (q + 12))).forceFrom 16 (wordsOf (s.laneRead f (q + 64) 64))) with
    hsp := laneWord s f (q + 8) }

theorem returnRegion_eq (s : State) (f r q : Nat) (v : Word) : s.returnRegion f r q v =
    (((s.laneWrite f (r + 24) (s.laneRead f (q + 20) 4)).modFibre f (returned s f q)).dstCode f (s.laneNat f (q + 16) 1) v).modFibre f
      (fun x => x.jump (laneWord s f q)) := rfl

/-- A region that ends goes on behind its RESUME, under the handler stack saved there. -/
theorem returnRegion_fibre (s : State) (f r q : Nat) (v : Word) (hf : (s.fibre? f).isSome) :
    ((s.returnRegion f r q v).fibre f).hsp = laneWord s f (q + 8) ∧ ((s.returnRegion f r q v).fibre f).pc = laneWord s f q := by
  obtain ⟨x, hx⟩ := Option.isSome_iff_exists.1 hf
  have hr : ((s.laneWrite f (r + 24) (s.laneRead f (q + 20) 4)).modFibre f (returned s f q)).fibre? f = some (returned s f q x) := by
    rw [State.fibre?_modFibre, laneWrite_fibre?, hx]
    rfl
  obtain ⟨y, hy, hxy⟩ := dstCode_keeps _ f (s.laneNat f (q + 16) 1) v hr
  rw [returnRegion_eq, State.fibre_modFibre _ _ hy]
  exact ⟨by rw [hxy]; rfl, rfl⟩

/-- R385: the record at %hsp is popped, or what RESUME saved comes back. -/
theorem unhandlePops : UnhandlePops := by
  intro o s₀ s b l x hs hL ht p f r
  refine ⟨unhandle_raises hs hL, fun h1 h2 h3 h4 => ⟨_, unhandle_pops hs hL h1 h2 h3 h4 ht, ?_, ?_, ?_⟩,
    fun q h1 h2 h3 h4 h5 h6 ht' => ⟨_, unhandle_returns hs hL h1 h2 h3 h4 h5 h6 ht', rfl, ?_⟩⟩
  · rfl
  · rw [State.popRecord, State.fibre_modFibre _ _ ((laneWrite_fibre? _ _ _ _ _).trans (past_fibre? hL))]
    exact latest_force _ (by decide) _
  · rw [State.popRecord, State.fibre_modFibre _ _ ((laneWrite_fibre? _ _ _ _ _).trans (past_fibre? hL))]
    exact force_pc _ _ _
  · exact returnRegion_fibre p f r q _ (by rw [past_fibre? hL]; rfl)

/-- Settles O33: what HANDLE and UNHANDLE find in g2, %hsp and the records decides what they do. -/
theorem handlersPushAndPop : Obligations.HandlersPushAndPop := ⟨handlersPush, unhandlePops⟩

end Sys2Proof.Claims

/-!
# O34: PERFORM (R386)
-/

namespace Sys2Proof.Claims
open Machine

/-- The number of the effect that a PERFORM raises (R386). -/
def performed (o : SY) (v : Vals) : Nat := (if o.b.isNone then o.imm.toNat else (v.b.headD 0).toNat) % 2 ^ 12

/-- The effect that a PERFORM makes pending at a PC: resumable once, many times, or not at all, by its form (R386). -/
def performedEff (o : SY) (v : Vals) (pc : Word) : PendEff :=
  { eff := performed o v, arg := wordsNat v.a, kind := (if o.fn.toNat = 0 then 1 else if o.fn.toNat = 1 then 2 else 0),
    dest := encodeSpec o.d, trap := false, rsv := 64 * (o.mod.extractLsb' 0 7).toNat, spc := nextPc pc, sxfer := false, simm := 0,
    capm := false }

/-- PERFORM over a lone lane: a built-in number is refused, a user effect becomes pending and is delivered where nothing holds it up. -/
theorem perform_lone {o : SY} {s : State} {b : Batch} {l : Nat} {x : Fibre} (hL : Lone s (performNeed o) b l x) :
    exec (.perform o) s = .next
      (if performed o (s.readVals (performNeed o) b l) < 0x100 then raised s b l (illegal b.word)
      else ((past s b l).modFibre (b.fib l) (fun y => { y with
        pc := b.pc, fbuf := none, eff := some (performedEff o (s.readVals (performNeed o) b l) b.pc) })).tryDeliver (b.fib l)) := by
  refine congrArg _ ((runLanes_lone hL _).trans ?_)
  have he (v : Vals) : (if o.b.isNone then bits o.imm.toNat 11 0 else bits (v.b.headD 0).toNat 11 0) = performed o v := by
    simp only [bits_low, performed]
    split <;> rfl
  have hk : (match o.fn.toNat with
      | 0 => 1
      | 1 => 2
      | _ => 0) = (if o.fn.toNat = 0 then 1 else if o.fn.toNat = 1 then 2 else 0) := by
    split <;> simp_all
  simp only [he, performedEff, ← hk]
  rfl

/-- Settles O34: the number decides between the refusal and the effect. -/
theorem performRaisesUserEffects : Obligations.PerformRaisesUserEffects := by
  intro o s b l x hL v e
  exact ⟨fun h => (perform_lone hL).trans (congrArg _ (if_pos h)), fun h => (perform_lone hL).trans (congrArg _ (if_neg (Nat.not_lt.2 h)))⟩

end Sys2Proof.Claims

/-!
# O36: tokens (R380-R382, R387-R389)
-/

namespace Sys2Proof.Claims
open Machine

/-! ### What RESUME and UNWIND find of a token (R382, R389) -/

section
variable {o : SY} {ln : Ln} {v : Vals} {s : State}

theorem resumePrep_dead {why : Nat} (h : s.tokReason ln.f (wordsNat v.a) true (o.fn == 1) = some why) :
    resumePrep o ln v s = .err { eff := 0x040, arg := wordsNat v.a } := by
  simp only [resumePrep, h]
  rfl

theorem resumePrep_live (h0 : o.fn = 0) (ht : (s.fibre ln.f).tok = []) (h : s.tokReason ln.f (wordsNat v.a) true false = none) :
    resumePrep o ln v s = .ok (wordsNat v.a % 2 ^ 16, none) := by
  have hm : (o.fn == 1) = false := by rw [h0]; decide
  simp only [resumePrep, hm, h, waitTokens_free ht, bits_low]
  rfl

theorem unwindPrep_dead {why : Nat} (h : s.tokReason ln.f (wordsNat v.a) false false = some why) :
    unwindPrep ln v s = .err { eff := 0x040, arg := wordsNat v.a } := by
  simp only [unwindPrep, h]
  rfl

theorem unwindPrep_live (ht : (s.fibre ln.f).tok = []) (h : s.tokReason ln.f (wordsNat v.a) false false = none) :
    unwindPrep ln v s = .ok (wordsNat v.a % 2 ^ 16) := by
  simp only [unwindPrep, h, waitTokens_free ht, bits_low]

end

/-- R382, R389: the check that a token fails comes before all else. -/
theorem deadTokensRaise : DeadTokensRaise := by
  refine ⟨?_, ?_⟩
  · rintro o s₀ _ b l x why rfl hL tok hw
    exact congrArg _ (runChecked_lone_raise hL (show 0x040 ≠ 0x021 by decide) (resumePrep_dead hw))
  · rintro o s₀ _ b l x why rfl hL tok hw
    exact congrArg _ (runChecked_lone_raise hL (show 0x040 ≠ 0x021 by decide) (unwindPrep_dead hw))

/-! ### RESUME of a live token (R387) -/

section
variable (s : State) {f : Nat} (hf : (s.fibre? f).isSome) (r : Nat) (v : Word)
include hf

/-- A resumption goes back to the handler stack of its computation. -/
theorem resumeFrom_hsp : ((s.resumeFrom f r v).fibre f).hsp = laneWord s f (r + 4) := by
  obtain ⟨y, hy⟩ := Option.isSome_iff_exists.1 (arriveAll_isSome hf)
  unfold State.resumeFrom
  rw [State.fibre_modFibre _ _ hy]
  simp only [apply_ite Fibre.hsp, Fibre.jump, force_hsp, forceFrom_hsp, setPred_hsp, ite_self]
  rfl

/-- The fibre of a resumed `.once` PERFORM: the value is in its destination, unless that is none. -/
theorem resumeFrom_once (ht : bit (s.laneNat f (r + 18) 1) 2 = false) (hk : s.laneNat f (r + 18) 1 % 4 = 1) :
    ((s.resumeFrom f r v).fibre f).pc = laneWord s f r ∧
    (∀ d, s.laneNat f (r + 19) 1 = d → d < 128 → ((s.resumeFrom f r v).fibre f).latest d = v) ∧
    (128 ≤ s.laneNat f (r + 19) 1 → ((s.resumeFrom f r v).fibre f).latest (rG 2) = laneWord s f (r + 8)) := by
  obtain ⟨y, hy⟩ := Option.isSome_iff_exists.1 (arriveAll_isSome hf)
  unfold State.resumeFrom
  rw [State.fibre_modFibre _ _ hy]
  simp only [ht, hk, Bool.false_and, Bool.false_eq_true, if_false, Bool.not_false, if_true, show ¬(1 = 2) by decide, Bool.true_and]
  have latest_jump (x : Fibre) (pc : Word) (d : Nat) : (x.jump pc).latest d = x.latest d := rfl
  have latest_cap (x : Fibre) (c : Bool) (d : Nat) : (if c then { x with capMode := true } else x).latest d = x.latest d := by
    cases c <;> rfl
  refine ⟨rfl, ?_, fun hd => ?_⟩
  · rintro d rfl hd
    rw [latest_jump, latest_cap, if_pos (decide_eq_true hd)]
    exact latest_force _ (Nat.ne_of_lt hd) v
  · rw [latest_jump, latest_cap, if_neg (by simpa using hd), latest_setPred _ _ (by decide)]
    exact latest_force _ (by decide) _

end

theorem resume_lone {o : SY} {s₀ : State} {b : Batch} {l : Nat} {x : Fibre} (hL : Lone s₀.recordsFirst (resumeNeed o) b l x)
    (h0 : o.fn = 0) (ht : x.tok = [])
    (hk : (past s₀.recordsFirst b l).tokReason (b.fib l) (wordsNat (s₀.recordsFirst.readVals (resumeNeed o) b l).a) true false = none) :
    let v := s₀.recordsFirst.readVals (resumeNeed o) b l
    let r := wordsNat v.a % 2 ^ 16
    exec (.resume o) s₀ = .next (((past s₀.recordsFirst b l).killToken (b.fib l) r).resumeFrom (b.fib l) r (v.b.headD 0)) := by
  intro v r
  have ht' : ((past s₀.recordsFirst b l).fibre (b.fib l)).tok = [] := by rw [State.fibre_eq _ (past_fibre? hL)]; exact ht
  refine congrArg _ ((runChecked_lone hL (resumePrep_live h0 ht' hk)).trans ?_)
  simp only [h0, or_true, if_true]
  rfl

/-! ### UNWIND of a live token (R388) -/

/-- An unwound computation goes on at its handler's exit, with the value in g4, below the handler's record. -/
theorem unwindTo_fibre (s : State) {f : Nat} (hf : (s.fibre? f).isSome) (r : Nat) (v : Word) :
    ((s.unwindTo f r v).fibre f).latest (rG 4) = v ∧
    ((s.unwindTo f r v).fibre f).latest (rG 2) = laneWord s f (s.laneNat f (r + 20) 4 + 8) ∧
    ((s.unwindTo f r v).fibre f).pc = laneWord s f (s.laneNat f (r + 20) 4 + 4) := by
  unfold State.unwindTo
  dsimp only
  generalize hu : (State.laneWrite _ f _ (leBytes 4 hspNone)) = u
  have hf' : (u.fibre? f).isSome := by rw [← hu, laneWrite_fibre?, laneWrite_fibre?]; exact hf
  obtain ⟨y, hy⟩ := Option.isSome_iff_exists.1 (arriveAll_isSome hf')
  rw [State.fibre_modFibre _ _ hy]
  have latest_left (x : Fibre) (c : Bool) (pc : Word) (d : Nat) :
      ((if c then { x with held := none, capMode := false } else x).jump pc).latest d = x.latest d := by
    cases c <;> rfl
  refine ⟨?_, ?_, rfl⟩
  · rw [latest_left]
    exact latest_force _ (by decide) v
  · rw [latest_left, latest_force_ne _ (by decide)]
    exact latest_force _ (by decide) _

section
variable {o : SY} {s₀ : State} {b : Batch} {l : Nat} {x : Fibre} (hL : Lone s₀.recordsFirst (unwindNeed o) b l x) (ht : x.tok = [])
  (hk : (past s₀.recordsFirst b l).tokReason (b.fib l) (wordsNat (s₀.recordsFirst.readVals (unwindNeed o) b l).a) false false = none)
include hL ht hk

theorem unwind_lone : let v := s₀.recordsFirst.readVals (unwindNeed o) b l
    let r := wordsNat v.a % 2 ^ 16
    let f := b.fib l
    let p := past s₀.recordsFirst b l
    let u := p.killToken f r
    exec (.unwind o) s₀ = .next (if p.laneNat f (r + 20) 4 = 0xFFFFFFFE then
      (u.escalate f 4 (u.laneNat f (r + 24) 4 % 4096) (laneWord u f r) (v.b.headD 0).toNat).endFibre f
      else u.unwindTo f r (v.b.headD 0)) := by
  have ht' : ((past s₀.recordsFirst b l).fibre (b.fib l)).tok = [] := by rw [State.fibre_eq _ (past_fibre? hL)]; exact ht
  exact congrArg _ (runChecked_lone hL (unwindPrep_live ht' hk))

end

/-! ### EFFQ (R389) -/

theorem effq_lone {o : SY} {s₀ : State} {b : Batch} {l : Nat} {x : Fibre} {j : Fin 128} (hL : Lone s₀.recordsFirst (effqNeed o) b l x)
    (hd : o.d = .g j) : exec (.effq o) s₀ = .next ((past s₀.recordsFirst b l).modFibre (b.fib l) (fun y => y.force j.val
      (BitVec.ofNat 32 ((past s₀.recordsFirst b l).effqWord (b.fib l) (wordsNat (s₀.recordsFirst.readVals (effqNeed o) b l).a))))) := by
  have hc : decodeSpec (encodeSpec o.d) = some (.g j) := by simp [hd, encodeSpec, decodeSpec]
  refine congrArg _ ((runLanes_lone hL _).trans ?_)
  simp only [State.dstCode, hc]
  rfl

theorem effqWord_dead {s : State} {f tok why : Nat} (h : s.tokReason f tok false false = some why) : s.effqWord f tok = why := by
  simp only [State.effqWord, h]

theorem effqWord_live {s : State} {f tok : Nat} (h : s.tokReason f tok false false = none) : s.effqWord f tok =
    s.laneNat f (tok % 2 ^ 16 + 24) 4 % 2 ^ 12 * 2 ^ 16 + (if (s.laneNat f (tok % 2 ^ 16 + 18) 1).testBit 4 then 2 ^ 7 else 0) +
      (if (s.laneNat f (tok % 2 ^ 16 + 18) 1).testBit 2 then 2 ^ 6 else 0) + s.laneNat f (tok % 2 ^ 16 + 18) 1 % 4 * 2 ^ 4 := by
  simp only [State.effqWord, h, bits_low, b2n_mul, bit]
  rfl

/-- R387-R389: what a live token does. -/
theorem tokensContinue : TokensContinue := by
  refine ⟨?_, ?_, ?_⟩
  · rintro o s₀ _ b l x rfl hL h0 ht v r f hk u
    have hf : (u.fibre? f).isSome := by rw [killToken_fibre?, past_fibre? hL]; rfl
    exact ⟨_, resume_lone hL h0 ht hk, rfl, resumeFrom_hsp u hf r _, resumeFrom_once u hf r _⟩
  · rintro o s₀ _ b l x rfl hL ht v r f hk u
    have hx := unwind_lone hL ht hk
    have hf : (u.fibre? f).isSome := by rw [killToken_fibre?, past_fibre? hL]; rfl
    refine ⟨fun h => ⟨_, hx.trans (congrArg _ (if_neg h)), rfl, unwindTo_fibre u hf r _⟩, fun h hs =>
      ⟨_, hx.trans (congrArg _ (if_pos h)), (endFibre_exits ?_ ?_).1⟩⟩
    · rw [escalate_fibres, killToken_fibres]
      exact sortedKeys_mapMod _ _ _ hs
    · exact hf
  · rintro o s₀ _ b l x j rfl hL hd tok
    have hx := effq_lone hL hd
    refine ⟨fun why hw => ?_, fun hk => ?_⟩
    · rw [hx, effqWord_dead hw]
    · rw [hx, effqWord_live hk]

/-- Settles O36: a token is dead or live by tokcheck, and a live one gives back what its records hold. -/
theorem tokensLiveAndDie : Obligations.TokensLiveAndDie := ⟨deadTokensRaise, tokensContinue⟩

end Sys2Proof.Claims

/-!
# O35: the delivery of an effect (R377, R378)
-/

namespace Sys2Proof.Claims
open Machine

/-! ### The registers that a handler starts with -/

theorem latest_forceFrom_below (x : Fibre) (ws : List Word) {i r : Nat} (h : r < i) : (x.forceFrom i ws).latest r = x.latest r := by
  induction ws generalizing x i with
  | nil => rfl
  | cons w ws ih => rw [Fibre.forceFrom, ih _ (by omega), latest_force_ne _ (Nat.ne_of_lt (show r < rG i from h))]

/-- What is forced into consecutive registers is their newest values. -/
theorem latestFrom_forceFrom (x : Fibre) (ws : List Word) {i : Nat} (h : i + ws.length ≤ 128) :
    (x.forceFrom i ws).latestFrom i ws.length = ws := by
  induction ws generalizing x i with
  | nil => rfl
  | cons w ws ih =>
    rw [List.length_cons] at h ⊢
    rw [Fibre.latestFrom, Fibre.forceFrom, ih _ (by omega), latest_forceFrom_below _ _ (r := rG i) (Nat.lt_succ_self i),
      latest_force _ (by simp only [rG]; omega)]

theorem natWords_length (k v : Nat) : (natWords k v).length = k := by
  induction k generalizing v with
  | zero => rfl
  | succ k ih => simp [natWords, ih]

/-! ### The suspension record (R379) -/

/-- A write of a lane slice leaves where a team stands. -/
theorem laneWrite_brec (s : State) (f off : Nat) (bs : List Byte) (t : Nat) : ((s.laneWrite f off bs).team t).brec = (s.team t).brec := by
  have h (p : Place) : ((s.placeWrite bs p).team t).brec = (s.team t).brec := by
    cases p with
    | scratch c off => rw [State.placeWrite, State.touchRange_frame]; rfl
    | tundish d off => rw [State.placeWrite, State.touchRange_frame]; rfl
    | saved u tun off =>
      by_cases hu : t = u
      · subst hu
        simp only [State.placeWrite, State.team, State.modTeam, mapGetD, mapGet_mapMod_same]
        cases mapGet s.teams t <;> rfl
      · rw [State.placeWrite, State.team_modTeam_ne _ _ hu]
  exact h _

theorem writeSusp_fibres (s : State) (f at_ : Nat) (x : Fibre) (e : PendEff) (kind tgen shrec : Nat) :
    (s.writeSusp f at_ x e kind tgen shrec).fibres = s.fibres := by
  unfold State.writeSusp
  dsimp only
  split <;> split <;> simp only [laneWrite_fibres]

theorem writeSusp_brec (s : State) (f at_ : Nat) (x : Fibre) (e : PendEff) (kind tgen shrec t : Nat) :
    ((s.writeSusp f at_ x e kind tgen shrec).team t).brec = (s.team t).brec := by
  unfold State.writeSusp
  dsimp only
  split <;> split <;> simp only [laneWrite_brec]

/-! ### Delivery (R378) -/

section
variable {s u : State} {f : Nat} {x : Fibre} {e : PendEff}

/-- An effect that nothing holds up is delivered. -/
theorem Deliverable.deliver (h : Deliverable s f x e u) : exec (.effectDelivery f) s = .next (s.deliver f e) := by
  have hf := State.fibre_eq s h.fibre
  have hp : [4, 5, 6, 7, 8].any x.tokPending = false := by
    simpa [Fibre.tokPending] using ⟨h.free 4 (by omega) (by omega), h.free 5 (by omega) (by omega), h.free 6 (by omega) (by omega),
      h.free 7 (by omega) (by omega), h.free 8 (by omega) (by omega)⟩
  have hb : State.breaks x e.eff = false := by simp [State.breaks, h.mode]
  show execEffectDelivery f s = _
  simp only [execEffectDelivery, h.fibre, h.runs, State.tryDeliver, hf, h.eff, hp, hb, h.mode, Bool.false_and, Bool.or_self,
    Bool.false_eq_true, if_false, Bool.not_false, if_true]

section
variable (h : Deliverable s f x e u)
include h

theorem Deliverable.record {r : Nat} (hr : u.findHandler f (u.blockOf f).lane e.eff 513 (u.fibre f).hsp.toNat = .record r) :
    exec (.effectDelivery f) s = .next (u.deliverTo f e false r) := by
  rw [h.deliver, State.deliver, ← h.arrived]
  simp only [hr]

theorem Deliverable.bad {r : Nat} (hr : u.findHandler f (u.blockOf f).lane e.eff 513 (u.fibre f).hsp.toNat = .bad r) :
    exec (.effectDelivery f) s = .next (u.killFibre f 0x026 e.spc (marg 1 r)) := by
  rw [h.deliver, State.deliver, ← h.arrived]
  simp only [hr]
  rfl

/-- At the end of the chain an effect that the team handler does not take kills, unless it is ISA.MISSING (R394). -/
theorem Deliverable.bottom {v : Nat} (hv : u.findHandler f (u.blockOf f).lane e.eff 513 (u.fibre f).hsp.toNat = .bottom v)
    (hn : ¬(v = hspNone ∧ (u.blockOf f).hrgn ≠ 0)) (he : e.eff ≠ 0x002) :
    exec (.effectDelivery f) s = .next (u.killFibre f e.eff e.spc e.arg) := by
  rw [h.deliver, State.deliver, ← h.arrived]
  simp only [hv, if_neg hn, State.unhandled, if_neg (show e.eff ≠ Eff.isaMissing from he)]

theorem Deliverable.isSome : (u.fibre? f).isSome := by
  rw [h.arrived]
  exact (OnlyAccesses.refl _).arriveBefore.isSome (arriveAll_isSome (by rw [h.fibre]; rfl))

end

theorem deliverTo_noRoom {r : Nat} (hr : suspAt (u.fibre f) e < 0 ∨ ((u.blockOf f).lane : Int) < suspAt (u.fibre f) e + 128) :
    u.deliverTo f e false r = u.killFibre f 0x026 e.spc (marg 1 (suspAt (u.fibre f) e)) := if_pos hr

/-- The fibre that enters the handler of a record, its suspension record at an offset. -/
def entering (u : State) (f : Nat) (e : PendEff) (r at_ : Nat) (y : Fibre) : Fibre :=
  { (((y.force (rG 2) (BitVec.ofNat 32 at_)).forceFrom 4
      (natWords 2 e.arg ++ natWords 2 (tokenFor u f (u.laneNat f (r + 20) 2) at_) ++ [BitVec.ofNat 32 e.eff])).jump (laneWord u f r)) with
    hsp := laneWord u f (r + 12), eff := none, capMode := false, st := .ready, retry := false }

theorem deliverTo_record {r : Nat} (h0 : 0 ≤ suspAt (u.fibre f) e)
    (hr : suspAt (u.fibre f) e + 128 ≤ ((u.blockOf f).lane : Int)) : u.deliverTo f e false r =
      (u.writeSusp f (suspAt (u.fibre f) e).toNat (u.fibre f) e e.kind (u.laneNat f (r + 20) 2) r).modFibre f
        (entering u f e r (suspAt (u.fibre f) e).toNat) := by
  have hn : ¬(suspAt (u.fibre f) e < 0 ∨ ((u.blockOf f).lane : Int) < suspAt (u.fibre f) e + 128) := by omega
  have hb := writeSusp_brec u f (suspAt (u.fibre f) e).toNat (u.fibre f) e e.kind (u.laneNat f (r + 20) 2) r (fibTeam f)
  refine (if_neg hn).trans ?_
  simp only [Bool.false_eq_true, if_false]
  unfold entering tokenFor
  unfold State.teamOf
  rw [← hb]
  rfl

theorem entering_latest (u : State) (f : Nat) (e : PendEff) (r at_ : Nat) (y : Fibre) :
    (entering u f e r at_ y).latest (rG 2) = BitVec.ofNat 32 at_ ∧ (entering u f e r at_ y).latestFrom 4 5 =
      natWords 2 e.arg ++ natWords 2 (tokenFor u f (u.laneNat f (r + 20) 2) at_) ++ [BitVec.ofNat 32 e.eff] := by
  refine ⟨?_, ?_⟩
  · refine (latest_forceFrom_below _ _ (by decide)).trans (latest_force _ (by decide) _)
  · refine latestFrom_forceFrom _ (natWords 2 e.arg ++ natWords 2 (tokenFor u f (u.laneNat f (r + 20) 2) at_) ++
      [BitVec.ofNat 32 e.eff]) ?_
    simp [natWords_length]

end

/-- Settles O35: what the search ends at, and the room below g2, decide between the handler and the kill. -/
theorem effectsReachTheirHandler : Obligations.EffectsReachTheirHandler := by
  intro s f x e u h y at_
  obtain ⟨z, hz⟩ := Option.isSome_iff_exists.1 h.isSome
  refine ⟨fun r hr => ⟨fun h0 h1 => ?_, fun hn => ?_⟩, fun r hr => h.bad hr, fun v hv he hb => h.bottom hv ?_ he⟩
  · obtain ⟨hg, hw⟩ := entering_latest u f e r at_.toNat z
    refine ⟨_, entering u f e r at_.toNat z, (h.record hr).trans (congrArg _ (deliverTo_record h0 h1)), ?_, rfl, rfl, hg, hw, rfl, rfl,
      rfl⟩
    rw [State.fibre?_modFibre, State.fibre?, writeSusp_fibres, ← State.fibre?, hz]
    rfl
  · exact (h.record hr).trans (congrArg _ (deliverTo_noRoom hn))
  · rintro ⟨rfl, hh⟩
    rcases hb with hb | hb
    · exact absurd hb (by decide)
    · exact hh hb

end Sys2Proof.Claims

/-!
# O20: FENCE (R325, R329, R352)
-/

namespace Sys2Proof.Claims
open Machine

section
variable {o : ME} {s : State} {b : Batch} {l : Nat} {x : Fibre}

/-- The acquire of a FENCE, which waits for the fibre's reads (R352). -/
def fenceAcquires (o : ME) (s : State) (b : Batch) (l : Nat) (t : State) : State :=
  if o.ord = .acq ∨ o.ord = .ar ∨ o.ord = .sc then
    if (t.arriveBefore (b.fib l) (fun _ => true)).readsLeft (b.fib l) then
      (t.arriveBefore (b.fib l) (fun _ => true)).stall (s.laneOf b l)
    else (t.arriveBefore (b.fib l) (fun _ => true)).acquire (b.fib l) o.sc
  else t

theorem fence_lone (hL : Lone s (fenceNeed o) b l x) : exec (.fence o) s = .next
    (if o.ord = .rel ∨ o.ord = .ar ∨ o.ord = .sc then afterRelease (past s b l) (s.laneOf b l) o.sc (fenceAcquires o s b l)
    else fenceAcquires o s b l (past s b l)) := by
  refine congrArg _ ((runLanes_lone hL _).trans ?_)
  simp only [releases, acquires, Bool.or_eq_true, beq_iff_eq, or_assoc]
  rfl

end

/-- Settles O20: the order and what the release answers decide. -/
theorem fencesOrder : Obligations.FencesOrder := by
  intro o s b l x hL f rel acq
  have hx := fence_lone hL
  refine ⟨fun hn => hx.trans (congrArg _ (if_neg hn)), fun u hr hu => ?_, fun u hr hu => ?_, fun u g hr hu => ?_⟩ <;>
    rw [hx, if_pos hr, afterRelease, State.laneOf_f, hu] <;> rfl

end Sys2Proof.Claims

/-!
# O21: WLINE and the watch slots (R353, R354)
-/

namespace Sys2Proof.Claims
open Machine

/-! ### WLINE over a lone lane (R354) -/

section
variable {o : ME} {s : State} {b : Batch} {l : Nat} {x : Fibre} {a : Acc} {p : Place}
  (hA : Access o s (wlineNeed o) b l x (wantRead o [1, 2, 3, 4, 5]) a)
  (hb : ((reaching s b l a).arriveAt (b.fib l) a.loc).behind (b.fib l) a.loc = false)
  (hp : ((reaching s b l a).arriveAt (b.fib l) a.loc).issuedPlace (b.fib l) a.loc = some p)
include hA hb hp

theorem wline_changed (hv : leNat (((reaching s b l a).arriveAt (b.fib l) a.loc).placeRead o.sz.bytes p) ≠
      wordsNat (s.readVals (wlineNeed o) b l).b) :
    exec (.wline o) s = .next ((afterwards o b l (((reaching s b l a).arriveAt (b.fib l) a.loc).freeWatch (b.fib l))).putD
      (s.laneOf b l) .v o.d 1 0) := by
  refine congrArg Host.Outcome.next ((runChecked_lone hA.lone (mePrep_ok hA.calm hA.ok)).trans ?_)
  rw [wlineAt, State.laneOf_f, ← reaching, readLoc_place hb hp]
  simp only [if_pos hv, afterAccess_eq]

/-- The value expected is found: the fibre waits on its sector, where it has a slot or there is one. -/
theorem wline_same (hv : leNat (((reaching s b l a).arriveAt (b.fib l) a.loc).placeRead o.sz.bytes p) =
      wordsNat (s.readVals (wlineNeed o) b l).b) {sp sec : Nat}
    (hw : ((reaching s b l a).arriveAt (b.fib l) a.loc).watchSector (b.fib l) a.loc = some (sp, sec)) :
    let u := (reaching s b l a).arriveAt (b.fib l) a.loc
    ((u.slotOfFibre (b.fib l)).or (mapFree (u.core (u.coreOf (b.fib l))).watch 64) = none →
      exec (.wline o) s = .next (u.putD (s.laneOf b l) .v o.d 1 1)) ∧
    (∀ i, (u.slotOfFibre (b.fib l)).or (mapFree (u.core (u.coreOf (b.fib l))).watch 64) = some i → exec (.wline o) s =
      .next ((u.modCore (u.coreOf (b.fib l)) (fun c => { c with
        watch := mapSet c.watch i { fib := b.fib l, sector := sec, space := sp, changed := false } })).waitAt (s.laneOf b l)
          (.wline i))) := by
  intro u
  have hx : exec (.wline o) s = .next (wlineAt o (s.laneOf b l) a (wordsNat (s.readVals (wlineNeed o) b l).b) (reaching s b l a)) :=
    congrArg Host.Outcome.next (runChecked_lone hA.lone (mePrep_ok hA.calm hA.ok))
  rw [hx, wlineAt, State.laneOf_f, readLoc_place hb hp]
  simp only [hv, ne_eq, not_true_eq_false, if_false, hw]
  exact ⟨fun h => by rw [h], fun i h => by rw [h]⟩

end

/-! ### A marked slot makes its fibre read again (R354) -/

/-- The state in which a fibre's slots on a core are no longer marked. -/
def unmarked (s : State) (c f : Nat) : State :=
  s.modCore c (fun y => { y with watch := mapAll y.watch (fun _ w => if w.fib = f then { w with changed := false } else w) })

theorem unmarked_clk (s : State) (c f k : Nat) : ((unmarked s c f).core k).clk = (s.core k).clk := by
  by_cases h : k = c
  · rw [h, unmarked, State.core_modCore]
  · rw [unmarked, State.core_modCore_ne _ _ h]

theorem watchSlotTrigger_hit {s : State} {c f i : Nat} {x : Fibre} {w : Watch} (hx : s.fibre? f = some x)
    (hst : x.st = .waiting (.wline i)) (hh : x.halted = false) (hm : (i, w) ∈ (s.core c).watch) (hf : w.fib = f)
    (hc : w.changed = true) : exec (.watchSlotTrigger c f) s = .next ((unmarked s c f).retryFibre f) := by
  have hit : (s.core c).watch.any (fun e => e.2.fib == f && e.2.changed) = true :=
    List.any_eq_true.2 ⟨(i, w), hm, by simp [hf, hc]⟩
  show execWatchSlotTrigger c f s = _
  simp only [execWatchSlotTrigger, hit, State.fibre_eq s hx, hst, hh, Bool.not_false, Bool.and_self, if_true]
  rfl

/-! ### Writes mark the slots on their sectors (R353) -/

section
variable {c i : Nat} {w : Watch}

/-- A core's slot holds its watch, marked or not. -/
def Watching (s : State) (c i : Nat) (w : Watch) : Prop := ∃ m, mapGet (s.core c).watch i = some { w with changed := m }

/-- A core's slot is marked. -/
def Marked (s : State) (c i : Nat) (w : Watch) : Prop := mapGet (s.core c).watch i = some { w with changed := true }

/-- A write to a sector as it marks one slot. -/
def markOn (sp sec : Nat) (v : Watch) : Watch := if v.space = sp ∧ v.sector = sec then { v with changed := true } else v

theorem touchWatch_slot (s : State) (sp sec c i : Nat) :
    mapGet ((s.touchWatch sp sec).core c).watch i = (mapGet (s.core c).watch i).map (markOn sp sec) := by
  rw [State.touchWatch, core_mapAll _ _ fun _ => rfl, mapGet_mapAll]
  rfl

theorem Watching.touchWatch {s : State} (h : Watching s c i w) (sp sec : Nat) : Watching (s.touchWatch sp sec) c i w := by
  obtain ⟨m, hm⟩ := h
  rw [Watching]
  simp only [touchWatch_slot, hm, Option.map_some, markOn]
  split
  · exact ⟨true, rfl⟩
  · exact ⟨m, rfl⟩

theorem Marked.touchWatch {s : State} (h : Marked s c i w) (sp sec : Nat) : Marked (s.touchWatch sp sec) c i w := by
  rw [Marked, touchWatch_slot, h, Option.map_some, markOn]
  split <;> rfl

theorem Watching.marked {s : State} (h : Watching s c i w) : Marked (s.touchWatch w.space w.sector) c i w := by
  obtain ⟨m, hm⟩ := h
  rw [Marked, touchWatch_slot, hm, Option.map_some, markOn]
  rw [if_pos ⟨rfl, rfl⟩]

/-- A change of the state that leaves the cores. -/
theorem Watching.frame {s t : State} (h : Watching s c i w) (e : t.cores = s.cores) : Watching t c i w := by
  unfold Watching State.core
  rw [e]
  exact h

theorem copyUpdate_cores (s : State) (die pa key : Nat) (bs : List Byte) : (s.copyUpdate die pa key bs).cores = s.cores := by
  rw [State.copyUpdate_frame]

theorem dramWrite_cores (s : State) (key pa : Nat) (bs : List Byte) : (s.dramWrite key pa bs).cores = s.cores := by
  rw [State.dramWrite_frame]

theorem combine_cores (s : State) (key sector n : Nat) (xs : List (Nat × Comm)) : (s.combine key sector n xs).cores = s.cores := by
  induction n generalizing s xs with
  | zero => rfl
  | succ n ih =>
    unfold State.combine
    split
    · rfl
    · rw [ih, copyUpdate_cores, dramWrite_cores]

/-- A recall takes Update-only sectors from the L1s, and no watch slot from anywhere. -/
theorem Watching.recallSector {s : State} (h : Watching s c i w) (pa key : Nat) : Watching (s.recallSector pa key) c i w := by
  unfold State.recallSector
  dsimp only
  split
  · exact h
  · refine Watching.touchWatch (Watching.frame ?_ (combine_cores _ _ _ _ _)) _ _
    unfold Watching
    rw [core_mapAll _ _ fun _ => rfl]
    split
    · exact h
    · exact h

theorem Watching.homeWrite {s : State} (h : Watching s c i w) {die pa key : Nat} {bs : List Byte} (hs : w.space = 0)
    (hk : w.sector = pa / 64) : Marked (s.homeWrite die pa key bs) c i w := by
  have hr := ((h.recallSector pa key).frame (dramWrite_cores _ key pa bs)).frame (copyUpdate_cores _ die pa key bs)
  rw [State.homeWrite, ← hs, ← hk]
  exact hr.marked

/-- A range marks the slots on every sector that its bytes touch. -/
theorem Watching.touchRange {s : State} (h : Watching s c i w) {off n : Nat} (hn : 0 < n) (h1 : off / 64 ≤ w.sector)
    (h2 : w.sector ≤ (off + n - 1) / 64) : Marked (s.touchRange w.space off n) c i w := by
  have hm : w.sector ∈ List.range' (off / 64) ((off + n + 63) / 64 - off / 64) := by
    rw [List.mem_range'_1]
    omega
  unfold State.touchRange
  generalize List.range' (off / 64) _ = ks at hm
  have marked : ∀ (js : List Nat) (t : State), Marked t c i w → Marked (js.foldl (fun s k => s.touchWatch w.space k) t) c i w :=
    fun js t ht => List.foldlRecOn js _ (motive := fun u => Marked u c i w) ht fun u hu k _ => hu.touchWatch _ k
  induction ks generalizing s with
  | nil => cases hm
  | cons k ks ih =>
    rcases List.mem_cons.1 hm with rfl | hk
    · exact marked ks _ h.marked
    · exact ih (h.touchWatch _ k) hk

theorem Watching.modCore {s : State} (h : Watching s c i w) (k : Nat) {g : Core → Core} (hg : ∀ y, (g y).watch = y.watch) :
    Watching (s.modCore k g) c i w := by
  unfold Watching
  by_cases hk : c = k
  · subst hk
    rw [State.core_modCore, hg]
    exact h
  · rw [State.core_modCore_ne _ _ hk]
    exact h

end

/-- Settles O21: WLINE's answer hangs on the value and on a slot; a trigger tries the instruction again; every write ends in marking the
slots on its sectors. -/
theorem watchSlots : Obligations.WatchSlots := by
  refine ⟨?_, ?_, ?_⟩
  · intro o s b l x a p sp sec hA f u hb hp
    refine ⟨wline_changed hA hb hp, fun hv hs hw => ?_⟩
    obtain ⟨h0, h1⟩ := wline_same hA hb hp hv hw
    exact ⟨fun hm => h0 (by rw [hs, hm]; rfl), fun i hm => h1 i (by rw [hs, hm]; rfl)⟩
  · intro s c f x i w hx hst hh hm hf hc
    refine ⟨_, watchSlotTrigger_hit hx hst hh hm hf hc, ?_⟩
    rw [retryFibre_eq (show (unmarked s c f).fibre? f = some x from hx)]
    refine ⟨?_, ?_⟩
    · show (State.fibre? (s.modFibre f _) f).map _ = _
      rw [State.fibre?_modFibre, hx]
      rfl
    · dsimp only
      rw [unmarked_clk]
      rfl
  · intro s c i w bs hw hbs marks
    have h : Watching s c i w := ⟨w.changed, hw⟩
    have hn : 0 < bs.length := List.length_pos_iff.2 hbs
    refine ⟨fun die pa key hs hk => h.homeWrite hs hk, fun k off hs h1 h2 => ?_, fun d off hs h1 h2 => ?_⟩
    · have hr := (h.modCore k (g := fun x => { x with scratch := x.scratch.writes off bs }) fun _ => rfl).touchRange hn h1 h2
      rw [hs] at hr
      exact hr
    · have hr := (h.frame (t := s.modDie d (fun x => { x with tundish := x.tundish.writes off bs })) rfl).touchRange hn h1 h2
      rw [hs] at hr
      exact hr

end Sys2Proof.Claims

/-!
# O25: WLOAD (R307)
-/

namespace Sys2Proof.Claims
open Machine

/-! ### The issue (R284, R307) -/

/-- The checks of WLOAD find an image load. -/
theorem wloadPrep_ok {o : EN} {ln : Ln} {v : Vals} {s : State} {k : CmdKind} (h : wloadPrep o ln v s = .ok k) :
    ∃ off, k = .wload off (slotField o) (wfmtOf o) (wnOf o) (wkgOf o) := by
  unfold wloadPrep at h
  dsimp only at h
  split at h
  · cases h
  · cases h
    exact ⟨_, rfl⟩

/-- The elected lane's checks pass, in a batch of that lane alone. -/
theorem runElectChecked_lone {α : Type} {s : State} {m : Need} {b : Batch} {l : Nat} {x : Fibre} (h : Lone s { m with live := true } b l x)
    {prep : Ln → Vals → State → Prep α} {body : Ln → Vals → α → State → State} {a : α}
    (hp : prep (s.laneOf b l) (s.readVals m b l) (past s b l) = .ok a) :
    runElectChecked m prep body s = body (s.laneOf b l) (s.readVals m b l) a (past s b l) := by
  rw [runElectChecked, runElect_lone h]
  simp only [hp]

theorem issueThen_done {s u : State} {ln : Ln} {c : Cmd} (h : tokFull (s.fibre ln.f) c.tok = false)
    (he : s.engineFull (s.coreOf ln.f) c.kind = false) (hn : isNet c.kind = false) (hr : s.release ln.f .core = (.done, u))
    (act : State → State) : issueThen s ln c act = act (((u.touchHandle ln.f c.hx).touchHandle ln.f c.hy).tokOpen ln.f c.tok) := by
  simp [issueThen, h, he, afterRelease, hn, hr]

theorem wload_issues {o : EN} {s : State} {b : Batch} {l : Nat} {x : Fibre} {k : CmdKind} {u : State} {m : Need}
    (hm : m = { head := o.toHead, imm := 0, na := offRegs o.hx o.a, tokD := true }) (h : Lone s { m with live := true } b l x)
    (hp : wloadPrep o (s.laneOf b l) (s.readVals m b l) (past s b l) = .ok k)
    (ht : tokFull ((past s b l).fibre (b.fib l)) ((past s b l).cmdOf (s.laneOf b l) o k).tok = false)
    (hf : (past s b l).engineFull ((past s b l).coreOf (b.fib l)) k = false)
    (hr : (past s b l).release (b.fib l) .core = (.done, u)) :
    let c := (past s b l).cmdOf (s.laneOf b l) o k
    let v := ((u.touchHandle (b.fib l) c.hx).touchHandle (b.fib l) c.hy).tokOpen (b.fib l) c.tok
    exec (.wload o) s = .next ((v.modCore (v.coreOf (b.fib l)) (fun y => { y with
      tags := retag y.tags ((v.team b.team).brec.wsBase + slotField o) (imageSlots (wfmtOf o) (wnOf o) (wkgOf o)) (wfmtOf o) (wnOf o)
        (wkgOf o) })).addCmd c) := by
  intro c v
  subst hm
  obtain ⟨off, rfl⟩ := wloadPrep_ok hp
  show execWload o s = _
  rw [execWload, runElectChecked_lone h hp]
  refine congrArg _ (issueThen_done (ln := s.laneOf b l) (c := c) ht hf rfl hr _)

/-! ### The last segment (R286, R307) -/

/-- The bytes of the last segment, written into the weight buffer. -/
def loadedWeights (u : State) (c : Cmd) (slot p : Nat) (bs : List Byte) : State :=
  u.modCore (u.cmdCore c) (fun y => { y with wbuf := y.wbuf.writes (((u.team c.team).brec.wsBase + slot) * 8192 + p) bs })

/-- The end of a WLOAD, whose masks are checked first. -/
def maskChecked (id : Nat) (c : Cmd) (v : State) (y : Cmd) : State :=
  v.endCmd id (if v.imageOk c then y else { y with errs := y.errs ++ [2 ^ 31 + 4 * 2 ^ 24 + c.hx % 4096 * 2 ^ 12] })

section
variable {s : State} {id : Nat} {c : Cmd} {p n off slot fmt m kg : Nat} (hk : c.kind = .wload off slot fmt m kg)
include hk

/-- A segment of an image is read where its byte lies, and goes to its place in the buffer, or zeros do. -/
theorem wloadSegment_last {r : Seg (List Byte)} {u : State} (hr : s.engRead (inHand c []) c.x ((off + p : Nat) : Int) n = (r, u)) :
    s.wloadSegment (inHand c []) [(p, n)] = match r with
      | .ok bs => (.wrote n false, loadedWeights u c slot p bs)
      | .absent => (.absent, u)
      | .busy => (.busy, u)
      | .err e => (.failed (2 ^ 31 + e * 2 ^ 24 + c.hx % 4096 * 2 ^ 12), loadedWeights u c slot p (List.replicate n 0)) := by
  have hrun : ((s.cmdRun (inHand c []) p).src.getD ((inHand c []).x, 0)) = (c.x, ((off + p : Nat) : Int)) := by
    rw [cmdRun_inHand]
    simp only [State.cmdRun, hk, Option.getD_some]
  have hslot (v : State) : v.slotByte (inHand c []) p = ((v.team c.team).brec.wsBase + slot) * 8192 + p := by
    simp only [State.slotByte, show (inHand c []).kind = c.kind from rfl, hk]
    rfl
  simp only [State.wloadSegment, List.head?_cons, Option.map_some, Option.getD_some, List.map_cons, List.map_nil, List.sum_cons,
    List.sum_nil, Nat.add_zero, hrun, hr, hslot]
  cases r <;> rfl

/-- Once nothing is left of a WLOAD, its masks are checked and its token is closed. -/
theorem wloadCommand_ends (h : LastRun s id c [(p, n)]) (hm : s.mayMove c = true) (hn : n ≤ s.segLen c (s.cmdRun c p) n) {d : Did}
    {v : State} (hd : s.wloadSegment (inHand c []) [(p, n)] = (d, v)) (hb : d ≠ .busy) (ha : d ≠ .absent) :
    exec (.wloadCommand id) s = .next (maskChecked id c v (took (inHand c []) d)) := by
  have hi : v.imageOk (took (inHand c []) d) = v.imageOk c := by cases d <;> rfl
  have hx : (took (inHand c []) d).hx = c.hx := by cases d <;> rfl
  have he : ((took (inHand c []) d).left.isEmpty && (took (inHand c []) d).fix.isEmpty) = true := by
    rw [took_left, took_fix, show (inHand c []).fix = [] from h.fix]
    rfl
  show execWloadCommand id s = _
  simp only [execWloadCommand, h.here, hk, hm, startCmd_lastRun h, segStep_lastRun h (act := fun c rs s =>
    ((s.wloadSegment c rs).1, c, (s.wloadSegment c rs).2)) (cutSeg_whole hn) (by rw [hd]), stepped_performed hb ha, he,
    Bool.not_true, Bool.false_eq_true, if_false, if_true, hi]
  rw [maskChecked, ← hx]
  rfl

end

/-- Settles O25: the issue retags and hands over, and the one segment left goes into the buffer before the masks are checked. -/
theorem weightLoads : Obligations.WeightLoads := by
  refine ⟨?_, ?_⟩
  · intro o s b l x k u m hL hp c ht hf hr v
    exact wload_issues rfl hL hp ht hf hr
  · intro s id c p n off slot fmt m kg r u h hk hm hn hr put ended
    have hd := wloadSegment_last hk hr
    refine ⟨?_, ?_⟩
    · rintro bs rfl
      have hx := wloadCommand_ends hk h hm hn hd (by simp) (by simp)
      simp only [took, Bool.or_false] at hx
      exact hx
    · rintro e rfl
      exact wloadCommand_ends hk h hm hn hd (by simp) (by simp)

end Sys2Proof.Claims

/-!
# O27: staged commands and accumulator tiles (R305-R308, R310-R313)
-/

namespace Sys2Proof.Claims
open Machine

/-! ### MMAS (R308, R310) -/

/-- R308, R310: staging and its clearing change the team's mcM and no engine. -/
theorem stagedCommands : StagedCommands := by
  refine ⟨?_, ?_⟩
  · intro o s b l x k hL hp c
    exact congrArg _ (runElectChecked_lone (m := mmaNeed o) hL hp)
  · intro o s b l x hL
    exact congrArg _ (runElect_lone (m := { head := o.toHead, imm := 0 }) hL _)

/-! ### ACCLD and ACCSTAT (R305, R306, R312) -/

theorem tilePrep_ok {α : Type} {o : EN} {ln : Ln} {s : State} (h : tileField o < (s.blockOf ln.f).acc) (a : α) :
    tilePrep o ln s a = .ok a := by
  simp [tilePrep, allocErr, h]

/-- The number of registers that an ACCLD gives (R312). -/
def accldRegs (o : EN) : Nat := if o.x.getLsbD 3 then 4 else 1

theorem accldPrep_ok {o : EN} {ln : Ln} {v : Vals} {s : State} (h : tileField o < (s.blockOf ln.f).acc) (hi : wordsNat v.a < 128)
    (hj : wordsNat v.b + accldRegs o ≤ 128) : accldPrep o ln v s = .ok (wordsNat v.a, wordsNat v.b) := by
  have hn : ¬(128 ≤ wordsNat v.a ∨ 128 < wordsNat v.b + accldRegs o) := by omega
  simp only [accldPrep, tilePrep_ok h]
  exact if_neg hn

section
variable {o : EN} {s : State} {b : Batch} {l : Nat} {x : Fibre} {i j : Nat}

def accldNeed (o : EN) : Need := { head := o.toHead, imm := 0, na := 1, nb := 1, wd := accldRegs o }

/-- An ACCLD whose checks pass stays while a command has still to finish with its tile, and otherwise reads behind its release. -/
theorem accld_lone (hL : Lone s (accldNeed o) b l x)
    (hp : accldPrep o (s.laneOf b l) (s.readVals (accldNeed o) b l) (past s b l) = .ok (i, j)) : exec (.accld o) s = .next
    (if (past s b l).tileBusy b.team (tileField o) || (past s b l).engineFull ((past s b l).coreOf (b.fib l)) (.accz 0) then
      (past s b l).stall (s.laneOf b l)
    else afterRelease (past s b l) (s.laneOf b l) .core (fun u =>
      let r := gather (accldRegs o) u (fun u k => u.readAcc b.team (tileField o) i (j + k))
      r.2.putFrom (s.laneOf b l) .v o.d 0 r.1)) :=
  congrArg _ (runChecked_lone hL hp)

theorem accld_reads {u : State} (hu : u.mod.bad = []) (t tile i j k : Nat) :
    gather k u (fun u m => u.readAcc t tile i (j + m)) = ((List.range k).map (fun m => u.accWord t tile i (j + m)), u) := by
  rw [gather_of_state_kept (fun m => by rw [readAcc_of_no_error hu])]
  simp only [readAcc_of_no_error hu]

end

/-- ACCSTAT over a lone lane that is no helper, at a tile that its commands have finished with. -/
theorem accstat_lone {o : EN} {s p : State} {b : Batch} {l : Nat} {x : Fibre} (hL : Lone s { head := o.toHead, imm := 0, wd := 1 } b l x)
    (hx : x.helper = false) (ht : tileField o < ((past s b l).blockOf (b.fib l)).acc)
    (hb : (past s b l).tileBusy b.team (tileField o) = false)
    (hf : (past s b l).engineFull ((past s b l).coreOf (b.fib l)) (.accz 0) = false)
    (hr : (past s b l).release (b.fib l) .core = (.done, p)) :
    let n := p.tileOf b.team (tileField o)
    exec (.accstat o) s = .next ((p.modCore (p.teamCore b.team) (fun c => { c with derr := c.derr.filter (fun k => k != n) })).putD
      (s.laneOf b l) .v o.d 1 (if (p.core (p.teamCore b.team)).derr.contains n then 1 else 0)) := by
  intro n
  have hw : s.elect o.guard b = some l := by
    have hg : s.guard b l o.guard = true := (fate_go hL.fate).1
    simp [State.elect, hL.lanes, hg, State.fibre_eq s hL.fibre, hx]
  refine congrArg _ ((runBatch_lone hL _).trans ?_)
  simp only [hL.cur, Option.bind_some, hw, List.find?_cons, State.laneOf_l, State.laneOf_f, State.laneOf_b, BEq.rfl,
    tilePrep_ok (ln := s.laneOf b l) ht, hb, hf, hr, Bool.or_self, Bool.false_eq_true, if_false, List.foldl_cons, List.foldl_nil]
  rfl

/-! ### ACCZ (R312) -/

/-- The end of a command is its fibre's and the table's of commands. -/
theorem endCmd_frame (s : State) (id : Nat) (c : Cmd) :
    s.endCmd id c = { s with cmds := (s.endCmd id c).cmds, fibres := (s.endCmd id c).fibres } := by
  unfold State.endCmd State.tokClose
  dsimp only
  split
  · rfl
  · split
    · rfl
    · split_ifs <;> rfl

theorem endCmd_core (s : State) (id : Nat) (c : Cmd) (k : Nat) : (s.endCmd id c).core k = s.core k := by
  rw [endCmd_frame]
  rfl

theorem mapGet_mapFilter {α : Type} (m : Map α) (p : Nat → Bool) (k : Nat) :
    mapGet (mapFilter m (fun k _ => p k)) k = if p k then mapGet m k else none := by
  induction m with
  | nil => simp [mapFilter]
  | cons e m ih =>
    obtain ⟨j, v⟩ := e
    by_cases hj : j = k
    · subst hj
      cases hp : p j <;> simp_all [mapFilter, mapGet]
    · cases hp : p j <;> simp_all [mapFilter, mapGet]

/-- The state in which a team's tile holds zeros alone. -/
def zeroed (s : State) (c : Cmd) (tile : Nat) : State :=
  s.modCore (s.cmdCore c) (fun y => { y with tiles := mapFilter y.tiles (fun k _ => k / 16384 != s.tileOf c.team tile) })

theorem zeroed_tiles (s : State) (c : Cmd) (tile m : Nat) : mapGetD ((zeroed s c tile).core (s.cmdCore c)).tiles m 0 =
    if m / 16384 = s.tileOf c.team tile then 0 else mapGetD (s.core (s.cmdCore c)).tiles m 0 := by
  rw [zeroed, State.core_modCore, mapGetD, mapGet_mapFilter, mapGetD]
  by_cases h : m / 16384 = s.tileOf c.team tile <;> simp [h]

theorem zeroed_accWord (s : State) (c : Cmd) {tile i j : Nat} (hi : i < 128) (hj : j < 128) :
    (zeroed s c tile).accWord c.team tile i j = 0 := by
  refine (zeroed_tiles s c tile (wordKey (s.tileOf c.team tile) i j)).trans (if_pos ?_)
  simp only [wordKey]
  omega

theorem zeroed_other (s : State) (c : Cmd) {tile k m : Nat} (h : k ≠ s.cmdCore c ∨ m / 16384 ≠ s.tileOf c.team tile) :
    mapGetD ((zeroed s c tile).core k).tiles m 0 = mapGetD (s.core k).tiles m 0 := by
  by_cases hk : k = s.cmdCore c
  · subst hk
    rw [zeroed_tiles, if_neg (h.resolve_left (by simp))]
  · rw [zeroed, State.core_modCore_ne _ _ hk]

theorem acczCommand_eq {s : State} {id : Nat} {c : Cmd} {tile : Nat} (hc : mapGet s.cmds id = some c) (hk : c.kind = .accz tile)
    (hm : s.mayMove c = true) : exec (.acczCommand id) s = .next ((zeroed s c tile).endCmd id { c with bytes := 65536 }) := by
  show execAcczCommand id s = _
  simp only [execAcczCommand, hc, hk, hm, Bool.not_true, Bool.false_eq_true, if_false]
  rfl

/-! ### ACCST (R306, R313) -/

theorem finishAccst_unreleased (s : State) {c : Cmd} (id : Nat) (hr : c.rel = false) : s.finishAccst id c = s.endCmd id c := by
  simp [State.finishAccst, State.cmdRelease, State.relWaits, hr]

theorem rowWrites_accst {c : Cmd} {tile row col : Nat} {rnd : Rm} (hk : c.kind = .accst tile row col rnd) :
    rowWrites c = accstWrites c row col c.at_ (accstRow c.y.e.fmt rnd (rowWords c)) := by
  simp only [rowWrites, hk]

theorem zipIdx_range_map {α β : Type} (n : Nat) (g : Nat → α) (h : α → β) :
    ((List.range n).map g).zipIdx.map (fun e => (e.2, h e.1)) = (List.range n).map (fun j => (j, h (g j))) := by
  refine List.ext_getElem (by simp) fun i h1 h2 => ?_
  simp

/-- An ACCST that holds the words of a row, by number; and with a write for each of the row's elements and containers. -/
def withRow (c : Cmd) (g : Nat → Word) : Cmd := { c with got := (List.range 128).map (fun j => (j, (g j).toNat)) }

def tookRow (c : Cmd) (row col : Nat) (rnd : Rm) (g : Nat → Word) : Cmd :=
  { withRow c g with
    left := (List.range (accstWrites c row col c.at_ (accstRow c.y.e.fmt rnd ((List.range 128).map g))).length).map (fun k => [(k, 1)]) }

theorem rowWrites_withRow {c : Cmd} {tile row col : Nat} {rnd : Rm} (hk : c.kind = .accst tile row col rnd) (g : Nat → Word) :
    rowWrites (withRow c g) = accstWrites c row col c.at_ (accstRow c.y.e.fmt rnd ((List.range 128).map g)) := by
  have hwords : rowWords (withRow c g) = (List.range 128).map g := by simp [rowWords, withRow, Function.comp_def]
  rw [rowWrites_accst (c := withRow c g) hk, hwords]
  rfl

section
variable {s : State} {id : Nat} {c : Cmd} {tile row col : Nat} {rnd : Rm} (hc : mapGet s.cmds id = some c)
  (hk : c.kind = .accst tile row col rnd) (hm : s.mayMove c = true)
include hc hk hm

theorem accstCommand_ends (h : 128 ≤ c.at_) (hr : c.rel = false) : exec (.accstCommand id) s = .next (s.endCmd id c) := by
  show execAccstCommand id s = _
  simp only [execAccstCommand, hc, hk, hm, h, Bool.not_true, Bool.false_eq_true, if_false, if_true, finishAccst_unreleased s id hr]

theorem accstCommand_takes (h : c.at_ < 128) (hg : c.got = []) (hbad : s.mod.bad = []) : exec (.accstCommand id) s =
    .next (s.setCmd id (tookRow c row col rnd (fun j => s.accWord c.team tile c.at_ j))) := by
  have hread : gather 128 s (fun s j => s.readAcc c.team tile c.at_ j) =
      ((List.range 128).map (fun j => s.accWord c.team tile c.at_ j), s) := by
    rw [gather_of_state_kept fun j => by rw [readAcc_of_no_error hbad]]
    simp only [readAcc_of_no_error hbad]
  have hgot := zipIdx_range_map 128 (fun j => s.accWord c.team tile c.at_ j) BitVec.toNat
  show execAccstCommand id s = _
  simp only [execAccstCommand, hc, hm, Bool.not_true, Bool.false_eq_true, if_false, Nat.not_le.2 h, hg, List.isEmpty_nil, if_true]
  split
  next htile =>
    cases hk.symm.trans htile
    simp only [hread, hgot]
    rw [tookRow, ← rowWrites_withRow hk]
    rfl
  next hn => exact absurd hk (hn _ _ _ _)

theorem accstCommand_writes {k : Nat} {d : Side} {off : Int} {bs : List Byte} {u : State} (h : c.at_ < 128) (hg : c.got ≠ [])
    (hr : c.rel = false) (hl : c.left[s.pickRun c]? = some [(k, 1)]) (hs : s.mayStart c [(k, 1)] = true)
    (hw : (accstWrites c row col c.at_ (accstRow c.y.e.fmt rnd (c.got.map (fun e => BitVec.ofNat 32 e.2))))[k]? = some (d, off, bs))
    (he : s.engWrites c d 2 off bs = (.ok (), u)) :
    let c' := { c.rowDone k with bytes := c.bytes + bs.length }
    exec (.accstCommand id) s = .next (if 128 ≤ c'.at_ then u.endCmd id c' else u.setCmd id c') := by
  intro c'
  have hg' : c.got.isEmpty = false := List.isEmpty_eq_false_iff.2 hg
  have hwrite : s.rowWrite c k = (c', u) := by
    rw [State.rowWrite, rowWrites_accst hk, rowWords, hw]
    simp only [hs, he, Bool.not_true, Bool.false_eq_true, if_false]
    rfl
  have hpick : (((c.left[s.pickRun c]?).bind List.head?).map (·.1)).getD 0 = k := by rw [hl]; rfl
  show execAccstCommand id s = _
  simp only [execAccstCommand, hc, hk, hm, Bool.not_true, Bool.false_eq_true, if_false, Nat.not_le.2 h, hg', hpick, hwrite,
    finishAccst_unreleased u id (show c'.rel = false from hr)]

end

/-- R306, R311-R313: what each reads of its tile, and what each leaves of it. -/
theorem accumulatorTiles : AccumulatorTiles := by
  refine ⟨?_, ?_, ?_, ?_⟩
  · intro o s b l x i j u w n hL hi hj ht hi' hj'
    have hp : accldPrep o (s.laneOf b l) (s.readVals n b l) (past s b l) = .ok (i, j) := by
      subst hi hj
      exact accldPrep_ok ht hi' hj'
    have hx := accld_lone hL hp
    refine ⟨fun hb => hx.trans (congrArg _ (if_pos (by simpa using hb))), fun hb hf hr hu => ?_⟩
    rw [hx, hb, hf, afterRelease, State.laneOf_f, hr]
    simp only [Bool.or_self, Bool.false_eq_true, if_false, accld_reads hu]
    rfl
  · intro o s b l x p hL hx ht hb hf hr
    exact accstat_lone hL hx ht hb hf hr
  · intro s id c tile hc hk hm
    refine ⟨_, acczCommand_eq hc hk hm, mapGet_endCmd _ _ _, fun i j hi hj => ?_, fun k m h => ?_⟩
    · rw [endCmd_frame]
      exact zeroed_accWord s c hi hj
    · rw [endCmd_core]
      exact zeroed_other s c h
  · intro s id c tile row col rnd hc hk hm
    refine ⟨accstCommand_ends hc hk hm, accstCommand_takes hc hk hm, fun k d off bs u h hg hr hl hs hw he => ?_⟩
    have hx := accstCommand_writes hc hk hm h hg hr hl hs hw he
    simp only [Cmd.rowDone, List.isEmpty_iff] at hx
    exact hx

/-- Settles O27: staging, the reads of a tile behind its commands, and the steps of ACCZ and ACCST. -/
theorem stagedCommandsAndTiles : Obligations.StagedCommandsAndTiles := ⟨stagedCommands, accumulatorTiles⟩

end Sys2Proof.Claims

/-!
# What performing accesses keeps (R258-R271, R321-R333)

Performing accesses changes caches, memory, translations and requests; of a fibre its queues, its reads, its store faults and the values of the
register writes on their way; of a team whether it has failed, and the bytes of what a halt has saved; the count of a launch's failed teams; and
the log of a context. A property that depends on none of these is `Steady`, and every operation on the way keeps it: `hP.drain h` is the fact
about the state after a drain.
-/

namespace Sys2Proof.Claims
open Machine

/-- A fibre without what performing accesses changes of it, and the registers that its writes on the way go to. -/
def settled (x : Fibre) : Fibre × List Nat := (still x, x.pend.map (·.reg))

/-- A team without what performing accesses changes of it, and whether it is saved. -/
def Team.lasting (T : Team) : Team × Bool := ({ T with failed := false, saved := none }, T.saved.isSome)

/-- A launch without the count of its failed teams. -/
def Launch.lasting (L : Launch) : Launch := { L with failed := 0 }

/-- A context without its log. -/
def Context.lasting (x : Context) : Context := { x with log := [] }

/-- The parts of the state that performing accesses changes no further than `settled` and the `lasting` functions say. -/
def lastingParts (s : State) : Map Fibre × Map Team × Map Launch × Map Context × Map Ended × Nat × Module :=
  (s.fibres, s.teams, s.launches, s.ctxs, s.ended, s.tick, s.mod)

/-- A property of states that no performed access can change. -/
structure Steady (P : State → Prop) : Prop where
  frame : ∀ {s u : State}, P s → ∀ (_ : lastingParts u = lastingParts s := by rfl), P u
  modFibre : ∀ {s : State} {f : Nat} {k : Fibre → Fibre}, P s →
    ∀ (_ : ∀ x, settled (k x) = settled x := by intro _; rfl), P (s.modFibre f k)
  modTeam : ∀ {s : State} {t : Nat} {k : Team → Team}, P s →
    ∀ (_ : ∀ T, Team.lasting (k T) = Team.lasting T := by intro _; rfl), P (s.modTeam t k)
  modLaunch : ∀ {s : State} {j : Nat} {k : Launch → Launch}, P s →
    ∀ (_ : ∀ L, Launch.lasting (k L) = Launch.lasting L := by intro _; rfl), P (s.modLaunch j k)
  modCtx : ∀ {s : State} {c : Nat} {k : Context → Context}, P s →
    ∀ (_ : ∀ x, Context.lasting (k x) = Context.lasting x := by intro _; rfl), P (s.modCtx c k)

theorem ite_keeps {P : State → Prop} {p : Prop} {d : Decidable p} {t u : State} (h : P t) (h' : P u) : P (if p then t else u) := by
  split
  · exact h
  · exact h'

theorem foldl_keeps {P : State → Prop} {ι : Type} {t : State} (h : P t) {F : State → ι → State} {l : List ι}
    (hF : ∀ t i, P t → P (F t i)) : P (l.foldl F t) :=
  List.foldlRecOn l F h fun t ht i _ => hF t i ht

theorem getD_keeps {P : State → Prop} {o : Option State} {t : State} (h : o.elim True P) (ht : P t) : P (o.getD t) := by
  cases o
  · exact ht
  · exact h

namespace Steady
variable {P : State → Prop} (hP : Steady P) {t : State} (h : P t)
include hP h

theorem home {u : State} (a : t.HomeOnly u) : P u := hP.frame h (by rw [a]; rfl)

/-! ### Translation (R258-R263) -/

theorem setAccessed {c va wr} : P (t.setAccessed c va wr) := by
  unfold State.setAccessed
  split
  · exact h
  · exact hP.frame h

theorem translate {x c va w} : P (t.translate x c va w).2 := by
  unfold State.translate
  cases t.tlbFind x c va with
  | some e => dsimp only; split; exacts [h, hP.setAccessed h]
  | none =>
    cases t.walk c va with
    | none => exact h
    | some l => dsimp only; split; exacts [hP.frame h rfl, hP.setAccessed (hP.frame h)]

theorem resolve {x c va w xl} : P (t.resolve x c va w xl).2 := by
  have hd : P ((t.tlbDrop c va).translate x c va w).2 := hP.translate (hP.frame h)
  unfold State.resolve
  split
  · exact h
  · split
    next e => split <;> exact snd_of_eq hd e
    next e => exact snd_of_eq hd e

/-! ### Home and the L1 (R251-R257) -/

theorem failTeam {k} : P (t.failTeam k) :=
  ite_keeps h (hP.modLaunch (hP.modTeam h))

theorem logCtx {c r} : P (t.logCtx c r) := hP.modCtx h

theorem storeFault {f life ctx arg} : P (t.storeFault f life ctx arg) :=
  ite_keeps (hP.modFibre h) (hP.failTeam (hP.logCtx h))

theorem sectorFault {l ctx ws} : P (t.sectorFault l ctx ws) := by
  have hw : P (ws.foldl (fun s w => s.storeFault w.fib w.life ctx w.arg) t) := foldl_keeps h fun _ _ h => hP.storeFault h
  unfold State.sectorFault
  dsimp only
  split
  · exact ite_keeps hw (hP.storeFault hw)
  · exact hw

theorem recallSector {pa key} : P (t.recallSector pa key) := hP.home h (State.recallSector_homeOnly ..)

theorem homeRead {pa key n} : P (t.homeRead pa key n).2 := hP.recallSector h

theorem homeWrite {die pa key bs} : P (t.homeWrite die pa key bs) := hP.home h (State.homeWrite_homeOnly ..)

theorem copyRenew {die pa key bs} : P (t.copyRenew die pa key bs) := hP.frame h (by rw [State.copyRenew_frame]; rfl)

theorem writeMasked {die pa key m data} : P (t.writeMasked die pa key m data) := by
  unfold State.writeMasked
  extract_lets v base w
  have hw : P w := foldl_keeps (hP.recallSector h) fun _ _ h =>
    ite_keeps (hP.home (hP.home h (State.dramWrite_homeOnly ..)) (State.copyUpdate_homeOnly ..)) h
  exact ite_keeps hw (hP.frame hw)

theorem cleaned {c k pa key bm full acq data} : P (t.cleaned c k pa key bm full acq data) :=
  ite_keeps (ite_keeps (hP.frame (hP.copyRenew h)) (hP.frame h)) (hP.frame h)

theorem writeBackBy {c k keep l} : P (t.writeBackBy c k keep l) := by
  unfold State.writeBackBy
  dsimp only
  split
  · split
    · exact ite_keeps (hP.cleaned h) (hP.frame h)
    · split
      next e => exact snd_of_eq (hP.resolve h) e
      next e => exact hP.sectorFault (hP.frame (snd_of_eq (hP.resolve h) e))
      next e =>
        have hr := snd_of_eq (hP.resolve h) e
        exact ite_keeps hr (ite_keeps (hP.cleaned (hP.writeMasked hr)) (hP.frame (hP.writeMasked hr)))
  · exact h

theorem flushSector {c pa key inval} : P (t.flushSector c pa key inval) := by
  unfold State.flushSector
  dsimp only
  split
  · exact hP.writeBackBy h
  · exact ite_keeps h (hP.recallSector h)
  · exact ite_keeps (hP.frame h) h
  · exact h

theorem writeBackFor {c l} : P (t.writeBackFor c l) := foldl_keeps h fun _ _ h => hP.writeBackBy h

theorem allocate {c k hint} : (t.allocate c k hint).elim True P := by
  have he : ∀ line, P (t.evictLine c line) := fun _ => foldl_keeps h fun _ _ h => hP.flushSector h
  unfold State.allocate
  dsimp only
  split
  · exact hP.frame h
  · split
    · exact hP.frame h
    · split
      · exact trivial
      · exact hP.frame (he _)

theorem fillBytes {die pa key rc} : P (t.fillBytes die pa key rc).2 := by
  unfold State.fillBytes
  dsimp only
  split
  · split
    · exact h
    · exact hP.frame (hP.homeRead h)
  · exact hP.copyRenew (hP.homeRead h)

theorem l1Read {c pa key n rc hint} : P (t.l1Read c pa key n rc hint).2 := by
  unfold State.l1Read
  extract_lets k v
  have hv : P v := by
    unfold v
    split
    · exact hP.recallSector h
    · exact h
  have ha : P ((v.allocate c k hint).getD v) := getD_keeps (hP.allocate hv) hv
  split
  · exact ha
  · dsimp only
    split
    · exact ha
    · exact hP.frame (hP.fillBytes ha)
  · dsimp only
    split
    next e => exact hP.frame (of_some (hP.allocate (hP.fillBytes hv)) e)
    next => exact hP.fillBytes hv

theorem l1Write {f life c ctx va arg x bs} : P (t.l1Write f life c ctx va arg x bs) := by
  unfold State.l1Write
  extract_lets k i m v new
  have hv : P v := by
    unfold v
    split
    · exact hP.recallSector h
    · exact h
  exact hP.frame hv

theorem cvWrite {c x bs} : P (t.cvWrite c x bs) := by
  unfold State.cvWrite
  extract_lets k i m v w
  have hw : P w := by
    refine hP.homeWrite ?_
    unfold v
    split
    · exact hP.recallSector h
    · exact h
  split
  · exact hP.frame hw
  · exact hP.frame hw
  · exact hw

theorem homeReadBy {c pa key n how} : P (t.homeReadBy c pa key n how).2 := by
  unfold State.homeReadBy
  dsimp only
  split
  · exact hP.fillBytes (hP.flushSector h)
  · exact hP.homeRead (hP.flushSector h)

theorem homeAtom {c x n g} : P (t.homeAtom c x n g).2 := by
  have hr := hP.homeRead (hP.flushSector h (c := c) (pa := x.pa) (key := x.key) (inval := true)) (pa := x.pa) (key := x.key) (n := n)
  unfold State.homeAtom
  dsimp only
  split
  · exact hr
  · exact hP.homeWrite hr

theorem acquireCore {c sc own} : P (t.acquireCore c sc own) := hP.frame h (by rw [acquireCore_frame]; rfl)

/-! ### Reads (R321, R324) -/

theorem globRead1 {f x n how} : (t.globRead1 f x n how).elim True (fun p => P p.2) := by
  unfold State.globRead1
  dsimp only
  split
  · split
    · exact trivial
    · exact ite_keeps (P := fun s => P s) (hP.homeReadBy h) (hP.frame (hP.homeReadBy h))
  · split
    · exact trivial
    · exact hP.l1Read h

theorem globRead {f hnd how fuel va n acc} : P (t.globRead f hnd how fuel va n acc).2 := by
  induction fuel generalizing t va n acc with
  | zero => exact h
  | succ fuel ih =>
    unfold State.globRead
    dsimp only
    split
    · exact h
    · split
      next e => exact snd_of_eq (hP.translate h) e
      next e =>
        have ht := snd_of_eq (hP.translate h) e
        split
        next e' => exact snd_of_eq (hP.resolve ht) e'
        next e' =>
          have hr := snd_of_eq (hP.resolve ht) e'
          split
          next => exact hr
          next e'' => exact ih (of_some (P := fun p => P p.2) (hP.globRead1 hr) e'')

theorem readNow {f a n how} : P (t.readNow f a n how).2 := by
  unfold State.readNow
  split
  · exact hP.globRead h
  · split <;> exact h

theorem arriveEntry {f q i} : P (t.arriveEntry f q i) := by
  unfold State.arriveEntry
  dsimp only
  split
  · exact h
  · split
    · exact h
    · split
      next e =>
        have hr := snd_of_eq (hP.readNow h) e
        exact ite_keeps (hP.acquireCore (hP.modFibre hr)) (hP.modFibre hr)
      next e => exact snd_of_eq (hP.readNow h) e
      next e =>
        have hr := snd_of_eq (hP.readNow h) e
        exact ite_keeps (ite_keeps (hP.acquireCore (hP.modFibre hr)) (hP.modFibre hr))
          (hP.modFibre hr)

theorem performLoad {f seq} : P (t.performLoad f seq) := by
  unfold State.performLoad
  split
  · exact h
  · refine hP.modFibre h fun x => Prod.ext rfl ?_
    show (List.map _ (List.map _ x.pend)) = _
    rw [List.map_map]
    exact List.map_congr_left fun w _ => by dsimp only [Function.comp]; split <;> rfl

/-! ### Writes, and all that stands before them (R263, R271, R331) -/

theorem coreWrite {r va x bs} : (t.coreWrite r va x bs).elim True P := by
  unfold State.coreWrite
  split
  · exact trivial
  · split
    next e => exact hP.l1Write (of_some (hP.allocate h) e)
    next =>
      split
      · exact trivial
      · exact hP.cvWrite h

theorem perform {r va x} : (t.perform r va x).elim True P := by
  unfold State.perform
  split
  · split
    · split
      · exact trivial
      · exact hP.cvWrite h
    · exact hP.coreWrite h
  · split
    · exact trivial
    · exact hP.homeAtom h

theorem afterSc {r} : P (t.afterSc r) := by
  unfold State.afterSc
  split
  · exact h
  · exact hP.acquireCore h

theorem placeWrite {bs p} : P (t.placeWrite bs p) := by
  cases p with
  | scratch c off => exact hP.frame h (by rw [State.placeWrite, State.touchRange_frame]; rfl)
  | tundish d off => exact hP.frame h (by rw [State.placeWrite, State.touchRange_frame]; rfl)
  | saved k tun off => exact hP.modTeam h fun T => by simp [Team.lasting]

theorem performReq {id} : P (t.performReq id) := by
  have hdrop {v : State} (h : P v) : P (v.dropReq id) := hP.frame h
  unfold State.performReq
  split
  · exact h
  · split
    · split
      next e => exact snd_of_eq (hP.resolve h) e
      next e => exact hP.storeFault (hdrop (snd_of_eq (hP.resolve h) e))
      next e =>
        have hr := snd_of_eq (hP.resolve h) e
        split
        next => exact hr
        next e' => exact hP.afterSc (hdrop (of_some (hP.perform hr) e'))
    · split
      · exact hdrop (hP.placeWrite h)
      · exact hdrop h

theorem performOwn {f req xs stuck} (hreq : ∀ v id, P v → P (req v id)) : P (t.performOwn f req xs stuck) := by
  induction xs generalizing t stuck with
  | nil => exact h
  | cons x xs ih =>
    unfold State.performOwn
    split
    · exact ih h
    · apply ih
      split
      · exact hP.arriveEntry h
      · exact hP.performLoad h
      · exact hreq _ _ h

theorem settleReq {n id} : P (t.settleReq n id) := by
  induction n generalizing t id with
  | zero => exact h
  | succ n ih =>
    unfold State.settleReq
    split
    · exact h
    next r _ =>
      extract_lets v w
      have hv : P v := foldl_keeps h fun _ _ h => ite_keeps h (ih h)
      have hw : P w := ite_keeps hv (hP.performOwn hv fun _ _ h => ih h)
      exact ite_keeps (hP.performReq hw) hw

theorem performReqs {ids} : P (t.performReqs ids) := foldl_keeps h fun _ _ h => hP.settleReq h

theorem arriveBefore {f p} : P (t.arriveBefore f p) := hP.performOwn h fun _ _ h => hP.settleReq h

/-! ### Releases and drains (R264, R325) -/

theorem releaseActs {f sc} : P (t.releaseActs f sc) :=
  ite_keeps (hP.writeBackFor (hP.arriveBefore h)) (hP.arriveBefore h)

theorem drain {base size} : P (t.drain base size) :=
  foldl_keeps (hP.performReqs h) fun _ _ h => foldl_keeps h fun _ _ h => hP.flushSector h

omit hP h in
/-- No access performed moves the tick of the free choices. -/
theorem tick (n : Nat) : Steady (fun s => s.tick = n) where
  frame h e := (congrArg (fun p => p.2.2.2.2.2.1) e).trans h
  modFibre h _ := h
  modTeam h _ := h
  modLaunch h _ := h
  modCtx h _ := h

end Steady

end Sys2Proof.Claims

/-!
# O52: cold contexts and attestation (R402, R409, R433)

A context that goes cold is stored page by page, which moves neither its tenant nor the tick under which its image is encrypted. At its return
the ASIDs that it takes are free, and no unit holds an entry under one of them.
-/

namespace Sys2Proof.Claims
open Machine

variable {s : State} {c : Nat}

/-! ### Making a context cold (R409) -/

theorem storePage_tick (s : State) (c va : Nat) (l : Leaf) : (s.storePage c va l).tick = s.tick := by
  have hd : (s.shoot c va l).tick = s.tick := (Steady.tick s.tick).drain (t := s.tlbDrop c va) rfl
  have hf (u : State) (ns : List Nat) (k : Frame → Frame) : (ns.foldl (fun s n => s.modFrame n k) u).tick = u.tick :=
    foldl_keeps (P := fun t => t.tick = u.tick) rfl fun _ _ h => h
  unfold State.storePage
  dsimp only
  split_ifs
  · exact hd
  · exact (hf ..).trans hd

theorem coolPage_tick (s : State) (c va : Nat) : (s.coolPage c va).tick = s.tick := by
  unfold State.coolPage
  split
  · rfl
  · split_ifs
    · exact storePage_tick ..
    · rfl

theorem makeCold_stays (pages : List Nat) (h : s.mayCool c = false) : exec (.makeCold c pages) s = .next s := by
  show execMakeCold c pages s = _
  simp [execMakeCold, h]

/-- What is left of the module when a context's pages are stored: its entries leave the TLBs, and its turn ends. -/
def leftCold (s : State) (c : Nat) (pages : List Nat) : State :=
  let u := pages.foldl (fun s va => s.coolPage c va) s
  let v := { u with tlb := u.tlb.filter (fun t => t.ctx != c) }
  if (v.partOf c).turn = some c then v.setTurn (v.ctx c).part none else v

theorem leftCold_tick (s : State) (c : Nat) (pages : List Nat) : (leftCold s c pages).tick = s.tick := by
  have hu : (pages.foldl (fun s va => s.coolPage c va) s).tick = s.tick :=
    foldl_keeps (P := fun t => t.tick = s.tick) rfl fun _ _ h => (coolPage_tick ..).trans h
  exact ite_keeps (P := fun t => t.tick = s.tick) hu hu

theorem leftCold_tlb (pages : List Nat) {e : Tlb} (he : e ∈ (leftCold s c pages).tlb) : e.ctx ≠ c := by
  have h : ∀ e ∈ (leftCold s c pages).tlb, e.ctx ≠ c := by
    refine ite_keeps (P := fun t => ∀ e ∈ t.tlb, e.ctx ≠ c) ?_ ?_ <;>
      exact fun e he => by simpa using (List.mem_filter.1 he).2
  exact h e he

theorem makeCold_cools (pages : List Nat) (h : s.mayCool c = true) : exec (.makeCold c pages) s =
    .next ((leftCold s c pages).modCtx c (fun x =>
      { x with asids := [], cold := true, image := some (imageFor (leftCold s c pages).tick x.tenant) })) := by
  show execMakeCold c pages s = _
  simp only [execMakeCold, h, Bool.not_true, Bool.false_eq_true, if_false]
  rfl

theorem imageFor_ok (n k : Nat) : ((imageFor n k).read []).ok k = true := by
  simp [Image.read, Image.ok, imageFor]

/-! ### Restoration (R402, R409) -/

section
variable {x : Context} {g : Image} {altered : List (Nat × Nat)} {as : List Nat}

/-- An ASID that a context takes names no entry of a TLB of its die any more. -/
theorem takeAsids_unused {ids : List (Nat × Nat)} {y : Context} (hy : s.ctx? c = some y) :
    ∀ e ∈ (s.takeAsids c ids).tlb, (unitDie e.unit, e.asid) ∉ ((s.takeAsids c ids).ctx c).asids := by
  have hc : (s.takeAsids c ids).ctx? c = some { y with asids := ids } := by
    rw [State.takeAsids, State.ctx?_modCtx]
    exact congrArg (Option.map _) hy
  intro e he
  have hn : (ids.contains (unitDie e.unit, e.asid)) = false := by
    simpa using (List.mem_filter.1 (show e ∈ s.tlb.filter _ from he)).2
  rw [show (s.takeAsids c ids).ctx c = _ from congrArg (·.getD default) hc]
  simpa using hn

/-- ASIDs that a context gets are new where it held none, and nothing else of it changes. -/
theorem giveThese_some {y : Context} {v : State} (hy : s.ctx? c = some y) (hv : s.giveThese c as = some v) :
    v = s ∧ y.asids ≠ [] ∨ ∃ ids, v = s.takeAsids c ids := by
  have hc : s.ctx c = y := congrArg (·.getD default) hy
  unfold State.giveThese State.giveAsids at hv
  split_ifs at hv with h1 h2 h3
  · exact .inr ⟨_, (Option.some.inj hv).symm⟩
  · exact .inl ⟨(Option.some.inj hv).symm, by simpa [hc] using h2⟩
  · exact .inr ⟨_, (Option.some.inj hv).symm⟩

variable (hx : s.ctx? c = some x) (hc : x.cold = true) (hd : x.destroyed = false) (hg : x.image = some g)
include hx hc hd hg

theorem contextRestore_bad (h : (g.read altered).ok x.tenant = false) :
    exec (.contextRestore c altered as) s = .next (s.failRestore c) := by
  show execContextRestore c altered as s = _
  simp [execContextRestore, hx, hc, hd, hg, h]

theorem contextRestore_good (h : (g.read altered).ok x.tenant = true) :
    let u := s.modCtx c (fun y => { y with cold := false, image := none })
    exec (.contextRestore c altered as) s = .next (if u.hasWork c then (u.giveThese c as).getD s else u) := by
  show execContextRestore c altered as s = _
  simp [execContextRestore, hx, hc, hd, hg, h]

end

/-! ### The obligation -/

/-- Settles O52, by the tick that storing pages keeps, and by the two ways in which a context gets ASIDs. -/
theorem coldContextsAndAttestation : Obligations.ColdContextsAndAttestation := by
  unfold Obligations.ColdContextsAndAttestation
  refine ⟨fun s c pages => ⟨makeCold_stays pages, fun h => ⟨_, makeCold_cools pages h, fun y hy => ?_, fun e he => leftCold_tlb pages he⟩⟩,
    imageFor_ok, fun s c x g altered as hx hc hd hg => ?_, fun s m n h hm => ?_, fun s m x n h hm => ?_⟩
  · rw [State.ctx?_modCtx] at hy
    obtain ⟨z, -, rfl⟩ := Option.map_eq_some_iff.1 hy
    exact ⟨rfl, rfl, by rw [leftCold_tick]⟩
  · intro u good
    refine ⟨fun v hb hi hv => ?_, fun i rest m v hb hi hm hmc hv => ?_, fun hgd hw => ?_, fun v hgd hw hv => ?_⟩
    · rw [contextRestore_bad hx hc hd hg hb, State.failRestore, hi]
      exact congrArg (fun o => Host.Outcome.next (Option.getD o s)) hv
    · rw [contextRestore_bad hx hc hd hg hb, State.failRestore, hi, List.find?_cons_of_pos (by simp [hm, hmc])]
      simp only [hm, Option.getD_some, answer_eq_replied]
      rw [show s.modMod (fun y => { y with inbox := y.inbox.erase i }) = s.modMod (fun y => { y with inbox := rest }) by
        simp [State.modMod, hi], hv, Option.getD_some]
    · rw [contextRestore_good hx hc hd hg hgd, if_neg (by simpa using hw)]
    · have hu : u.ctx? c = some { x with cold := false, image := none } := by rw [State.ctx?_modCtx, hx]; rfl
      refine ⟨by rw [contextRestore_good hx hc hd hg hgd, if_pos hw, hv, Option.getD_some], ?_⟩
      rcases giveThese_some hu hv with ⟨rfl, ha⟩ | ⟨ids, rfl⟩
      · refine ⟨?_, fun h0 => absurd h0 ha⟩
        rw [show u.ctx c = _ from congrArg (·.getD default) hu]
        exact hu
      · refine ⟨?_, fun _ => takeAsids_unused hu⟩
        have ht : (u.takeAsids c ids).ctx? c = some { x with cold := false, image := none, asids := ids } := by
          rw [State.takeAsids, State.ctx?_modCtx]
          exact congrArg (Option.map _) hu
        rw [show (u.takeAsids c ids).ctx c = _ from congrArg (·.getD default) ht]
        exact ht
  · show execAttest m n s = _
    rw [execAttest, if_pos hm, h.received, h.inTurn, answer_eq_replied]
    rfl
  · show execAttest m n s = _
    rw [execAttest, if_neg hm, h.request, answer_eq_replied]
    rfl

end Sys2Proof.Claims

/-!
# O39: teams retire and launches complete (R419-R425)

A team that has retired stays away: none of what follows its retirement - the mirror's write, the completion of its launch and of that launch's
parents, the releases of further teams - makes a team or a fibre. `Gone` says so, and needs one lemma for each of these steps. A completion reads
its launch after its release, which changes no more of the launch than the count of its failed teams.
-/

namespace Sys2Proof.Claims
open Machine

/-- A view of the entries of a table that an update of one entry keeps. -/
theorem map_mapGet_mapMod {α β : Type} (m : Map α) (j k : Nat) {g : α → α} {p : α → β} (hp : ∀ x, p (g x) = p x) :
    (mapGet (mapMod m j g) k).map p = (mapGet m k).map p := by
  by_cases h : k = j
  · rw [h, mapGet_mapMod_same, Option.map_map]
    exact Option.map_congr fun x _ => hp x
  · rw [mapGet_mapMod_ne _ _ h]

/-! ### The mirror of a scoreboard (R100, R265) -/

namespace Steady
variable {P : State → Prop} (hP : Steady P) {t : State} (h : P t)
include hP h

theorem makeResident {c va frame} : P (t.makeResident c va frame) := by
  have hc (ns : List Nat) : P (t.claimFrames c ns) := foldl_keeps h fun _ _ h => hP.frame h
  have hf {u : State} (hu : P u) (key base size : Nat) (m : Memory) : P (u.fillFrames key base size m) :=
    hP.frame hu (by dsimp only [lastingParts, State.fillFrames])
  have hp {u : State} (hu : P u) (pte v : Nat) : P ((u.setPte pte v).tlbDrop c va) :=
    hP.frame hu (by dsimp only [lastingParts, State.tlbDrop, State.setPte, State.tableWrite])
  unfold State.makeResident
  split
  · exact h
  · exact ite_keeps h (hp (hf (hc _) ..) ..)

theorem mirrorHome {c lid va b} : (t.mirrorHome c lid va b).elim True P := by
  have hgo {v : State} (hv : P v) : P (match v.translate .port c va .write with
      | (.ok x, s) => s.resolve .port c va .write x
      | r => r).2 := by
    split
    next e => exact hP.resolve (snd_of_eq (hP.translate hv) e)
    next => exact hP.translate hv
  have hput {v : State} (hv : P v) (x : Xl) :
      (if v.frozen x.pa then none else some (v.homeWrite (paDie x.pa) x.pa x.key [b])).elim True P := by
    split_ifs
    · trivial
    · exact hP.homeWrite hv
  unfold State.mirrorHome
  dsimp only
  split
  next e => exact hput (snd_of_eq (hgo h) e) _
  next => trivial
  next e =>
    have hg := snd_of_eq (hgo h) e
    split
    · exact hP.logCtx hg
    next fr _ =>
      split
      next e' => exact hput (snd_of_eq (hgo (hP.makeResident hg)) e') _
      next => trivial
      next e' => exact hP.logCtx (snd_of_eq (hgo (hP.makeResident hg)) e')
  next e => exact hP.logCtx (snd_of_eq (hgo h) e)

theorem mirrorByte {c lid i} : (t.mirrorByte c lid i).elim True P := by
  unfold State.mirrorByte
  dsimp only
  split_ifs
  · exact foldl_keeps h fun _ _ h => hP.placeWrite h
  · exact hP.mirrorHome h
  · exact hP.logCtx h

theorem mirrorWrite {c lid is} : (t.mirrorWrite c lid is).elim True P := by
  induction is generalizing t with
  | nil => exact h
  | cons i is ih =>
    unfold State.mirrorWrite
    split_ifs
    · exact h
    · split
      · trivial
      next e => exact ih (of_some (hP.mirrorByte h) e)

end Steady

/-! ### A team that has retired (R420) -/

/-- A team has left, with all its fibres, and what stood in its registers stands recorded. -/
structure Gone (t : Nat) (s : State) : Prop where
  team : s.team? t = none
  ended : mapHas s.ended t = true
  fibres : ∀ f, f / 1024 = t → s.fibre? f = none

namespace Gone
variable {t : Nat} {s u : State}

theorem frame (h : Gone t s) (e : (u.fibres, u.teams, u.ended) = (s.fibres, s.teams, s.ended) := by rfl) : Gone t u := by
  obtain ⟨hf, h'⟩ := Prod.mk.inj e
  obtain ⟨ht, he⟩ := Prod.mk.inj h'
  exact ⟨(congrArg (mapGet · t) ht).trans h.team, (congrArg (mapHas · t) he).trans h.ended,
    fun f hft => (congrArg (mapGet · f) hf).trans (h.fibres f hft)⟩

theorem modFibre (h : Gone t s) {f : Nat} {k : Fibre → Fibre} : Gone t (s.modFibre f k) where
  team := h.team
  ended := h.ended
  fibres g hg := by
    have hv : ((s.modFibre f k).fibre? g).map (fun _ => ()) = (s.fibre? g).map (fun _ => ()) := map_mapGet_mapMod _ _ _ fun _ => rfl
    rw [h.fibres g hg] at hv
    exact Option.map_eq_none_iff.1 hv

theorem modTeam (h : Gone t s) {j : Nat} {k : Team → Team} : Gone t (s.modTeam j k) where
  team := by
    have hv : ((s.modTeam j k).team? t).map (fun _ => ()) = (s.team? t).map (fun _ => ()) := map_mapGet_mapMod _ _ _ fun _ => rfl
    rw [h.team] at hv
    exact Option.map_eq_none_iff.1 hv
  ended := h.ended
  fibres := h.fibres

theorem steady (t : Nat) : Steady (Gone t) where
  frame h e := by
    obtain ⟨hf, e⟩ := Prod.mk.inj e
    obtain ⟨ht, e⟩ := Prod.mk.inj e
    have he := congrArg (fun p => p.2.2.1) e
    exact h.frame (congrArg₂ Prod.mk hf (congrArg₂ Prod.mk ht he))
  modFibre h _ := h.modFibre
  modTeam h _ := h.modTeam
  modLaunch h _ := h.frame
  modCtx h _ := h.frame

theorem freeTeam (s : State) (t : Nat) : Gone t (s.freeTeam t) where
  team := mapGet_mapDel_same ..
  ended := by simp [State.freeTeam, mapHas]
  fibres f hf := by
    show mapGet (mapFilter s.fibres (fun k _ => fibTeam k != t)) f = none
    rw [mapGet_mapFilter s.fibres (fun k => fibTeam k != t)]
    simp [fibTeam, hf]

/-! What a completion does beside its release (R422-R425). -/

theorem writeLaunchToken (h : Gone t s) {w v acq} : Gone t (s.writeLaunchToken w v acq) := by
  unfold State.writeLaunchToken State.tokClose
  cases w with
  | fibre f r =>
    dsimp only
    split
    · exact h
    · exact ite_keeps h.modFibre h.modFibre
  | _ => exact h

theorem acquirePart (h : Gone t s) {p sc} : Gone t (s.acquirePart p sc) := foldl_keeps h fun _ _ h => (steady t).acquireCore h

theorem freeEntry (h : Gone t s) {c lid} : Gone t (s.freeEntry c lid) := by
  unfold State.freeEntry
  dsimp only
  split
  · exact h.frame
  · split_ifs
    · exact acquirePart h.frame
    · exact h.frame

theorem answerWaits (h : Gone t s) {c lid v} : Gone t (s.answerWaits c lid v) := foldl_keeps h.frame fun _ _ h => h.frame

theorem restAsids (h : Gone t s) {c} : Gone t (s.restAsids c) := ite_keeps h h.frame

theorem releasePart (h : Gone t s) {p sc} : Gone t (s.releasePart p sc) :=
  ite_keeps (foldl_keeps h fun _ _ h => (steady t).writeBackFor h) h

theorem complete (h : Gone t s) {n k} : Gone t (s.complete n k) := by
  induction n generalizing s k with
  | zero => exact h
  | succ n ih =>
    unfold State.complete
    split
    · exact h
    next L _ =>
      refine ite_keeps h (ite_keeps h.releasePart ?_)
      have hd {u : State} (h : Gone t u) {c lid v} : Gone t (((u.freeEntry c lid).dropPoint c lid).answerWaits c lid v) :=
        answerWaits h.freeEntry.frame
      have hw := hd (writeLaunchToken (w := L.holder) (v := State.launchValue L) (acq := some (scopeAt L.blk.scope)) (h.releasePart.frame (u :=
        ((s.releasePart (s.ctx L.ctx).part (scopeAt L.blk.scope)).modLaunch k (fun x =>
          { x with done := true, value := State.launchValue L, score := [] })).modMod (fun m =>
            { m with log := m.log ++ [SysLog.completed L.ctx L.lid (State.launchValue L)] }))))
        (c := L.ctx) (lid := L.lid) (v := State.launchValue L)
      dsimp only
      split
      · exact hw.restAsids
      · exact ih hw.frame

theorem releaseLaunch (h : Gone t s) {c lid} : Gone t (s.releaseLaunch c lid) := by
  refine ite_keeps h.frame ?_
  split
  · exact h
  next e =>
    have hs : Gone t (s.modLaunch (launchKey c lid) (fun x => { x with started := true, score := [] })) := h.frame
    exact (of_some ((steady t).mirrorWrite hs) e).frame

theorem releaseAll (h : Gone t s) {c} : Gone t (s.releaseAll c) :=
  foldl_keeps h fun _ _ h => foldl_keeps h fun _ _ h => h.releaseLaunch

end Gone

/-- A team whose bit is set leaves, and whatever completes thereafter does not bring it back. -/
theorem retireTeam_gone {s y : State} {t : Nat} (h : s.setScore t = some y) : Gone t (s.retireTeam t) := by
  unfold State.retireTeam
  dsimp only
  rw [h]
  exact (Gone.freeTeam _ t).complete.releaseAll

theorem teamRetire_eq {s v : State} {t : Nat} (h : s.mayRetire t = true) (hp : s.parkLeft t = (true, v)) :
    exec (.teamRetire t) s = .next (if (v.releaseTeam t).teamWaits t then v.releaseTeam t
      else ((v.releaseTeam t).reportFaults t).retireTeam t) := by
  show execTeamRetire t s = _
  simp [execTeamRetire, h, hp]

/-! ### A launch that completes (R422-R425) -/

/-- A launch, and a context, but for what performing accesses changes of them. -/
theorem Steady.launchAt (k : Nat) (o : Option Launch) : Steady (fun s => (s.launch? k).map Launch.lasting = o) where
  frame h e := by
    have hl := congrArg (fun p => p.2.2.1) e
    exact (congrArg (fun m => (mapGet m k).map Launch.lasting) hl).trans h
  modFibre h _ := h
  modTeam h _ := h
  modLaunch h hk := (map_mapGet_mapMod _ _ _ hk).trans h
  modCtx h _ := h

theorem Steady.ctxAt (c : Nat) (o : Option Context) : Steady (fun s => (s.ctx? c).map Context.lasting = o) where
  frame h e := by
    have hc := congrArg (fun p => p.2.2.2.1) e
    exact (congrArg (fun m => (mapGet m c).map Context.lasting) hc).trans h
  modFibre h _ := h
  modTeam h _ := h
  modLaunch h _ := h
  modCtx h hk := (map_mapGet_mapMod _ _ _ hk).trans h

theorem releasePart_keeps {P : State → Prop} (hP : Steady P) {s : State} (h : P s) {p sc} : P (s.releasePart p sc) :=
  ite_keeps (foldl_keeps h fun _ _ h => hP.writeBackFor h) h

theorem acquirePart_frame (s : State) (p : Nat) (sc : Scope) :
    ((s.acquirePart p sc).launches, (s.acquirePart p sc).ctxs) = (s.launches, s.ctxs) :=
  foldl_keeps (P := fun t => (t.launches, t.ctxs) = (s.launches, s.ctxs)) rfl fun _ _ h => by rw [acquireCore_frame]; exact h

/-- A launch has completed with a value. -/
def CompletedWith (k v : Nat) (s : State) : Prop := (s.launch? k).map (fun L => (L.done, L.value)) = some (true, v)

/-- A launch stands in a queue of its context no longer. -/
def OffQueue (c q lid : Nat) (s : State) : Prop := lid ∉ mapGetD (s.ctx c).queues q []

theorem CompletedWith.freeEntry {k v : Nat} {s : State} (h : CompletedWith k v s) (c lid : Nat) : CompletedWith k v (s.freeEntry c lid) := by
  unfold State.freeEntry
  dsimp only
  split
  · exact h
  next n _ =>
    split_ifs
    · unfold CompletedWith State.launch?
      rw [(Prod.mk.inj (acquirePart_frame ..)).1]
      refine (map_mapGet_mapMod s.launches (launchKey c n) k (g := fun x => { x with after := false }) ?_).trans h
      exact fun _ => rfl
    · exact h

/-- A completed launch leaves the queue that its block names (R424). -/
theorem freeEntry_offQueue {s : State} {c lid : Nat} {x : Context} (hx : s.ctx? c = some x) :
    OffQueue c (s.launch (launchKey c lid)).blk.queue lid (s.freeEntry c lid) := by
  have hq (u : State) (hu : u.ctxs = (s.modCtx c (fun x => { x with
      queues := mapSet x.queues (s.launch (launchKey c lid)).blk.queue
        ((mapGetD (s.ctx c).queues (s.launch (launchKey c lid)).blk.queue []).filter (· != lid)) })).ctxs) :
      OffQueue c (s.launch (launchKey c lid)).blk.queue lid u := by
    have hc : u.ctx? c = _ := (congrArg (mapGet · c) hu).trans (State.ctx?_modCtx ..)
    rw [hx] at hc
    rw [OffQueue, show u.ctx c = _ from congrArg (·.getD default) hc]
    simp [mapGetD]
  unfold State.freeEntry
  dsimp only
  split
  · exact hq _ rfl
  · split_ifs
    · exact hq _ (Prod.mk.inj (acquirePart_frame ..)).2
    · exact hq _ rfl

theorem answerWaits_frame (s : State) (c lid v : Nat) :
    ((s.answerWaits c lid v).launches, (s.answerWaits c lid v).ctxs) = (s.launches, s.ctxs) := by
  unfold State.answerWaits
  dsimp only
  refine foldl_keeps (P := fun t => (t.launches, t.ctxs) = (s.launches, s.ctxs)) ?_ ?_
  · rfl
  · exact fun _ _ h => h

theorem writeLaunchToken_frame (s : State) (w : Holder) (v : Nat) (acq : Option Scope) :
    ((s.writeLaunchToken w v acq).launches, (s.writeLaunchToken w v acq).ctxs) = (s.launches, s.ctxs) := by
  unfold State.writeLaunchToken State.tokClose
  cases w with
  | fibre f r =>
    dsimp only
    split
    · rfl
    · split_ifs <;> rfl
  | _ => rfl

/-- What leaves the queues and the launches as they are when a launch has left its queue (R410, R430, R402). -/
theorem completed_tail {P : State → Prop} {s : State} {c lid v : Nat} (h : P s)
    (hP : ∀ {t u : State}, P t → u.launches = t.launches → (∀ d, (u.ctx d).queues = (t.ctx d).queues) → P u) :
    P (((s.dropPoint c lid).answerWaits c lid v).restAsids c) := by
  have hq (t : State) (k : Context → Context) (hk : ∀ x, (k x).queues = x.queues) (d : Nat) :
      ((t.modCtx c k).ctx d).queues = (t.ctx d).queues := by
    have hm : ((t.modCtx c k).ctx? d).map (·.queues) = (t.ctx? d).map (·.queues) := map_mapGet_mapMod _ _ _ hk
    show (((t.modCtx c k).ctx? d).getD default).queues = ((t.ctx? d).getD default).queues
    cases h1 : (t.modCtx c k).ctx? d <;> cases h2 : t.ctx? d <;> rw [h1, h2] at hm <;> simp_all
  have hd : P (s.dropPoint c lid) := hP h rfl (hq s _ fun x => by split_ifs <;> rfl)
  obtain ⟨hl, hc⟩ := Prod.mk.inj (answerWaits_frame (s.dropPoint c lid) c lid v)
  have ha : P ((s.dropPoint c lid).answerWaits c lid v) := hP hd hl fun d => by rw [State.ctx, hc]; rfl
  exact ite_keeps ha (hP ha rfl (hq _ _ fun _ => rfl))

/-- Settles O39, by what stays away after a retirement, and by what a completion's release leaves of its launch. -/
theorem teamsRetire : Obligations.TeamsRetire := by
  unfold Obligations.TeamsRetire
  refine ⟨fun s t h => ?_, fun s t v h hp => ?_, fun s t v h hp => ?_, fun s k L n hL hr hd hp hx hc hw => ?_⟩
  · show execTeamRetire t s = _
    simp [execTeamRetire, h]
  · show execTeamRetire t s = _
    simp [execTeamRetire, h, hp]
  · intro w
    refine ⟨fun hw => by rw [teamRetire_eq h hp, if_pos hw], fun hw hn => ?_, fun y hw hy => ?_⟩
    · rw [teamRetire_eq h hp, if_neg (by simp [hw])]
      exact congrArg Host.Outcome.next (by unfold State.retireTeam; dsimp only; rw [hn])
    · have hg : Gone t (w.retireTeam t) := retireTeam_gone hy
      exact ⟨_, by rw [teamRetire_eq h hp, if_neg (by simp [hw])], hg.team, hg.ended, hg.fibres⟩
  · intro u
    set w := s.releasePart (s.ctx L.ctx).part (scopeAt L.blk.scope) with hws
    have hwl : (w.launch? k).map Launch.lasting = some (Launch.lasting L) :=
      releasePart_keeps (Steady.launchAt k _) (by rw [hL]; rfl)
    obtain ⟨L', hL', hl⟩ := Option.map_eq_some_iff.1 hwl
    obtain ⟨x, hx⟩ := Option.isSome_iff_exists.1 hx
    have hwc : (w.ctx? L.ctx).map Context.lasting = some (Context.lasting x) :=
      releasePart_keeps (Steady.ctxAt L.ctx _) (by rw [hx]; rfl)
    obtain ⟨x', hx', hxe⟩ := Option.map_eq_some_iff.1 hwc
    have hpart : (w.ctx L.ctx).part = (s.ctx L.ctx).part := by
      rw [show w.ctx L.ctx = x' from congrArg (·.getD default) hx', show s.ctx L.ctx = x from congrArg (·.getD default) hx]
      exact congrArg (·.part) hxe
    let a := (w.modLaunch k (fun x => { x with done := true, value := State.launchValue L, score := [] })).modMod (fun m =>
      { m with log := m.log ++ [SysLog.completed L.ctx L.lid (State.launchValue L)] })
    let b := a.writeLaunchToken L.holder (State.launchValue L) (some (scopeAt L.blk.scope))
    have hu : u = (((b.freeEntry L.ctx L.lid).dropPoint L.ctx L.lid).answerWaits L.ctx L.lid (State.launchValue L)).restAsids L.ctx := by
      simp [u, State.complete, hL, hr, hd, hc, ← hws, hpart, hw, hp, a, b]
    obtain ⟨hbl, hbc⟩ := Prod.mk.inj (writeLaunchToken_frame a L.holder (State.launchValue L) (some (scopeAt L.blk.scope)))
    have hbk : b.launch? k = some { L' with done := true, value := State.launchValue L, score := [] } := by
      rw [State.launch?, hbl]
      exact (State.launch?_modLaunch ..).trans (by rw [hL']; rfl)
    have hdone : CompletedWith k (State.launchValue L) u := by
      rw [hu]
      refine completed_tail (CompletedWith.freeEntry (by rw [CompletedWith, hbk]; rfl) _ _) fun h e _ => ?_
      rw [CompletedWith, State.launch?, e]
      exact h
    obtain ⟨M, hM, hv⟩ := Option.map_eq_some_iff.1 hdone
    have hMk : u.launch k = M := congrArg (·.getD default) hM
    obtain ⟨hMd, hMv⟩ := Prod.mk.inj hv
    refine ⟨by rw [hMk, hMd], by rw [hMk, hMv]; rfl, fun hk => ?_⟩
    have hq : (b.launch (launchKey L.ctx L.lid)).blk.queue = L.blk.queue := by
      rw [← hk, show b.launch k = _ from congrArg (·.getD default) hbk]
      exact congrArg (fun L => L.blk.queue) hl
    have hoff : OffQueue L.ctx L.blk.queue L.lid (b.freeEntry L.ctx L.lid) := by
      rw [← hq]
      exact freeEntry_offQueue (x := x') (by rw [State.ctx?, hbc]; exact hx')
    have hend : OffQueue L.ctx L.blk.queue L.lid u := by
      rw [hu]
      refine completed_tail hoff fun h _ e => ?_
      rw [OffQueue, e]
      exact h
    exact hend

end Sys2Proof.Claims

/-!
# O48: halts stop, save and restore teams (R403-R408)

A halt of one team stops its fibres and asks for the next halt generation of its context, which moves on at once where nothing of an older one
is on its way. At the return of teams, restoring one leaves the places of all teams as they are, the others' and its own: `Resumes` says what a
step of it keeps, so that each of several teams still stands restored when the last one is.
-/

namespace Sys2Proof.Claims
open Machine

/-! ### A fibre that stops (R149, R404) -/

/-- The arrival of results writes registers, k writes that may be read, and what remains on its way. -/
theorem settleWith_rest (p : RegWrite → Bool) (ws kept : List RegWrite) (x : Fibre) :
    { Fibre.settleWith p ws kept x with regs := x.regs, kok := x.kok, pend := x.pend } = x := by
  have ha (w : RegWrite) (x : Fibre) : { x.absorb w with regs := [], kok := [], pend := [] } = { x with regs := [], kok := [], pend := [] } := by
    unfold Fibre.absorb
    split_ifs <;> rfl
  have h : { Fibre.settleWith p ws kept x with regs := [], kok := [], pend := [] } = { x with regs := [], kok := [], pend := [] } := by
    induction ws generalizing kept x with
    | nil => rfl
    | cons w ws ih =>
      unfold Fibre.settleWith
      split
      · exact (ih ..).trans (ha w x)
      · exact ih ..
  exact congrArg (fun y : Fibre => { y with regs := x.regs, kok := x.kok, pend := x.pend }) h

theorem stop_running {x : Fibre} (h : x.st ≠ .exited) : (x.stop.halted, x.stop.fbuf, x.stop.pc) = (true, none, x.pc) := by
  have hp := congrArg Fibre.pc (settleWith_rest (fun w => w.load.isNone) x.pend [] x)
  rw [Fibre.stop, if_neg h]
  exact congrArg (fun n => (true, none, n)) hp

/-! ### The halt of a team (R404, R405) -/

section
variable {s : State} {t : Nat} {T : Team} {x : Context}

/-- Nothing of an older halt generation of a context is on its way. -/
theorem cxFree_iff (hx : s.ctx? t = some x) : s.cxFree t = true ↔ (∀ r ∈ s.mod.replies, r.ctx = t → r.cxgen = x.cxgen) ∧
    (∀ e ∈ s.reqs, e.2.ctx = t → e.2.through = true → e.2.replay = false → e.2.cxgen = x.cxgen) := by
  have hc : s.ctx t = x := congrArg (·.getD default) hx
  simp [State.cxFree, hc]

/-- A team that has no reduction under way stops at once. -/
theorem haltOne_eq (hr : s.redsOf t = []) (dbg : Option Bool) (sliced : Bool) : s.haltOne dbg sliced t =
    ({ s.saveReqs t with fibres := mapAll s.fibres (fun k x => if fibTeam k = t then x.stop else x) }.modCore (s.teamCore t) (fun c =>
      { c with watch := mapFilter c.watch (fun _ w => fibTeam w.fib != t) })).modTeam t (fun T =>
        { T with phase := if T.phase = Phase.running then Phase.running else Phase.bound, halted := true, haltAsked := some s.ns,
                 sliced := sliced, debugHeld := dbg, again := T.again || T.phase != Phase.running }) := by
  unfold State.haltOne
  rw [hr]
  rfl

theorem haltTeams_single (hT : s.team? t = some T) (hh : T.halted = false) (dbg : Option Bool) (sliced : Bool) :
    s.haltTeams [t] dbg sliced = (s.haltOne dbg sliced t).bumpCxgen T.ctx (s.flightsOf t) := by
  have ht : s.team t = T := congrArg (·.getD default) hT
  have hd : [T.ctx].eraseDups = [T.ctx] := rfl
  simp [State.haltTeams, hT, ht, hh, hd]

/-- A generation that a halt asks for: due, until nothing of an older one is on its way (R405). -/
theorem bumpCxgen_ctx (hx : s.ctx? t = some x) (n : Nat) :
    let u := s.bumpCxgen t n
    let fresh := (∀ r ∈ s.mod.replies, r.ctx = t → r.cxgen = x.cxgen) ∧
      (∀ e ∈ s.reqs, e.2.ctx = t → e.2.through = true → e.2.replay = false → e.2.cxgen = x.cxgen)
    (fresh → u.ctx? t = some { x with cxgen := x.cxgen + 1 }) ∧ (¬fresh → u.ctx? t = some { x with due := x.due + 1 }) := by
  intro u fresh
  let w := (s.modMod (fun m => { m with replies := m.replies ++ List.replicate n { ctx := t, cxgen := (s.ctx t).cxgen } })).modCtx t
    (fun x => { x with due := x.due + 1 })
  have hw : w.ctx? t = some { x with due := x.due + 1 } := by
    rw [State.ctx?_modCtx]
    exact congrArg (Option.map _) hx
  have hd : 0 < (w.ctx t).due := by
    rw [show w.ctx t = _ from congrArg (·.getD default) hw]
    exact Nat.succ_pos _
  have hf : w.cxFree t = true ↔ fresh := by
    have hc : (s.ctx t).cxgen = x.cxgen := by rw [show s.ctx t = x from congrArg (·.getD default) hx]
    rw [cxFree_iff hw]
    refine and_congr_left fun _ => ⟨fun h r hr => h r (List.mem_append_left _ hr), fun h r hr he => ?_⟩
    rcases List.mem_append.1 hr with hr | hr
    · exact h r hr he
    · rw [(List.mem_replicate.1 hr).2]
      exact hc
  have hu : u = w.settleCxgen t := rfl
  rw [hu, State.settleCxgen]
  refine ⟨fun h => ?_, fun h => ?_⟩
  · rw [if_pos ⟨hd, hf.2 h⟩, State.ctx?_modCtx, hw]
    rfl
  · rw [if_neg fun hc => h (hf.1 hc.2), hw]

theorem settleCxgen_fibres (s : State) (c : Nat) : (s.settleCxgen c).fibres = s.fibres := by
  unfold State.settleCxgen
  split_ifs <;> rfl

theorem settleCxgen_teams (s : State) (c : Nat) : (s.settleCxgen c).teams = s.teams := by
  unfold State.settleCxgen
  split_ifs <;> rfl

theorem settleCxgen_none (h : (s.ctx t).due = 0) : s.settleCxgen t = s := by
  simp [State.settleCxgen, h]

end

theorem haltsStopTeams : HaltsStopTeams := by
  refine ⟨fun s t T x hT hh hp hr hx => ?_, fun s c h => ?_, fun s c x hx hc hd ht hs hn => ?_, fun s c h => ?_,
    fun s c r rest hr hc hg => ?_⟩
  · intro fresh
    have hv := haltOne_eq hr none false
    set v := s.haltOne none false t with hvs
    have hbump := bumpCxgen_ctx (s := v) (x := x) (by rw [hv]; exact hx) (s.flightsOf t)
    have hvf : fresh ↔ (∀ r ∈ v.mod.replies, r.ctx = T.ctx → r.cxgen = x.cxgen) ∧
        (∀ e ∈ v.reqs, e.2.ctx = T.ctx → e.2.through = true → e.2.replay = false → e.2.cxgen = x.cxgen) := by
      rw [hv]
      exact Iff.rfl
    have hteam : (v.bumpCxgen T.ctx (s.flightsOf t)).team? t = some { T with
        phase := if T.phase = .running then .running else .bound, halted := true, haltAsked := some s.ns, sliced := false,
        debugHeld := none, again := T.again || T.phase != .running } := by
      rw [State.team?, State.bumpCxgen, settleCxgen_teams, hv]
      exact (State.team?_modTeam ..).trans (congrArg (Option.map _) hT)
    have hfib (f : Nat) : (v.bumpCxgen T.ctx (s.flightsOf t)).fibre? f =
        (s.fibre? f).map (fun y => if f / 1024 = t then y.stop else y) := by
      rw [State.fibre?, State.bumpCxgen, settleCxgen_fibres, hv]
      exact mapGet_mapAll s.fibres f (fun k x => if fibTeam k = t then x.stop else x)
    have hut := congrArg (fun o : Option Team => o.getD default) hteam
    refine ⟨_, congrArg Host.Outcome.next (haltTeams_single hT hh none false), ?_, ?_, fun h => ?_, fun h => ?_, fun f y hf hy hst => ?_,
      fun f hf => ?_⟩
    · exact congrArg Team.halted hut
    · exact congrArg Team.haltAsked hut
    · have hc := congrArg (fun o : Option Context => o.getD default) (hbump.1 (hvf.1 h))
      have hgen := congrArg Context.cxgen hc
      have hdue := congrArg Context.due hc
      exact ⟨hgen, hdue⟩
    · have hc := congrArg (fun o : Option Context => o.getD default) (hbump.2 fun hn => h (hvf.2 hn))
      have hgen := congrArg Context.cxgen hc
      have hdue := congrArg Context.due hc
      exact ⟨hgen, hdue⟩
    · rw [hfib, hy, Option.map_some, Option.map_some, if_pos hf, stop_running hst]
    · rw [hfib]
      simp [hf]
  · show execSliceEnd c s = _
    rw [execSliceEnd, if_pos]
    rcases h with h | h <;> simp [h]
  · show execSliceEnd c s = _
    have hp : (s.ctx c).part = x.part := by rw [show s.ctx c = x from congrArg (·.getD default) hx]
    have hl : s.live c = true := by simp [State.live, hx, hc, hd]
    rw [execSliceEnd, if_neg (by simp [hl, ht]; omega), hp]
  · show execStaleReplyDrop c s = _
    have hf : s.mod.replies.find? (fun r => r.ctx == c && r.cxgen != (s.ctx c).cxgen) = none := by
      simp only [List.find?_eq_none, Bool.and_eq_true, beq_iff_eq, bne_iff_ne, not_and, not_not]
      exact h
    rw [execStaleReplyDrop, hf]
  · show execStaleReplyDrop c s = _
    have hf : s.mod.replies.find? (fun r => r.ctx == c && r.cxgen != (s.ctx c).cxgen) = some r := by
      rw [hr, List.find?_cons_of_pos (by simp [hc, hg])]
    rw [execStaleReplyDrop, hf]
    simp [State.modMod, hr]

/-! ### Completion and the watchdog (R404, R406, R407) -/

section
variable {s : State} {t : Nat} {T : Team} {asked : Nat}

theorem parkTeam_none (h : ∀ e ∈ s.allFibres t, e.2.capMode = false) : s.parkTeam t = (true, s) := by
  have hf : (s.allFibres t).filter (fun e => e.2.capMode && e.2.st != .exited) = [] :=
    List.filter_eq_nil_iff.2 fun e he => by simp [h e he]
  rw [State.parkTeam, hf]
  rfl

theorem haltComplete_eq {ns : Nat} (hT : s.team? t = some T) (hh : T.halted = true) (hs : T.saved = none)
    (ha : T.haltAsked = some asked) (hp : T.phase = .running) (hn : s.ns + ns - asked < 50000) (hr : s.redsOf t = [])
    (hcap : ∀ e ∈ s.allFibres t, e.2.capMode = false) (hd : s.dividing t = false) (hdue : (s.ctx T.ctx).due = 0) :
    exec (.haltComplete t ns) s = .next (({ s with ns := s.ns + ns }.modTeam t (fun x =>
      { x with saved := some (s.saveOf t) })).chargeDebt T.ctx asked T.sliced) := by
  show execHaltComplete t ns s = _
  have hperf : s.performReqs [] = s := rfl
  have hnot : ¬ 50000 ≤ s.ns + ns - asked := by omega
  simp [execHaltComplete, hT, hh, hs, ha, hr, hperf, settleCxgen_none hdue, parkTeam_none hcap, hd, hdue, hp, hnot]

theorem haltWatchdog_eq (hT : s.team? t = some T) (ha : T.haltAsked = some asked) : exec (.haltWatchdog t) s =
    .next (if T.halted && T.saved.isNone && decide (50000 ≤ s.ns - asked) then
      (s.killAll T.ctx).logCtx T.ctx (.sliceKilled (s.ctx T.ctx).part s.ns) else s) := by
  show execHaltWatchdog t s = _
  simp only [execHaltWatchdog, hT, ha, Option.getD_some]

end

/-! ### Resumption (R407, R408) -/

/-- What decides where a team stands and whether it runs. -/
def Team.standing (T : Team) : Nat × Nat × BindRec × Bool × Bool := (T.ctx, T.lid, T.brec, T.halted, T.saved.isSome)

/-- From s to u every team stands where it stood, halted or not, saved or not, and the system log has lost nothing. -/
structure Stays (s u : State) : Prop where
  teams : ∀ k, (u.team? k).map Team.standing = (s.team? k).map Team.standing
  log : ∀ e ∈ s.mod.log, e ∈ u.mod.log

namespace Stays
variable {s t u : State}

theorem refl (s : State) : Stays s s := ⟨fun _ => rfl, fun _ h => h⟩

theorem frame (h : Stays s t) (e : (u.teams, u.mod) = (t.teams, t.mod) := by rfl) : Stays s u := by
  obtain ⟨ht, hm⟩ := Prod.mk.inj e
  exact ⟨fun k => (congrArg (fun m => (mapGet m k).map Team.standing) ht).trans (h.teams k), hm ▸ h.log⟩

theorem modTeam (h : Stays s t) {j : Nat} {g : Team → Team} (hg : ∀ T, Team.standing (g T) = Team.standing T := by intro _; rfl) :
    Stays s (t.modTeam j g) :=
  ⟨fun k => (map_mapGet_mapMod _ _ _ hg).trans (h.teams k), h.log⟩

theorem steady (s : State) : Steady (Stays s) where
  frame h e := by
    obtain ⟨-, e⟩ := Prod.mk.inj e
    obtain ⟨ht, e⟩ := Prod.mk.inj e
    have hm := congrArg (fun p => p.2.2.2.2) e
    exact h.frame (congrArg₂ Prod.mk ht hm)
  modFibre h _ := h.frame
  modTeam h hg := h.modTeam fun T => congrArg (fun p : Team × Bool => (p.1.ctx, p.1.lid, p.1.brec, p.1.halted, p.2)) (hg T)
  modLaunch h _ := h.frame
  modCtx h _ := h.frame

theorem acquire (h : Stays s t) {f sc} : Stays s (t.acquire f sc) := (steady s).acquireCore h

theorem arriveAfterHalt (h : Stays s t) {f} : Stays s (t.arriveAfterHalt f) := ((steady s).arriveBefore h).frame

theorem arriveTeam (h : Stays s t) {k} : Stays s (t.arriveTeam k) := foldl_keeps h fun _ _ h => h.arriveAfterHalt

theorem retag (h : Stays s t) {k} : Stays s (t.retag k) := h.frame

theorem wakeFibres (h : Stays s t) {k} : Stays s (t.wakeFibres k) := h.frame

theorem mirrorInto (h : Stays s t) {k} : Stays s (t.mirrorInto k) := ite_keeps ((steady s).placeWrite h) h

theorem completeWhere (h : Stays s t) {p q} : Stays s (t.completeWhere p q) := foldl_keeps h fun _ _ h => ite_keeps h.frame h

theorem recheckMask (h : Stays s t) {p i} : Stays s (t.recheckMask p i) := by
  unfold State.recheckMask
  extract_lets m atPc pcs v w
  have hv : Stays s v := foldl_keeps h fun _ _ h => ite_keeps h.completeWhere h
  exact ite_keeps hv.completeWhere hv

theorem recheckHbar (h : Stays s t) {k sc} : Stays s (t.recheckHbar k sc) := by
  rw [recheckHbar_eq]
  refine ite_keeps (foldl_keeps (foldl_keeps h fun _ _ h => h.modTeam) fun _ _ h => ?_) h
  exact h.acquire.frame

theorem retest (h : Stays s t) {k} : Stays s (t.retest k) := by
  have hm : Stays s ((List.range (t.launchOfTeam k).blk.packs).foldl (fun s p => s.recheckMasks (k * 32 + p)) t) :=
    foldl_keeps h fun _ _ h => foldl_keeps h fun _ _ h => h.recheckMask
  refine foldl_keeps (foldl_keeps hm fun _ _ h => ?_) fun _ _ h => h.recheckHbar
  split
  · exact ite_keeps h.frame h
  · exact h

theorem rewatch (h : Stays s t) {f} : Stays s (t.rewatch f) := by
  unfold State.rewatch
  dsimp only
  split
  · exact ite_keeps h h.frame
  · exact h

/-- What restores a team's state moves no team (R407). -/
theorem resumeTeam (s : State) (t : Nat) (r : BindRec) (v : Saved) :
    Stays (s.modTeam t (fun x => { x with brec := r, saved := none, halted := false, haltAsked := none, sliced := false }))
      (s.resumeTeam t r v) := by
  unfold State.resumeTeam
  extract_lets T u w
  have hu : Stays u u := .refl u
  have hr : Stays u ((u.takeOver t).restoreTeam t v) := hu.frame
  have hw : Stays u w := hr.mirrorInto.retag.arriveTeam.wakeFibres.retest
  exact ite_keeps hu (foldl_keeps hw fun _ _ h => h.rewatch)

theorem serveQueue (h : Stays s t) {p L} : Stays s (t.serveQueue p L) := by
  have hs : Stays s ({ t with parts := mapMod t.parts p (fun q => { q with served := mapSet q.served (State.queueId L) t.mod.nextOrder }) }.modMod
      (fun m => { m with nextOrder := m.nextOrder + 1 })) := ⟨h.teams, h.log⟩
  exact ite_keeps (ite_keeps hs hs.frame) hs

theorem logSys (h : Stays s t) {e} : Stays s (t.logSys e) := ⟨h.teams, fun a ha => List.mem_append_left _ (h.log a ha)⟩

/-- A record with `RESUME` gives one team its place back, lets it run, and is logged. -/
theorem resumeOne (s : State) (t : Nat) (r : BindRes) : Stays (s.modTeam t (fun x =>
    { x with brec := s.recordAgain t r, saved := none, halted := false, haltAsked := none, sliced := false })) (s.resumeOne t r) :=
  (resumeTeam ..).serveQueue.logSys

end Stays

/-- A team stands as it stood. -/
theorem Stays.team {s u : State} (h : Stays s u) (k : Nat) : Team.standing (u.team k) = Team.standing (s.team k) := by
  have hk := h.teams k
  show Team.standing ((u.team? k).getD default) = Team.standing ((s.team? k).getD default)
  cases hu : u.team? k <;> cases hs : s.team? k <;> rw [hu, hs] at hk <;> simp_all

/-- A team that is neither halted nor saved. -/
def Awake (s : State) (k : Nat) : Prop := (s.team k).halted = false ∧ (s.team k).saved = none

/-- From s to u teams have been resumed: none has changed its launch or stopped, and the system log has lost nothing. -/
structure Resumes (s u : State) : Prop where
  launch : ∀ k, ((u.team k).ctx, (u.team k).lid) = ((s.team k).ctx, (s.team k).lid)
  awake : ∀ k, Awake s k → Awake u k
  log : ∀ e ∈ s.mod.log, e ∈ u.mod.log

theorem Awake.of_standing {s u : State} {k : Nat} (h : Team.standing (u.team k) = Team.standing (s.team k)) (ha : Awake s k) : Awake u k := by
  obtain ⟨hh, hs⟩ := ha
  obtain ⟨hh', hs'⟩ := Prod.mk.inj (congrArg (fun p => p.2.2.2) h)
  refine ⟨hh'.trans hh, ?_⟩
  rw [hs] at hs'
  exact Option.isSome_eq_false_iff.1 hs' |> Option.isNone_iff_eq_none.1

/-- The team that is given its place back, right at the change of its record. -/
theorem modTeam_awake (s : State) (t k : Nat) (r : BindRec) :
    let u := s.modTeam t (fun x => { x with brec := r, saved := none, halted := false, haltAsked := none, sliced := false })
    ((u.team k).ctx, (u.team k).lid) = ((s.team k).ctx, (s.team k).lid) ∧ (Awake s k ∨ k = t → Awake u k) := by
  intro u
  by_cases hk : k = t
  · subst hk
    have hu : u.team? k = _ := State.team?_modTeam ..
    cases hs : s.team? k with
    | none =>
      rw [hs] at hu
      have e1 : u.team k = default := congrArg (·.getD default) hu
      have e2 : s.team k = default := congrArg (·.getD default) hs
      refine ⟨by rw [e1, e2], fun _ => ?_⟩
      unfold Awake
      rw [e1]
      exact ⟨rfl, rfl⟩
    | some T =>
      rw [hs] at hu
      have e1 : u.team k = _ := congrArg (·.getD default) hu
      have e2 : s.team k = T := congrArg (·.getD default) hs
      refine ⟨by rw [e1, e2]; rfl, fun _ => ?_⟩
      unfold Awake
      rw [e1]
      exact ⟨rfl, rfl⟩
  · have he : u.team k = s.team k := State.team_modTeam_ne _ _ hk
    unfold Awake
    rw [he]
    exact ⟨rfl, fun h => h.resolve_right hk⟩

theorem resumeOne_resumes (s : State) (t : Nat) (r : BindRes) : Resumes s (s.resumeOne t r) ∧ Awake (s.resumeOne t r) t ∧
    .bound (s.team t).ctx (s.team t).lid t ∈ (s.resumeOne t r).mod.log := by
  have h := Stays.resumeOne s t r
  have hk (k : Nat) := modTeam_awake s t k (s.recordAgain t r)
  refine ⟨⟨fun k => ?_, fun k ha => .of_standing (h.team k) ((hk k).2 (.inl ha)), h.log⟩, .of_standing (h.team t) ((hk t).2 (.inr rfl)),
    List.mem_append_right _ List.mem_cons_self⟩
  rw [← (hk k).1]
  exact congrArg (fun p : Nat × Nat × BindRec × Bool × Bool => (p.1, p.2.1)) (h.team k)

/-- Every team of a step has its place back, or one record has been returned. -/
theorem resumeAll_spec (es : List (Nat × BindRes)) (s : State) :
    match s.resumeAll es with
    | .ok u => Resumes s u ∧ ∀ t ∈ es.map (·.1), Awake u t ∧ .bound (s.team t).ctx (s.team t).lid t ∈ u.mod.log
    | .error t => t ∈ es.map (·.1) := by
  induction es generalizing s with
  | nil => exact ⟨⟨fun _ => rfl, fun _ h => h, fun _ h => h⟩, fun t ht => absurd ht List.not_mem_nil⟩
  | cons e es ih =>
    have hs := ih (s.resumeOne e.1 e.2)
    obtain ⟨h1, hawake, hlog⟩ := resumeOne_resumes s e.1 e.2
    unfold State.resumeAll
    split_ifs
    · cases hr : (s.resumeOne e.1 e.2).resumeAll es with
      | ok u =>
        rw [hr] at hs
        obtain ⟨h2, hall⟩ := hs
        refine ⟨⟨fun k => (h2.launch k).trans (h1.launch k), fun k hk => h2.awake k (h1.awake k hk), fun a ha => h2.log a (h1.log a ha)⟩,
          fun t ht => ?_⟩
        rcases List.mem_cons.1 ht with rfl | ht
        · exact ⟨h2.awake _ hawake, h2.log _ hlog⟩
        · obtain ⟨hc, hl⟩ := Prod.mk.inj (h1.launch t)
          rw [← hc, ← hl]
          exact hall t ht
      | error t =>
        rw [hr] at hs
        exact List.mem_cons_of_mem _ hs
    · exact List.mem_cons_self

/-- What a step of resumption leaves (R127): the teams resumed, or a record returned. -/
def resumed (s : State) : Except Nat State → State
  | .ok u => u
  | .error t => s.logSys (.refused (s.team t).ctx (s.team t).lid t)

section
variable {s : State} {t : Nat} {T : Team}

/-- What a step of resumption does where the policy chooses saved teams, `t` among them, and the records name their slots. -/
theorem teamResume_chosen {k : Nat} {ts : List Nat} {rs : List BindRes} (hT : s.team t = T)
    (hc : s.chooseLaunch (s.ctx T.ctx).part = some (k, .again ts)) (ht : t ∈ ts)
    (hr : rs.map (·.slot) = ts.map (fun e => (s.team e).brec.slot)) :
    exec (.teamResume t rs) s = .next (resumed s (s.resumeAll (ts.zip rs))) := by
  show execTeamResume t rs s = _
  have hn : s.nextAgain t = ts := by simp [State.nextAgain, hT, hc, ht]
  rw [execTeamResume, hn, if_neg (not_not.2 hr.symm)]
  cases s.resumeAll (ts.zip rs) <;> rfl

theorem teamResume_notChosen {r : BindRes} (hT : s.team t = T)
    (h : ∀ k ts, s.chooseLaunch (s.ctx T.ctx).part = some (k, .again ts) → t ∉ ts) : exec (.teamResume t [r]) s = .next s := by
  have hn : s.nextAgain t = [] := by
    unfold State.nextAgain
    rw [hT]
    split
    next k ts hc => simp [h k ts hc]
    next => rfl
  show execTeamResume t [r] s = _
  rw [execTeamResume, hn]
  simp

end

theorem haltsSaveAndRestore : HaltsSaveAndRestore := by
  refine ⟨fun s t T ns asked hT hh hs ha hp hn hr hcap hd hdue => ?_, fun s t T asked hT ha => ?_, fun s t T v r hT hv hslot => ?_⟩
  · refine ⟨_, haltComplete_eq hT hh hs ha hp hn hr hcap hd hdue, ?_⟩
    have hteam : ({ s with ns := s.ns + ns }.modTeam t (fun x => { x with saved := some (s.saveOf t) })).team? t =
        some { T with saved := some (s.saveOf t) } := (State.team?_modTeam ..).trans (congrArg (Option.map _) hT)
    have hsaved := congrArg (fun o : Option Team => (o.getD default).saved) hteam
    unfold State.chargeDebt
    split_ifs with hc
    · exact ⟨hsaved, rfl, rfl, rfl, fun h => by simp [h] at hc⟩
    · exact ⟨hsaved, rfl, rfl, rfl, fun _ => rfl⟩
  · rw [haltWatchdog_eq hT ha]
    refine ⟨fun h => congrArg Host.Outcome.next (if_neg ?_), fun hh hs hn => congrArg Host.Outcome.next (if_pos ?_)⟩
    · rcases h with h | h | h
      · simp [h]
      · simp [h]
      · simp [Nat.not_le.2 h]
    · simp [hh, hs, hn]
  · intro no rec_ next
    have ht : s.team t = T := congrArg (·.getD default) hT
    have hrec : s.recordAgain t r = rec_ := by rw [State.recordAgain, State.numberOf, ht]
    have hslots : [r].map (·.slot) = [t].map (fun e => (s.team e).brec.slot) := by simp [hslot, ht]
    refine ⟨teamResume_notChosen ht, fun k hk hfree => ?_, fun k hk hfree => ?_, fun k ts rs hk hmem hrs => ?_⟩
    · have hone : s.resumeAll ([t].zip [r]) = .ok (s.resumeOne t r) := by
        simp [State.resumeAll, hrec, hfree]
      obtain ⟨-, hawake, hlog⟩ := resumeOne_resumes s t r
      have hstand := (Stays.resumeOne s t r).team t
      have hu : (s.modTeam t (fun x =>
          { x with brec := s.recordAgain t r, saved := none, halted := false, haltAsked := none, sliced := false })).team t = _ :=
        congrArg (·.getD default) ((State.team?_modTeam ..).trans (congrArg (Option.map _) hT))
      refine ⟨_, by rw [teamResume_chosen ht hk List.mem_cons_self hslots, hone, resumed], hawake.1, hawake.2, ?_, ?_⟩
      · rw [hu] at hstand
        exact (congrArg (fun p => p.2.2.1) hstand).trans hrec
      · rw [ht] at hlog
        exact hlog
    · have hnone : s.resumeAll ([t].zip [r]) = .error t := by
        simp [State.resumeAll, hrec, hfree]
      rw [teamResume_chosen ht hk List.mem_cons_self hslots, hnone, resumed, ht]
      rfl
    · have hlen : ts.length = rs.length := by simpa using (congrArg List.length hrs).symm
      have hall := resumeAll_spec (ts.zip rs) s
      rw [List.map_fst_zip hlen.le] at hall
      rw [teamResume_chosen ht hk hmem hrs]
      cases hr : s.resumeAll (ts.zip rs) with
      | ok u =>
        rw [hr] at hall
        obtain ⟨-, hall⟩ := hall
        exact ⟨_, rfl, .inl fun e he => ⟨(hall e he).1.1, (hall e he).1.2, (hall e he).2⟩⟩
      | error e =>
        rw [hr] at hall
        exact ⟨_, rfl, .inr ⟨e, hall, rfl⟩⟩

/-- Settles O48: one team's halt written out, and the teams' places kept through every restoration. -/
theorem haltsStopAndRestore : Obligations.HaltsStopAndRestore := ⟨haltsStopTeams, haltsSaveAndRestore⟩

end Sys2Proof.Claims

/-!
# O22: capsules (R358-R368)

The operations of a capsule at home are accesses like any other: `Steady` says what they leave of the fibre that makes them, so that each
instruction's last update of its fibre decides in what mode the fibre is, what it holds, and where it goes on.
-/

namespace Sys2Proof.Claims
open Machine

/-- A fibre, but for what performing accesses changes of it. -/
theorem Steady.fibreAt (f : Nat) (o : Option (Fibre × List Nat)) : Steady (fun s => (s.fibre? f).map settled = o) where
  frame h e := by
    have hf := congrArg (fun p => p.1) e
    exact (congrArg (fun m => (mapGet m f).map settled) hf).trans h
  modFibre h hk := (map_mapGet_mapMod _ _ _ hk).trans h
  modTeam h _ := h
  modLaunch h _ := h
  modCtx h _ := h

/-! ### What capsule operations keep (R357, R361-R366) -/

namespace Steady
variable {P : State → Prop} (hP : Steady P) {t : State} (h : P t)
include hP h

theorem release {f sc} : P (t.release f sc).2 := by
  unfold State.release
  dsimp only
  split
  · exact hP.modFibre (hP.releaseActs h)
  · split <;> exact hP.releaseActs h

theorem acquire {f sc} : P (t.acquire f sc) := hP.acquireCore h

theorem touchHandle {f k} : P (t.touchHandle f k) := hP.frame h (by rw [touchHandle_frame]; rfl)

theorem lockXl {f va} : P (t.lockXl f va).2 := by
  unfold State.lockXl
  dsimp only
  split
  next e => exact snd_of_eq (hP.translate h) e
  next e =>
    have h1 := snd_of_eq (hP.translate h) e
    split
    next e' => exact snd_of_eq (hP.translate h1) e'
    next e' => exact hP.resolve (snd_of_eq (hP.translate h1) e')

theorem capXl {f va} : P (t.capXl f va).2 := by
  unfold State.capXl
  split
  next e => exact snd_of_eq (hP.translate h) e
  next e => exact hP.lockXl (snd_of_eq (hP.translate h) e)

theorem capRead {f x} : P (t.capRead f x).2 := hP.homeRead (hP.frame (hP.flushSector h))

theorem capWrite {f x off bs} : P (t.capWrite f x off bs) := hP.homeWrite (hP.flushSector h)

theorem mailboxWrite {f block mb r st} : P (t.mailboxWrite f block mb r st).2 := by
  have ha : P (t.arriveAt f (.glob mb)) := hP.arriveBefore h
  unfold State.mailboxWrite
  split
  next e => exact snd_of_eq (hP.translate ha) e
  next e => exact snd_of_eq (hP.translate ha) e
  next e => exact hP.logCtx (snd_of_eq (hP.translate ha) e)
  next e =>
    have ht := snd_of_eq (hP.translate ha) e
    split_ifs
    · exact ht
    · exact hP.homeWrite (hP.flushSector ht)

theorem mailboxErr {f mb} : P (Machine.mailboxErr t f mb).2 := by
  have ha : P (t.arriveAt f (.glob mb)) := hP.arriveBefore h
  unfold Machine.mailboxErr
  split_ifs
  · exact h
  · split
    next e => exact snd_of_eq (hP.translate ha) e
    next e => exact snd_of_eq (hP.translate ha) e

theorem exitAnswer {f k mb r} : (Machine.exitAnswer f k mb r t).elim True P := by
  have ha : P (t.arriveAt f (.glob mb)) := hP.arriveBefore h
  unfold Machine.exitAnswer
  split
  next e => exact hP.logCtx (snd_of_eq (hP.translate ha) e)
  next e =>
    split_ifs
    · trivial
    · exact hP.mailboxWrite (snd_of_eq (hP.translate ha) e)

end Steady

/-! ### The checks of a block (R361, R364) -/

section
variable {o : ME} {s u : State} {n : Need} {b : Batch} {l : Nat} {x : Fibre} {a : Acc} {xl : Xl}

theorem blockPrep_ok (hB : BlockAt o s n b l x a xl u) : blockPrep o (s.laneOf b l) (s.readVals n b l) (past s b l) = .ok a := by
  have hk : (past s b l).kindErr (b.fib l) o.hnd.toNat (eaOff o.off (s.readVals n b l).a) [1] = none := by
    simp [State.kindErr, hB.kind]
  unfold blockPrep
  rw [show (past s b l).kindErr (s.laneOf b l).f (eaOf o (s.readVals n b l)).1 (eaOf o (s.readVals n b l)).2 [1] = none from hk]
  exact mePrep_ok hB.calm hB.ok

/-- The fibre of a lone lane, once its block's page has been translated. -/
theorem BlockAt.fibre {P : State → Prop} (hB : BlockAt o s n b l x a xl u) (hP : Steady P) (h : P (past s b l)) : P u :=
  snd_of_eq (hP.capXl (hP.arriveBefore (hP.touchHandle h))) hB.translated

/-! ### CAPENTER (R361) -/

theorem capenter_eq {v : State} (hB : BlockAt o s (capenterNeed o) b l x a xl u)
    (hm : mailboxErr u (b.fib l) (wordsNat (s.readVals (capenterNeed o) b l).b) = (none, v)) :
    exec (.capenter o) s = .next (capenterAt o (s.laneOf b l) (locVa a.loc) (wordsNat (s.readVals (capenterNeed o) b l).b) xl v) := by
  refine congrArg Host.Outcome.next ((runChecked_lone hB.lone (blockPrep_ok hB)).trans ?_)
  have ht : (((past s b l).touchHandle (s.laneOf b l).f a.hnd).arriveAt (s.laneOf b l).f a.loc).capXl (s.laneOf b l).f (locVa a.loc) =
    (.ok xl, u) := hB.translated
  have hm' : mailboxErr u (s.laneOf b l).f (wordsNat (s.readVals (capenterNeed o) b l).b) = (none, v) := hm
  simp only [ht, hm']

section
variable {v w : State} {blk : List Byte} {mb : Nat} (hh : v.capHeld (b.fib l) (locVa a.loc) xl = false)
  (hr : v.capRead (b.fib l) xl = (blk, w)) (hz : fieldAt blk 12 4 = 0) (he : isSlot (BitVec.ofNat 32 (fieldAt blk 8 4)) = true)
include hh hr hz he

/-- A free block: a new tenure, at the block's entry. -/
theorem capenterAt_free (hs : lockState (fieldAt blk 0 8) = 0) : capenterAt o (s.laneOf b l) (locVa a.loc) mb xl v =
    (let f := b.fib l
     let ckpt := w.readRegs f (rG 4) (l * 128 + 80) 4 ++ [0, 0, 0, 0]
     let ogen := (lockOgen (fieldAt blk 0 8) + 1) % 2 ^ 16
     let u := (((w.capWrite f xl 0 (leBytes 8 (lockWord 1 0 (w.ownerOf f) ogen))).capWrite f xl 0x10
       (newTenure ckpt mb (fieldAt blk 8 4) (scopeCode o.sc))).mailboxWrite f (locVa a.loc) mb 0 (2 ^ 32 - 1)).2.acquire f o.sc
     (u.modFibre f (fun y => { (y.put .v (rG (gIx o.d + 1)) (if (u.fibre f).wasAdopt then 1 else 0)) with wasAdopt := false })).enterCapsule
       f { block := locVa a.loc, owner := w.ownerOf f, ogen := ogen, step := 0, rpc := nextPc b.pc, dreg := gIx o.d, adopter := false,
           hmbx := some mb, count := 0 } ckpt (BitVec.ofNat 32 (fieldAt blk 8 4))) := by
  simp only [capenterAt, State.laneOf_f, State.laneOf_l, State.laneOf_b, hh, hr, hz, he, hs]
  rfl

/-- A parked block: its tenure goes on, at its resume point. -/
theorem capenterAt_parked (hs : lockState (fieldAt blk 0 8) = 2) : capenterAt o (s.laneOf b l) (locVa a.loc) mb xl v =
    (let f := b.fib l
     let ogen := (lockOgen (fieldAt blk 0 8) + 1) % 2 ^ 16
     ((w.capWrite f xl 0 (leBytes 8 (lockWord 1 (lockStep (fieldAt blk 0 8)) (w.ownerOf f) ogen))).acquire f (blockScope blk)).enterCapsule f
       { block := locVa a.loc, owner := w.ownerOf f, ogen := ogen, step := lockStep (fieldAt blk 0 8), rpc := b.pc, dreg := gIx o.d,
         adopter := true, hmbx := none, count := 0 } (blockCkpt blk) (blockCpc blk)) := by
  simp only [capenterAt, State.laneOf_f, State.laneOf_b, hh, hr, hz, he, hs]
  rfl

/-- A running or a broken block: BUSY or BROKEN. -/
theorem capenterAt_taken (hs : lockState (fieldAt blk 0 8) = 1 ∨ lockState (fieldAt blk 0 8) = 3) :
    capenterAt o (s.laneOf b l) (locVa a.loc) mb xl v = w.modFibre (b.fib l) (fun y =>
      { (y.put .v (rG (gIx o.d)) 0).put .v (rG (gIx o.d + 1)) (if lockState (fieldAt blk 0 8) = 1 then 2 else 3) with
        wasAdopt := false }) := by
  rcases hs with hs | hs <;>
    simp only [capenterAt, State.laneOf_f, hh, hr, hz, he, hs] <;> rfl

end

/-- A fibre that enters capsule mode holds its tenure and goes on at the resume point (R361). -/
theorem enterCapsule_fibre? {f : Nat} {h : Held} {ckpt : List Word} {pc : Word} (hs : (s.fibre? f).isSome) :
    ((s.enterCapsule f h ckpt pc).fibre? f).map (fun y => (y.capMode, y.held, y.pc)) = some (true, some h, pc) := by
  obtain ⟨y, hy⟩ := Option.isSome_iff_exists.1 hs
  rw [State.enterCapsule, State.fibre?_modFibre, hy]
  rfl

theorem past_settled (hL : Lone s n b l x) : ((past s b l).fibre? (b.fib l)).map settled = some (settled (x.passed b.pc)) := by
  rw [past_fibre? hL]
  rfl

theorem isSome_of_settled {f : Nat} {y : Fibre} (h : (s.fibre? f).map settled = some (settled y)) : (s.fibre? f).isSome := by
  obtain ⟨z, hz, -⟩ := Option.map_eq_some_iff.1 h
  rw [hz]
  rfl

end

theorem capsuleEntry : CapsuleEntry := by
  intro o s b l x a xl u v w blk hB hm hh hr hz he f lock ogen d mb
  let P (t : State) : Prop := (t.fibre? f).map settled = some (settled (x.passed b.pc))
  have hP : Steady P := Steady.fibreAt _ _
  have hv : P v := snd_of_eq (hP.mailboxErr (hB.fibre hP (past_settled hB.lone))) hm
  have hw : P w := snd_of_eq (hP.capRead hv) hr
  refine ⟨fun hs => ?_, fun hs => ?_, fun hs => ?_⟩
  · intro ckpt u h
    have hu : P u := hP.acquire (hP.mailboxWrite (hP.capWrite (hP.capWrite hw)))
    refine ⟨_, capenter_eq hB hm, capenterAt_free hh hr hz he hs, ?_⟩
    rw [capenterAt_free hh hr hz he hs]
    refine enterCapsule_fibre? ?_
    rw [State.fibre?_modFibre, Option.isSome_map]
    exact isSome_of_settled hu
  · intro h
    have hu : P ((w.capWrite f xl 0 (leBytes 8 (lockWord 1 (lockStep lock) (w.ownerOf f) ogen))).acquire f (blockScope blk)) :=
      hP.acquire (hP.capWrite hw)
    refine ⟨_, capenter_eq hB hm, capenterAt_parked hh hr hz he hs, ?_⟩
    rw [capenterAt_parked hh hr hz he hs]
    exact enterCapsule_fibre? (isSome_of_settled hu)
  · rw [capenter_eq hB hm, capenterAt_taken hh hr hz he hs]

/-! ### A step of a tenure (R362) -/

section
variable {s u : State} {n : Need} {b : Batch} {l : Nat} {x : Fibre} {h : Held} {off : Nat} {xl : Xl} {blk : List Byte}

theorem past_mode (hL : Lone s n b l x) :
    (((past s b l).fibre (b.fib l)).capMode, ((past s b l).fibre (b.fib l)).held) = (x.capMode, x.held) := by
  rw [State.fibre_eq _ (past_fibre? hL)]
  rfl

/-- The fibre of a tenure, once its LOCK has been read. -/
theorem InTenure.fibre {P : State → Prop} (hT : InTenure s n b l x h off xl u blk) (hP : Steady P) (hp : P (past s b l)) : P u := by
  obtain ⟨v, hx, -, -, hr⟩ := hT.page
  exact snd_of_eq (hP.capRead (snd_of_eq (hP.capXl (hP.arriveBefore (hP.arriveBefore hp))) hx)) hr

theorem InTenure.tenure (hT : InTenure s n b l x h off xl u blk) : tenureOf (fieldAt blk 0 8) h = .held := by
  obtain ⟨hs, ho, hg, hst⟩ := hT.mine
  rcases hs with hs | hs <;> simp [tenureOf, tenureHolds, hs, ho, hg, hst]

/-- In a tenure that its LOCK still shows, the step is made on the block as it stands at home. -/
theorem tenureRun_held (hT : InTenure s n b l x h off xl u blk) (k : Xl → Nat → List Byte → State → State) :
    tenureRun (s.laneOf b l) h off k (past s b l) = k xl (fieldAt blk 0 8) blk u := by
  obtain ⟨v, hx, hh, hb, hr⟩ := hT.page
  simp only [tenureRun, State.laneOf_f, hT.calm, hx, hh, hb, hr, hT.tenure]
  rfl

end

/-! ### CSTEP (R362) -/

section
variable {o : ME} {s u : State} {b : Batch} {l : Nat} {x : Fibre} {h : Held} {xl : Xl} {blk : List Byte}

theorem cstep_outside (hL : Lone s (cstepNeed o) b l x) (hm : x.capMode = false) :
    exec (.cstep o) s = .next (raised s b l (illegal b.word)) := by
  refine congrArg Host.Outcome.next ((runLanes_lone hL _).trans ?_)
  obtain ⟨hc, hh⟩ := Prod.mk.inj (past_mode hL)
  simp only [State.laneOf_f, hc, hm]
  rfl

/-- What CSTEP does in a tenure: the check of the store's place, then the step. -/
theorem cstep_inside (hL : Lone s (cstepNeed o) b l x) (hm : x.capMode = true) (hh : x.held = some h) :
    let e := eaOff o.off (s.readVals (cstepNeed o) b l).a
    exec (.cstep o) s = .next (if e < 0x80 ∨ 0x400 < e + o.sz.bytes ∨ e % o.sz.bytes ≠ 0 then raised s b l { eff := 0x032, arg := h.block }
      else tenureRun (s.laneOf b l) h e.toNat (fun xl w _ t =>
        if lockStep w = 32 then raisedIn t b l { eff := 0x032, arg := h.block }
        else ((((t.capWrite (b.fib l) { xl with pa := xl.pa + e.toNat } 0
          (leBytes o.sz.bytes (wordsNat (s.readVals (cstepNeed o) b l).b))).capWrite (b.fib l) xl 0x10
          (bytesOf (t.readRegs (b.fib l) (rC 0) (l * 128 + 80) 8))).capWrite (b.fib l) xl 0x38 (leBytes 4 (nextPc b.pc).toNat)).capWrite
          (b.fib l) xl 0 (leBytes 8 (lockWord 1 (lockStep w + 1) (lockOwner w) (lockOgen w)))).modFibre (b.fib l) (fun y =>
            { y with held := some { h with step := h.step + 1 } })) (past s b l)) := by
  intro e
  refine congrArg Host.Outcome.next ((runLanes_lone hL _).trans ?_)
  obtain ⟨hc, hd⟩ := Prod.mk.inj (past_mode hL)
  simp only [State.laneOf_f, hc, hm, hd, hh]
  rfl

end

/-! ### CAPEXIT (R363) -/

section
variable {o : SY} {s u v : State} {b : Batch} {l : Nat} {x : Fibre} {h : Held} {xl : Xl} {blk : List Byte}

theorem capexit_outside (hL : Lone s (capexitNeed o) b l x) (hm : x.capMode = false) :
    exec (.capexit o) s = .next (raised s b l (illegal b.word)) := by
  refine congrArg Host.Outcome.next ((runLanes_lone hL _).trans ?_)
  obtain ⟨hc, hh⟩ := Prod.mk.inj (past_mode hL)
  simp only [State.laneOf_f, hc, hm]
  rfl

/-- CAPEXIT of a tenure, once its release is done: the answer where the fibre adopted, and then the free lock. -/
theorem capexit_released (hT : InTenure s (capexitNeed o) b l x h 0 xl u blk) (hw : u.leaveWaits (b.fib l) h = [])
    (hr : u.release (b.fib l) (blockScope blk) = (.done, v)) {w : State}
    (ha : h.adopter = false ∧ w = v ∨ h.adopter = true ∧
      exitAnswer (b.fib l) h (fieldAt blk 0x30 8) ((s.readVals (capexitNeed o) b l).a.headD 0) v = some w) :
    exec (.capexit o) s = .next ((w.capWrite (b.fib l) xl 0 (leBytes 8 (lockWord 0 0 0 h.ogen))).leaveCapsule (b.fib l) h
      (some ((s.readVals (capexitNeed o) b l).a.headD 0)) none) := by
  refine congrArg Host.Outcome.next ((runLanes_lone hT.lone _).trans ?_)
  obtain ⟨hc, hd⟩ := Prod.mk.inj (past_mode hT.lone)
  obtain ⟨-, -, hg, -⟩ := hT.mine
  simp only [State.laneOf_f, hc, hT.mode, hd, hT.held]
  rw [tenureRun_held hT]
  simp only [leaveThen, State.laneOf_f, hw, afterRelease, hr, hg]
  rcases ha with ⟨had, rfl⟩ | ⟨had, ha⟩
  · simp only [had]
    rfl
  · simp only [had, ha, if_true]

theorem leaveCapsule_fibre? {f : Nat} {r st : Option Word} (hs : (s.fibre? f).isSome) :
    ((s.leaveCapsule f h r st).fibre? f).map (fun y => (y.held, y.capMode, y.pc)) = some (none, false, h.rpc) := by
  obtain ⟨y, hy⟩ := Option.isSome_iff_exists.1 hs
  rw [State.leaveCapsule, State.fibre?_modFibre, hy]
  rfl

end

/-! ### CAPRESET (R364) -/

theorem capreset_eq {o : ME} {s u v : State} {b : Batch} {l : Nat} {x : Fibre} {a : Acc} {xl : Xl} {blk : List Byte}
    (hB : BlockAt o s (capresetNeed o) b l x a xl u) (hh : u.capHeld (b.fib l) (locVa a.loc) xl = false)
    (hr : u.capRead (b.fib l) xl = (blk, v)) : exec (.capreset o) s = .next (if lockState (fieldAt blk 0 8) = 3 then
      (v.capWrite (b.fib l) xl 0 (leBytes 8 (lockWord 0 0 0 (lockOgen (fieldAt blk 0 8) + 1)))).putD (s.laneOf b l) .v o.d 1 0
      else v.putD (s.laneOf b l) .v o.d 1 1) := by
  refine congrArg Host.Outcome.next ((runChecked_lone hB.lone (blockPrep_ok hB)).trans ?_)
  have ht : (((past s b l).touchHandle (s.laneOf b l).f a.hnd).arriveAt (s.laneOf b l).f a.loc).capXl (s.laneOf b l).f (locVa a.loc) =
    (.ok xl, u) := hB.translated
  simp only [ht]
  simp only [State.laneOf_f, hh, hr]
  rfl

theorem capsuleSteps : CapsuleSteps := by
  refine ⟨fun o s b l x hL hm => cstep_outside hL hm, fun o s b l x hL hm => capexit_outside hL hm, fun o s b l x h hL hm hh => ?_,
    fun o s b l x h xl u blk v w hT hw hr => ?_, fun o s b l x a xl u v blk hB hh hr => capreset_eq hB hh hr⟩
  · intro e
    have hx := cstep_inside hL hm hh
    refine ⟨fun he => hx.trans (congrArg _ (if_pos he)), fun xl u blk h1 h2 h3 hT => ?_⟩
    have hin : ¬(e < 0x80 ∨ 0x400 < e + o.sz.bytes ∨ e % o.sz.bytes ≠ 0) := by omega
    obtain ⟨-, ho, hg, hst⟩ := hT.mine
    rw [show exec (.cstep o) s = _ from hx, if_neg hin, tenureRun_held hT]
    refine ⟨fun hs => congrArg _ (if_pos (hst.trans hs)), fun hs => ?_⟩
    rw [if_neg (by omega), ho, hg, hst]
    refine ⟨_, rfl, rfl, ?_⟩
    let P (t : State) : Prop := (t.fibre? (b.fib l)).map settled = some (settled (x.passed b.pc))
    have hP : Steady P := Steady.fibreAt _ _
    have hu : P u := hT.fibre hP (past_settled hL)
    obtain ⟨y, hy, hye⟩ := Option.map_eq_some_iff.1 (hP.capWrite (hP.capWrite (hP.capWrite (hP.capWrite hu
      (bs := leBytes o.sz.bytes (wordsNat (s.readVals (cstepNeed o) b l).b))) (bs := bytesOf (u.readRegs (b.fib l) (rC 0) (l * 128 + 80) 8)))
      (bs := leBytes 4 (nextPc b.pc).toNat)) (bs := leBytes 8 (lockWord 1 (h.step + 1) h.owner h.ogen)))
    have hpc : y.pc = nextPc b.pc := congrArg (fun p : Fibre × List Nat => p.1.pc) hye
    rw [State.fibre?_modFibre, hy]
    exact congrArg (fun p => some (some { h with step := h.step + 1 }, p)) hpc
  · intro r ha
    let P (t : State) : Prop := (t.fibre? (b.fib l)).map settled = some (settled (x.passed b.pc))
    have hP : Steady P := Steady.fibreAt _ _
    have hu : P u := hT.fibre hP (past_settled hT.lone)
    have hv : P v := snd_of_eq (hP.release hu) hr
    have hpw : P w := by
      rcases ha with ⟨-, rfl⟩ | ⟨-, ha⟩
      · exact hv
      · exact of_some (hP.exitAnswer hv) ha
    exact ⟨_, capexit_released hT hw hr ha, rfl, leaveCapsule_fibre? (isSome_of_settled (hP.capWrite hpw))⟩

/-- Settles O22: what the LOCK shows decides, and what the fibre keeps through the accesses at home is `settled`. -/
theorem capsulesRun : Obligations.CapsulesRun := ⟨capsuleEntry, capsuleSteps⟩

end Sys2Proof.Claims

/-!
# O43: services of ISA.MISSING end (R395)

When a pack returns from a service, its fibres' results arrive and their waits are tested again. A property of a fibre that `Endures` holds
through all of that: that it has ended, where it goes on, and what a register holds to which nothing is on its way.
-/

namespace Sys2Proof.Claims
open Machine

/-! ### What a fibre keeps while its pack restarts (R149, R157) -/

/-- A property of a fibre that the return of its pack to the states it had cannot change. -/
structure Endures (Q : Fibre → Prop) : Prop where
  settled : ∀ {x y}, settled y = settled x → Q x → Q y
  arrived : ∀ {x}, Q x → Q x.arriveAll
  woken : ∀ {x b}, Q x → Q { x with halted := b }
  readied : ∀ {x}, Q x → x.st ≠ .exited → Q { x with st := .ready }

/-- A fibre stands in a state, with a property. -/
def FibreHas (f : Nat) (Q : Fibre → Prop) (s : State) : Prop := ∃ x, s.fibre? f = some x ∧ Q x

namespace FibreHas
variable {s t : State} {f : Nat} {Q : Fibre → Prop}

theorem frame (h : FibreHas f Q s) (e : t.fibres = s.fibres := by rfl) : FibreHas f Q t := by
  obtain ⟨x, hx, hq⟩ := h
  exact ⟨x, (congrArg (mapGet · f) e).trans hx, hq⟩

theorem modFibre (h : FibreHas f Q s) {g : Nat} {k : Fibre → Fibre} (hk : ∀ x, s.fibre? f = some x → g = f → Q x → Q (k x)) :
    FibreHas f Q (s.modFibre g k) := by
  obtain ⟨x, hx, hq⟩ := h
  by_cases hg : f = g
  · subst hg
    exact ⟨k x, by rw [State.fibre?_modFibre, hx]; rfl, hk x hx rfl hq⟩
  · exact ⟨x, by rw [State.fibre?_modFibre_ne _ _ hg, hx], hq⟩

theorem mapAll (h : FibreHas f Q s) {k : Nat → Fibre → Fibre} (hk : ∀ x, Q x → Q (k f x)) (e : t.fibres = Machine.mapAll s.fibres k) :
    FibreHas f Q t := by
  obtain ⟨x, hx, hq⟩ := h
  refine ⟨k f x, ?_, hk x hq⟩
  rw [State.fibre?, e, mapGet_mapAll, show mapGet s.fibres f = _ from hx]
  rfl

variable (hQ : Endures Q)
include hQ

theorem steady (f : Nat) : Steady (FibreHas f Q) where
  frame h e := h.frame (congrArg (fun p => p.1) e)
  modFibre h hk := h.modFibre fun x _ _ hq => hQ.settled (hk x) hq
  modTeam h _ := h.frame
  modLaunch h _ := h.frame
  modCtx h _ := h.frame

theorem arriveAfterHalt (h : FibreHas f Q s) {g} : FibreHas f Q (s.arriveAfterHalt g) := by
  have ha : FibreHas f Q (s.arriveAll g) := ((steady hQ f).arriveBefore h).modFibre fun _ _ _ hq => hQ.arrived hq
  refine ha.modFibre fun x _ _ hq => ?_
  split_ifs with hp
  · exact hQ.readied hq (by rw [hp]; nofun)
  · exact hq

theorem rewatch (h : FibreHas f Q s) {g} : FibreHas f Q (s.rewatch g) := by
  unfold State.rewatch
  dsimp only
  split
  next hst =>
    refine ite_keeps h (frame (s := s.modFibre g (fun x => { x with st := .ready })) ?_)
    refine h.modFibre fun x hx hg hq => hQ.readied hq ?_
    rw [hg, State.fibre_eq _ hx] at hst
    rw [hst]
    nofun
  · exact h

/-- Whatever else a pack's return does, it does not change what a fibre endures. -/
theorem restartPack (h : FibreHas f Q s) {g} : FibreHas f Q (s.restartPack g) := by
  have ha : FibreHas f Q (s.acquire g .sys) := (steady hQ f).acquireCore h
  refine ite_keeps ha (foldl_keeps (foldl_keeps ha fun _ _ h => ?_) fun _ _ h => rewatch hQ h)
  exact (arriveAfterHalt hQ h).modFibre fun _ _ _ hq => hQ.woken hq

end FibreHas

/-! ### The end of a fibre that no service helps (R394, R395) -/

theorem endures_exited : Endures (fun x => x.st = .exited) where
  settled h hx := (congrArg (fun p : Fibre × List Nat => p.1.st) h).trans hx
  arrived h := (congrArg Fibre.st (settleWith_rest ..)).trans h
  woken h := h
  readied h hn := absurd h hn

theorem killMissing_exits {s : State} {f : Nat} {x : Fibre} (hs : sortedKeys s.fibres = true) (hx : s.fibre? f = some x) (w : IWord) :
    ((s.killMissing f x w).fibre? f).map (·.st) = some .exited := by
  let u := (s.escalate f 1 Eff.isaMissing x.pc (wordArg w)).failTeam (fibTeam f)
  have hu : u.fibres = s.fibres := by
    have hf (v : State) (k : Nat) : (v.failTeam k).fibres = v.fibres := by
      unfold State.failTeam
      split_ifs <;> rfl
    exact hf ..
  obtain ⟨he, -⟩ := endFibre_exits (s := u) (f := f) (hu ▸ hs) (by rw [State.fibre?, hu, show mapGet s.fibres f = _ from hx]; rfl)
  obtain ⟨y, hy, hst⟩ := Option.map_eq_some_iff.1 he
  obtain ⟨z, hz, hzst⟩ := FibreHas.restartPack endures_exited (g := f) (s := u.endFibre f) ⟨y, hy, hst⟩
  rw [State.killMissing, State.killFibre, hz]
  exact congrArg some hzst

/-! ### A fibre that a service helps (R395) -/

/-- A fibre that waits for no service goes on at an offset. -/
def GoesOn (pc : Word) (x : Fibre) : Prop := x.missing = none ∧ x.pc = pc

theorem endures_goesOn (pc : Word) : Endures (GoesOn pc) where
  settled h hx := ⟨(congrArg (fun p : Fibre × List Nat => p.1.missing) h).trans hx.1,
    (congrArg (fun p : Fibre × List Nat => p.1.pc) h).trans hx.2⟩
  arrived {x} hx := by
    have hr := settleWith_rest (fun _ => true) x.pend [] x
    exact ⟨(congrArg Fibre.missing hr).trans hx.1, (congrArg Fibre.pc hr).trans hx.2⟩
  woken h := h
  readied h _ := h

/-- A register holds a value, and no write to it is on its way. -/
def Stands (i : Nat) (v : Word) (x : Fibre) : Prop := mapGetD x.regs i 0 = v ∧ i ∉ x.pend.map (·.reg)

/-- The arrival of writes to other registers leaves a register as it is. -/
theorem settleWith_all {i : Nat} {v : Word} (ws : List RegWrite) (x : Fibre) (hw : i ∉ ws.map (·.reg)) (hv : mapGetD x.regs i 0 = v) :
    Stands i v (Fibre.settleWith (fun _ => true) ws [] x) := by
  induction ws generalizing x with
  | nil => exact ⟨hv, List.not_mem_nil⟩
  | cons w ws ih =>
    rw [List.map_cons, List.mem_cons, not_or] at hw
    unfold Fibre.settleWith
    refine ih _ hw.2 ?_
    unfold Fibre.absorb
    split
    · exact hv
    · split
      · rw [← hv]
        simp [mapGetD, mapGet_mapSet_ne _ _ hw.1]
      · exact hv

theorem endures_stands (i : Nat) (v : Word) : Endures (Stands i v) where
  settled {x y} h hx := by
    have hr : y.regs = x.regs := congrArg (fun p : Fibre × List Nat => p.1.regs) h
    have hp : y.pend.map (·.reg) = x.pend.map (·.reg) := congrArg (fun p : Fibre × List Nat => p.2) h
    rw [Stands, hr, hp]
    exact hx
  arrived {x} hx := settleWith_all x.pend x hx.2 hx.1
  woken h := h
  readied h _ := h

theorem Stands.latest {i : Nat} {v : Word} {x : Fibre} (h : Stands i v x) (hi : i ≠ 128) : x.latest i = v := by
  have hf : x.pend.filter (fun w => w.reg == i && w.load.isNone) = [] := by
    refine List.filter_eq_nil_iff.2 fun w hw => ?_
    have hne : w.reg ≠ i := fun e => h.2 (e ▸ List.mem_map_of_mem hw)
    simp [hne]
  rw [← h.1]
  simp [Fibre.latest, Fibre.cands, Fibre.fixedWrites, hf, hi]

theorem force_stands (x : Fibre) {i : Nat} (hi : i ≠ 128) (v : Word) : Stands i v (x.force i v) := by
  unfold Stands
  simp [Fibre.force, hi, mapGetD]

theorem Endures.and {Q R : Fibre → Prop} (hQ : Endures Q) (hR : Endures R) : Endures (fun x => Q x ∧ R x) where
  settled h hx := ⟨hQ.settled h hx.1, hR.settled h hx.2⟩
  arrived h := ⟨hQ.arrived h.1, hR.arrived h.2⟩
  woken h := ⟨hQ.woken h.1, hR.woken h.2⟩
  readied h hn := ⟨hQ.readied h.1 hn, hR.readied h.2 hn⟩

theorem missingAt_some {s : State} {f mode : Nat} {x : Fibre} {w : IWord} (h : s.missingAt f mode = some (x, w)) : s.fibre? f = some x := by
  unfold State.missingAt at h
  split at h
  · cases h
  next y hy =>
    split_ifs at h
    obtain ⟨v, -, he⟩ := Option.map_eq_some_iff.1 h
    rw [hy, (Prod.mk.inj he).1]

/-- A service that writes no memory leaves its fibre with its registers written, and waiting no longer. -/
theorem serve_has {s : State} {f : Nat} {rs : List RegSet} {g : Fibre → Fibre} {Q : Fibre → Prop} (hQ : Endures Q)
    (h : FibreHas f (fun x => Q { g x with missing := none }) (rs.foldl (fun s e => s.serviceReg (fibPack f) e) s)) :
    FibreHas f Q (s.serve f rs [] g) := by
  obtain ⟨x, hx, hq⟩ := h
  exact FibreHas.restartPack hQ ⟨_, by rw [State.fibre?_modFibre, hx]; rfl, hq⟩

/-- Registers that a service writes change neither where the fibre stands nor what it waits for. -/
theorem serviceReg_pc {s : State} {f p : Nat} {pc : Word} (h : FibreHas f (fun x => x.pc = pc) s) (e : RegSet) :
    FibreHas f (fun x => x.pc = pc) (s.serviceReg p e) := by
  have hf (x : Fibre) (r : Nat) (v : Word) : (x.force r v).pc = x.pc := by
    unfold Fibre.force
    split_ifs <;> rfl
  unfold State.serviceReg
  split_ifs
  · exact h.modFibre fun x _ _ hx => (hf ..).trans hx
  · refine h.mapAll (k := fun g x => if fibTeam g = p / 32 then
      { x with kok := (s.team (p / 32)).kser :: x.kok, pend := x.pend.filter (fun w => w.reg != rK (e.reg - 160)) } else x) (fun x hx => ?_) rfl
    split_ifs
    · exact hx
    · exact hx
  · refine h.mapAll (k := fun g x => if fibPack g = p then
      { x with pend := x.pend.filter (fun w => w.reg != rM (e.reg - 224)) } else x) (fun x hx => ?_) rfl
    split_ifs
    · exact hx
    · exact hx
  · exact h

/-- Settles O43: a kill ends the fibre, and what a service leaves of it outlasts the return of its pack. -/
theorem missingServicesEnd : Obligations.MissingServicesEnd := by
  unfold Obligations.MissingServicesEnd
  refine ⟨fun s f x w hs h => ⟨_, ?_, killMissing_exits hs (missingAt_some h) w⟩, fun s f x w hs h => ?_⟩
  · show execMissingEmulation f s = _
    rw [execMissingEmulation, h]
  · have hx := missingAt_some h
    refine ⟨⟨_, ?_, killMissing_exits hs hx w⟩, fun rs => ?_, fun i v hi => ?_⟩
    · show execMissingSignalAnswer f .kill s = _
      rw [execMissingSignalAnswer, h]
    · have hr : FibreHas f (fun y => y.pc = x.pc) (rs.foldl (fun s e => s.serviceReg (fibPack f) e) s) :=
        foldl_keeps (P := FibreHas f fun y => y.pc = x.pc) ⟨x, hx, rfl⟩ fun _ _ h => serviceReg_pc h _
      obtain ⟨y, hy, hpc⟩ := hr
      obtain ⟨z, hz, hm, hp⟩ := serve_has (g := fun y => y.flow (nextPc y.pc)) (endures_goesOn (nextPc x.pc))
        ⟨y, hy, rfl, congrArg nextPc hpc⟩
      refine ⟨s.serve f rs [] (fun y => y.flow (nextPc y.pc)), ?_, by rw [hz, Option.map_some, hm, hp]⟩
      show execMissingSignalAnswer f (.next rs []) s = _
      rw [execMissingSignalAnswer, h]
    · have hne : i ≠ 128 := by omega
      have hkey : fibPack f * 32 + f % 32 % 32 = f := by unfold fibPack; omega
      have hone : (s.serviceReg (fibPack f) { lane := f % 32, reg := i, val := v }).fibre? f = some (x.force i v) := by
        rw [State.serviceReg, if_pos (by show i < 160; omega), hkey, State.fibre?_modFibre, hx]
        rfl
      have hpc : (x.force i v).pc = x.pc := by rw [Fibre.force, if_neg hne]
      obtain ⟨z, hz, ⟨hm, hp⟩, hst⟩ := serve_has (rs := [{ lane := f % 32, reg := i, val := v }]) (g := id)
        ((endures_goesOn x.pc).and (endures_stands i v)) ⟨_, hone, ⟨rfl, hpc⟩, force_stands x hne v⟩
      refine ⟨s.serve f [{ lane := f % 32, reg := i, val := v }] [] id, ?_, by rw [hz, Option.map_some, hm, hp, hst.latest hne]⟩
      show execMissingSignalAnswer f (.again _ []) s = _
      rw [execMissingSignalAnswer, h]

end Sys2Proof.Claims
